-- ==== Sys2Proof/Word.lean ====
section
/-! DEFINITION. The word types of the Kallith KS-1536 and their plainest arithmetic (R5, R23). -/
namespace Sys2Proof

/-- A g register (R23). -/
abbrev Dword := BitVec 64
/-- An instruction word (R46). -/
abbrev Word := BitVec 32
/-- The unit of memory (R5). -/
abbrev Byte := BitVec 8
/-- A code-store or virtual address as a register holds it. -/
abbrev Addr := BitVec 64
/-- A g register number. -/
abbrev Reg := BitVec 5

/-- A number as a doubleword. -/
abbrev dw (n : Nat) : Dword := BitVec.ofNat 64 n

end Sys2Proof
end

