-- ==== Sys2Proof/Machine/Bits.lean ====
section
/-! DEFINITION. Bit fields, sign extension, byte order (R5, R46): the helpers that every later file uses. -/
namespace Sys2Proof.Machine

/-- The `w`-bit field of `v` that starts at bit `lo`, as a number. -/
def fld {n : Nat} (v : BitVec n) (lo w : Nat) : Nat := (v.toNat >>> lo) % 2 ^ w

/-- One bit of `v`. -/
def bit {n : Nat} (v : BitVec n) (i : Nat) : Bool := v.getLsbD i

/-- `v` with the `w`-bit field at bit `lo` replaced. -/
def setFld {n : Nat} (v : BitVec n) (lo w : Nat) (x : Nat) : BitVec n :=
  (v &&& ~~~ (BitVec.ofNat n ((2 ^ w - 1) <<< lo))) ||| BitVec.ofNat n ((x % 2 ^ w) <<< lo)

/-- `v` with bit `i` set to `b`. -/
def setBit {n : Nat} (v : BitVec n) (i : Nat) (b : Bool) : BitVec n := setFld v i 1 b.toNat

/-- The sign extension of a field to a doubleword (R46). -/
def sext {n : Nat} (v : BitVec n) : Dword := v.signExtend 64

/-- The zero extension of a field to a doubleword. -/
def zext {n : Nat} (v : BitVec n) : Dword := v.setWidth 64

/-- A number read as a `w`-bit two's-complement integer. -/
def toSigned (w x : Nat) : Int := if x % 2 ^ w < 2 ^ (w - 1) then (x % 2 ^ w : Int) else (x % 2 ^ w : Int) - (2 ^ w : Int)

/-- An integer as a `w`-bit two's-complement number. -/
def ofSigned (w : Nat) (x : Int) : Nat := (x % (2 ^ w : Int)).toNat

/-- One bit as a doubleword. -/
def ofBool (b : Bool) : Dword := if b then 1 else 0

/-- The number that bytes hold, the lowest address first (R5). -/
def leNat : List Byte → Nat
  | [] => 0
  | b :: bs => b.toNat + 256 * leNat bs

/-- The `n` bytes of a number, the lowest address first (R5). -/
def leBytes : Nat → Nat → List Byte
  | 0, _ => []
  | n + 1, x => BitVec.ofNat 8 x :: leBytes n (x / 256)

/-- The bytes of a list as a bit vector (R5). -/
def leVec (n : Nat) (bs : List Byte) : BitVec n := BitVec.ofNat n (leNat bs)

/-- A field of a byte list: `n` bytes from offset `o`, as a number. -/
def bytesAt (bs : List Byte) (o n : Nat) : Nat := leNat ((bs.drop o).take n)

/-- A byte list with `xs` written at offset `o`. -/
def putBytes (bs : List Byte) (o : Nat) (xs : List Byte) : List Byte :=
  bs.take o ++ xs.take (bs.length - o) ++ bs.drop (o + xs.length)

/-- The numbers of a list packed at `w` bits each, the first lowest. -/
def packNats (w : Nat) : List Nat → Nat
  | [] => 0
  | x :: xs => x % 2 ^ w + (packNats w xs) <<< w

/-- How many leading zero bits a doubleword has; 64 for zero (R66). -/
def clz64 (v : Dword) : Nat := if v = 0 then 64 else 63 - Nat.log2 v.toNat

/-- How many of the low `n` bits of a number are one. -/
def popNat : Nat → Nat → Nat
  | 0, _ => 0
  | n + 1, x => x % 2 + popNat n (x / 2)

/-- The lowest one bit of the low `n` bits, counted up from `i`. -/
def ctzFrom : Nat → Nat → Nat → Nat
  | 0, i, _ => i
  | n + 1, i, x => if x % 2 = 1 then i else ctzFrom n (i + 1) (x / 2)

/-- How many trailing zero bits a doubleword has; 64 for zero (R66). -/
def ctz64 (v : Dword) : Nat := ctzFrom 64 0 v.toNat

/-- Rotation of a doubleword to the left (R273). -/
def rotl64 (v : Dword) (k : Nat) : Dword := v.rotateLeft (k % 64)

/-- The list with its entry at `i` changed. -/
def modAt {α : Type} (l : List α) (i : Nat) (f : α → α) : List α := l.modify i f

/-- An element put in front of the first element of a sorted list that it is before. -/
def insBy {α : Type} (le : α → α → Bool) (x : α) : List α → List α
  | [] => [x]
  | y :: r => if le y x then y :: insBy le x r else x :: y :: r

/-- A list sorted by an order, equal elements kept in their order. -/
def sortBy {α : Type} (le : α → α → Bool) (l : List α) : List α := l.foldl (fun acc x => insBy le x acc) []

/-- The vector with its entry at `i` changed; unchanged beyond its end. -/
def vmod {α : Type} {n : Nat} (v : Vector α n) (i : Nat) (f : α → α) : Vector α n :=
  if h : i < n then v.set i (f v[i]) else v

/-- The entry of a vector at `i`, or a default beyond its end. -/
def vget {α : Type} {n : Nat} (v : Vector α n) (i : Nat) (d : α) : α := if h : i < n then v[i] else d

/-- The multiple of `a` at or above `x`. -/
def alignUp (x a : Nat) : Nat := (x + a - 1) / a * a

/-- The ranges `[a, a+n)` and `[b, b+m)` share an address. -/
def overlaps (a n b m : Nat) : Bool := a < b + m && b < a + n

/-- The pair (key, value) list with one key's value replaced or added, the keys rising. -/
def kvPut {α : Type} (k : Nat) (v : α) : List (Nat × α) → List (Nat × α)
  | [] => [(k, v)]
  | (k', v') :: r => if k < k' then (k, v) :: (k', v') :: r else if k = k' then (k, v) :: r else (k', v') :: kvPut k v r

/-- The value of a key. -/
def kvGet {α : Type} (k : Nat) (l : List (Nat × α)) : Option α := (l.find? (·.1 == k)).map (·.2)

/-- The list without a key. -/
def kvDel {α : Type} (k : Nat) (l : List (Nat × α)) : List (Nat × α) := l.filter (·.1 != k)

end Sys2Proof.Machine
end

