-- ==== Sys2Proof/Machine/Float.lean ====
section
/-! DEFINITION. Number formats, rounding and conversion (R262-R275), and binary32 arithmetic (R70-R72). -/
namespace Sys2Proof.Machine

/-! ## Flags (R36) -/

/-- Arithmetic flags in the layout of `fflg`: iovf nv dz of uf nx (R36). -/
abbrev Flags := BitVec 6
def flNx : Flags := 0x01
def flUf : Flags := 0x02
def flOf : Flags := 0x04
def flDz : Flags := 0x08
def flNv : Flags := 0x10
def flIovf : Flags := 0x20

/-- A flag if a condition holds. -/
def flIf (b : Bool) (f : Flags) : Flags := if b then f else 0

/-! ## Exact values -/

/-- A float value: NaN, an infinity, or (−1)^s · m · 2^e. -/
inductive Val where
  | nan
  | inf (s : Bool)
  | fin (s : Bool) (m : Nat) (e : Int)
deriving DecidableEq, Repr

/-- A floating-point format: the widths of its exponent and fraction (R262), and whether it is E4M3, which has no
infinity (R263). -/
structure FFmt where
  eb : Nat
  fb : Nat
  e4m3 : Bool
deriving DecidableEq, Repr

def bf16 : FFmt := ⟨8, 7, false⟩
def fp16 : FFmt := ⟨5, 10, false⟩
def fp32 : FFmt := ⟨8, 23, false⟩
def e4m3 : FFmt := ⟨4, 3, true⟩
def e5m2 : FFmt := ⟨5, 2, false⟩
def fw48 : FFmt := ⟨11, 36, false⟩

/-- The exponent bias (R262). -/
def FFmt.bias (f : FFmt) : Nat := 2 ^ (f.eb - 1) - 1
/-- The largest exponent field. -/
def FFmt.emax (f : FFmt) : Nat := 2 ^ f.eb - 1
/-- The width of an encoding. -/
def FFmt.bits (f : FFmt) : Nat := 1 + f.eb + f.fb
/-- The exponent of the spacing of subnormals. -/
def FFmt.qmin (f : FFmt) : Int := 1 - (f.bias : Int) - f.fb
/-- The canonical NaN (R263). -/
def FFmt.qnan (f : FFmt) : Nat :=
  if f.e4m3 then 0x7F else f.emax * 2 ^ f.fb + 2 ^ (f.fb - 1)
/-- The encoding of the largest finite magnitude (R262). -/
def FFmt.maxBits (f : FFmt) : Nat := if f.e4m3 then 0x7E else f.emax * 2 ^ f.fb - 1
/-- An infinity's encoding. -/
def FFmt.infBits (f : FFmt) : Nat := f.emax * 2 ^ f.fb
/-- An encoding with its sign bit. -/
def FFmt.signed (f : FFmt) (s : Bool) (b : Nat) : Nat := if s then b + 2 ^ (f.eb + f.fb) else b

/-- The value of an encoding (R262, R263). -/
def FFmt.dec (f : FFmt) (x : Nat) : Val :=
  let fr := x % 2 ^ f.fb
  let e := x / 2 ^ f.fb % 2 ^ f.eb
  let s := x / 2 ^ (f.eb + f.fb) % 2 == 1
  if e = f.emax && !f.e4m3 then (if fr = 0 then .inf s else .nan)
  else if e = f.emax && fr = 7 then .nan
  else if e = 0 then .fin s fr f.qmin
  else .fin s (2 ^ f.fb + fr) ((e : Int) - f.bias - f.fb)

/-- Rounding modes (R108, R265). `sr` carries the lane's 32 random bits. -/
inductive Rm where
  | rne
  | sr (rnd : Nat)
  | tz
deriving DecidableEq, Repr

/-- The quotient `m / 2^k` rounded by a mode, and whether a bit was lost (R265). -/
def roundShift (rm : Rm) (m k : Nat) : Nat × Bool :=
  let t := m >>> k
  let r := m % 2 ^ k
  let up := match rm with
    | .rne => decide (2 * r > 2 ^ k) || (decide (2 * r = 2 ^ k) && t % 2 == 1)
    | .tz => false
    | .sr rnd => decide (rnd < (r <<< 32) >>> k)
  (if up then t + 1 else t, r != 0)

/-- The magnitude `m · 2^e` on the grid of spacing `2^q`: the multiple, and whether a bit was lost. -/
def roundAt (rm : Rm) (m : Nat) (e q : Int) : Nat × Bool :=
  if q ≤ e then (m <<< (e - q).toNat, false) else roundShift rm m (q - e).toNat

/-- Comparison of `m · 2^e` with `n · 2^g`. -/
def magLt (m : Nat) (e : Int) (n : Nat) (g : Int) : Bool :=
  if e ≤ g then decide (m < n <<< (g - e).toNat) else decide (m <<< (e - g).toNat < n)

/-- The encoding of `r · 2^q`, with `r < 2^(fb+1)` or `r = 2^(fb+1)`, on a grid of the format. -/
def FFmt.pack (f : FFmt) (r : Nat) (q : Int) : Nat :=
  if r < 2 ^ f.fb then r else
  if r = 2 ^ (f.fb + 1) then ((q - f.qmin).toNat + 2) <<< f.fb
  else ((q - f.qmin).toNat + 1) <<< f.fb + (r - 2 ^ f.fb)

/-- Rounding a value into a float format: its encoding and flags (R265-R268). -/
def FFmt.round (f : FFmt) (rm : Rm) : Val → Nat × Flags
  | .nan => (f.qnan, 0)
  | .inf s => if f.e4m3 then (f.signed s f.maxBits, flOf ||| flNx) else (f.signed s f.infBits, 0)
  | .fin s m e =>
    if m = 0 then (f.signed s 0, 0) else
    let q0 : Int := e + (Nat.log2 m + 1 : Nat) - (f.fb + 1 : Nat)
    let q := max q0 f.qmin
    let (r, lost) := roundAt rm m e q
    let big : Nat := if f.e4m3 then 14 else 2 ^ (f.fb + 1) - 1
    let qbig : Int := if f.e4m3 then 5 else (f.emax : Int) - 1 - f.bias - f.fb
    if magLt big qbig r q then
      match rm with
      | .tz => (f.signed s f.maxBits, flOf ||| flNx)
      | _ => (f.signed s (if f.e4m3 then f.maxBits else f.infBits), flOf ||| flNx)
    else
      let (r0, _) := roundAt rm m e q0
      let tiny := magLt r0 q0 (2 ^ f.fb) f.qmin
      (f.signed s (f.pack r q), flIf lost flNx ||| flIf (lost && tiny) flUf)

/-- Rounding a value to an integer: the integer, and whether a fraction was lost (R265, R269). -/
def roundInt (rm : Rm) (s : Bool) (m : Nat) (e : Int) : Int × Bool :=
  let (r, lost) := roundAt rm m e 0
  (if s then -(r : Int) else r, lost)

/-- Saturation to a range, and whether it changed the value. -/
def saturate (lo hi x : Int) : Int × Bool := if x < lo then (lo, true) else if hi < x then (hi, true) else (x, false)

/-- A float value to an integer format of `w` bits (R269): the encoding and flags. -/
def valToInt (rm : Rm) (sgn : Bool) (w : Nat) (v : Val) : Nat × Flags :=
  let lo : Int := if sgn then -(2 ^ (w - 1) : Int) else 0
  let hi : Int := if sgn then 2 ^ (w - 1) - 1 else 2 ^ w - 1
  match v with
  | .nan => (0, flNv)
  | .inf s => (ofSigned w (if s then lo else hi), flIovf)
  | .fin s m e =>
    let (i, lost) := roundInt rm s m e
    let (j, sat) := saturate lo hi i
    (ofSigned w j, flIf lost flNx ||| flIf sat flIovf)

/-- An integer as an exact value. -/
def valOfInt (i : Int) : Val := .fin (decide (i < 0)) i.natAbs 0

/-! ## Exact arithmetic -/

def Val.neg : Val → Val
  | .nan => .nan
  | .inf s => .inf (!s)
  | .fin s m e => .fin (!s) m e

/-- The signed multiple of a finite value on the grid `2^q`, `q ≤ e`. -/
def scaled (s : Bool) (m : Nat) (e q : Int) : Int :=
  let n : Int := (m <<< (e - q).toNat : Nat)
  if s then -n else n

/-- The exact sum (R70, R98): an exact zero is +0, but (−0) + (−0) = −0. -/
def Val.add : Val → Val → Val
  | .nan, _ => .nan
  | _, .nan => .nan
  | .inf s, .inf t => if s = t then .inf s else .nan
  | .inf s, .fin .. => .inf s
  | .fin .., .inf t => .inf t
  | .fin s m e, .fin t n g =>
    if m = 0 && n = 0 then .fin (s && t) 0 e
    else if m = 0 then .fin t n g
    else if n = 0 then .fin s m e
    else
      let q := min e g
      let i := scaled s m e q + scaled t n g q
      .fin (decide (i < 0)) i.natAbs q

/-- The exact product (R70, R271). -/
def Val.mul : Val → Val → Val
  | .nan, _ => .nan
  | _, .nan => .nan
  | .inf s, .inf t => .inf (s != t)
  | .inf s, .fin t n _ => if n = 0 then .nan else .inf (s != t)
  | .fin s m _, .inf t => if m = 0 then .nan else .inf (s != t)
  | .fin s m e, .fin t n g => .fin (s != t) (m * n) (e + g)

/-- The order of two numbers: −1, 0 or 1; none when one is NaN. +0 and −0 are equal (R72). -/
def Val.cmp : Val → Val → Option Int
  | .nan, _ => none
  | _, .nan => none
  | .inf s, .inf t => some (if s = t then 0 else if s then -1 else 1)
  | .inf s, .fin .. => some (if s then -1 else 1)
  | .fin .., .inf t => some (if t then 1 else -1)
  | .fin s m e, .fin t n g =>
    let q := min e g
    let i := scaled s m e q
    let j := scaled t n g q
    some (if i < j then -1 else if i = j then 0 else 1)

def Val.isNan : Val → Bool
  | .nan => true
  | _ => false
def Val.isZero : Val → Bool
  | .fin _ m _ => m == 0
  | _ => false
def Val.isInf : Val → Bool
  | .inf _ => true
  | _ => false

/-- The integer square root of `n`, its bits from `k − 1` down. -/
def isqrtFrom : Nat → Nat → Nat → Nat
  | 0, r, _ => r
  | k + 1, r, n => let r' := r + 2 ^ k; if r' * r' ≤ n then isqrtFrom k r' n else isqrtFrom k r n
/-- The integer square root. -/
def isqrt (n : Nat) : Nat := isqrtFrom (Nat.log2 n / 2 + 1) 0 n

/-! ## Binary32 (R70-R72) -/

/-- A NaN encoding (R263). -/
def FFmt.isNan (f : FFmt) (x : Nat) : Bool := (f.dec x).isNan
/-- A signalling NaN (R263). -/
def FFmt.isSnan (f : FFmt) (x : Nat) : Bool := f.isNan x && x / 2 ^ (f.fb - 1) % 2 == 0
/-- The sign bit of an encoding. -/
def FFmt.isNeg (f : FFmt) (x : Nat) : Bool := x / 2 ^ (f.eb + f.fb) % 2 == 1

/-- Addition in a format by round-to-nearest-even (R70, R71, R244). -/
def FFmt.add (f : FFmt) (a b : Nat) : Nat × Flags :=
  if f.isNan a || f.isNan b then (f.qnan, flIf (f.isSnan a || f.isSnan b) flNv)
  else match (f.dec a).add (f.dec b) with
    | .nan => (f.qnan, flNv)
    | v => f.round .rne v

/-- The order in which −0 is below +0 (R71): a is below b. -/
def FFmt.below (f : FFmt) (a b : Nat) : Bool :=
  match (f.dec a).cmp (f.dec b) with
  | some i => if i < 0 then true else if i = 0 then f.isNeg a && !f.isNeg b else false
  | none => false

/-- The minimum or maximum of two encodings (R71, R244). -/
def FFmt.minMax (f : FFmt) (mx : Bool) (a b : Nat) : Nat × Flags :=
  let fl := flIf (f.isSnan a || f.isSnan b) flNv
  if f.isNan a && f.isNan b then (f.qnan, fl)
  else if f.isNan a then (b, fl)
  else if f.isNan b then (a, fl)
  else (if f.below b a != mx then b else a, fl)

def fp32Snan (x : BitVec 32) : Bool := fp32.isSnan x.toNat
def fp32Nan (x : BitVec 32) : Bool := fp32.isNan x.toNat
def fp32Val (x : BitVec 32) : Val := fp32.dec x.toNat
def fp32Round (v : Val) : BitVec 32 × Flags := let (b, f) := fp32.round .rne v; (BitVec.ofNat 32 b, f)
/-- The canonical quiet NaN (R70). -/
def fp32Qnan : BitVec 32 := 0x7FC00000

/-- `fadd` (R71). -/
def fp32Add (a b : BitVec 32) : BitVec 32 × Flags :=
  let (x, f) := fp32.add a.toNat b.toNat
  (BitVec.ofNat 32 x, f)

/-- Negation of an encoding that is not a NaN. -/
def fp32Neg (a : BitVec 32) : BitVec 32 := if fp32Nan a then a else a ^^^ 0x80000000

/-- `fsub` (R71). -/
def fp32Sub (a b : BitVec 32) : BitVec 32 × Flags := fp32Add a (fp32Neg b)

/-- `fmul` (R71). -/
def fp32Mul (a b : BitVec 32) : BitVec 32 × Flags :=
  let va := fp32Val a
  let vb := fp32Val b
  if va.isNan || vb.isNan then (fp32Qnan, flIf (fp32Snan a || fp32Snan b) flNv)
  else match va.mul vb with
    | .nan => (fp32Qnan, flNv)
    | v => fp32Round v

/-- A finite quotient, with a sticky bit below enough quotient bits for one rounding. -/
def divSticky (s : Bool) (m : Nat) (e : Int) (n : Nat) (g : Int) (p : Nat) : Val :=
  let k := p + Nat.log2 n + 2
  let q := (m <<< k) / n
  let r := (m <<< k) % n
  .fin s (2 * q + (if r = 0 then 0 else 1)) (e - g - k - 1)

/-- `fdiv` (R71). -/
def fp32Div (a b : BitVec 32) : BitVec 32 × Flags :=
  let va := fp32Val a
  let vb := fp32Val b
  if va.isNan || vb.isNan then (fp32Qnan, flIf (fp32Snan a || fp32Snan b) flNv)
  else match va, vb with
    | .inf _, .inf _ => (fp32Qnan, flNv)
    | .inf s, .fin t _ _ => fp32Round (.inf (s != t))
    | .fin s _ _, .inf t => fp32Round (.fin (s != t) 0 0)
    | .fin s m e, .fin t n g =>
      if n = 0 then (if m = 0 then (fp32Qnan, flNv) else ((fp32Round (.inf (s != t))).1, flDz))
      else fp32Round (divSticky (s != t) m e n g 26)
    | _, _ => (fp32Qnan, 0)

/-- `fsqrt` (R71). -/
def fp32Sqrt (a : BitVec 32) : BitVec 32 × Flags :=
  match fp32Val a with
  | .nan => (fp32Qnan, flIf (fp32Snan a) flNv)
  | .inf s => if s then (fp32Qnan, flNv) else (a, 0)
  | .fin s m e =>
    if m = 0 then (a, 0) else if s then (fp32Qnan, flNv) else
    let odd := e % 2 != 0
    let m1 := if odd then 2 * m else m
    let e1 := if odd then e - 1 else e
    let m2 := m1 <<< 60
    let r := isqrt m2
    fp32Round (.fin false (2 * r + (if r * r = m2 then 0 else 1)) (e1 / 2 - 31))

/-- `fmin` and `fmax` (R71). -/
def fp32MinMax (mx : Bool) (a b : BitVec 32) : BitVec 32 × Flags :=
  let (x, f) := fp32.minMax mx a.toNat b.toNat
  (BitVec.ofNat 32 x, f)

/-- `fcmp` (R72). -/
def fp32Cmp (a b : BitVec 32) : Nat × Flags :=
  (match (fp32Val a).cmp (fp32Val b) with
    | none => 8
    | some i => if i < 0 then 1 else if i = 0 then 2 else 4,
   flIf (fp32Snan a || fp32Snan b) flNv)

/-- `f2i` (R72). -/
def fp32ToI64 (a : BitVec 32) : Dword × Flags :=
  match fp32Val a with
  | .nan => (0, flNv)
  | .inf s => (if s then dw (2 ^ 63) else dw (2 ^ 63 - 1), flNv)
  | .fin s m e =>
    let (i, lost) := roundInt .rne s m e
    let (j, sat) := saturate (-(2 ^ 63 : Int)) (2 ^ 63 - 1) i
    (BitVec.ofInt 64 j, if sat then flNv else flIf lost flNx)

/-- `i2f` (R71). -/
def i64ToFp32 (a : Dword) : BitVec 32 × Flags := fp32Round (valOfInt a.toInt)

/-! ## FW48 (R29, R271) -/

/-- The value of a float-class element. -/
def fwVal (x : Nat) : Val := fw48.dec x
/-- Rounding into FW48 by round-to-nearest-even (R265). -/
def fwRound (v : Val) : Nat × Flags := fw48.round .rne v
/-- The canonical NaN of FW48. -/
def fwNan : Nat := 0x7FF800000000
/-- `fw48_add` (R271). -/
def fwAdd (x y : Nat) : Nat × Flags := fwRound ((fwVal x).add (fwVal y))
/-- `fw48_mul` (R271). -/
def fwMul (x y : Nat) : Nat × Flags := fwRound ((fwVal x).mul (fwVal y))
/-- A binary32 value in FW48, exactly (R271). -/
def fwOfFp32 (x : Nat) : Nat := (fwRound (fp32.dec x)).1

/-! ## Tile formats (R27, R262, R264) -/

/-- The float format of a format code. -/
def fmtFloat (c : Nat) : Option FFmt :=
  match c with
  | 1 => some bf16
  | 2 => some fp16
  | 3 => some fp32
  | 4 => some e4m3
  | 5 => some e5m2
  | _ => none

/-- The signedness and width of the integer format of a format code. -/
def fmtInt (c : Nat) : Option (Bool × Nat) :=
  match c with
  | 6 => some (true, 8)
  | 7 => some (true, 16)
  | 8 => some (true, 32)
  | 9 => some (true, 4)
  | 10 => some (false, 4)
  | 11 => some (false, 8)
  | 12 => some (false, 16)
  | 15 => some (false, 32)
  | _ => none

/-- The element bits of a tile format (R27); 0 for a code that is none. -/
def fmtBits (c : Nat) : Nat :=
  match c with
  | 1 | 2 | 7 | 12 => 16
  | 3 | 8 | 15 => 32
  | 4 | 5 | 6 | 11 | 19 | 20 | 21 => 8
  | 9 | 10 | 16 | 17 | 18 => 4
  | 13 | 14 => 48
  | _ => 0

/-- The width code of a tile format (R27). -/
def fmtWcode (c : Nat) : Nat :=
  match fmtBits c with
  | 4 => 0
  | 8 => 1
  | 16 => 2
  | _ => 3

/-- A tile format code: "Tile format" in R27. -/
def fmtIsTile (c : Nat) : Bool := (1 ≤ c && c ≤ 12) || (15 ≤ c && c ≤ 21)
/-- A grouped format code (R27). -/
def fmtGrouped (c : Nat) : Bool := 16 ≤ c && c ≤ 21

/-- The value of an element of an ungrouped tile format. -/
def fmtVal (c x : Nat) : Val :=
  match fmtFloat c, fmtInt c with
  | some f, _ => f.dec x
  | _, some (sg, w) => valOfInt (if sg then toSigned w x else (x : Int))
  | _, _ => .fin false 0 0

end Sys2Proof.Machine
end

