-- ==== Sys2Proof/Machine/Flags.lean ====
section
/-! DEFINITION. Results with flags: division (R67), comparison (R66, R73), binary32 results in a doubleword (R70). -/
namespace Sys2Proof.Machine

/-- `div`: the quotient truncates toward zero; division by zero sets dz, −2^63 / −1 sets iovf (R67). -/
def divS (a b : Dword) : Dword × Flags :=
  if b = 0 then (BitVec.allOnes 64, flDz)
  else if a = dw (2 ^ 63) ∧ b = BitVec.allOnes 64 then (a, flIovf)
  else (BitVec.ofInt 64 (a.toInt.tdiv b.toInt), 0)
/-- `divu` (R67). -/
def divU (a b : Dword) : Dword × Flags := if b = 0 then (BitVec.allOnes 64, flDz) else (a / b, 0)
/-- `rem`: the remainder takes the sign of the dividend (R67). -/
def remS (a b : Dword) : Dword × Flags :=
  if b = 0 then (a, flDz) else (BitVec.ofInt 64 (a.toInt.tmod b.toInt), 0)
/-- `remu` (R67). -/
def remU (a b : Dword) : Dword × Flags := if b = 0 then (a, flDz) else (a % b, 0)

/-- The high half of the signed product (R66). -/
def mulHighS (a b : Dword) : Dword := BitVec.ofInt 64 ((a.toInt * b.toInt) / 2 ^ 64)
/-- The high half of the unsigned product (R66). -/
def mulHighU (a b : Dword) : Dword := BitVec.ofNat 64 ((a.toNat * b.toNat) / 2 ^ 64)

/-- Signed order. -/
def ltS (a b : Dword) : Bool := a.slt b
/-- Unsigned order. -/
def ltU (a b : Dword) : Bool := a.ult b

/-- A binary32 operand: bits 31:0 of a register (R70). -/
def lo32 (v : Dword) : BitVec 32 := v.setWidth 32

/-- A binary32 result in a register, with its flags: bits 63:32 are cleared (R70). -/
def fpRes (r : BitVec 32 × Flags) : Dword × Flags := (zext r.1, r.2)

end Sys2Proof.Machine
end

