-- ==== Sys2Proof/Config.lean ====
section
/-! DEFINITION. What the spec leaves open: free values, constants with no body (assumption log 9). -/
namespace Sys2Proof.Config

/-- The bytes of a peer device's memory, which this model does not hold (R393): applied to the counter `fresh`. -/
opaque peerByte : Nat → BitVec 8

/-- Whether an agent of another device has stored to a byte of a peer's memory since this device last met it (R230): applied
to the counter `fresh`. -/
opaque peerWrote : Nat → Bool

/-- `tval` after a trap whose rule names no value for it (R316). -/
opaque openTval : Nat → BitVec 64

/-- Destination bytes of a copy record that overlap its source (R173). -/
opaque copyByte : Nat → BitVec 8
/-- Whether a destination byte beyond the point where a copy record stopped holds its source value (R174). -/
opaque copyTorn : Nat → Bool

/-- The code of a copy record that stops at an access for which the rules name none: a conflict, a full slice, a poisoned
index (R154, R173, R344). -/
opaque stopCode : Nat → Nat

/-- Whether a byte at which a store's side data lies over its element data keeps the element's value (R282). -/
opaque overlapByte : Nat → Bool

/-- The elements of a pattern whose kind is reserved, which no `pset` has checked (R12, R121). -/
opaque patternElem : BitVec 64 → Nat → Nat → Bool
/-- The side store of a grouped tile that `ld.ff` loads (R162). -/
opaque fifoSide : Nat → BitVec 8192

/-- A sensor reading of Basoc (R400). -/
opaque sensor : Nat → BitVec 64

/-- A digest or a signature of the cryptographic standards that the spec names and does not define (R401, R402). -/
opaque digest : List (BitVec 8) → BitVec 512
opaque signatureByte : List (BitVec 8) → BitVec 256 → Nat → BitVec 8
/-- Whether an image's SLH-DSA signature passes (R401). -/
opaque imageSigned : List (BitVec 8) → Bool
/-- The key digest fused into the device (R401) and the public key of its identity (R402). -/
opaque fusedKey : BitVec 512
opaque identityKey : BitVec 512
/-- The identity that the device page shows (R388). -/
opaque deviceIdentity : BitVec 64
/-- The measurement of an image that a bank was made with (R402). -/
opaque madeImage : Nat → BitVec 512

/-- Bytes of a pool line whose store was lost with its region (R240). -/
opaque lostByte : Nat → BitVec 8

/-- Core cycles and array busy cycles, counters 0 and 5 of R338, which follow timing alone. -/
opaque cycles : Nat → BitVec 64

end Sys2Proof.Config
end

