-- ==== Sys2Proof/Syntax.lean ====
section
/-! DEFINITION. The instructions and steps of the Kallith KS-1536: one constructor for each row of
spec/opcode_table.json, in the table's order. The first 185 have instruction words (R46-R53); the rest are
steps of other agents (95_what_each_step_holds.md) and have none. -/
namespace Sys2Proof

/-- The token field, bits 25:22 of a word (R46). -/
structure Tok where
  wu : Bool
  wd : Bool
  su : Bool
  sd : Bool
deriving DecidableEq, Repr

/-- What Basoc's monitoring reads (R400): the event log's entry of a number (R391), counter k of an Ethernet port (R398),
counter k of a core (R338), or another sensor, of which the spec says only that it is a temperature, a rail, or neither. -/
inductive Sensor where
  | log (n : Nat)
  | eth (port : BitVec 3) (k : Nat)
  | core (core : BitVec 11) (k : Nat)
  | thermalOrRail (n : BitVec 16)
  | other (n : BitVec 16)
deriving DecidableEq, Repr

/-- What a boot finds (R403): the step that fails, 0 for none; the Nalyan links, Ethernet ports and pool ports that train;
the domain number and the peer-aperture entries that the firmware sets (R393, R399): entry, peer, base. -/
structure Boot where
  fail : Nat
  links : BitVec 2
  eth : BitVec 8
  pool : BitVec 4
  domain : Option (BitVec 6)
  aperture : List (Nat × BitVec 6 × BitVec 52)
deriving DecidableEq, Repr

/-- A pre-emption (R315, R323): its reason, and for a core and a queue how many units of the head have been performed when it
stops (R324). -/
structure Preempt where
  reason : BitVec 7
  units : List (BitVec 11 × BitVec 2 × Nat)
deriving DecidableEq, Repr

/-- A store that is sent again (R238): its place in the list of unacknowledged ones, and the third device that relays it. -/
structure Resend where
  ix : Nat
  relay : Option (BitVec 6)
deriving DecidableEq, Repr

/-- The device that a store comes from, the one that it is for, and the link that brought this copy (R238, R399). -/
structure Hop where
  src : BitVec 6
  dst : BitVec 6
  link : Bool
deriving DecidableEq, Repr

/-- A place in a function's BAR0 or BAR2 (R387). -/
structure BarPlace where
  bar2 : Bool
  off : BitVec 25
deriving DecidableEq, Repr

/-- A boot in which every step passes and every link trains, of a device in no domain. -/
def Boot.plain : Boot := ⟨0, 3, 255, 15, none, []⟩

/-- The table's rows. A g, stream or CSR field keeps its width; `sc` is a scope code of R47, `loc` is fn<3> of a
scalar access (cluster-local), `x` an extension word, `q` the executing agent of a Y word (R49). -/
inductive Instr where
  /-- R66. Writes the 64-bit sum of g[a] and g[b], modulo 2^64. -/
  | add (d : BitVec 5) (a : BitVec 5) (b : BitVec 5)
  /-- R66. Writes g[a] minus g[b], modulo 2^64. -/
  | sub (d : BitVec 5) (a : BitVec 5) (b : BitVec 5)
  /-- R66. Writes the bitwise AND of g[a] and g[b]. -/
  | and (d : BitVec 5) (a : BitVec 5) (b : BitVec 5)
  /-- R66. Writes the bitwise OR of g[a] and g[b]. -/
  | or (d : BitVec 5) (a : BitVec 5) (b : BitVec 5)
  /-- R66. Writes the bitwise XOR of g[a] and g[b]. -/
  | xor (d : BitVec 5) (a : BitVec 5) (b : BitVec 5)
  /-- R66. Shifts g[a] left by g[b]<5:0>. -/
  | sll (d : BitVec 5) (a : BitVec 5) (b : BitVec 5)
  /-- R66. Shifts g[a] logically right by g[b]<5:0>. -/
  | srl (d : BitVec 5) (a : BitVec 5) (b : BitVec 5)
  /-- R66. Shifts g[a] arithmetically right by g[b]<5:0>. -/
  | sra (d : BitVec 5) (a : BitVec 5) (b : BitVec 5)
  /-- R66. Writes 1 if g[a] is less than g[b] as signed values, else 0. -/
  | slt (d : BitVec 5) (a : BitVec 5) (b : BitVec 5)
  /-- R66. Writes 1 if g[a] is less than g[b] as unsigned values, else 0. -/
  | sltu (d : BitVec 5) (a : BitVec 5) (b : BitVec 5)
  /-- R66. Writes the low 64 bits of the product of g[a] and g[b]. -/
  | mul (d : BitVec 5) (a : BitVec 5) (b : BitVec 5)
  /-- R66. Writes the high 64 bits of the signed 128-bit product. -/
  | mulh (d : BitVec 5) (a : BitVec 5) (b : BitVec 5)
  /-- R66. Writes the high 64 bits of the unsigned 128-bit product. -/
  | mulhu (d : BitVec 5) (a : BitVec 5) (b : BitVec 5)
  /-- R67. Signed division truncating toward zero, with fixed results and flags for zero and overflow cases. -/
  | div (d : BitVec 5) (a : BitVec 5) (b : BitVec 5)
  /-- R67. Unsigned division, writing 2^64 − 1 and setting dz on a zero divisor. -/
  | divu (d : BitVec 5) (a : BitVec 5) (b : BitVec 5)
  /-- R67. Signed remainder taking the sign of the dividend. -/
  | rem (d : BitVec 5) (a : BitVec 5) (b : BitVec 5)
  /-- R67. Unsigned remainder, writing g[a] and setting dz on a zero divisor. -/
  | remu (d : BitVec 5) (a : BitVec 5) (b : BitVec 5)
  /-- R66. Writes the signed minimum of g[a] and g[b]. -/
  | min (d : BitVec 5) (a : BitVec 5) (b : BitVec 5)
  /-- R66. Writes the signed maximum of g[a] and g[b]. -/
  | max (d : BitVec 5) (a : BitVec 5) (b : BitVec 5)
  /-- R66. Writes the unsigned minimum of g[a] and g[b]. -/
  | minu (d : BitVec 5) (a : BitVec 5) (b : BitVec 5)
  /-- R66. Writes the unsigned maximum of g[a] and g[b]. -/
  | maxu (d : BitVec 5) (a : BitVec 5) (b : BitVec 5)
  /-- R66. Counts the leading zero bits of g[a]. -/
  | clz (d : BitVec 5) (a : BitVec 5)
  /-- R66. Counts the trailing zero bits of g[a]. -/
  | ctz (d : BitVec 5) (a : BitVec 5)
  /-- R66. Counts the one bits of g[a]. -/
  | popc (d : BitVec 5) (a : BitVec 5)
  /-- R66. Sign-extends g[a]<7:0> to 64 bits. -/
  | sxb (d : BitVec 5) (a : BitVec 5)
  /-- R66. Sign-extends g[a]<15:0> to 64 bits. -/
  | sxh (d : BitVec 5) (a : BitVec 5)
  /-- R66. Sign-extends g[a]<31:0> to 64 bits. -/
  | sxw (d : BitVec 5) (a : BitVec 5)
  /-- R68. Adds the sign-extended 12-bit immediate to g[a]. -/
  | addi (d : BitVec 5) (a : BitVec 5) (imm : BitVec 12)
  /-- R68. ANDs g[a] with the sign-extended immediate. -/
  | andi (d : BitVec 5) (a : BitVec 5) (imm : BitVec 12)
  /-- R68. ORs g[a] with the sign-extended immediate. -/
  | ori (d : BitVec 5) (a : BitVec 5) (imm : BitVec 12)
  /-- R68. XORs g[a] with the sign-extended immediate. -/
  | xori (d : BitVec 5) (a : BitVec 5) (imm : BitVec 12)
  /-- R68. Shifts g[a] left by an immediate amount. -/
  | slli (d : BitVec 5) (a : BitVec 5) (sh : BitVec 6)
  /-- R68. Shifts g[a] logically right by an immediate amount. -/
  | srli (d : BitVec 5) (a : BitVec 5) (sh : BitVec 6)
  /-- R68. Shifts g[a] arithmetically right by an immediate amount. -/
  | srai (d : BitVec 5) (a : BitVec 5) (sh : BitVec 6)
  /-- R68. Writes 1 if g[a] is less than the immediate, signed. -/
  | slti (d : BitVec 5) (a : BitVec 5) (imm : BitVec 12)
  /-- R68. Writes 1 if g[a] is less than the sign-extended immediate, unsigned. -/
  | sltiu (d : BitVec 5) (a : BitVec 5) (imm : BitVec 12)
  /-- R69. Writes the sign-extended 32-bit extension word to g[d]. -/
  | li (d : BitVec 5) (x : BitVec 32)
  /-- R69. Writes the 32-bit extension word into g[d]<63:32>. -/
  | lih (d : BitVec 5) (x : BitVec 32)
  /-- R71. Adds two binary32 values with round-to-nearest-even and flags. -/
  | fadd (d : BitVec 5) (a : BitVec 5) (b : BitVec 5)
  /-- R71. Subtracts two binary32 values. -/
  | fsub (d : BitVec 5) (a : BitVec 5) (b : BitVec 5)
  /-- R71. Multiplies two binary32 values. -/
  | fmul (d : BitVec 5) (a : BitVec 5) (b : BitVec 5)
  /-- R71. Divides two binary32 values. -/
  | fdiv (d : BitVec 5) (a : BitVec 5) (b : BitVec 5)
  /-- R71. Square root of a binary32 value. -/
  | fsqrt (d : BitVec 5) (a : BitVec 5)
  /-- R71. Smaller of two binary32 values, ignoring one NaN. -/
  | fmin (d : BitVec 5) (a : BitVec 5) (b : BitVec 5)
  /-- R71. Larger of two binary32 values, ignoring one NaN. -/
  | fmax (d : BitVec 5) (a : BitVec 5) (b : BitVec 5)
  /-- R72. Writes the relation code of two binary32 values. -/
  | fcmp (d : BitVec 5) (a : BitVec 5) (b : BitVec 5)
  /-- R72. Converts binary32 to a signed 64-bit integer with saturation. -/
  | f2i (d : BitVec 5) (a : BitVec 5)
  /-- R71. Converts a signed 64-bit integer to binary32. -/
  | i2f (d : BitVec 5) (a : BitVec 5)
  /-- R73. Branches when g[a] equals g[b]. -/
  | beq (a : BitVec 5) (b : BitVec 5) (off : BitVec 12)
  /-- R73. Branches when g[a] differs from g[b]. -/
  | bne (a : BitVec 5) (b : BitVec 5) (off : BitVec 12)
  /-- R73. Branches when g[a] is less than g[b], signed. -/
  | blt (a : BitVec 5) (b : BitVec 5) (off : BitVec 12)
  /-- R73. Branches when g[a] is at least g[b], signed. -/
  | bge (a : BitVec 5) (b : BitVec 5) (off : BitVec 12)
  /-- R73. Branches when g[a] is less than g[b], unsigned. -/
  | bltu (a : BitVec 5) (b : BitVec 5) (off : BitVec 12)
  /-- R73. Branches when g[a] is at least g[b], unsigned. -/
  | bgeu (a : BitVec 5) (b : BitVec 5) (off : BitVec 12)
  /-- R73. Jumps by a signed 22-bit word offset. -/
  | j (off : BitVec 22)
  /-- R73. Jumps by a signed word offset and writes pc + 4 to g31. -/
  | jal (off : BitVec 22)
  /-- R74. Jumps to g[a] and writes pc + 4 to g[d]. -/
  | jalr (d : BitVec 5) (a : BitVec 5)
  /-- R75. Dispatches through a jump table whose count word is fetched from g[a]. -/
  | jt (a : BitVec 5) (b : BitVec 5)
  /-- R76. Reads a CSR and writes g[a] into it. -/
  | csrrw (d : BitVec 5) (a : BitVec 5) (csr : BitVec 12)
  /-- R76. Reads a CSR and sets the bits of g[a] in it. -/
  | csrrs (d : BitVec 5) (a : BitVec 5) (csr : BitVec 12)
  /-- R76. Reads a CSR and clears the bits of g[a] in it. -/
  | csrrc (d : BitVec 5) (a : BitVec 5) (csr : BitVec 12)
  /-- R76. Reads a CSR and writes a 5-bit immediate into it. -/
  | csrrwi (d : BitVec 5) (u : BitVec 5) (csr : BitVec 12)
  /-- R79. Loads a sign-extended byte. -/
  | ldB (sc : BitVec 3) (loc : Bool) (d : BitVec 5) (a : BitVec 5) (x : BitVec 32)
  /-- R79. Loads a sign-extended halfword. -/
  | ldH (sc : BitVec 3) (loc : Bool) (d : BitVec 5) (a : BitVec 5) (x : BitVec 32)
  /-- R79. Loads a sign-extended word. -/
  | ldW (sc : BitVec 3) (loc : Bool) (d : BitVec 5) (a : BitVec 5) (x : BitVec 32)
  /-- R79. Loads a doubleword. -/
  | ldD (sc : BitVec 3) (loc : Bool) (d : BitVec 5) (a : BitVec 5) (x : BitVec 32)
  /-- R79. Loads a zero-extended byte. -/
  | ldBu (sc : BitVec 3) (loc : Bool) (d : BitVec 5) (a : BitVec 5) (x : BitVec 32)
  /-- R79. Loads a zero-extended halfword. -/
  | ldHu (sc : BitVec 3) (loc : Bool) (d : BitVec 5) (a : BitVec 5) (x : BitVec 32)
  /-- R79. Loads a zero-extended word. -/
  | ldWu (sc : BitVec 3) (loc : Bool) (d : BitVec 5) (a : BitVec 5) (x : BitVec 32)
  /-- R79. Loads a 64-byte stream descriptor into a stream register. -/
  | sld (sc : BitVec 3) (loc : Bool) (d : BitVec 5) (a : BitVec 5) (x : BitVec 32)
  /-- R79. Stores a byte. -/
  | stB (sc : BitVec 3) (loc : Bool) (a : BitVec 5) (b : BitVec 5) (x : BitVec 32)
  /-- R79. Stores a halfword. -/
  | stH (sc : BitVec 3) (loc : Bool) (a : BitVec 5) (b : BitVec 5) (x : BitVec 32)
  /-- R79. Stores a word. -/
  | stW (sc : BitVec 3) (loc : Bool) (a : BitVec 5) (b : BitVec 5) (x : BitVec 32)
  /-- R79. Stores a doubleword. -/
  | stD (sc : BitVec 3) (loc : Bool) (a : BitVec 5) (b : BitVec 5) (x : BitVec 32)
  /-- R81. Atomically adds g[b] to a doubleword and returns the old value. -/
  | amoAdd (sc : BitVec 3) (d : BitVec 5) (a : BitVec 5) (b : BitVec 5) (x : BitVec 32)
  /-- R81. Atomically swaps a doubleword with g[b]. -/
  | amoSwap (sc : BitVec 3) (d : BitVec 5) (a : BitVec 5) (b : BitVec 5) (x : BitVec 32)
  /-- R81. Atomically compares a doubleword with g[d] and stores g[b] on a match. -/
  | amoCas (sc : BitVec 3) (d : BitVec 5) (a : BitVec 5) (b : BitVec 5) (x : BitVec 32)
  /-- R81. Atomically adds a binary32 value to a word in memory. -/
  | amoFadd (sc : BitVec 3) (d : BitVec 5) (a : BitVec 5) (b : BitVec 5) (x : BitVec 32)
  /-- R94. Grants a tile shape from a request and writes it to the tile control register and g[d]. -/
  | tshape (d : BitVec 5) (tile : BitVec 4) (b : BitVec 5)
  /-- R119. Checks and writes a pattern descriptor into a pattern register. -/
  | pset (pat : BitVec 3) (a : BitVec 5)
  /-- R120. Reads a pattern register into g[d]. -/
  | pget (d : BitVec 5) (pat : BitVec 3)
  /-- R88. Holds the sequencer until earlier entries complete and earlier accesses are performed at the scope. -/
  | fence (sc : BitVec 3)
  /-- R84. Arms the core's watch on the line containing g[a]. -/
  | monArm (a : BitVec 5) (sc : BitVec 3)
  /-- R85. Sleeps until the watch fires or a timeout passes and writes the reason code. -/
  | monWait (d : BitVec 5) (a : BitVec 5)
  /-- R86. Probes a range for read permission and pins its translations. -/
  | prbR (a : BitVec 5) (b : BitVec 5)
  /-- R86. Probes a range for write permission and pins its translations. -/
  | prbW (a : BitVec 5) (b : BitVec 5)
  /-- R87. Releases the newest matching pin-table entry. -/
  | prbRel (a : BitVec 5) (b : BitVec 5)
  /-- R90. Loads the four loop-table levels from memory. -/
  | lptLd (a : BitVec 5)
  /-- R90. Advances a temporal loop level and reports whether it continues. -/
  | lptNx (d : BitVec 5) (a : BitVec 5)
  /-- R90. Writes the index of a loop level. -/
  | lptIx (d : BitVec 5) (a : BitVec 5)
  /-- R360. Pushes a coarse sampling pass over the rows of a descriptor to the sampler. -/
  | smpCoarse (a : BitVec 5) (b : BitVec 5) (sc : BitVec 3)
  /-- R361. Pushes a threshold search and waits for the count of rows at the limit. -/
  | smpThr (d : BitVec 5) (a : BitVec 5) (sc : BitVec 3)
  /-- R362. Pushes a keyed draw from one row and waits for the token. -/
  | smpDraw (d : BitVec 5) (a : BitVec 5) (b : BitVec 5) (sc : BitVec 3)
  /-- R365. Resets a check descriptor and pushes a speculative check to the acceptance engine. -/
  | specChk (d : BitVec 5) (a : BitVec 5) (b : BitVec 5) (sc : BitVec 3)
  /-- R366. Waits for a check to finish and writes its fragment index. -/
  | fragSel (d : BitVec 5) (a : BitVec 5) (sc : BitVec 3)
  /-- R355. Installs a new embedding table version in a table record. -/
  | tblSwap (a : BitVec 5) (b : BitVec 5) (sc : BitVec 3)
  /-- R357. Pushes an embedding row prefetch to the die's prefetcher. -/
  | embPf (a : BitVec 5) (b : BitVec 5) (sc : BitVec 3)
  /-- R348. Builds the expert combine matrix from gates and slot entries. -/
  | moeCmb (a : BitVec 5) (b : BitVec 5) (sc : BitVec 3)
  /-- R352. Pushes an expert load into a slot to the die's expert loader. -/
  | exsLd (a : BitVec 5) (b : BitVec 5) (sc : BitVec 3)
  /-- R352. Counts a use of an expert and returns its slot. -/
  | exsCnt (d : BitVec 5) (a : BitVec 5) (sc : BitVec 3)
  /-- R352. Halves every expert frequency counter. -/
  | exsAge (a : BitVec 5) (sc : BitVec 3)
  /-- R370. Pops the oldest frame of a request ring into a buffer. -/
  | netRx (d : BitVec 5) (a : BitVec 5) (sc : BitVec 3)
  /-- R371. Hands a reply frame to the request unit and waits until it is read. -/
  | netTx (a : BitVec 5) (b : BitVec 5) (sc : BitVec 3)
  /-- R374. Submits a tokeniser descriptor to a tokeniser engine. -/
  | tokSub (a : BitVec 5) (b : BitVec 5) (sc : BitVec 3)
  /-- R374. Waits for a tokeniser submission to finish and returns its status. -/
  | tokRes (d : BitVec 5) (a : BitVec 5) (sc : BitVec 3)
  /-- R374. Submits a detokeniser descriptor to a detokeniser engine. -/
  | dtkSub (a : BitVec 5) (b : BitVec 5) (sc : BitVec 3)
  /-- R374. Waits for a detokeniser submission to finish and returns its status. -/
  | dtkRes (d : BitVec 5) (a : BitVec 5) (sc : BitVec 3)
  /-- R385. Installs a vocabulary image as the next version of a vocabulary record. -/
  | vocSwap (a : BitVec 5) (b : BitVec 5) (sc : BitVec 3)
  /-- R248. Emits one key-value pair to a declared update region and waits for its acceptance. -/
  | updS (a : BitVec 5) (b : BitVec 5) (sc : BitVec 3)
  /-- R201. Declares or replaces an update region. -/
  | updRgn (a : BitVec 5) (sc : BitVec 3)
  /-- R207. Applies a region's pairs and returns its status word. -/
  | updFlags (d : BitVec 5) (a : BitVec 5) (sc : BitVec 3)
  /-- R252. Drains a region, applying every accepted pair, and optionally releases it. -/
  | updDrain (a : BitVec 5) (sc : BitVec 3)
  /-- R166. Hands a chain of transfer records to a copy channel. -/
  | cpGo (a : BitVec 5) (b : BitVec 5) (sc : BitVec 3)
  /-- R167. Returns the latched or issued chain identifier of a channel. -/
  | cpId (d : BitVec 5) (a : BitVec 5)
  /-- R168. Waits until a channel has retired every chain up to an identifier. -/
  | cpWait (a : BitVec 5) (b : BitVec 5) (sc : BitVec 3)
  /-- R169. Ends the outstanding work of a copy channel. -/
  | cpAbort (a : BitVec 5) (sc : BitVec 3)
  /-- R160. Loads a tile through a stream in the load queue. -/
  | ldT (tok : Tok) (st : BitVec 5) (tile : BitVec 4)
  /-- R16. Loads an accumulator image through a stream. -/
  | ldA (tok : Tok) (st : BitVec 5) (acc : BitVec 2)
  /-- R161. Loads tile rows by index through a stream. -/
  | ldTi (tok : Tok) (st : BitVec 5) (tile : BitVec 4) (idx : BitVec 4)
  /-- R162. Fills a tile from the core's FIFO bank, waiting for enough bytes. -/
  | ldFf (tok : Tok) (st : BitVec 5) (tile : BitVec 4)
  /-- R258. Builds an intersection tile from a bitmap and a rank tile. -/
  | bmand (tok : Tok) (st : BitVec 5) (tile : BitVec 4) (rank : BitVec 4)
  /-- R258. Builds a rank tile of a bitmap with prefix counts. -/
  | bmpfx (tok : Tok) (st : BitVec 5) (tile : BitVec 4)
  /-- R258. Gathers the values at intersecting bitmap positions into a tile. -/
  | isxG (tok : Tok) (st : BitVec 5) (tile : BitVec 4) (idx : BitVec 4)
  /-- R97. Adds the product of two tiles into an accumulator in fixed order. -/
  | mmaTileTile (tok : Tok) (acc : BitVec 2) (ta : BitVec 4) (tb : BitVec 4) (zf : Bool) (fmt : BitVec 5)
  /-- R97. Adds the product of a generated pattern operand and a tile into an accumulator. -/
  | mmaPatternA (tok : Tok) (acc : BitVec 2) (tb : BitVec 4) (pat : BitVec 3) (zf : Bool) (fmt : BitVec 5)
  /-- R97. Adds the product of a tile and a generated pattern operand into an accumulator. -/
  | mmaPatternB (tok : Tok) (acc : BitVec 2) (ta : BitVec 4) (pat : BitVec 3) (zf : Bool) (fmt : BitVec 5)
  /-- R101. Adds the in-row rank of each tile element to the accumulator. -/
  | cmpa (tok : Tok) (acc : BitVec 2) (ta : BitVec 4) (fmt : BitVec 5)
  /-- R102. Zeroes an accumulator, clears its ovf bits and sets integer class. -/
  | acz (tok : Tok) (acc : BitVec 2)
  /-- R105. Marks a replay point and relays tokens. -/
  | tsm (tok : Tok)
  /-- R160. Stores a tile through a stream. -/
  | stT (tok : Tok) (st : BitVec 5) (tile : BitVec 4)
  /-- R161. Stores tile rows by index through a stream. -/
  | stTi (tok : Tok) (st : BitVec 5) (tile : BitVec 4) (idx : BitVec 4)
  /-- R162. Appends a tile to the core's FIFO bank, waiting for room. -/
  | stFf (tok : Tok) (st : BitVec 5) (tile : BitVec 4)
  /-- R163. Writes zero elements to every non-padded element of a stream. -/
  | stZ (tok : Tok) (st : BitVec 5)
  /-- R103. Saves an accumulator image and its ovf map through a stream. -/
  | stA (tok : Tok) (st : BitVec 5) (acc : BitVec 2)
  /-- R114. Drains an accumulator region through the drain path to memory. -/
  | drn (tok : Tok) (st : BitVec 5) (acc : BitVec 2) (fmt : BitVec 5)
  /-- R115. Drains an accumulator region through the drain path into a tile. -/
  | drnT (tok : Tok) (tile : BitVec 4) (acc : BitVec 2) (fmt : BitVec 5)
  /-- R107. Loads a per-row or per-column scale vector and enables the scale stage. -/
  | dcfgSc (tok : Tok) (st : BitVec 5) (acc : BitVec 2) (col : Bool)
  /-- R107. Loads a per-row or per-column bias vector and enables the bias stage. -/
  | dcfgBi (tok : Tok) (st : BitVec 5) (acc : BitVec 2) (col : Bool)
  /-- R109. Loads a function table into the drain configuration. -/
  | dcfgFn (tok : Tok) (st : BitVec 5) (acc : BitVec 2)
  /-- R107. Loads clamp bounds and enables the clamp stage. -/
  | dcfgCl (tok : Tok) (acc : BitVec 2) (b : BitVec 5)
  /-- R108. Sets the rounding mode and switches drain stages off. -/
  | dcfgRm (tok : Tok) (acc : BitVec 2) (b : BitVec 5)
  /-- R286. Loads the stochastic rounding state from a g register. -/
  | srsSeed (tok : Tok) (b : BitVec 5)
  /-- R202. Emits the key-value pairs of two tiles to a declared update region. -/
  | upd (tok : Tok) (key : BitVec 4) (tile : BitVec 4) (rg : BitVec 5) (sc : BitVec 3)
  /-- R127. Initialises a barrier with a need count. -/
  | barInit (tok : Tok) (q : BitVec 2) (a : BitVec 5) (b : BitVec 5) (sc : BitVec 3)
  /-- R127. Adds expected bytes to a barrier's pending counter. -/
  | barExp (tok : Tok) (q : BitVec 2) (a : BitVec 5) (b : BitVec 5) (sc : BitVec 3)
  /-- R127. Records an arrival at a barrier. -/
  | barArr (tok : Tok) (q : BitVec 2) (a : BitVec 5) (sc : BitVec 3)
  /-- R127. Waits until a barrier's phase differs from the given value. -/
  | barWait (tok : Tok) (q : BitVec 2) (a : BitVec 5) (b : BitVec 5) (sc : BitVec 3)
  /-- R185. Claims the next slot of a hardware ring or returns −1. -/
  | ringCl (a : BitVec 5) (b : BitVec 5) (sc : BitVec 3)
  /-- R185. Marks a ring slot filled and publishes filled slots in order. -/
  | ringFill (tok : Tok) (q : BitVec 2) (a : BitVec 5) (b : BitVec 5) (sc : BitVec 3)
  /-- R185. Takes the next published ring slot or returns −1. -/
  | ringTake (a : BitVec 5) (b : BitVec 5) (sc : BitVec 3)
  /-- R185. Releases a ring slot and frees released slots in order. -/
  | ringRel (tok : Tok) (q : BitVec 2) (a : BitVec 5) (b : BitVec 5) (sc : BitVec 3)
  /-- R185. Waits until a ring slot has been published. -/
  | ringWf (tok : Tok) (q : BitVec 2) (a : BitVec 5) (b : BitVec 5) (sc : BitVec 3)
  /-- R185. Waits until a ring slot is free to fill. -/
  | ringWe (tok : Tok) (q : BitVec 2) (a : BitVec 5) (b : BitVec 5) (sc : BitVec 3)
  /-- R189. Waits for and removes the oldest event of the partition. -/
  | evqPop (a : BitVec 5) (sc : BitVec 3)
  /-- R190. Appends a software event to the cluster event queue. -/
  | evqPost (tok : Tok) (q : BitVec 2) (a : BitVec 5) (b : BitVec 5) (sc : BitVec 3)
  /-- R191. Pushes a one-core task into the origin queue. -/
  | spawn (a : BitVec 5) (b : BitVec 5) (sc : BitVec 3)
  /-- R192. Sets up a join counter. -/
  | joinInit (a : BitVec 5) (b : BitVec 5) (sc : BitVec 3)
  /-- R132. Decrements a join counter and pushes its continuation when it reaches zero. -/
  | joinDec (tok : Tok) (q : BitVec 2) (a : BitVec 5) (sc : BitVec 3)
  /-- R193. Ends the task once the queues are empty and stores are performed. -/
  | done
  /-- R194. Saves the task and frees the core unless in a team or deterministic mode. -/
  | yield
  /-- R195. Ends the task and defers its join decrement to the phase commit. -/
  | phaseEnd
  /-- R141. Copies a continuation record into a continuation queue. -/
  | cqPush (a : BitVec 5) (b : BitVec 5) (sc : BitVec 3)
  /-- R332. Has no effect. -/
  | nop
  /-- R333. Raises the breakpoint trap or halts for the debugger. -/
  | brk
  /-- R333. Raises a software trap numbered by g[a]. -/
  | trap (a : BitVec 5)
  /-- R318. Returns from the handler, releasing any held queue state. -/
  | eret
  /-- R334. Saves the core part of a context image. -/
  | ctxSv (a : BitVec 5)
  /-- R334. Loads a context image and continues in it. -/
  | ctxLd (a : BitVec 5)
  /-- R335. Saves and empties the queue state. -/
  | qsnSv (a : BitVec 5)
  /-- R335. Loads a queue snapshot, dropping skipped entries. -/
  | qsnLd (a : BitVec 5)
  /-- R336. Saves the context and gives the core to another partition. -/
  | partSw (a : BitVec 5)
  /-- R337. Stops the core's clocks until an event, watch, pre-emption or timeout. -/
  | pmIdle
  /-- R339. Injects one test error of a given kind. -/
  | eccInj (a : BitVec 5) (b : BitVec 5)
  /-- R338. Reads an event counter. -/
  | cntRd (d : BitVec 5) (a : BitVec 5)
  /-- R308. Copies bytes from global memory into the cluster's code store. -/
  | codeLd (d : BitVec 5) (a : BitVec 5) (b : BitVec 5)
  /-- R309. Erases a range of the cluster's code store. -/
  | codeInv (a : BitVec 5) (b : BitVec 5)
  /-- R291. Appends one token to a KV sequence record. -/
  | kvApp (d : BitVec 5) (a : BitVec 5) (b : BitVec 5)
  /-- R292. Copies a sequence record and adds a reference to each page. -/
  | kvFork (d : BitVec 5) (a : BitVec 5)
  /-- R294. Releases a record's page references or its hold. -/
  | kvRel (a : BitVec 5)
  /-- R295. Reads the entry of one page of a record. -/
  | kvRd (d : BitVec 5) (a : BitVec 5)
  /-- R293. Gives a page index a new page and holds the old one. -/
  | kvMap (a : BitVec 5) (b : BitVec 5)
  /-- R303. Removes the partition's translations of a range. -/
  | mapInv (a : BitVec 5) (b : BitVec 5)
  /-- R306. Starts, rounds, commits or cancels the migration of a live page. -/
  | migFrz (a : BitVec 5) (b : BitVec 5)
  /-- R219. Demotes the retained lines of a class and frees its retention register. -/
  | dcUnpin (a : BitVec 5)
  /-- R218. Allocates a retention register for a range. -/
  | dcKeep (a : BitVec 5) (b : BitVec 5)
  /-- R317. A queue entry traps at its head; later entries are held and the handler is entered. -/
  | queueTrap (q : BitVec 2)
  /-- R197. Raises the token-deadlock trap when a queue head can never receive its token. -/
  | tokenDeadlock (q : BitVec 2)
  /-- R15. A send held at a count of 63 completes and increments once the counter falls. -/
  | tokenSendRelease (q : BitVec 2)
  /-- R323. Stops a task at boundaries and writes its context image. -/
  | preemption (core : BitVec 11) (how : Preempt)
  /-- R330. Restores a saved context on a core and continues it. -/
  | contextResume (core : BitVec 11) (ix : Nat)
  /-- R143. On a free resource, selects the backlogged queue with the least pass and pops its record. -/
  | schedulerSelect
  /-- R147. Binds a record to its cores and starts the task or team as a gang. -/
  | taskStart (ix : Nat)
  /-- R148. Makes a held join decrement with its push once the queue can take the record. -/
  | heldJoinDecrement (ix : Nat)
  /-- R151. Commits a deterministic phase, clearing tags and making deferred decrements. -/
  | phaseCommit (part : BitVec 5)
  /-- R176. A copy engine claims a record and takes its snapshot. -/
  | copyClaim (die : BitVec 3) (ch : BitVec 6)
  /-- R173. A copy engine performs one piece of a transfer and signals its barrier. -/
  | copyPiece (die : BitVec 3) (ch : BitVec 6)
  /-- R174. A copy engine retires a record, writes its status and claims its successor. -/
  | copyRetire (die : BitVec 3) (ch : BitVec 6)
  /-- R188. An engine posts an event once the partition's quota has room. -/
  | engineEventPost (ix : Nat)
  /-- R204. A pair arrives at its bin at the region home and is held or waits for room. -/
  | tumblerPairArrival (rgn : Nat) (ix : Nat)
  /-- R206. The Tumbler reduces a region's held pairs and runs into memory in fixed order. -/
  | tumblerApplication (rgn : Nat)
  /-- R360. The sampler computes one row's total, shortlist and mass. -/
  | samplerCoarsePass (cl : BitVec 4)
  /-- R361. The sampler searches each row's threshold and writes it. -/
  | samplerThresholdSearch (cl : BitVec 4)
  /-- R362. The sampler performs a keyed draw and writes the token. -/
  | samplerDrawExecution (cl : BitVec 4)
  /-- R365. The acceptance engine draws target tokens and compares them with the drafts. -/
  | specCheckExecution (die : BitVec 3)
  /-- R352. The expert loader picks a slot and marks it loading. -/
  | expertLoadClaim (die : BitVec 3)
  /-- R352. The expert loader finishes the copy and marks the slot resident or empty. -/
  | expertLoadComplete (die : BitVec 3)
  /-- R357. The prefetcher acquires a version, fills the indexed rows and releases it. -/
  | embeddingPrefetch (die : BitVec 3)
  /-- R380. A tokeniser engine snapshots a descriptor and acquires the vocabulary version. -/
  | tokeniserStart (e : BitVec 3)
  /-- R382. A tokeniser engine writes its tokens and status. -/
  | tokeniserComplete (e : BitVec 3)
  /-- R380. A detokeniser engine snapshots a descriptor and acquires the vocabulary version. -/
  | detokeniserStart (e : BitVec 3)
  /-- R383. A detokeniser engine writes decoded bytes, hold and status. -/
  | detokeniserComplete (e : BitVec 3)
  /-- R371. The request unit reads a reply frame and sends it on its route. -/
  | replyTransmit (ix : Nat)
  /-- R378. A request message arrives and is placed in its ring, discarded or refused. -/
  | frameReceive (port : BitVec 3) (conn : BitVec 32) (msg : List (BitVec 8))
  /-- R140. Every 100 µs a failed wake push is retried. -/
  | wakeRetry (ring : BitVec 7)
  /-- R397. The firmware accepts a connection and binds it to a request ring. -/
  | connectionAccept (port : BitVec 3) (conn : BitVec 32) (job : BitVec 24)
  /-- R85. The timeout of mon.wait expires. -/
  | monWaitTimeout (core : BitVec 11)
  /-- R337. pm.idle ends after 100 µs. -/
  | pmIdleTimeout (core : BitVec 11)
  /-- R238. An acknowledgement for a remote store arrives. -/
  | storeAck (pa : BitVec 52) (seq : BitVec 16)
  /-- R238. An unacknowledged remote store is re-sent after the 16 µs timeout. -/
  | remoteStoreReplay (r : Resend)
  /-- R399. A Nalyan flit arrives and is accepted or dropped with a replay request: `good` is none where its check fails, else whether
  it carries a copy of a remote store. -/
  | nalyanFlitReceive (link : Bool) (seq : BitVec 12) (ack : BitVec 12) (good : Option Bool)
  /-- R314. The host port fails with SY stores unacknowledged. -/
  | hostPortLost
  /-- R404. Every 10 µs at the cap or 95 °C the core clock is lowered one step. -/
  | throttleStepDown
  /-- R404. Every 1 ms after the cause clears the core clock is raised one step. -/
  | throttleStepUp
  /-- R404. At 105 °C every task is pre-empted and dispatch freezes. -/
  | thermalStop
  /-- R404. Dispatch resumes when every junction is below 90 °C. -/
  | thermalResume
  /-- R137. A tail write pushes records into a continuation queue, or sets err 7 on overrun. -/
  | cqtailWrite (via : Option (BitVec 5)) (q : BitVec 8) (v : BitVec 32)
  /-- R136. A write to cqctl updates control fields, clears stop and err, or is refused whole. -/
  | cqctlWrite (via : Option (BitVec 5)) (q : BitVec 8) (v : BitVec 64)
  /-- R183. A write to rngctl configures a ring, clearing its counters when enabled. -/
  | rngctlWrite (cl : BitVec 4) (ring : BitVec 6) (v : BitVec 64)
  /-- R377. A write to rqctl configures a request ring, clearing it and arming it when enabled. -/
  | rqctlWrite (via : Option (BitVec 5)) (ring : BitVec 7) (v : BitVec 64)
  /-- R390. Writing 1 to an interrupt status bit clears it. -/
  | intstatClear (unit : Option (BitVec 5)) (v : BitVec 64)
  /-- R394. A write to a partition control page is checked against limits and accepted or discarded. -/
  | controlPageWrite (part : BitVec 5) (off : BitVec 12) (bytes : List (BitVec 8))
  /-- R392. Writing 1 to go starts a code load through the mailbox. -/
  | mailboxGo (part : BitVec 5) (v : BitVec 16)
  /-- R392. The firmware finishes a mailbox code load and sets done and its interrupt. -/
  | mailboxLoadComplete (part : BitVec 5)
  /-- R388. A host write to a register with no behaviour of its own. -/
  | registerWrite (via : Option (BitVec 5)) (at' : BarPlace) (bytes : List (BitVec 8))
  /-- R346. Resets one partition, ending its tasks and disabling its resources. -/
  | partitionReset (part : BitVec 5)
  /-- R403. Runs the full boot sequence from Basoc start to the ready bit. -/
  | coldReset
  /-- R403. Runs the boot without Basoc start, rail sequencing or memory training. -/
  | warmReset
  /-- R400. Basoc powers off the main domain. -/
  | powerOff
  /-- R54. The sequencer decodes a word that names no instruction and raises the illegal-instruction trap. -/
  | unassignedEncoding (w : BitVec 32) (x : BitVec 32)
  /-- R239. The pool memory device acknowledges a store, which is then performed at PL. -/
  | poolStoreAck (ix : Nat)
  /-- R231. A read lease on a line ends, so later loads return newer values, and the watch on that line may fire as an invalidation. -/
  | leaseEnd (pa : BitVec 52)
  /-- R239. A pool back-invalidation snoop writes back and invalidates a line. -/
  | backInvalidateSnoop (pa : BitVec 52)
  /-- R396. A pool port loses its link and its regions fail over or are lost. -/
  | poolPortLinkDown (port : BitVec 2)
  /-- R396. A pool port regains its link. -/
  | poolPortLinkUp (port : BitVec 2)
  /-- R240. The firmware maps a pool region afresh, which ends its lost state. -/
  | poolRegionMap (base : BitVec 52) (units : Nat) (ports : BitVec 4)
  /-- R397. The firmware closes a connection when the client does or its ring loses en. -/
  | connectionClose (port : BitVec 3) (conn : BitVec 32)
  /-- R398. An Ethernet port link goes down and is counted. -/
  | ethernetLinkDown (port : BitVec 3)
  /-- R398. An Ethernet port link that was down comes up again. -/
  | ethernetLinkUp (port : BitVec 3)
  /-- R238. A store copy from another device arrives at its home slice and is applied if newer. -/
  | remoteStoreApply (hop : Hop) (pa : BitVec 52) (seq : BitVec 16) (bytes : List (BitVec 8))
  /-- R399. A replay request arrives and the sender resends from the named flit. -/
  | nalyanReplayRequest (link : Bool) (seq : BitVec 12)
  /-- R399. A pause arrives and the sender stops. -/
  | nalyanPause (link : Bool)
  /-- R399. A resume arrives and the sender continues. -/
  | nalyanResume (link : Bool)
  /-- R399. A link is declared down after eight replays or 10 µs without a flit. -/
  | nalyanLinkDown (link : Bool)
  /-- R238. A failed Nalyan link recovers and carries flits again. -/
  | nalyanLinkUp (link : Bool)
  /-- R342. The Clapper disagrees with the sequencer and the core replays from its checkpoint. -/
  | clapperMismatch (core : BitVec 11) (again : Bool)
  /-- R105. An uncorrectable array error discards accumulators and re-executes the retained entries. -/
  | matrixReplay (core : BitVec 11)
  /-- R340. The lockstep command processors disagree; dispatch freezes and they restart. -/
  | cpLockstepMismatch (die : BitVec 3)
  /-- R340. The command processors finish restarting and dispatch resumes. -/
  | cpRestartComplete (die : BitVec 3)
  /-- R314. A task exceeds its partition's run limit and ends. -/
  | watchdogExpiry (core : BitVec 11)
  /-- R394. A task exceeds its run slice while a queue is backlogged and is pre-empted. -/
  | runSliceExpiry (core : BitVec 11)
  /-- R314. The host or the firmware ends a context with cause host-abort. -/
  | hostAbort (core : BitVec 11)
  /-- R343. The firmware tests a fenced core and returns it to service. -/
  | coreReturnToService (core : BitVec 11)
  /-- R344. An SRAM, cache line or tier word suffers an error that ECC corrects and counts, or that poisons its line. -/
  | memoryEccError (space : BitVec 2) (pa : BitVec 52) (poison : Bool)
  /-- R400. Basoc sets the module power cap. -/
  | powerCapSet (watts : BitVec 16)
  /-- R400. Basoc returns sensor and counter readings. -/
  | pldmSensorRead (sensor : Sensor)
  /-- R401. Writes and checks a signed firmware image in the inactive bank. -/
  | firmwareUpdate (target : BitVec 16) (image : List (BitVec 8))
  /-- R402. Answers an SPDM measurement or challenge request with a signed response. -/
  | spdmAttestation (nonce : BitVec 256)
  /-- R320. The firmware abandons a deterministic phase that holds an ended task. -/
  | phaseAbandon (part : BitVec 5)
  /-- R320. Ends every task of the context and frees its cores. -/
  | fatalContextError (cause : BitVec 7) (tval : BitVec 64)
deriving DecidableEq, Repr

end Sys2Proof
end

