-- ==== Sys2Proof/WellFormed.lean ====
section
/-! DEFINITION. Which instructions have a word: the checks of R18, R27, R47, R49, R52-R54 on the operand fields. -/
namespace Sys2Proof

/-- A scope code: CO = 0 to SY = 6 (R47). -/
def scopeOk (sc : BitVec 3) : Bool := sc != 7

/-- The formats an `mma` suffix names (R96). -/
def mmaFmtOk (f : BitVec 5) : Bool := [1, 2, 4, 5, 6, 7, 9, 10, 11, 12].contains f.toNat

/-- The tile formats of codes 1-12 and 15 (R101, R115). -/
def plainFmtOk (f : BitVec 5) : Bool := (1 ≤ f.toNat && f.toNat ≤ 12) || f.toNat == 15

/-- The destination formats of `drn` (R114). -/
def drnFmtOk (f : BitVec 5) : Bool := plainFmtOk f || f.toNat == 13

/-- The token bits wu, wd, su, sd that an executing agent may carry (R49): 0 sequencer, 1 LQ, 2 MQ, 3 SQ. -/
def tokMask (q : BitVec 2) : BitVec 4 := if q = 0 then 0b0000 else if q = 1 then 0b0101 else if q = 2 then 0b1111 else 0b1010

/-- The token field as bits 25:22 hold it (R46). -/
def Tok.bits (t : Tok) : BitVec 4 :=
  BitVec.ofBool t.wu ++ BitVec.ofBool t.wd ++ BitVec.ofBool t.su ++ BitVec.ofBool t.sd

/-- Token flags that the agent may carry (R49). -/
def tokOk (q : BitVec 2) (t : Tok) : Bool := t.bits &&& ~~~ tokMask q == 0

/-- The executing agent of an instruction (R49, R51, R52): 0 sequencer, 1 LQ, 2 MQ, 3 SQ. -/
def Instr.agent : Instr → BitVec 2
  | .ldT .. | .ldA .. | .ldTi .. | .ldFf .. | .bmand .. | .bmpfx .. | .isxG .. => 1
  | .mmaTileTile .. | .mmaPatternA .. | .mmaPatternB .. | .cmpa .. | .acz .. | .tsm .. => 2
  | .stT .. | .stTi .. | .stFf .. | .stZ .. | .stA .. | .drn .. | .drnT .. | .dcfgSc .. | .dcfgBi .. | .dcfgFn ..
  | .dcfgCl .. | .dcfgRm .. | .srsSeed .. | .upd .. => 3
  | .barInit _ q _ _ _ | .barExp _ q _ _ _ | .barArr _ q _ _ | .barWait _ q _ _ _ | .ringFill _ q _ _ _
  | .ringRel _ q _ _ _ | .ringWf _ q _ _ _ | .ringWe _ q _ _ _ | .evqPost _ q _ _ _ | .joinDec _ q _ _ => q
  | _ => 0

/-- The token flags of an instruction; a sequencer word of majors below 0x38 carries none. -/
def Instr.tok : Instr → Tok
  | .ldT t .. | .ldA t .. | .ldTi t .. | .ldFf t .. | .bmand t .. | .bmpfx t .. | .isxG t ..
  | .mmaTileTile t .. | .mmaPatternA t .. | .mmaPatternB t .. | .cmpa t .. | .acz t .. | .tsm t
  | .stT t .. | .stTi t .. | .stFf t .. | .stZ t .. | .stA t .. | .drn t .. | .drnT t .. | .dcfgSc t .. | .dcfgBi t ..
  | .dcfgFn t .. | .dcfgCl t .. | .dcfgRm t .. | .srsSeed t .. | .upd t ..
  | .barInit t .. | .barExp t .. | .barArr t .. | .barWait t .. | .ringFill t ..
  | .ringRel t .. | .ringWf t .. | .ringWe t .. | .evqPost t .. | .joinDec t .. => t
  | _ => ⟨false, false, false, false⟩

/-- The operand rules of an instruction that go beyond the width of its fields (R18, R47, R54, R96, R101, R114,
R115, R189). -/
def Instr.fieldsOk : Instr → Bool
  | .ldB sc .. | .ldH sc .. | .ldW sc .. | .ldD sc .. | .ldBu sc .. | .ldHu sc .. | .ldWu sc .. | .sld sc ..
  | .stB sc .. | .stH sc .. | .stW sc .. | .stD sc .. | .amoAdd sc .. | .amoSwap sc .. | .amoCas sc .. | .amoFadd sc ..
  | .fence sc | .monArm _ sc | .smpCoarse _ _ sc | .smpThr _ _ sc | .smpDraw _ _ _ sc | .specChk _ _ _ sc
  | .fragSel _ _ sc | .tblSwap _ _ sc | .embPf _ _ sc | .moeCmb _ _ sc | .exsLd _ _ sc | .exsCnt _ _ sc | .exsAge _ sc
  | .netRx _ _ sc | .netTx _ _ sc | .tokSub _ _ sc | .tokRes _ _ sc | .dtkSub _ _ sc | .dtkRes _ _ sc | .vocSwap _ _ sc
  | .updS _ _ sc | .updRgn _ sc | .updFlags _ _ sc | .updDrain _ sc | .cpGo _ _ sc | .cpWait _ _ sc | .cpAbort _ sc
  | .upd _ _ _ _ sc | .barInit _ _ _ _ sc | .barExp _ _ _ _ sc | .barArr _ _ _ sc | .barWait _ _ _ _ sc
  | .ringCl _ _ sc | .ringFill _ _ _ _ sc | .ringTake _ _ sc | .ringRel _ _ _ _ sc | .ringWf _ _ _ _ sc
  | .ringWe _ _ _ _ sc | .evqPost _ _ _ _ sc | .spawn _ _ sc | .joinInit _ _ sc | .joinDec _ _ _ sc
  | .cqPush _ _ sc => scopeOk sc
  | .evqPop a sc => scopeOk sc && a.toNat % 2 == 0 && a != 0
  | .mmaTileTile _ _ _ _ _ f => mmaFmtOk f
  | .mmaPatternA _ _ _ p _ f => mmaFmtOk f && p != 0
  | .mmaPatternB _ _ _ p _ f => mmaFmtOk f && p != 0
  | .cmpa _ _ _ f => plainFmtOk f
  | .drn _ _ _ f => drnFmtOk f
  | .drnT _ _ _ f => plainFmtOk f
  | _ => true

/-- A row of the table that is a step of another agent and has no word. -/
def Instr.isEvent : Instr → Bool
  | .queueTrap .. | .tokenDeadlock .. | .tokenSendRelease .. | .fatalContextError .. | .preemption .. | .contextResume ..
  | .schedulerSelect | .taskStart .. | .heldJoinDecrement .. | .phaseCommit .. | .copyClaim .. | .copyPiece ..
  | .copyRetire .. | .engineEventPost .. | .tumblerPairArrival .. | .tumblerApplication .. | .samplerCoarsePass ..
  | .samplerThresholdSearch .. | .samplerDrawExecution .. | .specCheckExecution .. | .expertLoadClaim ..
  | .expertLoadComplete .. | .embeddingPrefetch .. | .tokeniserStart .. | .tokeniserComplete .. | .detokeniserStart ..
  | .detokeniserComplete .. | .replyTransmit .. | .frameReceive .. | .wakeRetry .. | .connectionAccept ..
  | .connectionClose .. | .ethernetLinkDown .. | .monWaitTimeout .. | .pmIdleTimeout .. | .remoteStoreApply ..
  | .storeAck .. | .remoteStoreReplay .. | .nalyanFlitReceive .. | .nalyanReplayRequest .. | .nalyanPause ..
  | .nalyanResume .. | .nalyanLinkDown .. | .backInvalidateSnoop .. | .poolPortLinkDown .. | .hostPortLost
  | .clapperMismatch .. | .matrixReplay .. | .cpLockstepMismatch .. | .cpRestartComplete .. | .watchdogExpiry ..
  | .runSliceExpiry .. | .throttleStepDown | .throttleStepUp | .thermalStop | .thermalResume | .cqtailWrite ..
  | .cqctlWrite .. | .rngctlWrite .. | .rqctlWrite .. | .intstatClear .. | .controlPageWrite .. | .mailboxGo ..
  | .mailboxLoadComplete .. | .registerWrite .. | .partitionReset .. | .coldReset .. | .warmReset .. | .powerOff
  | .powerCapSet .. | .pldmSensorRead .. | .firmwareUpdate .. | .spdmAttestation .. | .unassignedEncoding ..
  | .leaseEnd .. | .poolStoreAck .. | .nalyanLinkUp .. | .ethernetLinkUp .. | .poolPortLinkUp .. | .poolRegionMap ..
  | .hostAbort .. | .coreReturnToService .. | .phaseAbandon .. | .memoryEccError .. => true
  | _ => false

/-- The instruction has a word, and that word passes the decoder's checks (R50, steps 2 and 3). -/
def Instr.wellFormed (i : Instr) : Bool := !i.isEvent && i.fieldsOk && tokOk i.agent i.tok

end Sys2Proof
end

