-- ==== Sys2Proof/Decode.lean ====
section
/-! DEFINITION. The decoder of instruction words (R46-R54) and, after it, the encoder. -/
namespace Sys2Proof

/-- Why bytes are not an instruction, in the order of R50. -/
inductive DecodeError where
  /-- The word names no instruction (R54). -/
  | unassigned
  /-- The word carries a token flag that its agent may not carry (R49). -/
  | illegalToken
  /-- There are fewer bytes than the word needs (R48). -/
  | truncated
deriving DecidableEq, Repr

/-! ## Fields of a word (R46) -/

/-- The major opcode, bits 31:26. -/
def fMajor (w : Word) : BitVec 6 := w.extractLsb' 26 6
/-- The token field, bits 25:22. -/
def fTok (w : Word) : BitVec 4 := w.extractLsb' 22 4
/-- Bits 21:17: d of S3 and SI, a of SB, the stream of E. -/
def f17 (w : Word) : BitVec 5 := w.extractLsb' 17 5
/-- Bits 16:12: a of S3 and SI, b of SB. -/
def f12 (w : Word) : BitVec 5 := w.extractLsb' 12 5
/-- Bits 11:7: b of S3. -/
def f7 (w : Word) : BitVec 5 := w.extractLsb' 7 5
/-- Bits 6:0: fn of S3 and Y. -/
def fFn7 (w : Word) : BitVec 7 := w.extractLsb' 0 7
/-- Bits 11:0: imm12 and off12. -/
def fImm (w : Word) : BitVec 12 := w.extractLsb' 0 12
/-- Bits 21:0: off22. -/
def fOff22 (w : Word) : BitVec 22 := w.extractLsb' 0 22
/-- Bits 21:20: acc of M, q of Y. -/
def f20 (w : Word) : BitVec 2 := w.extractLsb' 20 2
/-- Bits 19:16: tile A of M. -/
def f16 (w : Word) : BitVec 4 := w.extractLsb' 16 4
/-- Bits 15:12: tile B of M. -/
def fTb (w : Word) : BitVec 4 := w.extractLsb' 12 4
/-- Bits 11:9: pattern of M. -/
def fPat (w : Word) : BitVec 3 := w.extractLsb' 9 3
/-- Bits 8:0: fn of M. -/
def fFn9 (w : Word) : BitVec 9 := w.extractLsb' 0 9
/-- Bits 16:13: tile of E. -/
def f13 (w : Word) : BitVec 4 := w.extractLsb' 13 4
/-- Bits 12:8: g of E. -/
def f8 (w : Word) : BitVec 5 := w.extractLsb' 8 5
/-- Bits 7:0: fn of E. -/
def fFn8 (w : Word) : BitVec 8 := w.extractLsb' 0 8
/-- Bits 19:15: a of Y. -/
def f15 (w : Word) : BitVec 5 := w.extractLsb' 15 5
/-- Bits 14:10: b of Y. -/
def f10 (w : Word) : BitVec 5 := w.extractLsb' 10 5
/-- Bits 9:7: scope of Y. -/
def fSc7 (w : Word) : BitVec 3 := w.extractLsb' 7 3

/-- The token flags of a token field (R46). -/
def tokOfBits (t : BitVec 4) : Tok := ⟨t.getLsbD 3, t.getLsbD 2, t.getLsbD 1, t.getLsbD 0⟩

/-- The instruction, if a reserved field is zero (R47). -/
def needZ {n : Nat} (f : BitVec n) (i : Option Instr) : Option Instr := if f = 0 then i else none
/-- The instruction, if its scope code is not 7 (R47). -/
def needSc (sc : BitVec 3) (i : Option Instr) : Option Instr := if sc = 7 then none else i
/-- The instruction, if a condition of its own row holds. -/
def needIf (b : Bool) (i : Option Instr) : Option Instr := if b then i else none

/-- The formats an `mma` word may name: the suffixes that R96's families use (R27, R54). -/
def decMmaFmt (f : BitVec 5) : Bool :=
  match f.toNat with
  | 1 | 2 | 4 | 5 | 6 | 7 | 9 | 10 | 11 | 12 => true
  | _ => false
/-- The tile formats with a suffix, codes 1-12 and 15 (R27, R54). -/
def decTileFmt (f : BitVec 5) : Bool :=
  match f.toNat with
  | 0 | 13 | 14 => false
  | n => n < 16
/-- The destination formats of `drn`: those and code 13 (R27, R114). -/
def decDrnFmt (f : BitVec 5) : Bool := decTileFmt f || f == 13

/-! ## One function for each major opcode (R51-R53) -/

/-- Major 0x00 (R51). -/
def decInt (d a b : Reg) (fn : BitVec 7) : Option Instr :=
  match fn.toNat with
  | 0x00 => some (.add d a b)
  | 0x01 => some (.sub d a b)
  | 0x02 => some (.and d a b)
  | 0x03 => some (.or d a b)
  | 0x04 => some (.xor d a b)
  | 0x05 => some (.sll d a b)
  | 0x06 => some (.srl d a b)
  | 0x07 => some (.sra d a b)
  | 0x08 => some (.slt d a b)
  | 0x09 => some (.sltu d a b)
  | 0x0A => some (.mul d a b)
  | 0x0B => some (.mulh d a b)
  | 0x0C => some (.mulhu d a b)
  | 0x0D => some (.div d a b)
  | 0x0E => some (.divu d a b)
  | 0x0F => some (.rem d a b)
  | 0x10 => some (.remu d a b)
  | 0x11 => some (.min d a b)
  | 0x12 => some (.max d a b)
  | 0x13 => some (.minu d a b)
  | 0x14 => some (.maxu d a b)
  | 0x18 => needZ b (some (.clz d a))
  | 0x19 => needZ b (some (.ctz d a))
  | 0x1A => needZ b (some (.popc d a))
  | 0x1B => needZ b (some (.sxb d a))
  | 0x1C => needZ b (some (.sxh d a))
  | 0x1D => needZ b (some (.sxw d a))
  | _ => none

/-- Major 0x05: shifts by an immediate (R51). -/
def decShift (d a : Reg) (imm : BitVec 12) : Option Instr :=
  needZ (imm.extractLsb' 6 4) <|
  match (imm.extractLsb' 10 2).toNat with
  | 0 => some (.slli d a (imm.extractLsb' 0 6))
  | 1 => some (.srli d a (imm.extractLsb' 0 6))
  | 2 => some (.srai d a (imm.extractLsb' 0 6))
  | _ => none

/-- Major 0x08: long immediates (R51). -/
def decLong (d a : Reg) (imm : BitVec 12) (x : Word) : Option Instr :=
  needZ a <|
  match imm.toNat with
  | 0 => some (.li d x)
  | 1 => some (.lih d x)
  | _ => none

/-- Major 0x09: binary32 (R51). -/
def decFp (d a b : Reg) (fn : BitVec 7) : Option Instr :=
  match fn.toNat with
  | 0 => some (.fadd d a b)
  | 1 => some (.fsub d a b)
  | 2 => some (.fmul d a b)
  | 3 => some (.fdiv d a b)
  | 4 => needZ b (some (.fsqrt d a))
  | 5 => some (.fmin d a b)
  | 6 => some (.fmax d a b)
  | 7 => some (.fcmp d a b)
  | 8 => needZ b (some (.f2i d a))
  | 9 => needZ b (some (.i2f d a))
  | _ => none

/-- Major 0x12: register jumps (R51). -/
def decJump (d a b : Reg) (fn : BitVec 7) : Option Instr :=
  match fn.toNat with
  | 0 => needZ b (some (.jalr d a))
  | 1 => needZ d (some (.jt a b))
  | _ => none

/-- Major 0x17: loads (R51). -/
def decLoad (d a b : Reg) (fn : BitVec 7) (x : Word) : Option Instr :=
  let sc := fn.extractLsb' 4 3
  let loc := fn.getLsbD 3
  needZ b <| needSc sc <|
  match (fn.extractLsb' 0 3).toNat with
  | 0 => some (.ldB sc loc d a x)
  | 1 => some (.ldH sc loc d a x)
  | 2 => some (.ldW sc loc d a x)
  | 3 => some (.ldD sc loc d a x)
  | 4 => some (.ldBu sc loc d a x)
  | 5 => some (.ldHu sc loc d a x)
  | 6 => some (.ldWu sc loc d a x)
  | _ => some (.sld sc loc d a x)

/-- Major 0x18: stores (R51). -/
def decStore (d a b : Reg) (fn : BitVec 7) (x : Word) : Option Instr :=
  let sc := fn.extractLsb' 4 3
  let loc := fn.getLsbD 3
  needZ d <| needSc sc <|
  match (fn.extractLsb' 0 3).toNat with
  | 0 => some (.stB sc loc a b x)
  | 1 => some (.stH sc loc a b x)
  | 2 => some (.stW sc loc a b x)
  | 3 => some (.stD sc loc a b x)
  | _ => none

/-- Major 0x19: atomics (R51). -/
def decAmo (d a b : Reg) (fn : BitVec 7) (x : Word) : Option Instr :=
  let sc := fn.extractLsb' 4 3
  needIf (!fn.getLsbD 3) <| needSc sc <|
  match (fn.extractLsb' 0 3).toNat with
  | 0 => some (.amoAdd sc d a b x)
  | 1 => some (.amoSwap sc d a b x)
  | 2 => some (.amoCas sc d a b x)
  | 3 => some (.amoFadd sc d a b x)
  | _ => none

/-- Major 0x1A: shapes and patterns (R51; the high bits of a tile or pattern number are zero, R47). -/
def decShape (d a b : Reg) (fn : BitVec 7) : Option Instr :=
  match fn.toNat with
  | 0 => needIf (!a.getLsbD 4) (some (.tshape d (a.extractLsb' 0 4) b))
  | 1 => needZ (d.extractLsb' 3 2) (needZ b (some (.pset (d.extractLsb' 0 3) a)))
  | 2 => needZ (a.extractLsb' 3 2) (needZ b (some (.pget d (a.extractLsb' 0 3))))
  | _ => none

/-- Major 0x1B: fences, watches and probes (R51). -/
def decFence (d a b : Reg) (fn : BitVec 7) : Option Instr :=
  let sc := fn.extractLsb' 0 3
  match (fn.extractLsb' 3 4).toNat with
  | 0 => needZ d (needZ a (needZ b (needSc sc (some (.fence sc)))))
  | 1 => needZ d (needZ b (needSc sc (some (.monArm a sc))))
  | 2 => needZ b (needZ sc (some (.monWait d a)))
  | 3 => needZ d (needZ sc (some (.prbR a b)))
  | 4 => needZ d (needZ sc (some (.prbW a b)))
  | 5 => needZ d (needZ sc (some (.prbRel a b)))
  | _ => none

/-- Major 0x1C: the loop table (R51). -/
def decLoop (d a b : Reg) (fn : BitVec 7) : Option Instr :=
  match fn.toNat with
  | 0 => needZ d (needZ b (some (.lptLd a)))
  | 1 => needZ b (some (.lptNx d a))
  | 2 => needZ b (some (.lptIx d a))
  | _ => none

/-- Major 0x1D: serving engines (R51). -/
def decServe (d a b : Reg) (fn : BitVec 7) : Option Instr :=
  let sc := fn.extractLsb' 4 3
  needSc sc <|
  match (fn.extractLsb' 0 4).toNat with
  | 0 => needZ d (some (.smpCoarse a b sc))
  | 1 => needZ b (some (.smpThr d a sc))
  | 2 => some (.smpDraw d a b sc)
  | 3 => some (.specChk d a b sc)
  | 4 => needZ b (some (.fragSel d a sc))
  | 5 => needZ d (some (.tblSwap a b sc))
  | 6 => needZ d (some (.embPf a b sc))
  | 7 => needZ d (some (.moeCmb a b sc))
  | 8 => needZ d (some (.exsLd a b sc))
  | 9 => needZ b (some (.exsCnt d a sc))
  | 10 => needZ d (needZ b (some (.exsAge a sc)))
  | _ => none

/-- Major 0x1E: text engines (R51). -/
def decText (d a b : Reg) (fn : BitVec 7) : Option Instr :=
  let sc := fn.extractLsb' 4 3
  needSc sc <|
  match (fn.extractLsb' 0 4).toNat with
  | 0 => needZ b (some (.netRx d a sc))
  | 1 => needZ d (some (.netTx a b sc))
  | 2 => needZ d (some (.tokSub a b sc))
  | 3 => needZ b (some (.tokRes d a sc))
  | 4 => needZ d (some (.dtkSub a b sc))
  | 5 => needZ b (some (.dtkRes d a sc))
  | 6 => needZ d (some (.vocSwap a b sc))
  | _ => none

/-- Major 0x1F: update regions and copies (R51); `cp.id` names no scope of its own (R167). -/
def decUpd (d a b : Reg) (fn : BitVec 7) : Option Instr :=
  let sc := fn.extractLsb' 4 3
  needSc sc <|
  match (fn.extractLsb' 0 4).toNat with
  | 0 => needZ d (some (.updS a b sc))
  | 1 => needZ d (needZ b (some (.updRgn a sc)))
  | 2 => needZ b (some (.updFlags d a sc))
  | 3 => needZ d (needZ b (some (.updDrain a sc)))
  | 8 => needZ d (some (.cpGo a b sc))
  | 9 => needZ b (needZ sc (some (.cpId d a)))
  | 10 => needZ d (some (.cpWait a b sc))
  | 11 => needZ d (needZ b (some (.cpAbort a sc)))
  | _ => none

/-- Major 0x20: tile loads (R52). An accumulator stands in bits 14:13 (R47). -/
def decTileLd (t : Tok) (st : BitVec 5) (tile : BitVec 4) (g : BitVec 5) (fn : BitVec 8) : Option Instr :=
  match fn.toNat with
  | 0 => needZ g (some (.ldT t st tile))
  | 1 => needZ g (needZ (tile.extractLsb' 2 2) (some (.ldA t st (tile.extractLsb' 0 2))))
  | 2 => needIf (!g.getLsbD 4) (some (.ldTi t st tile (g.extractLsb' 0 4)))
  | 3 => needZ g (some (.ldFf t st tile))
  | _ => none

/-- Major 0x21: bitmaps (R52); the g field names a tile (R257, R259). -/
def decBitmap (t : Tok) (st : BitVec 5) (tile : BitVec 4) (g : BitVec 5) (fn : BitVec 8) : Option Instr :=
  match fn.toNat with
  | 0 => needIf (!g.getLsbD 4) (some (.bmand t st tile (g.extractLsb' 0 4)))
  | 1 => needZ g (some (.bmpfx t st tile))
  | 2 => needIf (!g.getLsbD 4) (some (.isxG t st tile (g.extractLsb' 0 4)))
  | _ => none

/-- Major 0x28: `mma` (R18). -/
def decMma (t : Tok) (acc : BitVec 2) (ta tb : BitVec 4) (p : BitVec 3) (fn : BitVec 9) : Option Instr :=
  let f := fn.extractLsb' 0 5
  let z := fn.getLsbD 7
  needZ (fn.extractLsb' 5 2) <| needIf (decMmaFmt f) <|
  if p = 0 then needIf (!fn.getLsbD 8) (some (.mmaTileTile t acc ta tb z f))
  else if fn.getLsbD 8 then needZ tb (some (.mmaPatternB t acc ta p z f))
  else needZ ta (some (.mmaPatternA t acc tb p z f))

/-- Major 0x29: `cmpa` (R52). -/
def decCmpa (t : Tok) (acc : BitVec 2) (ta tb : BitVec 4) (p : BitVec 3) (fn : BitVec 9) : Option Instr :=
  let f := fn.extractLsb' 0 5
  needZ tb <| needZ p <| needZ (fn.extractLsb' 5 4) <| needIf (decTileFmt f) (some (.cmpa t acc ta f))

/-- Major 0x2A (R52). -/
def decAcz (t : Tok) (acc : BitVec 2) (ta tb : BitVec 4) (p : BitVec 3) (fn : BitVec 9) : Option Instr :=
  needZ ta <| needZ tb <| needZ p <|
  match fn.toNat with
  | 0 => some (.acz t acc)
  | 1 => needZ acc (some (.tsm t))
  | _ => none

/-- Major 0x30: tile stores (R52). -/
def decTileSt (t : Tok) (st : BitVec 5) (tile : BitVec 4) (g : BitVec 5) (fn : BitVec 8) : Option Instr :=
  match fn.toNat with
  | 0 => needZ g (some (.stT t st tile))
  | 1 => needIf (!g.getLsbD 4) (some (.stTi t st tile (g.extractLsb' 0 4)))
  | 2 => needZ g (some (.stFf t st tile))
  | 3 => needZ g (needZ tile (some (.stZ t st)))
  | 4 => needZ g (needZ (tile.extractLsb' 2 2) (some (.stA t st (tile.extractLsb' 0 2))))
  | _ => none

/-- Major 0x31: drains and their configuration (R53). -/
def decDrain (t : Tok) (st : BitVec 5) (tile : BitVec 4) (g : BitVec 5) (fn : BitVec 8) : Option Instr :=
  let f := fn.extractLsb' 0 5
  let acc := tile.extractLsb' 0 2
  let ac (i : Instr) : Option Instr := needZ (tile.extractLsb' 2 2) (some i)
  match (fn.extractLsb' 5 3).toNat with
  | 0 => needZ g (needIf (decDrnFmt f) (ac (.drn t st acc f)))
  | 1 => needZ st (needZ (g.extractLsb' 2 3) (needIf (decTileFmt f) (some (.drnT t tile (g.extractLsb' 0 2) f))))
  | 2 => needZ g (needZ (f.extractLsb' 1 4) (ac (.dcfgSc t st acc (f.getLsbD 0))))
  | 3 => needZ g (needZ (f.extractLsb' 1 4) (ac (.dcfgBi t st acc (f.getLsbD 0))))
  | 4 => needZ g (needZ f (ac (.dcfgFn t st acc)))
  | 5 => needZ st (needZ f (ac (.dcfgCl t acc g)))
  | 6 => needZ st (needZ f (ac (.dcfgRm t acc g)))
  | _ => needZ st (needZ f (needZ tile (some (.srsSeed t g))))

/-- Major 0x32: `upd` (R52); the stream field names a tile (R47). -/
def decUpdT (t : Tok) (st : BitVec 5) (tile : BitVec 4) (g : BitVec 5) (fn : BitVec 8) : Option Instr :=
  let sc := fn.extractLsb' 5 3
  needIf (!st.getLsbD 4) <| needZ (fn.extractLsb' 0 5) <| needSc sc <|
  some (.upd t (st.extractLsb' 0 4) tile g sc)

/-- Major 0x38: barriers (R52). -/
def decBar (t : Tok) (q : BitVec 2) (a b : Reg) (sc : BitVec 3) (fn : BitVec 7) : Option Instr :=
  needSc sc <|
  match fn.toNat with
  | 0 => some (.barInit t q a b sc)
  | 1 => some (.barExp t q a b sc)
  | 2 => needZ b (some (.barArr t q a sc))
  | 3 => some (.barWait t q a b sc)
  | _ => none

/-- Major 0x39: hardware rings (R52). -/
def decRing (t : Tok) (q : BitVec 2) (a b : Reg) (sc : BitVec 3) (fn : BitVec 7) : Option Instr :=
  needSc sc <|
  match fn.toNat with
  | 0 => needZ q (some (.ringCl a b sc))
  | 1 => some (.ringFill t q a b sc)
  | 2 => needZ q (some (.ringTake a b sc))
  | 3 => some (.ringRel t q a b sc)
  | 4 => some (.ringWf t q a b sc)
  | 5 => some (.ringWe t q a b sc)
  | _ => none

/-- Major 0x3A: the event queue (R52); `evq.pop` names an even register other than g0 (R189). -/
def decEvq (t : Tok) (q : BitVec 2) (a b : Reg) (sc : BitVec 3) (fn : BitVec 7) : Option Instr :=
  needSc sc <|
  match fn.toNat with
  | 0 => needZ q (needZ b (needIf (!a.getLsbD 0 && a != 0) (some (.evqPop a sc))))
  | 1 => some (.evqPost t q a b sc)
  | _ => none

/-- Major 0x3B: tasks (R52). -/
def decTask (t : Tok) (q : BitVec 2) (a b : Reg) (sc : BitVec 3) (fn : BitVec 7) : Option Instr :=
  match fn.toNat with
  | 0 => needZ q (needSc sc (some (.spawn a b sc)))
  | 1 => needZ q (needSc sc (some (.joinInit a b sc)))
  | 2 => needZ b (needSc sc (some (.joinDec t q a sc)))
  | 3 => needZ q (needZ a (needZ b (needZ sc (some .done))))
  | 4 => needZ q (needZ a (needZ b (needZ sc (some .yield))))
  | 5 => needZ q (needZ a (needZ b (needZ sc (some .phaseEnd))))
  | 6 => needZ q (needSc sc (some (.cqPush a b sc)))
  | _ => none

/-- Major 0x3C: system (R52). -/
def decSys (d a b : Reg) (fn : BitVec 7) : Option Instr :=
  match fn.toNat with
  | 0 => needZ d (needZ a (needZ b (some .nop)))
  | 1 => needZ d (needZ a (needZ b (some .brk)))
  | 2 => needZ d (needZ b (some (.trap a)))
  | 3 => needZ d (needZ a (needZ b (some .eret)))
  | 4 => needZ d (needZ b (some (.ctxSv a)))
  | 5 => needZ d (needZ b (some (.ctxLd a)))
  | 6 => needZ d (needZ b (some (.qsnSv a)))
  | 7 => needZ d (needZ b (some (.qsnLd a)))
  | 8 => needZ d (needZ b (some (.partSw a)))
  | 9 => needZ d (needZ a (needZ b (some .pmIdle)))
  | 10 => needZ d (some (.eccInj a b))
  | 11 => needZ b (some (.cntRd d a))
  | _ => none

/-- Major 0x3D: code, KV and migration (R52). -/
def decKv (d a b : Reg) (fn : BitVec 7) : Option Instr :=
  match fn.toNat with
  | 0 => some (.codeLd d a b)
  | 1 => needZ d (some (.codeInv a b))
  | 2 => some (.kvApp d a b)
  | 3 => needZ b (some (.kvFork d a))
  | 4 => needZ d (needZ b (some (.kvRel a)))
  | 5 => needZ b (some (.kvRd d a))
  | 6 => needZ d (some (.kvMap a b))
  | 7 => needZ d (some (.mapInv a b))
  | 8 => needZ d (some (.migFrz a b))
  | _ => none

/-- Major 0x3E: retention (R52). -/
def decKeep (d a b : Reg) (fn : BitVec 7) : Option Instr :=
  match fn.toNat with
  | 0 => needZ d (needZ b (some (.dcUnpin a)))
  | 1 => needZ d (some (.dcKeep a b))
  | _ => none

/-- The instruction that a word and its extension word name, whatever its token bits (R51-R54). -/
def decodeWord (w x : Word) : Option Instr :=
  let t := tokOfBits (fTok w)
  match (fMajor w).toNat with
  | 0x00 => decInt (f17 w) (f12 w) (f7 w) (fFn7 w)
  | 0x01 => some (.addi (f17 w) (f12 w) (fImm w))
  | 0x02 => some (.andi (f17 w) (f12 w) (fImm w))
  | 0x03 => some (.ori (f17 w) (f12 w) (fImm w))
  | 0x04 => some (.xori (f17 w) (f12 w) (fImm w))
  | 0x05 => decShift (f17 w) (f12 w) (fImm w)
  | 0x06 => some (.slti (f17 w) (f12 w) (fImm w))
  | 0x07 => some (.sltiu (f17 w) (f12 w) (fImm w))
  | 0x08 => decLong (f17 w) (f12 w) (fImm w) x
  | 0x09 => decFp (f17 w) (f12 w) (f7 w) (fFn7 w)
  | 0x0A => some (.beq (f17 w) (f12 w) (fImm w))
  | 0x0B => some (.bne (f17 w) (f12 w) (fImm w))
  | 0x0C => some (.blt (f17 w) (f12 w) (fImm w))
  | 0x0D => some (.bge (f17 w) (f12 w) (fImm w))
  | 0x0E => some (.bltu (f17 w) (f12 w) (fImm w))
  | 0x0F => some (.bgeu (f17 w) (f12 w) (fImm w))
  | 0x10 => some (.j (fOff22 w))
  | 0x11 => some (.jal (fOff22 w))
  | 0x12 => decJump (f17 w) (f12 w) (f7 w) (fFn7 w)
  | 0x13 => some (.csrrw (f17 w) (f12 w) (fImm w))
  | 0x14 => some (.csrrs (f17 w) (f12 w) (fImm w))
  | 0x15 => some (.csrrc (f17 w) (f12 w) (fImm w))
  | 0x16 => some (.csrrwi (f17 w) (f12 w) (fImm w))
  | 0x17 => decLoad (f17 w) (f12 w) (f7 w) (fFn7 w) x
  | 0x18 => decStore (f17 w) (f12 w) (f7 w) (fFn7 w) x
  | 0x19 => decAmo (f17 w) (f12 w) (f7 w) (fFn7 w) x
  | 0x1A => decShape (f17 w) (f12 w) (f7 w) (fFn7 w)
  | 0x1B => decFence (f17 w) (f12 w) (f7 w) (fFn7 w)
  | 0x1C => decLoop (f17 w) (f12 w) (f7 w) (fFn7 w)
  | 0x1D => decServe (f17 w) (f12 w) (f7 w) (fFn7 w)
  | 0x1E => decText (f17 w) (f12 w) (f7 w) (fFn7 w)
  | 0x1F => decUpd (f17 w) (f12 w) (f7 w) (fFn7 w)
  | 0x20 => decTileLd t (f17 w) (f13 w) (f8 w) (fFn8 w)
  | 0x21 => decBitmap t (f17 w) (f13 w) (f8 w) (fFn8 w)
  | 0x28 => decMma t (f20 w) (f16 w) (fTb w) (fPat w) (fFn9 w)
  | 0x29 => decCmpa t (f20 w) (f16 w) (fTb w) (fPat w) (fFn9 w)
  | 0x2A => decAcz t (f20 w) (f16 w) (fTb w) (fPat w) (fFn9 w)
  | 0x30 => decTileSt t (f17 w) (f13 w) (f8 w) (fFn8 w)
  | 0x31 => decDrain t (f17 w) (f13 w) (f8 w) (fFn8 w)
  | 0x32 => decUpdT t (f17 w) (f13 w) (f8 w) (fFn8 w)
  | 0x38 => decBar t (f20 w) (f15 w) (f10 w) (fSc7 w) (fFn7 w)
  | 0x39 => decRing t (f20 w) (f15 w) (f10 w) (fSc7 w) (fFn7 w)
  | 0x3A => decEvq t (f20 w) (f15 w) (f10 w) (fSc7 w) (fFn7 w)
  | 0x3B => decTask t (f20 w) (f15 w) (f10 w) (fSc7 w) (fFn7 w)
  | 0x3C => decSys (f17 w) (f12 w) (f7 w) (fFn7 w)
  | 0x3D => decKv (f17 w) (f12 w) (f7 w) (fFn7 w)
  | 0x3E => decKeep (f17 w) (f12 w) (f7 w) (fFn7 w)
  | _ => none

/-- The agent that a word names (R49, R51, R52): 0 sequencer, 1 LQ, 2 MQ, 3 SQ. -/
def wordAgent (w : Word) : Nat :=
  match (fMajor w).toNat with
  | 0x20 | 0x21 => 1
  | 0x28 | 0x29 | 0x2A => 2
  | 0x30 | 0x31 | 0x32 => 3
  | 0x38 | 0x39 | 0x3A | 0x3B => (f20 w).toNat
  | _ => 0

/-- The token bits wu, wd, su, sd that an agent may carry (R49). -/
def tokAllowed (agent : Nat) : BitVec 4 :=
  match agent with
  | 0 => 0b0000
  | 1 => 0b0101
  | 2 => 0b1111
  | _ => 0b1010

/-- The instruction of a word and its extension word, or the first failing check of R50 (its steps 2 and 3). -/
def decode (w x : Word) : Except DecodeError Instr :=
  match decodeWord w x with
  | none => .error .unassigned
  | some i => if fTok w &&& ~~~ tokAllowed (wordAgent w) = 0 then .ok i else .error .illegalToken

/-- Whether a first word is followed by an extension word (R48, R51). -/
def isExtended (w : Word) : Bool :=
  match (fMajor w).toNat with
  | 0x08 | 0x17 | 0x18 | 0x19 => true
  | _ => false

/-- How many bytes the instruction of a first word takes (R48). -/
def wordBytes (w : Word) : Nat := if isExtended w then 8 else 4

/-- Four bytes, the lowest address first, as a word (R5). -/
def wordOfBytes (b0 b1 b2 b3 : Byte) : Word := b3 ++ b2 ++ b1 ++ b0

/-- The bytes of a word, the lowest address first (R5). -/
def bytesOfWord (w : Word) : List Byte :=
  [w.extractLsb' 0 8, w.extractLsb' 8 8, w.extractLsb' 16 8, w.extractLsb' 24 8]

/-- Decoding any bytes: the instruction that stands first, and the bytes after it. -/
def decodeBytes : List Byte → Except DecodeError (Instr × List Byte)
  | b0 :: b1 :: b2 :: b3 :: rest =>
    let w := wordOfBytes b0 b1 b2 b3
    if isExtended w then
      match rest with
      | c0 :: c1 :: c2 :: c3 :: rest' => do
        let i ← decode w (wordOfBytes c0 c1 c2 c3)
        return (i, rest')
      | _ => .error .truncated
    else do
      let i ← decode w 0
      return (i, rest)
  | _ => .error .truncated

/-- The instruction whose bits are `w`, numbered as spec/opcode_table.json numbers them: the first word is bits
31:0 and an extension word bits 63:32. -/
def decodeTableWord (nbits w : Nat) : Option Instr :=
  let v : BitVec 64 := BitVec.ofNat 64 (w % 2 ^ nbits)
  match decodeBytes (bytesOfWord (v.extractLsb' 0 32) ++ bytesOfWord (v.extractLsb' 32 32)) with
  | .ok (i, _) => some i
  | .error _ => none

/-! ## The encoder (R46, R51-R53) -/

/-- A word of format S3 with no token. -/
def mkS3 (m : BitVec 6) (d a b : Reg) (fn : BitVec 7) : Word := m ++ (0 : BitVec 4) ++ d ++ a ++ b ++ fn
/-- A word of format SI or SB with no token. -/
def mkSI (m : BitVec 6) (d a : Reg) (imm : BitVec 12) : Word := m ++ (0 : BitVec 4) ++ d ++ a ++ imm
/-- A word of format SJ with no token. -/
def mkSJ (m : BitVec 6) (off : BitVec 22) : Word := m ++ (0 : BitVec 4) ++ off
/-- A word of format M. -/
def mkM (m : BitVec 6) (t : Tok) (acc : BitVec 2) (ta tb : BitVec 4) (p : BitVec 3) (fn : BitVec 9) : Word :=
  m ++ t.bits ++ acc ++ ta ++ tb ++ p ++ fn
/-- A word of format E. -/
def mkE (m : BitVec 6) (t : Tok) (st : BitVec 5) (tile : BitVec 4) (g : BitVec 5) (fn : BitVec 8) : Word :=
  m ++ t.bits ++ st ++ tile ++ g ++ fn
/-- A word of format Y. -/
def mkY (m : BitVec 6) (t : Tok) (q : BitVec 2) (a b : Reg) (sc : BitVec 3) (fn : BitVec 7) : Word :=
  m ++ t.bits ++ q ++ a ++ b ++ sc ++ fn
/-- No token flag. -/
def noTok : Tok := ⟨false, false, false, false⟩
/-- fn of a scalar load or store: scope, space, operation (R51). -/
def memFn (sc : BitVec 3) (loc : Bool) (k : BitVec 3) : BitVec 7 := sc ++ BitVec.ofBool loc ++ k
/-- fn of majors 0x1D-0x1F: scope, operation (R51). -/
def scFn (sc : BitVec 3) (k : BitVec 4) : BitVec 7 := sc ++ k
/-- fn of major 0x1B: operation, scope (R51). -/
def fnSc (k : BitVec 4) (sc : BitVec 3) : BitVec 7 := k ++ sc
/-- A tile number in a 5-bit field (R47). -/
def tile5 (t : BitVec 4) : BitVec 5 := (0 : BitVec 1) ++ t
/-- A pattern number in a 5-bit field (R47). -/
def pat5 (p : BitVec 3) : BitVec 5 := (0 : BitVec 2) ++ p
/-- An accumulator in an E tile field (R47). -/
def acc4 (a : BitVec 2) : BitVec 4 := (0 : BitVec 2) ++ a
/-- An accumulator in an E g field (R53). -/
def acc5 (a : BitVec 2) : BitVec 5 := (0 : BitVec 3) ++ a
/-- fn of `mma`: side, zero-first, reserved, format (R18). -/
def mmaFn (side z : Bool) (f : BitVec 5) : BitVec 9 := BitVec.ofBool side ++ BitVec.ofBool z ++ (0 : BitVec 2) ++ f
/-- fn of major 0x31: operation, low field (R53). -/
def drnFn (k : BitVec 3) (f : BitVec 5) : BitVec 8 := k ++ f
/-- The low field of dcfg.sc and dcfg.bi (R53). -/
def colFn (c : Bool) : BitVec 5 := (0 : BitVec 4) ++ BitVec.ofBool c
/-- imm12 of a shift (R51). -/
def shImm (k : BitVec 2) (sh : BitVec 6) : BitVec 12 := k ++ (0 : BitVec 4) ++ sh

/-- The first word of an instruction and its extension word (zero where it has none). An event has no word; it
gets the never-assigned word 0xFFFFFFFF (R54). -/
def encode : Instr → Word × Word
  | .add d a b => (mkS3 0x00 d a b 0x00, 0)
  | .sub d a b => (mkS3 0x00 d a b 0x01, 0)
  | .and d a b => (mkS3 0x00 d a b 0x02, 0)
  | .or d a b => (mkS3 0x00 d a b 0x03, 0)
  | .xor d a b => (mkS3 0x00 d a b 0x04, 0)
  | .sll d a b => (mkS3 0x00 d a b 0x05, 0)
  | .srl d a b => (mkS3 0x00 d a b 0x06, 0)
  | .sra d a b => (mkS3 0x00 d a b 0x07, 0)
  | .slt d a b => (mkS3 0x00 d a b 0x08, 0)
  | .sltu d a b => (mkS3 0x00 d a b 0x09, 0)
  | .mul d a b => (mkS3 0x00 d a b 0x0A, 0)
  | .mulh d a b => (mkS3 0x00 d a b 0x0B, 0)
  | .mulhu d a b => (mkS3 0x00 d a b 0x0C, 0)
  | .div d a b => (mkS3 0x00 d a b 0x0D, 0)
  | .divu d a b => (mkS3 0x00 d a b 0x0E, 0)
  | .rem d a b => (mkS3 0x00 d a b 0x0F, 0)
  | .remu d a b => (mkS3 0x00 d a b 0x10, 0)
  | .min d a b => (mkS3 0x00 d a b 0x11, 0)
  | .max d a b => (mkS3 0x00 d a b 0x12, 0)
  | .minu d a b => (mkS3 0x00 d a b 0x13, 0)
  | .maxu d a b => (mkS3 0x00 d a b 0x14, 0)
  | .clz d a => (mkS3 0x00 d a 0 0x18, 0)
  | .ctz d a => (mkS3 0x00 d a 0 0x19, 0)
  | .popc d a => (mkS3 0x00 d a 0 0x1A, 0)
  | .sxb d a => (mkS3 0x00 d a 0 0x1B, 0)
  | .sxh d a => (mkS3 0x00 d a 0 0x1C, 0)
  | .sxw d a => (mkS3 0x00 d a 0 0x1D, 0)
  | .addi d a i => (mkSI 0x01 d a i, 0)
  | .andi d a i => (mkSI 0x02 d a i, 0)
  | .ori d a i => (mkSI 0x03 d a i, 0)
  | .xori d a i => (mkSI 0x04 d a i, 0)
  | .slli d a sh => (mkSI 0x05 d a (shImm 0 sh), 0)
  | .srli d a sh => (mkSI 0x05 d a (shImm 1 sh), 0)
  | .srai d a sh => (mkSI 0x05 d a (shImm 2 sh), 0)
  | .slti d a i => (mkSI 0x06 d a i, 0)
  | .sltiu d a i => (mkSI 0x07 d a i, 0)
  | .li d x => (mkSI 0x08 d 0 0, x)
  | .lih d x => (mkSI 0x08 d 0 1, x)
  | .fadd d a b => (mkS3 0x09 d a b 0, 0)
  | .fsub d a b => (mkS3 0x09 d a b 1, 0)
  | .fmul d a b => (mkS3 0x09 d a b 2, 0)
  | .fdiv d a b => (mkS3 0x09 d a b 3, 0)
  | .fsqrt d a => (mkS3 0x09 d a 0 4, 0)
  | .fmin d a b => (mkS3 0x09 d a b 5, 0)
  | .fmax d a b => (mkS3 0x09 d a b 6, 0)
  | .fcmp d a b => (mkS3 0x09 d a b 7, 0)
  | .f2i d a => (mkS3 0x09 d a 0 8, 0)
  | .i2f d a => (mkS3 0x09 d a 0 9, 0)
  | .beq a b o => (mkSI 0x0A a b o, 0)
  | .bne a b o => (mkSI 0x0B a b o, 0)
  | .blt a b o => (mkSI 0x0C a b o, 0)
  | .bge a b o => (mkSI 0x0D a b o, 0)
  | .bltu a b o => (mkSI 0x0E a b o, 0)
  | .bgeu a b o => (mkSI 0x0F a b o, 0)
  | .j o => (mkSJ 0x10 o, 0)
  | .jal o => (mkSJ 0x11 o, 0)
  | .jalr d a => (mkS3 0x12 d a 0 0, 0)
  | .jt a b => (mkS3 0x12 0 a b 1, 0)
  | .csrrw d a c => (mkSI 0x13 d a c, 0)
  | .csrrs d a c => (mkSI 0x14 d a c, 0)
  | .csrrc d a c => (mkSI 0x15 d a c, 0)
  | .csrrwi d u c => (mkSI 0x16 d u c, 0)
  | .ldB sc loc d a x => (mkS3 0x17 d a 0 (memFn sc loc 0), x)
  | .ldH sc loc d a x => (mkS3 0x17 d a 0 (memFn sc loc 1), x)
  | .ldW sc loc d a x => (mkS3 0x17 d a 0 (memFn sc loc 2), x)
  | .ldD sc loc d a x => (mkS3 0x17 d a 0 (memFn sc loc 3), x)
  | .ldBu sc loc d a x => (mkS3 0x17 d a 0 (memFn sc loc 4), x)
  | .ldHu sc loc d a x => (mkS3 0x17 d a 0 (memFn sc loc 5), x)
  | .ldWu sc loc d a x => (mkS3 0x17 d a 0 (memFn sc loc 6), x)
  | .sld sc loc d a x => (mkS3 0x17 d a 0 (memFn sc loc 7), x)
  | .stB sc loc a b x => (mkS3 0x18 0 a b (memFn sc loc 0), x)
  | .stH sc loc a b x => (mkS3 0x18 0 a b (memFn sc loc 1), x)
  | .stW sc loc a b x => (mkS3 0x18 0 a b (memFn sc loc 2), x)
  | .stD sc loc a b x => (mkS3 0x18 0 a b (memFn sc loc 3), x)
  | .amoAdd sc d a b x => (mkS3 0x19 d a b (memFn sc false 0), x)
  | .amoSwap sc d a b x => (mkS3 0x19 d a b (memFn sc false 1), x)
  | .amoCas sc d a b x => (mkS3 0x19 d a b (memFn sc false 2), x)
  | .amoFadd sc d a b x => (mkS3 0x19 d a b (memFn sc false 3), x)
  | .tshape d t b => (mkS3 0x1A d (tile5 t) b 0, 0)
  | .pset p a => (mkS3 0x1A (pat5 p) a 0 1, 0)
  | .pget d p => (mkS3 0x1A d (pat5 p) 0 2, 0)
  | .fence sc => (mkS3 0x1B 0 0 0 (fnSc 0 sc), 0)
  | .monArm a sc => (mkS3 0x1B 0 a 0 (fnSc 1 sc), 0)
  | .monWait d a => (mkS3 0x1B d a 0 (fnSc 2 0), 0)
  | .prbR a b => (mkS3 0x1B 0 a b (fnSc 3 0), 0)
  | .prbW a b => (mkS3 0x1B 0 a b (fnSc 4 0), 0)
  | .prbRel a b => (mkS3 0x1B 0 a b (fnSc 5 0), 0)
  | .lptLd a => (mkS3 0x1C 0 a 0 0, 0)
  | .lptNx d a => (mkS3 0x1C d a 0 1, 0)
  | .lptIx d a => (mkS3 0x1C d a 0 2, 0)
  | .smpCoarse a b sc => (mkS3 0x1D 0 a b (scFn sc 0), 0)
  | .smpThr d a sc => (mkS3 0x1D d a 0 (scFn sc 1), 0)
  | .smpDraw d a b sc => (mkS3 0x1D d a b (scFn sc 2), 0)
  | .specChk d a b sc => (mkS3 0x1D d a b (scFn sc 3), 0)
  | .fragSel d a sc => (mkS3 0x1D d a 0 (scFn sc 4), 0)
  | .tblSwap a b sc => (mkS3 0x1D 0 a b (scFn sc 5), 0)
  | .embPf a b sc => (mkS3 0x1D 0 a b (scFn sc 6), 0)
  | .moeCmb a b sc => (mkS3 0x1D 0 a b (scFn sc 7), 0)
  | .exsLd a b sc => (mkS3 0x1D 0 a b (scFn sc 8), 0)
  | .exsCnt d a sc => (mkS3 0x1D d a 0 (scFn sc 9), 0)
  | .exsAge a sc => (mkS3 0x1D 0 a 0 (scFn sc 10), 0)
  | .netRx d a sc => (mkS3 0x1E d a 0 (scFn sc 0), 0)
  | .netTx a b sc => (mkS3 0x1E 0 a b (scFn sc 1), 0)
  | .tokSub a b sc => (mkS3 0x1E 0 a b (scFn sc 2), 0)
  | .tokRes d a sc => (mkS3 0x1E d a 0 (scFn sc 3), 0)
  | .dtkSub a b sc => (mkS3 0x1E 0 a b (scFn sc 4), 0)
  | .dtkRes d a sc => (mkS3 0x1E d a 0 (scFn sc 5), 0)
  | .vocSwap a b sc => (mkS3 0x1E 0 a b (scFn sc 6), 0)
  | .updS a b sc => (mkS3 0x1F 0 a b (scFn sc 0), 0)
  | .updRgn a sc => (mkS3 0x1F 0 a 0 (scFn sc 1), 0)
  | .updFlags d a sc => (mkS3 0x1F d a 0 (scFn sc 2), 0)
  | .updDrain a sc => (mkS3 0x1F 0 a 0 (scFn sc 3), 0)
  | .cpGo a b sc => (mkS3 0x1F 0 a b (scFn sc 8), 0)
  | .cpId d a => (mkS3 0x1F d a 0 (scFn 0 9), 0)
  | .cpWait a b sc => (mkS3 0x1F 0 a b (scFn sc 10), 0)
  | .cpAbort a sc => (mkS3 0x1F 0 a 0 (scFn sc 11), 0)
  | .ldT t st tile => (mkE 0x20 t st tile 0 0, 0)
  | .ldA t st acc => (mkE 0x20 t st (acc4 acc) 0 1, 0)
  | .ldTi t st tile idx => (mkE 0x20 t st tile (tile5 idx) 2, 0)
  | .ldFf t st tile => (mkE 0x20 t st tile 0 3, 0)
  | .bmand t st tile rank => (mkE 0x21 t st tile (tile5 rank) 0, 0)
  | .bmpfx t st tile => (mkE 0x21 t st tile 0 1, 0)
  | .isxG t st tile idx => (mkE 0x21 t st tile (tile5 idx) 2, 0)
  | .mmaTileTile t acc ta tb z f => (mkM 0x28 t acc ta tb 0 (mmaFn false z f), 0)
  | .mmaPatternA t acc tb p z f => (mkM 0x28 t acc 0 tb p (mmaFn false z f), 0)
  | .mmaPatternB t acc ta p z f => (mkM 0x28 t acc ta 0 p (mmaFn true z f), 0)
  | .cmpa t acc ta f => (mkM 0x29 t acc ta 0 0 ((0 : BitVec 4) ++ f), 0)
  | .acz t acc => (mkM 0x2A t acc 0 0 0 0, 0)
  | .tsm t => (mkM 0x2A t 0 0 0 0 1, 0)
  | .stT t st tile => (mkE 0x30 t st tile 0 0, 0)
  | .stTi t st tile idx => (mkE 0x30 t st tile (tile5 idx) 1, 0)
  | .stFf t st tile => (mkE 0x30 t st tile 0 2, 0)
  | .stZ t st => (mkE 0x30 t st 0 0 3, 0)
  | .stA t st acc => (mkE 0x30 t st (acc4 acc) 0 4, 0)
  | .drn t st acc f => (mkE 0x31 t st (acc4 acc) 0 (drnFn 0 f), 0)
  | .drnT t tile acc f => (mkE 0x31 t 0 tile (acc5 acc) (drnFn 1 f), 0)
  | .dcfgSc t st acc c => (mkE 0x31 t st (acc4 acc) 0 (drnFn 2 (colFn c)), 0)
  | .dcfgBi t st acc c => (mkE 0x31 t st (acc4 acc) 0 (drnFn 3 (colFn c)), 0)
  | .dcfgFn t st acc => (mkE 0x31 t st (acc4 acc) 0 (drnFn 4 0), 0)
  | .dcfgCl t acc b => (mkE 0x31 t 0 (acc4 acc) b (drnFn 5 0), 0)
  | .dcfgRm t acc b => (mkE 0x31 t 0 (acc4 acc) b (drnFn 6 0), 0)
  | .srsSeed t b => (mkE 0x31 t 0 0 b (drnFn 7 0), 0)
  | .upd t key tile rg sc => (mkE 0x32 t (tile5 key) tile rg (sc ++ (0 : BitVec 5)), 0)
  | .barInit t q a b sc => (mkY 0x38 t q a b sc 0, 0)
  | .barExp t q a b sc => (mkY 0x38 t q a b sc 1, 0)
  | .barArr t q a sc => (mkY 0x38 t q a 0 sc 2, 0)
  | .barWait t q a b sc => (mkY 0x38 t q a b sc 3, 0)
  | .ringCl a b sc => (mkY 0x39 noTok 0 a b sc 0, 0)
  | .ringFill t q a b sc => (mkY 0x39 t q a b sc 1, 0)
  | .ringTake a b sc => (mkY 0x39 noTok 0 a b sc 2, 0)
  | .ringRel t q a b sc => (mkY 0x39 t q a b sc 3, 0)
  | .ringWf t q a b sc => (mkY 0x39 t q a b sc 4, 0)
  | .ringWe t q a b sc => (mkY 0x39 t q a b sc 5, 0)
  | .evqPop a sc => (mkY 0x3A noTok 0 a 0 sc 0, 0)
  | .evqPost t q a b sc => (mkY 0x3A t q a b sc 1, 0)
  | .spawn a b sc => (mkY 0x3B noTok 0 a b sc 0, 0)
  | .joinInit a b sc => (mkY 0x3B noTok 0 a b sc 1, 0)
  | .joinDec t q a sc => (mkY 0x3B t q a 0 sc 2, 0)
  | .done => (mkY 0x3B noTok 0 0 0 0 3, 0)
  | .yield => (mkY 0x3B noTok 0 0 0 0 4, 0)
  | .phaseEnd => (mkY 0x3B noTok 0 0 0 0 5, 0)
  | .cqPush a b sc => (mkY 0x3B noTok 0 a b sc 6, 0)
  | .nop => (mkS3 0x3C 0 0 0 0, 0)
  | .brk => (mkS3 0x3C 0 0 0 1, 0)
  | .trap a => (mkS3 0x3C 0 a 0 2, 0)
  | .eret => (mkS3 0x3C 0 0 0 3, 0)
  | .ctxSv a => (mkS3 0x3C 0 a 0 4, 0)
  | .ctxLd a => (mkS3 0x3C 0 a 0 5, 0)
  | .qsnSv a => (mkS3 0x3C 0 a 0 6, 0)
  | .qsnLd a => (mkS3 0x3C 0 a 0 7, 0)
  | .partSw a => (mkS3 0x3C 0 a 0 8, 0)
  | .pmIdle => (mkS3 0x3C 0 0 0 9, 0)
  | .eccInj a b => (mkS3 0x3C 0 a b 10, 0)
  | .cntRd d a => (mkS3 0x3C d a 0 11, 0)
  | .codeLd d a b => (mkS3 0x3D d a b 0, 0)
  | .codeInv a b => (mkS3 0x3D 0 a b 1, 0)
  | .kvApp d a b => (mkS3 0x3D d a b 2, 0)
  | .kvFork d a => (mkS3 0x3D d a 0 3, 0)
  | .kvRel a => (mkS3 0x3D 0 a 0 4, 0)
  | .kvRd d a => (mkS3 0x3D d a 0 5, 0)
  | .kvMap a b => (mkS3 0x3D 0 a b 6, 0)
  | .mapInv a b => (mkS3 0x3D 0 a b 7, 0)
  | .migFrz a b => (mkS3 0x3D 0 a b 8, 0)
  | .dcUnpin a => (mkS3 0x3E 0 a 0 0, 0)
  | .dcKeep a b => (mkS3 0x3E 0 a b 1, 0)
  | _ => (0xFFFFFFFF, 0)

/-- The bytes of an instruction as the code store holds them (R5, R48). -/
def encodeBytes (i : Instr) : List Byte :=
  let (w, x) := encode i
  bytesOfWord w ++ (if isExtended w then bytesOfWord x else [])

end Sys2Proof
end

