-- ==== Sys2Proof/Machine/State.lean ====
section
/-! DEFINITION. The state of the device as plain data: its cores, memories, queues, engines and links, and the
fields of the model's own. INVENTORY.md lists each with its rule and reset value. -/
namespace Sys2Proof.Machine

/-! ## A core (R22) -/

/-- A tile register: element data, side store, padded-row mask (R24) and control register (R25). -/
structure Tile where
  data : BitVec 32768
  side : BitVec 8192
  mask : BitVec 128
  tc   : BitVec 64
deriving DecidableEq, Repr

/-- An accumulator: 32 × 64 elements as the image of R30 holds them, one overflow bit each (R28), and the class. -/
structure Acc where
  img : BitVec 98304
  ovf : BitVec 2048
  /-- The class bit (R28): false INTEGER, true FLOAT. -/
  float : Bool
deriving DecidableEq, Repr

/-- A drain configuration (R106): 32 or 64 binary32 values, the function table and its switches. -/
structure DrainCfg where
  rs : BitVec 1024
  cs : BitVec 2048
  rb : BitVec 1024
  cb : BitVec 2048
  table : BitVec 25088
  lo : BitVec 32
  hi : BitVec 32
  rm : BitVec 2
  rsOn : Bool
  csOn : Bool
  rbOn : Bool
  cbOn : Bool
  fnOn : Bool
  clOn : Bool
deriving DecidableEq, Repr

/-- What an entry that has performed its effects still has to write when it completes (R104). -/
structure Eff where
  tiles : List (Nat × Tile)
  accs  : List (Nat × Acc)
  cfgs  : List (Nat × DrainCfg)
  fl    : BitVec 6
deriving DecidableEq, Repr

/-- What an entry writes at completion: nothing. -/
def Eff.none : Eff := ⟨[], [], [], 0⟩

/-- A queue entry (R14, R329). -/
structure Entry where
  instr : Instr
  word  : BitVec 32
  addr  : BitVec 64
  /-- The order of routing, the model's own (R317 needs it). -/
  num   : Nat
  g     : List (BitVec 64)
  /-- The copied pattern register, or the copied seed of a drain (R329). -/
  pat   : BitVec 64
  /-- The granted shapes tc<18:0> of tile A, tile B, the tile field and the index tile (R329). -/
  shA : BitVec 19
  shB : BitVec 19
  shT : BitVec 19
  shI : BitVec 19
  stream : BitVec 512
  progress : Nat
  started : Bool
  skip    : Bool
  waited  : Bool
  /-- The effects of an entry that has performed and waits to complete: its send finds 63 (R15), or a store of it to a
  peer or to the host is not acknowledged (R234, R238). -/
  flight  : Option Eff
  /-- The tiles, accumulators and drain configurations that a started entry read at its start (R104, R107). -/
  read    : Eff
  /-- The number that a withdrawn pair of an `upd` keeps (R249). -/
  seqKept : Option (BitVec 32)
  /-- The unit at which a pre-emption stops it (R324); none but while it is being stopped. -/
  stopAt  : Option Nat
deriving DecidableEq, Repr

/-- A word that has made its visible effect and waits (R325). -/
inductive Commit where
  | none
  /-- `upd.drain` with the region-table entry. -/
  | updDrain (rgn : Nat)
  /-- `cp.abort` with x and its channel. -/
  | cpAbort (x : Nat)
  /-- `net.tx` with the hand-over it waits for. -/
  | netTx (h : Nat)
  /-- `mon.wait` interrupted, complete with result 0 (R85). -/
  | monDone
  /-- The model's own: the core sleeps in `pm.idle` (R337). -/
  | idle
  /-- The model's own: `upd.s` has sent its pair, with the region's slot (R248, R325: abandoned at a pre-emption). -/
  | updS (slot : Nat)
  /-- The model's own: a kv instruction has made its step, which has still to be performed at DV (R290: complete at a
  pre-emption). -/
  | kvStep
  /-- The model's own: a `fence` waits for the stores of other agents to the pool (R88, R230, R240). -/
  | fence
  /-- The model's own: `map.inv` has passed its invalidation point and waits for the accesses before it (R303). -/
  | mapInv
deriving DecidableEq, Repr

/-- The held state of a queue trap (R317). -/
structure Held where
  resume : BitVec 64
  /-- The trapping queue, 1 to 3. -/
  queue : Nat
  /-- Entries routed from this number on are held with T. -/
  from_ : Nat
  /-- Entries that step 3 of R317 holds because their token can never come. -/
  extra : List Nat
deriving DecidableEq, Repr

/-- A queue trap whose handler is not yet entered (R317): its queue, entry, cause and `tval`. -/
structure QTrap where
  queue : Nat
  num : Nat
  cause : Nat
  tval : BitVec 64
deriving DecidableEq, Repr

/-- A leaf that a walk found (R297-R299), with the address that it gives. -/
structure Leaf where
  pa : Nat
  r : Bool
  w : Bool
  x : Bool
  cow : Bool
  level : Nat
  entryAddr : Nat
  entry : BitVec 64
deriving DecidableEq, Repr

/-- A pin-table entry (R86, R87), with the translations that it keeps valid: the first address of a leaf's span in the
range, and the leaf as it stood there. -/
structure Pin where
  base : BitVec 64
  len  : BitVec 64
  w    : Bool
  revoked : Bool
  leaves : List (Nat × Leaf)
deriving DecidableEq, Repr

/-- A `bar.wait`, a `ring.wf` or a `ring.we` under way (R182, R183): the agent (0 the sequencer, 1 to 3 a queue), the object (a
barrier's place in the bank list, or a ring's in the list of rings), and whether the object has released the wait. -/
structure ObjWait where
  agent : Nat
  ring : Bool
  place : Nat
  released : Bool
deriving DecidableEq, Repr

/-- The armed watch (R84): its partition, its virtual line, its physical line, its scope, whether it has fired. -/
structure Watch where
  line  : Nat
  pline : Nat
  scope : BitVec 3
  fired : Bool
deriving DecidableEq, Repr

/-- A loop level (R89, R90). -/
structure Loop where
  kind  : BitVec 2
  trips : BitVec 32
  idx   : BitVec 32
deriving DecidableEq, Repr

/-- What a core is doing (R146-R148, R343). -/
inductive Activity where
  /-- No task is bound. -/
  | idle
  | running
  /-- Bound, its member has completed `done` (R148). -/
  | finished
  /-- Out of service (R343). -/
  | fenced
deriving DecidableEq, Repr

/-- A checkpoint of the sequencer (R341). -/
structure Check where
  g   : Vector (BitVec 64) 32
  p   : Vector (BitVec 64) 8
  st  : Vector (BitVec 512) 32
  hm : Bool
  phm : Bool
  cause : BitVec 7
  epc : BitVec 64
  tval : BitVec 64
  fflg : BitVec 6
  seed : BitVec 64
  iterlim : BitVec 8
  bankmode : BitVec 24
  tkcnt : BitVec 64
  tc : Vector (BitVec 64) 16
  pc : BitVec 64
  /-- The entries routed since the marker (R342, R343). -/
  routed : Nat
deriving DecidableEq, Repr

/-- A retained entry that has performed: its number, what it wrote and read, and S and n as it found them (R105, R273, R275). -/
structure Performed where
  num : Nat
  wrote : Eff
  read : Eff
  srS : BitVec 64
  srN : BitVec 64
deriving DecidableEq, Repr

/-- One core. -/
structure Core where
  /-- R38: die, cluster, core. -/
  id : BitVec 11
  act : Activity
  g : Vector (BitVec 64) 32
  tiles : Vector Tile 16
  accs : Vector Acc 4
  cfgs : Vector DrainCfg 4
  p : Vector (BitVec 64) 8
  st : Vector (BitVec 512) 32
  /-- The program counter, a code-store address (R73). -/
  pc : BitVec 64
  hm : Bool
  phm : Bool
  det : Bool
  cause : BitVec 7
  epc : BitVec 64
  tval : BitVec 64
  fflg : BitVec 6
  partid : BitVec 5
  phase : BitVec 32
  teamid : BitVec 7
  teamsz : BitVec 7
  seed : BitVec 64
  iterlim : BitVec 8
  bankmode : BitVec 24
  lmDn : BitVec 6
  lmUp : BitVec 6
  msDn : BitVec 6
  msUp : BitVec 6
  lq : List Entry
  mq : List Entry
  sq : List Entry
  held : Option Held
  pins : List Pin
  watch : Option Watch
  loops : Vector Loop 4
  /-- The task's continuation record (R133). -/
  record : BitVec 256
  /-- The origin queue (R191). -/
  origin : BitVec 8
  /-- The die-instance index (R149). -/
  inst : BitVec 8
  /-- Counts A and W (R153). -/
  arrivals : BitVec 32
  waits : BitVec 32
  /-- The latched copy identifier and channel (R165). -/
  latchId : BitVec 32
  latchCh : BitVec 6
  seqctr : BitVec 32
  /-- Stochastic rounding state S and count n (R273, R275). -/
  srS : BitVec 64
  srN : BitVec 64
  /-- FIFO state words of the banks (R212): bytes out in 63:32, bytes in in 31:0. -/
  fifo : Vector (BitVec 64) 12
  /-- Counters 0-8, 10, 11 of R338 (index 9 is not used). -/
  counters : Vector (BitVec 64) 12
  commit : Commit
  /-- The replay window (R105): the entries routed since the last `tsm`, and whether there is one. -/
  marker : Bool
  retained : List Entry
  /-- Accumulators written since the marker, and those first rebuilt after it (R105). -/
  dirtyAcc : BitVec 4
  builtAcc : BitVec 4
  /-- The entries of the image that a resumption or `ctx.ld` gave, the retained ones that have performed, in that order, and what a
  replay starts from when an image stands for the window (R105, R323). -/
  restored : List Entry
  performed : List Performed
  replayBase : Option Eff
  check : Check
  /-- Injected test errors that wait for their consumer (R339). -/
  injArray : Bool
  injClap : Bool
  /-- The core takes its next record only from this partition's queues (R336). -/
  onlyPart : Option (BitVec 5)
  /-- The model's own: a queue trap on its way (R317); the queues the sequencer is stalled on (R197); the number of
  the bound context, 0 for none; the sleep of `mon.wait` and `pm.idle`, its timeout, its wake. -/
  qtrap : Option QTrap
  stall : Nat
  ctx : Nat
  asleep : Bool
  deadline : Nat
  timedOut : Bool
  woken : Bool
  /-- The number of the sampler command that the sequencer waits for, 0 for none, and its result: a value, or (true)
  the `tval` of its trap. -/
  waitCmd : Nat
  cmdDone : Option (Bool × BitVec 64)
  /-- The waits on barriers and rings of the sequencer and of the queue heads (R182, R183). -/
  objWaits : List ObjWait
deriving DecidableEq, Repr

/-! ## Scheduling (chapters 8, 10) -/

/-- A continuation queue (R135, R136). -/
structure Cq where
  base : BitVec 64
  err : BitVec 4
  stop : Bool
  dies : BitVec 8
  tickets : BitVec 12
  size : BitVec 4
  det : Bool
  en : Bool
  head : BitVec 32
  tail : BitVec 32
  pass : BitVec 64
  /-- Whether the queue was backlogged when R143 last looked. -/
  backlogged : Bool
deriving DecidableEq, Repr

/-- A record selected and not yet bound (R143, R146), with its queue and, for a team, the chosen cluster. -/
structure Selected where
  record : BitVec 256
  queue : BitVec 8
  cluster : Option Nat
  /-- The instances of a kind 2 record that have still to start: die-instance index and die (R149); empty until its dies
  are chosen. -/
  insts : List (Nat × Nat)
  /-- The context of a kind 2 record whose dies are chosen; 0 before. -/
  ctx : Nat
  /-- It could not be bound at its selection, and waits (R143, R146). -/
  waits : Bool
deriving DecidableEq, Repr

/-- A join decrement that waits for its queue (R148) or for the commit (R195). -/
structure JoinDec where
  part : BitVec 5
  addr : BitVec 64
  deferred : Bool
deriving DecidableEq, Repr

/-- A member of a saved context: the address of its image, and the core as it stood, for what the image does not hold
(its pins, the order of its entries, a held resume address, whether it has completed). -/
structure SavedMember where
  core : Core
  addr : BitVec 64
deriving DecidableEq, Repr

/-- A saved context (R323): a task, a team, or one die instance. -/
structure Saved where
  part : BitVec 5
  reason : BitVec 7
  record : BitVec 256
  origin : BitVec 8
  inst : BitVec 8
  ctx : Nat
  /-- The members, by teamid. -/
  members : List SavedMember
  /-- A yielded task that waits for a selection of its origin queue (R194). -/
  yielded : Bool
  /-- Held for the debugger (R333). -/
  debug : Bool
deriving DecidableEq, Repr

/-- A bound or saved record (R148, R149, R151, R195). -/
structure CtxInfo where
  ctx : Nat
  record : BitVec 256
  /-- Members or instances that have not completed. -/
  left : Nat
  /-- A fatal error has ended the task, and its deterministic phase is not abandoned yet (R320). -/
  ended : Bool
  /-- A member has ended with `phase.end` (R195). -/
  phaseEnd : Bool
deriving DecidableEq, Repr

/-- A conflict tag (R153): a writer (task, member, A), a reader summary. -/
structure Tag where
  part : BitVec 5
  writer : Option (Nat × Nat × Nat)
  /-- Readers: task, the one member or none for several, the largest A. -/
  reader : Option (Nat × Option Nat × Nat)
  manyReaders : Bool
deriving DecidableEq, Repr

/-- A hardware ring of a cluster (R183, R184). -/
structure HwRing where
  part : BitVec 5
  en : Bool
  lcount : BitVec 4
  claim : BitVec 32
  tail : BitVec 32
  take : BitVec 32
  head : BitVec 32
  f : BitVec 4096
  x : BitVec 4096
deriving DecidableEq, Repr

/-- An event of a cluster's event queue (R188). -/
structure Event where
  part : BitVec 5
  d0 : BitVec 64
  d1 : BitVec 64
deriving DecidableEq, Repr

/-- An event that an engine has yet to post (R188), with the poster's own number. -/
structure PostWait where
  cluster : Nat
  ev : Event
  /-- The copy channel that retires when the event is posted: die and channel. -/
  copy : Option (Nat × Nat)
deriving DecidableEq, Repr

/-! ## Copy channels (chapter 9) -/

/-- A chain handed to a channel (R165, R166). -/
structure Chain where
  /-- The channel's place in the list of channels. -/
  chan : Nat
  ident : BitVec 32
  head : BitVec 64
  core : BitVec 11
  part : BitVec 5
  scope : BitVec 3
  det : Bool
  ctx : Nat
  task : Nat
  member : Nat
  arrivals : Nat
  waits : Nat
deriving DecidableEq, Repr

/-- The record that a channel is working on (R176). -/
structure CopyRun where
  chain : Chain
  recAddr : BitVec 64
  snap : BitVec 512
  /-- Bytes performed, in transfer order (R173). -/
  pos : Nat
  degraded : Bool
  /-- The outcome code once the record has stopped (R174). -/
  outcome : Option Nat
  /-- The successor claimed at retirement (R177): its address and snapshot. -/
  succ : Option (BitVec 64 × BitVec 512)
  /-- How far its retirement has come (R174): 1 once the bytes beyond its stop are settled, 2 once the status is written. -/
  stage : Nat
  /-- The event waits for its quota (R188). -/
  posting : Bool
  /-- The index of the row of a gather that it is moving (R173). -/
  rowIx : Nat
  /-- The bytes of the last piece, while the stores of that piece have still to be performed before its barrier is signalled
  (R130, R242); 0 for none. -/
  owed : Nat
  /-- What cpdone becomes when the chain retires; `cp.abort` raises it (R169). -/
  last : BitVec 32
  aborted : Bool
  /-- The spans of the translations used, and the ranges removed from under them (R303). -/
  used : List (Nat × Nat)
  revoked : List (Nat × Nat)
deriving DecidableEq, Repr

/-- A copy channel (R165). -/
structure Channel where
  issued : BitVec 32
  cpdone : BitVec 32
  queue : List Chain
  run : Option CopyRun
deriving DecidableEq, Repr

/-! ## Update regions (chapters 11, 15) -/

/-- A pair of an update region (R204). -/
structure Pair where
  key : BitVec 32
  val : BitVec 32
  emitter : BitVec 16
  seq : BitVec 32
  /-- The emission it belongs to: the model's own number. -/
  owner : Nat
deriving DecidableEq, Repr

/-- An emission that holds a declaration in place (R248): its context, its agent in it (the instance and the member, with 0 for
the store queue and 1 for the sequencer), the number that its pairs carry, and how many pairs it has still to send. -/
structure Hold where
  ctx : Nat
  agent : Nat
  owner : Nat
  left : Nat
deriving DecidableEq, Repr

/-- A declared region (R200, R246). -/
structure Region where
  /-- Its place in the table of 1,024. -/
  slot : Nat
  part : BitVec 5
  desc : BitVec 512
  /-- The declaring core, which fixes the region instance. -/
  core : BitVec 11
  /-- The pages of the key range and of the spill range: virtual page and physical page, of 16 KiB. -/
  pages : List (Nat × Nat)
  closed : Bool
  status : BitVec 64
  /-- Pairs on the way to the region home. -/
  transit : List Pair
  /-- Held pairs, by bin, and spilled runs in their order. -/
  held : List Pair
  runs : List (List Pair)
  /-- Pairs that wait for room (R251). -/
  waiting : List Pair
  /-- The phase tag (R255): task, member, largest A; or a mark of several tasks. -/
  ptag : Option (Nat × Nat × Nat)
  pmany : Bool
  /-- The emissions that hold the declaration (R248), an ended one until its agent's next step. -/
  holds : List Hold
  /-- The context whose replacement of the region waits (R247); 0 for none. -/
  replacing : Nat
deriving DecidableEq, Repr

/-- A retention register (R217). -/
structure Retain where
  en : Bool
  base : BitVec 64
  part : BitVec 5
  gran : BitVec 32
deriving DecidableEq, Repr

/-- A line of a first-level cache (R213): its core, the address of the access that filled it, whose line tags it, and the translation
that this access had. -/
structure L1Line where
  core : BitVec 11
  va : Nat
  leaf : Leaf
deriving DecidableEq, Repr

/-- A line of a cluster cache (R214): the cluster, the physical line, and the way: a core of the cluster and its bank. -/
structure ClusterLine where
  cluster : Nat
  line : Nat
  core : Nat
  bank : Nat
deriving DecidableEq, Repr

/-- A line of a home slice (R216, R217): the physical line, whether it stands in the evict-first position, and its retention class:
a die and a register of it. -/
structure SliceLine where
  line : Nat
  ef : Bool
  cls : Option (Nat × Nat)
deriving DecidableEq, Repr

/-- The lines that the caches hold: those of the first level and of the cluster caches in the order of their fills, and each set of
a home slice (set m of slice k at 2,048·k + m) with the least recently used line first. -/
structure Cache where
  l1 : List L1Line
  cluster : List ClusterLine
  slices : List (Nat × List SliceLine)
deriving DecidableEq, Repr

/-- A migration tracker (R306). -/
structure Tracker where
  part : BitVec 5
  va : BitVec 64
  leafAddr : BitVec 52
  leaf : BitVec 64
  page : BitVec 52
  map : BitVec 256
deriving DecidableEq, Repr

/-! ## Engines (chapters 24, 26) -/

/-- A command of the sampler, the acceptance engine, the expert loader, the prefetcher or a text engine. -/
structure Command where
  /-- The engine's number as an agent, the model's own. -/
  unit : Nat
  /-- The operation, as the engine's file numbers it. -/
  op : Nat
  num : Nat
  core : BitVec 11
  part : BitVec 5
  scope : BitVec 3
  a : BitVec 64
  b : BitVec 64
  /-- A parameter fixed at the push. -/
  x : BitVec 64
  /-- The descriptors as the push read them. -/
  snap : BitVec 512
  snap2 : BitVec 512
  /-- How far the engine has come, as its file says. -/
  stage : Nat
  det : Bool
  ctx : Nat
  task : Nat
  member : Nat
  arrivals : Nat
  waits : Nat
deriving DecidableEq, Repr

/-- A text engine (R373, R380). -/
structure TextEng where
  subs : List Command
  run : Option Command
deriving DecidableEq, Repr

/-- A request ring (R377). -/
structure ReqRing where
  ports : BitVec 8
  part : BitVec 5
  wq : BitVec 8
  armed : Bool
  en : Bool
  lcap : BitVec 8
  base : BitVec 64
  wrec : BitVec 64
  head : BitVec 32
  tail : BitVec 32
  bad : BitVec 64
  full : BitVec 64
  svc : BitVec 64
  wfail : BitVec 64
deriving DecidableEq, Repr

/-- A message in a ring's slot whose stores have still to be performed before `rqtail` counts it (R242, R378): the ring, and
the number of the unit that stores it. -/
structure Arrival where
  ring : Nat
  unit : Nat
deriving DecidableEq, Repr

/-- A connection (R397). -/
structure Conn where
  port : BitVec 3
  conn : BitVec 32
  job : BitVec 24
  ring : BitVec 7
deriving DecidableEq, Repr

/-- A reply handed to the request unit (R371). -/
structure Reply where
  num : Nat
  part : BitVec 5
  core : BitVec 11
  frame : BitVec 64
  len : BitVec 64
  scope : BitVec 3
deriving DecidableEq, Repr

/-- An Ethernet port (R398). -/
structure EthPort where
  up : Bool
  received : BitVec 64
  malformed : BitVec 64
  refused : BitVec 64
  sent : BitVec 64
  discarded : BitVec 64
  downs : BitVec 64
deriving DecidableEq, Repr

/-! ## Links (chapters 14, 27) -/

/-- A store on its way to a peer, of bytes of one line (R238): its core and the agent of it (0 the sequencer, 1 to 3 a
queue, from 4 on an engine), its task and member, the line's sequence number, the link, the third device that relays it, and
whether it has been sent at all (R399). -/
structure RemoteStore where
  core : BitVec 11
  agent : Nat
  ctx : Nat
  task : Nat
  member : Nat
  pa : BitVec 52
  bytes : List (BitVec 8)
  seq : BitVec 16
  link : Bool
  relay : Option (BitVec 6)
  sent : Bool
deriving DecidableEq, Repr

/-- An entry of the peer aperture (R393): its number, the peer's domain number, the 128 GiB-aligned range of its memory. -/
structure Aperture where
  ix : Nat
  peer : BitVec 6
  base : BitVec 52
deriving DecidableEq, Repr

/-- A store that this device relays (R238, R399): from, to, where, its number and bytes, the link that it goes out on, and
whether it has gone. -/
structure Relayed where
  src : BitVec 6
  dst : BitVec 6
  pa : BitVec 52
  seq : BitVec 16
  bytes : List (BitVec 8)
  link : Bool
  sent : Bool
deriving DecidableEq, Repr

/-- An acknowledgement of another device's store (R238): to whom, of which address and number, the link that it goes out on,
and whether it has gone. -/
structure Ack where
  dst : BitVec 6
  pa : BitVec 52
  seq : BitVec 16
  link : Bool
  sent : Bool
deriving DecidableEq, Repr

/-- A Nalyan link (R399). -/
structure Link where
  up : Bool
  paused : Bool
  /-- Next sequence to send, next expected, and the flits not yet acknowledged with their replay counts. -/
  sendSeq : BitVec 12
  recvSeq : BitVec 12
  unacked : List (BitVec 12 × Nat)
  /-- Occupied receive buffers, and whether a pause has been sent. -/
  occupied : Nat
  pauseSent : Bool
  /-- Replay requests and resends made (event 0x4F). -/
  replays : BitVec 64
  /-- The replay requests sent, each naming the first sequence needed, oldest first. -/
  asked : List (BitVec 12)
  /-- A request has been made and the flit that it names has not come. -/
  gap : Bool
deriving DecidableEq, Repr

/-- A pool region (R240, R396). -/
structure PoolRegion where
  base : BitVec 52
  units : Nat
  ports : BitVec 4
  lost : Bool
deriving DecidableEq, Repr

/-- A store to a line of the pool, or of the host, that no acknowledgement has performed there yet (R239, R314): its agent as in
`RemoteStore`, its scope, and whether the copy record that it belongs to has retired. -/
structure PoolStore where
  core : BitVec 11
  agent : Nat
  ctx : Nat
  task : Nat
  member : Nat
  pa : BitVec 52
  bytes : List (BitVec 8)
  scope : BitVec 3
  retired : Bool
  lost : Bool
deriving DecidableEq, Repr

/-- How many bytes it stores. -/
def PoolStore.size (p : PoolStore) : Nat := p.bytes.length

/-- The command processors of a die (R340). -/
structure CmdProc where
  frozen : Bool
  /-- Times of the last restarts, in microseconds. -/
  restarts : List Nat
  /-- Three restarts within a second: dispatch stays frozen. -/
  stuck : Bool
deriving DecidableEq, Repr

/-- An entry of the device event log (R391). -/
structure LogEntry where
  d0 : BitVec 64
  d1 : BitVec 64
deriving DecidableEq, Repr

/-- A firmware bank of a target (R401). -/
structure FwTarget where
  /-- The active bank: false A, true B. -/
  active : Bool
  svnA : BitVec 16
  svnB : BitVec 16
  /-- The images in the banks; none while a bank holds the image that the device was made with. -/
  imageA : Option (List (BitVec 8))
  imageB : Option (List (BitVec 8))
  minSvn : BitVec 16
  /-- A checked image waits for the target's restart. -/
  pending : Bool
deriving DecidableEq, Repr

/-- A message that Basoc has sent (R400-R402). -/
inductive BasocMsg where
  | restart (die : BitVec 3)
  | sensor (sensor : Sensor) (value : Option (BitVec 64))
  | logEntry (entry : Option LogEntry)
  | update (target : BitVec 16) (ok : Bool)
  /-- The identity key, the measurements, the signature. -/
  | attest (key : BitVec 512) (measured signature : List (BitVec 8))
  | frozen (die : BitVec 3)
deriving DecidableEq, Repr

/-- A code-load mailbox (R392). -/
structure Mailbox where
  src : BitVec 64
  len : BitVec 32
  off : BitVec 32
  cmask : BitVec 16
  go : Bool
  result : BitVec 32
  rtval : BitVec 64
deriving DecidableEq, Repr

/-- What belongs to one partition. -/
structure Part where
  /-- The control page (R394, R395). -/
  page : BitVec 32768
  intstat : BitVec 64
  intmask : BitVec 64
  pintmask : BitVec 64
  mail : Mailbox
  /-- Counter 9 (R338). -/
  degraded : BitVec 64
  /-- The current phase C (R150). -/
  phase : BitVec 32
deriving DecidableEq, Repr

/-! ## The turns of the other agents -/

/-- A turn: who moves next (the model's own). -/
inductive Turn where
  /-- A step of another agent: an event row of the table. -/
  | event (i : Instr)
  /-- The current core's sequencer runs its next word. -/
  | word
  /-- The head of a queue of the current core starts, if it can: 1 LQ, 2 MQ, 3 SQ. -/
  | start (q : BitVec 2)
  /-- The named core becomes the current one. -/
  | focus (id : BitVec 11)
deriving DecidableEq, Repr

/-- The device. -/
structure State where
  /-- The core that the next word turn belongs to, and the other cores that are not as reset leaves them. -/
  core : Core
  others : List Core
  /-- Physical memory (R215): rising addresses, no entry equal to 0. -/
  mem : List Host.Cell
  /-- Banks: bank b of core c from (12·c + b)·2^17 (R41). -/
  bank : List Host.Cell
  /-- Code stores: cluster k from k·2^22 (R44). -/
  code : List Host.Cell
  /-- Poisoned 64-byte lines of each (R344). -/
  poison : List Nat
  bankPoison : List Nat
  codePoison : List Nat
  /-- Continuation queues 0-255. -/
  cqs : Vector Cq 256
  selected : List Selected
  joins : List JoinDec
  saved : List Saved
  ctxs : List CtxInfo
  tags : List (Nat × Tag)
  /-- Hardware rings: ring r of cluster k at 64·k + r. -/
  rings : Vector HwRing 1024
  /-- Event queues of the 16 clusters, oldest first. -/
  events : Vector (List Event) 16
  posts : List PostWait
  /-- Copy channels: channel n of die d at 64·d + n. -/
  channels : Vector Channel 512
  regions : List Region
  retain : Vector Retain 128
  /-- Which lines the caches hold (R213, R214, R216, R217). -/
  cache : Cache
  trackers : List Tracker
  parts : Vector Part 32
  dintstat : BitVec 64
  dintmask : BitVec 64
  /-- The device event log, oldest first, and its registers (R391). -/
  log : List LogEntry
  lgtail : BitVec 32
  lghead : BitVec 32
  lglost : BitVec 64
  /-- MSI-X vectors sent: function and vector (R390). -/
  msix : List (Nat × Nat)
  /-- The MSI-X tables in BAR2 (R387): function f's from f·2^15. -/
  msixTable : List Host.Cell
  /-- The pending bits that are 1 (R387): function and vector. -/
  msixPending : List (Nat × Nat)
  reqRings : Vector ReqRing 128
  arrivals : List Arrival
  conns : List Conn
  handed : List Reply
  /-- Reply frames sent: port and bytes (R371). -/
  wire : List (BitVec 3 × List (BitVec 8))
  eth : Vector EthPort 8
  sampler : Vector (List Command) 16
  accept : Vector (List Command) 8
  checkNum : Vector (BitVec 32) 8
  experts : Vector (List Command) 8
  prefetch : Vector (List Command) 8
  tok : Vector TextEng 8
  dtk : Vector TextEng 8
  links : Vector Link 2
  domain : BitVec 6
  inDomain : Bool
  aperture : List Aperture
  /-- What this device knows of its peers' memory: the bytes as its latest performed store or its latest load left them, by peer and
  address (R226, R230). -/
  peerMem : List (Nat × BitVec 8)
  remote : List RemoteStore
  relayed : List Relayed
  acks : List Ack
  applied : List (Nat × BitVec 16)
  sentSeq : List (Nat × BitVec 16)
  poolUp : BitVec 4
  pools : List PoolRegion
  poolStores : List PoolStore
  hostUp : Bool
  /-- Stores to host memory that the host has not acknowledged (R314, 0x3E). -/
  hostStores : List PoolStore
  cps : Vector CmdProc 8
  power : Bool
  ready : Bool
  bootError : BitVec 32
  lastReset : BitVec 8
  clockStep : Nat
  powerCap : BitVec 16
  thermal : Bool
  fw : Vector FwTarget 3
  basoc : List BasocMsg
  /-- The control pages written since all were, and the digest of all as they then stood (R402). -/
  pageWritten : BitVec 32
  pageDigest : BitVec 512
  /-- The model's own fields. What the next boots find, the first one first; where the list is empty, `Boot.plain` (log 74). -/
  boots : List Boot
  /-- The turns that come next, the agents' own order, the step's number, and the numbers not yet used. -/
  agenda : List Turn
  eager : Bool
  now : Nat
  fresh : Nat
  nextCtx : Nat
  nextNum : Nat
deriving DecidableEq, Repr

/-! ## Outcomes -/

/-- Why the machine stops. -/
inductive Fault where
  /-- Raised by `step` alone: the main power domain is off and no turn is left (R400). Nothing can run until Basoc
  powers the module on. Safe. -/
  | poweredOff
deriving DecidableEq, Repr

/-- Why an instruction has no meaning. -/
inductive Refusal where
  /-- Raised by an arm of `exec` for an instruction that the model gives no meaning. Safe. -/
  | notModelled (mnemonic : String)
deriving DecidableEq, Repr

/-! ## Reset (R403) -/

/-- A tile after a partition switch (R45). -/
def Tile.zero : Tile := ⟨0, 0, 0, 0⟩
/-- An accumulator after a partition switch (R45). -/
def Acc.zero : Acc := ⟨0, 0, false⟩
/-- `n` copies of a binary32 value. -/
def rep32 (n : Nat) (w : Nat) (x : Nat) : BitVec w := BitVec.ofNat w ((List.range n).foldl (fun acc _ => acc * 2 ^ 32 + x) 0)
/-- The identity setting of a drain (R9, R106). -/
def DrainCfg.identity : DrainCfg :=
  { rs := rep32 32 1024 0x3F800000, cs := rep32 64 2048 0x3F800000, rb := 0, cb := 0, table := 0, lo := 0xFF800000,
    hi := 0x7F800000,
    rm := 0, rsOn := false, csOn := false, rbOn := false, cbOn := false, fnOn := false, clOn := false }
/-- An unused loop level (R91). -/
def Loop.unused : Loop := ⟨0, 0, 0⟩
/-- The checkpoint of a core on which no task has started. -/
def Check.zero : Check :=
  { g := Vector.replicate 32 0, p := Vector.replicate 8 0, st := Vector.replicate 32 0, hm := false, phm := false,
    cause := 0, epc := 0, tval := 0, fflg := 0, seed := 0, iterlim := 24, bankmode := 0, tkcnt := 0,
    tc := Vector.replicate 16 0, pc := 0, routed := 0 }

/-- A core after reset: idle, with the state that a partition switch leaves (R45, R331, R403). -/
def Core.reset (id : BitVec 11) : Core :=
  { id := id, act := .idle, g := Vector.replicate 32 0, tiles := Vector.replicate 16 Tile.zero,
    accs := Vector.replicate 4 Acc.zero, cfgs := Vector.replicate 4 DrainCfg.identity, p := Vector.replicate 8 0,
    st := Vector.replicate 32 0, pc := 0, hm := false, phm := false, det := false, cause := 0, epc := 0, tval := 0,
    fflg := 0, partid := 0, phase := 0, teamid := 0, teamsz := 1, seed := 0, iterlim := 24, bankmode := 0,
    lmDn := 0, lmUp := 0, msDn := 0, msUp := 0, lq := [], mq := [], sq := [], held := none, pins := [], watch := none,
    loops := Vector.replicate 4 Loop.unused, record := 0, origin := 0, inst := 0, arrivals := 0, waits := 0,
    latchId := 0, latchCh := 0, seqctr := 0, srS := 1, srN := 0, fifo := Vector.replicate 12 0,
    counters := Vector.replicate 12 0, commit := .none, marker := false, retained := [], dirtyAcc := 0, builtAcc := 0, restored := [], performed := [], replayBase := none,
    check := Check.zero, injArray := false, injClap := false,
    onlyPart := none, qtrap := none, stall := 0, ctx := 0, asleep := false, deadline := 0, timedOut := false, woken := false,
    waitCmd := 0, cmdDone := none, objWaits := [] }

/-- A continuation queue after reset (R136). -/
def Cq.reset : Cq :=
  { base := 0, err := 0, stop := false, dies := 0, tickets := 1, size := 0, det := false, en := false, head := 0,
    tail := 0, pass := 0, backlogged := false }
/-- A hardware ring after reset (R183). -/
def HwRing.reset : HwRing := ⟨0, false, 0, 0, 0, 0, 0, 0, 0⟩
def Channel.reset : Channel := ⟨0, 0, [], none⟩
def Retain.reset : Retain := ⟨false, 0, 0, 0⟩
def Mailbox.reset : Mailbox := ⟨0, 0, 0, 0, false, 0, 0⟩
/-- A partition after reset: its control page is zero (R403). -/
def Part.reset : Part :=
  { page := 0, intstat := 0, intmask := 0, pintmask := 0, mail := Mailbox.reset, degraded := 0, phase := 0 }
/-- A request ring after reset (R377). -/
def ReqRing.reset : ReqRing := ⟨0, 0, 0, true, false, 0, 0, 0, 0, 0, 0, 0, 0, 0⟩
/-- An Ethernet port after a cold reset (R398). -/
def EthPort.reset : EthPort := ⟨true, 0, 0, 0, 0, 0, 0⟩
def TextEng.reset : TextEng := ⟨[], none⟩
def Link.reset : Link := ⟨true, false, 0, 0, [], 0, false, 0, [], false⟩
def CmdProc.reset : CmdProc := ⟨false, [], false⟩
def FwTarget.reset : FwTarget := ⟨false, 0, 0, none, none, 0, false⟩

/-- The device right after a cold reset (R403), its links trained. -/
def State.reset : State :=
  { core := Core.reset 0, others := [], mem := [], bank := [], code := [], poison := [], bankPoison := [],
    codePoison := [], cqs := Vector.replicate 256 Cq.reset, selected := [], joins := [], saved := [], ctxs := [],
    tags := [], rings := Vector.replicate 1024 HwRing.reset, events := Vector.replicate 16 [], posts := [],
    channels := Vector.replicate 512 Channel.reset, regions := [], retain := Vector.replicate 128 Retain.reset,
    cache := ⟨[], [], []⟩, trackers := [], parts := Vector.replicate 32 Part.reset, dintstat := 16, dintmask := 0, log := [], lgtail := 0,
    lghead := 0, lglost := 0, msix := [], msixTable := [], msixPending := [],
    reqRings := Vector.replicate 128 ReqRing.reset, arrivals := [], conns := [], handed := [],
    wire := [], eth := Vector.replicate 8 EthPort.reset, sampler := Vector.replicate 16 [],
    accept := Vector.replicate 8 [], checkNum := Vector.replicate 8 0, experts := Vector.replicate 8 [],
    prefetch := Vector.replicate 8 [], tok := Vector.replicate 8 TextEng.reset,
    dtk := Vector.replicate 8 TextEng.reset, links := Vector.replicate 2 Link.reset, domain := 0, inDomain := false,
    aperture := [], peerMem := [], remote := [], relayed := [], acks := [], applied := [], sentSeq := [],
    poolUp := 15, pools := [], poolStores := [],
    hostUp := true, hostStores := [], cps := Vector.replicate 8 CmdProc.reset, power := true, ready := true, bootError := 0,
    lastReset := 0, clockStep := 0, powerCap := 2200, thermal := false, fw := Vector.replicate 3 FwTarget.reset,
    basoc := [], pageWritten := 0, pageDigest := 0, boots := [], agenda := [], eager := true, now := 0, fresh := 0, nextCtx := 1, nextNum := 1 }

end Sys2Proof.Machine
end

