-- ==== Sys2Proof/Machine/Caches.lean ====
section
/-! DEFINITION. Which lines the caches hold (R213, R214, R216-R219). Every store reaches the memory that it is performed in at
once, so no line here is dirty, and the caches change no value (log 140). -/
namespace Sys2Proof.Machine

/-- The 64-byte lines that `n` bytes from an address touch. -/
def linesOf (a n : Nat) : List Nat := if n = 0 then [] else (List.range ((a + n - 1) / 64 + 1 - a / 64)).map (a / 64 + ·)

/-! ## First-level caches (R213) -/

/-- The translation that a core's first-level line of a virtual address records. -/
def Cache.hit (k : Cache) (core : BitVec 11) (va : Nat) : Option Leaf :=
  (k.l1.find? fun x => x.core == core && x.va / 64 == va / 64).map fun x => { x.leaf with pa := x.leaf.pa + va - x.va }

/-- A core's line is filled; of 1,024 lines the oldest one is replaced (log 141). -/
def Cache.fillL1 (core : BitVec 11) (va : Nat) (l : Leaf) (k : Cache) : Cache :=
  let kept := if (k.l1.filter (·.core == core)).length < 1024 then k.l1 else k.l1.eraseP (·.core == core)
  { k with l1 := kept ++ [⟨core, va, l⟩] }

/-- The first-level lines of some cores and virtual lines are invalidated. -/
def Cache.dropL1 (gone : BitVec 11 → Nat → Bool) (k : Cache) : Cache :=
  { k with l1 := k.l1.filter fun x => !gone x.core (x.va / 64) }

/-! ## Cluster caches (R214) -/

/-- A line is in a cluster's cache. -/
def Cache.inCluster (k : Cache) (cluster line : Nat) : Bool := k.cluster.any fun x => x.cluster == cluster && x.line == line

/-- A line enters its set of a cluster's cache, in the first way that is free, else in that of the line filled first; `ways` are the
banks in mode 1, lowest core and bank first. -/
def Cache.fillCluster (cluster : Nat) (ways : List (Nat × Nat)) (line : Nat) (k : Cache) : Cache :=
  if ways.isEmpty || k.inCluster cluster line then k else
  let set := k.cluster.filter fun x => x.cluster == cluster && x.line % 2048 == line % 2048
  match ways.find? fun w => set.all fun x => (x.core, x.bank) != w with
  | some w => { k with cluster := k.cluster ++ [⟨cluster, line, w.1, w.2⟩] }
  | none =>
    match set.head? with
    | some v => { k with cluster := k.cluster.filter (· != v) ++ [⟨cluster, line, v.core, v.bank⟩] }
    | none => k

/-- The ways of some banks are emptied (R211). -/
def Cache.dropWays (cluster : Nat) (gone : Nat → Nat → Bool) (k : Cache) : Cache :=
  { k with cluster := k.cluster.filter fun x => !(x.cluster == cluster && gone x.core x.bank) }

/-- A write invalidates the copies of its lines in the clusters (R214): all but the writing sequencer's own first-level line. -/
def Cache.written (a n : Nat) (by' : Option (BitVec 11)) (k : Cache) : Cache :=
  { k with l1 := k.l1.filter fun x => by' == some x.core || !(linesOf a n).contains (x.leaf.pa / 64),
           cluster := k.cluster.filter fun x => !(linesOf a n).contains x.line }

/-- Every copy of some physical lines above the home slices is invalidated (R246). -/
def Cache.dropCopies (gone : Nat → Bool) (k : Cache) : Cache :=
  { k with l1 := k.l1.filter fun x => !gone (x.leaf.pa / 64), cluster := k.cluster.filter fun x => !gone x.line }

/-! ## The home slices of the die cache (R216, R217) -/

/-- The line of a full set that a fill replaces (R216). -/
def sliceVictim (set : List SliceLine) : Option SliceLine := (set.find? (·.ef)).or (set.find? (·.cls.isNone))

/-- The class that an access gives a line of a set: none, once 12 lines of the set are retained (R217). -/
def classIn (set : List SliceLine) (cls : Option (Nat × Nat)) : Option (Nat × Nat) :=
  if (set.filter (·.cls.isSome)).length < 12 then cls else none

/-- An access to a line of a set of 16, the least recently used one first (R216, R217). -/
def touchSet (line : Nat) (ef : Bool) (cls : Option (Nat × Nat)) (set : List SliceLine) : List SliceLine :=
  let cls := classIn set cls
  match set.find? (·.line == line) with
  | some x =>
    let cls := x.cls.or cls
    set.filter (·.line != line) ++ [⟨line, x.ef && cls.isNone, cls⟩]
  | none =>
    let new : SliceLine := ⟨line, ef && cls.isNone, cls⟩
    if set.length < 16 then set ++ [new]
    else match sliceVictim set with
      | some v => set.filter (· != v) ++ [new]
      | none => set

/-- An access reaches a line at its set. -/
def Cache.touch (set line : Nat) (ef : Bool) (cls : Option (Nat × Nat)) (k : Cache) : Cache :=
  { k with slices := kvPut set (touchSet line ef cls ((kvGet set k.slices).getD [])) k.slices }

/-- The lines of some classes become ordinary ones, at every slice (R219). -/
def Cache.demote (gone : Nat × Nat → Bool) (k : Cache) : Cache :=
  { k with slices := k.slices.map fun x => (x.1, x.2.map fun l => if l.cls.any gone then { l with cls := none } else l) }

/-- A line leaves its slice (R239). -/
def Cache.dropSlice (line : Nat) (k : Cache) : Cache :=
  { k with slices := k.slices.map fun x => (x.1, x.2.filter (·.line != line)) }

end Sys2Proof.Machine
end

