-- ==== Sys2Proof/Machine/Ops.lean ====
section
/-! DEFINITION. The named operations: the monad of a meaning, registers, memories, translation, the event log,
taking an exception and returning from one. -/
namespace Sys2Proof.Machine

open Host (Cell)

/-! ## Meanings -/

/-- Why a meaning does not complete. -/
inductive Stop where
  /-- A synchronous trap with its `tval` (R313). -/
  | trap (cause : Nat) (tval : Dword)
  /-- A synchronous trap whose rule names no `tval`: a free value (log 9). -/
  | trapX (cause : Nat)
  /-- A fatal context error with its `tval` (R314). -/
  | fatal (cause : Nat) (tval : Dword)
  /-- The agent waits. -/
  | wait
  /-- The sequencer waits for queue entries: bit q of the mask for queue q (R197). -/
  | waitQ (mask : Nat)
deriving DecidableEq, Repr

/-- A computation over the state that can stop; a stop keeps no change. -/
abbrev M := StateT State (Except Stop)

/-- How the sequencer goes on after a word. -/
inductive Flow where
  /-- At the next word. -/
  | next
  /-- At another address. -/
  | goto (pc : Dword)
  /-- The pc stands: the word waits after a change, or has set the pc itself. -/
  | stay
  /-- The pc stands: the word has made a change and waits for queue entries, those of the mask (R197). -/
  | hold (mask : Nat)
deriving DecidableEq, Repr

/-- Stop with a reason. -/
def stopWith {α : Type} (x : Stop) : M α := fun _ => .error x
/-- The current core. -/
def getC : M Core := do return (← get).core
/-- Raise a synchronous trap. -/
def trap {α : Type} (cause : Nat) (tval : Dword) : M α := stopWith (.trap cause tval)
/-- Raise a trap whose rule names no `tval`. -/
def trapX {α : Type} (cause : Nat) : M α := stopWith (.trapX cause)
/-- End the context. -/
def fatal {α : Type} (cause : Nat) (tval : Dword) : M α := stopWith (.fatal cause tval)
/-- Trap unless a condition holds. -/
def need (b : Bool) (cause : Nat) (tval : Dword) : M Unit := if b then pure () else trap cause tval
/-- Trap, with no `tval` named, unless a condition holds. -/
def needX (b : Bool) (cause : Nat) : M Unit := if b then pure () else trapX cause
/-- Do something if a condition holds. -/
def iff' (b : Bool) (m : M Unit) : M Unit := if b then m else pure ()

/-- Change the current core. -/
def modC (f : Core → Core) : M Unit := modify fun s => { s with core := f s.core }
/-- Change the state. -/
def modS (f : State → State) : M Unit := modify f

/-- Do something to each element in turn. -/
def each {α : Type} (l : List α) (f : α → M Unit) : M Unit := l.foldlM (fun _ x => f x) ()

/-- Repeat a step while it answers true, at most `n` times. -/
def loopN : Nat → M Bool → M Unit
  | 0, _ => pure ()
  | n + 1, m => do if ← m then loopN n m else pure ()

/-! ## Cause codes (R313-R315) -/

def cIllegal : Nat := 0x01
def cToken : Nat := 0x02
def cFetch : Nat := 0x03
def cAccess : Nat := 0x04
def cAlign : Nat := 0x05
def cPage : Nat := 0x06
def cPinOverflow : Nat := 0x07
def cPoolLost : Nat := 0x08
def cBreak : Nat := 0x09
def cJumpTable : Nat := 0x0A
def cLoopTable : Nat := 0x0B
def cShape : Nat := 0x0C
def cFormat : Nat := 0x0D
def cPattern : Nat := 0x0E
def cStream : Nat := 0x0F
def cBarrier : Nat := 0x10
def cDet : Nat := 0x11
def cConflict : Nat := 0x12
def cTagCap : Nat := 0x13
def cTransfer : Nat := 0x14
def cContinuation : Nat := 0x15
def cJoin : Nat := 0x16
def cRing : Nat := 0x17
def cTokenDead : Nat := 0x18
def cRegion : Nat := 0x19
def cKey : Nat := 0x1A
def cImage : Nat := 0x1B
def cSnapshot : Nat := 0x1C
def cPartSwitch : Nat := 0x1D
def cCounter : Nat := 0x1E
def cInject : Nat := 0x1F
def cSampler : Nat := 0x20
def cSpec : Nat := 0x21
def cTable : Nat := 0x22
def cEmbed : Nat := 0x23
def cSlot : Nat := 0x24
def cCombine : Nat := 0x25
def cTokeniser : Nat := 0x26
def cDetokeniser : Nat := 0x27
def cCow : Nat := 0x28
def cKvPages : Nat := 0x29
def cKvRecord : Nat := 0x2A
def cVocab : Nat := 0x2B
def cNet : Nat := 0x2C
def cArea : Nat := 0x2D
def cHandler : Nat := 0x2E
def cVersion : Nat := 0x2F
def cMissing : Nat := 0x30
def cPerm : Nat := 0x31
def cDomain : Nat := 0x32
def cPoolFatal : Nat := 0x33
def cDouble : Nat := 0x34
def cNoHandler : Nat := 0x35
def cUnreplay : Nat := 0x36
def cPoison : Nat := 0x37
def cWatchdog : Nat := 0x38
def cPartReset : Nat := 0x39
def cHostAbort : Nat := 0x3A
def cCodePoison : Nat := 0x3B
def cSaveFail : Nat := 0x3C
def cChecker : Nat := 0x3D
def cHostLost : Nat := 0x3E
def cRestoreFail : Nat := 0x3F

/-- The illegal-instruction trap of a word that decoded (R34, R50): `tval` is the word and its extension word. -/
def illegal {α : Type} (i : Instr) : M α := trap cIllegal ((encode i).2 ++ (encode i).1)
/-- A determinism violation in deterministic mode (R152). -/
def noDet : M Unit := do needX (!(← getC).det) cDet

/-! ## Registers (R23, R25, R31) -/

/-- A g register; g0 reads as zero (R23). -/
def Core.rg (c : Core) (r : Reg) : Dword := if r = 0 then 0 else c.g[r.toFin]
/-- A write of a g register; a write of g0 is discarded (R23). -/
def Core.setG (c : Core) (r : Reg) (v : Dword) : Core := if r = 0 then c else { c with g := c.g.set r.toFin v }
/-- A pattern register; p0 reads as zero (R31). -/
def Core.rp (c : Core) (r : BitVec 3) : Dword := if r = 0 then 0 else c.p[r.toFin]
/-- A write of a pattern register; a write of p0 is discarded (R31). -/
def Core.setP (c : Core) (r : BitVec 3) (v : Dword) : Core := if r = 0 then c else { c with p := c.p.set r.toFin v }
/-- A stream register (R32). -/
def Core.rs (c : Core) (r : Reg) : BitVec 512 := c.st[r.toFin]
def Core.setS (c : Core) (r : Reg) (v : BitVec 512) : Core := { c with st := c.st.set r.toFin v }
/-- A tile (R24). -/
def Core.tile (c : Core) (r : BitVec 4) : Tile := c.tiles[r.toFin]
def Core.setTile (c : Core) (r : BitVec 4) (t : Tile) : Core := { c with tiles := c.tiles.set r.toFin t }
/-- An accumulator (R28). -/
def Core.acc (c : Core) (r : BitVec 2) : Acc := c.accs[r.toFin]
def Core.setAcc (c : Core) (r : BitVec 2) (a : Acc) : Core := { c with accs := c.accs.set r.toFin a }
def Core.cfg (c : Core) (r : BitVec 2) : DrainCfg := c.cfgs[r.toFin]
def Core.setCfg (c : Core) (r : BitVec 2) (a : DrainCfg) : Core := { c with cfgs := c.cfgs.set r.toFin a }
/-- OR flags into `fflg` (R36). -/
def Core.orFlags (c : Core) (f : BitVec 6) : Core := { c with fflg := c.fflg ||| f }

/-- Read a g register. -/
def rG (r : Reg) : M Dword := do return (← getC).rg r
/-- Write a g register. -/
def wG (r : Reg) (v : Dword) : M Unit := modC (·.setG r v)
/-- OR flags into `fflg`. -/
def orF (f : BitVec 6) : M Unit := modC (·.orFlags f)

/-- The entries of a queue: 1 LQ, 2 MQ, 3 SQ. -/
def Core.queue (c : Core) (q : Nat) : List Entry := if q = 1 then c.lq else if q = 2 then c.mq else c.sq
def Core.setQueue (c : Core) (q : Nat) (l : List Entry) : Core :=
  if q = 1 then { c with lq := l } else if q = 2 then { c with mq := l } else { c with sq := l }
/-- All three queues are empty. -/
def Core.quiet (c : Core) : Bool := c.lq.isEmpty && c.mq.isEmpty && c.sq.isEmpty
/-- The mask of the queues that hold entries (R197). -/
def Core.busyMask (c : Core) : Nat :=
  (if c.lq.isEmpty then 0 else 2) + (if c.mq.isEmpty then 0 else 4) + (if c.sq.isEmpty then 0 else 8)

/-- Wait until LQ, MQ and SQ are empty. -/
def waitQuiet : M Unit := do
  let c ← getC
  if c.quiet then pure () else stopWith (.waitQ c.busyMask)

/-- An entry is held by a queue trap (R317). -/
def Core.isHeld (c : Core) (e : Entry) : Bool :=
  match c.held with
  | none => false
  | some h => h.from_ ≤ e.num || h.extra.contains e.num

/-- Wait until every entry that is not held has completed (R334, R335). -/
def waitUnheld : M Unit := do
  let c ← getC
  let m (q bit : Nat) : Nat := if (c.queue q).all c.isHeld then 0 else bit
  let mask := m 1 2 + m 2 4 + m 3 8
  if mask = 0 then pure () else stopWith (.waitQ mask)

/-- `status` (R35). -/
def Core.status (c : Core) : Dword := zext (BitVec.ofBool c.det ++ (0 : BitVec 5) ++ BitVec.ofBool c.phm ++ BitVec.ofBool c.hm)
/-- `tkcnt` (R37). -/
def Core.tkcnt (c : Core) : Dword :=
  zext ((0 : BitVec 2) ++ c.msUp ++ (0 : BitVec 2) ++ c.msDn ++ (0 : BitVec 2) ++ c.lmUp ++ (0 : BitVec 2) ++ c.lmDn)

/-- The die, cluster (2·die + cluster) and core number of a core (R38). -/
def dieOf (id : BitVec 11) : Nat := id.toNat / 256
def clusterOf (id : BitVec 11) : Nat := id.toNat / 128
def coreOf (id : BitVec 11) : Nat := id.toNat % 128

/-! ## Cores -/

/-- The core of a number, as reset leaves it when the lists do not hold it. -/
def State.findCore (s : State) (id : BitVec 11) : Core :=
  if s.core.id = id then s.core else (s.others.find? (·.id == id)).getD (Core.reset id)

/-- The list with a core put in its place, numbers rising. -/
def insCore (c : Core) : List Core → List Core
  | [] => [c]
  | d :: r => if c.id.toNat < d.id.toNat then c :: d :: r else if c.id = d.id then c :: r else d :: insCore c r

/-- The state with a core replaced. -/
def State.putCore (s : State) (c : Core) : State :=
  if s.core.id = c.id then { s with core := c } else { s with others := insCore c s.others }

/-- The state in which another core is the current one. -/
def State.focus (s : State) (id : BitVec 11) : State :=
  if s.core.id = id then s else
  { s with core := s.findCore id, others := insCore s.core (s.others.filter (·.id != id)) }

/-- Every core that is not as reset leaves it, the current one first. -/
def State.cores (s : State) : List Core := s.core :: s.others

/-- Do something as another core. -/
def onCore {α : Type} (id : BitVec 11) (m : M α) : M α := do
  let me := (← get).core.id
  modS (·.focus id)
  let r ← m
  modS (·.focus me)
  return r

/-! ## Memories -/

/-- The cells of a list of bytes from an address, those that hold zero left out. -/
def cellsOf : Nat → List Byte → List Cell
  | _, [] => []
  | a, b :: bs => if b = 0 then cellsOf (a + 1) bs else (a, b) :: cellsOf (a + 1) bs

/-- The `n` bytes from an address, of cells that start at or above it. -/
def fillBytes : Nat → Nat → List Cell → List Byte
  | 0, _, _ => []
  | n + 1, a, [] => (0 : Byte) :: fillBytes n (a + 1) []
  | n + 1, a, c :: cs => if c.1 = a then c.2 :: fillBytes n (a + 1) cs else (0 : Byte) :: fillBytes n (a + 1) (c :: cs)

/-- The `n` bytes that a memory holds from an address; an unlisted address reads as zero (log 4, log 5). -/
def memRead (m : List Cell) (a n : Nat) : List Byte := fillBytes n a (m.filter fun c => a ≤ c.1 && c.1 < a + n)

/-- A memory with bytes written from an address. -/
def memWrite (m : List Cell) (a : Nat) (bs : List Byte) : List Cell :=
  m.filter (fun c => c.1 < a) ++ cellsOf a bs ++ m.filter (fun c => a + bs.length ≤ c.1)

/-- One byte of a memory. -/
def memByte (m : List Cell) (a : Nat) : Byte := ((m.find? (·.1 == a)).map (·.2)).getD 0

/-- The canonical form: addresses rise strictly and no entry equals what an unlisted address reads as. -/
def memWf (m : List Cell) : Bool := (m.zip m.tail).all (fun p => p.1.1 < p.2.1) && m.all (fun c => c.2 != 0)

/-- A memory zeroed over a range. -/
def memZero (m : List Cell) (a n : Nat) : List Cell := m.filter fun c => c.1 < a || a + n ≤ c.1

/-- Where bank `b` of a core starts in the bank list. -/
def bankBase (id : BitVec 11) (b : Nat) : Nat := (id.toNat * 12 + b) * 0x20000

/-- The mode of a bank (R39). -/
def Core.bankMode (c : Core) (b : Nat) : Nat := fld c.bankmode (2 * b) 2

/-! ## Control pages (R394, R395) -/

/-- The partition of a number. -/
def State.part (s : State) (p : BitVec 5) : Part := s.parts[p.toFin]
def State.setPart (s : State) (p : BitVec 5) (f : Part → Part) : State :=
  { s with parts := s.parts.set p.toFin (f s.parts[p.toFin]) }
/-- A field of a control page: `n` bytes at an offset. -/
def pageFld (pg : BitVec 32768) (off n : Nat) : Nat := fld pg (8 * off) (8 * n)
def State.pg (s : State) (p : BitVec 5) (off n : Nat) : Nat := pageFld (s.part p).page off n
/-- The code-store window of a partition: its first byte and its size (R394). -/
def State.window (s : State) (p : BitVec 5) : Nat × Nat := (s.pg p 0x0E 2 * 1024, s.pg p 0x0C 2 * 1024)
/-- A range of the code store lies in a partition's window. -/
def State.inWindow (s : State) (p : BitVec 5) (a n : Nat) : Bool :=
  let (b, z) := s.window p
  b ≤ a && a + n ≤ b + z && a + n ≤ 0x400000

/-! ## Interrupts and the event log (R390, R391) -/

/-- Where a function's MSI-X table stands in the list of tables (R387). -/
def msixBase (f : Nat) : Nat := f * 2 ^ 15
/-- A function masks a vector (R387, log 104): bit 0 of the vector control word, which the list holds inverted. -/
def State.msixMasked (s : State) (f v : Nat) : Bool := !bit (memByte s.msixTable (msixBase f + 16 * v + 12)) 0
/-- A function sends a vector; a masked one stays pending (R387). -/
def sendMsix (f v : Nat) (s : State) : State :=
  if !s.msixMasked f v then { s with msix := s.msix ++ [(f, v)] }
  else if s.msixPending.contains (f, v) then s else { s with msixPending := s.msixPending ++ [(f, v)] }

/-- A partition source occurs (R390). -/
def raiseInt (p : BitVec 5) (b : Nat) (s : State) : State :=
  let q := s.part p
  if bit q.intstat b then s else
  let s := s.setPart p fun q => { q with intstat := setBit q.intstat b true }
  let s := if bit q.intmask b then sendMsix (p.toNat + 1) b s else s
  if bit q.pintmask b then sendMsix 0 (64 + 8 * p.toNat + b) s else s

/-- A device source occurs (R390). -/
def raiseDint (b : Nat) (s : State) : State :=
  if bit s.dintstat b then s else
  let s := { s with dintstat := setBit s.dintstat b true }
  if bit s.dintmask b then sendMsix 0 b s else s

/-- An event enters the device event log (R391). Events 0x4A, 0x4B, 0x4C and 0x4F are counted only (R315). -/
def logEvent (code : Nat) (dev : Bool) (part : BitVec 5) (detail : Nat) (whereId : Nat) (s : State) : State :=
  if [0x4A, 0x4B, 0x4C, 0x4F].contains code then s else
  if (s.lgtail - s.lghead).toNat ≥ 4096 then
    raiseDint 5 { s with lglost := if s.lglost = BitVec.allOnes 64 then s.lglost else s.lglost + 1 }
  else
    let d0 := (s.now / 1000) % 2 ^ 48 * 2 ^ 16 + (if dev then 2 ^ 15 else part.toNat * 256) + code
    let d1 := detail % 2 ^ 32 * 2 ^ 32 + whereId
    raiseDint 3 { s with log := (s.log ++ [LogEntry.mk (dw d0) (dw d1)]).drop (s.log.length + 1 - 4096), lgtail := s.lgtail + 1 }

/-- An event of one core. -/
def logCore (code : Nat) (c : Core) (s : State) : State := logEvent code false c.partid c.pc.toNat c.id.toNat s

/-- A counter of a core goes up by one (R338). -/
def Core.count (c : Core) (i : Nat) : Core := { c with counters := vmod c.counters i (· + 1) }

/-- A Clapper mismatch that the replay repairs (R342): counted and logged, and no other change (R99). -/
def clapperReplay (s : State) : State := logCore 0x44 s.core { s with core := s.core.count 6 }

/-- The core hands a command to an engine: an injected Clapper mismatch meets it (R241, R339). -/
def engineCommand : M Unit := modS fun s =>
  if s.core.injClap then clapperReplay { s with core := { s.core with injClap := false } } else s

/-! ## Translation (R297-R301, R393) -/

/-- A pool region that holds a physical address. -/
def PoolRegion.has (r : PoolRegion) (pa : Nat) : Bool :=
  r.base.toNat ≤ pa && pa < r.base.toNat + r.units * 0x10000000
def State.poolAt (s : State) (pa : Nat) : Option PoolRegion := s.pools.find? (·.has pa)
/-- A pool address whose region is lost (R240). -/
def State.poolLost (s : State) (pa : Nat) : Bool := (s.poolAt pa).any (·.lost)
def isPool (pa : Nat) : Bool := 0x100000000000 ≤ pa && pa < 2 ^ 52
def isHost (pa : Nat) : Bool := 0x10000000000 ≤ pa && pa < 0x20000000000
def isPeer (pa : Nat) : Bool := 0x40000000000 ≤ pa && pa < 0x100000000000
def isHbm (pa : Nat) : Bool := pa < 0x8000000000
def isLp6 (pa : Nat) : Bool := 0x20000000000 ≤ pa && pa < 0x40000000000

/-- The aperture entry of a peer address (R393). -/
def State.apertureAt (s : State) (pa : Nat) : Option Aperture := s.aperture.find? fun a => a.ix == (pa - 0x40000000000) / 2 ^ 37
/-- The byte of a peer's memory that an aperture address names: the peer, and its own address. -/
def State.peerKey (s : State) (pa : Nat) : Nat :=
  match s.apertureAt pa with
  | some a => a.peer.toNat * 2 ^ 52 + a.base.toNat + pa % 2 ^ 37
  | none => 0

/-- The physical address exists (R215, R393): the reserved range, an unset aperture entry and a pool address that no
region maps do not. -/
def State.physOk (s : State) (pa : Nat) : Bool :=
  isHbm pa || isHost pa || isLp6 pa ||
  (isPeer pa && (s.apertureAt pa).isSome) || (isPool pa && (s.poolAt pa).isSome)

/-- A byte of a peer's memory as a load at DM finds it (R226, R230): what the latest access of this device left there,
or what an agent elsewhere has stored since, which is free (log 89). -/
def State.peerByte (s : State) (key i : Nat) : Byte :=
  match kvGet (key + i) s.peerMem with
  | some b => if Config.peerWrote (s.fresh + i) then Config.peerByte (s.fresh + i) else b
  | none => Config.peerByte (s.fresh + i)

/-- Bytes of physical memory inside one granule, a peer's through the aperture. -/
def State.physBytes (s : State) (pa n : Nat) : List Byte :=
  if isPeer pa then (List.range n).map (s.peerByte (s.peerKey pa)) else memRead s.mem pa n

/-- Eight bytes of physical memory. -/
def State.phys8 (s : State) (pa : Nat) : Nat := leNat (s.physBytes pa 8)

/-- How many low bits of an address a leaf of a level keeps (R297). -/
def leafBits (lvl : Nat) : Nat := if lvl = 1 then 36 else if lvl = 2 then 25 else 14
/-- The table index of a level (R297). -/
def vaIndex (lvl va : Nat) : Nat :=
  if lvl = 0 then va / 2 ^ 47 % 1024 else va / 2 ^ (if lvl = 1 then 36 else if lvl = 2 then 25 else 14) % 2048

/-- A walk from a table of a level, `n` levels at most (R298, R299). -/
def walkFrom (s : State) (va : Nat) : Nat → Nat → Nat → Option Leaf
  | 0, _, _ => none
  | n + 1, lvl, tbl =>
    let ea := tbl + 8 * vaIndex lvl va
    if !s.physOk ea || s.poolLost ea then none else
    let e := s.phys8 ea
    let ty := e / 2 % 4
    let pa := e / 2 ^ 14 % 2 ^ 38 * 2 ^ 14
    let rsv := e / 2 ^ 52 % 128 = 0 && e / 2 ^ 9 % 32 = 0 && e / 2 ^ 6 % 4 = 0
    if e % 2 = 0 || !rsv then none
    else if ty = 1 then
      if lvl = 3 || e / 8 % 8 != 0 || e / 256 % 2 != 0 then none else walkFrom s va n (lvl + 1) pa
    else if ty = 2 then
      if lvl = 0 || pa % 2 ^ leafBits lvl != 0 then none else
      let out := pa + va % 2 ^ leafBits lvl
      if !s.physOk out then none else
      some { pa := out, r := e / 8 % 2 == 1, w := e / 16 % 2 == 1, x := e / 32 % 2 == 1, cow := e / 256 % 2 == 1,
             level := lvl, entryAddr := ea, entry := dw e }
    else none

/-- The translation of a virtual address in a partition (R297-R299). -/
def State.walk (s : State) (p : BitVec 5) (va : Nat) : Option Leaf := walkFrom s va 4 0 (s.pg p 0 8)

/-- A permission that an access needs (R299). -/
inductive Perm where
  | r
  | w
  | rx
deriving DecidableEq, Repr

def Leaf.grants (l : Leaf) : Perm → Bool
  | .r => l.r
  | .w => l.w && !l.cow
  | .rx => l.r && l.x

/-- The 16 KiB granules of a virtual range, ascending: their first addresses in the range. -/
def granules (va n : Nat) : List Nat :=
  if n = 0 then [] else (List.range ((va + n - 1) / 16384 + 1 - va / 16384)).map fun i => max va ((va / 16384 + i) * 16384)

/-! ## A store into physical memory -/

/-- A write of all 64 bytes of a line clears its poison (R344). -/
def clearPoison (p : List Nat) (a n : Nat) : List Nat := p.filter fun l => !(a ≤ 64 * l && 64 * l + 64 ≤ a + n)

/-- A tracker sets the bits of the lines of its page that a write touches (R306). -/
def Tracker.note (t : Tracker) (a n : Nat) : Tracker :=
  { t with map := (linesOf a n).foldl (fun m l => if l / 256 = t.page.toNat / 16384 then setBit m (l % 256) true else m) t.map }

/-- The watch of a core fires when another agent than its sequencer writes its line (R84). -/
def Core.noteWrite (c : Core) (a n : Nat) : Core :=
  match c.watch with
  | some w => if (linesOf a n).contains w.pline then { c with watch := some { w with fired := true } } else c
  | none => c

/-- Lines are written, or their copies invalidated: the copies of other agents go (R213, R214), and the watches of all cores but the
writing sequencer's own fire (R84). -/
def fireWatches (a n : Nat) (by' : Option (BitVec 11)) (s : State) : State :=
  let f (c : Core) : Core := if by' = some c.id then c else c.noteWrite a n
  { s with core := f s.core, others := s.others.map f, cache := s.cache.written a n by' }

/-- A store into physical memory: the bytes, the poison (R344), the trackers (R306), the watches (R84). `by'` names
the core whose sequencer writes. -/
def physWrite (a : Nat) (bs : List Byte) (by' : Option (BitVec 11)) (s : State) : State :=
  let s := fireWatches a bs.length by' s
  { s with mem := memWrite s.mem a bs, poison := clearPoison s.poison a bs.length,
           trackers := s.trackers.map (·.note a bs.length) }

/-- Who makes an access. -/
structure Who where
  part : BitVec 5
  core : BitVec 11
  /-- The agent of the core: 0 its sequencer, 1 to 3 a queue; from 4 on an engine, each with a number of its own. -/
  agent : Nat
  det : Bool
  ctx : Nat
  /-- The task number of a tag: die instances are tasks of their own (R149, R153). -/
  task : Nat
  member : Nat
  arr : Nat
  wts : Nat
  scope : BitVec 3
  /-- The access reads what it then writes, in one step (R81, R132, R225, R290). -/
  excl : Bool := false
  /-- The access carries the evict-first hint (R172, R216). -/
  ef : Bool := false
deriving DecidableEq, Repr

/-- The access is the sequencer's own, or an engine's. -/
def Who.seq (w : Who) : Bool := w.agent == 0
def Who.engine (w : Who) : Bool := 4 ≤ w.agent

/-- An agent of the firmware and of the units that belong to no core. -/
def Who.unit (p : BitVec 5) : Who :=
  { part := p, core := 0, agent := 4, det := false, ctx := 0, task := 0, member := 0, arr := 0, wts := 0, scope := 3 }

/-- A link of this device. -/
def State.link (s : State) (k : Bool) : Link := vget s.links k.toNat Link.reset
def State.modLink (s : State) (k : Bool) (f : Link → Link) : State := { s with links := vmod s.links k.toNat f }

/-- A flit is sent and kept until it is acknowledged (R399). -/
def Link.send (l : Link) : Link := { l with unacked := l.unacked ++ [(l.sendSeq, 0)], sendSeq := l.sendSeq + 1 }
/-- A link carries one more flit: it is up, not paused, and keeps fewer than 2,048 flits (R399). -/
def Link.ready (l : Link) : Bool := l.up && !l.paused && decide (l.unacked.length < 2048)

/-- A range cut where a line of 64 bytes ends: address and length. -/
def lineCuts (a n : Nat) : List (Nat × Nat) :=
  (linesOf a n).map fun l => (max a (64 * l), min (a + n) (64 * l + 64) - max a (64 * l))

/-- Something waits for a link to carry it: a store, a store relayed, an acknowledgement. -/
def State.linkWaits (s : State) (k : Bool) : Bool :=
  s.remote.any (fun r => r.link == k && !r.sent) || s.relayed.any (fun r => r.link == k && !r.sent) ||
  s.acks.any (fun r => r.link == k && !r.sent)
/-- The link that something goes out on: the first one while it is up (R238). -/
def State.outLink (s : State) : Bool := !(s.link false).up
/-- What goes out on a link goes at once: the link carries it, and nothing waits before it (R399). -/
def State.goesNow (s : State) (k : Bool) : Bool := (s.link k).ready && !s.linkWaits k
/-- Something more is sent on a link, at once or later. -/
def sendNow (go : Bool) (k : Bool) (s : State) : State := if go then s.modLink k Link.send else s

/-- A store to a peer's line takes the line's next number, of which the first is 1 (log 137), and goes out on a link that is up
(R238, R399). It is performed when its acknowledgement comes (log 89). -/
def noteRemote (w : Who) (pa : Nat) (bs : List Byte) (s : State) : State :=
  let key := s.peerKey pa
  let q := (kvGet (key / 64) s.sentSeq).getD 0 + 1
  let k := s.outLink
  let go := s.goesNow k
  sendNow go k { s with
    remote := s.remote ++ [⟨w.core, w.agent, w.ctx, w.task, w.member, BitVec.ofNat 52 pa, bs, q, k, none, go⟩],
    sentSeq := kvPut (key / 64) q s.sentSeq }

/-- The stores that a far end has still to acknowledge, line by line: to the pool, the host, a peer (R234, R238, R239,
R314). -/
def noteFar (w : Who) (pa : Nat) (bs : List Byte) (s : State) : State :=
  let far (c : Nat × Nat) : PoolStore :=
    ⟨w.core, w.agent, w.ctx, w.task, w.member, BitVec.ofNat 52 c.1, (bs.drop (c.1 - pa)).take c.2, w.scope, false, false⟩
  if isPool pa then { s with poolStores := s.poolStores ++ (lineCuts pa bs.length).map far }
  else if isHost pa then { s with hostStores := s.hostStores ++ (lineCuts pa bs.length).map far }
  else if isPeer pa then
    (lineCuts pa bs.length).foldl (fun t c => noteRemote w c.1 ((bs.drop (c.1 - pa)).take c.2) t) s
  else s

/-- Bytes into physical memory as an access writes them: one to a peer or to the host is performed with its acknowledgement,
and no other agent finds it before (R226, R234). -/
def physStore (w : Who) (pa : Nat) (bs : List Byte) (s : State) : State :=
  noteFar w pa bs (if isPeer pa || isHost pa then s else physWrite pa bs (if w.seq then some w.core else none) s)

/-- Bytes take their place in a peer's memory. -/
def placePeer (pa : Nat) (bs : List Byte) (by' : Option (BitVec 11)) (s : State) : State :=
  let s := fireWatches pa bs.length by' s
  { s with peerMem := bs.zipIdx.foldl (fun m b => kvPut (s.peerKey pa + b.2) b.1 m) s.peerMem }

/-- Bytes into physical memory by an access that is performed in the step itself (R81, R141, R225; log 138); a pool line's at its
home slice. One to a peer's line takes the line's next number too. -/
def physNow (w : Who) (pa : Nat) (bs : List Byte) (s : State) : State :=
  let by' := if w.seq then some w.core else none
  if isPeer pa then
    let q := (kvGet (s.peerKey pa / 64) s.sentSeq).getD 0 + 1
    placePeer pa bs by' { s with sentSeq := kvPut (s.peerKey pa / 64) q s.sentSeq }
  else if isHost pa then physWrite pa bs by' s
  else physStore w pa bs s

/-- An access is of the agent that made a store (R222): an engine, or an agent of this core, or of the same member of its task
on another core. -/
def Who.same (w : Who) (core : BitVec 11) (agent task member : Nat) : Bool :=
  agent == w.agent && (w.engine || core == w.core || (task == w.task && member == w.member))

/-- A byte of a peer or of the host as an agent's own latest store that is not performed yet has it (R80, R226). -/
def State.ownByte (s : State) (w : Who) (pa : Nat) : Option Byte :=
  if isPeer pa then
    let k := s.peerKey pa
    s.remote.reverse.findSome? fun r =>
      if w.same r.core r.agent r.task r.member && s.peerKey r.pa.toNat ≤ k then r.bytes[k - s.peerKey r.pa.toNat]? else none
  else if isHost pa then
    s.hostStores.reverse.findSome? fun r =>
      if w.same r.core r.agent r.task r.member && r.pa.toNat ≤ pa then r.bytes[pa - r.pa.toNat]? else none
  else none

/-- Bytes of physical memory as an agent finds them: its own latest store to each first (R226). -/
def State.ownBytes (s : State) (w : Who) (pa : Nat) (bs : List Byte) : List Byte :=
  if isPeer pa || isHost pa then bs.zipIdx.map fun b => (s.ownByte w (pa + b.2)).getD b.1 else bs

/-- Bytes of physical memory as a unit that belongs to no core finds them. -/
def State.unitBytes (s : State) (pa n : Nat) : List Byte := s.ownBytes (Who.unit 0) pa (s.physBytes pa n)

/-- A store of another agent of this device to a line of a peer or of the host is not performed yet. -/
def State.lineBusy (s : State) (w : Who) (pa n : Nat) : Bool :=
  (isPeer pa && s.remote.any fun r => !w.same r.core r.agent r.task r.member &&
    (linesOf (s.peerKey pa) n).contains (s.peerKey r.pa.toNat / 64)) ||
  (isHost pa && s.hostStores.any fun r => !w.same r.core r.agent r.task r.member && (linesOf pa n).contains (r.pa.toNat / 64))

/-- The size field, kind and phase of a record (R133). -/
def recKind (r : BitVec 256) : Nat := fld r 200 2
def recDet (r : BitVec 256) : Bool := bit r 207
def recSize (r : BitVec 256) : Nat := fld r 208 8
def recPart (r : BitVec 256) : Nat := fld r 192 8
def recPhase (r : BitVec 256) : Nat := fld r 224 32
def recCode (r : BitVec 256) : Nat := fld r 0 64
def recFrame (r : BitVec 256) : Dword := r.extractLsb' 64 64
def recJoin (r : BitVec 256) : Nat := fld r 128 64

/-! ## Continuation queues (R135, R143) -/

/-- A virtual range lies below 2^57 (R40). -/
def vaOk (va n : Nat) : Bool := va + n ≤ 2 ^ 57

/-- A queue of a number. -/
def State.cq (s : State) (q : Nat) : Cq := vget s.cqs q Cq.reset
/-- A queue changed. -/
def State.modCq (s : State) (q : Nat) (f : Cq → Cq) : State := { s with cqs := vmod s.cqs q f }
/-- The partition that a queue belongs to (R136, R394). -/
def State.cqOwner (s : State) (q : Nat) : Option (BitVec 5) :=
  ((List.range 32).find? fun p => s.pg (BitVec.ofNat 5 p) 0xC0 32 >>> q % 2 = 1).map (BitVec.ofNat 5)
/-- The capacity and the records of a queue. -/
def Cq.cap (c : Cq) : Nat := 2 ^ (c.size.toNat + 4)
def Cq.count (c : Cq) : Nat := (c.tail - c.head).toNat
/-- The address of slot `n` (R135). -/
def Cq.slotVa (c : Cq) (n : BitVec 32) : Nat := fld c.base 12 45 * 4096 + 32 * (n.toNat % c.cap)

/-- The physical pieces of a range that every granule grants a permission for. -/
def physPieces (s : State) (p : BitVec 5) (perm : Perm) (va n : Nat) : Option (List (Nat × Nat)) :=
  if !vaOk va n then none else
  (granules va n).mapM fun a =>
    match s.walk p a with
    | some l => if l.grants perm && !s.poolLost l.pa then some (l.pa, min (va + n) ((a / 16384 + 1) * 16384) - a) else none
    | none => none

/-- Bytes of a partition's memory as the firmware and the engines' own tables are read, if they are translated. -/
def fwRead (s : State) (p : BitVec 5) (va n : Nat) : Option (List Byte) :=
  (physPieces s p .r va n).map fun l => l.flatMap fun r => s.unitBytes r.1 r.2

/-- Bytes written in the same way by an agent, in one of the two ways of a store. -/
def unitPut (put : Nat → List Byte → State → State) (w : Who) (s : State) (va : Nat) (bs : List Byte) : Option State :=
  (physPieces s w.part .w va bs.length).map fun l =>
    (l.foldl (fun (x : State × List Byte) r => (put r.1 (x.2.take r.2) x.1, x.2.drop r.2)) (s, bs)).1
def unitWrite (w : Who) (s : State) (va : Nat) (bs : List Byte) : Option State := unitPut (physStore w) w s va bs
def fwWrite (s : State) (p : BitVec 5) (va : Nat) (bs : List Byte) : Option State := unitWrite (Who.unit p) s va bs

/-- The record at a queue's head, if its slot is translated (R138). -/
def headRecord (s : State) (q : Nat) : Option (BitVec 256) :=
  match s.cqOwner q with
  | some p => (fwRead s p ((s.cq q).slotVa (s.cq q).head) 32).map (leVec 256)
  | none => none

/-- A queue is backlogged (R143, R150), one with a record of its own in `held` aside. -/
def backloggedBut (held : Selected → Bool) (s : State) (q : Nat) : Bool :=
  let c := s.cq q
  c.en && !c.stop && c.count != 0 && (s.cqOwner q).isSome && !s.selected.any (fun x => x.queue.toNat == q && held x) &&
  (match s.cqOwner q, headRecord s q with
    | some p, some r => !(recDet r && decide (recPhase r > (s.part p).phase.toNat))
    | _, _ => true)

/-- A queue is backlogged: none of its selected records has still to be bound. -/
def isBacklogged (s : State) (q : Nat) : Bool := backloggedBut (fun _ => true) s q

/-- Queues that become backlogged take at least the least pass of the others (R143), in ascending number. A queue whose record
is bound at once stays backlogged across the selection and the binding, which are two steps of the model (log 139). -/
def refreshBacklog (s : State) : State :=
  ((s.cqs.toList.zipIdx.filter fun c => c.1.en || c.1.backlogged).map (·.2)).foldl (fun s q =>
    let now := backloggedBut (·.waits) s q
    if now && !(s.cq q).backlogged then
      let others := (List.range 256).filter fun x => x != q && (s.cq x).backlogged
      let p := others.foldl (fun (m : Option Dword) x =>
        match m with
        | none => some (s.cq x).pass
        | some v => if ((s.cq x).pass - v).toInt < 0 then some (s.cq x).pass else some v) none
      s.modCq q fun c => { c with backlogged := true, pass := match p with
        | some v => if (c.pass - v).toInt < 0 then v else c.pass
        | none => c.pass }
    else s.modCq q fun c => { c with backlogged := now }) s

/-! ## Ending a context (R320, R321) and taking an exception (R316, R319) -/

/-- Bytes of the record a fatal context error writes (R321). -/
def fatalRecord (cause : Nat) (core : BitVec 11) (epc tval : Dword) (record : BitVec 256) : List Byte :=
  leBytes 8 cause ++ leBytes 8 core.toNat ++ leBytes 8 epc.toNat ++ leBytes 8 tval.toNat ++ leBytes 32 record.toNat

/-- One fatal-error record to the error ring of a partition, or one more in erlost (R321, R394). -/
def writeFatal (p : BitVec 5) (bs : List Byte) (s : State) : State :=
  let base := s.pg p 0x28 8
  let lg := s.pg p 0x38 2
  let head := s.pg p 0x30 4
  let tail := s.pg p 0x34 4
  let lost : State :=
    s.setPart p fun q => { q with page := setFld q.page (8 * 0x3A) 16 (min 0xFFFF (s.pg p 0x3A 2 + 1)) }
  if base = 0 || lg < 4 || 16 < lg then lost
  else if (tail + 2 ^ 32 - head) % 2 ^ 32 ≥ 2 ^ lg then lost
  else
    match s.walk p (base + 64 * (tail % 2 ^ lg)) with
    | none => lost
    | some l =>
      if !l.grants .w then lost else
      let s := physStore (Who.unit p) l.pa bs s
      raiseInt p 0 (s.setPart p fun q => { q with page := setFld q.page (8 * 0x34) 32 (tail + 1) })

/-- A bank zeroed, its poison with it, and its way of the cluster cache emptied (R45, R211). -/
def zeroBank (id : BitVec 11) (b : Nat) (s : State) : State :=
  { s with cache := s.cache.dropWays (clusterOf id) fun c k => c == coreOf id && k == b,
           bank := memZero s.bank (bankBase id b) 0x20000,
           bankPoison := s.bankPoison.filter fun l => l < bankBase id b / 64 || bankBase id (b + 1) / 64 ≤ l }

/-- Banks in cluster-cache and FIFO mode return to scratchpad, zeroed (R211, R320). -/
def dropModes (c : Core) (s : State) : State × BitVec 24 :=
  (List.range 12).foldl (fun (m : State × BitVec 24) b =>
    if c.bankMode b = 1 || c.bankMode b = 2 then (zeroBank c.id b m.1, setFld m.2 (2 * b) 2 0) else m)
    (s, c.bankmode)

/-- A core that its context leaves: queues, held state, token counters, pins and watch are gone, and it is free
(R320). -/
def Core.freed (c : Core) (bm : BitVec 24) : Core :=
  { c with act := if c.act = .fenced then .fenced else .idle, lq := [], mq := [], sq := [], held := none, lmDn := 0,
           lmUp := 0, msDn := 0, msUp := 0, pins := [], watch := none, bankmode := bm, ctx := 0, commit := .none,
           asleep := false, deadline := 0, timedOut := false, woken := false, waitCmd := 0, cmdDone := none,
           marker := false, retained := [], restored := [], dirtyAcc := 0, performed := [], replayBase := none, qtrap := none, stall := 0,
           builtAcc := 0, hm := false, phm := false, objWaits := [] }

/-- The pairs of emissions that a core's queues and sequencer have sent and that no bin has accepted (R249, R320). -/
def Core.owners (c : Core) : List Nat := (2 * c.id.toNat + 1) :: (c.sq.map fun e => 2 * e.num)

/-- The regions without the unaccepted pairs of some emitters. -/
def dropPairs (owners : List Nat) (s : State) : State :=
  { s with regions := s.regions.map fun r => { r with transit := r.transit.filter fun p => !owners.contains p.owner,
                                                       waiting := r.waiting.filter fun p => !owners.contains p.owner } }

/-- One core of an ended context. -/
def endCore (c : Core) (s : State) : State :=
  let (s, bm) := dropModes c s
  dropPairs c.owners (s.putCore (c.freed bm))

/-- A fatal context error of the context of a bound or saved core (R320): every bound member, every saved instance and
every instance that has still to start ends, and one record is written for each ended task (R321). -/
def endTask (cause : Nat) (epc tval : Dword) (c : Core) (s : State) : State :=
  let mine := s.cores.filter fun d => d.ctx == c.ctx && d.ctx != 0
  let gone := s.saved.filter fun v => v.ctx == c.ctx
  let n := if recKind c.record = 2 then mine.length + gone.length else 1
  let s := mine.foldl (fun s d => endCore d s) s
  let s := { s with saved := s.saved.filter (fun v => v.ctx != c.ctx),
                    selected := s.selected.filter (fun x => x.ctx == 0 || x.ctx != c.ctx),
                    regions := s.regions.map (fun r => { r with
                      holds := r.holds.filter (·.ctx != c.ctx),
                      replacing := if r.replacing = c.ctx then 0 else r.replacing }),
                    ctxs := if recDet c.record then s.ctxs.map (fun x => if x.ctx = c.ctx then { x with ended := true } else x)
                            else s.ctxs.filter (fun x => x.ctx != c.ctx) }
  refreshBacklog ((List.range n).foldl (fun s _ => writeFatal c.partid (fatalRecord cause c.id epc tval c.record) s) s)

/-- A fatal context error that a bound core meets (R320). -/
def endContext (cause : Nat) (epc tval : Dword) (id : BitVec 11) (s : State) : State :=
  endTask cause epc tval (s.findCore id) s

/-- A synchronous trap of the current core (R316): the saved registers are written, the mode changes and the pc is
at the partition's trap entry. A trap with hm = 1 and phm = 1 is the double trap (R319); a trap entry of 0 or outside
the window is no-handler (R314). -/
def enterTrap (cause : Nat) (epc tval : Dword) (s : State) : State :=
  let c := s.core
  let entry := s.pg c.partid 8 4
  if c.hm && c.phm then endContext cDouble epc tval c.id s
  else if cause = cFetch && c.hm && epc = dw entry then endContext cDouble epc tval c.id s
  else if entry = 0 || !s.inWindow c.partid entry 4 then endContext cNoHandler epc tval c.id s
  else
    { s with core := { c with cause := BitVec.ofNat 7 cause, epc := epc, tval := tval, phm := c.hm, hm := true,
                              pc := dw entry, waitCmd := 0, cmdDone := none,
                              objWaits := c.objWaits.filter (·.agent != 0), counters := vmod c.counters 11 (· + 1) } }

/-- The return from the handler (R318); none in task mode. -/
def leaveHandler (c : Core) : Option Core :=
  if !c.hm then none else
  match c.phm, c.held with
  | false, some h => some { c with hm := false, phm := false, pc := h.resume, held := none }
  | m, _ => some { c with hm := m, phm := false, pc := c.epc }

/-! ## Running a word -/

/-- A queue head waits for a token that can never come (R197): the counter's number. Of an MQ head that waits so on both of
its counters the rule names no first one: 0 (log 115). -/
def Core.deadlocked (c : Core) (q : Nat) : Option Nat :=
  match c.queue q with
  | [] => none
  | e :: _ =>
    if e.waited || c.isHeld e || e.flight.isSome then none else
    let t := tokOfBits (fTok e.word)
    if q = 1 then (if t.wd && c.lmUp = 0 && c.mq.isEmpty then some 1 else none)
    else if q = 2 then
      (if t.wu && c.lmDn = 0 && c.lq.isEmpty then some 0
       else if t.wd && c.msUp = 0 && c.sq.isEmpty then some 3 else none)
    else (if t.wu && c.msDn = 0 && c.mq.isEmpty then some 2 else none)

end Sys2Proof.Machine
end

