-- ==== Sys2Proof/Machine/Operands.lean ====
section
/-! DEFINITION. Operand forms: effective addresses (R78), branch targets (R73), immediates (R68, R69), and how a
meaning becomes an outcome. -/
namespace Sys2Proof.Machine

/-- The effective address of a scalar access: g[a] + sext(x) (R78). -/
def Core.ea (c : Core) (a : Reg) (x : BitVec 32) : Dword := c.rg a + sext x

/-- A branch or jump target: pc + 4·sext(off) (R73). -/
def Core.target {n : Nat} (c : Core) (off : BitVec n) : Dword := c.pc + 4 * sext off

/-- The state of a core after a word: where the pc goes, one more word executed (R338), no stall. -/
def Core.after (c : Core) (len : Nat) : Flow → Core
  | .next => { c with pc := c.pc + dw len, counters := vmod c.counters 1 (· + 1), stall := 0 }
  | .goto p => { c with pc := p, counters := vmod c.counters 1 (· + 1), stall := 0 }
  | .stay => { c with stall := 0 }
  | .hold m => { c with stall := m }

/-- What a word that does not complete leaves (R65): it takes its trap, ends its context, or waits. -/
def seqStop (x : Stop) (s : State) : State :=
  match x with
  | .trap c v => enterTrap c s.core.pc v s
  | .trapX c => enterTrap c s.core.pc (Config.openTval s.fresh) { s with fresh := s.fresh + 1 }
  | .fatal c v => endContext c s.core.pc v s.core.id s
  | .wait => { s with core := { s.core with stall := 0 } }
  | .waitQ m => { s with core := { s.core with stall := m } }

/-- The state after a word of `len` bytes. -/
def settle (len : Nat) (r : Except Stop (Flow × State)) (s : State) : State :=
  match r with
  | .ok (f, t) => { t with core := t.core.after len f }
  | .error x => seqStop x s

/-- The outcome of a meaning that the sequencer executes. -/
def runSeq (len : Nat) (m : M Flow) (s : State) : Host.Outcome State Fault Refusal := .next (settle len (m s) s)

/-- The outcome of a step of another agent: one that cannot be taken now leaves the state as it is. -/
def runDev (m : M Unit) (s : State) : Host.Outcome State Fault Refusal :=
  match m s with
  | .ok (_, t) => .next t
  | .error _ => .next s

/-- The tiles that an instruction names, in the order of R26: tile A, tile B, the tile field, the index tile. -/
def tilesNamed : Instr → List (BitVec 4)
  | .ldT _ _ t | .ldFf _ _ t | .bmpfx _ _ t | .stT _ _ t | .stFf _ _ t | .drnT _ t _ _ => [t]
  | .ldTi _ _ t i | .isxG _ _ t i | .stTi _ _ t i | .bmand _ _ t i => [t, i]
  | .mmaTileTile _ _ a b _ _ => [a, b]
  | .mmaPatternA _ _ b _ _ _ => [b]
  | .mmaPatternB _ _ a _ _ _ => [a]
  | .cmpa _ _ a _ => [a]
  | .upd _ k t _ _ => [k, t]
  | _ => []

/-- The index tile of a one-hot pattern (R122). -/
def patIndex (p : Dword) : List (BitVec 4) := if fld p 0 4 = 9 then [p.extractLsb' 16 4] else []

/-- The tiles that an entry names (R26). -/
def Entry.names (e : Entry) : List (BitVec 4) :=
  match e.instr with
  | .mmaPatternA .. | .mmaPatternB .. => tilesNamed e.instr ++ patIndex e.pat
  | i => tilesNamed i

/-- Wait until no routed entry that names a tile remains in a queue (R26). -/
def waitTile (t : BitVec 4) : M Unit := do
  let c ← getC
  let m (q bit : Nat) : Nat := if (c.queue q).any (·.names.contains t) then bit else 0
  let mask := m 1 2 + m 2 4 + m 3 8
  if mask = 0 then pure () else stopWith (.waitQ mask)

/-- A register result: d ← v. -/
def result (d : Reg) (v : Core → Dword) : M Flow := do
  let c ← getC
  wG d (v c)
  return .next

/-- A register result with flags ORed into `fflg` (R36). -/
def resultF (d : Reg) (v : Core → Dword × BitVec 6) : M Flow := do
  let c ← getC
  let (x, f) := v c
  wG d x
  orF f
  return .next

/-- A conditional branch (R73). -/
def branch (off : BitVec 12) (cond : Core → Bool) : M Flow := do
  let c ← getC
  return if cond c then .goto (c.target off) else .next

end Sys2Proof.Machine
end

