-- ==== Sys2Proof/Machine/Control.lean ====
section
/-! DEFINITION. Control flow (R73-R75) and the read of the code store. -/
namespace Sys2Proof.Machine

/-- A word of the code store of a core's cluster (R44). -/
def State.codeWord (s : State) (a : Nat) : Word :=
  leVec 32 (memRead s.code (clusterOf s.core.id * 0x400000 + a) 4)

/-- A fetch may read the word at an address: word-aligned and in the window (R44). -/
def State.fetchOk (s : State) (a : Nat) : Bool := a % 4 = 0 && s.inWindow s.core.partid a 4

/-- The word at an address has an uncorrectable error (R344, 0x3B). -/
def State.fetchPoison (s : State) (a : Nat) : Bool := s.codePoison.contains ((clusterOf s.core.id * 0x400000 + a) / 64)

/-- The instruction at the pc, or what stops it: the checks of R50 in their order, the two words of an extended
instruction as one unit (R44, R48-R50, R54, 0x3B). -/
def fetchInstr (s : State) : Except Stop Instr :=
  let pc := s.core.pc.toNat
  if !s.fetchOk pc then .error (.trapX cFetch)
  else if s.fetchPoison pc then .error (.fatal cCodePoison s.core.pc)
  else
    let w := s.codeWord pc
    if isExtended w && !s.fetchOk (pc + 4) then .error (.trapX cFetch)
    else if isExtended w && s.fetchPoison (pc + 4) then .error (.fatal cCodePoison s.core.pc)
    else
      let x := if isExtended w then s.codeWord (pc + 4) else 0
      match decode w x with
      | .ok i => .ok i
      | .error .illegalToken => .error (.trap cToken (x ++ w))
      | .error _ => .error (.trap cIllegal (x ++ w))

/-- UNASSIGNED_ENCODING (R50, R54): the sequencer has decoded a word that names no instruction, with the word after it
when its major is an extended one. -/
def execUnassignedEncoding (w x : BitVec 32) (s : State) : Host.Outcome State Fault Refusal :=
  let x := if isExtended w then x else 0
  match decode w x with
  | .error .unassigned => .next (seqStop (.trap cIllegal (x ++ w)) s)
  | _ => .next s

/-- `beq` (R73). -/
def execBeq (a b : Reg) (off : BitVec 12) (s : State) : Host.Outcome State Fault Refusal :=
  runSeq 4 (branch off fun c => c.rg a == c.rg b) s

/-- `bne` (R73). -/
def execBne (a b : Reg) (off : BitVec 12) (s : State) : Host.Outcome State Fault Refusal :=
  runSeq 4 (branch off fun c => c.rg a != c.rg b) s

/-- `blt` (R73). -/
def execBlt (a b : Reg) (off : BitVec 12) (s : State) : Host.Outcome State Fault Refusal :=
  runSeq 4 (branch off fun c => ltS (c.rg a) (c.rg b)) s

/-- `bge` (R73). -/
def execBge (a b : Reg) (off : BitVec 12) (s : State) : Host.Outcome State Fault Refusal :=
  runSeq 4 (branch off fun c => !ltS (c.rg a) (c.rg b)) s

/-- `bltu` (R73). -/
def execBltu (a b : Reg) (off : BitVec 12) (s : State) : Host.Outcome State Fault Refusal :=
  runSeq 4 (branch off fun c => ltU (c.rg a) (c.rg b)) s

/-- `bgeu` (R73). -/
def execBgeu (a b : Reg) (off : BitVec 12) (s : State) : Host.Outcome State Fault Refusal :=
  runSeq 4 (branch off fun c => !ltU (c.rg a) (c.rg b)) s

/-- A jump, with a link register if one is named (R73, R74). -/
def jump (link : Option Reg) (t : Core → Dword) : M Flow := do
  let c ← getC
  match link with
  | some d => wG d (c.pc + 4)
  | none => pure ()
  return .goto (t c)

/-- `j` (R73). -/
def execJ (off : BitVec 22) (s : State) : Host.Outcome State Fault Refusal :=
  runSeq 4 (jump none fun c => c.target off) s

/-- `jal`: g31 takes pc + 4 (R73). -/
def execJal (off : BitVec 22) (s : State) : Host.Outcome State Fault Refusal :=
  runSeq 4 (jump (some 31) fun c => c.target off) s

/-- `jalr`: d takes pc + 4, whatever the target (R74). -/
def execJalr (d a : Reg) (s : State) : Host.Outcome State Fault Refusal :=
  runSeq 4 (jump (some d) fun c => c.rg a) s

/-- `jt`: the count word is read as a fetch, the index checked, and the entry word runs next (R75). -/
def jumpTable (a b : Reg) : M Flow := do
  let s ← get
  let t := s.core.rg a
  let i := s.core.rg b
  need (s.fetchOk t.toNat) cFetch t
  if s.fetchPoison t.toNat then fatal cCodePoison t
  let w := s.codeWord t.toNat
  need (fld w 22 10 = 0x3F0) cJumpTable t
  let n := fld w 0 22
  need (n != 0 && decide (i.toNat < n)) cJumpTable i
  return .goto (t + 4 + 4 * i)

/-- `jt` (R75). -/
def execJt (a b : Reg) (s : State) : Host.Outcome State Fault Refusal := runSeq 4 (jumpTable a b) s

end Sys2Proof.Machine
end

