-- ==== Sys2Proof/Machine/Regions.lean ====
section
/-! DEFINITION. The Tumbler: bins, spill, application (R200-R207, R244-R251). -/
namespace Sys2Proof.Machine

/-! ## Region descriptors (R200) -/

def Region.base (r : Region) : Nat := fld r.desc 0 57
def Region.size (r : Region) : Nat := fld r.desc 96 32
def Region.scope (r : Region) : Nat := fld r.desc 93 3
def Region.op (r : Region) : Nat := fld r.desc 84 4
def Region.fpol (r : Region) : Nat := fld r.desc 80 4
def Region.fmt (r : Region) : Nat := fld r.desc 64 5
def Region.sbase (r : Region) : Nat := fld r.desc 128 57
def Region.ssize (r : Region) : Nat := fld r.desc 224 32
def Region.quota (r : Region) : Nat := fld r.desc 192 16
/-- Bytes of an element: 1, 2 or 4 (R244). -/
def Region.ebytes (r : Region) : Nat := fmtBits r.fmt / 8
/-- Bytes of the key range. -/
def Region.bytes (r : Region) : Nat := r.size * r.ebytes
/-- The width of a bin: w = ⌈size / 64⌉ (R204). -/
def Region.binW (r : Region) : Nat := (r.size + 63) / 64
/-- The bin of a key (R204). -/
def Region.bin (r : Region) (k : Nat) : Nat := k / r.binW
/-- The physical address of a virtual address of a region, by the translations it pins (R246). -/
def Region.phys (r : Region) (va : Nat) : Nat :=
  match kvGet (va / 16384) r.pages with
  | some p => p * 16384 + va % 16384
  | none => 0

/-- A physical range inside one granule touches a virtual range of a region. -/
def Region.touches (r : Region) (va vn a n : Nat) : Bool :=
  r.pages.any fun p => p.2 == a / 16384 && overlaps (p.1 * 16384 + a % 16384) n va vn
/-- A physical range inside one granule touches the keys of a region. -/
def Region.touchesKeys (r : Region) (a n : Nat) : Bool := r.touches r.base r.bytes a n
/-- A physical range inside one granule touches the spill area of a region (R251). -/
def Region.touchesSpill (r : Region) (a n : Nat) : Bool := r.touches r.sbase r.ssize a n

/-- A core lies in the region instance (R246): the instance of the region's scope that holds the declaring core. -/
def Region.inside (r : Region) (id : BitVec 11) : Bool :=
  if r.scope = 0 then r.core == id
  else if r.scope = 1 then clusterOf r.core == clusterOf id
  else if r.scope = 2 then dieOf r.core == dieOf id
  else true

/-! ## Application (R206, R244, R245) -/

/-- One step of a reduction (R244): the element, a pair's value, their bytes; the new element and flags. -/
def reduce (op fmt v x : Nat) : Nat × Flags :=
  let w := fmtBits fmt
  let v := v % 2 ^ w
  let x := x % 2 ^ w
  match op, fmtFloat fmt, fmtInt fmt with
  | 0, some f, _ => f.add v x
  | 0, _, _ => ((v + x) % 2 ^ w, 0)
  | 1, some f, _ => f.minMax false v x
  | 2, some f, _ => f.minMax true v x
  | 1, _, some (sg, _) =>
    (if sg then (if toSigned w x < toSigned w v then x else v) else min v x, 0)
  | 2, _, some (sg, _) =>
    (if sg then (if toSigned w v < toSigned w x then x else v) else max v x, 0)
  | 3, _, _ => (v ||| x, 0)
  | 4, _, _ => (v &&& x, 0)
  | 5, _, _ => (x, 0)
  | _, _, _ => (v, 0)

/-- The order of pairs within an application (R206): emitter, then sequence by its signed difference (R202). -/
def Pair.before (a b : Pair) : Bool :=
  if a.emitter != b.emitter then a.emitter.toNat < b.emitter.toNat
  else (a.seq - b.seq).toInt < 0 || a.seq == b.seq

/-- All the pairs of one key onto its element (R206, R245). -/
def reduceAll (op fmt v : Nat) (ps : List Pair) : Nat × Flags :=
  let w := fmtBits fmt
  match op, fmtInt fmt with
  | 0, some (sg, _) =>
    let rd (x : Nat) : Int := if sg then toSigned w x else (x % 2 ^ w : Nat)
    let sum := ps.foldl (fun (a : Int) p => a + rd p.val.toNat) (rd v)
    let lo : Int := if sg then -(2 ^ (w - 1) : Int) else 0
    let hi : Int := if sg then 2 ^ (w - 1) - 1 else 2 ^ w - 1
    (ofSigned w sum, flIf (sum < lo || hi < sum) flIovf)
  | _, _ =>
    ps.foldl (fun (a : Nat × Flags) p => let (v', f) := reduce op fmt a.1 p.val.toNat; (v', a.2 ||| f)) (v, 0)

/-- The keys that occur in a list of pairs, each once. -/
def keysOf (ps : List Pair) : List Nat := (ps.map (·.key.toNat)).eraseDups

/-- One key of an application: an element on a line that was poisoned when the application began is reduced from +0 and
written whole, which clears the poison; counter 9 counts it (R338, R344: event 0x4B). -/
def applyKey (r : Region) (ps : List Pair) (bad : List Nat) (sf : State × Flags) (k : Nat) : State × Flags :=
  let (s, fl) := sf
  let pa := r.phys (r.base + k * r.ebytes)
  let v := if bad.contains (pa / 64) then 0 else leNat (s.unitBytes pa r.ebytes)
  let mine := sortBy Pair.before (ps.filter (·.key.toNat == k))
  let (v', f) := reduceAll r.op r.fmt v mine
  let s := physStore (Who.unit r.part) pa (leBytes r.ebytes v') s
  let s := if bad.contains (pa / 64) then
      { s with poison := s.poison.filter (· != pa / 64) }.setPart r.part fun q => { q with degraded := q.degraded + 1 }
    else s
  (s, fl ||| f)

/-- The state with a region of the table changed. -/
def setRegion (r : Region) (s : State) : State :=
  { s with regions := s.regions.map fun q => if q.slot = r.slot then r else q }

/-- One application of every held pair and run of a region (R206). -/
def applyHeld (slot : Nat) (s : State) : State :=
  match s.regions.find? (·.slot == slot) with
  | none => s
  | some r =>
    let ps := r.held ++ r.runs.flatten
    if ps.isEmpty then s else
    let (s, fl) := (keysOf ps).foldl (applyKey r ps s.poison) (s, 0)
    let fl := if r.fpol = 0 then fl else 0
    let st := setFld r.status 16 32 (fld r.status 16 32 + ps.length)
    let st := st ||| zext fl
    let s := setRegion { r with held := [], runs := [], status := st } s
    physStore (Who.unit r.part) (r.phys r.sbase) (leBytes 8 0) s

/-- The bytes of the runs that stand in the spill area (R204, R251). -/
def Region.spillUsed (r : Region) : Nat := (r.runs.map fun x => 16 + 16 * x.length).sum

/-- The bytes of a run as the spill area shows it (R204). -/
def runBytes (bin : Nat) (ps : List Pair) : List Byte :=
  leBytes 8 ps.length ++ leBytes 8 bin ++
  (ps.map fun p => leBytes 8 (p.seq.toNat * 2 ^ 32 + p.emitter.toNat) ++ leBytes 8 (p.key.toNat * 2 ^ 32 + p.val.toNat)).flatten

/-- Bytes into a region's spill area, granule by granule. -/
def spillWrite (r : Region) (va : Nat) (bs : List Byte) (s : State) : State :=
  (granules va bs.length).foldl
    (fun s a => physStore (Who.unit r.part) (r.phys a) ((bs.drop (a - va)).take (16384 - a % 16384)) s) s

/-- The order of a run: key, emitter, sequence (R204). -/
def Pair.runBefore (a b : Pair) : Bool := if a.key != b.key then a.key.toNat < b.key.toNat else a.before b

/-- A region lies in a pool region that is lost (R240). -/
def Region.lost (r : Region) (s : State) : Bool := r.pages.any fun q => s.poolLost (16384 * q.2)

/-- A pair arrives at its bin (R204, R251): held, or the bin is spilled first, or it waits and full is set. Answers
whether it was accepted. A pair for a lost region is discarded (R240). -/
def arrive (slot : Nat) (p : Pair) (s : State) : Bool × State :=
  match s.regions.find? (·.slot == slot) with
  | none => (true, s)
  | some r =>
    if r.lost s then (true, s) else
    let b := r.bin p.key.toNat
    let mine := r.held.filter fun q => r.bin q.key.toNat == b
    if mine.length < r.quota then (true, setRegion { r with held := r.held ++ [p] } s)
    else
      let used := r.spillUsed
      if 64 + used + 16 + 16 * mine.length ≤ r.ssize then
        let run := sortBy Pair.runBefore mine
        let s := spillWrite r (r.sbase + 64 + used) (runBytes b run) s
        let s := spillWrite r r.sbase (leBytes 64 (used + 16 + 16 * mine.length)) s
        let st := setFld r.status 48 16 (min 0xFFFF (fld r.status 48 16 + 1))
        (true, setRegion { r with held := r.held.filter (fun q => r.bin q.key.toNat != b) ++ [p], runs := r.runs ++ [run],
                                  status := st } s)
      else if r.replacing != 0 then
        let s := applyHeld slot s
        (true, { s with regions := s.regions.map fun q => if q.slot = slot then { q with held := q.held ++ [p] } else q })
      else (false, setRegion { r with status := setBit r.status 7 true } s)

/-- Pairs arrive in turn; those that find no room wait. -/
def arriveEach (slot : Nat) (ps : List Pair) (s : State) : State :=
  ps.foldl (fun s p =>
    let (ok, s) := arrive slot p s
    if ok then s else { s with regions := s.regions.map fun q => if q.slot = slot then { q with waiting := q.waiting ++ [p] } else q }) s

/-- Every pair that waits, and every pair on its way, arrives in turn. -/
def arriveAll (slot : Nat) (s : State) : State :=
  match s.regions.find? (·.slot == slot) with
  | none => s
  | some r => arriveEach slot (r.waiting ++ r.transit) (setRegion { r with waiting := [], transit := [] } s)

/-- The pairs that wait are accepted once an application has emptied the spill area (R204). -/
def acceptWaiting (slot : Nat) (s : State) : State :=
  match s.regions.find? (·.slot == slot) with
  | none => s
  | some r => arriveEach slot r.waiting (setRegion { r with waiting := [] } s)

/-- Apply, accept what waits, apply again, until nothing waits (R205). -/
def applyFrom : Nat → Nat → State → State
  | 0, _, s => s
  | n + 1, slot, s =>
    match s.regions.find? (·.slot == slot) with
    | none => s
    | some r =>
      if r.waiting.isEmpty && r.transit.isEmpty then applyHeld slot s
      else applyFrom n slot (arriveAll slot (applyHeld slot s))

/-- A read of a region (R205): the Tumbler takes the pairs on their way, applies, accepts the waiting pairs and
applies them too. -/
def applyRegion (slot : Nat) (s : State) : State :=
  let s := arriveAll slot s
  let n := ((s.regions.find? (·.slot == slot)).map fun r => r.waiting.length + r.transit.length).getD 0
  applyFrom (n + 2) slot s

end Sys2Proof.Machine
end

