-- ==== Sys2Proof/Machine/Access.lean ====
section
/-! DEFINITION. Accesses to global virtual memory and to the banks: checks, translation, region triggers, poison,
conflict tags (R40-R43, R78, R153, R154, R212, R240, R251-R255, R344). -/
namespace Sys2Proof.Machine

/-- Why an access is refused. -/
inductive AccErr where
  /-- An address check of R40-R42 or a write into a spill area (R251): the address. -/
  | fault (a : Nat)
  /-- A conflict (R154), or no room for a tag (R153). -/
  | conflict (a : Nat)
  | tagCap (a : Nat)
  /-- No translation, or one without the permission (R78). -/
  | missing (a : Nat)
  | perm (a : Nat)
  /-- A lost pool region (R240). -/
  | lost (a : Nat)
  /-- A poisoned line (R344). -/
  | poison (a : Nat)
  /-- A determinism violation (R212). -/
  | det (a : Nat)
  | spill (a : Nat)
deriving DecidableEq, Repr

/-- A computation that can also be refused. -/
abbrev A := ExceptT AccErr M

/-- A core's own agent: its sequencer, or a queue of it (R222); the queue of a reading entry is taken for LQ. -/
def Core.who (c : Core) (seq : Bool) (scope : BitVec 3) : Who :=
  { part := c.partid, core := c.id, agent := if seq then 0 else 1, det := c.det, ctx := c.ctx,
    task := c.ctx * 8 + (if recKind c.record = 2 then c.inst.toNat % 8 else 0), member := c.teamid.toNat,
    arr := c.arrivals.toNat, wts := c.waits.toNat, scope := scope }

/-- A queue of a core as an agent. -/
def Core.whoIn (c : Core) (q : Nat) (scope : BitVec 3) : Who := { c.who false scope with agent := q }

/-- A refusal as an instruction of a core reports it (R78, R240, R344). -/
def accStop : AccErr → Stop
  | .fault a => .trap cAccess (dw a)
  | .spill a => .trap cAccess (dw a)
  | .conflict a => .trap cConflict (dw a)
  | .tagCap a => .trap cTagCap (dw a)
  | .missing a => .fatal cMissing (dw a)
  | .perm a => .fatal cPerm (dw a)
  | .lost a => .fatal cPoolFatal (dw a)
  | .poison a => .fatal cPoison (dw a)
  | .det _ => .trapX cDet

/-- An access of an instruction: a refusal stops it. -/
def acc {α : Type} (m : A α) : M α := do
  match ← m.run with
  | .ok v => return v
  | .error e => stopWith (accStop e)

/-! ## Conflict tags (R153-R155, R255) -/

/-- The tag key of a line of physical memory, or of a bank. -/
def physTag (line : Nat) : Nat := line
def bankTag (line : Nat) : Nat := 2 ^ 60 + line

/-- Whether an access finds no conflict (R154). -/
def Tag.clear (t : Tag) (w : Who) (wr : Bool) : Bool :=
  (match t.writer with
    | none => true
    | some (tk, m, a) => tk == w.task && (m == w.member || decide (w.wts > a))) &&
  (!wr ||
    (!t.manyReaders &&
      (match t.reader with
        | none => true
        | some (tk, some m, a) => tk == w.task && (m == w.member || decide (w.wts > a))
        | some (tk, none, a) => tk == w.task && decide (w.wts > a))))

/-- The tag after an access (R153). -/
def Tag.mark (t : Tag) (w : Who) (wr : Bool) : Tag :=
  if wr then { t with writer := some (w.task, w.member, w.arr), reader := none, manyReaders := false }
  else
    match t.reader with
    | none => { t with reader := some (w.task, some w.member, w.arr) }
    | some (tk, m, a) =>
      if tk != w.task then { t with manyReaders := true }
      else { t with reader := some (tk, (if m = some w.member then m else none), max a w.arr) }

/-- The home slice of a physical line (R215): die and slice. The rule gives none for a line of the host or of a peer: its tag
counts in the slice that PA<15:13> names (log 116). -/
def homeSlice (pa : Nat) : Nat :=
  (if isHbm pa then pa / 2 ^ 36 % 8 else pa / 2 ^ 13 % 8) * 32 + ((pa / 2 ^ 6 % 32) ^^^ (pa / 2 ^ 16 % 32))

/-- A home slice has room for the tag of one more written line: it holds 32,768 lines (R153, R216; log 10). -/
def tagRoom (s : State) (key : Nat) : Bool :=
  key ≥ 2 ^ 60 ||
  (s.tags.filter fun t => t.1 < 2 ^ 60 && t.2.writer.isSome && homeSlice (t.1 * 64) == homeSlice (key * 64)).length < 32768

/-- A deterministic access to a line judged and recorded (R153, R154); other accesses carry no tag. An access that finds
a conflict performs nothing, an engine's too (log 17). A tag judges the accesses of every partition, and stays its first
partition's (log 132). -/
def tagLine (w : Who) (wr : Bool) (addr key : Nat) : A Unit := do
  if !w.det then return ()
  let s ← get
  let t := (kvGet key s.tags).getD ⟨w.part, none, none, false⟩
  if !t.clear w wr then throw (.conflict addr)
  if t.writer.isNone && wr && !tagRoom s key then throw (.tagCap addr)
  set { s with tags := kvPut key (t.mark w wr) s.tags }

/-! ## Global virtual memory -/

/-- The translation that a pin keeps valid for an address (R86, R87, R302). -/
def Pin.leaf (p : Pin) (va : Nat) : Option Leaf :=
  if p.revoked || va < p.base.toNat || p.base.toNat + p.len.toNat ≤ va then none else
  (p.leaves.find? fun x => x.1 ≤ va && va / 2 ^ leafBits x.2.level = x.1 / 2 ^ leafBits x.2.level).map fun x =>
    { x.2 with pa := x.2.pa + (va - x.1) }

/-- The translation that an access of an agent uses: one that a pin of its core holds (log 90), else the one that a first-level line
recorded, which a sequencer's access hits (R213), else a walk of the table as it stands. Engines translate for themselves (R300). -/
def State.lookup (s : State) (w : Who) (va : Nat) : Option Leaf :=
  match (if w.engine then none else (s.findCore w.core).pins.findSome? (·.leaf va)) with
  | some l => some l
  | none =>
    match (if w.seq then s.cache.hit w.core va else none) with
    | some l => some l
    | none => s.walk w.part va

/-- The translation of one granule for an access (R78, R240, R301). -/
def transl (w : Who) (p : Perm) (va : Nat) : A Nat := do
  let s ← get
  match s.lookup w va with
  | none => throw (.missing va)
  | some l =>
    if !l.grants p then throw (.perm va)
    else if s.poolLost l.pa then throw (.lost va)
    else return l.pa

/-- A deterministic access is not ordered after the emissions to a region in the phase (R255). -/
def Region.unordered (r : Region) (w : Who) : Bool :=
  w.det && (r.pmany || r.ptag.any fun (tk, m, a) => !(tk == w.task && (m == w.member || decide (w.wts > a))))

/-- The regions whose key lines an access by an agent of their instance touches; a deterministic one is judged against their
phase tags (R253, R255). -/
def triggered (w : Who) (va pa n : Nat) : A (List Region) := do
  let hit := (← get).regions.filter fun r => r.touchesKeys pa n && r.inside w.core
  if hit.any (·.unordered w) then throw (.conflict va)
  return hit

/-- An access to key lines applies each region that it touches first (R205, R253). -/
def trigger (w : Who) (va pa n : Nat) : A Unit := do
  let hit ← triggered w va pa n
  modify fun s => hit.foldl (fun t r => applyRegion r.slot t) s

/-- The bytes that a load finds in a peer's memory (R226, R230): those of its agent's own latest store that is not performed
yet, else those of the memory; and what this device then knows of it. -/
def peerGet (w : Who) (pa n : Nat) (s : State) : List Byte × State :=
  let key := s.peerKey pa
  let bs := (List.range n).map (s.peerByte key)
  (s.ownBytes w pa bs, { s with peerMem := bs.zipIdx.foldl (fun m b => kvPut (key + b.2) b.1 m) s.peerMem, fresh := s.fresh + n })

/-- Bytes of physical memory as an access reads them. One of a core that writes them in the same step waits for the stores of
other agents to their lines (R225). -/
def physGet (w : Who) (pa n : Nat) : A (List Byte) := do
  let s ← get
  if w.excl && !w.engine && s.lineBusy w pa n then (stopWith .wait : M Unit)
  if isPeer pa then do
    let (bs, t) := peerGet w pa n s
    set t
    return bs
  else return s.ownBytes w pa (memRead s.mem pa n)

/-- Bytes into physical memory as an access writes them. -/
def physPut (w : Who) (pa : Nat) (bs : List Byte) : M Unit :=
  modS (if w.excl then physNow w pa bs else physStore w pa bs)

/-! ## What an access leaves in the caches (R213, R214, R216-R218; log 140 to log 142) -/

/-- The banks of a cluster that are ways of its cache, lowest core and bank first (R214). -/
def State.ways (s : State) (cluster : Nat) : List (Nat × Nat) :=
  let on := s.cores.filter fun c => clusterOf c.id == cluster && (List.range 12).any fun b => c.bankMode b == 1
  if on.isEmpty then [] else
  (List.range 96).flatMap fun k => match on.find? fun c => coreOf c.id == k with
    | some c => ((List.range 12).filter fun b => c.bankMode b == 1).map fun b => (k, b)
    | none => []

/-- The retention class that a translated access carries: an enabled register of the die of its core or copy engine, of its
partition, that holds the address (R217). -/
def State.classOf (s : State) (w : Who) (va : Nat) : Option (Nat × Nat) :=
  let d := if w.engine then (w.agent - 8) / 64 else dieOf w.core
  if 4 ≤ w.agent && (w.agent < 8 || 520 ≤ w.agent) then none else
  ((List.range 16).find? fun i =>
    let r := vget s.retain (16 * d + i) Retain.reset
    r.en && r.part == w.part && decide (r.base.toNat ≤ va) && decide (va < r.base.toNat + r.gran.toNat * 16384)).map fun i => (d, i)

/-- The set of a line of the device's own memory: its home slice has 2,048 (R216; log 142). -/
def sliceSet (line : Nat) : Nat := homeSlice (64 * line) * 2048 + line / 32 % 2048

/-- A line that an access needs below the first level: a core's enters its cluster's cache, and it reaches the home slice unless a
read finds it there. -/
def State.cacheLine (s : State) (w : Who) (wr : Bool) (va : Nat) (k : Cache) (line : Nat) : Cache :=
  let cl := clusterOf w.core
  let found := !w.engine && !wr && k.inCluster cl line
  let k := if w.engine then k else k.fillCluster cl (s.ways cl) line
  if found || isPeer (64 * line) || isHost (64 * line) then k else k.touch (sliceSet line) line w.ef (s.classOf w va)

/-- The caches after an access inside one granule, with the translation that it had. A sequencer's access to one line fills its
first-level cache, where a read that hits ends. -/
def State.cached (s : State) (w : Who) (wr : Bool) (va pa n : Nat) (leaf : Option Leaf) : Cache :=
  let one := w.seq && (linesOf pa n).length == 1
  let hit := one && (s.cache.hit w.core va).isSome
  let k := match leaf with
    | some l => if one && !hit then s.cache.fillL1 w.core va l else s.cache
    | none => s.cache
  if hit && !wr then k else (linesOf pa n).foldl (s.cacheLine w wr va) k

/-- An access that is made leaves its lines in the caches. -/
def State.fills (w : Who) (wr : Bool) (va pa n : Nat) (leaf : Option Leaf) (s : State) : State :=
  { s with cache := s.cached w wr va pa n leaf }

/-- A read of bytes inside one granule. -/
def readIn (w : Who) (p : Perm) (va n : Nat) : A (List Byte) := do
  let pa ← transl w p va
  let leaf := (← get).lookup w va
  trigger w va pa n
  let s ← get
  if (linesOf pa n).any s.poison.contains then throw (.poison va)
  (linesOf pa n).foldlM (fun _ l => tagLine w false va (physTag l)) ()
  let bs ← physGet w pa n
  modify (State.fills w false va pa n leaf)
  return bs

/-- A read of a global virtual range (R78, R79). -/
def gRead (w : Who) (va n : Nat) (p : Perm := .r) : A (List Byte) := do
  if !vaOk va n then throw (.fault va)
  (granules va n).foldlM (fun bs a => do
    let more ← readIn w p a (min (va + n) ((a / 16384 + 1) * 16384) - a)
    return bs ++ more) []

/-- A write of bytes inside one granule: a spill area refuses it (R251), a key line is applied first (R253). -/
def writeIn (w : Who) (va : Nat) (bs : List Byte) : A Unit := do
  let n := bs.length
  let pa ← transl w .w va
  let leaf := (← get).lookup w va
  if (← get).regions.any (·.touchesSpill pa n) then throw (.spill va)
  trigger w va pa n
  (linesOf pa n).foldlM (fun _ l => tagLine w true va (physTag l)) ()
  physPut w pa bs
  modify (State.fills w true va pa n leaf)

/-- A write of a global virtual range (R78, R79). -/
def gWrite (w : Who) (va : Nat) (bs : List Byte) : A Unit := do
  let n := bs.length
  if !vaOk va n then throw (.fault va)
  (granules va n).foldlM (fun _ a => writeIn w a ((bs.drop (a - va)).take (16384 - a % 16384))) ()

/-- A range is checked and translated with a permission, and nothing is accessed (R78, R81); a spill area refuses a write
(R251). -/
def gProbe (w : Who) (p : Perm) (va n : Nat) : A Unit := do
  if !vaOk va n then throw (.fault va)
  (granules va n).foldlM (fun _ a => do
    let pa ← transl w p a
    if p == .w && (← get).regions.any (·.touchesSpill pa (min (va + n) ((a / 16384 + 1) * 16384) - a)) then
      throw (.spill a)) ()

/-! ## Banks (R41, R42, R212) -/

/-- A cluster-local address: core, bank, offset; refused by R41 alone. -/
def localParts (self : BitVec 11) (a : Nat) : Option (BitVec 11 × Nat × Nat) :=
  let c := a / 2 ^ 21 % 128
  let b := a / 2 ^ 17 % 16
  if a ≥ 2 ^ 28 || (96 ≤ c && c ≤ 126) || b ≥ 12 then none
  else some (if c = 127 then self else BitVec.ofNat 11 (self.toNat / 128 * 128 + c), b, a % 2 ^ 17)

/-- The initiator's team holds a core (R42). -/
def sameTeam (w : Who) (c : Core) : Bool := w.ctx != 0 && c.ctx == w.ctx && recKind c.record == 1

/-- Where a cluster-local range lies in the bank list, if R41 and R42 permit it; `fifo` lets a FIFO bank of the
issuing core pass (R212). -/
def localOk (s : State) (w : Who) (a n : Nat) (fifo : Bool := false) : Option Nat := do
  let (id, b, o) ← localParts w.core a
  let c := s.findCore id
  let own := id == w.core && !w.engine
  let own' := id == w.core
  let ok :=
    match c.bankMode b with
    | 0 => own' || sameTeam w c
    | 3 => true
    | 2 => fifo && own
    | _ => false
  if ok && o + n ≤ 0x20000 then some (bankBase id b + o) else none

/-- The parts of a cluster-local range, cut where a bank ends. -/
def localCuts (a n : Nat) : List (Nat × Nat) :=
  if n = 0 then [] else
  (List.range ((a + n - 1) / 0x20000 + 1 - a / 0x20000)).map fun i =>
    let x := max a ((a / 0x20000 + i) * 0x20000)
    (x, min (a + n) ((a / 0x20000 + i + 1) * 0x20000) - x)

/-- A read inside one bank. -/
def bankIn (w : Who) (a n : Nat) : A (List Byte) := do
  let s ← get
  match localOk s w a n with
  | none => throw (.fault a)
  | some k =>
    if (linesOf k n).any s.bankPoison.contains then throw (.poison a)
    (linesOf k n).foldlM (fun _ l => tagLine w false a (bankTag l)) ()
    return memRead s.bank k n

/-- A read of a cluster-local range. -/
def lRead (w : Who) (a n : Nat) : A (List Byte) :=
  (localCuts a n).foldlM (fun bs c => do return bs ++ (← bankIn w c.1 c.2)) []

/-- A write inside one bank. -/
def bankOut (w : Who) (a : Nat) (bs : List Byte) : A Unit := do
  match localOk (← get) w a bs.length with
  | none => throw (.fault a)
  | some k =>
    (linesOf k bs.length).foldlM (fun _ l => tagLine w true a (bankTag l)) ()
    modify fun s => { s with bank := memWrite s.bank k bs, bankPoison := clearPoison s.bankPoison k bs.length }

/-- A write of a cluster-local range. -/
def lWrite (w : Who) (a : Nat) (bs : List Byte) : A Unit :=
  (localCuts a bs.length).foldlM (fun _ c => bankOut w c.1 ((bs.drop (c.1 - a)).take c.2)) ()

/-- A read of a space: global or cluster-local. -/
def readAt (w : Who) (loc : Bool) (a n : Nat) : A (List Byte) := if loc then lRead w a n else gRead w a n
/-- A write of a space. -/
def writeAt (w : Who) (loc : Bool) (a : Nat) (bs : List Byte) : A Unit := if loc then lWrite w a bs else gWrite w a bs

end Sys2Proof.Machine
end

