-- ==== Sys2Proof/Machine/Streams.lean ====
section
/-! DEFINITION. Streams (R11, R156-R158) and the tile loads and stores of the queues (R16, R103, R159-R163, R276, R277,
R281-R283). A performer makes an entry's checks, its memory accesses, and answers what it writes at completion. -/
namespace Sys2Proof.Machine

/-! ## The descriptor (R11, R156) -/

/-- The fields of a stream descriptor. -/
structure Str where
  loc : Bool
  base : Nat
  rstride : Int
  cols : Nat
  rows : Nat
  fmt : Nat
  ilim : Nat
  nkeep : Nat
  sp : Bool
  vrows : Nat
  bstride : Int
  bcols : Nat
  brows : Nat
  xbase : Nat
  xstride : Int
  zsep : Bool
  gaxis : Bool
  zbase : Nat
deriving DecidableEq, Repr

/-- The fields of a descriptor. -/
def strOf (d : BitVec 512) : Str :=
  { loc := bit d 62, base := fld d 0 57, rstride := toSigned 32 (fld d 96 32), cols := fld d 80 8, rows := fld d 72 8,
    fmt := fld d 64 5, ilim := fld d 160 32, nkeep := fld d 153 5, sp := bit d 152, vrows := fld d 136 8,
    bstride := toSigned 32 (fld d 224 32), bcols := fld d 200 8, brows := fld d 192 8, xbase := fld d 256 57,
    xstride := toSigned 32 (fld d 352 32), zsep := bit d 328, gaxis := bit d 320, zbase := fld d 384 57 }

/-- Which fields beyond d0 and d1 an instruction uses (R158). -/
inductive StrUse where
  /-- `ld.t`, `st.t`. -/
  | tile
  /-- `ld.ti`, `st.ti`. -/
  | index
  /-- `ld.ff`, `st.ff`. -/
  | fifo
  /-- `st.z`. -/
  | zero
  /-- `ld.a`, `st.a`, `drn`. -/
  | acc
  /-- `dcfg.*` and the bitmap instructions. -/
  | plain
deriving DecidableEq, Repr

def mVrows : Nat := 0xFF00
def mBase : Nat := 2 ^ 57 - 1
def mHigh : Nat := (2 ^ 32 - 1) * 2 ^ 32

/-- The bits of doubleword `k` that an instruction uses; every other bit must be zero (R156-R158, R277, R282). -/
def strAllowed (u : StrUse) (t : Str) (k : Nat) : Nat :=
  let grouped := fmtGrouped t.fmt
  match k with
  | 0 => 2 ^ 62 + mBase
  | 1 => (if u = .fifo then 0 else mHigh) + 0xFFFF1F
  | 2 =>
    match u with
    | .tile => mVrows + (if grouped then 0 else 2 ^ 24 + (if t.sp then 0x3E000000 else 0))
    | .index => mVrows + mHigh
    | .zero | .acc => mVrows
    | _ => 0
  | 3 => if u = .zero || (u = .tile && !grouped && !t.sp) then mHigh + 0xFFFF else 0
  | 4 => if (u = .tile && (grouped || t.sp)) || (u = .index && grouped) then mBase else 0
  | 5 =>
    if (u = .tile || u = .index) && grouped then mHigh + 0x101
    else if u = .tile && t.sp then mHigh else 0
  | 6 => if (u = .tile || u = .index) && grouped && t.zsep then mBase else 0
  | _ => 0

/-- Step 1 of R158 fails in doubleword `k`. -/
def strBadAt (u : StrUse) (d : BitVec 512) (k : Nat) : Bool :=
  let t := strOf d
  let w := fld d (64 * k) 64
  w &&& strAllowed u t k != w ||
  (k == 2 && decide (t.rows < t.vrows)) ||
  (k == 3 && (if t.bcols = 0 then t.brows != 0 || t.bstride != 0
              else t.brows == 0 || t.bcols * fmtBits t.fmt % 8 != 0))

/-- Step 1 of R158: the lowest failing doubleword, of several the one that `tval` names (log 118). -/
def strBad (u : StrUse) (d : BitVec 512) : Option Nat := (List.range 8).find? (strBadAt u d)

/-- The stream of an entry after step 1 of R158. -/
def streamOf (u : StrUse) (st : Reg) (e : Entry) : M Str := do
  match strBad u e.stream with
  | some k => trap cStream (dw (k * 256 + st.toNat))
  | none => return strOf e.stream

/-! ## The walk (R157) -/

/-- Bytes of a walk that lie together: the tile row, the first column and the number of elements; the address is an
integer before it is cut to an address. -/
structure Seg where
  row : Nat
  col : Nat
  n : Nat
  a : Int
deriving DecidableEq, Repr

/-- An address of the walk as 64 bits. -/
def addrOf (a : Int) : Nat := (a % (2 ^ 64 : Int)).toNat

/-- The pieces of a tile row that stands at a memory row (R157, R161), for elements of `b` bits. -/
def Str.rowSegs (t : Str) (b : Nat) (row mrow : Nat) : List Seg :=
  if t.bcols = 0 then [⟨row, 0, t.cols, t.base + mrow * t.rstride⟩]
  else
    (List.range ((t.cols + t.bcols - 1) / t.bcols)).map fun k =>
      ⟨row, k * t.bcols, min t.bcols (t.cols - k * t.bcols),
       t.base + (mrow / t.brows : Nat) * t.rstride + k * t.bstride + ((mrow % t.brows) * t.bcols * b / 8 : Nat)⟩

/-- The pieces of several rows, each a tile row and its memory row. -/
def Str.segs (t : Str) (b : Nat) (rows : List (Nat × Nat)) : List Seg := (rows.map fun r => t.rowSegs b r.1 r.2).flatten

/-- The bytes of a piece. -/
def Seg.bytes (g : Seg) (b : Nat) : Nat := (g.n * b + 7) / 8

/-- The rows that a stream does not pad (R116). -/
def Str.liveRows (t : Str) : List Nat := (List.range t.rows).filter fun i => t.vrows = 0 || i < t.vrows

/-! ## Side data (R276, R277, R281-R283, R161) -/

/-- The group size of a grouped format (R281). -/
def groupSize (fmt : Nat) : Nat := if fmt = 16 || fmt = 19 then 32 else if fmt = 17 || fmt = 20 then 64 else 128
/-- The entries of one line of side data (R283). -/
def groupCols (fmt : Nat) (gax : Bool) (cols : Nat) : Nat := if gax then cols else (cols + groupSize fmt - 1) / groupSize fmt

/-- The side lines that serve some rows: the tile's line and the memory's line (R161, R282). -/
def Str.sideLines (t : Str) (rows : List (Nat × Nat)) : List (Nat × Nat) :=
  if t.gaxis then ((rows.map fun r => r.1 / groupSize t.fmt).eraseDups).map fun l => (l, l) else rows

/-- The byte ranges of the side data that serve some rows. -/
def Str.sideSpans (t : Str) (rows : List (Nat × Nat)) : List (Int × Nat) :=
  if fmtGrouped t.fmt then
    let ne := groupCols t.fmt t.gaxis t.cols
    (t.sideLines rows).flatMap fun l =>
      if t.zsep then [(t.xbase + l.2 * t.xstride, 2 * ne), (t.zbase + l.2 * (t.xstride / 2), ne)]
      else [(t.xbase + l.2 * t.xstride, 4 * ne)]
  else if t.sp then rows.map fun r => (t.xbase + r.1 * t.xstride, 4 * (t.cols / (t.nkeep + 1)))
  else []

/-- The mask of a zero point: bits 3:0 for Q4 (R282). -/
def zeroMask (fmt : Nat) : Nat := if fmt < 19 then 16 else 256

/-- The entries of a group line as memory holds them, scale and zero point (R282). -/
def groupEntries (fmt : Nat) (zsep : Bool) (ne : Nat) (xs zs : List Byte) : List Nat :=
  (List.range ne).map fun c =>
    if zsep then bytesAt xs (2 * c) 2 + (bytesAt zs c 1 % zeroMask fmt) * 65536
    else bytesAt xs (4 * c) 2 + (bytesAt xs (4 * c + 2) 1 % zeroMask fmt) * 65536

/-- The side store that a load makes (R276, R277, R283). -/
def sideLoad (w : Who) (t : Str) (rows : List (Nat × Nat)) : A (BitVec 8192) := do
  if fmtGrouped t.fmt then
    let ne := groupCols t.fmt t.gaxis t.cols
    let v ← (t.sideLines rows).foldlM (fun acc l => do
      let xs ← readAt w t.loc (addrOf (t.xbase + l.2 * t.xstride)) (if t.zsep then 2 * ne else 4 * ne)
      let zs ← if t.zsep then readAt w t.loc (addrOf (t.zbase + l.2 * (t.xstride / 2))) ne else pure []
      return acc ||| packNats 32 (groupEntries t.fmt t.zsep ne xs zs) <<< (32 * ne * l.1)) 0
    return BitVec.ofNat 8192 v
  else if t.sp then
    let g := t.cols / (t.nkeep + 1)
    let v ← (List.range t.rows).foldlM (fun acc i => do
      let m ← if rows.any (·.1 == i) then leNat <$> readAt w t.loc (addrOf (t.xbase + i * t.xstride)) (4 * g)
              else pure (packNats 32 (List.replicate g (2 ^ (t.nkeep + 1) - 1)))
      return acc ||| m <<< (128 * i)) 0
    return BitVec.ofNat 8192 v
  else return 0

/-- The side data that a store writes (R277, R282): bits and bytes that a load ignores are written as zero. -/
def sideStore (w : Who) (t : Str) (side : BitVec 8192) (rows : List (Nat × Nat)) : A Unit := do
  if fmtGrouped t.fmt then
    let ne := groupCols t.fmt t.gaxis t.cols
    (t.sideLines rows).foldlM (fun _ l => do
      let es := (List.range ne).map fun c => fld side (32 * (l.1 * ne + c)) 32
      if t.zsep then
        writeAt w t.loc (addrOf (t.xbase + l.2 * t.xstride)) (leBytes (2 * ne) (packNats 16 es))
        writeAt w t.loc (addrOf (t.zbase + l.2 * (t.xstride / 2)))
          (leBytes ne (packNats 8 (es.map fun x => x / 65536 % zeroMask t.fmt)))
      else
        writeAt w t.loc (addrOf (t.xbase + l.2 * t.xstride))
          (leBytes (4 * ne) (packNats 32 (es.map fun x => x % 65536 + (x / 65536 % zeroMask t.fmt) * 65536)))) ()
  else if t.sp then
    let g := t.cols / (t.nkeep + 1)
    rows.foldlM (fun _ r =>
      writeAt w t.loc (addrOf (t.xbase + r.1 * t.xstride)) (leBytes (4 * g) (fld side (128 * r.1) (32 * g)))) ()
  else return ()

/-! ## Steps 4 and 5 of R158 -/

/-- The alignment of an element width (R158). -/
def strAlign (b : Nat) : Nat := if b = 16 || b = 48 then 2 else if b = 32 then 4 else 1

/-- The lowest address of a range from an address of the space that fails R40, R41 or R42. -/
def badFrom (s : State) (w : Who) (loc : Bool) (a n : Nat) : Option Nat :=
  if n = 0 then none
  else if loc then (localCuts a n).findSome? fun c => if (localOk s w c.1 c.2).isSome then none else some c.1
  else if a + n ≤ 2 ^ 57 then none
  else some (max a (2 ^ 57))

/-- The lowest address of a range that fails R40, R41 or R42. A range that starts below 0 has its first bytes at the top of
the 64-bit addresses, and goes on at 0. -/
def badAddr (s : State) (w : Who) (loc : Bool) (a : Int) (n : Nat) : Option Nat :=
  if n = 0 then none
  else if a < 0 then some ((badFrom s w loc 0 (a + n).toNat).getD (addrOf a))
  else badFrom s w loc a.toNat n

/-- The least of a list of addresses. -/
def leastOf (l : List Nat) : Option Nat := l.min?

/-- Step 5 of R158: no address of the ranges fails. -/
def strRange (w : Who) (t : Str) (spans : List (Int × Nat)) : M Unit := do
  let s ← get
  match leastOf (spans.filterMap fun r => badAddr s w t.loc r.1 r.2) with
  | some a => trap cAccess (dw a)
  | none => pure ()

/-- Steps 4 and 5 of R158 for ranges of elements and of side data. -/
def strAddrs (w : Who) (t : Str) (b : Nat) (elems side : List (Int × Nat)) : M Unit := do
  let e : Int := strAlign b
  need (t.base % e == 0 && t.rstride % e == 0 && t.bstride % e == 0) cAlign (dw t.base)
  if fmtGrouped t.fmt || t.sp then
    let x : Int := if fmtGrouped t.fmt && t.zsep then 2 else 4
    need (t.xbase % x == 0 && t.xstride % x == 0) cAlign (dw t.xbase)
  strRange w t (elems ++ side)

/-- A store whose bytes lie in a spill area is refused before it starts (R251): the lowest of its pieces that does. -/
def noSpill (w : Who) (t : Str) (spans : List (Int × Nat)) : M Unit := do
  let s ← get
  let hit (a n : Nat) : Bool := (s.lookup w a).any fun l => s.regions.any (·.touchesSpill l.pa (min n (16384 - a % 16384)))
  let bad := spans.flatMap fun r =>
    let a := addrOf r.1
    (granules a r.2).filter fun g => hit g (a + r.2 - g)
  match t.loc, leastOf bad with
  | false, some a => trap cAccess (dw a)
  | _, _ => pure ()

/-- The byte ranges of pieces. -/
def segSpans (b : Nat) (l : List Seg) : List (Int × Nat) := l.map fun g => (g.a, g.bytes b)

/-! ## Elements in memory -/

/-- The elements of pieces packed row-major at `b` bits in a matrix of `cols` columns. -/
def loadSegs (w : Who) (t : Str) (b : Nat) (segs : List Seg) : A Nat :=
  segs.foldlM (fun acc g => do
    let bs ← readAt w t.loc (addrOf g.a) (g.bytes b)
    return acc ||| (leNat bs % 2 ^ (g.n * b)) <<< ((g.row * t.cols + g.col) * b)) 0

/-- The elements of pieces written from a packed matrix; a nibble that is not stored keeps the value read (R160). -/
def storeSegs (w : Who) (t : Str) (b : Nat) (data : Nat) (segs : List Seg) : A Unit :=
  segs.foldlM (fun _ g => do
    let v := (data >>> ((g.row * t.cols + g.col) * b)) % 2 ^ (g.n * b)
    let n := g.bytes b
    if g.n * b % 8 = 0 then writeAt w t.loc (addrOf g.a) (leBytes n v)
    else do
      let old ← readAt w t.loc (addrOf (g.a + (n - 1 : Nat))) 1
      writeAt w t.loc (addrOf g.a) (leBytes n (v + (leNat old / 16) <<< (8 * n - 4)))) ()

/-! ## Shapes and tiles -/

/-- Rows, columns and width code of a granted shape (R25). -/
def shRows (sh : BitVec 19) : Nat := fld sh 0 8
def shCols (sh : BitVec 19) : Nat := fld sh 8 8
def shWcode (sh : BitVec 19) : Nat := fld sh 16 3

/-- The fields of a tile control register (R25). -/
def Tile.fmt (t : Tile) : Nat := fld t.tc 19 5
def Tile.sp (t : Tile) : Bool := bit t.tc 24
def Tile.nkeep (t : Tile) : Nat := fld t.tc 25 5
def Tile.gax (t : Tile) : Bool := bit t.tc 30

/-- A tile control register with a shape and the fields of a load (R26). -/
def mkTc (sh : BitVec 19) (fmt : Nat) (sp : Bool) (nkeep : Nat) (gax : Bool) : BitVec 64 :=
  dw (sh.toNat + fmt * 2 ^ 19 + sp.toNat * 2 ^ 24 + nkeep * 2 ^ 25 + gax.toNat * 2 ^ 30)

/-- Element `k` of a tile in row-major order, `b` bits wide (log 11). -/
def Tile.el (t : Tile) (b k : Nat) : Nat := fld t.data (b * k) b

/-- The elements of a tile as integers, signed or unsigned by its format. -/
def Tile.ints (t : Tile) (n : Nat) : List Int :=
  let b := fmtBits t.fmt
  let sg := match fmtInt t.fmt with
    | some (sg, _) => sg
    | none => false
  (List.range n).map fun k => if sg then toSigned b (t.el b k) else (t.el b k : Int)

/-- The elements of an index tile (R122); those of a padded row are 0 (R24). -/
def Tile.index (t : Tile) (n : Nat) : List Int :=
  (t.ints n).zipIdx.map fun p => if bit t.mask (p.2 / fld t.tc 8 8) then 0 else p.1

/-- A tile may serve as an index tile (R122, R161). -/
def Tile.indexOk (t : Tile) : Bool := [6, 7, 8, 9, 10, 11, 12, 15].contains t.fmt && !t.sp

/-- A tile that an entry names has a granted shape (R26). -/
def shaped (l : List (BitVec 19)) : M Unit := needX (l.all fun sh => shRows sh != 0) cShape

/-- A tile, or an accumulator, written at completion. -/
def Eff.ofTile (t : BitVec 4) (v : Tile) : Eff := ⟨[(t.toNat, v)], [], [], 0⟩
def Eff.ofAcc (a : BitVec 2) (v : Acc) : Eff := ⟨[], [(a.toNat, v)], [], 0⟩

/-- A mask with the bits of some rows set. -/
def rowMask (l : List Nat) : BitVec 128 := l.foldl (fun m i => setBit m i true) 0

/-- The units of an entry that are still to be done: from its progress to where a pre-emption stops it (R324). -/
def Entry.does (e : Entry) (i : Nat) : Bool := decide (e.progress ≤ i) && e.stopAt.all fun n => decide (i < n)

/-- Step 2 and step 3 of a sparse stream (R277). -/
def sparseFmt (t : Str) : M Unit :=
  needX (!t.sp || [1, 2, 4, 5, 6, 7, 9, 10, 11, 12].contains t.fmt) cFormat
def sparseShape (t : Str) : M Unit :=
  needX (!t.sp || (1 ≤ t.rows && t.rows ≤ 32 && t.cols % (t.nkeep + 1) == 0 && 1 ≤ t.cols / (t.nkeep + 1) &&
    t.cols / (t.nkeep + 1) ≤ 4)) cShape

/-- Old data with the units that an entry does, of `w` bits each, from new data (R324). An entry that goes to its end takes
all that lies above its progress from the new data. -/
def mergeRows (e : Entry) (old new w : Nat) : Nat :=
  let lo := e.progress * w
  match e.stopAt with
  | none => old % 2 ^ lo + (new >>> lo) <<< lo
  | some n => old % 2 ^ lo + (new % 2 ^ (n * w) >>> lo) <<< lo + (old >>> (n * w)) <<< (n * w)

/-! ## Loads (R16, R160-R162) -/

/-- The rows of a tile load: valid tile rows and their memory rows. -/
def loadTile (e : Entry) (t : Str) (sh : BitVec 19) (old : Tile) (rows : List (Nat × Nat)) : M Tile := do
  let c ← getC
  let w := c.who false 0
  let b := fmtBits t.fmt
  let segs := t.segs b (rows.filter fun r => e.does r.1)
  strAddrs w t b (segSpans b (t.segs b rows)) (t.sideSpans rows)
  let new ← acc (loadSegs w t b segs)
  let data := mergeRows e old.data.toNat new (t.cols * b)
  if e.stopAt.isSome then return { old with data := BitVec.ofNat 32768 data }
  let side ← acc (sideLoad w t rows)
  let pad := (List.range t.rows).filter fun i => !rows.any (·.1 == i)
  return { data := BitVec.ofNat 32768 data, side := side, mask := rowMask pad,
           tc := mkTc sh t.fmt t.sp t.nkeep (fmtGrouped t.fmt && t.gaxis) }

/-- `ld.t` (R160). -/
def performLdT (st : Reg) (tile : BitVec 4) (e : Entry) : M Eff := do
  shaped [e.shT]
  let t ← streamOf .tile st e
  needX (fmtIsTile t.fmt && fmtWcode t.fmt == shWcode e.shT) cFormat
  sparseFmt t
  needX (t.rows == shRows e.shT && t.cols == shCols e.shT) cShape
  sparseShape t
  let v ← loadTile e t e.shT ((← getC).tile tile) (t.liveRows.map fun i => (i, i))
  return Eff.ofTile tile v

/-- The valid rows of `ld.ti` and `st.ti` with their indices (R161). -/
def indexRows (t : Str) (ix : Tile) (shI : BitVec 19) : List (Nat × Nat) :=
  let n := shRows shI * shCols shI
  let lim : Int := if t.ilim = 0 then 2 ^ 32 else t.ilim
  ((ix.index n).zipIdx.filter fun p => p.2 < t.rows && 0 ≤ p.1 && p.1 < lim && (t.vrows = 0 || p.2 < t.vrows)).map
    fun p => (p.2, p.1.toNat)

/-- `ld.ti` (R161). -/
def performLdTi (st : Reg) (tile idx : BitVec 4) (e : Entry) : M Eff := do
  shaped [e.shT, e.shI]
  let t ← streamOf .index st e
  let c ← getC
  needX (fmtIsTile t.fmt && fmtWcode t.fmt == shWcode e.shT && (c.tile idx).indexOk) cFormat
  needX (t.rows == shRows e.shT && t.cols == shCols e.shT) cShape
  let v ← loadTile e t e.shT (c.tile tile) (indexRows t (c.tile idx) e.shI)
  return Eff.ofTile tile v

/-- The FIFO bank that a stream names (R162). -/
def fifoBank (t : Str) : M Nat := do
  let c ← getC
  match localParts c.id t.base with
  | some (id, b, o) =>
    need (t.loc && id == c.id && o == 0 && c.bankMode b == 2) cAccess (dw t.base)
    return b
  | none => trap cAccess (dw t.base)

/-- The bytes that a FIFO holds (R212). -/
def fifoLen (w : Dword) : Nat := (fld w 0 32 + 2 ^ 32 - fld w 32 32) % 2 ^ 32

/-- A byte range of a FIFO bank, wrapped at its end: offsets and lengths. Byte k of the FIFO stands at offset k mod 131,072, and a
byte that has been removed stays there (log 122). -/
def fifoCuts (o n : Nat) : List (Nat × Nat) :=
  let o := o % 131072
  if o + n ≤ 131072 then [(o, n)] else [(o, 131072 - o), (0, n - (131072 - o))]

/-- The format and shape rules of `ld.ff` and `ld.t` alike. -/
def fifoBytes (t : Str) : Nat := (t.rows * t.cols * fmtBits t.fmt + 7) / 8

/-- `ld.ff` (R162). A FIFO holds elements alone: the side store of a grouped tile is free (log 135). -/
def performLdFf (st : Reg) (tile : BitVec 4) (e : Entry) : M Eff := do
  shaped [e.shT]
  let t ← streamOf .fifo st e
  needX (fmtIsTile t.fmt && fmtWcode t.fmt == shWcode e.shT) cFormat
  needX (t.rows == shRows e.shT && t.cols == shCols e.shT) cShape
  need (t.base % strAlign (fmtBits t.fmt) == 0) cAlign (dw t.base)
  let k ← fifoBank t
  let s ← get
  let f := vget s.core.fifo k 0
  let n := fifoBytes t
  if fifoLen f < n then stopWith .wait
  let cuts := fifoCuts (fld f 32 32) n
  match cuts.find? fun p => (linesOf (bankBase s.core.id k + p.1) p.2).any s.bankPoison.contains with
  | some p => fatal cPoison (dw (t.base + p.1))
  | none => pure ()
  let bs := cuts.flatMap fun p => memRead s.bank (bankBase s.core.id k + p.1) p.2
  modC fun c => { c with fifo := vmod c.fifo k fun f => setFld f 32 32 (fld f 32 32 + n) }
  iff' (fmtGrouped t.fmt) (modS fun s => { s with fresh := s.fresh + 1 })
  let side := if fmtGrouped t.fmt then Config.fifoSide s.fresh else 0
  return Eff.ofTile tile ⟨BitVec.ofNat 32768 (leNat bs % 2 ^ (t.rows * t.cols * fmtBits t.fmt)), side, 0,
    mkTc e.shT t.fmt false 0 false⟩

/-- `ld.a` (R16, R103, R116). -/
def performLdA (st : Reg) (a : BitVec 2) (e : Entry) : M Eff := do
  let t ← streamOf .acc st e
  needX (t.fmt == 13 || t.fmt == 14) cFormat
  needX (t.rows == 32 && t.cols == 64) cShape
  let c ← getC
  let w := c.who false 0
  let rows := t.liveRows.map fun i => (i, i)
  strAddrs w t 48 (segSpans 48 (t.segs 48 rows)) []
  let new ← acc (loadSegs w t 48 (t.segs 48 (rows.filter fun r => e.does r.1)))
  let img := BitVec.ofNat 98304 (mergeRows e (c.acc a).img.toNat new 3072)
  if e.stopAt.isSome then return Eff.ofAcc a { c.acc a with img := img }
  return Eff.ofAcc a ⟨img, 0, t.fmt == 14⟩

/-! ## Stores (R103, R160-R163) -/

/-- The format rule of a tile store (R160, R26). -/
def storeFmt (t : Str) (v : Tile) : M Unit :=
  needX (fmtIsTile t.fmt && v.fmt == t.fmt && v.sp == t.sp && v.nkeep == t.nkeep &&
    (!fmtGrouped t.fmt || v.gax == t.gaxis)) cFormat

/-- The addresses at which side data lies over element bytes (R282). -/
def overlapAddrs (elems side : List (Int × Nat)) : List Nat :=
  (elems.flatMap fun r =>
    if side.any (fun q => decide (q.1 < r.1 + r.2) && decide (r.1 < q.1 + q.2)) then
      ((List.range r.2).map fun (i : Nat) => r.1 + (i : Int)).filter fun a => side.any fun q => decide (q.1 ≤ a) && decide (a < q.1 + q.2)
    else []).map addrOf

/-- A byte of a space as it stands. -/
def peekByte (s : State) (w : Who) (loc : Bool) (a : Nat) : Byte :=
  if loc then
    match localOk s w a 1 with
    | some k => memByte s.bank k
    | none => 0
  else
    match s.lookup w a with
    | some l => (s.physBytes l.pa 1).headD 0
    | none => 0

/-- Where side data lies over element bytes, each byte holds the one value or the other (R282; log 9). -/
def mixOverlap (w : Who) (t : Str) (over' : List Nat) (old : List Byte) : M Unit := do
  let n := (← get).fresh
  acc (((over'.zip old).zipIdx).foldlM (fun _ p =>
    if Config.overlapByte (n + p.2) then writeAt w t.loc p.1.1 [p.1.2] else pure ()) ())
  modS fun s => { s with fresh := n + over'.length }

/-- The rows of a tile store. -/
def storeTile (e : Entry) (t : Str) (v : Tile) (rows : List (Nat × Nat)) : M Unit := do
  let c ← getC
  let w := c.whoIn 3 0
  let b := fmtBits t.fmt
  strAddrs w t b (segSpans b (t.segs b rows)) (t.sideSpans rows)
  noSpill w t (segSpans b (t.segs b rows) ++ t.sideSpans rows)
  let rows := rows.filter fun r => e.does r.1
  acc (storeSegs w t b v.data.toNat (t.segs b rows))
  let both := overlapAddrs (segSpans b (t.segs b rows)) (t.sideSpans rows)
  let old := both.map (peekByte (← get) w t.loc)
  acc (sideStore w t v.side rows)
  iff' (!both.isEmpty) (mixOverlap w t both old)

/-- `st.t` (R160). -/
def performStT (st : Reg) (tile : BitVec 4) (e : Entry) : M Eff := do
  shaped [e.shT]
  let t ← streamOf .tile st e
  let v := (← getC).tile tile
  storeFmt t v
  sparseFmt t
  needX (t.rows == shRows e.shT && t.cols == shCols e.shT) cShape
  sparseShape t
  storeTile e t v (t.liveRows.map fun i => (i, i))
  return Eff.none

/-- `st.ti` (R161). -/
def performStTi (st : Reg) (tile idx : BitVec 4) (e : Entry) : M Eff := do
  shaped [e.shT, e.shI]
  let t ← streamOf .index st e
  let c ← getC
  storeFmt t (c.tile tile)
  needX (c.tile idx).indexOk cFormat
  needX (t.rows == shRows e.shT && t.cols == shCols e.shT) cShape
  storeTile e t (c.tile tile) (indexRows t (c.tile idx) e.shI)
  return Eff.none

/-- `st.ff` (R162). -/
def performStFf (st : Reg) (tile : BitVec 4) (e : Entry) : M Eff := do
  shaped [e.shT]
  let t ← streamOf .fifo st e
  let v := (← getC).tile tile
  storeFmt t v
  needX (t.rows == shRows e.shT && t.cols == shCols e.shT) cShape
  need (t.base % strAlign (fmtBits t.fmt) == 0) cAlign (dw t.base)
  let k ← fifoBank t
  let s ← get
  let f := vget s.core.fifo k 0
  let n := fifoBytes t
  if 131072 < fifoLen f + n then stopWith .wait
  let bs := leBytes n (v.data.toNat % 2 ^ (t.rows * t.cols * fmtBits t.fmt))
  let cuts := fifoCuts (fld f 0 32) n
  modS fun s => { s with
    bank := (cuts.foldl (fun (m : List Host.Cell × List Byte) p =>
      (memWrite m.1 (bankBase s.core.id k + p.1) (m.2.take p.2), m.2.drop p.2)) (s.bank, bs)).1,
    bankPoison := cuts.foldl (fun l p => clearPoison l (bankBase s.core.id k + p.1) p.2) s.bankPoison }
  modC fun c => { c with fifo := vmod c.fifo k fun f => setFld f 0 32 (fld f 0 32 + n) }
  return Eff.none

/-- `st.z` (R163). -/
def performStZ (st : Reg) (e : Entry) : M Eff := do
  let t ← streamOf .zero st e
  needX (1 ≤ t.fmt && t.fmt ≤ 15) cFormat
  needX (t.rows != 0 && t.cols != 0) cShape
  let w := (← getC).whoIn 3 0
  let b := fmtBits t.fmt
  let rows := t.liveRows.map fun i => (i, i)
  strAddrs w t b (segSpans b (t.segs b rows)) []
  noSpill w t (segSpans b (t.segs b rows))
  acc (storeSegs w t b 0 (t.segs b (rows.filter fun r => e.does r.1)))
  return Eff.none

/-- `st.a` (R103): the image, then the ovf map of the rows that are not padded. Step 5 of R158 names elements and side data
alone; the addresses of the map take part in it as side data does (log 91). -/
def performStA (st : Reg) (a : BitVec 2) (e : Entry) : M Eff := do
  let t ← streamOf .acc st e
  let c ← getC
  let v := c.acc a
  needX (t.fmt == (if v.float then 14 else 13)) cFormat
  needX (t.rows == 32 && t.cols == 64) cShape
  let w := c.whoIn 3 0
  let live := t.liveRows
  let map := live.map fun (i : Nat) => ((t.base : Int) + 32 * t.rstride + 8 * (i : Int), 8)
  let elems := segSpans 48 (t.segs 48 (live.map fun i => (i, i)))
  strAddrs w t 48 elems map
  noSpill w t (elems ++ map)
  acc (storeSegs w t 48 v.img.toNat (t.segs 48 ((live.filter e.does).map fun i => (i, i))))
  if e.stopAt.isSome then return Eff.none
  acc (live.foldlM (fun _ (i : Nat) =>
    writeAt w t.loc (addrOf ((t.base : Int) + 32 * t.rstride + 8 * i)) (leBytes 8 (fld v.ovf (64 * i) 64))) ())
  return Eff.none

end Sys2Proof.Machine
end

