-- ==== Sys2Proof/Machine/Bitmap.lean ====
section
/-! DEFINITION. The bitmap instructions `bmpfx`, `bmand`, `isx.g` (R257-R259). -/
namespace Sys2Proof.Machine

/-- A tile that an instruction writes whole: the mask and the sparse and group fields are cleared (R24, R258). The side
store, and zero beyond the granted region, are the model's choice (log 92). -/
def plainTile (old : Tile) (sh : BitVec 19) (fmt b : Nat) (xs : List Nat) : Tile :=
  ⟨BitVec.ofNat 32768 (packNats b xs), old.side, 0, mkTc sh fmt false 0 false⟩

/-- A granted shape of 32-bit elements with rows and columns (R259). -/
def isShape (sh : BitVec 19) (rows cols : Nat) : Bool := shWcode sh == 3 && shRows sh == rows && shCols sh == cols

/-- The elements of a bitmap stream, its address steps made (R257, R158). -/
def bitmapOf (t : Str) : M (List Nat) := do
  let w := (← getC).who false 0
  let segs := t.segs 32 [(0, 0)]
  strAddrs w t 32 (segSpans 32 segs) []
  let v ← acc (loadSegs w t 32 segs)
  return (List.range t.cols).map fun e => (v >>> (32 * e)) % 2 ^ 32

/-- The shape of a bitmap stream (R257). -/
def bitmapShape (t : Str) : Bool := t.rows == 1 && t.cols % 2 == 0 && decide (2 ≤ t.cols) && decide (t.cols ≤ 64)

/-- The counts of set bits in all earlier elements. -/
def prefixCounts : Nat → List Nat → List Nat
  | _, [] => []
  | n, x :: xs => n :: prefixCounts (n + popNat 32 x) xs

/-- `bmpfx` (R258). -/
def performBmpfx (st : Reg) (tile : BitVec 4) (e : Entry) : M Eff := do
  shaped [e.shT]
  let t ← streamOf .plain st e
  needX (t.fmt == 15) cFormat
  needX (bitmapShape t && isShape e.shT 2 t.cols) cShape
  let xs ← bitmapOf t
  return Eff.ofTile tile (plainTile ((← getC).tile tile) e.shT 15 32 (xs ++ prefixCounts 0 xs))

/-- `bmand` (R258). -/
def performBmand (st : Reg) (tile rank : BitVec 4) (e : Entry) : M Eff := do
  shaped [e.shT, e.shI]
  let t ← streamOf .plain st e
  let r := (← getC).tile rank
  needX (t.fmt == 15 && r.fmt == 15 && !r.sp) cFormat
  needX (bitmapShape t && isShape e.shT 3 t.cols && shRows e.shI == 2 && shCols e.shI == t.cols) cShape
  let xs ← bitmapOf t
  let el (i j : Nat) : Nat := r.el 32 (i * t.cols + j)
  let cols := List.range t.cols
  return Eff.ofTile tile (plainTile ((← getC).tile tile) e.shT 15 32
    ((xs.zipIdx.map fun p => p.1 &&& el 0 p.2) ++ cols.map (el 1) ++ cols.map (el 0)))

/-- The offsets of the gathered values, in order (R258): the AND's set bits, word by word. -/
def gatherOffsets (i : Tile) (c : Nat) : List Nat :=
  let el (r j : Nat) : Nat := i.el 32 (r * c + j)
  (List.range (c / 2)).flatMap fun w =>
    let a := el 0 (2 * w) + el 0 (2 * w + 1) * 2 ^ 32
    ((List.range 64).filter fun q => a >>> q % 2 = 1).map fun q =>
      let e := 2 * w + q / 32
      el 1 e + popNat 32 (el 2 e % 2 ^ (q % 32))

/-- `isx.g` (R258, R259). -/
def performIsxG (st : Reg) (tile idx : BitVec 4) (e : Entry) : M Eff := do
  shaped [e.shT, e.shI]
  let t ← streamOf .plain st e
  let c ← getC
  let i := c.tile idx
  needX (((1 ≤ t.fmt && t.fmt ≤ 12) || t.fmt == 15) && fmtWcode t.fmt == shWcode e.shT && i.fmt == 15 && !i.sp) cFormat
  let ci := shCols e.shI
  needX (t.rows == 1 && shRows e.shI == 3 && ci % 2 == 0 && 2 ≤ ci && ci ≤ 64) cShape
  let off := gatherOffsets i ci
  let n := shRows e.shT * shCols e.shT
  need (off.length ≤ n) cShape (dw off.length)
  match off.find? (fun o => t.cols ≤ o) with
  | some o => trap cShape (dw o)
  | none => pure ()
  let b := fmtBits t.fmt
  let w := c.who false 0
  need (off.isEmpty || t.base % strAlign b == 0) cAlign (dw t.base)
  strRange w t (off.map fun o => ((t.base : Int) + (o * b / 8 : Nat), max 1 (b / 8)))
  let nc := shCols e.shT
  let old := c.tile tile
  let xs ← acc (off.zipIdx.foldlM (fun l p => do
    if !e.does (p.2 / nc) then return l ++ [if p.2 / nc < e.progress then old.el b p.2 else 0]
    let x := leNat (← readAt w t.loc (t.base + p.1 * b / 8) (max 1 (b / 8)))
    return l ++ [x >>> (p.1 * b % 8) % 2 ^ b]) [])
  if e.stopAt.isSome then
    return Eff.ofTile tile { old with data := BitVec.ofNat 32768 (mergeRows e old.data.toNat (packNats b xs) (nc * b)) }
  return Eff.ofTile tile (plainTile old e.shT t.fmt b xs)

end Sys2Proof.Machine
end

