-- ==== Sys2Proof/Machine/Scalar.lean ====
section
/-! DEFINITION. Scalar loads, stores and atomics (R78-R83), monitors, probes, fences (R84-R88), the loop table
(R89-R91). -/
namespace Sys2Proof.Machine

/-- Alignment of a scalar access (R78). -/
def aligned (a : Dword) (n : Nat) : M Unit := need (a.toNat % n = 0) cAlign a

/-- The FIFO state word of a bank of the issuing core, if a cluster-local address names offset 0 of one (R212). -/
def fifoWord (c : Core) (a : Nat) : Option Dword := do
  let (id, b, o) ← localParts c.id a
  if id == c.id && c.bankMode b == 2 && o == 0 then some (vget c.fifo b 0) else none

/-- The bytes of a scalar load (R78, R79, R212). -/
def loadBytes (sc : BitVec 3) (loc : Bool) (a : Dword) (n : Nat) : M (List Byte) := do
  aligned a n
  let c ← getC
  match loc && n == 8, fifoWord c a.toNat with
  | true, some w => do
    noDet
    return leBytes 8 w.toNat
  | _, _ => acc (readAt (c.who true sc) loc a.toNat n)

/-- A scalar load of `n` bytes, extended as R79 says. -/
def load (sc : BitVec 3) (loc : Bool) (d a : Reg) (x : BitVec 32) (n : Nat) (sg : Bool) : M Flow := do
  let bs ← loadBytes sc loc ((← getC).ea a x) n
  let v := leNat bs
  wG d (if sg then dw (ofSigned 64 (toSigned (8 * n) v)) else dw v)
  return .next

/-- A scalar store of the low `n` bytes of g[b] (R79). -/
def store (sc : BitVec 3) (loc : Bool) (a b : Reg) (x : BitVec 32) (n : Nat) : M Flow := do
  let c ← getC
  let ad := c.ea a x
  aligned ad n
  acc (writeAt (c.who true sc) loc ad.toNat (leBytes n (c.rg b).toNat))
  return .next

/-- `ld.b` (R79). -/
def execLdB (sc : BitVec 3) (loc : Bool) (d a : Reg) (x : BitVec 32) (s : State) : Host.Outcome State Fault Refusal :=
  runSeq 8 (load sc loc d a x 1 true) s
/-- `ld.h` (R79). -/
def execLdH (sc : BitVec 3) (loc : Bool) (d a : Reg) (x : BitVec 32) (s : State) : Host.Outcome State Fault Refusal :=
  runSeq 8 (load sc loc d a x 2 true) s
/-- `ld.w` (R79). -/
def execLdW (sc : BitVec 3) (loc : Bool) (d a : Reg) (x : BitVec 32) (s : State) : Host.Outcome State Fault Refusal :=
  runSeq 8 (load sc loc d a x 4 true) s
/-- `ld.d` (R79). -/
def execLdD (sc : BitVec 3) (loc : Bool) (d a : Reg) (x : BitVec 32) (s : State) : Host.Outcome State Fault Refusal :=
  runSeq 8 (load sc loc d a x 8 false) s
/-- `ld.bu` (R79). -/
def execLdBu (sc : BitVec 3) (loc : Bool) (d a : Reg) (x : BitVec 32) (s : State) : Host.Outcome State Fault Refusal :=
  runSeq 8 (load sc loc d a x 1 false) s
/-- `ld.hu` (R79). -/
def execLdHu (sc : BitVec 3) (loc : Bool) (d a : Reg) (x : BitVec 32) (s : State) : Host.Outcome State Fault Refusal :=
  runSeq 8 (load sc loc d a x 2 false) s
/-- `ld.wu` (R79). -/
def execLdWu (sc : BitVec 3) (loc : Bool) (d a : Reg) (x : BitVec 32) (s : State) : Host.Outcome State Fault Refusal :=
  runSeq 8 (load sc loc d a x 4 false) s

/-- A 64-byte load into a stream register, unchecked (R79). -/
def loadStream (sc : BitVec 3) (loc : Bool) (d a : Reg) (x : BitVec 32) : M Flow := do
  let bs ← loadBytes sc loc ((← getC).ea a x) 64
  modC (·.setS d (leVec 512 bs))
  return .next

/-- `sld` (R79). -/
def execSld (sc : BitVec 3) (loc : Bool) (d a : Reg) (x : BitVec 32) (s : State) : Host.Outcome State Fault Refusal :=
  runSeq 8 (loadStream sc loc d a x) s

/-- `st.b` (R79). -/
def execStB (sc : BitVec 3) (loc : Bool) (a b : Reg) (x : BitVec 32) (s : State) : Host.Outcome State Fault Refusal :=
  runSeq 8 (store sc loc a b x 1) s
/-- `st.h` (R79). -/
def execStH (sc : BitVec 3) (loc : Bool) (a b : Reg) (x : BitVec 32) (s : State) : Host.Outcome State Fault Refusal :=
  runSeq 8 (store sc loc a b x 2) s
/-- `st.w` (R79). -/
def execStW (sc : BitVec 3) (loc : Bool) (a b : Reg) (x : BitVec 32) (s : State) : Host.Outcome State Fault Refusal :=
  runSeq 8 (store sc loc a b x 4) s
/-- `st.d` (R79). -/
def execStD (sc : BitVec 3) (loc : Bool) (a b : Reg) (x : BitVec 32) (s : State) : Host.Outcome State Fault Refusal :=
  runSeq 8 (store sc loc a b x 8) s

/-- An atomic of `n` bytes (R81): the old value, and the new value where it writes. A scope wider than CO is a
determinism violation in deterministic mode (R83); a write permission is needed whatever the comparison gives, before
anything is read. -/
def atomic (sc : BitVec 3) (a : Reg) (x : BitVec 32) (n : Nat) (f : Nat → Core → Option Nat × BitVec 6) : M Nat := do
  if sc != 0 then noDet
  let c ← getC
  let ad := c.ea a x
  aligned ad n
  let w := { c.who true sc with excl := true }
  acc (gProbe w .w ad.toNat n)
  let old := leNat (← acc (gRead w ad.toNat n))
  let (new, fl) := f old c
  match new with
  | some v => acc (gWrite w ad.toNat (leBytes n v))
  | none => pure ()
  orF fl
  return old

/-- An atomic whose old value goes to d. -/
def atomicTo (sc : BitVec 3) (d a : Reg) (x : BitVec 32) (n : Nat) (f : Nat → Core → Option Nat × BitVec 6) : M Flow := do
  let old ← atomic sc a x n f
  wG d (dw old)
  return .next

/-- `amo.add` (R81). -/
def execAmoAdd (sc : BitVec 3) (d a b : Reg) (x : BitVec 32) (s : State) : Host.Outcome State Fault Refusal :=
  runSeq 8 (atomicTo sc d a x 8 fun old c => (some (old + (c.rg b).toNat), 0)) s
/-- `amo.swap` (R81). -/
def execAmoSwap (sc : BitVec 3) (d a b : Reg) (x : BitVec 32) (s : State) : Host.Outcome State Fault Refusal :=
  runSeq 8 (atomicTo sc d a x 8 fun _ c => (some (c.rg b).toNat, 0)) s
/-- `amo.cas`: g[d] supplies the expected value (R81). -/
def execAmoCas (sc : BitVec 3) (d a b : Reg) (x : BitVec 32) (s : State) : Host.Outcome State Fault Refusal :=
  runSeq 8 (atomicTo sc d a x 8 fun old c =>
    (if old = (c.rg d).toNat then some (c.rg b).toNat else none, 0)) s
/-- `amo.fadd` (R81, R82). -/
def execAmoFadd (sc : BitVec 3) (d a b : Reg) (x : BitVec 32) (s : State) : Host.Outcome State Fault Refusal :=
  runSeq 8 (atomicTo sc d a x 4 fun old c =>
    let r := fp32Add (BitVec.ofNat 32 old) (lo32 (c.rg b)); (some r.1.toNat, r.2)) s

/-! ## Monitor and wait (R84, R85) -/

/-- Arm the watch on a line (R84). The rule does not say which permission the translation of R78 needs here: read, as for a
load (log 93). -/
def armWatch (a : Reg) (sc : BitVec 3) : M Flow := do
  noDet
  let c ← getC
  let v := c.rg a
  need (vaOk v.toNat 1) cAccess v
  let pa ← acc (transl (c.who true sc) .r v.toNat)
  modC fun c => { c with watch := some ⟨v.toNat / 64, pa / 64, sc, false⟩ }
  return .next

/-- `mon.arm` (R84). -/
def execMonArm (a : Reg) (sc : BitVec 3) (s : State) : Host.Outcome State Fault Refusal := runSeq 4 (armWatch a sc) s

/-- `mon.wait` returns with a code and disarms the watch (R85). -/
def monReturn (d : Reg) (code : Nat) : M Flow := do
  wG d (dw code)
  modC fun c => { c with commit := .none, watch := none, asleep := false, timedOut := false, deadline := 0, woken := false }
  return .next

/-- Sleep until the watch fires or the time passes, clamped to 2^40 (R85); one that a pre-emption interrupted is
complete with result 0 (R325). -/
def monWaitOp (d a : Reg) : M Flow := do
  noDet
  let s ← get
  let c := s.core
  if c.commit = .monDone then return (← monReturn d 0)
  match c.watch with
  | none => monReturn d 2
  | some w =>
    if w.fired then monReturn d 0
    else if c.rg a = 0 || c.timedOut then monReturn d 1
    else if c.asleep then return .stay
    else do
      modC fun c => { c with asleep := true, deadline := s.now + min (c.rg a).toNat (2 ^ 40), stall := 0 }
      return .stay

/-- `mon.wait` (R85). -/
def execMonWait (d a : Reg) (s : State) : Host.Outcome State Fault Refusal := runSeq 4 (monWaitOp d a) s

/-! ## Range probes (R86, R87) -/

/-- The first granule of a range that a probe cannot pass (R86, R240, R301). -/
def probeFail (w : Who) (p : Perm) (s : State) (va n : Nat) : Option (Nat × Bool) :=
  (granules va n).findSome? fun a =>
    match s.walk w.part a with
    | none => some (a, false)
    | some l => if !l.grants p then some (a, false) else if s.poolLost l.pa then some (a, true) else none

/-- The translations of a range that a pin keeps (R86): each leaf once, with the first address of the range in it. -/
def pinLeaves (s : State) (p : BitVec 5) (va n : Nat) : List (Nat × Leaf) :=
  ((granules va n).foldl (fun (l : List (Nat × Leaf)) a =>
    match l with
    | x :: _ => if a / 2 ^ leafBits x.2.level = x.1 / 2 ^ leafBits x.2.level then l
                else ((s.walk p a).map fun f => (a, f)).toList ++ l
    | [] => ((s.walk p a).map fun f => (a, f)).toList) []).reverse

/-- A range probe (R86): it waits for the queues, checks the length, walks, and pins. An empty range reaches beyond 2^57 when
it starts above it (log 94). -/
def probe (p : Perm) (a b : Reg) : M Flow := do
  waitQuiet
  let s ← get
  let c := s.core
  let va := c.rg a
  let n := c.rg b
  need (n.toNat ≤ 2 ^ 36 && vaOk va.toNat n.toNat) cAccess va
  match probeFail (c.who true 0) p s va.toNat n.toNat with
  | some (_, true) => trapX cPoolLost
  | some (f, false) => trap cPage (dw f)
  | none => do
    if n != 0 then
      need (c.pins.length < 16) cPinOverflow va
      modC fun c => { c with pins := c.pins ++ [⟨va, n, p == .w, false, pinLeaves s c.partid va.toNat n.toNat⟩] }
    return .next

/-- `prb.r` (R86). -/
def execPrbR (a b : Reg) (s : State) : Host.Outcome State Fault Refusal := runSeq 4 (probe .r a b) s
/-- `prb.w` (R86). -/
def execPrbW (a b : Reg) (s : State) : Host.Outcome State Fault Refusal := runSeq 4 (probe .w a b) s

/-- The pin list without its newest entry of a base and length (R87). -/
def dropPin (base len : Dword) (l : List Pin) : List Pin :=
  match l.reverse.findIdx? (fun p => p.base == base && p.len == len) with
  | some i => (l.reverse.eraseIdx i).reverse
  | none => l

/-- `prb.rel` (R87). -/
def execPrbRel (a b : Reg) (s : State) : Host.Outcome State Fault Refusal :=
  runSeq 4 (do
    modC fun c => { c with pins := dropPin (c.rg a) (c.rg b) c.pins }
    return .next) s

/-! ## Fence (R88) -/

/-- A store of a core's sequencer or queues, or of the same member of its task on another core before a pre-emption. -/
def Core.made (c : Core) (core : BitVec 11) (agent task member : Nat) : Bool :=
  decide (agent < 4) && (core == c.id || (task == (c.who true 0).task && member == c.teamid.toNat))

/-- The stores of a core that a scope still waits for. Those to a peer's line and to the host perform nowhere below DM and
SY, so every scope waits for them (R234, R238, R314); pool stores at PL and SY (R239). A lost pool store ends the context
(R240). -/
def waitFar (sc : BitVec 3) : M Unit := do
  let s ← get
  let own (p : PoolStore) : Bool := s.core.made p.core p.agent p.task p.member
  if 5 ≤ sc.toNat && s.poolStores.any (fun p => own p && p.ctx == s.core.ctx && p.lost) then fatal cPoolFatal 0
  if 5 ≤ sc.toNat && s.poolStores.any (fun p => own p && !p.lost) then stopWith .wait
  if s.remote.any (fun r => s.core.made r.core r.agent r.task r.member) then stopWith .wait
  if s.hostStores.any own then stopWith .wait

/-- An engine's stores that its scope still waits for (R234, R239, R242). -/
def State.engineFar (s : State) (unit : Nat) (sc : BitVec 3) : Bool :=
  s.remote.any (·.agent == unit) || s.hostStores.any (·.agent == unit) ||
  (decide (5 ≤ sc.toNat) && s.poolStores.any fun p => p.agent == unit && !p.lost)

/-- The commands of the engines of chapters 24 and 26. -/
def State.commands (s : State) : List Command :=
  s.sampler.toList.flatten ++ s.accept.toList.flatten ++ s.experts.toList.flatten ++ s.prefetch.toList.flatten ++
  s.tok.toList.filterMap (·.run) ++ s.dtk.toList.filterMap (·.run)

/-- The number of a channel as an agent. -/
def chanUnit (k : Nat) : Nat := 8 + k

/-- An engine has a transfer under way. -/
def State.transfers (s : State) (unit : Nat) : Bool :=
  (decide (8 ≤ unit && unit < 520) && (vget s.channels (unit - 8) Channel.reset).run.isSome) || s.commands.any (·.unit == unit)

/-- A store to the pool that a fence waits for whoever made it: its core may have read it at the home slice (R230). The transfers
that an engine has under way are no such stores (R88). -/
def PoolStore.fenced (p : PoolStore) (s : State) : Bool := !p.lost && (p.retired || !s.transfers p.agent)

/-- `fence` (R88). It is cumulative (R230): at PL and SY it waits for the stores of other agents to the pool too (log 111). -/
def execFence (sc : BitVec 3) (s : State) : Host.Outcome State Fault Refusal :=
  runSeq 4 (do
    waitQuiet
    waitFar sc
    let s ← get
    if 5 ≤ sc.toNat && s.poolStores.any (·.fenced s) then
      if s.core.commit = .fence then stopWith .wait
      modC fun c => { c with commit := .fence }
      return .stay
    iff' (s.core.commit = .fence) (modC fun c => { c with commit := .none })
    return .next) s

/-- The sequencer decodes no further word: an access of its last one is not performed at its own scope yet (R224, R225, R228,
R234; log 111). -/
def State.seqFar (s : State) : Bool :=
  let own (core : BitVec 11) (agent task member : Nat) : Bool := agent == 0 && s.core.made core agent task member
  s.remote.any (fun r => own r.core r.agent r.task r.member) || s.hostStores.any (fun r => own r.core r.agent r.task r.member) ||
  s.poolStores.any fun r => own r.core r.agent r.task r.member && decide (5 ≤ r.scope.toNat) && !r.lost

/-! ## The loop table (R89-R91) -/

/-- A word that breaks R89. -/
def loopWordBad (w : Dword) : Bool :=
  (fld w 62 2 = 0 && w != 0) || fld w 32 29 != 0 ||
  (fld w 62 2 != 0 && (if bit w 61 then fld w 0 32 % 8 != 0 else fld w 0 32 = 0))

/-- One level of `lpt.ld` (R90). -/
def loopLevel (a : Reg) (l : Nat) : M Unit := do
  let c ← getC
  let bs ← loadBytes 0 false (c.rg a + dw (8 * l)) 8
  let w : Dword := leVec 64 bs
  need (!loopWordBad w) cLoopTable w
  let trips ← (do
    if bit w 61 then
      let t : Dword := leVec 64 (← loadBytes 0 false (recFrame c.record + zext (w.setWidth 32)) 8)
      need (t != 0 && t.toNat < 2 ^ 32) cLoopTable t
      return t
    else return zext (w.setWidth 32))
  need (!(fld w 62 2 = 2 && trips.toNat != c.teamsz.toNat)) cLoopTable trips
  let idx : BitVec 32 :=
    match fld w 62 2 with
    | 2 => c.teamid.setWidth 32
    | 3 => c.inst.setWidth 32
    | _ => 0
  modC fun c => { c with loops := vmod c.loops l fun _ => ⟨w.extractLsb' 62 2, trips.setWidth 32, idx⟩ }

/-- `lpt.ld`: four doubleword loads (R90). -/
def execLptLd (a : Reg) (s : State) : Host.Outcome State Fault Refusal :=
  runSeq 4 (do
    each [0, 1, 2, 3] (loopLevel a)
    return .next) s

/-- The loop level that g[a] names, if it is in use (R90). -/
def loopNamed (a : Reg) : M (Nat × Loop) := do
  let c ← getC
  let v := c.rg a
  need (v.toNat ≤ 3) cLoopTable v
  let l := vget c.loops v.toNat Loop.unused
  need (l.kind != 0) cLoopTable v
  return (v.toNat, l)

/-- `lpt.nx` (R90). -/
def execLptNx (d a : Reg) (s : State) : Host.Outcome State Fault Refusal :=
  runSeq 4 (do
    let (n, l) ← loopNamed a
    need (l.kind = 1) cLoopTable (dw n)
    if l.idx.toNat + 1 < l.trips.toNat then
      modC fun c => { c with loops := vmod c.loops n fun l => { l with idx := l.idx + 1 } }
      wG d 1
    else
      modC fun c => { c with loops := vmod c.loops n fun l => { l with idx := 0 } }
      wG d 0
    return .next) s

/-- `lpt.ix` (R90). -/
def execLptIx (d a : Reg) (s : State) : Host.Outcome State Fault Refusal :=
  runSeq 4 (do
    let (_, l) ← loopNamed a
    wG d (zext l.idx)
    return .next) s

end Sys2Proof.Machine
end

