-- ==== Sys2Proof/Machine/Sync.lean ====
section
/-! DEFINITION. Synchronisation objects (R126, R127, R132, R135-R138, R141, R182-R192): barriers, rings, the event queue,
join counters, continuation queues. The operations serve the sequencer and the queues alike. -/
namespace Sys2Proof.Machine

/-! ## Barriers (R126, R127, R182) -/

/-- An agent that makes no tag: synchronisation objects carry none (R153). -/
def Who.untagged (w : Who) : Who := { w with det := false }
/-- An access that reads what it writes. -/
def Who.exclusive (w : Who) : Who := { w with excl := true }

/-- The place of a barrier in the bank list, with its two doublewords (R127). -/
def barrierAt (av : Dword) : M (Nat × Dword × Dword) := do
  need (av.toNat % 16 = 0) cAlign av
  let s ← get
  match localOk s (s.core.who true 0) av.toNat 16 with
  | none => trap cAccess av
  | some k =>
    if (linesOf k 16).any s.bankPoison.contains then fatal cPoison av
    return (k, leVec 64 (memRead s.bank k 8), leVec 64 (memRead s.bank (k + 8) 8))

/-- A wait of an agent on an object (R182, R183): the sequencer is agent 0. -/
def Core.waitsOn (c : Core) (agent : Nat) (ring : Bool) (place : Nat) : Option ObjWait :=
  c.objWaits.find? fun w => w.agent == agent && w.ring == ring && w.place == place

/-- An object has released the wait of an agent on it: the agent takes the access-fault trap (R182, R183). -/
def releasedTrap (agent : Nat) (ring : Bool) (place : Nat) (tval : Dword) : M Unit := do
  need (!((← getC).waitsOn agent ring place).any (·.released)) cAccess tval

/-- An agent begins to wait on an object, or goes on; answers whether it begins. -/
def beginWait (agent : Nat) (ring : Bool) (place : Nat) : M Bool := do
  if ((← getC).waitsOn agent ring place).isSome then return false
  modC fun c => { c with objWaits := c.objWaits ++ [⟨agent, ring, place, false⟩] }
  return true

/-- The wait of an agent ends. -/
def endWait (agent : Nat) : M Unit := modC fun c => { c with objWaits := c.objWaits.filter (·.agent != agent) }

/-- The waits on objects released: those on rings, or those on barriers, in a range of places (R182, R183). -/
def releaseWaits (ring : Bool) (lo n : Nat) (s : State) : State :=
  let f (c : Core) : Core := { c with objWaits := c.objWaits.map fun w =>
    if w.ring == ring && lo ≤ w.place && w.place < lo + n then { w with released := true } else w }
  { s with core := f s.core, others := s.others.map f }

/-- How a word or an entry that may wait comes out: made, or it waits, and says whether it has changed anything. -/
inductive Waits where
  | made
  | waits (changed : Bool)
deriving DecidableEq, Repr

/-- The sequencer after such a word. -/
def Waits.flow : Waits → M Flow
  | .made => return .next
  | .waits true => return .stay
  | .waits false => stopWith .wait

/-- A barrier written. -/
def putBarrier (k : Nat) (d0 d1 : Dword) (s : State) : State :=
  { s with bank := memWrite s.bank k (leBytes 8 d0.toNat ++ leBytes 8 d1.toNat) }

/-- Arrived, pending and need. -/
def barArrived (d0 : Dword) : Nat := fld d0 36 12
def barPending (d0 : Dword) : Int := toSigned 36 (fld d0 0 36)
def barNeed (d1 : Dword) : Nat := fld d1 0 12

/-- `complete_check` (R127). -/
def completeCheck (d0 d1 : Dword) : Dword :=
  if barArrived d0 = barNeed d1 && barPending d0 = 0 then setBit (setFld d0 36 12 0) 63 (!bit d0 63) else d0

/-- Pending after a change by `v` bytes; none when it leaves the counter's range (R127, R130). -/
def addPending (d0 : Dword) (v : Int) : Option Dword :=
  let p := barPending d0 + v
  if p < -(2 ^ 35 : Int) || (2 ^ 35 : Int) ≤ p then none else some (setFld d0 0 36 (ofSigned 36 p))

/-- An engine's delivery of `n` bytes to a barrier (R130): out of range it sets rng instead. -/
def deliver (k n : Nat) (s : State) : State :=
  let d0 : Dword := leVec 64 (memRead s.bank k 8)
  let d1 : Dword := leVec 64 (memRead s.bank (k + 8) 8)
  match addPending d0 (-(n : Int)) with
  | some d => putBarrier k (completeCheck d d1) d1 s
  | none => putBarrier k (setBit d0 62 true) d1 s

/-- `bar.init` (R127). -/
def barInitOp (av bv : Dword) : M Unit := do
  let (k, _, _) ← barrierAt av
  needX (bv.toNat ≤ 4095) cBarrier
  modS (putBarrier k 0 bv)

/-- `bar.exp` (R127, R182). -/
def barExpOp (av bv : Dword) (sc : BitVec 3) : M Unit := do
  let (k, d0, d1) ← barrierAt av
  needX (!bit d0 62) cBarrier
  match addPending d0 bv.toInt with
  | none => trapX cBarrier
  | some d => do
    waitFar sc
    modS (putBarrier k (completeCheck d d1) d1)

/-- `bar.arr` (R127, R182): arrivals at a barrier whose need is `teamsz` count in A (R153). -/
def barArrOp (av : Dword) (sc : BitVec 3) : M Unit := do
  let (k, d0, d1) ← barrierAt av
  needX (!bit d0 62 && decide (barArrived d0 < barNeed d1)) cBarrier
  waitFar sc
  modS (putBarrier k (completeCheck (setFld d0 36 12 (barArrived d0 + 1)) d1) d1)
  modC fun c => if barNeed d1 = c.teamsz.toNat then { c with arrivals := c.arrivals + 1 } else c

/-- `bar.wait` (R127, R182): rng is judged once, before the wait (R130, R198); returns at a barrier whose need is `teamsz`
count in W (R153). -/
def barWaitOp (agent : Nat) (av bv : Dword) : M Waits := do
  let (k, d0, d1) ← barrierAt av
  releasedTrap agent false k av
  needX (!bit d0 62 || ((← getC).waitsOn agent false k).isSome) cBarrier
  if bit d0 63 == bit bv 0 then return .waits (← beginWait agent false k)
  endWait agent
  modC fun c => if barNeed d1 = c.teamsz.toNat then { c with waits := c.waits + 1 } else c
  return .made

/-! ## Hardware rings (R183-R187) -/

/-- The signed difference of two free-running counters (R184). -/
def diff32 (a b : BitVec 32) : Int := (a - b).toInt

/-- The slots of a ring. -/
def HwRing.slots (r : HwRing) : Nat := 2 ^ r.lcount.toNat

/-- The place in the list of the ring that a value names. -/
def ringPlace (c : Core) (v : Dword) : Nat := clusterOf c.id * 64 + v.toNat

/-- The ring that a value names (R185), with its place in the list. -/
def ringAt (v : Dword) : M (Nat × HwRing) := do
  let s ← get
  need (v.toNat ≤ 63) cAccess v
  let k := ringPlace s.core v
  let r := vget s.rings k HwRing.reset
  need (r.part == s.core.partid && r.en) cAccess v
  return (k, r)

/-- A ring replaced. -/
def putRing (k : Nat) (r : HwRing) : M Unit := modS fun s => { s with rings := vmod s.rings k fun _ => r }

/-- Published slots advance while the next claimed slot is filled (R185). -/
def publish : Nat → HwRing → HwRing
  | 0, r => r
  | n + 1, r =>
    if r.tail != r.claim && bit r.f (r.tail.toNat % r.slots) then publish n { r with tail := r.tail + 1 } else r

/-- Free slots advance while the oldest published slot is released (R185). -/
def retire : Nat → HwRing → HwRing
  | 0, r => r
  | n + 1, r =>
    let k := r.head.toNat % r.slots
    if r.head != r.tail && bit r.x k then
      retire n { r with f := setBit r.f k false, x := setBit r.x k false, head := r.head + 1 }
    else r

/-- `ring.cl` (R185). -/
def ringClOp (a b : Reg) : M Flow := do
  noDet
  let (k, r) ← ringAt ((← getC).rg b)
  if diff32 r.claim r.head < r.slots then
    putRing k { r with claim := r.claim + 1 }
    wG a (zext r.claim)
  else wG a (BitVec.allOnes 64)
  return .next

/-- `ring.take` (R185). -/
def ringTakeOp (a b : Reg) : M Flow := do
  noDet
  let (k, r) ← ringAt ((← getC).rg b)
  if r.take != r.tail then
    putRing k { r with take := r.take + 1 }
    wG a (zext r.take)
  else wG a (BitVec.allOnes 64)
  return .next

/-- `ring.fill` (R185). -/
def ringFillOp (av bv : Dword) (sc : BitVec 3) : M Unit := do
  let (k, r) ← ringAt av
  let n : BitVec 32 := bv.setWidth 32
  let d := diff32 n r.head
  need (0 ≤ d && d < r.slots && !bit r.f (n.toNat % r.slots)) cRing (zext n)
  waitFar sc
  let r := if 0 ≤ diff32 n r.claim then { r with claim := n + 1 } else r
  putRing k (publish r.slots { r with f := setBit r.f (n.toNat % r.slots) true })

/-- `ring.rel` (R185). -/
def ringRelOp (av bv : Dword) (sc : BitVec 3) : M Unit := do
  let (k, r) ← ringAt av
  let n : BitVec 32 := bv.setWidth 32
  needX (0 ≤ diff32 n r.head && 0 < diff32 r.tail n && !bit r.x (n.toNat % r.slots)) cRing
  waitFar sc
  let r := if 0 ≤ diff32 n r.take then { r with take := n + 1 } else r
  putRing k (retire r.slots { r with x := setBit r.x (n.toNat % r.slots) true })

/-- A wait on a ring until a condition holds of it (R183, R185). -/
def ringWait (agent : Nat) (av : Dword) (ok : HwRing → Bool) : M Waits := do
  releasedTrap agent true (ringPlace (← getC) av) av
  let (k, r) ← ringAt av
  if !ok r then return .waits (← beginWait agent true k)
  endWait agent
  return .made

/-- `ring.wf` (R185). -/
def ringWfOp (agent : Nat) (av bv : Dword) : M Waits := ringWait agent av fun r => 0 < diff32 r.tail (bv.setWidth 32)

/-- `ring.we` (R185). -/
def ringWeOp (agent : Nat) (av bv : Dword) : M Waits :=
  ringWait agent av fun r => diff32 (bv.setWidth 32) r.head < r.slots

/-! ## The event queue (R188-R190) -/

/-- The quota of a partition in a cluster (R395). -/
def evQuota (s : State) (p : BitVec 5) (cl : Nat) : Nat := s.pg p (0x40 + 2 * cl) 2

/-- The events of a cluster. -/
def State.eventsOf (s : State) (cl : Nat) : List Event := vget s.events cl []

/-- The partition has room for one more event in a cluster (R188). -/
def evRoom (s : State) (p : BitVec 5) (cl : Nat) : Bool :=
  ((s.eventsOf cl).filter (·.part == p)).length < evQuota s p cl

/-- An event enters a cluster's queue: a core of the partition there that `pm.idle` stopped wakes (R337). -/
def postEvent (cl : Nat) (ev : Event) (s : State) : State :=
  let wake (c : Core) : Core :=
    if c.commit == .idle && c.partid == ev.part && clusterOf c.id == cl then { c with woken := true } else c
  { s with events := vmod s.events cl (· ++ [ev]), core := wake s.core, others := s.others.map wake }

/-- `evq.post` (R190). -/
def evqPostOp (av bv : Dword) (sc : BitVec 3) : M Unit := do
  let s ← get
  let cl := clusterOf s.core.id
  need (evQuota s s.core.partid cl != 0) cAccess 0
  waitFar sc
  if !evRoom s s.core.partid cl then stopWith .wait
  modS (postEvent cl ⟨s.core.partid, dw (2 * 2 ^ 57 + fld av 0 57), bv⟩)

/-- `evq.pop` (R189). -/
def evqPopOp (a : Reg) : M Flow := do
  noDet
  let s ← get
  let cl := clusterOf s.core.id
  match (s.eventsOf cl).findIdx? (·.part == s.core.partid) with
  | none => stopWith .wait
  | some i =>
    let ev := (s.eventsOf cl).getD i ⟨0, 0, 0⟩
    modS fun s => { s with events := vmod s.events cl (·.eraseIdx i) }
    wG a ev.d0
    wG (a + 1) ev.d1
    return .next

/-! ## Continuation queues (R135-R138, R141) -/

/-- The dies that a queue allows (R136). -/
def Cq.allowed (c : Cq) (die : Nat) : Bool := c.dies = 0 || bit c.dies die

/-- A record whose needs can never be met (R142). -/
def sizeBad (c : Cq) (r : BitVec 256) : Bool :=
  match recKind r with
  | 0 => recSize r != 1
  | 1 => recSize r == 0 || decide (96 < recSize r)
  | 2 => recSize r == 0 || decide (((List.range 8).filter c.allowed).length < recSize r)
  | _ => true

/-- The checks of R138 on a record, but for the stale phase and the ring's translation: the error code. The rule names none
for a code address that is not word-aligned or has bits 63:22 set: such a record gets err 1, as for a reserved field; and the
first of several errors in the order here is the one that is set (log 95). -/
def recordError (s : State) (c : Cq) (p : BitVec 5) (r : BitVec 256) : Option (BitVec 4) :=
  if fld r 202 5 != 0 || fld r 216 8 != 0 || (!recDet r && recPhase r != 0) || recCode r % 4 != 0 ||
     recCode r / 2 ^ 22 != 0 then some 1
  else if recPart r != p.toNat then some 2
  else if recDet r != c.det then some 6
  else if sizeBad c r then some 3
  else if !s.inWindow p (recCode r) 4 then some 4
  else none

/-- A queue sets stop with an error (R138, R390). -/
def stopQueue (q : Nat) (err : BitVec 4) (s : State) : State :=
  let s := refreshBacklog (s.modCq q fun c => { c with stop := true, err := err })
  match s.cqOwner q with
  | some p => raiseInt p 1 s
  | none => s

/-- What a push finds. -/
inductive PushRes where
  | done (s : State) (n : BitVec 32)
  /-- The queue is disabled or stopped. -/
  | off
  | full
  /-- The tail slot has no translation: the queue has set stop and err 8. -/
  | untranslated (s : State)

/-- A push of a record into a queue by an agent (R141): the slot is written and the tail advances, in one step (log 138). -/
def pushRecord (w : Who) (q : Nat) (r : BitVec 256) (s : State) : PushRes :=
  let c := s.cq q
  if !c.en || c.stop || s.cqOwner q != some w.part then .off
  else if c.cap ≤ c.count then .full
  else
    match unitPut (physNow w) w s (c.slotVa c.tail) (leBytes 32 r.toNat) with
    | none => .untranslated (stopQueue q 8 s)
    | some s => .done (refreshBacklog (s.modCq q fun c => { c with tail := c.tail + 1 })) c.tail

/-- `cq.push` and `spawn` from their record on (R141, R191); `x` is the value of a continuation-record trap. -/
def pushOp (a : Reg) (q : Nat) (r : BitVec 256) (x : Dword) (sc : BitVec 3) : M Flow := do
  let s ← get
  let c := s.core
  need ((recordError s (s.cq q) c.partid r).isNone) cContinuation x
  if c.det then needX (recDet r && decide (c.phase.toNat < recPhase r)) cDet
  waitFar sc
  match pushRecord (c.who true 3) q r s with
  | .done s' n => do
    set s'
    wG a (if c.det then 0 else zext n)
  | .off => wG a (BitVec.allOnes 64)
  | .full => if c.det then stopWith .wait else wG a (BitVec.allOnes 64)
  | .untranslated s' => do
    set s'
    wG a (BitVec.allOnes 64)
  return .next

/-- `cq.push` (R141). -/
def cqPushOp (a b : Reg) (sc : BitVec 3) : M Flow := do
  let s ← get
  let c := s.core
  let qn := c.rg a
  let x := c.rg b
  need (qn.toNat ≤ 255 && s.cqOwner qn.toNat == some c.partid) cAccess qn
  need (x.toNat % 32 = 0) cAlign x
  let bs ← acc (gRead (c.who true sc) x.toNat 32)
  pushOp a qn.toNat (leVec 256 bs) x sc

/-- The record of a `spawn` (R191). -/
def spawnRecord (c : Core) (code frame : Dword) : BitVec 256 :=
  BitVec.ofNat 256 (code.toNat + frame.toNat * 2 ^ 64 + c.partid.toNat * 2 ^ 192 + c.det.toNat * 2 ^ 207 + 2 ^ 208 +
    (if c.det then (c.phase.toNat + 1) % 2 ^ 32 else 0) * 2 ^ 224)

/-- `spawn` (R191). A record that breaks a check of R138 has no address for `tval` (R141): the code value (log 120). -/
def spawnOp (a b : Reg) (sc : BitVec 3) : M Flow := do
  let s ← get
  let c := s.core
  let v := c.rg a
  need (fld v 22 42 = 0 && fld v 0 2 = 0) cContinuation v
  let q := c.origin.toNat
  need (s.cqOwner q == some c.partid) cAccess (dw q)
  pushOp a q (spawnRecord c v (c.rg b)) v sc

/-! ## Join counters (R132, R148, R192, R195) -/

/-- A counter and its continuation address; missing translations are fatal (R43). -/
def joinRead (w : Who) (va : Nat) : M (Dword × Dword) := do
  acc (gProbe w .w va 16)
  let bs ← acc (gRead w.untagged.exclusive va 16)
  return (dw (bytesAt bs 0 8), dw (bytesAt bs 8 8))

/-- The queue of a join counter can take a record now. -/
def canTake (s : State) (p : BitVec 5) (q : Nat) : Bool :=
  let c := s.cq q
  c.en && !c.stop && s.cqOwner q == some p && decide (c.count < c.cap) && (physPieces s p .w (c.slotVa c.tail) 32).isSome

/-- A queue that could take a record but for its tail slot, which has no translation: it stops with err 8 (R132, R141). -/
def slotMissing (p : BitVec 5) (q : Nat) (s : State) : Bool :=
  let c := s.cq q
  c.en && !c.stop && s.cqOwner q == some p && decide (c.count < c.cap) && (physPieces s p .w (c.slotVa c.tail) 32).isNone

/-- One decrement with its push (R132): a count of 0 stops it with a trap; it waits, noting a queue that stops, when
the push cannot be made. `named` says whether the trap's rule names its `tval`. The record is read at d1 whatever its
alignment, for which the rule names no check at this point (log 96). -/
def joinStep (w : Who) (av : Dword) (named : Bool) : M Waits := do
  let (d0, d1) ← joinRead w av.toNat
  let n := fld d0 0 32
  if n = 0 then (if named then trap cJoin av else trapX cJoin)
  if n = 1 then
    let q := fld d0 32 8
    let s ← get
    if !canTake s w.part q then
      if slotMissing w.part q s then
        modS (stopQueue q 8)
        return .waits true
      return .waits false
    let bs ← acc (gRead w.untagged d1.toNat 32)
    acc (gWrite w.untagged.exclusive av.toNat (leBytes 8 (setFld d0 0 32 0).toNat))
    match pushRecord w q (leVec 256 bs) (← get) with
    | .done s' _ => set s'
    | _ => pure ()
    return .made
  else
    acc (gWrite w.untagged.exclusive av.toNat (leBytes 8 (setFld d0 0 32 (n - 1)).toNat))
    return .made

/-- `join.dec` (R132) of an agent of a core. -/
def joinDecOp (agent : Nat) (av : Dword) (sc : BitVec 3) : M Waits := do
  need (av.toNat % 16 = 0) cAlign av
  waitFar sc
  joinStep ((← getC).whoIn agent sc) av false

/-- `join.init` (R192). -/
def joinInitOp (a b : Reg) (sc : BitVec 3) : M Flow := do
  let s ← get
  let c := s.core
  let av := c.rg a
  let v := c.rg b
  need (av.toNat % 16 = 0) cAlign av
  let w := (c.who true sc).untagged
  need (vaOk av.toNat 8) cAccess av
  acc (gProbe w .w av.toNat 8)
  need (fld v 0 32 != 0 && fld v 40 24 = 0) cJoin v
  need (s.cqOwner (fld v 32 8) == some c.partid) cAccess v
  waitFar sc
  acc (gWrite w av.toNat (leBytes 8 v.toNat))
  return .next

end Sys2Proof.Machine
end

