-- ==== Sys2Proof/Machine/Matrix.lean ====
section
/-! DEFINITION. Shapes, patterns and the array: `tshape` (R94), `pset`, `pget` (R119, R120), `mma` (R95-R99, R121-R123,
R278-R284), `cmpa` (R101), `acz`, `tsm` (R102, R105). -/
namespace Sys2Proof.Machine

/-! ## The sequencer's part -/

/-- The shape granted for a request that R94 accepts: bits 18:0 of the tile control register. -/
def grantOf (q : Dword) : BitVec 19 :=
  let wc := fld q 16 3
  let c := min (max (fld q 8 8) 1) 64
  let r := min (min (max (fld q 0 8) 1) 128) (32768 / (c * (4 * 2 ^ wc)))
  BitVec.ofNat 19 (wc * 65536 + c * 256 + r)

/-- `tshape` (R94): it waits as R26 says, then grants. -/
def shapeTile (d : Reg) (tile : BitVec 4) (b : Reg) : M Flow := do
  waitTile tile
  let q := (← getC).rg b
  need (q.toNat < 2 ^ 18) cShape q
  let g := zext (grantOf q)
  modC fun c => c.setTile tile { c.tile tile with tc := g }
  wG d g
  return .next

/-- `tshape` (R94). -/
def execTshape (d : Reg) (tile : BitVec 4) (b : Reg) (s : State) : Host.Outcome State Fault Refusal :=
  runSeq 4 (shapeTile d tile b) s

/-- A pattern descriptor that `pset` refuses (R119). -/
def patBad (v : Dword) : Bool :=
  let kind := fld v 0 4
  let n := fld v 4 10
  decide (10 ≤ kind) || n == 0 || decide (256 < n) || fld v 14 2 != 0 ||
  (if kind ≤ 6 then fld v 16 48 != 0
   else if kind = 7 then fld v 16 16 != 0
   else if kind = 8 then fld v 32 32 != 0
   else fld v 32 32 != 0 || fld v 24 8 != 0 || fld v 20 4 != 0)

/-- `pset` (R119): p0 is neither checked nor written (R31). -/
def execPset (pat : BitVec 3) (a : Reg) (s : State) : Host.Outcome State Fault Refusal :=
  runSeq 4 (do
    let v := (← getC).rg a
    iff' (pat != 0) (need (!patBad v) cPattern v)
    modC (·.setP pat v)
    return .next) s

/-- `pget` (R120). -/
def execPget (d : Reg) (pat : BitVec 3) (s : State) : Host.Outcome State Fault Refusal :=
  runSeq 4 (result d fun c => c.rp pat) s

/-! ## Operands (R96, R121, R122, R281, R284) -/

/-- The element value of a tile: padded rows are +0, grouped elements are q − z, times the scale if `scaled`. -/
def Tile.value (t : Tile) (cols : Nat) (scaled : Bool) (i j : Nat) : Val :=
  if bit t.mask i then .fin false 0 0 else
  let x := t.el (fmtBits t.fmt) (i * cols + j)
  if fmtGrouped t.fmt then
    let sz := groupSize t.fmt
    let ne := groupCols t.fmt t.gax cols
    let k := if t.gax then i / sz * ne + j else i * ne + j / sz
    let e := fld t.side (32 * k) 32
    let d := valOfInt ((x : Int) - (e / 65536 % 256 : Nat))
    if scaled then d.mul (fp16.dec (e % 65536)) else d
  else fmtVal t.fmt x

/-- The generated element G(o, k) of a pattern (R121, R122): `ix` is the index vector of kind 9. A pattern that no `pset` has
checked can have a reserved kind: its elements are free (log 130). -/
def genElem (p : Dword) (ix : List Int) (o k : Nat) : Bool :=
  let n := fld p 4 10
  if n ≤ o || n ≤ k then false else
  match fld p 0 4 with
  | 0 => false
  | 1 => true
  | 2 => k == o
  | 3 => decide (k ≤ o)
  | 4 => decide (k < o)
  | 5 => decide (k ≥ o)
  | 6 => decide (k > o)
  | 7 => decide ((k : Int) = (toSigned 16 (fld p 48 16) * o + (fld p 32 16 : Nat)) % (n : Int))
  | 8 => decide (o ≤ k + fld p 24 8 && k ≤ o + fld p 16 8)
  | 9 =>
    match ix[o]? with
    | some v => decide (v = k)
    | none => false
  | _ => Config.patternElem p o k

/-- A generated element as a value. -/
def genVal (b : Bool) : Val := .fin false b.toNat 0

/-- The formats that a suffix accepts in the B and in the A position (R96). -/
def mmaB (f : Nat) : List Nat :=
  if f = 6 then [6, 19, 20, 21] else if f = 9 then [9, 16, 17, 18] else [f]
def mmaA (f : Nat) : List Nat :=
  if f = 1 || f = 2 then [f]
  else if f = 4 || f = 5 then [4, 5, 9, 16, 17, 18]
  else if f = 6 || f = 11 then [6, 11, 19, 20, 21]
  else if f = 9 || f = 10 then [9, 10, 16, 17, 18]
  else [7, 12]

/-- The class of a suffix (R96): true FLOAT. -/
def mmaFloat (f : Nat) : Bool := f = 1 || f = 2 || f = 4 || f = 5

/-! ## Additions (R97, R98) -/

/-- An integer value of an operand. -/
def valInt : Val → Int
  | .fin s m e => scaled s m e 0
  | _ => 0

/-- One addition into an integer-class element: the sum modulo 2^48 and the overflow bit (R17). -/
def addInt (x : Nat) (p : Int) : Nat × Bool :=
  let v := toSigned 48 x + p
  (ofSigned 48 v, decide (v < -(2 ^ 47 : Int)) || decide ((2 ^ 47 : Int) ≤ v))

/-- One product and addition into a float-class element, with its overflow bit (R98). -/
def addFloat (x : Nat) (a b : Val) : Nat × Bool :=
  let p := a.mul b
  let v := fwVal x
  let r := (fwRound (v.add p)).1
  let rv := fwVal r
  (r, (p.isNan && !a.isNan && !b.isNan) || (rv.isInf && !v.isInf && !p.isInf) || (rv.isNan && !v.isNan && !p.isNan))

/-- The additions of one element, in order (R99). -/
def addAll (float : Bool) (x : Nat) (ps : List (Val × Val)) : Nat × Bool :=
  ps.foldl (fun (xo : Nat × Bool) ab =>
    let (x', o) := if float then addFloat xo.1 ab.1 ab.2 else addInt xo.1 (valInt ab.1 * valInt ab.2)
    (x', xo.2 || o)) (x, false)

/-- Element k of an accumulator's image (R30), and the accumulator with an element added to. -/
def Acc.el (a : Acc) (k : Nat) : Nat := fld a.img (48 * k) 48
def Acc.put (a : Acc) (k : Nat) (xo : Nat × Bool) : Acc :=
  { a with img := setFld a.img (48 * k) 48 xo.1, ovf := if xo.2 then setBit a.ovf k true else a.ovf }

/-- The additions of an instruction into the elements of m rows and n columns: `row i` gives the A values of row i,
each with its depth position, `b k j` the B element. -/
def accumulate (a : Acc) (m n : Nat) (row : Nat → List (Val × Nat)) (b : Nat → Nat → Val) : Acc :=
  (List.range m).foldl (fun a i =>
    let r := row i
    (List.range n).foldl (fun a j =>
      a.put (i * 64 + j) (addAll a.float (a.el (i * 64 + j)) (r.map fun vk => (vk.1, b vk.2 j)))) a) a

/-- The accumulator that an `mma` starts from: zero first unless it is resumed (R97, R324). -/
def mmaStart (zf : Bool) (cls : Bool) (e : Entry) (a : Acc) : Acc :=
  if zf && e.progress = 0 then ⟨0, 0, cls⟩ else a

/-- The additions of an entry that are still to be done (R324). -/
def Entry.additions {α : Type} (e : Entry) (l : List α) : List α := (l.take (e.stopAt.getD l.length)).drop e.progress

/-- The mask of a sparse row and run (R276). -/
def Tile.runMask (t : Tile) (i g : Nat) : Nat := fld t.side (128 * i + 32 * g) 32
/-- The kept positions of a run, ascending. -/
def keptOf (m : Nat) : List Nat := (List.range 32).filter fun r => m >>> r % 2 = 1

/-- The A values of a row of a tile with their depth positions: every column, or the kept positions (R279). -/
def tileRow (t : Tile) (cols : Nat) (scaled : Bool) (i : Nat) : List (Val × Nat) :=
  if t.sp then
    let nk := t.nkeep + 1
    (List.range (cols / nk)).flatMap fun g =>
      (keptOf (t.runMask i g)).zipIdx.map fun pr => (t.value cols scaled i (g * nk + pr.2), 32 * g + pr.1)
  else (List.range cols).map fun k => (t.value cols scaled i k, k)

/-- The mask check of a sparse A tile (R279). -/
def maskCheck (t : Tile) (rows cols : Nat) : M Unit :=
  if t.sp then
    let g := cols / (t.nkeep + 1)
    match (List.range (rows * g)).find? fun x => popNat 32 (t.runMask (x / g) (x % g)) != t.nkeep + 1 with
    | some x => trap cFormat (dw (4 * (x / g) + x % g))
    | none => pure ()
  else pure ()

/-- The depth of an A tile: its columns, or 32·G (R95, R278). -/
def depthOf (t : Tile) (cols : Nat) : Nat := if t.sp then 32 * (cols / (t.nkeep + 1)) else cols

/-- The class check of R97. -/
def classCheck (zf cls : Bool) (a : Acc) : M Unit := needX (zf || a.float == cls) cFormat

/-- `mma`, tile × tile (R95-R99, R278-R284). -/
def performMmaTileTile (ad : BitVec 2) (ta tb : BitVec 4) (zf : Bool) (fmt : BitVec 5) (e : Entry) : M Eff := do
  shaped [e.shA, e.shB]
  let c ← getC
  let a := c.tile ta
  let b := c.tile tb
  let f := fmt.toNat
  needX ((mmaA f).contains a.fmt && (mmaB f).contains b.fmt && !b.sp && !(fmtGrouped a.fmt && fmtGrouped b.fmt)) cFormat
  let cls := mmaFloat f || fmtGrouped a.fmt || fmtGrouped b.fmt
  classCheck zf cls (c.acc ad)
  let ca := shCols e.shA
  let cb := shCols e.shB
  needX (shRows e.shA ≤ 32 && depthOf a ca == shRows e.shB) cShape
  maskCheck a (shRows e.shA) ca
  return Eff.ofAcc ad (accumulate (mmaStart zf cls e (c.acc ad)) (shRows e.shA) cb
    (fun i => e.additions (tileRow a ca true i)) (fun k j => b.value cb true k j))

/-- The index vector of a pattern's tile (R122). -/
def patVector (c : Core) (e : Entry) : List Int :=
  if fld e.pat 0 4 = 9 then (c.tile (e.pat.extractLsb' 16 4)).index (shRows e.shI * shCols e.shI) else []

/-- The rows check and the format check of a one-hot pattern's index tile (R26, R122). -/
def patShaped (e : Entry) : M Unit := if fld e.pat 0 4 = 9 then shaped [e.shI] else pure ()
def patFormat (c : Core) (e : Entry) : M Unit :=
  needX (fld e.pat 0 4 != 9 || (c.tile (e.pat.extractLsb' 16 4)).indexOk) cFormat

/-- `mma`, pattern in A (R95, R97, R284). -/
def performMmaPatternA (ad : BitVec 2) (tb : BitVec 4) (zf : Bool) (fmt : BitVec 5) (e : Entry) : M Eff := do
  shaped [e.shB]
  patShaped e
  let c ← getC
  let b := c.tile tb
  let f := fmt.toNat
  needX ((mmaB f).contains b.fmt && !b.sp) cFormat
  patFormat c e
  classCheck zf (mmaFloat f) (c.acc ad)
  let cb := shCols e.shB
  let ix := patVector c e
  return Eff.ofAcc ad (accumulate (mmaStart zf (mmaFloat f) e (c.acc ad)) 32 cb
    (fun i => e.additions ((List.range (shRows e.shB)).map fun k => (genVal (genElem e.pat ix i k), k)))
    (fun k j => b.value cb false k j))

/-- `mma`, pattern in B (R95, R97, R278, R284). -/
def performMmaPatternB (ad : BitVec 2) (ta : BitVec 4) (zf : Bool) (fmt : BitVec 5) (e : Entry) : M Eff := do
  shaped [e.shA]
  patShaped e
  let c ← getC
  let a := c.tile ta
  let f := fmt.toNat
  needX ((mmaA f).contains a.fmt) cFormat
  patFormat c e
  classCheck zf (mmaFloat f) (c.acc ad)
  let ca := shCols e.shA
  needX (shRows e.shA ≤ 32) cShape
  maskCheck a (shRows e.shA) ca
  let ix := patVector c e
  return Eff.ofAcc ad (accumulate (mmaStart zf (mmaFloat f) e (c.acc ad)) (shRows e.shA) 64
    (fun i => e.additions (tileRow a ca false i)) (fun k j => genVal (genElem e.pat ix j k)))

/-! ## Ranking and control (R101, R102, R105) -/

/-- The order of `cmpa`: by value, every NaN above +∞ and equal to every NaN. -/
def rankAbove (x y : Val) : Bool :=
  match x.cmp y with
  | some i => decide (0 < i)
  | none => x.isNan && !y.isNan
def rankEq (x y : Val) : Bool :=
  match x.cmp y with
  | some i => i = 0
  | none => x.isNan && y.isNan

/-- The rank of position j in a row (R101). -/
def rankOf (row : List Val) (j : Nat) : Nat :=
  match row[j]? with
  | none => row.length
  | some x => (row.filter fun y => rankAbove y x).length + ((row.take j).filter fun y => rankEq y x).length

/-- `cmpa` (R101). -/
def performCmpa (ad : BitVec 2) (ta : BitVec 4) (fmt : BitVec 5) (e : Entry) : M Eff := do
  shaped [e.shA]
  let c ← getC
  let t := c.tile ta
  needX (t.fmt == fmt.toNat && !t.sp) cFormat
  needX (!(c.acc ad).float) cFormat
  let n := shCols e.shA
  let new := (List.range 32).foldl (fun a i =>
    let row := if i < shRows e.shA then (List.range n).map fun j => t.value n false i j else []
    (List.range 64).foldl (fun (a : Acc) j =>
      a.put (i * 64 + j) (addInt (a.el (i * 64 + j)) (if row.isEmpty then n else rankOf row j))) a) (c.acc ad)
  return Eff.ofAcc ad new

/-- `acz` (R102). -/
def performAcz (ad : BitVec 2) : M Eff := return Eff.ofAcc ad Acc.zero

/-- `tsm`: its marker is set when it is routed; the entry itself relays tokens (R105). -/
def performTsm : M Eff := return Eff.none

end Sys2Proof.Machine
end

