-- ==== Sys2Proof/Machine/Drain.lean ====
section
/-! DEFINITION. The drain path and its configuration (R106-R116), stochastic rounding (R273-R275, R286). -/
namespace Sys2Proof.Machine

/-! ## Configuration (R107-R109) -/

/-- A value copied at routing: the first g field of the entry (R14, R329). -/
def Entry.g0 (e : Entry) : Dword := e.g.getD 0 0
/-- The second g field. -/
def Entry.g1 (e : Entry) : Dword := e.g.getD 1 0

/-- A drain configuration written at completion. -/
def Eff.ofCfg (a : BitVec 2) (v : DrainCfg) : Eff := ⟨[], [], [(a.toNat, v)], 0⟩

/-- A configuration stream of a shape, format 3, after its checks (R107). -/
def cfgStream (st : Reg) (rows cols : Nat) (e : Entry) : M Str := do
  let t ← streamOf .plain st e
  needX (t.fmt == 3) cFormat
  needX (t.rows == rows && t.cols == cols) cShape
  strAddrs ((← getC).whoIn 3 0) t 32 (segSpans 32 (t.segs 32 (t.liveRows.map fun i => (i, i)))) []
  return t

/-- Rows of a configuration stream. -/
def cfgRows (t : Str) (rows : List Nat) : M Nat := do
  acc (loadSegs ((← getC).whoIn 3 0) t 32 (t.segs 32 (rows.map fun i => (i, i))))

/-- The vector of a configuration stream (R107). -/
def cfgData (st : Reg) (cols : Nat) (e : Entry) : M Nat := do
  cfgRows (← cfgStream st 1 cols e) [0]

/-- `dcfg.sc` (R107). -/
def performDcfgSc (st : Reg) (a : BitVec 2) (col : Bool) (e : Entry) : M Eff := do
  let v ← cfgData st (if col then 64 else 32) e
  let k := (← getC).cfg a
  return Eff.ofCfg a (if col then { k with cs := BitVec.ofNat 2048 v, csOn := true }
                      else { k with rs := BitVec.ofNat 1024 v, rsOn := true })

/-- `dcfg.bi` (R107). -/
def performDcfgBi (st : Reg) (a : BitVec 2) (col : Bool) (e : Entry) : M Eff := do
  let v ← cfgData st (if col then 64 else 32) e
  let k := (← getC).cfg a
  return Eff.ofCfg a (if col then { k with cb := BitVec.ofNat 2048 v, cbOn := true }
                      else { k with rb := BitVec.ofNat 1024 v, rbOn := true })

/-- Field of a function table: the word at a byte offset (R109). -/
def tabW {n : Nat} (t : BitVec n) (o : Nat) : Nat := fld t (8 * o) 32

/-- The header of a function table obeys R109. -/
def tableOk {n : Nat} (t : BitVec n) : Bool :=
  let kind := tabW t 0 % 256
  let z (o : Nat) : Bool := tabW t o == 0
  fld t 256 256 == 0 && tabW t 0 / 1024 == 0 &&
  (match kind with
    | 0 => tabW t 0 / 256 == 0 && z 4 && z 8 && z 12 && z 16 && z 20 && z 24 && z 28
    | 1 =>
      (match fp32.dec (tabW t 4) with
        | .fin .. => true
        | _ => false) &&
      decide (-24 ≤ toSigned 32 (tabW t 8)) && decide (toSigned 32 (tabW t 8) ≤ 24) && z 20 && z 24 && z 28
    | 2 => decide (-1000 ≤ toSigned 32 (tabW t 4)) && decide (toSigned 32 (tabW t 4) ≤ 990) && z 8 && z 20 && z 24
    | 3 => tabW t 0 / 256 == 0 && z 4 && z 8 && z 12 && z 16 && z 28 && decide (tabW t 20 ≤ 5) &&
           !(fp32.dec (tabW t 24)).isNan
    | _ => false)

/-- `dcfg.fn` (R107, R109): the first row of the stream is the header; the others, the segments, are read for kinds 1 and 2
alone, and the held table's are zero for kinds 0 and 3 (log 125). -/
def performDcfgFn (st : Reg) (a : BitVec 2) (e : Entry) : M Eff := do
  let str ← cfgStream st 49 16 e
  let hd ← cfgRows str [0]
  need (tableOk (BitVec.ofNat 25088 hd)) cFormat (dw str.base)
  let segs ← if hd % 256 = 1 || hd % 256 = 2 then cfgRows str ((List.range 48).map (· + 1)) else pure 0
  let t : BitVec 25088 := BitVec.ofNat 25088 (hd ||| segs)
  return Eff.ofCfg a { (← getC).cfg a with table := t, fnOn := tabW t 0 % 256 != 0 }

/-- `dcfg.cl` (R107). -/
def performDcfgCl (a : BitVec 2) (e : Entry) : M Eff := do
  let v := e.g0
  let lo := fld v 0 32
  let hi := fld v 32 32
  need (!(fp32.isNan lo || fp32.isNan hi || fp32.below hi lo)) cFormat v
  return Eff.ofCfg a { (← getC).cfg a with lo := BitVec.ofNat 32 lo, hi := BitVec.ofNat 32 hi, clOn := true }

/-- `dcfg.rm` (R108). -/
def performDcfgRm (a : BitVec 2) (e : Entry) : M Eff := do
  let v := e.g0
  need (fld v 10 54 == 0 && fld v 2 2 == 0 && fld v 0 2 != 3) cFormat v
  let k := (← getC).cfg a
  return Eff.ofCfg a { k with rm := v.setWidth 2, rsOn := k.rsOn && !bit v 4, csOn := k.csOn && !bit v 5,
                              rbOn := k.rbOn && !bit v 6, cbOn := k.cbOn && !bit v 7, fnOn := k.fnOn && !bit v 8,
                              clOn := k.clOn && !bit v 9 }

/-! ## Stochastic rounding (R273-R275, R286) -/

/-- The advance of the state before a row (R273). -/
def srAdvance (x : Dword) : Dword :=
  let x := x ^^^ (x <<< 13)
  let x := x ^^^ (x >>> 7)
  x ^^^ (x <<< 17)

/-- The random bits of a lane (R273). -/
def srLane (x : Dword) (j : Nat) : Nat := fld (rotl64 x j) 0 32

/-- The seed of a deterministic drain (R275). -/
def srSeed (seed n : Dword) : Dword :=
  let z := seed + n
  let z := (z ^^^ (z >>> 30)) * 0xBF58476D1CE4E5B9
  let z := (z ^^^ (z >>> 27)) * 0x94D049BB133111EB
  let z := z ^^^ (z >>> 31)
  if z = 0 then 1 else z

/-- `srs.seed` (R286). -/
def performSrsSeed (e : Entry) : M Eff := do
  modC fun c => { c with srS := if e.g0 = 0 then 1 else e.g0 }
  return Eff.none

/-! ## The function stage (R110) -/

/-- The polynomial of a segment. -/
def polyOf (t : BitVec 25088) (s : Nat) (x : Nat) : Nat × Flags :=
  let c (k : Nat) : Nat := fwOfFp32 (tabW t (64 + 12 * s + 4 * k))
  let (a, f1) := fwMul (c 2) x
  let (a, f2) := fwAdd a (c 1)
  let (a, f3) := fwMul a x
  let (a, f4) := fwAdd a (c 0)
  (a, f1 ||| f2 ||| f3 ||| f4)

/-- The negation of a FW48 encoding that is no NaN. -/
def fwNeg (x : Nat) : Nat := if fw48.isNan x then x else x ^^^ 2 ^ 47

/-- A value is below another. -/
def valLt (x y : Val) : Bool :=
  match x.cmp y with
  | some i => decide (i < 0)
  | none => false

/-- The magnitude `m·2^e` divided by `2^g`, rounded down. -/
def floorAt (m : Nat) (e g : Int) : Nat := if g ≤ e then m <<< (e - g).toNat else m >>> (g - e).toNat

/-- The linear kind. The bound x0 + 256·w is a FW48 sum like every step that the rule does not call exact, and it reports
the flags of its rounding like them. -/
def fnLinear (t : BitVec 25088) (x : Nat) : Nat × Flags :=
  let v := fwVal x
  let o := fwOfFp32 (tabW t 4)
  let we := toSigned 32 (tabW t 8)
  let (top, f0) := fwAdd o (fwRound (.fin false 256 we)).1
  if valLt v (fwVal o) then (if tabW t 0 / 256 % 2 = 1 then x else fwOfFp32 (tabW t 12), 0)
  else if !valLt v (fwVal top) then (if tabW t 0 / 512 % 2 = 1 then x else fwOfFp32 (tabW t 16), f0)
  else
    match v.add (fwVal o).neg with
    | .fin _ m e =>
      let s := floorAt m e we
      let (b, f1) := fwAdd o (fwRound (.fin false s we)).1
      let (u, f2) := fwAdd x (fwNeg b)
      let (y, f3) := polyOf t s u
      (y, f0 ||| f1 ||| f2 ||| f3)
    | _ => (fwNan, 0)

/-- The octave kind. -/
def fnOctave (t : BitVec 25088) (x : Nat) : Nat × Flags :=
  match fwVal x with
  | .nan => (fwNan, 0)
  | .inf s => (if s then fwOfFp32 (tabW t 28) else if tabW t 0 / 512 % 2 = 1 then x else fwOfFp32 (tabW t 16), 0)
  | .fin s m e =>
    if s || m = 0 then (fwOfFp32 (tabW t 28), 0) else
    let l := Nat.log2 m
    let ex : Int := e + l
    let e0 := toSigned 32 (tabW t 4)
    if ex < e0 then (if tabW t 0 / 256 % 2 = 1 then x else fwOfFp32 (tabW t 12), 0)
    else if e0 + 32 ≤ ex then (if tabW t 0 / 512 % 2 = 1 then x else fwOfFp32 (tabW t 16), 0)
    else
      let r := (8 * m) >>> l - 8
      let u := (fwRound (.fin false (8 * m - (8 + r) <<< l) (-(l + 3 : Nat)))).1
      polyOf t (8 * (ex - e0).toNat + r) u

/-- The compare kind. -/
def fnCompare (t : BitVec 25088) (x : Nat) : Nat :=
  let b :=
    match (fwVal x).cmp (fp32.dec (tabW t 24)), tabW t 20 with
    | none, op => op == 3
    | some i, 0 => decide (i < 0)
    | some i, 1 => decide (i ≤ 0)
    | some i, 2 => decide (i = 0)
    | some i, 3 => decide (i ≠ 0)
    | some i, 4 => decide (0 ≤ i)
    | some i, _ => decide (0 < i)
  if b then fwOfFp32 0x3F800000 else 0

/-- The function of a table (R110). -/
def fnApply (t : BitVec 25088) (x : Nat) : Nat × Flags :=
  match tabW t 0 % 256 with
  | 1 => if fw48.isNan x then (fwNan, 0) else fnLinear t x
  | 2 => if fw48.isNan x then (fwNan, 0) else fnOctave t x
  | 3 => (fnCompare t x, 0)
  | _ => (x, 0)

/-! ## One element (R112, R113) -/

/-- The conversion to a destination format (R112, R266-R270). -/
def convertTo (f : Nat) (rm : Rm) (v : Val) : Nat × Flags :=
  match fmtFloat f, fmtInt f with
  | some fm, _ => fm.round rm v
  | _, some (sg, w) => valToInt rm sg w v
  | _, _ => (0, 0)

/-- The flags of an element read with its ovf bit set (R113). -/
def ovfFlags (float ovf : Bool) (x : Nat) : Flags :=
  if !ovf then 0
  else if !float then flIovf
  else flIf (fwVal x).isInf flOf ||| flIf (fwVal x).isNan flNv

/-- The stage flags that a drain reports (R271). -/
def stageFlags (f : Flags) : Flags := f &&& (flNx ||| flUf ||| flOf)

/-- The clamp (R112): −0 is below +0. -/
def clampTo (k : DrainCfg) (x : Nat) : Nat :=
  if fw48.isNan x then x else
  let lo := fwOfFp32 k.lo.toNat
  let hi := fwOfFp32 k.hi.toNat
  let x := if fw48.below x lo then lo else x
  if fw48.below hi x then hi else x

/-- A stage that is on. -/
def stage (on : Bool) (f : Nat → Nat × Flags) (xf : Nat × Flags) : Nat × Flags :=
  if on then let (y, g) := f xf.1; (y, xf.2 ||| stageFlags g) else xf

/-- The conversion of element (i, j), without the flags of its ovf bit (R112). -/
def drainElem (k : DrainCfg) (float : Bool) (f : Nat) (rm : Rm) (i j x : Nat) : Nat × Flags :=
  if f = 13 then (x, 0)
  else if !float && !(k.rsOn || k.csOn || k.rbOn || k.cbOn || k.fnOn) then
    match fmtInt f with
    | some (sg, w) =>
      let v := toSigned 48 x
      let (y, sat) := saturate (if sg then -(2 ^ (w - 1) : Int) else 0) (if sg then 2 ^ (w - 1) - 1 else 2 ^ w - 1) v
      (ofSigned w y, flIf sat flIovf)
    | none => convertTo f rm (valOfInt (toSigned 48 x))
  else
    let s0 : Nat × Flags := if float then (x, 0) else
      let (y, g) := fwRound (valOfInt (toSigned 48 x)); (y, stageFlags g)
    let s := stage k.rsOn (fun y => fwMul y (fwOfFp32 (fld k.rs (32 * i) 32))) s0
    let s := stage k.csOn (fun y => fwMul y (fwOfFp32 (fld k.cs (32 * j) 32))) s
    let s := stage k.rbOn (fun y => fwAdd y (fwOfFp32 (fld k.rb (32 * i) 32))) s
    let s := stage k.cbOn (fun y => fwAdd y (fwOfFp32 (fld k.cb (32 * j) 32))) s
    let s := stage k.fnOn (fnApply k.table) s
    let y := if k.clOn then clampTo k s.1 else s.1
    let (o, g) := convertTo f rm (fwVal y)
    (o, s.2 ||| g)

/-- One row of a drain: its elements in column order and their flags. -/
def drainRow (k : DrainCfg) (a : Acc) (f : Nat) (rnd : Nat → Rm) (i cols : Nat) : List Nat × Flags :=
  (List.range cols).foldl (fun (r : List Nat × Flags) j =>
    let x := a.el (i * 64 + j)
    let (o, g) := drainElem k a.float f (rnd j) i j x
    (r.1 ++ [o], r.2 ||| g ||| ovfFlags a.float (bit a.ovf (i * 64 + j)) x)) ([], 0)

/-- The rows of a drain from row `p` on (R273, R275): the state S, the elements row by row, the flags of stored rows. -/
def drainRows (k : DrainCfg) (a : Acc) (f : Nat) (s0 : Dword) (rows : List Nat) (cols : Nat) (stored : Nat → Bool) :
    Dword × List (Nat × List Nat) × Flags :=
  rows.foldl (fun (r : Dword × List (Nat × List Nat) × Flags) i =>
    let s := if k.rm = 1 then srAdvance r.1 else r.1
    if stored i then
      let rm (j : Nat) : Rm := if k.rm = 1 then .sr (srLane s j) else if k.rm = 2 then .tz else .rne
      let (xs, g) := drainRow k a f rm i cols
      (s, r.2.1 ++ [(i, xs)], r.2.2 ||| g)
    else (s, r.2.1, r.2.2)) (s0, [], 0)

/-- The state S that a drain starts from, counted and seeded (R275, R324). -/
def srStart (k : DrainCfg) (e : Entry) : M Dword := do
  let c ← getC
  if k.rm = 1 && e.progress = 0 then
    modC fun c => { c with srN := c.srN + 1 }
    return if c.det then srSeed e.pat c.srN else c.srS
  else return c.srS

/-- The elements of drained rows as a packed matrix. -/
def packRows (b cols : Nat) (rows : List (Nat × List Nat)) : Nat :=
  rows.foldl (fun v r => v ||| packNats b r.2 <<< (r.1 * cols * b)) 0

/-- `drn` (R19, R112-R114, R116). -/
def performDrn (st : Reg) (a : BitVec 2) (fmt : BitVec 5) (e : Entry) : M Eff := do
  let t ← streamOf .acc st e
  let c ← getC
  let v := c.acc a
  let f := fmt.toNat
  needX (t.fmt == (if f = 13 then (if v.float then 14 else 13) else f)) cFormat
  needX (1 ≤ t.rows && t.rows ≤ 32 && 1 ≤ t.cols && t.cols ≤ 64) cShape
  let w := c.whoIn 3 0
  let b := fmtBits f
  let live := t.liveRows
  let spans := segSpans b (t.segs b (live.map fun i => (i, i)))
  strAddrs w t b spans []
  noSpill w t spans
  let k := c.cfg a
  let s0 ← srStart k e
  let (s, rows, fl) := drainRows k v f s0 ((List.range t.rows).filter e.does) t.cols live.contains
  modC fun c => { c with srS := s }
  acc (storeSegs w t b (packRows b t.cols rows) (t.segs b (rows.map fun r => (r.1, r.1))))
  return ⟨[], [], [], fl⟩

/-- `drn.t` (R24, R26, R115). The rules say nothing of the tile's side store and of its data beyond the granted region: the
side store stays as it is, the data beyond the region becomes zero (log 92). -/
def performDrnT (tile : BitVec 4) (a : BitVec 2) (fmt : BitVec 5) (e : Entry) : M Eff := do
  shaped [e.shT]
  let f := fmt.toNat
  let nr := shRows e.shT
  let nc := shCols e.shT
  needX (fmtWcode f == shWcode e.shT && nr ≤ 32) cShape
  let c ← getC
  let k := c.cfg a
  let s0 ← srStart k e
  let (s, rows, fl) := drainRows k (c.acc a) f s0 ((List.range nr).filter e.does) nc (fun _ => true)
  modC fun c => { c with srS := s }
  let b := fmtBits f
  let old := c.tile tile
  let data := mergeRows e old.data.toNat (packRows b nc rows) (nc * b)
  if e.stopAt.isSome then return ⟨[(tile.toNat, { old with data := BitVec.ofNat 32768 data })], [], [], fl⟩
  return ⟨[(tile.toNat, ⟨BitVec.ofNat 32768 data, old.side, 0, mkTc e.shT f false 0 false⟩)], [], [], fl⟩

end Sys2Proof.Machine
end

