-- ==== Sys2Proof/Machine/Updates.lean ====
section
/-! DEFINITION. Update streams (R200-R207, R246-R255): `upd`, `upd.s`, `upd.rgn`, `upd.flags`, `upd.drain`, and the
Tumbler's own steps. -/
namespace Sys2Proof.Machine

/-- How far a queue entry has come: its effects at completion; the units it has done (R324); or it waits, and says whether
it has changed anything. -/
inductive Perf where
  | done (e : Eff)
  | part (progress : Nat)
  | hold (changed : Bool)
deriving DecidableEq, Repr

/-! ## Lookup (R247, R248) -/

/-- The region of the core's partition with a base. -/
def regionAt (s : State) (base : Nat) : Option Region :=
  s.regions.find? fun r => r.part == s.core.partid && r.base == base

/-- A lookup (R248): one that is being replaced makes the lookup wait (R247); a closed region is not found. -/
def lookupRegion (base : Nat) (tval : Dword) : M Region := do
  let s ← get
  match regionAt s base with
  | none => trap cRegion tval
  | some r =>
    if r.replacing != 0 then stopWith .wait
    need (r.inside s.core.id && !r.closed) cRegion tval
    return r

/-- A region of the table changed. -/
def modRegion (slot : Nat) (f : Region → Region) : M Unit :=
  modS fun s => { s with regions := s.regions.map fun r => if r.slot = slot then f r else r }

/-- A core's store queue, or its sequencer, as the holder of a region: its instance and its member with it. -/
def Core.holder (c : Core) (seq : Bool) : Nat := 2 * (128 * c.inst.toNat + c.teamid.toNat) + seq.toNat
/-- A hold is one of a core's store queue, or of its sequencer. -/
def Hold.by (h : Hold) (c : Core) (seq : Bool) : Bool := h.ctx == c.ctx && h.agent == c.holder seq

/-- An agent of a core begins to hold a region, with the number of its pairs and how many it has to send (R248). -/
def Region.hold (r : Region) (c : Core) (seq : Bool) (owner left : Nat) : Region :=
  { r with holds := r.holds ++ [⟨c.ctx, c.holder seq, owner, left⟩] }
/-- What an agent has still to send, and under which number. -/
def Region.holdLeft (r : Region) (c : Core) (seq : Bool) (owner left : Nat) : Region :=
  { r with holds := r.holds.map fun h => if h.by c seq then { h with owner := owner, left := left } else h }
/-- An agent holds a region no more. -/
def Region.unhold (r : Region) (c : Core) (seq : Bool) : Region := { r with holds := r.holds.filter (!·.by c seq) }

/-- An emission still holds the declaration: a pair of it is not sent, or not accepted (R248). -/
def Region.held' (r : Region) : Bool :=
  r.holds.any fun h => h.left != 0 || r.transit.any (·.owner == h.owner) || r.waiting.any (·.owner == h.owner)

/-! ## Emission (R202, R248-R251, R255) -/

/-- The phase tag after an emission (R255): several members of one task are kept as none of them. -/
def Region.noteEmission (r : Region) (w : Who) : Region :=
  match r.ptag with
  | none => { r with ptag := some (w.task, w.member, w.arr) }
  | some (tk, m, a) =>
    if tk = w.task then { r with ptag := some (tk, if m = w.member then m else 1000, max a w.arr) }
    else { r with pmany := true }

/-- An emission in deterministic mode is judged and tagged (R255). -/
def tagEmission (r : Region) (w : Who) (tval : Dword) : M Unit := do
  if !w.det then return ()
  let ordered := (r.op == 0 && (fmtFloat r.fmt).isSome) || r.op == 5
  need (!(ordered && (r.pmany || r.ptag.any (fun t => t.1 != w.task)))) cConflict tval
  modRegion r.slot (·.noteEmission w)

/-- An emitter has a pair that is not accepted yet. -/
def outstanding (slot owner : Nat) (s : State) : Bool :=
  s.regions.any fun r => r.slot == slot && (r.transit.any (·.owner == owner) || r.waiting.any (·.owner == owner))

/-- One pair is sent, with the number that it keeps or the next one (R202, R249); answers whether it has been accepted
already. -/
def emitPair (slot owner key val : Nat) (kept : Option (BitVec 32)) : M Bool := do
  let c ← getC
  let em : BitVec 16 := if c.det then c.teamid.setWidth 16 else c.id.setWidth 16
  let p : Pair := ⟨BitVec.ofNat 32 key, BitVec.ofNat 32 val, em, kept.getD c.seqctr, owner⟩
  modC fun c => { c with seqctr := if kept.isSome then c.seqctr else c.seqctr + 1 }
  modRegion slot fun r => { r with transit := r.transit ++ [p] }
  let s ← get
  if s.eager then modS (arriveAll slot)
  return !outstanding slot owner (← get)

/-- Pairs sent in order until one is not accepted at once, the first with the number that it keeps; answers how many were
sent (R249). -/
def emitFrom (slot owner : Nat) : List (Nat × Nat) → Option (BitVec 32) → M Nat
  | [], _ => return 0
  | kv :: r, kept => do
    if ← emitPair slot owner kv.1 kv.2 kept then return (← emitFrom slot owner r none) + 1
    else return 1

/-- The larger of two scopes, as codes. -/
def maxScope (sc : BitVec 3) (n : Nat) : BitVec 3 := if sc.toNat < n then BitVec.ofNat 3 n else sc

/-- The keys and values of an `upd` (R202). -/
def updPairs (k v : Tile) (n : Nat) : List (Int × Nat) :=
  (k.ints n).zipIdx.map fun p => (p.1, v.el (fmtBits v.fmt) p.2)

/-- The pairs of an `upd` that has started, from its progress on. The rules do not say what becomes of the hold of an entry that
a handler drops (R335): it stays, with the pairs that were never sent (log 124). -/
def updGo (r : Region) (key tile : BitVec 4) (e : Entry) : M Perf := do
  let c ← getC
  let n := shRows e.shA * shCols e.shA
  let owner := 2 * e.num
  if outstanding r.slot owner (← get) then stopWith .wait
  let ps := (updPairs (c.tile key) (c.tile tile) n).map fun p => (p.1.toNat, p.2)
  let sent ← emitFrom r.slot owner (ps.drop e.progress) e.seqKept
  let all := e.progress + sent
  if all = n && !outstanding r.slot owner (← get) then
    modRegion r.slot (·.unhold c false)
    return .done Eff.none
  else
    modRegion r.slot (·.holdLeft c false owner (n - all))
    return .part all

/-- `upd` (R202, R248, R249). -/
def performUpd (key tile : BitVec 4) (sc : BitVec 3) (e : Entry) : M Perf := do
  shaped [e.shA, e.shT]
  let s ← get
  let c := s.core
  match e.started, regionAt s e.g0.toNat with
  | true, some r => updGo r key tile e
  | _, _ =>
    let r ← lookupRegion e.g0.toNat e.g0
    let k := c.tile key
    let v := c.tile tile
    needX k.indexOk cFormat
    needX (v.fmt == r.fmt && !v.sp) cFormat
    needX (shRows e.shA == shRows e.shT && shCols e.shA == shCols e.shT) cShape
    let n := shRows e.shA * shCols e.shA
    match (k.ints n).findIdx? fun x => decide (x < 0) || decide ((r.size : Int) ≤ x) with
    | some i => trap cKey (dw i)
    | none => pure ()
    tagEmission r (c.whoIn 3 sc) e.g0
    waitFar (maxScope sc r.scope)
    engineCommand
    modRegion r.slot (·.hold c false (2 * e.num) n)
    updGo r key tile e

/-- `upd.s` (R248, R249). -/
def updOne (a b : Reg) (sc : BitVec 3) : M Flow := do
  let s ← get
  let c := s.core
  let owner := 2 * c.id.toNat + 1
  let finish (slot : Nat) : M Flow := do
    modRegion slot (·.unhold c true)
    modC fun c => { c with commit := .none }
    return .next
  match c.commit with
  | .updS slot => if outstanding slot owner s then stopWith .wait else finish slot
  | _ =>
    let r ← lookupRegion (c.rg a).toNat (c.rg a)
    let k := fld (c.rg b) 32 32
    need (k < r.size) cKey (dw k)
    waitFar (maxScope sc r.scope)
    tagEmission r (c.who true sc) (c.rg a)
    modRegion r.slot (·.hold c true owner 0)
    engineCommand
    if ← emitPair r.slot owner k (fld (c.rg b) 0 32) none then finish r.slot
    else
      modC fun c => { c with commit := .updS r.slot }
      return .stay

/-- `upd.s` (R248, R249). -/
def execUpdS (a b : Reg) (sc : BitVec 3) (s : State) : Host.Outcome State Fault Refusal := runSeq 4 (updOne a b sc) s

/-! ## Declaration (R200, R201, R244, R246, R247) -/

/-- An op and a format that R244 accepts together. -/
def opFmtOk (op fmt : Nat) : Bool :=
  let ints := [6, 7, 8, 11, 12, 15].contains fmt
  let floats := [1, 2, 3].contains fmt
  if op = 0 || op = 1 || op = 2 || op = 5 then ints || floats else if op = 3 || op = 4 then ints else false

/-- A region as a descriptor and a core declare it. -/
def newRegion (slot : Nat) (desc : BitVec 512) (c : Core) (pages : List (Nat × Nat)) : Region :=
  { slot := slot, part := c.partid, desc := desc, core := c.id, pages := pages, closed := false, status := 0,
    transit := [], held := [], runs := [], waiting := [], ptag := none, pmany := false, holds := [], replacing := 0 }

/-- A descriptor obeys R200 and R244, its scope is one of a region, and its ranges do not overlap (R246). -/
def regionOk (r : Region) : Bool :=
  fld r.desc 57 7 == 0 && r.base % 64 == 0 && r.size != 0 && decide (r.scope ≤ 3) && fld r.desc 88 5 == 0 &&
  decide (r.fpol ≤ 1) && fld r.desc 69 11 == 0 && opFmtOk r.op r.fmt && fld r.desc 185 7 == 0 && r.sbase % 64 == 0 &&
  r.ssize % 64 == 0 && decide (64 + 16 * (r.quota + 1) ≤ r.ssize) && fld r.desc 208 16 == 0 && r.quota != 0 &&
  fld r.desc 256 256 == 0 && !overlaps r.base r.bytes r.sbase r.ssize

/-- Two regions' ranges overlap. -/
def Region.meets (r q : Region) : Bool :=
  overlaps r.base r.bytes q.base q.bytes || overlaps r.base r.bytes q.sbase q.ssize ||
  overlaps r.sbase r.ssize q.base q.bytes || overlaps r.sbase r.ssize q.sbase q.ssize

/-- The pages of a range with the translations that the region pins (R246). -/
def pinPages (w : Who) (va n : Nat) : A (List (Nat × Nat)) := do
  if !vaOk va n then throw (.fault va)
  (granules va n).foldlM (fun l a => do
    let pa ← transl w .w a
    return l ++ [(a / 16384, pa / 16384)]) []

/-- The pair slots that a region reserves at its home (R246). -/
def Region.slots (r : Region) : Nat := min r.size 64 * r.quota
/-- The home slice of a region. -/
def Region.home (r : Region) : Nat := homeSlice (r.phys r.base)

/-- The first free entry of the region table. -/
def freeSlot (s : State) : Option Nat := (List.range 1024).find? fun k => !s.regions.any (·.slot == k)

/-- A declaration invalidates every copy of the key lines of a region: the watches on them fire (R84, R246). -/
def fireKeys (r : Region) (s : State) : State :=
  let f (c : Core) : Core :=
    match c.watch with
    | some w => if r.touchesKeys (64 * w.pline) 64 then { c with watch := some { w with fired := true } } else c
    | none => c
  { s with core := f s.core, others := s.others.map f, cache := s.cache.dropCopies fun l => r.touchesKeys (64 * l) 64 }

/-- A read of a region in a lost pool region ends the context (R240). -/
def notLost (r : Region) : M Unit := do if r.lost (← get) then fatal cPoolFatal (dw r.base)

/-- `upd.rgn` (R201, R246, R247). A declaration of a base whose region a releasing `upd.drain` has closed, or that another
context replaces, waits until that has ended (log 123). An address that is not 64-aligned traps before the checks of R78 (log 136).
The spill header is cleared whole (R204, R247, log 121), by a store of the declaring agent that R153 and R154 judge; the drain of a
region that is replaced is judged as `upd.drain` is (R255). -/
def declareRegion (a : Reg) (sc : BitVec 3) : M Flow := do
  let s ← get
  let c := s.core
  let x := c.rg a
  need (x.toNat % 64 = 0) cAlign x
  let w := c.who true sc
  let desc : BitVec 512 := leVec 512 (← acc (gRead w x.toNat 64))
  let r := newRegion 1024 desc c []
  need (regionOk r) cRegion x
  let s ← get
  need (!(s.regions.any fun q => q.base == r.base && q.part != r.part)) cRegion x
  need (!(s.regions.any fun q => q.base != r.base && r.meets q)) cRegion x
  let old := regionAt s r.base
  match freeSlot s, old with
  | none, none => trap cRegion x
  | _, none => need ((s.regions.filter (·.part == c.partid)).length < s.pg c.partid 0x68 2) cRegion x
  | _, some q => if q.closed && (q.replacing == 0 || q.replacing != c.ctx) then stopWith .wait
  let pages := (← acc (pinPages w r.base r.bytes)) ++ (← acc (pinPages w r.sbase r.ssize))
  let r := { r with pages := pages }
  let others := s.regions.filter fun q => !(q.part == r.part && q.base == r.base) && q.home == r.home
  need ((others.map Region.slots).sum + r.slots ≤ 16384) cRegion x
  waitFar sc
  match old with
  | some q => iff' (q.replacing != c.ctx) (do
      notLost q
      need (!q.unordered w) cConflict (dw q.base))
  | none => pure ()
  acc (tagLine w true r.sbase (physTag (r.phys r.sbase / 64)))
  let slot := match old with
    | some q => q.slot
    | none => (freeSlot s).getD 0
  let install : M Flow := do
    modS fun s => { s with regions := s.regions.filter (·.slot != slot) ++ [{ r with slot := slot }] }
    modS (physStore w (r.phys r.sbase) (leBytes 64 0))
    modS (fireKeys r)
    return .next
  match old with
  | none => install
  | some _ => do
    modRegion slot fun q => { q with closed := true, replacing := c.ctx }
    modS (arriveAll slot)
    if ((← get).regions.find? (·.slot == slot)).any (·.held') then return .stay
    modS (applyRegion slot)
    install

/-- `upd.rgn` (R201, R246, R247). -/
def execUpdRgn (a : Reg) (sc : BitVec 3) (s : State) : Host.Outcome State Fault Refusal :=
  runSeq 4 (declareRegion a sc) s

/-! ## Reading and draining (R207, R252) -/

/-- `upd.flags` (R207, R253). -/
def readFlags (d a : Reg) : M Flow := do
  let c ← getC
  let r ← lookupRegion (c.rg a).toNat (c.rg a)
  notLost r
  acc (trigger (c.who true 0) (c.rg a).toNat (r.phys r.base) 1)
  modS (applyRegion r.slot)
  let s ← get
  wG d (((s.regions.find? (·.slot == r.slot)).map (·.status)).getD 0)
  return .next

/-- `upd.flags` (R207). -/
def execUpdFlags (d a : Reg) (_sc : BitVec 3) (s : State) : Host.Outcome State Fault Refusal := runSeq 4 (readFlags d a) s

/-- The pairs on their way to a region arrive; where some find no room, the region is applied and takes them (R204, R251). -/
def settlePairs (slot : Nat) (s : State) : State :=
  let s := arriveAll slot s
  if (s.regions.find? (·.slot == slot)).any (!·.waiting.isEmpty) then applyRegion slot s else s

/-- The wait of `upd.drain` and the steps after it (R252, R325): the region's table entry. It applies once every emission that
it waits for is accepted. -/
def drainRest (slot : Nat) : M Flow := do
  modS (settlePairs slot)
  let s ← get
  let c := s.core
  match s.regions.find? (·.slot == slot) with
  | none => pure ()
  | some r =>
    if r.closed && r.held' then
      return .hold c.busyMask
    notLost r
    modS (applyRegion slot)
    iff' r.closed (modS fun s => { s with regions := s.regions.filter (·.slot != slot) })
  modC fun c => { c with commit := .none }
  return .next

/-- `upd.drain` (R252): the region is judged here, and applied once, after the wait. -/
def drainRegion (a : Reg) (sc : BitVec 3) : M Flow := do
  let c ← getC
  match c.commit with
  | .updDrain slot => drainRest slot
  | _ =>
    let x := c.rg a
    need (fld x 57 7 = 0) cAccess x
    need (fld x 1 5 = 0) cAlign x
    let r ← lookupRegion (fld x 6 51 * 64) x
    notLost r
    let _ ← acc (triggered (c.who true sc) r.base (r.phys r.base) 1)
    waitFar (maxScope sc r.scope)
    iff' (bit x 0) (modRegion r.slot fun r => { r with closed := true })
    modC fun c => { c with commit := .updDrain r.slot }
    drainRest r.slot

/-- `upd.drain` (R252). -/
def execUpdDrain (a : Reg) (sc : BitVec 3) (s : State) : Host.Outcome State Fault Refusal := runSeq 4 (drainRegion a sc) s

/-! ## The Tumbler's steps (R204, R206) -/

/-- A pair on its way arrives at its bin (R204). -/
def pairArrives (rgn ix : Nat) : M Unit := do
  let s ← get
  match s.regions.find? (·.slot == rgn) with
  | none => stopWith .wait
  | some r =>
    match r.transit[ix]? with
    | none => stopWith .wait
    | some p => do
      modRegion rgn fun r => { r with transit := r.transit.eraseIdx ix }
      let (ok, s') := arrive rgn p (← get)
      set s'
      iff' (!ok) (modRegion rgn fun r => { r with waiting := r.waiting ++ [p] })

/-- TUMBLER_PAIR_ARRIVAL (R204). -/
def execTumblerPairArrival (rgn ix : Nat) (s : State) : Host.Outcome State Fault Refusal := runDev (pairArrives rgn ix) s

/-- An application of a region is wanted: an `upd.drain` waits on it, or its replacement does, and a pair has found no room
(R247, R251, R252). A read applies in its own step (R205). -/
def applicationWanted (rgn : Nat) (s : State) : Bool :=
  s.regions.any fun r => r.slot == rgn && !r.waiting.isEmpty &&
    (s.cores.any (fun c => c.commit == .updDrain rgn) || r.replacing != 0)

/-- TUMBLER_APPLICATION (R206): the spill area is empty then, and the pairs that wait are accepted (R204). -/
def execTumblerApplication (rgn : Nat) (s : State) : Host.Outcome State Fault Refusal :=
  .next (if applicationWanted rgn s then acceptWaiting rgn (applyHeld rgn s) else s)

end Sys2Proof.Machine
end

