-- ==== Sys2Proof/Machine/Queues.lean ====
section
/-! DEFINITION. The queues (R14, R15, R26, R104, R105, R164, R180, R197, R317): routing, the start of a head, its
completion, queue traps, token deadlock. -/
namespace Sys2Proof.Machine

/-! ## Performing an entry -/

/-- An entry that writes nothing at completion. -/
def doneM (m : M Unit) : M Perf := do
  m
  return .done Eff.none

/-- The queue of an instruction: 1 LQ, 2 MQ, 3 SQ. -/
def queueOf (i : Instr) : Nat := i.agent.toNat

/-- The effects of an entry become visible. -/
def Eff.apply (f : Eff) (c : Core) : Core :=
  let c := f.tiles.foldl (fun c t => c.setTile (BitVec.ofNat 4 t.1) t.2) c
  let c := f.accs.foldl (fun c a => c.setAcc (BitVec.ofNat 2 a.1) a.2) c
  let c := f.cfgs.foldl (fun c k => c.setCfg (BitVec.ofNat 2 k.1) k.2) c
  c.orFlags f.fl

/-- A wait on an object as an entry makes it. -/
def Waits.perf : Waits → Perf
  | .made => .done Eff.none
  | .waits ch => .hold ch

/-- What an entry does once its waits are consumed: the performer of its instruction, on the tiles and accumulators as
they stand. -/
def performNow (e : Entry) : M Perf :=
  match e.instr with
  | .ldT _ st t => Perf.done <$> performLdT st t e
  | .ldA _ st a => Perf.done <$> performLdA st a e
  | .ldTi _ st t i => Perf.done <$> performLdTi st t i e
  | .ldFf _ st t => Perf.done <$> performLdFf st t e
  | .bmand _ st t r => Perf.done <$> performBmand st t r e
  | .bmpfx _ st t => Perf.done <$> performBmpfx st t e
  | .isxG _ st t i => Perf.done <$> performIsxG st t i e
  | .mmaTileTile _ a ta tb zf f => Perf.done <$> performMmaTileTile a ta tb zf f e
  | .mmaPatternA _ a tb _ zf f => Perf.done <$> performMmaPatternA a tb zf f e
  | .mmaPatternB _ a ta _ zf f => Perf.done <$> performMmaPatternB a ta zf f e
  | .cmpa _ a ta f => Perf.done <$> performCmpa a ta f e
  | .acz _ a => Perf.done <$> performAcz a
  | .tsm _ => Perf.done <$> performTsm
  | .stT _ st t => Perf.done <$> performStT st t e
  | .stTi _ st t i => Perf.done <$> performStTi st t i e
  | .stFf _ st t => Perf.done <$> performStFf st t e
  | .stZ _ st => Perf.done <$> performStZ st e
  | .stA _ st a => Perf.done <$> performStA st a e
  | .drn _ st a f => Perf.done <$> performDrn st a f e
  | .drnT _ t a f => Perf.done <$> performDrnT t a f e
  | .dcfgSc _ st a col => Perf.done <$> performDcfgSc st a col e
  | .dcfgBi _ st a col => Perf.done <$> performDcfgBi st a col e
  | .dcfgFn _ st a => Perf.done <$> performDcfgFn st a e
  | .dcfgCl _ a _ => Perf.done <$> performDcfgCl a e
  | .dcfgRm _ a _ => Perf.done <$> performDcfgRm a e
  | .srsSeed _ _ => Perf.done <$> performSrsSeed e
  | .upd _ k t _ sc => performUpd k t sc e
  | .barInit _ _ _ _ _ => doneM (barInitOp e.g0 e.g1)
  | .barExp _ _ _ _ sc => doneM (barExpOp e.g0 e.g1 sc)
  | .barArr _ _ _ sc => doneM (barArrOp e.g0 sc)
  | .barWait _ _ _ _ _ => Waits.perf <$> barWaitOp (queueOf e.instr) e.g0 e.g1
  | .ringFill _ _ _ _ sc => doneM (ringFillOp e.g0 e.g1 sc)
  | .ringRel _ _ _ _ sc => doneM (ringRelOp e.g0 e.g1 sc)
  | .ringWf _ _ _ _ _ => Waits.perf <$> ringWfOp (queueOf e.instr) e.g0 e.g1
  | .ringWe _ _ _ _ _ => Waits.perf <$> ringWeOp (queueOf e.instr) e.g0 e.g1
  | .evqPost _ _ _ _ sc => doneM (evqPostOp e.g0 e.g1 sc)
  | .joinDec _ _ _ sc => Waits.perf <$> joinDecOp (queueOf e.instr) e.g0 sc
  | _ => stopWith .wait

/-- The tiles that an entry reads as sources (R104). -/
def Entry.sources (e : Entry) : List (BitVec 4) :=
  match e.instr with
  | .ldT .. | .ldFf .. | .bmpfx .. | .drnT .. => []
  | .ldTi _ _ _ i | .bmand _ _ _ i | .isxG _ _ _ i => [i]
  | _ => e.names

/-- The accumulator that an entry reads as a source (R104). -/
def Entry.sourceAcc (e : Entry) : List (BitVec 2) :=
  match e.instr with
  | .stA _ _ a | .drn _ _ a _ | .drnT _ _ a _ => [a]
  | _ => []

/-- What an entry reads at its start: a drain also its configuration (R104, R107). -/
def Entry.reads (e : Entry) (c : Core) : Eff :=
  ⟨e.sources.map fun t => (t.toNat, c.tile t), e.sourceAcc.map fun a => (a.toNat, c.acc a),
   e.sourceAcc.map fun a => (a.toNat, c.cfg a), 0⟩

/-- What an entry does once its waits are consumed: one that has started works on what it read at its start (R104, R324). -/
def perform (e : Entry) : M Perf := do
  if !e.started then return (← performNow e)
  let c ← getC
  modC e.read.apply
  let r ← performNow e
  modC fun d => { d with tiles := c.tiles, accs := c.accs, cfgs := c.cfgs }
  return r

/-! ## Routing (R14) -/

/-- The g registers that a queue instruction names, in field order (R14, R329). -/
def gNamed : Instr → List Reg
  | .dcfgCl _ _ b | .dcfgRm _ _ b | .srsSeed _ b => [b]
  | .upd _ _ _ g _ => [g]
  | .barInit _ _ a b _ | .barExp _ _ a b _ | .barWait _ _ a b _ | .ringFill _ _ a b _ | .ringRel _ _ a b _
  | .ringWf _ _ a b _ | .ringWe _ _ a b _ | .evqPost _ _ a b _ => [a, b]
  | .barArr _ _ a _ | .joinDec _ _ a _ => [a]
  | _ => []

/-- The stream register that a queue instruction names. -/
def streamNamed : Instr → Option Reg
  | .ldT _ st _ | .ldA _ st _ | .ldTi _ st _ _ | .ldFf _ st _ | .bmand _ st _ _ | .bmpfx _ st _ | .isxG _ st _ _
  | .stT _ st _ | .stTi _ st _ _ | .stFf _ st _ | .stZ _ st | .stA _ st _ | .drn _ st _ _ | .dcfgSc _ st _ _
  | .dcfgBi _ st _ _ | .dcfgFn _ st _ => some st
  | _ => none

/-- The tiles of the four shape fields of an entry: A, B, the tile field, the index tile (R329). `upd` has its key tile
in A. -/
def shapeTiles (c : Core) : Instr → List (Option (BitVec 4))
  | .ldT _ _ t | .ldFf _ _ t | .bmpfx _ _ t | .stT _ _ t | .stFf _ _ t | .drnT _ t _ _ => [none, none, some t, none]
  | .ldTi _ _ t i | .isxG _ _ t i | .stTi _ _ t i | .bmand _ _ t i => [none, none, some t, some i]
  | .mmaTileTile _ _ a b _ _ => [some a, some b, none, none]
  | .mmaPatternA _ _ b p _ _ => [none, some b, none, (patIndex (c.rp p)).head?]
  | .mmaPatternB _ _ a p _ _ => [some a, none, none, (patIndex (c.rp p)).head?]
  | .cmpa _ _ a _ => [some a, none, none, none]
  | .upd _ k t _ _ => [some k, none, some t, none]
  | _ => [none, none, none, none]

/-- The copied pattern register, or the copied seed of a drain (R14, R329). -/
def patCopied (c : Core) : Instr → Dword
  | .mmaPatternA _ _ _ p _ _ | .mmaPatternB _ _ _ p _ _ => c.rp p
  | .drn .. | .drnT .. => c.seed
  | _ => 0

/-- The entry that routing makes (R14). -/
def entryOf (i : Instr) (c : Core) (num : Nat) : Entry :=
  let sh (k : Nat) : BitVec 19 :=
    match (shapeTiles c i).getD k none with
    | some t => (c.tile t).tc.setWidth 19
    | none => 0
  { instr := i, word := (encode i).1, addr := c.pc, num := num, g := (gNamed i).map c.rg, pat := patCopied c i,
    shA := sh 0, shB := sh 1, shT := sh 2, shI := sh 3,
    stream := match streamNamed i with
      | some st => c.rs st
      | none => 0,
    progress := 0, started := false, skip := false, waited := false, flight := none, read := Eff.none, seqKept := none,
    stopAt := none }

/-- The checkpoint of the sequencer, at the word after the current one (R341). -/
def Core.checkpoint (c : Core) (pc : Dword) : Check :=
  { g := c.g, p := c.p, st := c.st, hm := c.hm, phm := c.phm, cause := c.cause, epc := c.epc, tval := c.tval,
    fflg := c.fflg, seed := c.seed, iterlim := c.iterlim, bankmode := c.bankmode, tkcnt := c.tkcnt,
    tc := c.tiles.map (·.tc), pc := pc, routed := 0 }

/-- A `tsm` is routed: the replay window and the checkpoint begin anew (R105, R341). -/
def Core.mark (c : Core) : Core :=
  { c with marker := true, retained := [], dirtyAcc := 0, builtAcc := 0, restored := [], performed := [], replayBase := none,
           check := c.checkpoint (c.pc + 4) }

/-- An entry enters its queue, the counters of words routed and the replay window (R105, R338). -/
def Core.enqueue (c : Core) (q : Nat) (e : Entry) : Core :=
  let c := c.setQueue q (c.queue q ++ [e])
  let c := c.count (q + 1)
  match e.instr with
  | .tsm _ => c.mark
  | _ => { c with retained := if c.retained.length < 65 then c.retained ++ [e] else c.retained,
                  check := { c.check with routed := min 65 (c.check.routed + 1) } }

/-- Routing (R14, R317, R319): it stalls while the queue is full, stops while a queue trap is on its way, and raises
the handler-state trap in a handler that has held state. -/
def route (i : Instr) : M Flow := do
  let s ← get
  let c := s.core
  let q := queueOf i
  if c.hm && c.held.isSome then trapX cHandler
  if c.qtrap.isSome then stopWith .wait
  if 32 ≤ (c.queue q).length then stopWith (.waitQ (2 ^ q))
  modS fun s => { s with core := s.core.enqueue q (entryOf i s.core s.nextNum), nextNum := s.nextNum + 1 }
  return .next

/-! ## Tokens (R15, R37) -/

/-- The counters that a queue's waits need are not 0. -/
def waitOk (c : Core) (q : Nat) (t : Tok) : Bool :=
  if q = 1 then !t.wd || c.lmUp != 0
  else if q = 2 then (!t.wu || c.lmDn != 0) && (!t.wd || c.msUp != 0)
  else !t.wu || c.msDn != 0

/-- The waits consumed, in one step. -/
def consume (c : Core) (q : Nat) (t : Tok) : Core :=
  if q = 1 then { c with lmUp := if t.wd then c.lmUp - 1 else c.lmUp }
  else if q = 2 then { c with lmDn := if t.wu then c.lmDn - 1 else c.lmDn, msUp := if t.wd then c.msUp - 1 else c.msUp }
  else { c with msDn := if t.wu then c.msDn - 1 else c.msDn }

/-- The counters that a queue's sends raise are below 63. An MQ entry that raises two counters raises neither until both have
room (log 129). -/
def sendOk (c : Core) (q : Nat) (t : Tok) : Bool :=
  if q = 1 then !t.sd || c.lmDn != 63
  else if q = 2 then (!t.su || c.lmUp != 63) && (!t.sd || c.msDn != 63)
  else !t.su || c.msUp != 63

/-- The sends. -/
def sendTokens (c : Core) (q : Nat) (t : Tok) : Core :=
  if q = 1 then { c with lmDn := if t.sd then c.lmDn + 1 else c.lmDn }
  else if q = 2 then { c with lmUp := if t.su then c.lmUp + 1 else c.lmUp, msDn := if t.sd then c.msDn + 1 else c.msDn }
  else { c with msUp := if t.su then c.msUp + 1 else c.msUp }

/-- The token flags of an entry. -/
def Entry.tok (e : Entry) : Tok := e.instr.tok

/-! ## Completion (R15, R104, R105) -/

/-- An instruction that rebuilds the accumulator it writes (R105). -/
def rebuilds : Instr → Bool
  | .ldA .. | .acz .. => true
  | .mmaTileTile _ _ _ _ zf _ | .mmaPatternA _ _ _ _ zf _ | .mmaPatternB _ _ _ _ zf _ => zf
  | _ => false

/-- The entries of the replay window: those of the image that stands for it, and those routed since the marker (R105, R323). -/
def Core.replayWindow (c : Core) : List Entry := c.restored ++ c.retained

/-- An entry of the window has performed: what it wrote, and what it read and S and n as it found them. -/
def Core.noteDone (c : Core) (e : Entry) (f read : Eff) (srS srN : Dword) : Core :=
  if !c.replayWindow.any (·.num == e.num) then c
  else if c.performed.any (·.num == e.num) then
    { c with performed := c.performed.map fun x => if x.num = e.num then { x with wrote := f } else x }
  else { c with performed := c.performed ++ [⟨e.num, f, read, srS, srN⟩] }

/-- The entries performed since the marker, the accumulators written, and which of them were rebuilt first (R105). -/
def Core.noteAccs (c : Core) (e : Entry) (f : Eff) : Core :=
  if !c.replayWindow.any (·.num == e.num) then c else
  let c := c.noteDone e f e.read c.srS c.srN
  f.accs.foldl (fun c a =>
    let c := if rebuilds e.instr && !bit c.dirtyAcc a.1 then { c with builtAcc := setBit c.builtAcc a.1 true } else c
    { c with dirtyAcc := setBit c.dirtyAcc a.1 true }) c

/-- The head of a queue completes; the word that the sequencer stalls at is tried anew (R197). -/
def Core.complete (c : Core) (q : Nat) (e : Entry) (f : Eff) : Core :=
  let c := (f.apply c).noteAccs e f
  sendTokens ({ c with stall := 0 }.setQueue q ((c.queue q).drop 1)) q e.tok

/-- The head of a queue changed. -/
def Core.setHead (c : Core) (q : Nat) (e : Entry) : Core := c.setQueue q (e :: (c.queue q).drop 1)

/-! ## Deterministic interlocks (R104, R164) -/

/-- The tiles and accumulators that an instruction writes and reads: tiles t at t, accumulators a at 16 + a. -/
def writesOf : Instr → List Nat
  | .ldT _ _ t | .ldTi _ _ t _ | .ldFf _ _ t | .bmand _ _ t _ | .bmpfx _ _ t | .isxG _ _ t _ | .drnT _ t _ _ => [t.toNat]
  | .ldA _ _ a | .mmaTileTile _ a _ _ _ _ | .mmaPatternA _ a _ _ _ _ | .mmaPatternB _ a _ _ _ _ | .cmpa _ a _ _
  | .acz _ a => [16 + a.toNat]
  | _ => []
def readsOf (e : Entry) : List Nat :=
  e.sources.map (·.toNat) ++ e.sourceAcc.map (fun a => 16 + a.toNat) ++
  (match e.instr with
    | .mmaTileTile _ a _ _ _ _ | .mmaPatternA _ a _ _ _ _ | .mmaPatternB _ a _ _ _ _ | .cmpa _ a _ _
    | .dcfgSc _ _ a _ | .dcfgBi _ _ a _ | .dcfgFn _ _ a | .dcfgCl _ a _ | .dcfgRm _ a _ => [16 + a.toNat]
    | _ => [])

/-- The byte ranges that an entry's stream walk accesses, as its copies and the tiles stand; those of `ld.ff` and `st.ff`
are `fifoSpans`. -/
def Entry.spans (e : Entry) (c : Core) : List (Int × Nat) :=
  let t := strOf e.stream
  let b := fmtBits t.fmt
  let rows := t.liveRows.map fun i => (i, i)
  match e.instr with
  | .ldTi _ _ _ i | .stTi _ _ _ i =>
    let r := indexRows t (c.tile i) e.shI
    segSpans b (t.segs b r) ++ t.sideSpans r
  | .isxG _ _ _ i =>
    (gatherOffsets (c.tile i) (shCols e.shI)).map fun o => ((t.base : Int) + (o * b / 8 : Nat), max 1 (b / 8))
  | .stA .. => segSpans b (t.segs b rows) ++ t.liveRows.map fun (i : Nat) => ((t.base : Int) + 32 * t.rstride + 8 * (i : Int), 8)
  | .ldFf .. | .stFf .. => []
  | _ => if (streamNamed e.instr).isSome then segSpans b (t.segs b rows) ++ t.sideSpans rows else []

/-- The bank and the bytes of an `ld.ff` or a `st.ff`. -/
def Entry.fifoUse (e : Entry) (c : Core) : Option (Nat × Nat) :=
  let t := strOf e.stream
  match e.instr with
  | .ldFf .. | .stFf .. => (localParts c.id t.base).map fun p => (p.2.1, fifoBytes t)
  | _ => none

/-- The bytes of its FIFO bank that an `ld.ff` takes or a `st.ff` fills, in the bank list: those after what the earlier entries
of its queue take or fill, or, of one that has performed and waits to complete, those that it took or filled. In deterministic mode
they hold a later `st.ff` behind an `ld.ff` that waits; in the other mode nothing does, and the `st.ff` fills the FIFO (log 97). -/
def Entry.fifoSpans (e : Entry) (c : Core) : List (Nat × Nat) :=
  match e.fifoUse c with
  | none => []
  | some (k, n) =>
    let f := vget c.fifo k 0
    let before := ((c.queue (queueOf e.instr)).filter fun x => decide (x.num < e.num) && x.flight.isNone).filterMap (·.fifoUse c)
    let o := (match e.instr with | .ldFf .. => fld f 32 32 | _ => fld f 0 32) + ((before.filter (·.1 == k)).map (·.2)).sum +
      (if e.flight.isSome then 2 ^ 32 - n else 0)
    (fifoCuts o n).map fun p => (bankBase c.id k + p.1, p.2)

/-- What a join decrement accesses: the counter, and the record and the slot of the push that it may make (R132). -/
def joinSpans (s : State) (av : Nat) : List (Nat × Nat) :=
  (av, 16) ::
  (match fwRead s s.core.partid av 16 with
    | none => []
    | some bs =>
      let q := s.cq (bytesAt bs 4 1)
      [(bytesAt bs 8 8, 32), (q.slotVa q.tail, 32)])

/-- The objects of a Y word in a queue: space, address and bytes. -/
def Entry.objects (e : Entry) (s : State) : List (Bool × Nat × Nat) :=
  match e.instr with
  | .barInit .. | .barExp .. | .barArr .. | .barWait .. => [(true, e.g0.toNat, 16)]
  | .joinDec .. => (joinSpans s e.g0.toNat).map fun r => (false, r.1, r.2)
  | _ => []

/-- The 64-byte lines of a range of a space: (true) of the bank list, or of physical memory. -/
def lineKeys (s : State) (loc : Bool) (a n : Nat) : List (Bool × Nat) :=
  if loc then
    (localCuts a n).flatMap fun p =>
      match localParts s.core.id p.1 with
      | some (id, b, o) => (linesOf (bankBase id b + o) p.2).map (true, ·)
      | none => []
  else
    (granules a n).flatMap fun g =>
      match s.lookup (s.core.who false 0) g with
      | some l => (linesOf l.pa (min (a + n - g) (16384 - g % 16384))).map (false, ·)
      | none => []

/-- The lines that an entry accesses. -/
def Entry.lines (e : Entry) (s : State) : List (Bool × Nat) :=
  let t := strOf e.stream
  ((e.spans s.core).flatMap fun r => lineKeys s t.loc (addrOf r.1) r.2) ++
  ((e.fifoSpans s.core).flatMap fun r => (linesOf r.1 r.2).map (true, ·)) ++
  (e.objects s).flatMap fun o => lineKeys s o.1 o.2.1 o.2.2

/-- An entry writes the lines that it accesses. -/
def Entry.stores (e : Entry) : Bool :=
  match e.instr with
  | .stT .. | .stTi .. | .stZ .. | .stA .. | .drn .. | .stFf .. | .barInit .. | .barExp .. | .barArr .. | .joinDec .. => true
  | _ => false

/-- The lines of an entry depend on an index tile that an earlier-routed entry has still to write. -/
def Entry.unsettled (e : Entry) (c : Core) : Bool :=
  match e.instr with
  | .ldTi _ _ _ i | .stTi _ _ _ i | .isxG _ _ _ i =>
    [1, 2, 3].any fun q => (c.queue q).any fun x => decide (x.num < e.num) && (writesOf x.instr).contains i.toNat
  | _ => false

/-- A head that a pre-emption stopped inside: it has started, and done some of its units (R324). -/
def Entry.resumed (e : Entry) : Bool := e.started && e.progress != 0 && e.flight.isNone

/-- The head of another queue that a pre-emption stopped inside has still to write what an entry names: the entry does not see
its first units alone (R104, R283, R324; log 18). -/
def besideResumed (s : State) (q : Nat) (e : Entry) : Bool :=
  [1, 2, 3].any fun q' => q' != q && (s.core.queue q').head?.any fun x =>
    x.resumed && !s.core.isHeld x &&
    (writesOf x.instr).any (fun w => (writesOf e.instr ++ readsOf e).contains w)

/-- In deterministic mode an entry waits for an earlier-routed entry of another queue (R104, R164). -/
def interlocked (s : State) (q : Nat) (e : Entry) : Bool :=
  let c := s.core
  c.det && ([1, 2, 3].any fun q' => q' != q && (c.queue q').any fun x =>
    decide (x.num < e.num) &&
    ((writesOf x.instr).any (fun w => (writesOf e.instr ++ readsOf e).contains w) ||
     (writesOf e.instr).any (fun w => (readsOf x).contains w) ||
     ((x.stores || e.stores) &&
       (x.unsettled c || e.unsettled c || (x.lines s).any (fun l => (e.lines s).contains l)))))

/-! ## Queue traps (R197, R317) -/

/-- The entries routed before `num` that nothing holds, in every queue. -/
def Core.earlier (c : Core) (num : Nat) (extra : List Nat) : List (Nat × Entry) :=
  [1, 2, 3].flatMap fun q => ((c.queue q).filter fun e => e.num < num && !extra.contains e.num).map fun e => (q, e)

/-- A queue sends nothing more: each of its entries is held (R317). -/
def noSender (c : Core) (q num : Nat) (extra : List Nat) : Bool :=
  (c.queue q).all fun e => num ≤ e.num || extra.contains e.num

/-- The head of a queue waits on a counter that holds 0 and that nothing can raise (R317). -/
def starved (c : Core) (num : Nat) (extra : List Nat) (q : Nat) : Bool :=
  match c.queue q with
  | [] => false
  | e :: _ =>
    let t := e.tok
    decide (e.num < num) && !extra.contains e.num && !e.waited && e.flight.isNone &&
    (if q = 1 then t.wd && c.lmUp = 0 && noSender c 2 num extra
     else if q = 2 then (t.wu && c.lmDn = 0 && noSender c 1 num extra) || (t.wd && c.msUp = 0 && noSender c 3 num extra)
     else t.wu && c.msDn = 0 && noSender c 2 num extra)

/-- The entries that step 3 of R317 holds: every entry of a starved queue, found in at most three rounds. -/
def starvedAll (c : Core) (num : Nat) : Nat → List Nat → List Nat
  | 0, extra => extra
  | n + 1, extra =>
    let more := ([1, 2, 3].filter (starved c num extra)).flatMap fun q => (c.queue q).map (·.num)
    starvedAll c num n (extra ++ more)

/-- A waiting word abandoned at a queue trap (R317): it executes again from its start at the resume address (R318; log 38).
`upd.s` takes back its pair and its number. -/
def abandonWord (s : State) : State :=
  let c := s.core
  let own := 2 * c.id.toNat + 1
  let s := { s with core := { c with commit := .none, asleep := false, deadline := 0, timedOut := false, woken := false,
                                     objWaits := c.objWaits.filter (·.agent != 0) } }
  match c.commit with
  | .updS slot =>
    let sent := s.regions.any fun r => (r.transit ++ r.waiting).any fun p => p.owner == own && p.seq + 1 == c.seqctr
    let s := dropPairs [own] s
    { s with core := { s.core with seqctr := if sent then c.seqctr - 1 else c.seqctr },
             regions := s.regions.map fun (r : Region) => if r.slot = slot then r.unhold c true else r }
  | _ => s

/-- The handler is entered once every earlier entry has completed or can never complete (R317). -/
def enterQueueTrap (s : State) : Option State :=
  match s.core.qtrap with
  | none => none
  | some t =>
    let c := s.core
    let extra := starvedAll c t.num 3 []
    if !(c.earlier t.num extra).isEmpty then none else
    let epc := ((c.queue t.queue).head?.map (·.addr)).getD 0
    let s := abandonWord s
    some (enterTrap t.cause epc t.tval
      { s with core := { s.core with qtrap := none, held := some ⟨c.pc, t.queue, t.num, extra⟩, stall := 0 } })

/-- The entry at the head of a queue traps: it becomes T if no earlier entry has trapped (R317). -/
def noteQueueTrap (q : Nat) (e : Entry) (cause : Nat) (tval : Dword) (s : State) : State :=
  let s := { s with core := { s.core with qtrap := some ⟨q, e.num, cause, tval⟩,
                                          objWaits := s.core.objWaits.filter (·.agent != q) } }
  (enterQueueTrap s).getD s

/-! ## The start of a head (R15, R26) -/

/-- The effects since the marker can be rebuilt (R105). -/
def Core.replayable (c : Core) : Bool := c.marker && c.retained.length ≤ 64 && c.dirtyAcc &&& ~~~ c.builtAcc == 0

/-- What a replay does with a retained entry that has performed (R105, log 98). -/
inductive Again where
  /-- It is executed again, with S and n as it found them. -/
  | run (e : Entry) (srS srN : Dword)
  /-- `ld.ff`: the tile has what it was given, since the FIFO has moved on. -/
  | put (f : Eff)
deriving DecidableEq, Repr

/-- An instruction whose effect counts: a word on an object, a pair of an update stream, a FIFO's bytes. -/
def counted : Instr → Bool
  | .stFf .. | .upd .. | .barInit .. | .barExp .. | .barArr .. | .barWait .. | .ringFill .. | .ringRel .. | .ringWf .. | .ringWe ..
  | .evqPost .. | .joinDec .. => true
  | _ => false

/-- The retained entries that a replay executes again, in the order in which they performed (R105). An entry of LQ or MQ works on
the tiles as they are loaded again, one of SQ on what it read, so that memory gets what it got. What counts is not counted
twice (log 98), and one that has not completed keeps what it will write. -/
def Core.replayed (c : Core) : List Again :=
  c.performed.filterMap fun x =>
    match c.replayWindow.find? (·.num == x.num) with
    | none => none
    | some e =>
      if [1, 2, 3].any fun q => (c.queue q).any fun y => y.num == x.num && y.flight.isSome && y.progress == 0 then none
      else if counted e.instr then none
      else match e.instr with
      | .ldFf .. => some (.put x.wrote)
      | i => some (.run (if queueOf i = 3 then { e with started := true, read := x.read } else e) x.srS x.srN)

/-- The contents that a replay starts from (R105, R323): every accumulator written since the marker is discarded; where an
image stands for the window, its accumulators and tiles come back. -/
def Core.discard (c : Core) : Core :=
  match c.replayBase with
  | some f => f.apply c
  | none => (List.range 4).foldl (fun c a => if bit c.dirtyAcc a then c.setAcc (BitVec.ofNat 2 a) Acc.zero else c) c

/-- Retained entries executed again. -/
def replayFrom : List Again → State → State
  | [], s => s
  | .put f :: r, s => replayFrom r { s with core := { f.apply s.core with fflg := s.core.fflg } }
  | .run e m n :: r, s =>
    match perform e { s with core := { s.core with srS := m, srN := n } } with
    | .ok (.done f, t) =>
      replayFrom r { t with core := { f.apply t.core with fflg := t.core.fflg, srS := s.core.srS, srN := s.core.srN } }
    | .error (.fatal c v) => endContext c e.addr v s.core.id s
    | _ => endContext cUnreplay e.addr 0 s.core.id s

/-- An uncorrectable array error (R105, R344): the replay discards and rebuilds, or the context ends. -/
def arrayError (epc : Dword) (s : State) : State :=
  let c := s.core
  if c.replayable then replayFrom c.replayed (logCore 0x45 c { s with core := (c.count 7).discard })
  else endContext cUnreplay epc 0 c.id s

/-- An instruction that reads array operands in MQ. -/
def arrayRead : Instr → Bool
  | .mmaTileTile .. | .mmaPatternA .. | .mmaPatternB .. | .cmpa .. => true
  | _ => false

/-- Stores of a queue that are not performed at their own scope: to a peer or to the host, or at PL or SY to the pool. An entry
completes when its accesses are performed (R164, R224, R234). -/
def State.queueFar (s : State) (q : Nat) : Bool :=
  let own (core : BitVec 11) (agent ctx : Nat) := core == s.core.id && agent == q && ctx == s.core.ctx
  s.remote.any (fun r => own r.core r.agent r.ctx) || s.hostStores.any (fun r => own r.core r.agent r.ctx) ||
  s.poolStores.any fun r => own r.core r.agent r.ctx && decide (5 ≤ r.scope.toNat) && !r.lost

/-- A head that has performed may complete: its sends find room, and its accesses are performed (R15, R164). -/
def State.canComplete (s : State) (q : Nat) (e : Entry) : Bool := sendOk s.core q e.tok && !s.queueFar q

/-- The state after an entry whose waits are consumed has been performed; none when it has to wait. What an entry writes waits
with its completion (log 85); a resumed one, whose first units the others have never seen beside what came before, writes at once
(log 128). A head that is held continues only when it is a resumed one, and traps after the held trap is over. -/
def runEntry (q : Nat) (e : Entry) (s : State) : Option State :=
  let read := if e.started then e.read else e.reads s.core
  match perform e s with
  | .ok (.done f, t) =>
    let t := { t with core := t.core.noteDone e f read s.core.srS s.core.srN }
    if t.canComplete q e then some { t with core := t.core.complete q e f }
    else if e.progress = 0 then some { t with core := t.core.setHead q { e with started := true, flight := some f } }
    else some { t with core := ((f.apply t.core).noteAccs e f).setHead q { e with flight := some Eff.none } }
  | .ok (.part p, t) =>
    if e.started && p = e.progress then none
    else some { t with core := t.core.setHead q { e with started := true, progress := p, read := read,
                                                         seqKept := if p = e.progress then e.seqKept else none } }
  | .ok (.hold changed, t) => if changed then some t else none
  | .error (.trap c v) => if s.core.qtrap.any (fun t => t.num < e.num) then none else some (noteQueueTrap q e c v s)
  | .error (.trapX c) => if s.core.qtrap.any (fun t => t.num < e.num) then none else some (noteQueueTrap q e c (Config.openTval s.fresh) { s with fresh := s.fresh + 1 })
  | .error (.fatal c v) => some (endContext c e.addr v s.core.id s)
  | .error _ => none

/-- The head of a queue may start at all: it is there, not held, not in flight, and no earlier trap waits; one that has started,
whose tile an entry before the trap may name, goes on beside the trap (R283, R317; log 18). -/
def State.startable (s : State) (q : Nat) : Option Entry :=
  match s.core.queue q with
  | [] => none
  | e :: _ =>
    if s.core.isHeld e || e.flight.isSome || s.core.qtrap.any (fun t => t.num ≤ e.num && !(e.resumed && t.num != e.num)) || interlocked s q e ||
       besideResumed s q e then none
    else some e

/-- A head whose waits are consumed is performed; the error that waits for the core's next array operand read meets the
first one that reads, after its checks (R97, R339). -/
def runHead (q : Nat) (e : Entry) (s : State) : Option State :=
  match s.core.injArray && arrayRead e.instr, perform e s with
  | true, .ok _ => some (arrayError e.addr { s with core := { s.core with injArray := false } })
  | _, _ => runEntry q e s

/-- The head of a queue of the current core starts (R15); none when it cannot. -/
def startQueue (q : Nat) (s : State) : Option State :=
  match s.startable q with
  | none => none
  | some e =>
    if e.waited then runHead q e s
    else if !waitOk s.core q e.tok then none
    else
      let e' := { e with waited := true }
      let t := { s with core := (consume s.core q e.tok).setHead q e' }
      match runHead q e' t with
      | some u => some u
      | none => if e.tok.bits = 0 || (e.tok.wu || e.tok.wd) = false then none else some t

/-- A queue word of the sequencer: it is routed, and its entry starts at once if it can (log 7). -/
def routed (i : Instr) (s : State) : Host.Outcome State Fault Refusal :=
  match route i s with
  | .ok (f, t) =>
    let t := { t with core := t.core.after 4 f }
    .next (if s.eager then (startQueue (queueOf i) t).getD t else t)
  | .error x => .next (seqStop x s)

/-! ## The events of the queues -/

/-- QUEUE_TRAP (R317): the head of a queue traps, or a trap on its way enters the handler. -/
def execQueueTrap (q : BitVec 2) (s : State) : Host.Outcome State Fault Refusal :=
  match enterQueueTrap s with
  | some t => .next t
  | none =>
    match s.startable q.toNat with
    | none => .next s
    | some e =>
      if !(e.waited || waitOk s.core q.toNat e.tok) then .next s else
      match perform e s with
      | .error (.trap ..) | .error (.trapX _) => .next ((startQueue q.toNat s).getD s)
      | _ => .next s

/-- TOKEN_DEADLOCK (R197): the waits of the entry are not consumed. -/
def execTokenDeadlock (q : BitVec 2) (s : State) : Host.Outcome State Fault Refusal :=
  match (s.core.queue q.toNat).head?, s.core.deadlocked q.toNat with
  | some e, some n =>
    if s.core.stall >>> q.toNat % 2 = 1 && s.core.qtrap.all (fun t => e.num < t.num) then
      .next (noteQueueTrap q.toNat e cTokenDead (dw n) s)
    else .next s
  | _, _ => .next s

/-- TOKEN_SEND_RELEASE (R15): a head that has performed completes, its send no longer held at 63 and its accesses
performed. -/
def execTokenSendRelease (q : BitVec 2) (s : State) : Host.Outcome State Fault Refusal :=
  match (s.core.queue q.toNat).head? with
  | some e =>
    match e.flight with
    | some f => .next (if s.canComplete q.toNat e then { s with core := s.core.complete q.toNat e f } else s)
    | none => .next s
  | none => .next s

end Sys2Proof.Machine
end

