-- ==== Sys2Proof/Machine/Image.lean ====
section
/-! DEFINITION. The context image and the queue snapshot as bytes (R326-R329), and a core read back from them (R330). -/
namespace Sys2Proof.Machine

/-- `n` bytes of zero. -/
def zeros (n : Nat) : List Byte := List.replicate n 0

/-- Bytes padded with zeros to a length. -/
def padTo (n : Nat) (bs : List Byte) : List Byte := bs ++ zeros (n - bs.length)

/-- Doublewords as bytes. -/
def dwords (l : List Nat) : List Byte := l.flatMap (leBytes 8)

/-- The bytes of the core part (R326) and of a queue snapshot (R335). -/
def coreBytes : Nat := 0x2C000
def snapBytes : Nat := 12544

/-! ## Entries (R324, R329) -/

/-- The units of an entry (R324); an atomic entry has one. -/
def Entry.units (e : Entry) : Nat :=
  match e.instr with
  | .mmaTileTile .. | .mmaPatternB .. => shCols e.shA
  | .mmaPatternA .. => shRows e.shB
  | .ldT .. | .ldTi .. | .ldA .. | .isxG .. | .stT .. | .stTi .. | .stA .. | .stZ .. | .drn .. => (strOf e.stream).rows
  | .drnT .. => shRows e.shT
  | .upd .. => shRows e.shA * shCols e.shA
  | _ => 1

/-- An entry as its 128 bytes (R329). -/
def Entry.bytes (e : Entry) : List Byte :=
  leBytes 4 e.word.toNat ++ leBytes 4 e.addr.toNat ++ leBytes 4 e.progress ++
  leBytes 4 (e.started.toNat + 2 * e.skip.toNat + 4 * e.waited.toNat) ++
  padTo 24 (e.g.flatMap fun v => leBytes 8 v.toNat) ++ leBytes 8 e.pat.toNat ++
  leBytes 4 e.shA.toNat ++ leBytes 4 e.shB.toNat ++ leBytes 4 e.shT.toNat ++ leBytes 4 e.shI.toNat ++
  leBytes 64 e.stream.toNat

/-- An entry from its 128 bytes, if its word belongs to queue `q`. One that has done all its units has only its
completion left. -/
def entryFrom (q num : Nat) (bs : List Byte) : Option Entry :=
  let w : Word := BitVec.ofNat 32 (bytesAt bs 0 4)
  match decode w 0 with
  | .ok i =>
    if queueOf i != q then none else
    let fl := bytesAt bs 12 4
    let e : Entry :=
      { instr := i, word := w, addr := dw (bytesAt bs 4 4), num := num,
        g := (List.range (gNamed i).length).map fun k => dw (bytesAt bs (16 + 8 * k) 8), pat := dw (bytesAt bs 40 8),
        shA := BitVec.ofNat 19 (bytesAt bs 48 4), shB := BitVec.ofNat 19 (bytesAt bs 52 4),
        shT := BitVec.ofNat 19 (bytesAt bs 56 4), shI := BitVec.ofNat 19 (bytesAt bs 60 4),
        stream := BitVec.ofNat 512 (bytesAt bs 64 64), progress := bytesAt bs 8 4, started := fl % 2 = 1,
        skip := fl / 2 % 2 = 1, waited := fl / 4 % 2 = 1, flight := none,
        read := Eff.none, seqKept := none, stopAt := none }
    let spent := e.started && e.waited && decide (e.units ≤ e.progress) &&
      (match i with
        | .upd .. => false
        | _ => true)
    some { e with flight := if spent then some Eff.none else none }
  | .error _ => none

/-- A head that has only its send left: its effects are made, and it stands in an image with all its units done. -/
def settleHead (q : Nat) (c : Core) : Core :=
  match c.queue q with
  | [] => c
  | e :: _ =>
    match e.flight with
    | none => c
    | some f => ((f.apply c).noteAccs e f).setHead q { e with progress := max e.progress e.units, flight := some Eff.none }

/-- Every such head of a core. -/
def Core.settleHeads (c : Core) : Core := settleHead 3 (settleHead 2 (settleHead 1 c))

/-- The queue header (R329): 256 bytes. -/
def queueHeader (c : Core) (resume : Dword) : List Byte :=
  padTo 256 (dwords [resume.toNat, c.tkcnt.toNat] ++ leBytes 1 c.lq.length ++ leBytes 1 c.mq.length ++
    leBytes 1 c.sq.length ++ leBytes 1 c.held.isSome.toNat ++ leBytes 1 ((c.held.map (·.queue)).getD 0))

/-- The entry slots of the three queues: 12,288 bytes. -/
def queueSlots (c : Core) : List Byte :=
  padTo 4096 (c.lq.flatMap Entry.bytes) ++ padTo 4096 (c.mq.flatMap Entry.bytes) ++ padTo 4096 (c.sq.flatMap Entry.bytes)

/-- The resume address of a queue snapshot: of the held state, or else `epc` (R334). -/
def Core.resumeAddr (c : Core) : Dword := (c.held.map (·.resume)).getD c.epc

/-! ## The core part (R326-R328) -/

/-- The header (R327): 256 bytes. -/
def headerBytes (c : Core) (reason banks : Nat) : List Byte :=
  padTo 256 (leBytes 4 1 ++ leBytes 2 banks ++ leBytes 1 reason ++ leBytes 1 0 ++ leBytes 8 c.id.toNat ++
    leBytes 32 c.record.toNat ++ leBytes 1 c.origin.toNat ++ leBytes 1 c.teamid.toNat ++ leBytes 1 c.inst.toNat ++
    leBytes 1 0 ++ leBytes 4 c.arrivals.toNat ++ leBytes 4 c.waits.toNat)

/-- The committed-word state (R328). -/
def Commit.word : Commit → Nat
  | .updDrain r => 1 + r % 2 ^ 32 * 2 ^ 32
  | .cpAbort x => 1 + x % 2 ^ 32 * 2 ^ 32
  | .netTx _ => 1
  | .monDone => 2
  | .none | .updS _ | .idle | .kvStep | .fence | .mapInv => 0

/-- The register block (R328): 256 bytes. -/
def regBlock (c : Core) : List Byte :=
  padTo 256 (dwords [c.status.toNat, c.cause.toNat, c.epc.toNat, c.tval.toNat, c.fflg.toNat, c.seed.toNat,
      c.iterlim.toNat, c.bankmode.toNat, c.srS.toNat, c.srN.toNat] ++
    leBytes 4 c.seqctr.toNat ++ leBytes 4 c.latchId.toNat ++ leBytes 8 c.latchCh.toNat ++
    c.fifo.toList.flatMap (fun v => leBytes 8 v.toNat) ++ leBytes 8 c.commit.word)

/-- A pin-table entry (R326). -/
def Pin.bytes (p : Pin) : List Byte :=
  leBytes 8 p.base.toNat ++ leBytes 8 (setBit (setBit p.len 63 p.w) 62 p.revoked).toNat

/-- A loop level (R326). -/
def Loop.bytes (l : Loop) : List Byte := leBytes 8 (l.kind.toNat * 2 ^ 62 + l.trips.toNat) ++ leBytes 8 l.idx.toNat

/-- An accumulator block (R326): 20,480 bytes. -/
def accBlock (a : Acc) (k : DrainCfg) : List Byte :=
  padTo 20480 (leBytes 12288 a.img.toNat ++ leBytes 256 a.ovf.toNat ++
    leBytes 8 (a.float.toNat + 2 * k.rsOn.toNat + 4 * k.csOn.toNat + 8 * k.rbOn.toNat + 16 * k.cbOn.toNat +
      32 * k.fnOn.toNat + 64 * k.clOn.toNat + 256 * k.rm.toNat) ++
    leBytes 4 k.lo.toNat ++ leBytes 4 k.hi.toNat ++ leBytes 128 k.rs.toNat ++ leBytes 256 k.cs.toNat ++
    leBytes 128 k.rb.toNat ++ leBytes 256 k.cb.toNat ++ leBytes 3136 k.table.toNat)

/-- The core part of an image (R326). -/
def coreImage (c : Core) (reason banks : Nat) (resume : Dword) : List Byte :=
  headerBytes c reason banks ++ ((List.range 32).flatMap fun i => leBytes 8 (c.rg (BitVec.ofNat 5 i)).toNat) ++
  regBlock c ++ padTo 256 (c.pins.flatMap Pin.bytes) ++ c.loops.toList.flatMap Loop.bytes ++
  ((List.range 8).flatMap fun i => leBytes 8 (c.rp (BitVec.ofNat 3 i)).toNat) ++
  c.tiles.toList.flatMap (fun t => leBytes 8 t.tc.toNat) ++ c.st.toList.flatMap (fun v => leBytes 64 v.toNat) ++
  c.tiles.toList.flatMap (fun t => leBytes 4096 t.data.toNat ++ leBytes 1024 t.side.toNat) ++
  ((List.range 4).flatMap fun i => accBlock (c.acc (BitVec.ofNat 2 i)) (c.cfg (BitVec.ofNat 2 i))) ++
  queueHeader c resume ++ queueSlots c ++ c.tiles.toList.flatMap (fun t => leBytes 16 t.mask.toNat) ++ zeros 256

/-! ## Reading back (R330) -/

/-- Field `n` bytes at an offset, as a bit vector. -/
def at' (bs : List Byte) (w o n : Nat) : BitVec w := BitVec.ofNat w (bytesAt bs o n)

/-- The entries of a queue of a snapshot whose header and slots start at an offset, with their numbers. -/
def entriesFrom (bs : List Byte) (o q n : Nat) (num : Nat → Nat) : Option (List Entry) :=
  (List.range n).mapM fun i => entryFrom q (num i) ((bs.drop (o + 256 + 4096 * (q - 1) + 128 * i)).take 128)

/-- The number of entries of a queue that a snapshot's header gives. -/
def countOf (bs : List Byte) (o q : Nat) : Nat := bytesAt bs (o + 0x0F + q) 1

/-- The queue state of a snapshot at an offset (R329): entries numbered from `num` on, LQ first, unless `old` gives
their order. Held state holds every entry, in the mode that has it (R335). -/
def queuesFrom (bs : List Byte) (o num : Nat) (keepSkip : Bool) (old : Option Core) (c : Core) : Option Core := do
  let n (q : Nat) := countOf bs o q
  let same := old.any fun d => d.lq.length == n 1 && d.mq.length == n 2 && d.sq.length == n 3
  let nums (q base i : Nat) : Nat :=
    match same, old with
    | true, some d => (((d.queue q)[i]?).map (·.num)).getD (num + base + i)
    | _, _ => num + base + i
  -- what the image does not hold of an entry: what it read at its start, the number that a pair of it keeps
  let known (l : List Entry) : List Entry := l.map fun e =>
    match same, old.bind fun d => (d.lq ++ d.mq ++ d.sq).find? (·.num == e.num) with
    | true, some d => { e with read := d.read, seqKept := d.seqKept }
    | _, _ => e
  let lq ← known <$> entriesFrom bs o 1 (n 1) (nums 1 0)
  let mq ← known <$> entriesFrom bs o 2 (n 2) (nums 2 (n 1))
  let sq ← known <$> entriesFrom bs o 3 (n 3) (nums 3 (n 1 + n 2))
  let live (l : List Entry) : List Entry := if keepSkip then l else l.filter (!·.skip)
  let tk := bytesAt bs (o + 8) 8
  let held : Option Held :=
    if bytesAt bs (o + 0x13) 1 % 2 = 0 then none
    else match old.bind (·.held) with
      | some h => some h
      | none => some ⟨dw (bytesAt bs o 8), bytesAt bs (o + 0x14) 1, 0, []⟩
  return { c with lq := live lq, mq := live mq, sq := live sq, held := held,
                  lmDn := BitVec.ofNat 6 tk, lmUp := BitVec.ofNat 6 (tk / 2 ^ 8), msDn := BitVec.ofNat 6 (tk / 2 ^ 16),
                  msUp := BitVec.ofNat 6 (tk / 2 ^ 24) }

/-- A tile from the image. -/
def tileFrom (bs : List Byte) (i : Nat) : Tile :=
  { data := at' bs 32768 (0xD00 + 5120 * i) 4096, side := at' bs 8192 (0xD00 + 5120 * i + 4096) 1024,
    mask := at' bs 128 (0x2BE00 + 16 * i) 16, tc := (at' bs 31 (0x480 + 8 * i) 8).setWidth 64 }

/-- An accumulator and its drain configuration from the image. -/
def accFrom (bs : List Byte) (i : Nat) : Acc :=
  let o := 0x14D00 + 20480 * i
  ⟨at' bs 98304 o 12288, at' bs 2048 (o + 0x3000) 256, bytesAt bs (o + 0x3100) 1 % 2 = 1⟩
def cfgFrom (bs : List Byte) (i : Nat) : DrainCfg :=
  let o := 0x14D00 + 20480 * i
  let f := bytesAt bs (o + 0x3100) 8
  { rs := at' bs 1024 (o + 0x3110) 128, cs := at' bs 2048 (o + 0x3190) 256, rb := at' bs 1024 (o + 0x3290) 128,
    cb := at' bs 2048 (o + 0x3310) 256, table := at' bs 25088 (o + 0x3410) 3136, lo := at' bs 32 (o + 0x3108) 4,
    hi := at' bs 32 (o + 0x310C) 4, rm := BitVec.ofNat 2 (f / 256), rsOn := f / 2 % 2 = 1, csOn := f / 4 % 2 = 1,
    rbOn := f / 8 % 2 = 1, cbOn := f / 16 % 2 = 1, fnOn := f / 32 % 2 = 1, clOn := f / 64 % 2 = 1 }

/-- A pin from the image. -/
def pinFrom (bs : List Byte) (i : Nat) : List Pin :=
  let len := dw (bytesAt bs (0x300 + 16 * i + 8) 8)
  if len = 0 then [] else
  [⟨dw (bytesAt bs (0x300 + 16 * i) 8), setBit (setBit len 63 false) 62 false, bit len 63, bit len 62, []⟩]

/-- The translations of pins read back: those of the pins as the context left them, or else as the table stands. -/
def pinsWith (s : State) (part : BitVec 5) (old l : List Pin) : List Pin :=
  l.zipIdx.map fun x =>
    match old[x.2]? with
    | some q =>
      if q.base = x.1.base && q.len = x.1.len then { x.1 with revoked := x.1.revoked || q.revoked, leaves := q.leaves }
      else { x.1 with leaves := pinLeaves s part x.1.base.toNat x.1.len.toNat }
    | none => { x.1 with leaves := pinLeaves s part x.1.base.toNat x.1.len.toNat }

/-- The contents of a core that a replay from its image starts from (R323). -/
def Core.contents (c : Core) : Eff :=
  ⟨(List.range 16).map fun i => (i, c.tile (BitVec.ofNat 4 i)), (List.range 4).map fun i => (i, c.acc (BitVec.ofNat 2 i)), [], 0⟩

/-- A pattern register as it reads: its reserved bits 15:14 are zero (R6, R12). -/
def patWritten (v : Dword) : Dword := setFld v 14 2 0

/-- A value of S as a write leaves it: never 0 (R273). -/
def srWritten (v : Dword) : Dword := if v = 0 then 1 else v

/-- The committed word of an image (R325): the word at the pc says which it is; `old` is the number of the hand-over
that a `net.tx` waits for. -/
def commitFrom (w : Nat) (i : Option Instr) (old : Commit) : Commit :=
  if w / 2 % 2 = 1 then .monDone
  else if w % 2 = 0 then .none
  else match i with
    | some (.updDrain ..) => .updDrain (w / 2 ^ 32)
    | some (.cpAbort ..) => .cpAbort (w / 2 ^ 32)
    | some (.netTx ..) => (match old with
      | .netTx h => .netTx h
      | _ => .netTx 0)
    | _ => .none

/-- The core part of an image loaded into a core, but for its queues, its pc, its mode and what binds it (R330, R334). -/
def regsFrom (bs : List Byte) (c : Core) : Core :=
  { c with
    g := Vector.ofFn fun i => at' bs 64 (0x100 + 8 * i.val) 8
    tiles := Vector.ofFn fun i => tileFrom bs i.val
    accs := Vector.ofFn fun i => accFrom bs i.val
    cfgs := Vector.ofFn fun i => cfgFrom bs i.val
    p := Vector.ofFn fun i => patWritten (at' bs 64 (0x440 + 8 * i.val) 8)
    st := Vector.ofFn fun i => at' bs 512 (0x500 + 64 * i.val) 64
    cause := at' bs 7 0x208 8, epc := at' bs 64 0x210 8, tval := at' bs 64 0x218 8, fflg := at' bs 6 0x220 8,
    seed := at' bs 64 0x228 8, iterlim := at' bs 8 0x230 8, srS := srWritten (at' bs 64 0x240 8), srN := at' bs 64 0x248 8,
    seqctr := at' bs 32 0x250 4, latchId := at' bs 32 0x254 4, latchCh := at' bs 6 0x258 1,
    fifo := Vector.ofFn fun i => at' bs 64 (0x260 + 8 * i.val) 8
    pins := (List.range 16).flatMap (pinFrom bs)
    loops := Vector.ofFn fun i =>
      ⟨BitVec.ofNat 2 (bytesAt bs (0x407 + 16 * i.val) 1 / 64), at' bs 32 (0x400 + 16 * i.val) 4, at' bs 32 (0x408 + 16 * i.val) 4⟩
    record := at' bs 256 0x10 32, origin := at' bs 8 0x30 1, inst := at' bs 8 0x32 1,
    arrivals := at' bs 32 0x34 4, waits := at' bs 32 0x38 4,
    hm := bytesAt bs 0x200 1 % 2 = 1, phm := bytesAt bs 0x200 1 / 2 % 2 = 1 }

/-- The reserved bytes of an image before its queue header: field, first reserved byte, number of bytes (R25, R33, R35, R36,
R326-R328). A byte of which a field uses some bits is none of them: its other bits are dropped (log 127). -/
def imageReserved : List (Nat × Nat × Nat) :=
  [(0x33, 0x33, 1), (0x3C, 0x3C, 196), (0x200, 0x201, 7), (0x208, 0x209, 7), (0x220, 0x221, 7), (0x230, 0x231, 7),
   (0x238, 0x23B, 5), (0x258, 0x259, 7), (0x2C0, 0x2C1, 3), (0x2C8, 0x2C8, 56)] ++
  ((List.range 4).flatMap fun i => [(0x400 + 16 * i, 0x404 + 16 * i, 3), (0x408 + 16 * i, 0x40C + 16 * i, 4)]) ++
  ((List.range 16).map fun i => (0x480 + 8 * i, 0x484 + 8 * i, 4)) ++
  (List.range 4).flatMap fun i =>
    let o := 0x14D00 + 20480 * i
    [(o + 0x3100, o + 0x3102, 6), (o + 0x4050, o + 0x4050, 4016)]

/-- The offset of the first field of an image that fails the checks of `ctx.ld` after its version (R334). -/
def imageFault (bs : List Byte) (part : BitVec 5) : Option Nat :=
  let z (x : Nat × Nat × Nat) : Option Nat := if ((bs.drop x.2.1).take x.2.2).all (· == 0) then none else some x.1
  let cnt (q : Nat) : Option Nat := if countOf bs 0x28D00 q ≤ 32 then none else some (0x28D0F + q)
  ([z (0x07, 0x07, 1), if bytesAt bs 0x28 1 = part.toNat then none else some 0x28] ++ imageReserved.map z ++
   [z (0x28D08, 0x28D0C, 4), cnt 1, cnt 2, cnt 3, z (0x28D15, 0x28D15, 235), z (0x2BF00, 0x2BF00, 256)]).findSome? id

/-- The offset of the first entry beyond the 32 of its queue that a snapshot counts (R335). -/
def countFault (bs : List Byte) (o : Nat) : Option Nat :=
  ([1, 2, 3].find? fun q => 32 < countOf bs o q).map fun q => o + 256 + 4096 * q

/-- The offset of the first entry of a snapshot that is no entry of its queue (R335). -/
def entryFault (bs : List Byte) (o : Nat) : Option Nat :=
  ([1, 2, 3].flatMap fun q => (List.range (countOf bs o q)).map fun i => (q, o + 256 + 4096 * (q - 1) + 128 * i)).findSome?
    fun p => if (entryFrom p.1 0 ((bs.drop p.2).take 128)).isSome then none else some p.2

end Sys2Proof.Machine
end

