-- ==== Sys2Proof/Machine/Context.lean ====
section
/-! DEFINITION. Binding a core, the partition switch, pre-emption and resumption, the context instructions (R9, R45, R147,
R155, R322-R336). -/
namespace Sys2Proof.Machine

/-! ## The partition switch and the start of a task (R9, R45, R331) -/

/-- The banks of a core zeroed, and their ways of the cluster cache emptied. -/
def zeroBanks (id : BitVec 11) (s : State) : State :=
  { s with cache := s.cache.dropWays (clusterOf id) fun c _ => c == coreOf id,
           bank := memZero s.bank (bankBase id 0) (12 * 0x20000),
           bankPoison := s.bankPoison.filter fun l => l < bankBase id 0 / 64 || bankBase id 12 / 64 ≤ l }

/-- A core as a partition switch leaves it (R45, R331): `seqctr` and the counters stay. -/
def Core.switched (c : Core) : Core :=
  { c with tiles := Vector.replicate 16 Tile.zero, accs := Vector.replicate 4 Acc.zero, p := Vector.replicate 8 0,
           st := Vector.replicate 32 0, seed := 0, bankmode := 0, cause := 0, epc := 0, tval := 0, srS := 1, pins := [],
           loops := Vector.replicate 4 Loop.unused, held := none, fifo := Vector.replicate 12 0, latchId := 0, latchCh := 0 }

/-- A core switched to another partition, with its banks (R331); its first-level lines go too (log 141). -/
def switchCore (c : Core) (s : State) : Core × State :=
  (c.switched, zeroBanks c.id { s with cache := s.cache.dropL1 fun id _ => id == c.id })

/-- What a binding gives a core: its record, its queue, its context, its place. -/
structure Binding where
  record : BitVec 256
  origin : BitVec 8
  ctx : Nat
  teamid : Nat
  teamsz : Nat
  inst : Nat
deriving DecidableEq, Repr

/-- A core as a task finds it (R9, R45, R91). -/
def Core.started (c : Core) (b : Binding) : Core :=
  let c :=
    { c with act := .running, g := (Vector.replicate 32 0).set 1 (recFrame b.record), lq := [], mq := [], sq := [],
             held := none, lmDn := 0, lmUp := 0, msDn := 0, msUp := 0, fflg := 0,
             cfgs := Vector.replicate 4 DrainCfg.identity, iterlim := 24, hm := false, phm := false,
             det := recDet b.record, partid := BitVec.ofNat 5 (recPart b.record),
             phase := BitVec.ofNat 32 (recPhase b.record), teamid := BitVec.ofNat 7 b.teamid,
             teamsz := BitVec.ofNat 7 b.teamsz, inst := BitVec.ofNat 8 b.inst, record := b.record, origin := b.origin,
             ctx := b.ctx, pc := dw (recCode b.record), arrivals := 0, waits := 0, srN := 0,
             loops := Vector.replicate 4 Loop.unused, pins := [], watch := none, commit := .none, marker := false,
             retained := [], dirtyAcc := 0, builtAcc := 0, restored := [], performed := [], replayBase := none, objWaits := [], onlyPart := none, qtrap := none, stall := 0,
             asleep := false, deadline := 0, timedOut := false, woken := false, waitCmd := 0, cmdDone := none, latchId := 0, latchCh := 0 }
  { c with check := c.checkpoint c.pc }

/-- A core bound (R147, R331): it is switched first when its last task was another partition's. -/
def bindCore (id : BitVec 11) (b : Binding) (s : State) : State :=
  let c := s.findCore id
  let (c, s) := if c.partid.toNat = recPart b.record then (c, s) else switchCore c s
  s.putCore (c.started b)

/-! ## Pre-emption (R155, R322-R325) -/

/-- The emissions of a core withdrawn (R249): an unaccepted pair of an `upd` keeps its number; that of an `upd.s`, which
executes anew, gives it back while it is the last one drawn. -/
def withdraw (c : Core) (s : State) : Core × State :=
  let ps := (s.regions.flatMap fun r => r.transit ++ r.waiting).filter fun p => c.owners.contains p.owner
  let sq := c.sq.map fun e =>
    match ps.find? (·.owner == 2 * e.num) with
    | some p => { e with progress := e.progress - 1, seqKept := some p.seq }
    | none => e
  let own := 2 * c.id.toNat + 1
  let ctr := if ps.any (fun p => p.owner == own && p.seq + 1 == c.seqctr) then c.seqctr - 1 else c.seqctr
  let again (r : Region) (h : Hold) : Hold :=
    if c.owners.contains h.owner && (r.transit ++ r.waiting).any (·.owner == h.owner) then { h with left := h.left + 1 } else h
  let s := dropPairs c.owners { s with regions := s.regions.map fun r => { r with holds := r.holds.map (again r) } }
  let s := match c.commit with
    | .updS slot => { s with regions := s.regions.map fun r => if r.slot = slot then r.unhold c true else r }
    | _ => s
  ({ c with sq := sq, seqctr := ctr }, s)

/-- A core as a snapshot that keeps no number of a pair shows it: the number goes back to the counter while it is the last
one drawn (log 20). -/
def Core.giveBack (c : Core) : Core :=
  match c.sq.head?.bind (·.seqKept) with
  | some n => if n + 1 = c.seqctr then { c with seqctr := n } else c
  | none => c

/-- The sequencer at its word boundary (R290, R323, R325, R337): `mon.wait` is complete with result 0, `pm.idle` and a kv instruction that
has made its step are complete. -/
def Core.boundary (c : Core) : Core :=
  let c := match c.commit with
    | .updS _ | .mapInv | .fence => { c with commit := .none }
    | .idle | .kvStep => { c with commit := .none, pc := c.pc + 4, counters := vmod c.counters 1 (· + 1) }
    | .none => if c.asleep then { c with commit := .monDone } else c
    | _ => c
  { c with asleep := false, deadline := 0, timedOut := false, woken := false, qtrap := none, stall := 0, watch := none,
           waitCmd := 0, cmdDone := none, objWaits := [] }

/-- The save slots of a partition: the lowest `n` that none of its saved contexts uses (log 15). -/
def saveSlots (s : State) (p : BitVec 5) (n : Nat) : List Nat :=
  let base := s.pg p 0x20 8
  let used := (s.saved.filter (·.part == p)).flatMap fun v => v.members.map (·.addr.toNat)
  (((List.range 4096).map fun k => base + 0x200000 * k).filter fun a => !used.contains a).take n

/-- The banks that an image holds: those in mode 0, 2 or 3 (R323). -/
def Core.savedBanks (c : Core) : List Nat := (List.range 12).filter fun b => c.bankMode b != 1

/-- An image written at an address (R326): the core part, then the banks; none when it cannot be written. -/
def writeImage (c : Core) (banks : List Nat) (reason : Nat) (a : Nat) (s : State) : Option State := do
  let mask := banks.foldl (fun m b => m + 2 ^ b) 0
  let s ← fwWrite s c.partid a (coreImage c reason mask c.pc)
  banks.foldlM (fun s b => fwWrite s c.partid (a + coreBytes + 0x20000 * b) (memRead s.bank (bankBase c.id b) 0x20000)) s

/-- Images of several members at their addresses. -/
def writeImages (reason : Nat) : List SavedMember → State → Option State
  | [], s => some s
  | m :: r, s => (writeImage m.core m.core.savedBanks reason m.addr.toNat s).bind (writeImages reason r)

/-- The cores of a core's context that are saved together: the members of a team by teamid, or the core alone (R155). -/
def savedWith (c : Core) (s : State) : List Core :=
  if recKind c.record = 1 then
    sortBy (fun a b => a.teamid.toNat ≤ b.teamid.toNat) (s.cores.filter fun d => d.ctx == c.ctx)
  else [c]

/-- The head of a queue of the current core stopped after some of its units (R323, R324): those units are done, and the entry
has started. An `upd` and an atomic entry stop where they are, and so does one that would overwrite a tile it reads. The
flags of the rows that a drain has done are in `fflg` from the stop on: the image has no other place for them (log 117). An
error that waits for the core's next array operand read meets the units (R339). -/
def stopHead (q n : Nat) (s : State) : State :=
  match s.startable q with
  | none => s
  | some e =>
    let upto := e.progress + n
    let whole := match e.instr with
      | .upd .. => true
      | i => (writesOf i).any ((e.sources.map (·.toNat)).contains ·)
    if n = 0 || whole || e.units ≤ upto || !(e.waited || waitOk s.core q e.tok) then s else
    let c := if e.waited then s.core else consume s.core q e.tok
    if s.core.injArray && arrayRead e.instr then
      arrayError e.addr { s with core := { c with injArray := false }.setHead q { e with waited := true } } else
    let after := { e with waited := true, started := true, progress := upto,
                          read := if e.started then e.read else e.reads s.core }
    match perform { e with stopAt := some upto } { s with core := c } with
    | .ok (.done f, t) => { t with core := ((f.apply t.core).noteAccs e f).setHead q after }
    | _ => s

/-- The heads of a context stopped at the units that its pre-emption names: core, queue, units. -/
def stopHeads (ctx : Nat) (units : List (BitVec 11 × BitVec 2 × Nat)) (s : State) : State :=
  units.foldl (fun s u =>
    if (s.findCore u.1).ctx = ctx && ctx != 0 then (stopHead u.2.1.toNat u.2.2 (s.focus u.1)).focus s.core.id else s) s

/-- The teams of a partition that are held at a cluster are held no more (R155): each is held again from its first
member. -/
def releaseHeld (p : Selected → Bool) (s : State) : State :=
  { s with selected := s.selected.map fun x => if p x then { x with cluster := none } else x }

/-- A context saved with a reason (R323): the event is logged (R315), every member stops, its image is written, and its core is free. An image that
cannot be written ends the context (0x3C). -/
def saveContext (reason : Nat) (yielded debug : Bool) (id : BitVec 11) (s : State) : State :=
  let c := s.findCore id
  if c.ctx = 0 then s else
  let all := savedWith c s
  let (stopped, s1) := all.foldl (fun (x : List Core × State) m =>
    let (m, t) := withdraw m x.2
    (x.1 ++ [m.boundary.settleHeads], t)) ([], logEvent reason false c.partid c.pc.toNat c.id.toNat s)
  let ms := (stopped.zip (saveSlots s c.partid stopped.length)).map fun p => (⟨p.1, dw p.2⟩ : SavedMember)
  match writeImages reason ms s1 with
  | none => endTask cSaveFail (BitVec.allOnes 64) 0 c s1
  | some t =>
    let t := stopped.foldl (fun (t : State) m => t.putCore ((m.freed m.bankmode).count 10)) t
    let t := { t with saved := t.saved ++
      [⟨c.partid, BitVec.ofNat 7 reason, c.record, c.origin, c.inst, c.ctx, ms, yielded, debug⟩] }
    releaseHeld (fun x => recPart x.record == c.partid.toNat) t

/-- PREEMPTION (R323): the firmware pre-empts a bound task on a request of its own or of the host; the heads of its queues
stop after the units that it names. -/
def execPreemption (core : BitVec 11) (how : Preempt) (s : State) : Host.Outcome State Fault Refusal :=
  if how.reason = 0x40 || how.reason = 0x43 then
    .next (saveContext how.reason.toNat false false core (stopHeads (s.findCore core).ctx how.units s))
  else .next s

/-! ## Free cores (R142, R146, R333, R336, R340, R343, R404) -/

/-- A core may take work of a partition. -/
def State.usable (s : State) (p : BitVec 5) (id : BitVec 11) : Bool :=
  let c := s.findCore id
  coreOf id < 96 && c.act == .idle && c.onlyPart.all (· == p) && !(vget s.cps (dieOf id) CmdProc.reset).frozen && !s.thermal

/-- The usable cores of a cluster, by number. -/
def State.usableIn (s : State) (p : BitVec 5) (k : Nat) : List (BitVec 11) :=
  ((List.range 96).map fun i => BitVec.ofNat 11 (k * 128 + i)).filter (s.usable p)

/-- The first held team record of a cluster (R146). -/
def State.heldTeam (s : State) (k : Nat) : Option Selected := s.selected.find? (·.cluster == some k)

/-- The usable cores of a cluster that no held team reserves (R146). -/
def State.freeIn (s : State) (p : BitVec 5) (k : Nat) : List (BitVec 11) :=
  match s.heldTeam k with
  | none => s.usableIn p k
  | some x =>
    let kept := (s.usableIn (BitVec.ofNat 5 (recPart x.record)) k).take (recSize x.record)
    (s.usableIn p k).filter fun id => !kept.contains id

/-- The clusters that a queue allows. -/
def Cq.clusters (c : Cq) : List Nat := (List.range 16).filter fun k => c.allowed (k / 2)

/-! ## Resumption (R155, R330) -/

/-- The banks of an image read into a core's banks; the others are empty. -/
def loadBanks (p : BitVec 5) (a banks : Nat) (id : BitVec 11) (s : State) : Option State :=
  (List.range 12).foldlM (fun (s : State) b =>
    if banks >>> b % 2 = 1 then
      (fwRead s p (a + coreBytes + 0x20000 * b) 0x20000).map fun bs => { s with bank := memWrite s.bank (bankBase id b) bs }
    else some s) (zeroBanks id s)

/-- The instruction at a core's pc, if it decodes. -/
def wordAt (c : Core) (s : State) : Option Instr := (fetchInstr { s with core := c }).toOption

/-- The waits on barriers in the banks of a core that its new modes take out of scratchpad and shared mode (R182). -/
def releaseByModes (c : Core) (s : State) : State :=
  (List.range 12).foldl (fun s b =>
    if c.bankMode b = 1 || c.bankMode b = 2 then releaseWaits false (bankBase c.id b) 0x20000 s else s) s

/-- A member read back from its image onto a core (R330), with the tags of its bank lines where they stood (log 131); none when the
image cannot be read. The replay of a context that a fenced core left (R343) performs no passed effect again: it comes to the
state in which that core stood. -/
def restoreMember (v : Saved) (m : SavedMember) (id : BitVec 11) (s : State) : Option State := do
  let bs ← fwRead s v.part m.addr.toNat coreBytes
  let s := bindCore id ⟨v.record, v.origin, v.ctx, m.core.teamid.toNat, m.core.teamsz.toNat, v.inst.toNat⟩ s
  let c := regsFrom bs (s.findCore id)
  let s ← loadBanks v.part m.addr.toNat (bytesAt bs 4 2) id s
  let c ← queuesFrom bs 0x28D00 s.nextNum true (some m.core) c
  let c := { c with pc := dw (bytesAt bs 0x28D00 8), det := bytesAt bs 0x200 1 / 128 = 1, bankmode := at' bs 24 0x238 8,
                    act := m.core.act, teamid := at' bs 7 0x31 1, held := if c.hm then c.held else none,
                    pins := pinsWith s v.part m.core.pins c.pins, marker := true, builtAcc := 0xF,
                    restored := c.lq ++ c.mq ++ c.sq, replayBase := some c.contents }
  let c := { c with commit := commitFrom (bytesAt bs 0x2C0 8) (wordAt c s) m.core.commit }
  let c := if v.reason = 0x46 then
      { m.core with id := c.id, counters := c.counters, marker := true, retained := [], dirtyAcc := 0, builtAcc := 0xF,
                    restored := m.core.lq ++ m.core.mq ++ m.core.sq, performed := [], replayBase := some m.core.contents }
    else c
  return { releaseByModes c s with nextNum := s.nextNum + 96 }.putCore { c with check := c.checkpoint c.pc }

/-- Every member of a saved context read back onto a list of cores. -/
def restoreAll (v : Saved) : List SavedMember → List (BitVec 11) → State → Option State
  | m :: r, id :: ids, s => (restoreMember v m id s).bind (restoreAll v r ids)
  | _, _, s => some s

/-- The cores that a saved context takes when it is resumed at a core: a team the lowest of its cluster, in the order of
teamid; a die instance on its own die (R155). -/
def resumeCores (v : Saved) (core : BitVec 11) (s : State) : Option (List (BitVec 11)) :=
  let n := v.members.length
  let ok := (s.cq v.origin.toNat).allowed (dieOf core) && s.usable v.part core
  if recKind v.record = 1 then
    let ids := s.freeIn v.part (clusterOf core)
    if (s.cq v.origin.toNat).allowed (dieOf core) && decide (n ≤ ids.length) then some (ids.take n) else none
  else if recKind v.record = 2 then
    if ok && v.members.all (fun m => dieOf m.core.id == dieOf core) then some [core] else none
  else if ok then some [core] else none

/-- A saved context resumed on cores (R330); an image that cannot be read ends it (0x3F). -/
def resumeOn (v : Saved) (ids : List (BitVec 11)) (s : State) : State :=
  let s1 := { s with saved := s.saved.filter fun x => !(x.ctx == v.ctx && x.inst == v.inst) }
  match restoreAll v v.members ids s1 with
  | some t => ids.foldl (fun t id => logCore 0x4E (t.findCore id) t) t
  | none =>
    match v.members with
    | m :: _ => endTask cRestoreFail (BitVec.allOnes 64) 0 m.core s
    | [] => s1

/-- CONTEXT_RESUME (R330): a saved context that waits for no selection is resumed at a core. -/
def execContextResume (core : BitVec 11) (ix : Nat) (s : State) : Host.Outcome State Fault Refusal :=
  match s.saved[ix]? with
  | none => .next s
  | some v =>
    if v.yielded then .next s else
    match resumeCores v core s with
    | none => .next s
    | some ids => .next (resumeOn v ids s)

/-! ## The context instructions (R332, R334-R336) -/

/-- A handler-mode instruction (R332). -/
def inHandler (i : Instr) : M Unit := do if !(← getC).hm then illegal i

/-- An instruction's write to global memory whose destination must have a writable translation (R313: 0x2D). -/
def writeArea (a : Dword) (bs : List Byte) : M Unit := do
  let w := (← getC).who true 0
  let s ← get
  let ok (va : Nat) : Bool := (s.lookup w va).any (·.grants .w)
  need (vaOk a.toNat bs.length && (granules a.toNat bs.length).all ok) cArea a
  acc (gWrite w a.toNat bs)

/-- The context that `eret` would return to, as `ctx.sv` describes it (R334). -/
def Core.interrupted (c : Core) : Core :=
  { c with hm := c.phm, phm := false, held := if c.phm then c.held else none, commit := .none }

/-- The queues as a snapshot takes them: no head with its send alone left, no pair on its way (R249). -/
def settleAll : M Unit := do
  let s ← get
  let (c, t) := withdraw s.core s
  set { t with core := c.settleHeads }

/-- `ctx.sv` (R334). -/
def execCtxSv (a : Reg) (s : State) : Host.Outcome State Fault Refusal :=
  runSeq 4 (do
    inHandler (.ctxSv a)
    let v := (← getC).rg a
    need (v.toNat % 4096 = 0) cAlign v
    waitUnheld
    settleAll
    let c ← getC
    writeArea v (coreImage c.giveBack.interrupted 0 0 c.resumeAddr)
    return .next) s

/-- `ctx.ld` (R334): `bankmode`, the banks and the binding CSRs stay. -/
def execCtxLd (a : Reg) (s : State) : Host.Outcome State Fault Refusal :=
  runSeq 4 (do
    inHandler (.ctxLd a)
    noDet
    let v := (← getC).rg a
    need (v.toNat % 4096 = 0) cAlign v
    let c ← getC
    needX (c.quiet && c.held.isNone) cSnapshot
    let bs ← acc (gRead (c.who true 0) v.toNat coreBytes)
    need (bytesAt bs 0 4 = 1) cVersion (dw (bytesAt bs 0 4))
    match imageFault bs c.partid, entryFault bs 0x28D00 with
    | some o, _ => trap cImage (dw o)
    | none, some o => trap cImage (dw o)
    | none, none => pure ()
    let s ← get
    match queuesFrom bs 0x28D00 s.nextNum true none (regsFrom bs c) with
    | none => trapX cImage
    | some n => do
      let n := { n with pc := dw (bytesAt bs 0x28D00 8), held := if n.hm then n.held else none, marker := true,
                        retained := [], dirtyAcc := 0, builtAcc := 0xF, restored := n.lq ++ n.mq ++ n.sq, performed := [],
                        replayBase := some n.contents,
                        pins := pinsWith s c.partid [] n.pins }
      let n := { n with commit := commitFrom (bytesAt bs 0x2C0 8) (wordAt n s) .none }
      let n := { n with check := n.checkpoint n.pc }
      set { s with core := n.count 1, nextNum := s.nextNum + 96 }
      return .stay) s

/-- `qsn.sv` (R335). -/
def execQsnSv (a : Reg) (s : State) : Host.Outcome State Fault Refusal :=
  runSeq 4 (do
    inHandler (.qsnSv a)
    let v := (← getC).rg a
    need (v.toNat % 256 = 0) cAlign v
    waitUnheld
    settleAll
    let c ← getC
    writeArea v (queueHeader c c.resumeAddr ++ queueSlots c)
    modC fun c => { c.giveBack with lq := [], mq := [], sq := [], held := none, lmDn := 0, lmUp := 0, msDn := 0, msUp := 0,
                                     objWaits := [] }
    return .next) s

/-- `qsn.ld` (R335). -/
def execQsnLd (a : Reg) (s : State) : Host.Outcome State Fault Refusal :=
  runSeq 4 (do
    inHandler (.qsnLd a)
    let v := (← getC).rg a
    need (v.toNat % 256 = 0) cAlign v
    let c ← getC
    need c.quiet cSnapshot v
    let bs ← acc (gRead (c.who true 0) v.toNat snapBytes)
    match countFault bs 0, entryFault bs 0 with
    | some o, _ => trap cSnapshot (v + dw o)
    | none, some o => trap cSnapshot (v + dw o)
    | none, none => pure ()
    let s ← get
    match queuesFrom bs 0 s.nextNum false none c with
    | none => trapX cSnapshot
    | some n => do
      set { s with core := n, nextNum := s.nextNum + 96 }
      return .next) s

/-- A core given to a partition: it is switched, and takes its next record from that partition's queues (R336). -/
def giveCore (id : BitVec 11) (p : BitVec 5) (s : State) : State :=
  let (c, s) := switchCore (s.findCore id) s
  s.putCore { c with onlyPart := some p }

/-- `part.sw` (R336). -/
def execPartSw (a : Reg) (s : State) : Host.Outcome State Fault Refusal :=
  runSeq 4 (do
    inHandler (.partSw a)
    noDet
    let s ← get
    let c := s.core
    let v := c.rg a
    need (v.toNat < 32 && v.toNat != c.partid.toNat && bit (BitVec.ofNat 32 (s.pg c.partid 0x18 4)) v.toNat) cPartSwitch v
    modC fun c => { c with pc := c.pc + 4, counters := vmod c.counters 1 (· + 1) }
    modS (saveContext 0x42 false false c.id)
    if (← getC).ctx = 0 then modS (giveCore c.id (v.setWidth 5))
    return .stay) s

/-- `yield` (R194). -/
def execYield (s : State) : Host.Outcome State Fault Refusal :=
  runSeq 4 (do
    waitQuiet
    let c ← getC
    if decide (1 < c.teamsz.toNat) || c.det then return .next
    modC fun c => { c with pc := c.pc + 4, counters := vmod c.counters 1 (· + 1) }
    modS (saveContext 0x41 true false c.id)
    return .stay) s

end Sys2Proof.Machine
end

