-- ==== Sys2Proof/Machine/Tasks.lean ====
section
/-! DEFINITION. The scheduler: selection, binding, completion, join decrements, deterministic phases (R133-R155, R193-R195). -/
namespace Sys2Proof.Machine

/-! ## Selection (R138, R142, R143, R194) -/

/-- A saved context of a partition waits to be resumed ahead of new records (R143). -/
def State.resumesFirst (s : State) (p : BitVec 5) : Bool := s.saved.any fun v => v.part == p && !v.yielded && !v.debug

/-- A queue can be selected at all. -/
def Cq.served (c : Cq) : Bool := c.en && !c.stop

/-- A yielded task that the next selection of a queue resumes (R194). -/
def State.yieldedFor (s : State) (q : Nat) (p : BitVec 5) : Option Saved :=
  s.saved.find? fun v => v.yielded && v.part == p && (v.origin.toNat == q || !(s.cq v.origin.toNat).served)

/-- The error code of the record at the head of a queue (R138), the stale phase and the ring's translation included. The rule
gives no order among several: 8, then that of `recordError`, then 5 (log 95). -/
def headError (s : State) (q : Nat) (p : BitVec 5) : Option (BitVec 4) :=
  match headRecord s q with
  | none => some 8
  | some r =>
    match recordError s (s.cq q) p r with
    | some e => some e
    | none => if recDet r && decide (recPhase r < (s.part p).phase.toNat) then some 5 else none

/-- The allowed dies with a free core. -/
def freeDies (s : State) (c : Cq) (p : BitVec 5) : List Nat :=
  (List.range 8).filter fun d => c.allowed d && !((s.freeIn p (2 * d) ++ s.freeIn p (2 * d + 1)).isEmpty)

/-- The head record of a queue can use a free resource (R142, R143). The rules do not say what one that fails its checks, or
one that is going to be held for a team, can use: one free core on an allowed die is enough (log 99). -/
def canUse (s : State) (q : Nat) (p : BitVec 5) : Bool :=
  let c := s.cq q
  let need := match s.yieldedFor q p, headError s q p, headRecord s q with
    | none, none, some r => if recKind r = 2 then recSize r else 1
    | _, _, _ => 1
  decide (need ≤ (freeDies s c p).length)

/-- The queue that the scheduler selects: the least pass of those that can use a resource, ties to the lowest number. -/
def selectQueue (s : State) : Option Nat :=
  ((List.range 256).filter fun q => (s.cq q).backlogged && isBacklogged s q && (match s.cqOwner q with
    | some p => !s.resumesFirst p && canUse s q p
    | none => false)).foldl (fun (m : Option Nat) q =>
      match m with
      | none => some q
      | some b => if ((s.cq q).pass - (s.cq b).pass).toInt < 0 then some q else some b) none

/-- A queue's stride (R143). -/
def Cq.stride (c : Cq) : Nat := 2 ^ 20 / c.tickets.toNat

/-- The partition of a selected record. -/
def Selected.part (x : Selected) : BitVec 5 := BitVec.ofNat 5 (recPart x.record)

/-- The cores that a selected task or team binds to now, if it can be bound: the lowest free ones (log 16). A team that is
held takes those of its cluster (R146). -/
def coresFor (s : State) (x : Selected) : Option (List (BitVec 11)) :=
  let n := recSize x.record
  let ks := (s.cq x.queue.toNat).clusters
  match recKind x.record, x.cluster with
  | 1, some k =>
    let ids := s.usableIn x.part k
    if s.heldTeam k = some x && decide (n ≤ ids.length) then some (ids.take n) else none
  | 1, none => (ks.find? fun k => decide (n ≤ (s.freeIn x.part k).length)).map fun k => (s.freeIn x.part k).take n
  | _, _ => ((ks.flatMap (s.freeIn x.part)).head?).map fun id => [id]

/-- A record as its selection leaves it: a team that cannot be bound waits (R146). -/
def selectedOf (r : BitVec 256) (q : Nat) (s : State) : Selected :=
  let x : Selected := { record := r, queue := BitVec.ofNat 8 q, cluster := none, insts := [], ctx := 0, waits := false }
  { x with waits := recKind r == 1 && (coresFor s x).isNone }

/-- A selection of a queue (R138, R143, R194): its pass advances; a yielded task takes the place of the head record; else
the record is checked and popped. -/
def selectFrom (q : Nat) (p : BitVec 5) (s : State) : State :=
  let s := s.modCq q fun c => { c with pass := c.pass + dw c.stride }
  refreshBacklog (match s.yieldedFor q p with
    | some v => { s with saved := s.saved.map fun x => if x.ctx = v.ctx && x.inst = v.inst then { x with yielded := false } else x }
    | none =>
      match headError s q p, headRecord s q with
      | some e, _ => stopQueue q e s
      | none, some r =>
        let s := s.modCq q fun c => { c with head := c.head + 1 }
        { s with selected := s.selected ++ [selectedOf r q s] }
      | none, none => s)

/-- SCHEDULER_SELECT (R143). -/
def execSchedulerSelect (s : State) : Host.Outcome State Fault Refusal :=
  match selectQueue s with
  | none => .next s
  | some q =>
    match s.cqOwner q with
    | some p => .next (selectFrom q p s)
    | none => .next s

/-! ## Binding (R142, R146, R147, R149) -/

/-- A context of its own for a record of `n` members or instances. -/
def newCtx (r : BitVec 256) (n : Nat) (s : State) : State :=
  { s with nextCtx := s.nextCtx + 1, ctxs := s.ctxs ++ [⟨s.nextCtx, r, n, false, false⟩] }

/-- A task, or a team with its members in ascending core number, bound on its cores (R147). -/
def bindAll (r : BitVec 256) (origin : BitVec 8) (ids : List (BitVec 11)) (s : State) : State :=
  let n := ids.length
  (ids.zipIdx).foldl (fun t p => bindCore p.1 ⟨r, origin, s.nextCtx, p.2, n, 0⟩ t) (newCtx r n s)

/-- The cluster that a team record takes (R146): the allowed one with the most idle cores, ties to the lowest. -/
def teamCluster (s : State) (c : Cq) (p : BitVec 5) : Option Nat :=
  c.clusters.foldl (fun (m : Option Nat) k =>
    match m with
    | none => some k
    | some b => if (s.usableIn p b).length < (s.usableIn p k).length then some k else some b) none

/-- A team record that cannot be bound is held at the cluster that it chooses (R146). -/
def holdTeam (ix : Nat) (x : Selected) (s : State) : State :=
  if recKind x.record = 1 && x.cluster.isNone then
    { s with selected := s.selected.set ix { x with cluster := teamCluster s (s.cq x.queue.toNat) x.part, waits := true } }
  else s

/-- The dies of the instances of a record, once it starts (R149): the lowest with a free core, then the lowest others; the
index rises with the die (log 16). -/
def chooseDies (s : State) (x : Selected) : List (Nat × Nat) :=
  let c := s.cq x.queue.toNat
  let free := freeDies s c x.part
  let dies := (free ++ (List.range 8).filter fun d => c.allowed d && !free.contains d).take (recSize x.record)
  ((List.range 8).filter dies.contains).zipIdx.map fun p => (p.2, p.1)

/-- One instance of a record starts, on its own die, whatever the others do (R149): the first that finds a free core. -/
def startInstance (ix : Nat) (x : Selected) (s : State) : State :=
  let (x, s) := if x.ctx = 0 then ({ x with insts := chooseDies s x, ctx := s.nextCtx }, newCtx x.record (recSize x.record) s)
                else (x, s)
  let coreOn (d : Nat) := (s.freeIn x.part (2 * d) ++ s.freeIn x.part (2 * d + 1)).head?
  match x.insts.findSome? fun i => (coreOn i.2).map fun id => (i, id) with
  | none => { s with selected := s.selected.set ix x }
  | some (i, id) =>
    let rest := x.insts.erase i
    let s := { s with selected := if rest.isEmpty then s.selected.eraseIdx ix else s.selected.set ix { x with insts := rest } }
    bindCore id ⟨x.record, x.queue, x.ctx, 0, 1, i.1⟩ s

/-- TASK_START (R147, R149): a selected record is bound to its cores, one of its instances starts, or a team record is held
at a cluster. -/
def execTaskStart (ix : Nat) (s : State) : Host.Outcome State Fault Refusal :=
  match s.selected[ix]? with
  | none => .next s
  | some x =>
    if recKind x.record = 2 then .next (refreshBacklog (startInstance ix x s)) else
    match coresFor s x with
    | none => .next (holdTeam ix x s)
    | some ids => .next (refreshBacklog (bindAll x.record x.queue ids { s with selected := s.selected.eraseIdx ix }))

/-! ## Completion (R20, R148, R193, R195) -/

/-- The agent that makes a decrement in a partition (R148): at DV, as an engine. -/
def joinAgent (p : BitVec 5) (core : BitVec 11) : Who := { Who.unit p with core := core }

/-- The check of a task's join counter (R148). -/
def checkJoin (w : Who) (av : Dword) : M Unit := do
  need (av.toNat % 16 = 0) cAlign av
  let (d0, _) ← joinRead w av.toNat
  need (fld d0 0 32 != 0) cJoin av

/-- A decrement tried: one that finds its count at 0 or no translation is not made (R148, R195). -/
def tryJoin (d : JoinDec) (s : State) : State × Bool :=
  match joinStep (joinAgent d.part s.core.id) d.addr true s with
  | .ok (.made, t) => (t, true)
  | .ok (.waits _, t) => (t, false)
  | .error .wait => (s, false)
  | .error _ => (s, true)

/-- A completed core is free: its pins are released, its watch disarmed, its tokens discarded (R193). -/
def releaseCore (id : BitVec 11) (s : State) : State :=
  let c := s.findCore id
  s.putCore (c.freed c.bankmode)

/-- The end of a task's member (R20, R148, R149, R193, R195): it waits for the queues and for its stores to be performed at
the task's scope, DV; `pe` for `phase.end`. -/
def finishTask (pe : Bool) : M Flow := do
  waitQuiet
  waitFar 3
  let s ← get
  let c := s.core
  let info := (s.ctxs.find? (·.ctx == c.ctx)).getD ⟨c.ctx, c.record, 1, false, false⟩
  let last := decide (info.left ≤ 1)
  let av := dw (recJoin c.record)
  iff' (last && av != 0) (checkJoin (c.who true 3) av)
  modC (·.count 1)
  let pe := pe || info.phaseEnd
  if !last then
    modS fun s => { s with ctxs := s.ctxs.map fun x =>
      if x.ctx = c.ctx then { x with left := x.left - 1, phaseEnd := pe } else x }
    if recKind c.record = 1 then
      modC fun c => { c with act := .finished, pins := [], watch := none, lmDn := 0, lmUp := 0, msDn := 0, msUp := 0 }
    else modS (releaseCore c.id)
  else
    modS fun s => { s with ctxs := s.ctxs.filter (·.ctx != c.ctx) }
    iff' (av != 0) (do
      let d : JoinDec := ⟨c.partid, av, c.det && pe⟩
      if d.deferred then modS fun s => { s with joins := s.joins ++ [d] }
      else
        let (t, made) := tryJoin d (← get)
        set (if made then t else { t with joins := t.joins ++ [d] }))
    modS fun s => (s.cores.filter fun d => d.ctx == c.ctx && d.ctx != 0).foldl (fun s d => releaseCore d.id s) s
  return .stay

/-- `done` (R20, R148, R193). -/
def execDone (s : State) : Host.Outcome State Fault Refusal := runSeq 4 (finishTask false) s
/-- `phase.end` (R195). -/
def execPhaseEnd (s : State) : Host.Outcome State Fault Refusal := runSeq 4 (finishTask true) s

/-- HELD_JOIN_DECREMENT (R148): a held decrement is made once its queue takes the record. -/
def execHeldJoinDecrement (ix : Nat) (s : State) : Host.Outcome State Fault Refusal :=
  match s.joins[ix]? with
  | none => .next s
  | some d =>
    if d.deferred then .next s else
    let (t, made) := tryJoin d s
    .next (if made then { t with joins := t.joins.eraseIdx ix } else t)

/-! ## Deterministic phases (R150, R151, R320) -/

/-- The records that wait in a queue. -/
def waitingRecords (s : State) (q : Nat) : List (BitVec 256) :=
  match s.cqOwner q with
  | none => []
  | some p =>
    let c := s.cq q
    (List.range (min c.count c.cap)).filterMap fun i =>
      (fwRead s p (c.slotVa (c.head + BitVec.ofNat 32 i)) 32).map (leVec 256)

/-- The deterministic queues of a partition. -/
def detQueues (s : State) (p : BitVec 5) : List Nat := (List.range 256).filter fun q => (s.cq q).det && s.cqOwner q == some p

/-- The phases at the heads of a partition's deterministic queues. A head whose slot has no translation, or that is no
deterministic record, has none: it is going to stop its queue (log 133). -/
def headPhases (s : State) (p : BitVec 5) : List Nat :=
  ((detQueues s p).filter fun q => (s.cq q).count != 0).filterMap fun q => ((headRecord s q).filter recDet).map recPhase

/-- A record of the current phase of a partition waits, or is selected and not bound. -/
def phaseWaits (s : State) (p : BitVec 5) : Bool :=
  let mine (r : BitVec 256) : Bool := recDet r && recPart r == p.toNat && recPhase r == (s.part p).phase.toNat
  (detQueues s p).any (fun q => (waitingRecords s q).any mine) || s.selected.any fun x => mine x.record

/-- The phase of a partition can commit (R151). -/
def canCommit (s : State) (p : BitVec 5) : Bool :=
  let c := (s.part p).phase.toNat
  !(s.ctxs.any fun x => recDet x.record && recPart x.record == p.toNat && recPhase x.record == c) &&
  !phaseWaits s p &&
  ((headPhases s p).min?.any (fun n => decide (c < n)) || s.joins.any fun d => d.deferred && d.part == p)

/-- The commit of a partition's phase (R151): the tags, the deferred decrements in their order, the new phase, which no stale
head takes back (log 35). -/
def commitPhase (p : BitVec 5) (s : State) : State :=
  let s := { s with tags := s.tags.filter (fun t => t.2.part != p),
                    regions := s.regions.map fun (r : Region) => if r.part = p then { r with ptag := none, pmany := false } else r }
  let (mine, others) := s.joins.partition fun (d : JoinDec) => d.deferred && d.part == p
  let s := mine.foldl (fun s d =>
    let (t, made) := tryJoin d s
    if made then t else { t with joins := t.joins ++ [{ d with deferred := false }] }) { s with joins := others }
  refreshBacklog (match ((headPhases s p).filter fun n => decide ((s.part p).phase.toNat ≤ n)).min? with
    | some n => s.setPart p fun q => { q with phase := BitVec.ofNat 32 n }
    | none => s)

/-- PHASE_COMMIT (R151). -/
def execPhaseCommit (part : BitVec 5) (s : State) : Host.Outcome State Fault Refusal :=
  .next (if canCommit s part then commitPhase part s else s)

/-- PHASE_ABANDON (R320): the tasks that a fatal error ended hold the phase no more. -/
def execPhaseAbandon (part : BitVec 5) (s : State) : Host.Outcome State Fault Refusal :=
  .next { s with ctxs := s.ctxs.filter fun x => !(x.ended && recPart x.record == part.toNat) }

end Sys2Proof.Machine
end

