-- ==== Sys2Proof/Machine/Copy.lean ====
section
/-! DEFINITION. Copy channels (R128-R130, R165-R179, R344): the channel instructions, and the engine's claim, piece and
retirement. -/
namespace Sys2Proof.Machine

/-! ## Channels (R165, R166) -/

/-- The place of a channel: channel `ch` of die `d`. -/
def chanIx (d ch : Nat) : Nat := 64 * d + ch
def State.chan (s : State) (k : Nat) : Channel := vget s.channels k Channel.reset
def State.modChan (s : State) (k : Nat) (f : Channel → Channel) : State := { s with channels := vmod s.channels k f }

/-- The channel checks of R166: the channel's place. -/
def channelAt (v : Dword) : M Nat := do
  let s ← get
  let d := dieOf s.core.id
  need (v.toNat ≤ 63 && bit (dw (s.pg s.core.partid (0x70 + 8 * d) 8)) v.toNat) cAccess v
  return chanIx d v.toNat

/-- `cp.go` (R129, R166). -/
def execCpGo (a b : Reg) (sc : BitVec 3) (s : State) : Host.Outcome State Fault Refusal :=
  runSeq 4 (do
    let c ← getC
    let k ← channelAt (c.rg a)
    let h := c.rg b
    need (h.toNat % 64 = 0) cAlign h
    need (vaOk h.toNat 64) cAccess h
    let _ ← acc (transl (c.who true sc) .r h.toNat)
    let s ← get
    if 16 ≤ (s.chan k).queue.length then stopWith .wait
    let sc := maxScope sc 2
    waitFar sc
    let id := (s.chan k).issued + 1
    let w := c.who true sc
    engineCommand
    let ch : Chain := { chan := k, ident := id, head := h, core := c.id, part := c.partid, scope := sc, det := c.det, ctx := c.ctx,
                        task := w.task, member := w.member, arrivals := w.arr, waits := w.wts }
    modS fun s => s.modChan k fun x => { x with issued := id, queue := x.queue ++ [ch] }
    modC fun c => { c with latchId := id, latchCh := (c.rg a).setWidth 6 }
    return .next) s

/-- `cp.id` (R167). -/
def execCpId (d a : Reg) (s : State) : Host.Outcome State Fault Refusal :=
  runSeq 4 (do
    let c ← getC
    let v := c.rg a
    let k ← channelAt v
    if v = zext c.latchCh then wG d (zext c.latchId)
    else
      noDet
      wG d (zext ((← get).chan k).issued)
    return .next) s

/-- The stores of a channel's retired records that a scope still waits for (R168). -/
def State.retiredFar (s : State) (k : Nat) (sc : BitVec 3) : Bool :=
  decide (5 ≤ sc.toNat) && s.poolStores.any fun p => p.agent == chanUnit k && p.retired && !p.lost

/-- `cp.wait` (R168): every byte of the chains is performed at the wait's scope when it returns. -/
def execCpWait (a b : Reg) (sc : BitVec 3) (s : State) : Host.Outcome State Fault Refusal :=
  runSeq 4 (do
    let c ← getC
    let k ← channelAt (c.rg a)
    let w : BitVec 32 := (c.rg b).setWidth 32
    let x := (← get).chan k
    need (decide ((w - x.issued).toInt ≤ 0)) cTransfer (zext w)
    if (x.cpdone - w).toInt < 0 || (← get).retiredFar k sc then stopWith .wait
    return .next) s

/-- The outstanding work of a channel ends (R169): its running chain stops after its current piece, its queue empties. -/
def Channel.abort (x : Channel) : Channel :=
  match x.run with
  | none => { x with queue := [], cpdone := x.issued }
  | some r =>
    { x with queue := [], run := some { r with last := x.issued, aborted := true, outcome :=
        if r.posting || r.outcome.isSome then r.outcome else some 7 } }

/-- The channel is idle or running a chain above x (R169). -/
def Channel.past (c : Channel) (x : BitVec 32) : Bool :=
  match c.run with
  | none => true
  | some r => 0 < (r.chain.ident - x).toInt

/-- `cp.abort` (R169, R325): it returns once the channel has passed x and the channel's stores are performed at its scope. -/
def execCpAbort (a : Reg) (sc : BitVec 3) (s : State) : Host.Outcome State Fault Refusal :=
  runSeq 4 (do
    noDet
    let c ← getC
    let k ← channelAt (c.rg a)
    match c.commit with
    | .cpAbort _ => pure ()
    | _ => do
      let x := ((← get).chan k).issued
      modS fun s => s.modChan k Channel.abort
      modC fun c => { c with commit := .cpAbort x.toNat }
    match (← getC).commit with
    | .cpAbort x => if !((← get).chan k).past (BitVec.ofNat 32 x) || (← get).engineFar (chanUnit k) sc then return .stay
    | _ => pure ()
    modC fun c => { c with commit := .none }
    return .next) s

/-! ## Records (R128, R171, R172) -/

/-- A chain's engine as an agent. -/
def Chain.unit (c : Chain) : Nat := chanUnit c.chan

/-- The engine as an agent: the initiator's place, tags and counts (R153, R173). -/
def Chain.who (c : Chain) : Who :=
  { part := c.part, core := c.core, agent := c.unit, det := c.det, ctx := c.ctx, task := c.task,
    member := c.member, arr := c.arrivals, wts := c.waits, scope := c.scope }

/-- The engine as it reads a record's source, with the record's evict-first hint (R172). -/
def CopyRun.source (r : CopyRun) : Who := { r.chain.who with ef := bit r.snap 93 }

def CopyRun.kind (r : CopyRun) : Nat := fld r.snap 64 4
def CopyRun.len (r : CopyRun) : Nat := fld r.snap 96 32
def CopyRun.rows (r : CopyRun) : Nat := if r.kind = 1 || r.kind = 2 then fld r.snap 320 32 else 1
def CopyRun.total (r : CopyRun) : Nat := r.len * r.rows
def CopyRun.next (r : CopyRun) : Nat := fld r.snap 0 64
/-- A claimed record breaks a rule of R171 or R172 (R174: RECORD). -/
def recordBad (d : BitVec 512) : Bool :=
  let k := fld d 64 4
  let z (o n : Nat) : Bool := fld d (8 * o) (8 * n) != 0
  bit d 95 || fld d 0 6 != 0 || decide (3 < k) || fld d 71 1 != 0 || fld d 74 19 != 0 || fld d 96 32 = 0 ||
  (if k = 3 then
    fld d 68 27 != 0 || decide (2 ^ 21 ≤ fld d 192 32) || decide (2 ^ 21 ≤ fld d 224 32) || fld d 256 96 = 0 || z 44 4 || z 48 8
  else
    z 36 4 || (k != 2 && fld d 72 2 != 0) ||
    (if k = 0 then z 40 16
     else
      fld d 320 32 = 0 || decide (2 ^ 32 - 1 < fld d 96 32 * fld d 320 32) ||
      (if k = 1 then z 44 4 else decide (1 < fld d 72 2))))

/-- The spans of the leaves that a global range uses (R303). -/
def leafSpans (s : State) (p : BitVec 5) (va n : Nat) : List (Nat × Nat) :=
  (granules va n).filterMap fun a => (s.walk p a).map fun l => (a / 2 ^ leafBits l.level * 2 ^ leafBits l.level, 2 ^ leafBits l.level)

/-- The space of a source and of a destination. -/
def CopyRun.ssp (r : CopyRun) : Bool := r.kind != 3 && bit r.snap 69
def CopyRun.dsp (r : CopyRun) : Bool := r.kind = 3 || bit r.snap 68

/-- The first source byte of a row (R173); an address that leaves 64 bits is taken modulo 2^64 (log 134). -/
def CopyRun.rowSrc (r : CopyRun) (row v : Nat) : Nat :=
  let src := fld r.snap 128 64
  if r.kind = 1 then addrOf ((src : Int) + (row : Int) * toSigned 32 (fld r.snap 384 32))
  else if r.kind = 2 then (src + v * fld r.snap 352 32) % 2 ^ 64 else src
/-- The first destination byte of a row, of a kind 3 record in core `c`. -/
def CopyRun.rowDst (r : CopyRun) (row c : Nat) : Nat :=
  if r.kind = 3 then c * 2 ^ 21 + fld r.snap 192 32
  else
    let dst := fld r.snap 192 64
    if r.kind = 1 then addrOf ((dst : Int) + (row : Int) * toSigned 32 (fld r.snap 416 32))
    else (dst + row * r.len) % 2 ^ 64

/-- The bytes of an index, and the address of a row's index (R173). -/
def CopyRun.iw (r : CopyRun) : Nat := if fld r.snap 72 2 = 1 then 8 else 4
def CopyRun.rowIdx (r : CopyRun) (row : Nat) : Nat := fld r.snap 384 64 + row * r.iw

/-- The translations of a record's global ranges as its claim finds them, but for the sources of a gather, which its indices
give (R303, R311; log 100). -/
def CopyRun.claimed (r : CopyRun) (s : State) : List (Nat × Nat) :=
  (List.range r.rows).flatMap fun row =>
    (if r.kind = 2 then leafSpans s r.chain.part (r.rowIdx row) r.iw
     else if r.ssp then [] else leafSpans s r.chain.part (r.rowSrc row 0) r.len) ++
    (if r.dsp then [] else leafSpans s r.chain.part (r.rowDst row 0) r.len)

/-- A record worked on from its first byte, with the translations of its ranges. -/
def CopyRun.begin (r : CopyRun) (s : State) : CopyRun :=
  { r with used := if recordBad r.snap then [] else (r.claimed s).eraseDups, revoked := [] }

/-- The record at a line claimed by a chain's engine (R176): a translation with read and write permission is needed. The rule
does not name a poisoned line, one of a lost pool region or one with a conflicting tag: it cannot be claimed either (log 119). -/
def claimRecord (c : Chain) (a : Dword) (s : State) : Option (CopyRun × State) :=
  if !(vaOk a.toNat 64) || (physPieces s c.part .w a.toNat 64).isNone then none else
  match (gRead c.who a.toNat 64).run s with
  | .ok (.ok bs, t) =>
    let d : BitVec 512 := leVec 512 bs
    match (gWrite c.who (a.toNat + 8) (leBytes 4 (fld d 64 32 % 2 ^ 31 + 2 ^ 31))).run t with
    | .ok (.ok _, u) =>
      let r : CopyRun :=
        { chain := c, recAddr := a, snap := d, pos := 0, degraded := false, outcome := if recordBad d then some 8 else none,
          succ := none, stage := 0, posting := false, rowIx := 0, owed := 0, last := c.ident, aborted := false, used := [],
          revoked := [] }
      some (r.begin u, u)
    | _ => none
  | _ => none

/-- COPY_CLAIM (R176): the engine starts a chain; one whose head cannot be claimed retires. -/
def execCopyClaim (die : BitVec 3) (ch : BitVec 6) (s : State) : Host.Outcome State Fault Refusal :=
  let k := chanIx die.toNat ch.toNat
  match (s.chan k).run, (s.chan k).queue with
  | none, c :: r =>
    match claimRecord c c.head s with
    | some (run, t) => .next (t.modChan k fun x => { x with queue := r, run := some run })
    | none => .next (s.modChan k fun x => { x with queue := r, cpdone := c.ident })
  | _, _ => .next s

/-! ## Pieces (R130, R173, R344) -/

/-- The outcome code of a refused access (R173): none of a core's traps. The rules name no code for a global address above
2^57, which has no translation: ABSENT (log 101); and none for a conflict, for a slice with no room for a tag and for a
poisoned index: one of the codes of an access, `free` (log 17, log 102). -/
def copyCode (loc : Bool) (free : Nat) : AccErr → Nat
  | .missing _ => 3
  | .perm _ | .spill _ => 4
  | .lost _ => 6
  | .fault _ => if loc then 9 else 3
  | .poison _ | .conflict _ | .tagCap _ | .det _ => [3, 4, 5, 6, 9].getD (free % 5) 9

/-- The engine's read: a poisoned line reads as zeros, and the delivery is degraded (R344). -/
def copyRead (w : Who) (loc : Bool) (a n : Nat) : A (List Byte × Bool) :=
  (lineCuts a n).foldlM (fun (x : List Byte × Bool) c => do
    let r ← tryCatch (do
      let bs ← readAt w loc c.1 c.2
      return (bs, false)) fun e => match e with
        | .poison _ => pure (List.replicate c.2 0, true)
        | e => throw e
    return (x.1 ++ r.1, x.2 || r.2)) ([], false)

/-- A piece: its row, its offset in the row, its bytes. -/
def CopyRun.piece (r : CopyRun) (pos : Nat) : Nat × Nat × Nat :=
  let off := pos % r.len
  (pos / r.len, off, min 4096 (r.len - off))

/-- The cores that a record delivers to: those of a multicast, or one that counts for none. -/
def CopyRun.cores (r : CopyRun) : List Nat :=
  if r.kind = 3 then (List.range 96).filter fun c => bit r.snap (256 + c) else [0]
/-- The barriers that a piece signals. -/
def CopyRun.bars (r : CopyRun) : List Nat :=
  if r.kind = 3 then r.cores.map fun c => c * 2 ^ 21 + fld r.snap 224 32
  else if bit r.snap 70 then [fld r.snap 256 32] else []

/-- The index of a row of a gather (R173). -/
def CopyRun.indexOf (r : CopyRun) (row : Nat) : A Nat := do
  if r.kind != 2 then return 0
  return leNat (← gRead r.chain.who (r.rowIdx row) r.iw)

/-- The index of the row of a piece: read with the row's first piece, and kept (R173). -/
def CopyRun.indexNow (r : CopyRun) (row off : Nat) : A Nat := if off = 0 then r.indexOf row else return r.rowIx

/-- An address in a form that names its core (R41). -/
def copyAddr (r : CopyRun) (loc : Bool) (a : Nat) : Nat :=
  if loc && a / 2 ^ 21 % 128 = 127 then a - 127 * 2 ^ 21 + coreOf r.chain.core * 2 ^ 21 else a

/-- The first source bytes of all the rows of a record, as far as its indices can be read. -/
def CopyRun.sources (r : CopyRun) (s : State) : List Nat :=
  (List.range r.rows).filterMap fun row =>
    match (r.indexOf row).run s with
    | .ok (.ok v, _) => some (copyAddr r r.ssp (r.rowSrc row v))
    | _ => none

/-- A destination address lies in a source range of the record (R173). -/
def CopyRun.overlap (r : CopyRun) (sources : List Nat) (a : Nat) : Bool :=
  r.ssp == r.dsp && r.kind != 3 && sources.any fun x => x ≤ a && a < x + r.len

/-- A range that a record touches: its removed translations stop it (R303). -/
def touch (r : CopyRun) (loc : Bool) (a n : Nat) (s : State) : Option (List (Nat × Nat)) :=
  if loc then some []
  else if r.revoked.any (fun x => overlaps a n x.1 x.2) then none else some (leafSpans s r.chain.part a n)

/-- The bytes of a piece delivered to each destination; bytes that overlap the source are free (R173). The accesses come in
the order index, source, destination, and the first that fails stops the record: a removed translation as `none`. Answers
also the row's index. -/
def movePiece (r : CopyRun) : A (Option (Bool × Nat × List (Nat × Nat))) := do
  let w := r.chain.who
  let (row, off, n) := r.piece r.pos
  let s ← get
  match touch r (r.kind != 2 || off != 0) (r.rowIdx row) r.iw s with
  | none => return none
  | some ui => do
    let v ← r.indexNow row off
    let src := r.rowSrc row v + off
    match touch r r.ssp src n s with
    | none => return none
    | some u => do
      let (bs, deg) ← copyRead r.source r.ssp src n
      let from_ := r.sources s
      match r.cores.mapM fun c => touch r r.dsp (r.rowDst row c + off) n s with
      | none => return none
      | some us => do
        let s ← get
        let mix (a : Nat) : List Byte := bs.zipIdx.map fun p =>
          if r.overlap from_ (copyAddr r r.dsp (a + p.2)) then Config.copyByte (s.fresh + p.2) else p.1
        set { s with fresh := s.fresh + n }
        r.cores.foldlM (fun _ c => writeAt w r.dsp (r.rowDst row c + off) (mix (r.rowDst row c + off))) ()
        return some (deg, v, ui ++ u ++ us.flatten)

/-- A barrier signalled with a piece's bytes (R130); false when the access fails R41 or R42. -/
def signalBar (w : Who) (n : Nat) (x : Bool × State) (bar : Nat) : Bool × State :=
  match (if bar % 16 = 0 then localOk x.2 w bar 16 else none) with
  | some k => (x.1, deliver k n x.2)
  | none => (false, x.2)

/-- A run replaced. -/
def setRun (k : Nat) (r : Option CopyRun) (s : State) : State := s.modChan k fun x => { x with run := r }

/-- The space of the access of a piece that fails first: the index, then the source, then the destination. -/
def CopyRun.faultSide (r : CopyRun) (s : State) : Bool :=
  let (row, off, n) := r.piece r.pos
  match (r.indexNow row off).run s with
  | .ok (.ok v, t) =>
    match (copyRead r.source r.ssp (r.rowSrc row v + off) n).run t with
    | .ok (.ok _, _) => r.dsp
    | _ => r.ssp
  | _ => false

/-- The stores of an engine so far belong to no transfer under way: a barrier, a status word or an event says that they are made. -/
def State.retireStores (s : State) (unit : Nat) : State :=
  { s with poolStores := s.poolStores.map fun p => if p.agent = unit then { p with retired := true } else p }

/-- The barriers of the last piece signalled, its stores performed (R130, R242). -/
def signalOwed (r : CopyRun) (s : State) : CopyRun × State :=
  let (ok, t) := r.bars.foldl (signalBar r.chain.who r.owed) (true, if r.bars.isEmpty then s else s.retireStores r.chain.unit)
  ({ r with owed := 0, outcome := if ok || r.outcome.isSome then r.outcome else some 9 }, t)

/-- One piece of a record (R173): the record after it, with its barrier signalled unless a store of the piece has still to be
performed (R242). -/
def doPiece (r : CopyRun) (s : State) : CopyRun × State :=
  let n := (r.piece r.pos).2.2
  match (movePiece r).run s with
  | .ok (.ok none, t) => ({ r with outcome := some 5 }, t)
  | .ok (.ok (some (deg, v, used)), t) =>
    let t := if deg && !r.degraded then t.setPart r.chain.part fun q => { q with degraded := q.degraded + 1 } else t
    let r := { r with pos := r.pos + n, degraded := r.degraded || deg, used := used ++ r.used, rowIx := v, owed := n }
    if t.engineFar r.chain.unit r.chain.scope then (r, t) else signalOwed r t
  | .ok (.error e, _) =>
    ({ r with outcome := some (copyCode (r.faultSide s) (Config.stopCode s.fresh) e) }, { s with fresh := s.fresh + 1 })
  | .error _ => (r, s)

/-- A record has a piece to move. -/
def CopyRun.moving (r : CopyRun) : Bool := r.outcome.isNone && r.stage = 0 && decide (r.pos < r.total)

/-- COPY_PIECE (R173): the next piece, or the signal that the last one owes. -/
def execCopyPiece (die : BitVec 3) (ch : BitVec 6) (s : State) : Host.Outcome State Fault Refusal :=
  let k := chanIx die.toNat ch.toNat
  match (s.chan k).run with
  | none => .next s
  | some r =>
    if r.owed != 0 then
      if s.engineFar r.chain.unit r.chain.scope then .next s
      else .next (setRun k (some (signalOwed r s).1) (signalOwed r s).2)
    else if !r.moving then .next s
    else .next (setRun k (some (doPiece r s).1) (doPiece r s).2)

/-! ## Retirement (R174, R175, R177, R188) -/

/-- One byte that a stopped record may have moved (R174): refused, it is not. -/
def tornByte (w : Who) (loc : Bool) (a : Nat) (b : Byte) : A Unit := do
  let s ← get
  set { s with fresh := s.fresh + 1 }
  if Config.copyTorn s.fresh then tryCatch (writeAt w loc a [b]) fun _ => pure ()

/-- The source and the destinations of a piece touch no range whose translations are removed from under its record (R303). -/
def CopyRun.allowed (r : CopyRun) (row off n v : Nat) (s : State) : Bool :=
  (touch r r.ssp (r.rowSrc row v + off) n s).isSome &&
  r.cores.all fun c => (touch r r.dsp (r.rowDst row c + off) n s).isSome

/-- After a stop each destination byte of the pieces from a position on holds its old or its source value (R174). An access
that is refused, by a conflict too, is not made (R154), nor is one of a piece that touches a removed translation (R303). -/
def tornFrom : Nat → CopyRun → State → State
  | 0, _, s => s
  | fuel + 1, r, s =>
    if r.total ≤ r.pos then s else
    let (row, off, n) := r.piece r.pos
    match (do
      if (touch r (r.kind != 2 || off != 0) (r.rowIdx row) r.iw s).isNone then return 0
      let v ← r.indexNow row off
      if !r.allowed row off n v s then return v
      let (bs, _) ← copyRead r.source r.ssp (r.rowSrc row v + off) n
      r.cores.foldlM (fun _ c => bs.zipIdx.foldlM (fun _ p => tornByte r.chain.who r.dsp (r.rowDst row c + off + p.2) p.1) ()) ()
      return v : A Nat).run s with
    | .ok (.ok v, t) => tornFrom fuel { r with pos := r.pos + n, rowIx := v } t
    | .ok (.error _, _) => tornFrom fuel { r with pos := r.pos + n } s
    | .error _ => s

/-- The record has retired, its event posted (R175, R177): its successor is worked on, or the chain retires. -/
def finishRecord (k : Nat) (s : State) : State :=
  match (s.chan k).run with
  | none => s
  | some r =>
    match r.succ with
    | some (a, d) =>
      setRun k (some ({ r with recAddr := a, snap := d, pos := 0, degraded := false, succ := none, stage := 0, posting := false,
                               outcome := if r.aborted then some 7 else if recordBad d then some 8 else none }.begin s)) s
    | none => s.modChan k fun x => { x with run := none, cpdone := r.last }

/-- An engine's event (R188): posted, omitted for a quota of 0, or left to wait for room. -/
def enginePost (cl : Nat) (ev : Event) (copy : Option (Nat × Nat)) (s : State) : State :=
  let fin (s : State) : State := match copy with
    | some c => finishRecord (chanIx c.1 c.2) s
    | none => s
  if evQuota s ev.part cl = 0 then fin s
  else if evRoom s ev.part cl && !s.posts.any (fun p => p.cluster == cl && p.ev.part == ev.part) then fin (postEvent cl ev s)
  else { s with posts := s.posts ++ [⟨cl, ev, copy⟩] }

/-- An engine that no copy channel belongs to waits to post an event of a type and source (R188, R384). -/
def waitingPost (ty src : Nat) (cl : Nat → Bool) (s : State) : Bool :=
  s.posts.any fun p => p.copy.isNone && fld p.ev.d0 57 3 == ty && fld p.ev.d0 0 6 == src && cl p.cluster

/-- ENGINE_EVENT_POST (R188): an event that waited for its quota. -/
def execEngineEventPost (ix : Nat) (s : State) : Host.Outcome State Fault Refusal :=
  match s.posts[ix]? with
  | none => .next s
  | some p =>
    let first := !(s.posts.take ix).any fun q => q.cluster == p.cluster && q.ev.part == p.ev.part
    let out := { s with posts := s.posts.eraseIdx ix }
    let fin (s : State) : State := match p.copy with
      | some c => finishRecord (chanIx c.1 c.2) s
      | none => s
    if evQuota s p.ev.part p.cluster = 0 then .next (fin out)
    else if first && evRoom s p.ev.part p.cluster then .next (fin (postEvent p.cluster p.ev out))
    else .next s

/-- The completion event of a record (R175). -/
def copyEvent (r : CopyRun) (ch code : Nat) : Event :=
  ⟨r.chain.part, dw (code * 2 ^ 60 + 2 ^ 57 + r.recAddr.toNat / 64 % 2 ^ 51 * 64 + ch),
    dw (r.chain.ident.toNat * 2 ^ 32 + r.pos % 2 ^ 32)⟩

/-- The outcome code of a record that has no piece to move (R174). -/
def CopyRun.code (r : CopyRun) : Nat := r.outcome.getD (if r.degraded then 2 else 1)

/-- The bytes beyond the stop of a record settled (R174). -/
def settleTorn (r : CopyRun) (s : State) : CopyRun × State :=
  ({ r with stage := 1 }, if [3, 4, 5, 6, 7, 9].contains r.code then tornFrom (r.total + 1) r s else s)

/-- A record's successor is claimed and its status written (R174, R177). -/
def writeStatus (r : CopyRun) (s : State) : CopyRun × State :=
  let (code, succ, s) :=
    if (r.code = 1 || r.code = 2) && r.next != 0 then
      match claimRecord r.chain (dw r.next) s with
      | some (q, t) => (r.code, some (q.recAddr, q.snap), t)
      | none => (10, none, s)
    else (r.code, none, s)
  let s := match (gWrite r.chain.who (r.recAddr.toNat + 56) (leBytes 8 (code * 2 ^ 56 + r.pos % 2 ^ 32))).run s with
    | .ok (.ok _, t) => t
    | _ => s
  ({ r with outcome := some code, succ := succ, stage := 2 }, s)

/-- The event of a record whose status is written, and what comes after it (R175). -/
def afterStatus (d ch : Nat) (r : CopyRun) (s : State) : State :=
  let k := chanIx d ch
  let s := setRun k (some { r with posting := true }) (s.retireStores r.chain.unit)
  if r.kind != 3 && bit r.snap 94 then enginePost (clusterOf r.chain.core) (copyEvent r ch r.code) (some (d, ch)) s
  else finishRecord k s

/-- A record retires step by step (R174, R175, R177): the bytes beyond its stop, its status, its event; each once the stores
before it are performed (R242). -/
def retire' (d ch : Nat) (r : CopyRun) (s : State) : State :=
  let far (t : State) : Bool := t.engineFar r.chain.unit r.chain.scope
  let (r, s) := if r.stage = 0 then settleTorn r s else (r, s)
  if far s then setRun (chanIx d ch) (some r) s else
  let (r, s) := if r.stage = 1 then writeStatus r s else (r, s)
  if far s then setRun (chanIx d ch) (some r) s else afterStatus d ch r s

/-- COPY_RETIRE (R174), once the record's stores are performed at its scope (R242). -/
def execCopyRetire (die : BitVec 3) (ch : BitVec 6) (s : State) : Host.Outcome State Fault Refusal :=
  match (s.chan (chanIx die.toNat ch.toNat)).run with
  | none => .next s
  | some r =>
    if r.posting || r.owed != 0 || r.moving || s.engineFar r.chain.unit r.chain.scope then .next s
    else .next (retire' die.toNat ch.toNat r s)

/-! ## A lost pool region (R240) -/

/-- The first byte of a record, in transfer order, that one of several lost stores had moved. -/
def CopyRun.lostAt (r : CopyRun) (lost : List PoolStore) (s : State) : Option Nat :=
  if r.dsp then none else
  (List.range r.pos).find? fun i =>
    (s.walk r.chain.part (r.rowDst (i / r.len) 0 + i % r.len)).any fun l =>
      lost.any fun p => p.agent == r.chain.unit && p.pa.toNat ≤ l.pa && l.pa < p.pa.toNat + p.size

/-- A record whose stores are lost stops with a code, that of a pool region POOL_LOST; the bytes before the first lost one are
performed (R240). -/
def CopyRun.lose (r : CopyRun) (code : Nat) (lost : List PoolStore) (s : State) : CopyRun :=
  if r.stage != 0 then r else
  match r.lostAt lost s with
  | some n => { r with pos := n, owed := 0, outcome := some code }
  | none => r

end Sys2Proof.Machine
end

