-- ==== Sys2Proof/Machine/Pages.lean ====
section
/-! DEFINITION. The code store, translation changes, page migration and retention (R217-R219, R302-R310). -/
namespace Sys2Proof.Machine

/-! ## The code store (R308-R310) -/

/-- Words placed in a cluster's code store in one step; whole lines lose their poison (R308, R344). -/
def writeCode (cl c : Nat) (bs : List Byte) (s : State) : State :=
  let a := cl * 0x400000 + c
  { s with code := memWrite s.code a bs, codePoison := clearPoison s.codePoison a bs.length }

/-- The first granule of a range that a code load cannot read (R301, R308). -/
def codeFault (s : State) (w : Who) (x n : Nat) : Option Nat :=
  (granules x n).find? fun a => !(match s.lookup w a with
    | some l => l.grants .rx
    | none => false)

/-- `code.ld` (R308). -/
def execCodeLd (d a b : Reg) (s : State) : Host.Outcome State Fault Refusal :=
  runSeq 4 (do
    noDet
    let s ← get
    let k := s.core
    let c := k.rg d
    let x := k.rg a
    let n := k.rg b
    need (c.toNat % 4 = 0) cAlign c
    need (x.toNat % 4 = 0) cAlign x
    need (n.toNat % 4 = 0) cAlign n
    need (n != 0 && s.inWindow k.partid c.toNat n.toNat) cAccess c
    need (vaOk x.toNat n.toNat) cAccess x
    waitQuiet
    waitFar 3
    match codeFault s (k.who true 3) x.toNat n.toNat with
    | some f => trap cPage (dw f)
    | none => do
      let bs ← acc (gRead (k.who true 3) x.toNat n.toNat .rx)
      modS (writeCode (clusterOf k.id) c.toNat bs)
      return .next) s

/-- `code.inv` (R309). -/
def execCodeInv (a b : Reg) (s : State) : Host.Outcome State Fault Refusal :=
  runSeq 4 (do
    noDet
    let s ← get
    let k := s.core
    let c := k.rg a
    let n := k.rg b
    need (c.toNat % 4 = 0 && n.toNat % 4 = 0) cAlign c
    need (n != 0 && s.inWindow k.partid c.toNat n.toNat) cAccess c
    modS (writeCode (clusterOf k.id) c.toNat (List.replicate n.toNat 0xFF))
    return .next) s

/-! ## Invalidation (R303, R304) -/

/-- A pin that a range overlaps is revoked (R303). -/
def Pin.revoke (b n : Nat) (p : Pin) : Pin :=
  if overlaps p.base.toNat p.len.toNat b n then { p with revoked := true } else p

/-- The pins of a core of a partition, revoked over a range. -/
def Core.revoke (p : BitVec 5) (b n : Nat) (c : Core) : Core :=
  if c.partid = p then { c with pins := c.pins.map (Pin.revoke b n) } else c

/-- A copy record of a partition that used a removed translation stops when it touches the range again (R303). -/
def CopyRun.revoke (p : BitVec 5) (b n : Nat) (r : CopyRun) : CopyRun :=
  if r.chain.part = p && r.used.any (fun x => overlaps x.1 x.2 b n) then
    { r with used := r.used.filter (fun x => !overlaps x.1 x.2 b n), revoked := (b, n) :: r.revoked }
  else r

/-- The translations of a range removed from the copy channels (R303). -/
def dropTranslations (p : BitVec 5) (b n : Nat) (s : State) : State :=
  { s with channels := s.channels.map fun c => { c with run := c.run.map (CopyRun.revoke p b n) } }

/-- The watch of a core of a partition fires when the copy of its line is invalidated with a range (R84, R213, R303). -/
def Core.lineGone (p : BitVec 5) (b n : Nat) (c : Core) : Core :=
  match c.watch with
  | some w => if c.partid = p && overlaps (64 * w.line) 64 b n then { c with watch := some { w with fired := true } } else c
  | none => c

/-- The first-level lines of a partition's cores that a range covers are invalidated (R213). -/
def dropLines (p : BitVec 5) (b n : Nat) (s : State) : State :=
  { s with cache := s.cache.dropL1 fun id v => (s.findCore id).partid == p && overlaps (64 * v) 64 b n }

/-- The invalidation point (R303). -/
def invalidate (p : BitVec 5) (b n : Nat) (s : State) : State :=
  let s := dropLines p b n (dropTranslations p b n s)
  let f (c : Core) : Core := (c.revoke p b n).lineGone p b n
  { s with core := f s.core, others := s.others.map f,
           saved := s.saved.map fun v => { v with members := v.members.map fun m => { m with core := m.core.revoke p b n } } }

/-- `map.inv` (R303). The model does not keep which stores used a removed translation: it waits for every store of the device
that is not performed at DV (log 111). -/
def execMapInv (a b : Reg) (s : State) : Host.Outcome State Fault Refusal :=
  runSeq 4 (do
    inHandler (.mapInv a b)
    let c ← getC
    let v := c.rg a
    let n := c.rg b
    need (v.toNat % 16384 = 0 && n.toNat % 16384 = 0 && n != 0 && vaOk v.toNat n.toNat) cAccess v
    waitQuiet
    waitFar 3
    iff' (c.commit != .mapInv) (modS (invalidate c.partid v.toNat n.toNat))
    let t ← get
    let done := t.remote.isEmpty && t.hostStores.isEmpty
    if c.commit = .mapInv && !done then stopWith .wait
    modC fun c => { c with commit := if done then .none else .mapInv }
    return if done then .next else .stay) s

/-! ## Migration (R305-R307) -/

/-- The granule that a migration record names. -/
def migVa (d : BitVec 512) : Nat := fld d 14 43 * 16384
/-- A partition's tracker of a granule. -/
def trackerOf (s : State) (p : BitVec 5) (va : Nat) : Option Tracker :=
  s.trackers.find? fun t => t.part == p && t.va.toNat == va
/-- A pin or a region's pin covers a granule (R306). -/
def pinnedAt (s : State) (p : BitVec 5) (va : Nat) : Bool :=
  let on (c : Core) : Bool := c.partid == p && c.pins.any fun x => !x.revoked && overlaps x.base.toNat x.len.toNat va 16384
  s.cores.any on || s.saved.any (fun v => v.members.any fun m => on m.core) ||
  s.regions.any fun r => r.part == p && r.pages.any fun x => x.1 == va / 16384
/-- A valid level-3 leaf (R298, R299): type 2, reserved fields zero, an address that exists. -/
def leafValid (s : State) (e : Nat) : Bool :=
  e % 2 == 1 && e / 2 % 4 == 2 && e / 2 ^ 52 % 128 == 0 && e / 2 ^ 9 % 32 == 0 && e / 2 ^ 6 % 4 == 0 &&
  s.physOk (e / 2 ^ 14 % 2 ^ 38 * 2 ^ 14)

/-- The lines of a bitmap, ascending. -/
def mapLines (m : BitVec 256) : List Nat := (List.range 256).filter fun i => bit m i

/-- The flagged lines of a page copied to another, poison and all (R306). -/
def copyLines (old new : Nat) (m : BitVec 256) (s : State) : State :=
  (mapLines m).foldl (fun s i =>
    let bad := s.poison.contains ((old + 64 * i) / 64)
    let s := physStore (Who.unit 0) (new + 64 * i) (s.unitBytes (old + 64 * i) 64) s
    if bad then { s with poison := s.poison ++ [(new + 64 * i) / 64] } else s) s

/-- What a migration operation writes into its record: the bitmap, the rounds, the state (R305). -/
structure MigOut where
  map : Option (BitVec 256)
  rounds : Option Nat
  state : Option Nat
deriving DecidableEq, Repr

/-- Operation 0 (R306). -/
def migStart (p : BitVec 5) (va : Nat) (s : State) : MigOut × State :=
  match s.walk p va with
  | none => (⟨none, none, some 4⟩, s)
  | some l =>
    if l.level != 3 || !(isHbm l.pa || isLp6 l.pa) then (⟨none, none, some 4⟩, s)
    else if (trackerOf s p va).isSome then (⟨none, none, some 8⟩, s)
    else if 64 ≤ s.trackers.length || s.pg p 0x6A 1 ≤ (s.trackers.filter (·.part == p)).length then (⟨none, none, some 5⟩, s)
    else (⟨none, some 0, some 1⟩, { s with trackers := s.trackers ++
      [⟨p, dw va, BitVec.ofNat 52 l.entryAddr, l.entry, BitVec.ofNat 52 l.pa, 0⟩] })

/-- The trackers without one. -/
def dropTracker (p : BitVec 5) (va : Nat) (s : State) : State :=
  { s with trackers := s.trackers.filter fun t => !(t.part == p && t.va.toNat == va) }

/-- Operations 1 to 3 (R306) with their tracker. -/
def migRound (t : Tracker) (rounds : Nat) (s : State) : MigOut × State :=
  (⟨some t.map, some ((rounds + 1) % 2 ^ 32), none⟩,
    { s with trackers := s.trackers.map fun x => if x.part = t.part && x.va = t.va then { x with map := 0 } else x })
/-- The commit: accesses held at a walk find the new entry, a copy record's too (R306, R307); the watches on the granule
fire with the invalidation of its lines (R84). -/
def migCommit (t : Tracker) (leaf : Nat) (s : State) : MigOut × State :=
  let va := t.va.toNat
  if !leafValid s leaf || s.phys8 t.leafAddr.toNat != t.leaf.toNat then (⟨none, none, some 4⟩, s)
  else if pinnedAt s t.part va then (⟨none, none, some 3⟩, s)
  else
    let s := copyLines t.page.toNat (leaf / 2 ^ 14 % 2 ^ 38 * 2 ^ 14) t.map s
    let s := physStore (Who.unit t.part) t.leafAddr.toNat (leBytes 8 leaf) s
    let s := dropLines t.part va 16384 (fireWatches t.page.toNat 16384 none s)
    (⟨some t.map, none, some 2⟩, dropTracker t.part va s)

/-- An operation of `mig.frz` on a record (R306). -/
def migrate (p : BitVec 5) (op : Nat) (d : BitVec 512) (s : State) : MigOut × State :=
  let va := migVa d
  if op = 0 then migStart p va s
  else match trackerOf s p va with
    | none => (⟨none, none, some 7⟩, s)
    | some t =>
      if op = 1 then migRound t (fld d 416 32) s
      else if op = 2 then migCommit t (fld d 64 64) s
      else (⟨none, none, some 6⟩, dropTracker p va s)

/-- `mig.frz` (R306). -/
def execMigFrz (a b : Reg) (s : State) : Host.Outcome State Fault Refusal :=
  runSeq 4 (do
    inHandler (.migFrz a b)
    let c ← getC
    let x := c.rg a
    let op := c.rg b
    need (x.toNat % 64 = 0) cAlign x
    need (op.toNat ≤ 3) cAccess op
    waitQuiet
    waitFar 3
    let w := c.who true 3
    let bs ← acc (gRead w x.toNat 64)
    acc (gProbe w .w x.toNat 64)
    let (o, t) := migrate c.partid op.toNat (leVec 512 bs) (← get)
    set t
    let w1 (off : Nat) (v : Option (List Byte)) : M Unit := match v with
      | some bs => acc (gWrite w (x.toNat + off) bs)
      | none => pure ()
    w1 16 (o.map.map fun m => leBytes 32 m.toNat)
    w1 52 (o.rounds.map (leBytes 4))
    w1 48 (o.state.map (leBytes 1))
    return .next) s

/-! ## Retention (R217-R219) -/

/-- `dc.keep` (R218). -/
def execDcKeep (a b : Reg) (s : State) : Host.Outcome State Fault Refusal :=
  runSeq 4 (do
    let s ← get
    let c := s.core
    let base := c.rg a
    let len := c.rg b
    need (base.toNat % 16384 = 0 && len.toNat % 16384 = 0 && len != 0 && len.toNat ≤ 2 ^ 40 && vaOk base.toNat len.toNat)
      cAccess base
    let d := dieOf c.id
    let at' (i : Nat) : Retain := vget s.retain (16 * d + i) Retain.reset
    let mine := (List.range 16).filter fun i => (at' i).en && (at' i).part == c.partid
    need (!(mine.any fun i => overlaps (at' i).base.toNat ((at' i).gran.toNat * 16384) base.toNat len.toNat)) cAccess base
    need (mine.length < s.pg c.partid (0x60 + d) 1) cAccess base
    match (List.range 16).find? fun i => !(at' i).en with
    | none => trap cAccess base
    | some i => do
      modS fun s => { s with retain := vmod s.retain (16 * d + i) fun _ =>
        ⟨true, base, c.partid, BitVec.ofNat 32 (len.toNat / 16384)⟩ }
      return .next) s

/-- The retention registers that a test names are cleared, and the lines of their classes demoted (R217, R219). -/
def unpin (gone : Nat → Retain → Bool) (s : State) : State :=
  { s with cache := s.cache.demote fun k => gone (16 * k.1 + k.2) (vget s.retain (16 * k.1 + k.2) Retain.reset),
           retain := Vector.ofFn fun i => if gone i.val s.retain[i] then Retain.reset else s.retain[i] }

/-- `dc.unpin` (R219). -/
def execDcUnpin (a : Reg) (s : State) : Host.Outcome State Fault Refusal :=
  runSeq 4 (do
    let c ← getC
    modS (unpin fun i r => i / 16 == dieOf c.id && r.en && r.part == c.partid && r.base == c.rg a)
    return .next) s

end Sys2Proof.Machine
end

