-- ==== Sys2Proof/Machine/System.lean ====
section
/-! DEFINITION. The system instructions but for the context (R318, R332, R333, R337-R339), fatal errors from outside a
word (R314, R320), the timeouts (R85, R337). -/
namespace Sys2Proof.Machine

/-- `nop` (R332). -/
def execNop (s : State) : Host.Outcome State Fault Refusal := runSeq 4 (return .next) s

/-- A page flag of the current core's partition (R394). -/
def State.pageFlag (s : State) (b : Nat) : Bool := bit (BitVec.ofNat 32 (s.pg s.core.partid 0x1C 4)) b

/-- `brk` (R333): the breakpoint trap, or a halt for the debugger at its own address. -/
def execBrk (s : State) : Host.Outcome State Fault Refusal :=
  runSeq 4 (do
    let s ← get
    if s.pageFlag 0 then
      modS (saveContext 0x4D false true s.core.id)
      return .stay
    else trap cBreak 0) s

/-- `trap` (R333). -/
def execTrap (a : Reg) (s : State) : Host.Outcome State Fault Refusal :=
  runSeq 4 (do
    let v := (← getC).rg a
    trap (if v.toNat ≤ 46 then 0x50 + v.toNat else 0x7F) v) s

/-- `eret` (R318). -/
def execEret (s : State) : Host.Outcome State Fault Refusal :=
  runSeq 4 (do
    match leaveHandler (← getC) with
    | none => illegal .eret
    | some c => do
      modC fun _ => c.count 1
      return .stay) s

/-- `pm.idle` (R337): it sleeps until it is woken, the watch has fired, or its time has passed. -/
def execPmIdle (s : State) : Host.Outcome State Fault Refusal :=
  runSeq 4 (do
    waitQuiet
    let s ← get
    let c := s.core
    if c.woken || c.timedOut || c.watch.any (·.fired) then
      modC fun c => { c with commit := .none, asleep := false, woken := false, timedOut := false, deadline := 0 }
      return .next
    if !c.asleep then modC fun c => { c with commit := .idle, asleep := true, deadline := s.now + 100000 }
    return .stay) s

/-- A line poisoned (R344). -/
def poisonLine (l : Nat) (s : State) : State := if s.poison.contains l then s else { s with poison := s.poison ++ [l] }

/-- `ecc.inj` (R339). -/
def execEccInj (a b : Reg) (s : State) : Host.Outcome State Fault Refusal :=
  runSeq 4 (do
    inHandler (.eccInj a b)
    let s ← get
    let c := s.core
    let v := c.rg a
    need (s.pageFlag 1 && v.toNat ≤ 3) cInject v
    let ad := c.rg b
    if v.toNat ≤ 1 then
      need (vaOk ad.toNat 1) cAccess ad
      let pa ← acc (transl (c.who true 0) .r ad.toNat)
      iff' (v == 1) (modS (poisonLine (pa / 64)))
    else if v.toNat = 2 then modC fun c => { c with injArray := true }
    else modC fun c => { c with injClap := true }
    return .next) s

/-- A counter's value (R338): counters 0 and 5 follow timing alone (log 9), counter 9 is the partition's. -/
def counterValue (n : Nat) : M Dword := do
  let s ← get
  if n = 0 || n = 5 then do
    set { s with fresh := s.fresh + 1 }
    return Config.cycles s.fresh
  else if n = 9 then return (s.part s.core.partid).degraded
  else return vget s.core.counters n 0

/-- `cnt.rd` (R338). -/
def execCntRd (d a : Reg) (s : State) : Host.Outcome State Fault Refusal :=
  runSeq 4 (do
    noDet
    let v := (← getC).rg a
    need (v.toNat ≤ 11) cCounter v
    wG d (← counterValue v.toNat)
    return .next) s

/-- FATAL_CONTEXT_ERROR (R320): an error of R314 that something outside the word meets ends the current core's context. -/
def execFatalContextError (cause : BitVec 7) (tval : BitVec 64) (s : State) : Host.Outcome State Fault Refusal :=
  .next (if 0x30 ≤ cause.toNat && cause.toNat ≤ 0x3F && s.core.ctx != 0 then
    refreshBacklog (endContext cause.toNat (BitVec.allOnes 64) tval s.core.id s) else s)

/-- A core changed where a condition holds. -/
def coreWhen (id : BitVec 11) (p : Core → Bool) (f : Core → Core) (s : State) : State :=
  let c := s.findCore id
  if p c then s.putCore (f c) else s

/-- MON_WAIT_TIMEOUT (R85): the time of a `mon.wait` that sleeps has passed. -/
def execMonWaitTimeout (core : BitVec 11) (s : State) : Host.Outcome State Fault Refusal :=
  .next (coreWhen core (fun c => c.asleep && c.commit != .idle) (fun c => { c with timedOut := true }) s)

/-- PM_IDLE_TIMEOUT (R337): the 100 µs of a `pm.idle` have passed. -/
def execPmIdleTimeout (core : BitVec 11) (s : State) : Host.Outcome State Fault Refusal :=
  .next (coreWhen core (fun c => c.asleep && c.commit == .idle) (fun c => { c with timedOut := true }) s)

end Sys2Proof.Machine
end

