-- ==== Sys2Proof/Machine/Reliability.lean ====
section
/-! DEFINITION. Errors of the hardware itself and the firmware's limits (R105, R340-R346, R394, R404). -/
namespace Sys2Proof.Machine

/-! ## The Clapper and the array (R105, R341-R343) -/

/-- A core as its checkpoint has it (R341, R342): the entries after the marker are discarded. -/
def Core.atCheckpoint (c : Core) : Core :=
  let k := c.check
  let keep (l : List Entry) : List Entry := l.filter fun e => !c.retained.any (·.num == e.num)
  let tk := k.tkcnt.toNat
  { c with g := k.g, p := k.p, st := k.st, hm := k.hm, phm := k.phm, cause := k.cause, epc := k.epc, tval := k.tval,
           fflg := k.fflg, seed := k.seed, iterlim := k.iterlim, bankmode := k.bankmode, lmDn := BitVec.ofNat 6 tk,
           lmUp := BitVec.ofNat 6 (tk / 2 ^ 8), msDn := BitVec.ofNat 6 (tk / 2 ^ 16),
           msUp := BitVec.ofNat 6 (tk / 2 ^ 24),
           tiles := Vector.ofFn fun i => { c.tiles[i] with tc := k.tc[i] }, pc := k.pc, lq := keep c.lq,
           mq := keep c.mq, sq := keep c.sq, commit := .none }

/-- The checkpointed context of a task of kind 0 saved with reason 0x46 (R343). What its replay on another core comes to
is the state in which the core stands, since no effect is performed again: the member keeps it. -/
def saveCheckpoint (c : Core) (s : State) : State :=
  let (m, t) := withdraw c s
  let m := m.boundary.settleHeads
  match saveSlots s c.partid 1 with
  | [] => endTask cSaveFail (BitVec.allOnes 64) 0 c s
  | a :: _ =>
    match writeImage m.atCheckpoint m.savedBanks 0x46 a t with
    | none => endTask cSaveFail (BitVec.allOnes 64) 0 c t
    | some t =>
      let t := t.putCore ((m.freed m.bankmode).count 10)
      releaseHeld (fun x => recPart x.record == c.partid.toNat)
        { t with saved := t.saved ++ [⟨c.partid, 0x46, c.record, c.origin, c.inst, c.ctx, [⟨m, dw a⟩], false, false⟩] }

/-- A persistent mismatch (R343): the core is fenced, its task saved or ended. -/
def fenceCore (id : BitVec 11) (s : State) : State :=
  let c := s.findCore id
  let s := logCore 0x46 c s
  let s :=
    if c.ctx = 0 then s
    else if recKind c.record != 0 then endTask cChecker (BitVec.allOnes 64) 0 c s
    else if c.check.routed < 65 then saveCheckpoint c s
    else endTask cUnreplay (BitVec.allOnes 64) 0 c s
  s.putCore { s.findCore id with act := .fenced }

/-- CLAPPER_MISMATCH (R342, R343): a replay that the mismatch does not outlive changes only its count and the log. -/
def execClapperMismatch (core : BitVec 11) (again : Bool) (s : State) : Host.Outcome State Fault Refusal :=
  if 96 ≤ coreOf core then .next s
  else if again then .next (fenceCore core s)
  else if (s.findCore core).ctx = 0 then .next s
  else
    let me := s.core.id
    .next ((clapperReplay (s.focus core)).focus me)

/-- CORE_RETURN_TO_SERVICE (R343). -/
def execCoreReturnToService (core : BitVec 11) (s : State) : Host.Outcome State Fault Refusal :=
  .next (coreWhen core (fun c => c.act == .fenced) (fun c => { c with act := .idle }) s)

/-- MATRIX_REPLAY (R105, R344): an uncorrectable error reaches a core's array. -/
def execMatrixReplay (core : BitVec 11) (s : State) : Host.Outcome State Fault Refusal :=
  let c := s.findCore core
  if c.ctx = 0 then .next s else
  let me := s.core.id
  .next ((arrayError ((c.mq.head?.map (·.addr)).getD c.pc) (s.focus core)).focus me)

/-- MEMORY_ECC_ERROR (R344): a corrected error of a core's bank is counted (counter 8); an uncorrectable one poisons its
line. Spaces: 0 memory, 1 the banks, 2 the code stores. -/
def execMemoryEccError (space : BitVec 2) (pa : BitVec 52) (poison : Bool) (s : State) : Host.Outcome State Fault Refusal :=
  let l := pa.toNat / 64
  let add (p : List Nat) : List Nat := if p.contains l then p else p ++ [l]
  let id := pa.toNat / (12 * 0x20000)
  .next (
    if poison then
      (if space = 0 then poisonLine l s
       else if space = 1 then { s with bankPoison := add s.bankPoison }
       else if space = 2 then { s with codePoison := add s.codePoison }
       else s)
    else if space = 1 && id < 2048 then
      let c := s.findCore (BitVec.ofNat 11 id)
      s.putCore (c.count 8)
    else s)

/-! ## Command processors (R340) -/

/-- Three restarts of a die, the last one now, have come within one second (R340). -/
def CmdProc.worn (x : CmdProc) (now : Nat) : Bool :=
  decide (3 ≤ (x.restarts.filter fun t => now / 1000 ≤ t + 1000000).length)

/-- CP_LOCKSTEP_MISMATCH (R340): dispatch on the die freezes, its held team reservations are released. -/
def execCpLockstepMismatch (die : BitVec 3) (s : State) : Host.Outcome State Fault Refusal :=
  let d := die.toNat
  let s := { s with cps := vmod s.cps d fun x =>
    let x := { x with restarts := x.restarts ++ [s.now / 1000] }
    { x with frozen := true, stuck := x.stuck || x.worn s.now } }
  .next (raiseDint 0 (logEvent 0x47 true 0 0 (256 * d) (releaseHeld (fun x => x.cluster.any fun k => k / 2 == d) s)))

/-- An image that waits for its target's restart becomes active (R401). -/
def FwTarget.activate (f : FwTarget) : FwTarget :=
  if !f.pending then f else
  let svn := if f.active then f.svnA else f.svnB
  { f with active := !f.active, pending := false, minSvn := if f.minSvn.toNat < svn.toNat then svn else f.minSvn }

/-- CP_RESTART_COMPLETE (R340): dispatch resumes, unless the die has restarted three times within a second; Basoc is
told. A checked image of the processors is the active one from here (R401). -/
def execCpRestartComplete (die : BitVec 3) (s : State) : Host.Outcome State Fault Refusal :=
  let d := die.toNat
  let x := vget s.cps d CmdProc.reset
  if !x.frozen then .next s else
  let stays := x.stuck
  .next { s with cps := vmod s.cps d fun x => { x with frozen := stays }, fw := vmod s.fw 1 FwTarget.activate,
                 basoc := s.basoc ++ [.restart die] ++ if stays then [.frozen die] else [] }

/-! ## Limits and stops -/

/-- WATCHDOG_EXPIRY (R314, R394). -/
def execWatchdogExpiry (core : BitVec 11) (s : State) : Host.Outcome State Fault Refusal :=
  let c := s.findCore core
  .next (if c.ctx != 0 && s.pg c.partid 0x14 4 != 0 then endTask cWatchdog (BitVec.allOnes 64) 0 c s else s)

/-- HOST_ABORT (R314). -/
def execHostAbort (core : BitVec 11) (s : State) : Host.Outcome State Fault Refusal :=
  let c := s.findCore core
  .next (if c.ctx != 0 then endTask cHostAbort (BitVec.allOnes 64) 0 c s else s)

/-- RUN_SLICE_EXPIRY (R394): the task is pre-empted while a queue of its partition is backlogged. -/
def execRunSliceExpiry (core : BitVec 11) (s : State) : Host.Outcome State Fault Refusal :=
  let c := s.findCore core
  let waits := (List.range 256).any fun q => (s.cq q).backlogged && s.cqOwner q == some c.partid
  .next (if c.ctx != 0 && s.pg c.partid 0xE0 4 != 0 && waits then saveContext 0x40 false false core s else s)

/-- THROTTLE_STEP_DOWN (R404): from 2.25 GHz to 1.2 GHz in steps of 75 MHz. -/
def execThrottleStepDown (s : State) : Host.Outcome State Fault Refusal :=
  .next { s with clockStep := min 14 (s.clockStep + 1) }
/-- THROTTLE_STEP_UP (R404). -/
def execThrottleStepUp (s : State) : Host.Outcome State Fault Refusal := .next { s with clockStep := s.clockStep - 1 }

/-- Every running task saved with a reason. -/
def saveRunning (reason : Nat) (s : State) : State :=
  s.cores.foldl (fun (t : State) c => saveContext reason false false c.id t) s

/-- THERMAL_STOP (R391, R404): the stop is logged as an event of the device, every running task is pre-empted with reason
0x49, and dispatch freezes (log 51). -/
def execThermalStop (s : State) : Host.Outcome State Fault Refusal :=
  .next (raiseDint 1 (saveRunning 0x49 (logEvent 0x49 true 0 0 0 { s with thermal := true })))
/-- THERMAL_RESUME (R404). -/
def execThermalResume (s : State) : Host.Outcome State Fault Refusal := .next { s with thermal := false }

/-! ## Partition reset (R346) -/

/-- Every bound and every saved task of a partition ends with partition-reset. -/
def endPartition (p : BitVec 5) (s : State) : State :=
  let bound := s.cores.filter fun c => c.ctx != 0 && c.partid == p
  let kept := (s.saved.filter (·.part == p)).flatMap fun v => v.members.map (·.core)
  (bound ++ kept).foldl (fun (t : State) c =>
    if t.cores.any (fun d => d.ctx == c.ctx) || t.saved.any (fun v => v.ctx == c.ctx) then
      endTask cPartReset (BitVec.allOnes 64) 0 c t
    else t) s

/-- What a partition reset does to the partition (R346, R400). -/
def resetPartition (p : BitVec 5) (s : State) : State :=
  let s := endPartition p s
  let mine (q : Nat) : Bool := s.cqOwner q == some p
  let granted (k : Nat) : Bool := s.pg p (0x70 + 8 * (k / 64)) 8 >>> (k % 64) % 2 == 1
  let s := { s with
    cqs := Vector.ofFn fun q => let c := s.cqs[q]; if mine q.val then { c with en := false, head := c.tail } else c
    selected := s.selected.filter fun (x : Selected) => recPart x.record != p.toNat
    ctxs := s.ctxs.filter fun x =>
      x.ended || !s.selected.any (fun (y : Selected) => recPart y.record == p.toNat && y.ctx != 0 && y.ctx == x.ctx)
    rings := s.rings.map fun (r : HwRing) => if r.part = p then { r with en := false } else r
    regions := s.regions.filter fun (r : Region) => r.part != p
    channels := Vector.ofFn fun k => if granted k.val then s.channels[k].abort else s.channels[k] }
  refreshBacklog (dropLines p 0 (2 ^ 57) (unpin (fun _ r => r.part == p) (s.setPart p fun q => { q with degraded := 0 })))

/-- PARTITION_RESET (R346). -/
def execPartitionReset (part : BitVec 5) (s : State) : Host.Outcome State Fault Refusal :=
  .next (resetPartition part (logEvent 0x48 false part 0 0 s))

end Sys2Proof.Machine
end

