-- ==== Sys2Proof/Machine/Kv.lean ====
section
/-! DEFINITION. The KV instructions (R287-R296). -/
namespace Sys2Proof.Machine

/-- No page (R287, R289). -/
def noPage : Nat := 0xFFFFFFFF

/-- A record, its descriptor and its address. -/
structure KvRec where
  x : Nat
  d : BitVec 512
  t : BitVec 512
deriving DecidableEq, Repr

def KvRec.kvd (k : KvRec) : Nat := fld k.d 0 57
def KvRec.len (k : KvRec) : Nat := fld k.d 64 32
def KvRec.hold (k : KvRec) : Nat := fld k.d 96 32
def KvRec.page (k : KvRec) (i : Nat) : Nat := fld k.d (128 + 32 * i) 32
/-- The pages that the slots name, ascending by slot. -/
def KvRec.pages (k : KvRec) : List Nat := ((List.range 12).map k.page).filter (· != noPage)
def KvRec.ebase (k : KvRec) : Nat := fld k.t 0 57
def KvRec.npages (k : KvRec) : Nat := fld k.t 96 32
def KvRec.tokb (k : KvRec) : Nat := fld k.t 64 16
def KvRec.dbase (k : KvRec) : Nat := fld k.t 128 57
def KvRec.free (k : KvRec) : Nat := fld k.t 192 32

/-- A descriptor obeys R287. -/
def descOk (kvd : Nat) (t : BitVec 512) : Bool :=
  kvd % 64 == 0 && fld t 57 7 == 0 && fld t 0 3 == 0 && fld t 80 16 == 0 && fld t 96 32 != 0 && fld t 96 32 != noPage &&
  fld t 64 16 % 8 == 0 && decide (8 ≤ fld t 64 16) && decide (fld t 64 16 ≤ 4096) && fld t 185 7 == 0 &&
  fld t 128 6 == 0 && fld t 224 32 == 0 && fld t 256 256 == 0

/-- A record is consistent, but for its descriptor's own form (R289). -/
def KvRec.ok (k : KvRec) : Bool :=
  let named := k.pages ++ (if k.hold = noPage then [] else [k.hold])
  fld k.d 57 7 == 0 && decide (k.len ≤ 192) && named.all (fun p => decide (p < k.npages)) &&
  (List.range 12).all (fun i => (k.page i != noPage) == decide (i < (k.len + 15) / 16)) && decide named.Nodup

/-- The agent of a kv step: at DV (R290). -/
def kvWho : M Who := do return ((← getC).who true 3).exclusive

/-- A doubleword read, and written, by a kv step. -/
def kvGet8 (a : Nat) : M Nat := do return leNat (← acc (gRead (← kvWho) a 8))
def kvPut8 (a v : Nat) : M Unit := do acc (gWrite (← kvWho) a (leBytes 8 v))
def kvPut4 (a v : Nat) : M Unit := do acc (gWrite (← kvWho) a (leBytes 4 v))

/-- A kv instruction (R290): it waits for the queues and releases the core's earlier accesses at DV, makes its step, and the
next word decodes once the step is performed at DV. -/
def kvWord (step : M Unit) : M Flow := do
  if (← getC).commit = .kvStep then
    waitFar 3
    modC fun c => { c with commit := .none }
    return .next
  noDet
  waitQuiet
  waitFar 3
  step
  match waitFar 3 (← get) with
  | .ok _ => return .next
  | .error _ => do
    modC fun c => { c with commit := .kvStep }
    return .stay

/-- An address operand whose low bits `m` must be zero (R290). -/
def kvAddr (v : Dword) (m : Nat) : M Unit := need (fld v 57 7 = 0 && v.toNat % m = 0) cAlign v

/-- A record read and judged (R289). -/
def kvOpen (x : Nat) : M KvRec := do
  let d : BitVec 512 := leVec 512 (← acc (gRead (← kvWho) x 64))
  need (fld d 57 7 = 0 && fld d 0 6 = 0) cKvRecord (dw x)
  let t : BitVec 512 := leVec 512 (← acc (gRead (← kvWho) (fld d 0 57) 64))
  let k : KvRec := ⟨x, d, t⟩
  need (descOk k.kvd t && k.ok) cKvRecord (dw x)
  return k

/-- The address of a page's entry, and the entry, which must be well formed (R288, R289). -/
def KvRec.entryAt (k : KvRec) (p : Nat) : Nat := k.ebase + 8 * p
def kvEntry (k : KvRec) (p : Nat) : M Dword := do
  let e := dw (← kvGet8 (k.entryAt p))
  need (fld e 32 11 = 0 && fld e 43 5 ≤ 16) cKvRecord (dw k.x)
  return e
def enRef (e : Dword) : Nat := fld e 48 16
def enFill (e : Dword) : Nat := fld e 43 5
def enNext (e : Dword) : Nat := fld e 0 32
/-- An entry as its doubleword (R288). -/
def mkEntry (ref fill next : Nat) : Nat := ref % 2 ^ 16 * 2 ^ 48 + fill % 32 * 2 ^ 43 + next % 2 ^ 32

/-- The free page that an instruction takes (R287, R289, R291, R293). -/
def kvTake (k : KvRec) : M Nat := do
  needX (k.free != noPage) cKvPages
  need (k.free < k.npages) cKvRecord (dw k.x)
  return k.free

/-- `kv.app` (R291): the entry of a page that it takes is read in the step, after the probe of the destination. -/
def execKvApp (d a b : Reg) (s : State) : Host.Outcome State Fault Refusal :=
  runSeq 4 (kvWord do
    let c ← getC
    let x := c.rg a
    let src := c.rg b
    kvAddr x 64
    kvAddr src 8
    let k ← kvOpen x.toNat
    let n := k.len
    let o := n % 16
    need (n != 192) cKvPages x
    let p ← if o = 0 then kvTake k else pure (k.page (n / 16))
    iff' (o != 0) (do need (enRef (← kvEntry k p) ≤ 1) cCow x)
    let dst := k.dbase + 16 * k.tokb * p + k.tokb * o
    need (vaOk dst k.tokb) cAccess (dw dst)
    match probeFail (c.who true 3) .w (← get) dst k.tokb with
    | some (_, true) => trapX cPoolLost
    | some (f, false) => trap cPage (dw f)
    | none => pure ()
    iff' (o = 0) (do
      let e ← kvEntry k p
      kvPut4 (k.kvd + 24) (enNext e)
      kvPut8 (k.entryAt p) (mkEntry 1 0 0)
      kvPut4 (x.toNat + 16 + 4 * (n / 16)) p)
    let bs ← (List.range (k.tokb / 8)).flatMapM fun i => acc (gRead (c.who true 3) (src + dw (8 * i)).toNat 8)
    acc (gWrite (c.who true 3) dst bs)
    kvPut8 (k.entryAt p) (setFld (dw (← kvGet8 (k.entryAt p))) 43 5 (o + 1)).toNat
    kvPut4 (x.toNat + 8) (n + 1)
    wG d (dw (n + 1))) s

/-- `kv.fork` (R292). -/
def execKvFork (d a : Reg) (s : State) : Host.Outcome State Fault Refusal :=
  runSeq 4 (kvWord do
    let c ← getC
    let x := c.rg a
    let y := c.rg d
    kvAddr x 64
    kvAddr y 64
    let k ← kvOpen x.toNat
    let m ← kvOpen y.toNat
    need (y != x && m.len == 0 && m.hold == noPage) cKvRecord y
    let es ← k.pages.mapM fun p => do return (p, ← kvEntry k p)
    match es.find? fun r => enRef r.2 == 65535 with
    | some r => trap cKvRecord (dw r.1)
    | none => pure ()
    each es fun r => kvPut8 (k.entryAt r.1) (r.2.toNat + 2 ^ 48)
    kvPut8 y.toNat k.kvd
    kvPut8 (y.toNat + 8) (noPage * 2 ^ 32 + k.len)
    each (List.range 12) fun i => kvPut4 (y.toNat + 16 + 4 * i) (k.page i)) s

/-- `kv.map` (R293). -/
def execKvMap (a b : Reg) (s : State) : Host.Outcome State Fault Refusal :=
  runSeq 4 (kvWord do
    let c ← getC
    let x := c.rg a
    let i := (c.rg b).toNat
    kvAddr x 64
    let k ← kvOpen x.toNat
    need (i < 12 && k.page i != noPage && k.hold == noPage) cKvRecord x
    let q ← kvTake k
    let p := k.page i
    let ep ← kvEntry k p
    let eq' ← kvEntry k q
    kvPut4 (k.kvd + 24) (enNext eq')
    kvPut8 (k.entryAt q) (mkEntry 1 (enFill ep) 0)
    kvPut4 (x.toNat + 12) p
    kvPut4 (x.toNat + 16 + 4 * i) q) s

/-- One reference dropped (R294): a page that no one holds joins the free chain. -/
def kvDrop (k : KvRec) (p : Nat) : M Unit := do
  let e ← kvEntry k p
  if enRef e ≤ 1 then
    let free ← kvGet8 (k.kvd + 24)
    kvPut8 (k.entryAt p) (mkEntry 0 0 free)
    kvPut4 (k.kvd + 24) p
  else kvPut8 (k.entryAt p) (e.toNat - 2 ^ 48)

/-- Before any drop: every page has a reference, and the free chain's head is a page if a page joins it (R289, R294). -/
def kvCheckDrops (k : KvRec) (ps : List Nat) : M Unit := do
  let es ← ps.mapM fun p => kvEntry k p
  need (es.all fun e => enRef e != 0) cKvRecord (dw k.x)
  need (!(es.any fun e => enRef e == 1) || k.free == noPage || decide (k.free < k.npages)) cKvRecord (dw k.x)

/-- `kv.rel` (R294). -/
def execKvRel (a : Reg) (s : State) : Host.Outcome State Fault Refusal :=
  runSeq 4 (kvWord do
    let v := (← getC).rg a
    need (fld v 57 7 = 0 && fld v 1 5 = 0) cAlign v
    let x := v.toNat / 2 * 2
    let k ← kvOpen x
    if bit v 0 then
      need (k.hold != noPage) cKvRecord (dw x)
      kvCheckDrops k [k.hold]
      kvDrop k k.hold
      kvPut4 (x + 12) noPage
    else
      let ps := k.pages ++ (if k.hold = noPage then [] else [k.hold])
      kvCheckDrops k ps
      each ps (kvDrop k)
      each (List.range 12) fun i => iff' (k.page i != noPage) (kvPut4 (x + 16 + 4 * i) noPage)
      iff' (k.hold != noPage) (kvPut4 (x + 12) noPage)
      kvPut4 (x + 8) 0) s

/-- `kv.rd` (R295). -/
def execKvRd (d a : Reg) (s : State) : Host.Outcome State Fault Refusal :=
  runSeq 4 (kvWord do
    let v := (← getC).rg a
    need (fld v 57 7 = 0 && fld v 4 2 = 0) cAlign v
    let i := fld v 0 4
    let x := v.toNat / 64 * 64
    let k ← kvOpen x
    need (i ≤ 11) cKvRecord (dw x)
    let p := k.page i
    if p = noPage then wG d (dw noPage)
    else
      let e ← kvEntry k p
      wG d (dw (fld e 43 21 * 2 ^ 43 + p))) s

end Sys2Proof.Machine
end

