-- ==== Sys2Proof/Machine/Serving.lean ====
section
/-! DEFINITION. Experts, embeddings, the sampler, the acceptance engine (R347-R368). -/
namespace Sys2Proof.Machine

/-! ## Commands (R241, R350) -/

/-- The numbers of the engines as agents: the samplers by cluster, the others by die, the text engines by number. -/
def samplerUnit (cl : Nat) : Nat := 1000 + cl
def acceptUnit (d : Nat) : Nat := 1100 + d
def expertUnit (d : Nat) : Nat := 1200 + d
def prefetchUnit (d : Nat) : Nat := 1300 + d
def textUnit (dtk : Bool) (e : Nat) : Nat := 1400 + 100 * dtk.toNat + e
def requestUnit : Nat := 1600
/-- The first number of the units that store messages, one for each. -/
def arrivalUnit : Nat := 1700

/-- The agent that serves a command: the pusher's place, tags and counts (R153, R363). -/
def Command.who (c : Command) : Who :=
  { part := c.part, core := c.core, agent := c.unit, det := c.det, ctx := c.ctx, task := c.task,
    member := c.member, arr := c.arrivals, wts := c.waits, scope := c.scope }

/-- Every access of a command so far is performed at its scope (R242). -/
def Command.settled (c : Command) (s : State) : Bool := !s.engineFar c.unit c.scope

/-- A command to an engine made by the current core. -/
def mkCommand (unit op : Nat) (a b x : Dword) (snap snap2 : BitVec 512) (sc : BitVec 3) : M Command := do
  let s ← get
  let c := s.core
  let w := c.who true sc
  set { s with nextNum := s.nextNum + 1 }
  return { unit := unit, op := op, num := s.nextNum, core := c.id, part := c.partid, scope := sc, a := a, b := b, x := x, snap := snap,
           snap2 := snap2, stage := 0, det := c.det, ctx := c.ctx, task := w.task, member := w.member, arrivals := w.arr,
           waits := w.wts }

/-- An address operand of major 0x1D (R350). -/
def opAddr (v : Dword) (m : Nat) : M Unit := need (fld v 57 7 = 0 && v.toNat % m = 0) cAlign v

/-- A 64-byte structure read at issue. -/
def readDesc (sc : BitVec 3) (a : Nat) : M (BitVec 512) := do
  return leVec 512 (← acc (gRead ((← getC).who true sc) a 64))

/-- A range checked for translation at issue (R350). -/
def checkRange (p : Perm) (a n : Nat) : M Unit := do
  need (vaOk a n) cAccess (dw a)
  acc (gProbe ((← getC).who true 0) p a n)

/-- An engine's read and its write; none when the access is refused. -/
def engRead (w : Who) (a n : Nat) (s : State) : Option (List Byte × State) :=
  match (gRead w a n).run s with
  | .ok (.ok bs, t) => some (bs, t)
  | _ => none
def engWrite (w : Who) (a : Nat) (bs : List Byte) (s : State) : Option State :=
  match (gWrite w a bs).run s with
  | .ok (.ok _, t) => some t
  | _ => none

/-- A type 4 event (R368). -/
def type4 (p : BitVec 5) (code src : Nat) (a d1 : Dword) : Event :=
  ⟨p, dw (code * 2 ^ 60 + 4 * 2 ^ 57 + a.toNat / 64 % 2 ^ 51 * 64 + src), d1⟩

/-! ## The expert combine (R347, R348) -/

/-- The fields of a combine descriptor. -/
structure Combine where
  g : Nat
  s : Nat
  o : Nat
  ostride : Nat
  sstride : Nat
  ntok : Nat
  nexp : Nat
  cap : Nat
deriving DecidableEq, Repr

def combineOf (d : BitVec 512) : Combine :=
  ⟨fld d 0 57, fld d 64 57, fld d 128 57, fld d 224 32, fld d 208 16, fld d 272 8, fld d 264 8, fld d 256 8⟩
/-- Its layout (R347). -/
def combineOk (d : BitVec 512) : Bool :=
  let c := combineOf d
  fld d 57 7 == 0 && fld d 121 7 == 0 && fld d 185 7 == 0 && fld d 192 16 == 0 && fld d 280 40 == 0 && fld d 320 192 == 0 &&
  c.g % 2 == 0 && c.s % 2 == 0 && c.o % 2 == 0 && c.ostride % 2 == 0 && decide (2 * c.nexp * c.cap ≤ c.ostride) &&
  c.sstride % 2 == 0 && decide (2 ≤ c.sstride) && c.ntok != 0 && decide (1 ≤ c.nexp) && decide (c.nexp ≤ 64) &&
  decide (1 ≤ c.cap) && decide (c.cap ≤ 64)

/-- The output rows overlap the gate table or a slot entry (R348). -/
def Combine.overlaps (c : Combine) : Bool :=
  let n := c.nexp * c.cap
  (List.range c.ntok).any fun t =>
    Machine.overlaps (c.o + t * c.ostride) (2 * n) c.g (2 * c.nexp * c.ntok) ||
    (List.range n).any fun k => Machine.overlaps (c.o + t * c.ostride) (2 * n) (c.s + k * c.sstride) 2

/-- The token of a slot entry: none for zero, an error for anything but an integer 1 to ntok (R348). -/
def slotToken (ntok v : Nat) : Option (Option Nat) :=
  match bf16.dec v with
  | .fin s m e =>
    if m = 0 then some none
    else
      let x := if 0 ≤ e then m <<< e.toNat else m >>> (-e).toNat
      if !s && (0 ≤ e || (m >>> (-e).toNat) <<< (-e).toNat == m) && 1 ≤ x && x ≤ ntok then some (some (x - 1)) else none
  | _ => none

/-- A gate that R348 refuses. -/
def gateBad (v : Nat) : Bool :=
  match bf16.dec v with
  | .fin s m _ => s && m != 0
  | _ => true

/-- A renormalised gate: gate / S in BF16 (R348). -/
def gateOver (v : Nat) (sum : Val) : Nat :=
  match bf16.dec v, sum with
  | .fin s m e, .fin _ n g =>
    if n = 0 then 0
    else if m = 0 then bf16.signed s 0
    else (bf16.round .rne (divSticky s m e n g 40)).1
  | _, _ => 0

/-- Whether the core's stores, the word's own among them, are performed at a scope. A word that has made its stores and finds
them not performed keeps them, marked in `cmdDone`, and waits. -/
def farDone (sc : BitVec 3) : M Bool := do
  let s ← get
  match waitFar sc s with
  | .ok _ => do
    modC fun c => { c with cmdDone := none }
    return true
  | .error .wait =>
    if s.core.cmdDone.isSome then stopWith .wait
    modC fun c => { c with cmdDone := some (false, 0) }
    return false
  | .error x => stopWith x

/-- `moe.cmb` (R348): its writes, and after them the wait until they are performed at its scope. -/
def execMoeCmb (a b : Reg) (sc : BitVec 3) (s : State) : Host.Outcome State Fault Refusal :=
  runSeq 4 (do
    let c ← getC
    if c.cmdDone.isSome then
      let _ ← farDone sc
      return .next
    let x := c.rg a
    let ctl := c.rg b
    opAddr x 64
    need (fld ctl 1 63 = 0) cCombine ctl
    waitQuiet
    waitFar sc
    let w := c.who true sc
    let d ← readDesc sc x.toNat
    let k := combineOf d
    need (combineOk d && !k.overlaps) cCombine x
    let n := k.nexp * k.cap
    let rd (a : Nat) : M Nat := do return leNat (← acc (gRead w a 2))
    let toks ← (List.range n).mapM fun i => do
      let v ← rd (k.s + i * k.sstride)
      match slotToken k.ntok v with
      | some t => return t
      | none => trap cCombine (dw (k.s + i * k.sstride))
    let rows ← (List.range k.ntok).mapM fun t => do
      let ps := (List.range n).filter fun i => toks.getD i none == some t
      ps.mapM fun i => do
        let ga := k.g + 2 * (k.nexp * t + i / k.cap)
        let v ← rd ga
        need (!gateBad v) cCombine (dw ga)
        return (i, v)
    each rows.zipIdx fun r => do
      let sum := r.1.foldl (fun (y : Val) p => y.add (bf16.dec p.2)) (.fin false 0 0)
      let out := r.1.foldl (fun (l : List Nat) p => l.set p.1 (if bit ctl 0 then gateOver p.2 sum else p.2)) (List.replicate n 0)
      acc (gWrite w (k.o + r.2 * k.ostride) (out.flatMap (leBytes 2)))
    if ← farDone sc then return .next else return .stay) s

/-! ## Expert slots (R351-R353) -/

/-- The header of an ECR. -/
def ecrOk (d : BitVec 512) : Bool :=
  fld d 32 32 == 0 && 1 ≤ fld d 16 16 && fld d 16 16 ≤ 4095 && 1 ≤ fld d 0 16 && fld d 0 16 ≤ 256 &&
  fld d 121 7 == 0 && fld d 64 57 % 16384 == 0 && fld d 160 32 % 16384 == 0 && fld d 128 32 == 0 && fld d 249 7 == 0 &&
  fld d 256 256 == 0
def ecrExp (d : BitVec 512) : Nat := fld d 16 16
def ecrSlots (d : BitVec 512) : Nat := fld d 0 16
/-- Where a counter stands. -/
def ecrCtr (x : Nat) (d : BitVec 512) (e : Nat) : Nat := x + 64 + 8 * ecrSlots d + 4 * e
/-- The state and the expert of a slot doubleword. -/
def slotSt (v : Dword) : Nat := fld v 62 2
def slotExp (v : Dword) : Nat := fld v 32 12
def slotWord (st e : Nat) : Nat := st * 2 ^ 62 + e % 4096 * 2 ^ 32
/-- Its layout (R351). -/
def slotOk (v : Dword) : Bool := slotSt v != 3 && fld v 44 18 == 0 && fld v 0 32 == 0

/-- An ECR read and judged at issue (R350, R351): its header, the translation of all of it, its slots. -/
def ecrOpen (x : Dword) (sc : BitVec 3) : M (BitVec 512 × List Dword) := do
  opAddr x 64
  let d ← readDesc sc x.toNat
  need (ecrOk d) cSlot x
  checkRange .r (x.toNat + 64) (8 * ecrSlots d + 4 * ecrExp d)
  let w := (← getC).who true sc
  let bs ← acc (gRead w (x.toNat + 64) (8 * ecrSlots d))
  let sl := (List.range (ecrSlots d)).map fun i => dw (bytesAt bs (8 * i) 8)
  need (sl.all slotOk) cSlot x
  match sl.find? fun v => slotSt v != 0 && decide (ecrExp d ≤ slotExp v) with
  | some v => trap cSlot (dw (slotExp v))
  | none => pure ()
  return (d, sl)

/-- `exs.cnt` (R352). -/
def execExsCnt (d a : Reg) (sc : BitVec 3) (s : State) : Host.Outcome State Fault Refusal :=
  runSeq 4 (do
    noDet
    let c ← getC
    let x := c.rg a
    let e := c.rg d
    let (h, sl) ← ecrOpen x sc
    need (e.toNat < ecrExp h) cSlot e
    let w := (c.who true (maxScope sc 3)).exclusive
    let ca := ecrCtr x.toNat h e.toNat
    let n := leNat (← acc (gRead w ca 4))
    acc (gWrite w ca (leBytes 4 (min (n + 1) (2 ^ 32 - 1))))
    let at' (st : Nat) : Option Nat := sl.findIdx? fun v => slotSt v == st && slotExp v == e.toNat
    wG d (match at' 2, at' 1 with
      | some i, _ => dw i
      | none, some i => dw (i + 2 ^ 32)
      | none, none => BitVec.allOnes 64)
    return .next) s

/-- `exs.age` (R352). -/
def execExsAge (a : Reg) (sc : BitVec 3) (s : State) : Host.Outcome State Fault Refusal :=
  runSeq 4 (do
    noDet
    let c ← getC
    let x := c.rg a
    let (h, _) ← ecrOpen x sc
    let w := (c.who true (maxScope sc 3)).exclusive
    let n := ecrExp h
    let bs ← acc (gRead w (ecrCtr x.toNat h 0) (4 * n))
    acc (gWrite w (ecrCtr x.toNat h 0) ((List.range n).flatMap fun i => leBytes 4 (bytesAt bs (4 * i) 4 / 2)))
    return .next) s

/-- `exs.ld` (R352): pushed to the die's expert loader. -/
def execExsLd (a b : Reg) (sc : BitVec 3) (s : State) : Host.Outcome State Fault Refusal :=
  runSeq 4 (do
    noDet
    let c ← getC
    let x := c.rg a
    let v := c.rg b
    let (h, _) ← ecrOpen x sc
    needX (fld v 12 51 = 0) cSlot
    let e := fld v 0 12
    need (e < ecrExp h) cSlot (dw e)
    let sc := maxScope sc 3
    waitFar sc
    let k ← mkCommand (expertUnit (dieOf c.id)) 0 x v (dw e) h 0 sc
    modS fun s => { s with experts := vmod s.experts (dieOf c.id) (· ++ [k]) }
    engineCommand
    return .next) s

/-- The head of an engine's FIFO that takes part in a step, and the FIFO without it. -/
def headOf {n : Nat} (v : Vector (List Command) n) (k : Nat) : Option Command := (vget v k []).head?
def popHead {n : Nat} (v : Vector (List Command) n) (k : Nat) : Vector (List Command) n := vmod v k (·.drop 1)
def setHead' {n : Nat} (v : Vector (List Command) n) (k : Nat) (c : Command) : Vector (List Command) n :=
  vmod v k fun l => c :: l.drop 1

/-- The slots and the counters of an ECR as the loader reads them. -/
def ecrState (k : Command) (s : State) : Option (List Dword × List Nat × State) :=
  let x := k.a.toNat
  (engRead k.who (x + 64) (8 * ecrSlots k.snap) s).bind fun sb =>
  (engRead k.who (ecrCtr x k.snap 0) (4 * ecrExp k.snap) sb.2).map fun cb =>
    ((List.range (ecrSlots k.snap)).map (fun i => dw (bytesAt sb.1 (8 * i) 8)),
     (List.range (ecrExp k.snap)).map (fun i => bytesAt cb.1 (4 * i) 4), cb.2)

/-- The slot that a load takes (R352): the lowest empty one, else the resident one whose counter is least. -/
def victim (sl : List Dword) (cs : List Nat) : Option Nat :=
  match sl.findIdx? fun v => slotSt v == 0 with
  | some i => some i
  | none =>
    let ix := (List.range sl.length).filter fun i => slotSt (sl.getD i 0) == 2
    let ctr (i : Nat) : Nat := cs.getD (slotExp (sl.getD i 0)) 0
    ix.foldl (fun (m : Option Nat) i =>
      match m with
      | none => some i
      | some b => if ctr i < ctr b then some i else some b) none

/-- The loader's event of its head command (R352, R368), which leaves the FIFO. -/
def loadPost (d : Nat) (k : Command) (ok : Bool) (v : Nat) (s : State) : State :=
  let s := { s with experts := popHead s.experts d }
  if !ok || bit k.b 63 then
    enginePost (clusterOf k.core) (type4 k.part (if ok then 1 else 3) 2 k.a (dw (k.x.toNat * 2 ^ 32 + v % 256))) none s
  else s

/-- EXPERT_LOAD_CLAIM (R352): stage 1 + 5·v is a claimed slot v. A loader that finds no translation of the ECR takes no slot
and posts the event of a failed copy, with a free slot number (log 103). -/
def execExpertLoadClaim (die : BitVec 3) (s : State) : Host.Outcome State Fault Refusal :=
  let d := die.toNat
  match headOf s.experts d with
  | none => .next s
  | some k =>
    if k.stage != 0 || waitingPost 4 2 (fun x => x / 2 == d) s then .next s else
    match ecrState k s with
    | none => .next (loadPost d k false (Config.openTval s.fresh).toNat { s with fresh := s.fresh + 1 })
    | some (sl, cs, s) =>
      let drop : State := { s with experts := popHead s.experts d }
      if sl.any fun v => slotSt v != 0 && slotExp v == k.x.toNat then .next drop else
      match victim sl cs with
      | none => .next drop
      | some v =>
        match engWrite k.who (k.a.toNat + 64 + 8 * v) (leBytes 8 (slotWord 1 k.x.toNat)) s with
        | some t => .next { t with experts := setHead' t.experts d { k with stage := 1 + 5 * v } }
        | none => .next (loadPost d k false v s)

/-- The copy of an expert into its slot; none when it finds no translation or a lost pool region. -/
def loadCopy (k : Command) (v : Nat) (s : State) : Option State :=
  let n := fld k.snap 160 32
  (engRead k.who (fld k.snap 192 57 + k.x.toNat * n) n s).bind fun r =>
    engWrite k.who (fld k.snap 64 57 + v * n) r.1 r.2

/-- One step of the loader on a claimed slot (R242, R352), once all before it is performed: the copy (stage 1 + 5·v, then
2 or 3 when it fails), the slot's new word (then 4 or 5), the event. -/
def loadStep (d : Nat) (s : State) : State :=
  match headOf s.experts d with
  | none => s
  | some k =>
    if k.stage = 0 || !k.settled s || waitingPost 4 2 (fun x => x / 2 == d) s then s else
    let v := (k.stage - 1) / 5
    let at' (p : Nat) (t : State) : State := { t with experts := setHead' t.experts d { k with stage := 1 + 5 * v + p } }
    let slot (w : Nat) : State := (engWrite k.who (k.a.toNat + 64 + 8 * v) (leBytes 8 w) s).getD s
    match (k.stage - 1) % 5 with
    | 0 => match loadCopy k v s with
      | some t => at' 1 t
      | none => at' 2 s
    | 1 => at' 3 (slot (slotWord 2 k.x.toNat))
    | 2 => at' 4 (slot 0)
    | 3 => loadPost d k true v s
    | _ => loadPost d k false v s

/-- EXPERT_LOAD_COMPLETE (R352): the slot is resident, or empty again when the copy found no translation. -/
def execExpertLoadComplete (die : BitVec 3) (s : State) : Host.Outcome State Fault Refusal :=
  let d := die.toNat
  .next (loadStep d (loadStep d (loadStep d s)))

/-! ## Embedding tables (R354-R357) -/

/-- A table record's layout (R354). -/
def tableRecOk (d : BitVec 512) : Bool :=
  fld d 32 32 != 0 && fld d 96 32 % 64 == 0 && fld d 96 32 ≤ 65536 && fld d 64 32 == 0 && fld d 185 7 == 0 &&
  fld d 128 6 == 0 && fld d 313 7 == 0 && fld d 256 6 == 0 && fld d 384 128 == 0

/-- `tbl.swap` (R355). -/
def execTblSwap (a b : Reg) (sc : BitVec 3) (s : State) : Host.Outcome State Fault Refusal :=
  runSeq 4 (do
    noDet
    let c ← getC
    let x := c.rg a
    let nb := c.rg b
    opAddr x 64
    let sc := maxScope sc 3
    waitFar sc
    let d ← readDesc sc x.toNat
    let v := fld d 0 32
    let k := (v + 1) % 2
    need (tableRecOk d && fld nb 57 7 == 0 && fld nb 0 6 == 0) cTable x
    need (fld d (224 + 128 * k) 32 == 0) cTable x
    let w := c.who true sc
    acc (gWrite w (x.toNat + 16 + 16 * k) (leBytes 8 nb.toNat ++ leBytes 8 ((v + 1) % 2 ^ 32)))
    acc (gWrite w x.toNat (leBytes 4 (v + 1)))
    return .next) s

/-- `emb.pf` (R357). -/
def execEmbPf (a b : Reg) (sc : BitVec 3) (s : State) : Host.Outcome State Fault Refusal :=
  runSeq 4 (do
    let c ← getC
    let x := c.rg a
    let y := c.rg b
    opAddr x 64
    opAddr y 64
    let d ← readDesc sc x.toNat
    let r ← readDesc sc y.toNat
    let n := fld r 64 32
    need (tableRecOk d && fld r 57 7 == 0 && fld r 97 31 == 0 && fld r 128 384 == 0 && n != 0 && decide (n ≤ 65536)) cEmbed y
    checkRange .r (fld r 0 57) (n * (if bit r 96 then 8 else 4))
    let sc := maxScope sc 3
    waitFar sc
    let k ← mkCommand (prefetchUnit (dieOf c.id)) 0 x y 0 d r sc
    modS fun s => { s with prefetch := vmod s.prefetch (dieOf c.id) (· ++ [k]) }
    engineCommand
    return .next) s

/-- What an engine that acquires a version finds. -/
inductive Acquired where
  /-- A version that R356 would take is not there yet (log 65). -/
  | later
  /-- No translation. -/
  | absent
  /-- The address of the slot's count word, and the base. -/
  | taken (word base : Nat)
deriving DecidableEq, Repr

/-- The current version of a table or vocabulary record acquired (R356, R372, R380). -/
def acquireVersion (w : Who) (voc : Nat) (s : State) : Acquired × State :=
  match engRead w voc 4 s with
  | none => (.absent, s)
  | some (cb, s) =>
    let v := leNat cb
    let at' := voc + 16 + 16 * (v % 2)
    match engRead w at' 16 s with
    | none => (.absent, s)
    | some (eb, s) =>
      if bytesAt eb 8 4 != v then (.later, s) else
      match engWrite w.exclusive (at' + 8) (leBytes 8 (bytesAt eb 8 8 + 2 ^ 32)) s with
      | none => (.absent, s)
      | some t => (.taken (at' + 8) (bytesAt eb 0 8 % 2 ^ 57), t)

/-- The version released (R355, R356). -/
def releaseVersion (w : Who) (a : Nat) (s : State) : State :=
  if a = 0 then s else
  match engRead w a 8 s with
  | none => s
  | some (b, s) => (engWrite w.exclusive a (leBytes 8 (leNat b + 2 ^ 64 - 2 ^ 32)) s).getD s

/-- The rows that a prefetch fills (R357): those of the indices below nrows that can be read. -/
def fillRows (k : Command) (base : Nat) (s : State) : State :=
  let n := if bit k.snap2 96 then 8 else 4
  (List.range (fld k.snap2 64 32)).foldl (fun s i =>
    match engRead k.who (fld k.snap2 0 57 + n * i) n s with
    | none => s
    | some (b, s) =>
      if fld k.snap 32 32 ≤ leNat b then s else
      ((engRead k.who (base + leNat b * fld k.snap 96 32) (fld k.snap 96 32) s).map (·.2)).getD s) s

/-- EMBEDDING_PREFETCH (R357): the version is acquired, and stage is its base + 1 and x its count word from then on; at the
next turn its rows are filled and it is released. -/
def execEmbeddingPrefetch (die : BitVec 3) (s : State) : Host.Outcome State Fault Refusal :=
  let d := die.toNat
  match headOf s.prefetch d with
  | none => .next s
  | some k =>
    let pop (t : State) : State := { t with prefetch := popHead t.prefetch d }
    .next (
      if k.stage = 0 then
        match acquireVersion k.who k.a.toNat s with
        | (.later, t) => t
        | (.absent, t) => pop t
        | (.taken a base, t) => { t with prefetch := setHead' t.prefetch d { k with x := dw a, stage := base + 1 } }
      else pop (releaseVersion k.who k.x.toNat (fillRows k (k.stage - 1) s)))

/-! ## The sampler (R358-R363) -/

/-- The fields of a sampling descriptor. -/
structure Sampling where
  l : Nat
  v : Nat
  rows : Nat
  lstride : Nat
  w : Nat
  topk : Nat
  pmass : Nat
deriving DecidableEq, Repr

def samplingOf (d : BitVec 512) : Sampling :=
  ⟨fld d 0 57, fld d 96 32, fld d 72 8, fld d 160 32, fld d 192 57, fld d 288 16, fld d 256 32⟩
/-- 0 < p ≤ 1 (R358). -/
def massOk (p : Nat) : Bool := 0 < p && p ≤ 0x3F800000
/-- Its layout (R358). -/
def samplingOk (d : BitVec 512) : Bool :=
  let k := samplingOf d
  fld d 57 7 == 0 && k.l % 4 == 0 && 1 ≤ k.v && decide (k.v ≤ 2 ^ 24) && fld d 80 16 == 0 && 1 ≤ k.rows && k.rows ≤ 64 &&
  fld d 64 8 == 0 && k.lstride % 4 == 0 && decide (4 * k.v ≤ k.lstride) && fld d 128 32 == 0 && fld d 249 7 == 0 &&
  k.w % 64 == 0 && fld d 304 16 == 0 && 1 ≤ k.topk && k.topk ≤ 256 && massOk k.pmass && fld d 320 192 == 0
/-- The block of a row (R358). -/
def Sampling.block (k : Sampling) (r : Nat) : Nat := k.w + 2112 * r

/-- A weight as the sampler takes it, and whether it was sanitised (R360). -/
def sanitise (b : Nat) : Nat × Bool :=
  if fp32.isNan b then (0, true)
  else if 2 ^ 31 ≤ b then (0, true)
  else if b = 0x7F800000 then (0x7F7FFFFF, true)
  else (b, false)

/-- The FW48 sum of FP32 weights in their order. -/
def fwSum (l : List Nat) : Nat := l.foldl (fun x b => (fwAdd x (fwOfFp32 b)).1) 0

/-- x ≥ y for FW48 numbers. -/
def fwGe (x y : Nat) : Bool := !((fwVal x).cmp (fwVal y) == some (-1))

/-- p·W. -/
def massTarget (p w : Nat) : Nat := (fwMul w (fwOfFp32 p)).1

/-- The weights of a row. -/
def rowWeights (k : Sampling) (w : Who) (r : Nat) (s : State) : Option (List (Nat × Bool) × State) :=
  (engRead w (k.l + r * k.lstride) (4 * k.v) s).map fun x =>
    ((List.range k.v).map (fun i => sanitise (bytesAt x.1 (4 * i) 4)), x.2)

/-- The ranges of `n` rows judged at issue (R350, R358): their weights where they are read, and their blocks, which are read and
written. -/
def checkSampling (d : BitVec 512) (weights : Bool) (row0 n : Nat) : M Unit := do
  let k := samplingOf d
  if weights then each (List.range n) fun r => checkRange .r (k.l + (row0 + r) * k.lstride) (4 * k.v)
  checkRange .r (k.block row0) (2112 * n)
  checkRange .w (k.block row0) (2112 * n)

/-- The sampler of the core's cluster takes a command. -/
def pushSampler (k : Command) : M Unit := modS fun s => { s with sampler := vmod s.sampler (clusterOf k.core) (· ++ [k]) }

/-- `smp.coarse` (R360). -/
def execSmpCoarse (a b : Reg) (sc : BitVec 3) (s : State) : Host.Outcome State Fault Refusal :=
  runSeq 4 (do
    let c ← getC
    let x := c.rg a
    opAddr x 64
    let d ← readDesc sc x.toNat
    need (samplingOk d && fld (c.rg b) 1 63 == 0) cSampler x
    checkSampling d true 0 (samplingOf d).rows
    let sc := maxScope sc 2
    waitFar sc
    pushSampler (← mkCommand (samplerUnit (clusterOf c.id)) 0 x (c.rg b) 0 d 0 sc)
    engineCommand
    return .next) s

/-- A command that its instruction waits for: pushed once, and its result taken. -/
def awaitCommand (d : Reg) (cause : Nat) (push : M Command) : M Flow := do
  let c ← getC
  match c.waitCmd, c.cmdDone with
  | 0, _ => do
    let k ← push
    pushSampler k
    engineCommand
    modC fun c => { c with waitCmd := k.num, cmdDone := none }
    return .stay
  | _, none => stopWith .wait
  | _, some (true, v) => trap cause v
  | _, some (false, v) => do
    modC fun c => { c with waitCmd := 0, cmdDone := none }
    wG d v
    return .next

/-- `smp.thr` (R361). -/
def execSmpThr (d a : Reg) (sc : BitVec 3) (s : State) : Host.Outcome State Fault Refusal :=
  runSeq 4 (awaitCommand d cSampler (do
    let c ← getC
    let x := c.rg a
    opAddr x 64
    let k ← readDesc sc x.toNat
    need (samplingOk k) cSampler x
    checkSampling k false 0 (samplingOf k).rows
    let sc := maxScope sc 2
    waitFar sc
    mkCommand (samplerUnit (clusterOf c.id)) 1 x 0 (zext c.iterlim) k 0 sc)) s

/-- `smp.draw` (R362). -/
def execSmpDraw (d a b : Reg) (sc : BitVec 3) (s : State) : Host.Outcome State Fault Refusal :=
  runSeq 4 (awaitCommand d cSampler (do
    let c ← getC
    let x := c.rg a
    let v := c.rg b
    opAddr x 64
    let k ← readDesc sc x.toNat
    need (samplingOk k) cSampler x
    need (fld v 17 47 = 0 && fld v 0 8 < (samplingOf k).rows) cSampler v
    checkSampling k (bit v 16) (fld v 0 8) 1
    let sc := maxScope sc 2
    waitFar sc
    mkCommand (samplerUnit (clusterOf c.id)) 2 x v 0 k 0 sc)) s

/-- A row header (R359): its eight doublewords and its shortlist. -/
structure RowBlock where
  h : BitVec 512
  list : List (Nat × Nat)
deriving DecidableEq, Repr

def RowBlock.w (b : RowBlock) : Nat := fld b.h 0 48
def RowBlock.seed (b : RowBlock) : Dword := b.h.extractLsb' 128 64
def RowBlock.pos (b : RowBlock) : Nat := fld b.h 192 32
def RowBlock.slow (b : RowBlock) : Bool := bit b.h (256 + 48)
def RowBlock.valid (b : RowBlock) : Bool := bit b.h (256 + 49)
def RowBlock.tau (b : RowBlock) : Nat := fld b.h 256 32
def RowBlock.n (b : RowBlock) : Nat := min 256 (fld b.h 352 32)

/-- A row block read by an engine. -/
def readBlock (k : Sampling) (w : Who) (r : Nat) (s : State) : Option (RowBlock × State) :=
  (engRead w (k.block r) 2112 s).map fun x =>
    (⟨leVec 512 (x.1.take 64), (List.range 256).map fun q => (bytesAt x.1 (64 + 8 * q) 4, bytesAt x.1 (68 + 8 * q) 4)⟩, x.2)

/-- The ranks of a row: indices by weight descending, ties to the lower index (R360). -/
def rankRow (ws : List Nat) : List (Nat × Nat) := sortBy (fun a b => b.2 < a.2 || (a.2 == b.2 && a.1 ≤ b.1)) (ws.zipIdx.map fun p => (p.2, p.1))

/-- One row of a coarse pass (R360): the state after it, and whether the row is slow. -/
def coarseRow (k : Sampling) (w : Who) (r : Nat) (s : State) : Option (State × Bool) :=
  (readBlock k w r s).bind fun (old, t) =>
  (rowWeights k w r t).bind fun (ws, t) =>
    let v := ws.map (·.1)
    let total := fwSum v
    let list := (rankRow v).take (min 256 k.v)
    let mass := fwSum (list.map (·.2))
    let slow := old.slow || !fwGe mass (massTarget k.pmass total)
    let nbad := (ws.filter (·.2)).length
    let h := leBytes 8 total ++ leBytes 8 mass ++ leBytes 8 old.seed.toNat ++ leBytes 8 (fld old.h 192 64) ++
      leBytes 8 (2 ^ 49 + slow.toNat * 2 ^ 48) ++ leBytes 8 (list.length * 2 ^ 32 + nbad) ++ leBytes 16 0
    let es := list.flatMap fun p => leBytes 4 p.1 ++ leBytes 4 p.2
    (engWrite w (k.block r) (h ++ es ++ List.replicate (2048 - 8 * list.length) 0) t).map fun u => (u, slow)

/-- A coarse pass at stage 2·r (R360): row r is written, and `snap2` says whether it is slow. -/
def coarseWork (c : Nat) (k : Command) (s : State) : State :=
  if k.stage % 2 = 1 then s else
  let (t, slow) := (coarseRow (samplingOf k.snap) k.who (k.stage / 2) s).getD (s, false)
  { t with sampler := setHead' t.sampler c { k with stage := k.stage + 1, snap2 := (BitVec.ofBool slow).setWidth 512 } }

/-- A coarse pass at stage 2·r + 1, once row r's stores are performed (R242): its event, and the next row. -/
def coarseTell (c : Nat) (s : State) : State :=
  match headOf s.sampler c with
  | none => s
  | some k =>
    if k.stage % 2 = 0 || !k.settled s then s else
    let r := k.stage / 2
    let s := { s with sampler := if r + 1 < (samplingOf k.snap).rows then setHead' s.sampler c { k with stage := k.stage + 1 }
                                 else popHead s.sampler c }
    if bit k.b 0 then enginePost c (type4 k.part (if bit k.snap2 0 then 2 else 1) 0 k.a (dw r)) none s else s

/-- SAMPLER_COARSE_PASS (R360): one row of the command at the head. -/
def execSamplerCoarsePass (cl : BitVec 4) (s : State) : Host.Outcome State Fault Refusal :=
  let c := cl.toNat
  match headOf s.sampler c with
  | none => .next s
  | some k => if k.op != 0 || waitingPost 4 0 (· == c) s then .next s else .next (coarseTell c (coarseWork c k s))

/-- The shortlist weights that a threshold keeps (R361). -/
def keepSum (b : RowBlock) (k tau : Nat) : Nat := fwSum (((b.list.take k).map (·.2)).filter fun x => tau ≤ x)

/-- The search (R361): lo, hi and the iterations made, at most `n`. -/
def search (b : RowBlock) (k t : Nat) : Nat → Nat → Nat → Nat → Nat × Nat × Nat
  | 0, lo, hi, it => (lo, hi, it)
  | n + 1, lo, hi, it =>
    if hi - lo ≤ 1 then (lo, hi, it)
    else
      let mid := (lo + hi) / 2
      if fwGe (keepSum b k mid) t then search b k t n mid hi (it + 1) else search b k t n lo mid (it + 1)

/-- One row of a threshold search: the state after it, and whether it ended at the limit. -/
def searchRow (k : Sampling) (lim : Nat) (w : Who) (s : State) (r : Nat) : State × Bool :=
  match readBlock k w r s with
  | none => (s, false)
  | some (b, s) =>
    if b.slow then (s, false) else
    let n := min k.topk b.n
    let t := massTarget k.pmass b.w
    let hi := (b.list.getD 0 (0, 0)).2 + 1
    let (lo, hi, it) := if fwGe (keepSum b n 0) t then search b n t lim 0 hi 0 else (0, hi, 0)
    let l := decide (1 < hi - lo)
    let h4 := b.valid.toNat * 2 ^ 49 + l.toNat * 2 ^ 40 + it * 2 ^ 32 + lo
    ((engWrite w (k.block r + 32) (leBytes 8 h4) s).getD s, l)

/-- A finished command tells the core that waits for it. -/
def tellCore (k : Command) (trapped : Bool) (v : Dword) (s : State) : State :=
  let c := s.findCore k.core
  if c.waitCmd = k.num then s.putCore { c with cmdDone := some (trapped, v) } else s

/-- A search or a draw has its result, in `snap2`: a value, or (bit 64) the `tval` of a trap. -/
def setResult (c : Nat) (k : Command) (trapped : Bool) (v : Dword) (s : State) : State :=
  { s with sampler := setHead' s.sampler c { k with stage := 1, snap2 := (BitVec.ofBool trapped ++ v).setWidth 512 } }

/-- The result of a search or a draw, once the stores that made it are performed (R242). -/
def resultTell (c : Nat) (s : State) : State :=
  match headOf s.sampler c with
  | none => s
  | some k =>
    if k.op = 0 || k.stage = 0 || !k.settled s then s
    else tellCore k (bit k.snap2 64) (k.snap2.setWidth 64) { s with sampler := popHead s.sampler c }

/-- The first of `n` rows from `r` on whose block is not valid, the blocks read in turn (R361). -/
def firstInvalid (k : Sampling) (w : Who) : Nat → Nat → State → Option Nat × State
  | 0, _, s => (none, s)
  | n + 1, r, s =>
    match readBlock k w r s with
    | none => (some r, s)
    | some (b, t) => if b.valid then firstInvalid k w n (r + 1) t else (some r, t)

/-- A threshold search (R361). -/
def searchWork (c : Nat) (k : Command) (s : State) : State :=
  if k.stage != 0 then s else
  let d := samplingOf k.snap
  match firstInvalid d k.who d.rows 0 s with
  | (some r, s) => setResult c k true (dw r) s
  | (none, s) =>
    let (t, n) := (List.range d.rows).foldl (fun (x : State × Nat) r =>
      let (t, l) := searchRow d k.x.toNat k.who x.1 r
      (t, x.2 + l.toNat)) (s, 0)
    setResult c k false (dw n) t

/-- SAMPLER_THRESHOLD_SEARCH (R361). -/
def execSamplerThresholdSearch (cl : BitVec 4) (s : State) : Host.Outcome State Fault Refusal :=
  let c := cl.toNat
  match headOf s.sampler c with
  | none => .next s
  | some k =>
    if k.op != 1 || waitingPost 4 0 (· == c) s then .next s else .next (resultTell c (searchWork c k s))

/-- The draw value (R362). -/
def drawValue (seed : Dword) (pos j : Nat) : Nat :=
  let z := seed + 0x9E3779B97F4A7C15 * dw (256 * pos + j + 1)
  let z := (z ^^^ (z >>> 30)) * 0xBF58476D1CE4E5B9
  let z := (z ^^^ (z >>> 27)) * 0x94D049BB133111EB
  let z := z ^^^ (z >>> 31)
  fld z 32 32

/-- The first member whose running sum exceeds X, the last if none does (R362). -/
def pick (x : Nat) : Nat → List (Nat × Nat) → Option Nat
  | _, [] => none
  | run, (tok, w) :: r =>
    let run := (fwAdd run (fwOfFp32 w)).1
    if r.isEmpty || !fwGe x run then some tok else pick x run r

/-- The token that a row draws, with the state after its header is written (R362). -/
def drawRow (k : Sampling) (w : Who) (r j : Nat) (full : Bool) (b : RowBlock) (s : State) : Option (Nat × State) :=
  let set' :=
    if full then (rowWeights k w r s).map fun x => ((x.1.zipIdx.filter fun p => b.tau ≤ p.1.1).map (fun p => (p.2, p.1.1)), x.2)
    else some ((b.list.take (min k.topk b.n)).filter (fun p => b.tau ≤ p.2), s)
  set'.bind fun (l, s) =>
    let total := fwSum (l.map (·.2))
    let u : Val := .fin false (drawValue b.seed b.pos j) (-32)
    let x := (fwRound ((fwVal total).mul u)).1
    let tok := if (fwVal total).isZero then (b.list.getD 0 (0, 0)).1 else (pick x 0 l).getD 0
    some (tok, (engWrite w (k.block r + 48) (leBytes 8 (2 ^ 63 + tok)) s).getD s)

/-- A draw (R362). -/
def drawWork (c : Nat) (k : Command) (s : State) : State :=
  if k.stage != 0 then s else
  let d := samplingOf k.snap
  let r := fld k.b 0 8
  let full := bit k.b 16
  match readBlock d k.who r s with
  | none => setResult c k true k.b s
  | some (b, s) =>
    if !b.valid then setResult c k true k.b s
    else if !full && b.slow then setResult c k false (BitVec.allOnes 64) s
    else match drawRow d k.who r (fld k.b 8 8) full b s with
      | some (tok, t) => setResult c k false (dw tok) t
      | none => setResult c k true k.b s

/-- SAMPLER_DRAW_EXECUTION (R362). -/
def execSamplerDrawExecution (cl : BitVec 4) (s : State) : Host.Outcome State Fault Refusal :=
  let c := cl.toNat
  match headOf s.sampler c with
  | none => .next s
  | some k =>
    if k.op != 2 || waitingPost 4 0 (· == c) s then .next s else .next (resultTell c (drawWork c k s))

/-! ## The acceptance engine (R364-R367) -/

/-- The fields of a check descriptor. -/
structure Check' where
  sdesc : Nat
  d : Nat
  o : Nat
  full : Bool
  row0 : Nat
  j : Nat
  nd : Nat
deriving DecidableEq, Repr

def checkOf (d : BitVec 512) : Check' :=
  ⟨fld d 0 57, fld d 64 57, fld d 128 57, bit d 216, fld d 208 8, fld d 200 8, fld d 192 5⟩
/-- Its layout (R364). -/
def checkOk (d : BitVec 512) : Bool :=
  let k := checkOf d
  fld d 57 7 == 0 && fld d 121 7 == 0 && fld d 185 7 == 0 && fld d 217 39 == 0 && fld d 197 3 == 0 && fld d 320 192 == 0 &&
  k.sdesc % 64 == 0 && k.d % 4 == 0 && k.o % 4 == 0 && 1 ≤ k.nd && k.nd ≤ 16

/-- `spec.chk` (R365). -/
def execSpecChk (d a b : Reg) (sc : BitVec 3) (s : State) : Host.Outcome State Fault Refusal :=
  runSeq 4 (do
    let c ← getC
    let x := c.rg a
    opAddr x 64
    let k ← readDesc sc x.toNat
    need (checkOk k && fld (c.rg b) 1 63 == 0) cSpec x
    let t := checkOf k
    let sd ← readDesc sc t.sdesc
    need (samplingOk sd && decide (t.row0 + t.nd < (samplingOf sd).rows)) cSpec x
    checkSampling sd t.full t.row0 (t.nd + 1)
    checkRange .r t.d (4 * t.nd)
    checkRange .w t.o (4 * (t.nd + 1))
    let sc := maxScope sc 2
    if c.cmdDone.isNone then
      waitFar sc
      acc (gWrite (c.who true sc) (x.toNat + 32) (leBytes 8 0))
    if !(← farDone sc) then return .stay
    let n := vget (← get).checkNum (dieOf c.id) 0 + 1
    let cmd ← mkCommand (acceptUnit (dieOf c.id)) 0 x (c.rg b) (zext n) k sd sc
    modS fun s => { s with checkNum := vmod s.checkNum (dieOf c.id) fun _ => n,
                           accept := vmod s.accept (dieOf c.id) (· ++ [cmd]) }
    engineCommand
    wG d (zext n)
    return .next) s

/-- `frag.sel` (R366). -/
def execFragSel (d a : Reg) (sc : BitVec 3) (s : State) : Host.Outcome State Fault Refusal :=
  runSeq 4 (do
    let c ← getC
    let x := c.rg a
    opAddr x 64
    let k ← readDesc sc x.toNat
    if !bit k 319 then stopWith .wait
    wG d (dw (fld k 288 8))
    return .next) s

/-- The rows of a check from draft `m` on (R365): slow, the drafts accepted, the last token, the state. -/
def checkRows (k : Command) (t : Check') (sd : Sampling) (drafts : List Nat) : Nat → Nat → State → Bool × Nat × Nat × State
  | 0, m, s => (true, m, 0, s)
  | n + 1, m, s =>
    let r := t.row0 + m
    match readBlock sd k.who r s with
    | none => (true, m, 0, s)
    | some (b, s) =>
      if !b.valid || (!t.full && b.slow) then (true, m, 0, s) else
      match drawRow sd k.who r t.j t.full b s with
      | none => (true, m, 0, s)
      | some (tok, s) => if m = t.nd || drafts.getD m 0 != tok then (false, m, tok, s) else checkRows k t sd drafts n (m + 1) s

/-- The rows and the output of a check (R365): whether it is slow, the drafts accepted, the state. -/
def checkWork (k : Command) (s : State) : Bool × Nat × State :=
  let t := checkOf k.snap
  let (drafts, s) := match engRead k.who t.d (4 * t.nd) s with
    | some (bs, u) => ((List.range t.nd).map fun i => bytesAt bs (4 * i) 4, u)
    | none => ([], s)
  let (slow, a, tok, s) := checkRows k t (samplingOf k.snap2) drafts (t.nd + 1) 0 s
  (slow, a, if slow then s else (engWrite k.who t.o (((drafts.take a) ++ [tok]).flatMap (leBytes 4)) s).getD s)

/-- One step of a check (R242, R365), once all before it is performed: the rows (stage 0), d4 (stage 1), the event (stage 2);
from stage 1 on `snap2` holds slow in bit 0 and acc above it. -/
def checkStep (d : Nat) (s : State) : State :=
  match headOf s.accept d with
  | none => s
  | some k =>
    if !k.settled s || waitingPost 4 1 (fun x => x / 2 == d) s then s else
    let slow := bit k.snap2 0
    let a := fld k.snap2 1 16
    let frag := if slow then (checkOf k.snap).nd + 1 else a
    match k.stage with
    | 0 =>
      let (slow, a, t) := checkWork k s
      { t with accept := setHead' t.accept d { k with stage := 1, snap2 := BitVec.ofNat 512 (slow.toNat + 2 * a) } }
    | 1 =>
      let t := (engWrite k.who (k.a.toNat + 32) (leBytes 8 (2 ^ 63 + slow.toNat * 2 ^ 62 + frag * 2 ^ 32 + a)) s).getD s
      { t with accept := setHead' t.accept d { k with stage := 2 } }
    | _ =>
      let ev := type4 k.part (if slow then 2 else 1) 1 k.a (dw (k.x.toNat % 2 ^ 32 * 2 ^ 32 + frag))
      let s := { s with accept := popHead s.accept d }
      if bit k.b 0 then enginePost (clusterOf k.core) ev none s else s

/-- SPEC_CHECK_EXECUTION (R365): the check at the head, as far as its accesses are performed. -/
def execSpecCheckExecution (die : BitVec 3) (s : State) : Host.Outcome State Fault Refusal :=
  let d := die.toNat
  .next (checkStep d (checkStep d (checkStep d s)))

end Sys2Proof.Machine
end

