-- ==== Sys2Proof/Machine/Text.lean ====
section
/-! DEFINITION. Frames, the request unit, the tokeniser and the detokeniser (R140, R369-R386, R397, R398). -/
namespace Sys2Proof.Machine

/-! ## Frames (R369) -/

def frKind (b : List Byte) : Nat := bytesAt b 0 2
def frFlags (b : List Byte) : Nat := bytesAt b 2 2
def frTlen (b : List Byte) : Nat := bytesAt b 4 4
def frRoute (b : List Byte) : Nat := bytesAt b 16 8

/-- A request message keeps R369 and R378. -/
def requestOk (b : List Byte) : Bool :=
  decide (32 ≤ b.length) && frKind b == 1 && frFlags b == 0 && decide (frTlen b ≤ 4064) && bytesAt b 24 8 == 0 &&
  b.length == 32 + frTlen b

/-- A reply header keeps R369, for a frame of `n` bytes (R371). -/
def replyOk (b : List Byte) (n : Dword) : Bool :=
  frKind b == 2 && frFlags b / 2 == 0 && bytesAt b 24 8 == 0 && decide (frTlen b ≤ 4064) && n.toNat == 32 + frTlen b

/-! ## Request rings (R140, R377, R378) -/

def State.rq (s : State) (n : Nat) : ReqRing := vget s.reqRings n ReqRing.reset
def State.modRq (s : State) (n : Nat) (f : ReqRing → ReqRing) : State := { s with reqRings := vmod s.reqRings n f }
/-- The frames in a ring, its slots, the address of a slot. -/
def ReqRing.count (r : ReqRing) : Nat := (r.tail - r.head).toNat
def ReqRing.cap (r : ReqRing) : Nat := 2 ^ fld r.lcap 0 4
def ReqRing.slot (r : ReqRing) (n : BitVec 32) : Nat := r.base.toNat + 4096 * (n.toNat % r.cap)
/-- A ring is granted to a partition (R394). -/
def State.rqGranted (s : State) (p : BitVec 5) (n : Nat) : Bool := s.pg p 0xB0 16 >>> n % 2 == 1

/-- The wake record pushed, as `cq.push.sy` would push it; none when the push fails, with the state that the failure
leaves (R140, R141). -/
def wakePush (r : ReqRing) (s : State) : Bool × State :=
  match fwRead s r.part r.wrec.toNat 32 with
  | none => (false, s)
  | some bs =>
    let d : BitVec 256 := leVec 256 bs
    let q := r.wq.toNat
    if s.cqOwner q != some r.part || (recordError s (s.cq q) r.part d).isSome then (false, s) else
    match pushRecord (Who.unit r.part) q d s with
    | .done t _ => (true, t)
    | .untranslated t => (false, t)
    | _ => (false, s)

/-- One attempt to wake a ring's consumer (R140). -/
def wakeRing (n : Nat) (s : State) : State :=
  let r := s.rq n
  if !r.armed || r.count = 0 || r.wrec = 0 then s else
  match wakePush r s with
  | (true, t) => t.modRq n fun r => { r with armed := false }
  | (false, t) => raiseInt r.part 3 (t.modRq n fun r => { r with wfail := r.wfail + 1 })

/-- A port's counters changed (R398). -/
def State.modEth (s : State) (p : Nat) (f : EthPort → EthPort) : State := { s with eth := vmod s.eth p f }

/-- The ring that a connection is bound to (R397). -/
def State.connOf (s : State) (port : Nat) (conn : Nat) : Option Nat :=
  (s.conns.find? fun c => c.port.toNat == port && c.conn.toNat == conn).map (·.ring.toNat)

/-- The messages whose slots are written and performed are counted, ring by ring in their order, and each wakes its ring's
consumer (R140, R242, R378). -/
def settleArrivals (s : State) : State :=
  s.arrivals.foldl (fun t a =>
    if t.arrivals.find? (·.ring == a.ring) == some a && !t.engineFar a.unit 3 then
      wakeRing a.ring ({ t with arrivals := t.arrivals.erase a }.modRq a.ring fun r => { r with tail := r.tail + 1 })
    else t) s

/-- A message placed in a ring's next slot; none when the slot is not translated (R378). -/
def placeFrame (n : Nat) (bs : List Byte) (s : State) : Option State :=
  let r := s.rq n
  let next := r.tail + BitVec.ofNat 32 (s.arrivals.filter (·.ring == n)).length
  let unit := arrivalUnit + s.nextNum
  (unitWrite { Who.unit r.part with agent := unit } { s with nextNum := s.nextNum + 1 } (r.slot next) bs).map fun t =>
    settleArrivals { t with arrivals := t.arrivals ++ [⟨n, unit⟩] }

/-- A ring takes a message of a port (R378): those on their way to its slots count. -/
def ringTakes (n p : Nat) (s : State) : Bool :=
  let r := s.rq n
  r.en && decide (r.count + (s.arrivals.filter (·.ring == n)).length < r.cap) && bit r.ports p

/-- FRAME_RECEIVE (R378): a message that its connection brings is discarded, refused or placed. -/
def execFrameReceive (port : BitVec 3) (conn : BitVec 32) (msg : List (BitVec 8)) (s : State) :
    Host.Outcome State Fault Refusal :=
  let p := port.toNat
  match s.connOf p conn.toNat with
  | none => .next s
  | some n =>
    if !(vget s.eth p EthPort.reset).up then .next s else
    let s := s.modEth p fun e => { e with received := e.received + 1 }
    let r := s.rq n
    if !requestOk msg then
      .next ((s.modRq n fun r => { r with bad := r.bad + 1 }).modEth p fun e => { e with malformed := e.malformed + 1 })
    else
      let bs := putBytes msg 16 (leBytes 8 (conn.toNat + 2 ^ 32 * p))
      match if ringTakes n p s then placeFrame n bs s else none with
      | some t => .next t
      | none =>
        .next (raiseInt r.part 2 ((s.modRq n fun r => { r with full := r.full + 1 }).modEth p fun e =>
          { e with refused := e.refused + 1 }))

/-- WAKE_RETRY (R140): a failed wake push is tried again. -/
def execWakeRetry (ring : BitVec 7) (s : State) : Host.Outcome State Fault Refusal :=
  .next (if (s.rq ring.toNat).wfail = 0 then s else wakeRing ring.toNat s)

/-- CONNECTION_ACCEPT (R397): bound to the ring with the fewest connections among those that serve its job. -/
def execConnectionAccept (port : BitVec 3) (conn : BitVec 32) (job : BitVec 24) (s : State) :
    Host.Outcome State Fault Refusal :=
  if !(vget s.eth port.toNat EthPort.reset).up || (s.connOf port.toNat conn.toNat).isSome then .next s else
  let bound (n : Nat) : Nat := (s.conns.filter fun c => c.ring.toNat == n).length
  let fit := (List.range 128).filter fun n =>
    let r := s.rq n
    r.en && bit r.svc 63 && fld r.svc 0 24 == job.toNat && bit r.ports port.toNat
  match fit.foldl (fun (m : Option Nat) n => match m with
      | none => some n
      | some b => if bound n < bound b then some n else some b) none with
  | none => .next s
  | some n => .next { s with conns := s.conns ++ [⟨port, conn, job, BitVec.ofNat 7 n⟩] }

/-- CONNECTION_CLOSE (R397). -/
def execConnectionClose (port : BitVec 3) (conn : BitVec 32) (s : State) : Host.Outcome State Fault Refusal :=
  .next { s with conns := s.conns.filter fun c => !(c.port == port && c.conn == conn) }

/-- ETHERNET_LINK_DOWN (R398): counted, with the interrupt of R390. -/
def execEthernetLinkDown (port : BitVec 3) (s : State) : Host.Outcome State Fault Refusal :=
  .next (if (vget s.eth port.toNat EthPort.reset).up then
    raiseDint 2 (s.modEth port.toNat fun e => { e with up := false, downs := e.downs + 1 }) else s)

/-- ETHERNET_LINK_UP (R398). -/
def execEthernetLinkUp (port : BitVec 3) (s : State) : Host.Outcome State Fault Refusal :=
  .next (s.modEth port.toNat fun e => { e with up := true })

/-! ## Receiving and sending (R370, R371) -/

/-- A receive descriptor's layout (R370). -/
def recvOk (d : BitVec 512) : Bool :=
  fld d 7 57 == 0 && fld d 121 7 == 0 && fld d 64 6 == 0 && fld d 160 32 == 0 && fld d 192 320 == 0 &&
  decide (64 ≤ fld d 128 32) && decide (fld d 128 32 ≤ 4096)

/-- `net.rx` (R370). -/
def execNetRx (d a : Reg) (sc : BitVec 3) (s : State) : Host.Outcome State Fault Refusal :=
  runSeq 4 (do
    noDet
    let c ← getC
    let x := c.rg a
    opAddr x 64
    let k ← readDesc sc x.toNat
    let n := fld k 0 7
    need (recvOk k && (← get).rqGranted c.partid n) cNet x
    let r := (← get).rq n
    if r.count = 0 then
      modS fun s => s.modRq n fun r => { r with armed := true }
      wG d (BitVec.allOnes 64)
      return .next
    let w := { c.who true (maxScope sc 3) with part := r.part }
    let len := 32 + frTlen (← acc (gRead w (r.slot r.head) 8))
    need (len ≤ fld k 128 32) cNet (dw len)
    let f ← acc (gRead w (r.slot r.head) len)
    acc (gWrite (c.who true (maxScope sc 3)) (fld k 64 57) f)
    modS fun s => s.modRq n fun r => { r with head := r.head + 1 }
    wG d (dw len)
    return .next) s

/-- `net.tx` (R371, R325): the hand-over, and after it the wait alone. -/
def execNetTx (a b : Reg) (sc : BitVec 3) (s : State) : Host.Outcome State Fault Refusal :=
  runSeq 4 (do
    noDet
    let c ← getC
    match c.commit with
    | .netTx h =>
      if (← get).handed.any (·.num == h) then stopWith .wait
      modC fun c => { c with commit := .none }
      return .next
    | _ => do
      let x := c.rg a
      let n := c.rg b
      opAddr x 64
      let bs ← acc (gRead (c.who true sc) x.toNat 32)
      need (replyOk bs n) cNet x
      waitFar (maxScope sc 3)
      let h := (← get).nextNum
      modS fun s => { s with nextNum := h + 1, handed := s.handed ++ [⟨h, c.partid, c.id, x, n, maxScope sc 3⟩] }
      engineCommand
      modC fun c => { c with commit := .netTx h }
      return .stay) s

/-- The request unit as an agent that reads a reply. -/
def Reply.who (r : Reply) : Who :=
  { part := r.part, core := r.core, agent := requestUnit, det := false, ctx := 0, task := 0, member := 0, arr := 0,
    wts := 0, scope := r.scope }

/-- A reply that no byte of can be read ends the context of the task that waits for it (R43). -/
def replyLost (r : Reply) (s : State) : State :=
  let c := s.findCore r.core
  if c.commit = .netTx r.num then endContext cMissing c.pc r.frame r.core s else s

/-- REPLY_TRANSMIT (R371, R379): a reply is read and sent on its route, or discarded. -/
def execReplyTransmit (ix : Nat) (s : State) : Host.Outcome State Fault Refusal :=
  match s.handed[ix]? with
  | none => .next s
  | some r =>
    let s := { s with handed := s.handed.eraseIdx ix }
    match engRead r.who r.frame.toNat r.len.toNat s with
    | none => .next (replyLost r s)
    | some (bs, s) =>
      let rt := frRoute bs
      let p := rt / 2 ^ 32
      if 7 < p then .next s
      else if (s.connOf p (rt % 2 ^ 32)).isNone || !(vget s.eth p EthPort.reset).up then
        .next (s.modEth p fun e => { e with discarded := e.discarded + 1 })
      else .next { (s.modEth p fun e => { e with sent := e.sent + 1 }) with wire := s.wire ++ [(BitVec.ofNat 3 p, bs)] }

/-! ## Vocabularies (R372, R381, R382) -/

/-- A vocabulary image: the class of each byte, the merges by rank. -/
structure Vocab where
  cls : List Nat
  merges : List (Nat × Nat)
deriving DecidableEq, Repr

/-- The image header (R372, R381): how many merges. -/
def vocabHeader (b : List Byte) : Option Nat :=
  if bytesAt b 0 4 ≤ 65280 && bytesAt b 4 60 == 0 then some (bytesAt b 0 4) else none
/-- The merges of an image, valid or not. -/
def mergesOf (n : Nat) (b : List Byte) : List (Nat × Nat) :=
  (List.range n).map fun r => (bytesAt b (8 * r) 4, bytesAt b (8 * r + 4) 4)
/-- Every merge names tokens below its own (R381). -/
def mergesOk (l : List (Nat × Nat)) : Bool :=
  l.zipIdx.all fun m => decide (m.1.1 < 256 + m.2) && decide (m.1.2 < 256 + m.2)

/-- An image as an engine reads it: code 2 when it breaks R381, code 3 when it is not translated. -/
def readVocab (w : Who) (a : Nat) (s : State) : Except Nat Vocab × State :=
  match engRead w a 64 s with
  | none => (.error 3, s)
  | some (h, s) =>
    match vocabHeader h with
    | none => (.error 2, s)
    | some n =>
      match (engRead w (a + 64) 256 s).bind fun c => (engRead w (a + 320) (8 * n) c.2).map fun m => (c.1, m) with
      | some (c, m, s) => (if mergesOk (mergesOf n m) then .ok ⟨c.map (·.toNat), mergesOf n m⟩ else .error 2, s)
      | none => (.error 3, s)

/-- The class of a byte. -/
def Vocab.classOf (v : Vocab) (b : Nat) : Nat := v.cls.getD b 0

/-- The pieces of a text (R374): whole ones, and the last one, which no byte that was read ends. -/
def pieces (v : Vocab) : List Nat → List Nat → List (List Nat) × List Nat
  | cur, [] => ([], cur)
  | cur, b :: bs =>
    let cur := cur ++ [b]
    let here := v.classOf b == 0 || (match bs with
      | [] => false
      | x :: _ => v.classOf b != v.classOf x)
    if here then
      let r := pieces v [] bs
      (cur :: r.1, r.2)
    else pieces v cur bs

/-- The pair to replace next: the least rank, the leftmost of it (R382). -/
def bestPair (v : Vocab) : Nat → List Nat → Option (Nat × Nat)
  | _, [] => none
  | _, [_] => none
  | i, x :: y :: r =>
    let here := (v.merges.findIdx? (· == (x, y))).map fun k => (k, i)
    match here, bestPair v (i + 1) (y :: r) with
    | some p, some q => if q.1 < p.1 then some q else some p
    | some p, none => some p
    | none, q => q

/-- A piece's tokens (R382), with at most `n` replacements. -/
def encodePiece (v : Vocab) : Nat → List Nat → List Nat
  | 0, l => l
  | n + 1, l =>
    match bestPair v 0 l with
    | none => l
    | some (k, i) => encodePiece v n (l.take i ++ [256 + k] ++ l.drop (i + 2))

/-- The tokens of a text; `cut` when a byte beyond it could not be read (R381). -/
def tokensOf (v : Vocab) (bs : List Byte) (cut : Bool) : List Nat :=
  let r := pieces v [] (bs.map (·.toNat))
  (r.1 ++ if cut then [] else [r.2]).flatMap fun p => encodePiece v p.length p

/-! ## Detokenising (R383) -/

/-- U+FFFD. -/
def fffd : List Nat := [0xEF, 0xBF, 0xBD]

/-- The bytes of a token, by depth. -/
def expandTok (v : Vocab) : Nat → Nat → List Nat
  | 0, _ => []
  | n + 1, t =>
    if t < 256 then [t] else
    match v.merges[t - 256]? with
    | some (l, r) => expandTok v n l ++ expandTok v n r
    | none => []

/-- An id beyond the vocabulary's last token. -/
def Vocab.unknown (v : Vocab) (t : Nat) : Bool := decide (256 + v.merges.length ≤ t)

/-- The bytes of a token; U+FFFD for an unknown one. -/
def tokenBytes (v : Vocab) (t : Nat) : List Nat := if v.unknown t then fffd else expandTok v (v.merges.length + 1) t

/-- The bytes that may follow a prefix of a sequence; none when the prefix can begin none (R383). -/
def followers : List Nat → Option (Nat × Nat)
  | [b] =>
    if 0xC2 ≤ b && b ≤ 0xDF then some (0x80, 0xBF)
    else if b = 0xE0 then some (0xA0, 0xBF)
    else if b = 0xED then some (0x80, 0x9F)
    else if 0xE1 ≤ b && b ≤ 0xEF then some (0x80, 0xBF)
    else if b = 0xF0 then some (0x90, 0xBF)
    else if 0xF1 ≤ b && b ≤ 0xF3 then some (0x80, 0xBF)
    else if b = 0xF4 then some (0x80, 0x8F)
    else none
  | _ => some (0x80, 0xBF)
/-- The length of the sequence that a lead byte begins. -/
def seqLength (b : Nat) : Nat := if b < 0x80 then 1 else if b ≤ 0xDF then 2 else if b ≤ 0xEF then 3 else 4

/-- What the decoder writes at once: a sequence, and whether it replaces an ill-formed subpart. -/
structure Piece where
  bytes : List Nat
  repl : Bool
deriving DecidableEq, Repr

/-- A byte that begins a sequence, or begins none. -/
def startSeq (b : Nat) : List Piece × List Nat :=
  if b < 0x80 then ([⟨[b], false⟩], [])
  else if (followers [b]).isSome then ([], [b])
  else ([⟨fffd, true⟩], [])

/-- The decoder takes a byte after an incomplete sequence (R383). -/
def feedByte (pend : List Nat) (b : Nat) : List Piece × List Nat :=
  match pend with
  | [] => startSeq b
  | lead :: _ =>
    match followers pend with
    | some (lo, hi) =>
      if lo ≤ b && b ≤ hi then
        (if pend.length + 1 = seqLength lead then ([⟨pend ++ [b], false⟩], []) else ([], pend ++ [b]))
      else
        let r := startSeq b
        (⟨fffd, true⟩ :: r.1, r.2)
    | none => ([], [])

/-- The decoder over bytes: what it writes, and what is left of a sequence. -/
def decodeUtf8 : List Nat → List Nat → List Piece × List Nat
  | pend, [] => ([], pend)
  | pend, b :: bs =>
    let r := feedByte pend b
    let q := decodeUtf8 r.2 bs
    (r.1 ++ q.1, q.2)

/-- The pieces that fit in `cap` bytes, and whether one did not. -/
def fitCap : Nat → List Piece → List Piece × Bool
  | _, [] => ([], false)
  | cap, p :: ps =>
    if cap < p.bytes.length then ([], true)
    else
      let r := fitCap (cap - p.bytes.length) ps
      (p :: r.1, r.2)

/-- The decoder over ids (R374): for each, whether it is unknown and what the decoder writes, and what is left of a
sequence. -/
def decodeIds (v : Vocab) : List Nat → List Nat → List (Bool × List Piece) × List Nat
  | pend, [] => ([], pend)
  | pend, t :: r =>
    let q := decodeUtf8 pend (tokenBytes v t)
    let z := decodeIds v q.2 r
    ((v.unknown t, q.1) :: z.1, z.2)

/-- The replacements among the pieces that begin before byte `k`. -/
def countRepl : Nat → List Piece → Nat
  | _, [] => 0
  | k, p :: ps => if k = 0 then 0 else p.repl.toNat + countRepl (k - p.bytes.length) ps

/-- The replacements of an engine that stops after `k` bytes (R374): the unknown ids that it has expanded, the last one even
when its bytes do not fit, and the subparts that it has replaced. -/
def countIds : Nat → List (Bool × List Piece) → Nat
  | _, [] => 0
  | k, x :: r =>
    let n := (x.2.map (·.bytes.length)).sum
    x.1.toNat + countRepl k x.2 + (if n ≤ k then countIds (k - n) r else 0)

/-! ## Submissions (R373, R374, R380, R384) -/

/-- The layout of a submission descriptor (R373). -/
def submitOk (dtk : Bool) (d : BitVec 512) : Bool :=
  fld d 57 7 == 0 && fld d 121 7 == 0 && fld d 161 31 == 0 && fld d 249 7 == 0 && fld d 288 32 == 0 && fld d 448 64 == 0 &&
  (if dtk then fld d 64 2 == 0 && decide (fld d 128 32 ≤ 16384)
   else !bit d 160 && decide (fld d 128 32 ≤ 65536) && fld d 192 2 == 0 && fld d 384 64 == 0)

/-- Where the status of a submission stands: d5 for a tokeniser, d6 for a detokeniser (R373). -/
def statusOff (dtk : Bool) : Nat := if dtk then 48 else 40
/-- A status (R373). -/
def statusOf (code nrep n : Nat) : Nat := 2 ^ 63 + code * 2 ^ 60 + min nrep 0xFFFF * 2 ^ 32 + n % 2 ^ 32

/-- A text engine. -/
def State.textEng (s : State) (dtk : Bool) (e : Nat) : TextEng := vget (if dtk then s.dtk else s.tok) e TextEng.reset
def State.modText (s : State) (dtk : Bool) (e : Nat) (f : TextEng → TextEng) : State :=
  if dtk then { s with dtk := vmod s.dtk e f } else { s with tok := vmod s.tok e f }

/-- A submission of a descriptor is not done, on any engine (R380). -/
def pendingSub (s : State) (p : BitVec 5) (x : Dword) : Bool :=
  (s.tok.toList ++ s.dtk.toList).any fun e => (e.subs ++ e.run.toList).any fun c => c.part == p && c.a == x

/-- `tok.sub` and `dtk.sub` (R374, R380): the status store and the push are one step. -/
def submitOp (dtk : Bool) (a b : Reg) (sc : BitVec 3) : M Flow := do
  let c ← getC
  let cause := if dtk then cDetokeniser else cTokeniser
  let x := c.rg a
  let e := c.rg b
  opAddr x 64
  need (decide (e.toNat ≤ 7) && (← get).pg c.partid (if dtk then 0x6D else 0x6C) 1 >>> e.toNat % 2 == 1) cause e
  let d ← readDesc sc x.toNat
  need (submitOk dtk d) cause x
  let sc := maxScope sc 3
  if pendingSub (← get) c.partid x then stopWith .wait
  waitFar sc
  acc (gWrite (c.who true sc) (x.toNat + statusOff dtk) (leBytes 8 0))
  let k ← mkCommand (textUnit dtk e.toNat) 0 x e 0 0 0 sc
  modS fun s => s.modText dtk e.toNat fun t => { t with subs := t.subs ++ [k] }
  engineCommand
  return .next

/-- `tok.res` and `dtk.res` (R374). -/
def resultOp (dtk : Bool) (d a : Reg) (sc : BitVec 3) : M Flow := do
  let c ← getC
  let x := c.rg a
  opAddr x 64
  let v := dw (leNat (← acc (gRead (c.who true sc) (x.toNat + statusOff dtk) 8)))
  if !bit v 63 then stopWith .wait
  wG d v
  return .next

/-- `tok.sub` (R374). -/
def execTokSub (a b : Reg) (sc : BitVec 3) (s : State) : Host.Outcome State Fault Refusal := runSeq 4 (submitOp false a b sc) s
/-- `dtk.sub` (R374). -/
def execDtkSub (a b : Reg) (sc : BitVec 3) (s : State) : Host.Outcome State Fault Refusal := runSeq 4 (submitOp true a b sc) s
/-- `tok.res` (R374). -/
def execTokRes (d a : Reg) (sc : BitVec 3) (s : State) : Host.Outcome State Fault Refusal := runSeq 4 (resultOp false d a sc) s
/-- `dtk.res` (R374). -/
def execDtkRes (d a : Reg) (sc : BitVec 3) (s : State) : Host.Outcome State Fault Refusal := runSeq 4 (resultOp true d a sc) s

/-- The event of a submission that did not end well (R384). -/
def textEvent (dtk : Bool) (e : Nat) (k : Command) (code st : Nat) (s : State) : State :=
  let d0 := code * 2 ^ 60 + 3 * 2 ^ 57 + k.a.toNat / 64 % 2 ^ 51 * 64 + dtk.toNat * 8 + e
  enginePost (clusterOf k.core) ⟨k.part, dw d0, dw st⟩ none s

/-- The store of a submission's status has still to be performed at the command's scope (R242). -/
def statusAway (dtk : Bool) (k : Command) (s : State) : Bool :=
  ((physPieces s k.part .w (k.a.toNat + statusOff dtk) 8).getD []).any fun x =>
    let hit (agent : Nat) (pa : BitVec 52) (n : Nat) : Bool := agent == 0 && overlaps pa.toNat n x.1 x.2
    s.hostStores.any (fun p => hit p.agent p.pa p.size) || s.remote.any (fun r => hit r.agent r.pa r.bytes.length) ||
    (decide (5 ≤ k.scope.toNat) && s.poolStores.any fun p => !p.lost && hit p.agent p.pa p.size)

/-- The start of an engine's next submission (R380, R381). `x` of the running command is the count word of its
version, `snap2` the image, and `stage` is 1 for a valid image, 2 and 3 for the codes of R381. -/
def textStart (dtk : Bool) (e : Nat) (s : State) : State :=
  let g := s.textEng dtk e
  match g.run, g.subs with
  | none, k :: r =>
    if waitingPost 3 (8 * dtk.toNat + e) (fun _ => true) s || statusAway dtk k s then s else
    let w := k.who
    let out := s.modText dtk e fun _ => ⟨r, none⟩
    match physPieces s k.part .w k.a.toNat 64, engRead w k.a.toNat 64 s with
    | some _, some (db, s) =>
      let d : BitVec 512 := leVec 512 db
      match acquireVersion w (fld d 0 57) s with
      | (.later, t) => t
      | (.absent, t) => t.modText dtk e fun _ => ⟨r, some { k with snap := d, x := 0, stage := 3 }⟩
      | (.taken a base, t) =>
        let (v, t) := readVocab w base t
        let st := match v with
          | .ok _ => 1
          | .error c => c
        t.modText dtk e fun _ => ⟨r, some { k with snap := d, x := dw a, snap2 := BitVec.ofNat 512 base, stage := st }⟩
    | _, _ => textEvent dtk e k 3 (statusOf 3 0 0) out
  | _, _ => s

/-- The bytes of a range up to the first that cannot be read, and whether there is one (R381). -/
def readUpTo (w : Who) (va n : Nat) (s : State) : List Byte × Bool × State :=
  (granules va n).foldl (fun (x : List Byte × Bool × State) a =>
    if x.2.1 then x else
    match engRead w a (min (va + n) ((a / 16384 + 1) * 16384) - a) x.2.2 with
    | some (b, t) => (x.1 ++ b, false, t)
    | none => (x.1, true, x.2.2)) ([], false, s)

/-- The bytes of a list written up to the first that cannot be written: how many were, and the state (R381). -/
def writeUpTo (w : Who) (va : Nat) (bs : List Byte) (s : State) : Nat × State :=
  let r := (granules va bs.length).foldl (fun (x : Nat × State × Bool) a =>
    if x.2.2 then x else
    let part := (bs.drop (a - va)).take (16384 - a % 16384)
    match engWrite w a part x.2.1 with
    | some t => (x.1 + part.length, t, false)
    | none => (x.1, x.2.1, true)) (0, s, false)
  (r.1, r.2.1)

/-- What a submission has done: code, replacements, count, and d5 of a detokeniser. -/
structure Ended where
  code : Nat
  nrep : Nat
  n : Nat
  hold : Nat
deriving DecidableEq, Repr

/-- A submission of a tokeniser (R374, R381, R382). -/
def tokenise (k : Command) (v : Vocab) (s : State) : Ended × State :=
  let d := k.snap
  let (src, cut, s) := readUpTo k.who (fld d 64 57) (fld d 128 32) s
  let ids := tokensOf v src cut
  let cap := fld d 256 32
  let out := ids.take cap
  let (n, t) := writeUpTo k.who (fld d 192 57) (out.flatMap (leBytes 4)) s
  if n < 4 * out.length then (⟨3, 0, n / 4, 0⟩, t)
  else if cap < ids.length then (⟨1, 0, cap, 0⟩, t)
  else (⟨if cut then 3 else 0, 0, out.length, 0⟩, t)

/-- The hold of a descriptor as bytes, and bytes as a hold (R373). -/
def holdBytes (h : Nat) : List Nat := ((leBytes 3 h).take (h / 2 ^ 24 % 4)).map (·.toNat)
def holdWord (l : List Nat) : Nat := l.length * 2 ^ 24 + leNat (l.map (BitVec.ofNat 8))

/-- A submission of a detokeniser (R374, R381, R383). -/
def detokenise (k : Command) (v : Vocab) (s : State) : Ended × State :=
  let d := k.snap
  let (src, cut, s) := readUpTo k.who (fld d 64 57) (4 * fld d 128 32) s
  let ids := (List.range (src.length / 4)).map fun i => bytesAt src (4 * i) 4
  let (first, pend) := decodeUtf8 [] (holdBytes (fld d 320 64))
  let (rest, pend) := decodeIds v pend ids
  let flush := bit d 160 && !cut && !pend.isEmpty
  let all := (false, first) :: rest ++ (if flush then [(false, [⟨fffd, true⟩])] else [])
  let (fit, full) := fitCap (fld d 256 32) (all.flatMap (·.2))
  let bs := (fit.flatMap (·.bytes)).map (BitVec.ofNat 8)
  let (n, t) := writeUpTo k.who (fld d 192 57) bs s
  let code := if n < bs.length then 3 else if full then 1 else if cut then 3 else 0
  (⟨code, countIds n all, n, if code = 0 && !flush then holdWord pend else 0⟩, t)

/-- What a submission comes to, its output written (R374, R381). -/
def textWork (dtk : Bool) (k : Command) (s : State) : Ended × State :=
  if k.stage != 1 then (⟨k.stage, 0, 0, 0⟩, s) else
  match readVocab k.who k.snap2.toNat s with
  | (.error c, s) => (⟨c, 0, 0, 0⟩, s)
  | (.ok v, s) => if dtk then detokenise k v s else tokenise k v s

/-- One step of the end of a submission (R242, R374, R380, R381, R384), once all before it is performed: its output; from
stage 4 on `snap` holds the status, the hold and the code, and it writes the status and releases the version; at stage 5
the event. -/
def textStep (dtk : Bool) (e : Nat) (s : State) : State :=
  match (s.textEng dtk e).run with
  | none => s
  | some k =>
    if !k.settled s then s else
    let set' (k : Command) (t : State) : State := t.modText dtk e fun g => { g with run := some k }
    if k.stage < 4 then
      let (r, t) := textWork dtk k s
      let st := statusOf r.code r.nrep r.n
      set' { k with stage := 4, snap := BitVec.ofNat 512 (st + r.hold * 2 ^ 64 + r.code * 2 ^ 128) } t
    else if k.stage = 4 then
      let s := (engWrite k.who (k.a.toNat + statusOff dtk) (leBytes 8 (fld k.snap 0 64)) s).getD s
      let s := if dtk then (engWrite k.who (k.a.toNat + 40) (leBytes 8 (fld k.snap 64 64)) s).getD s else s
      set' { k with stage := 5 } (releaseVersion k.who k.x.toNat s)
    else
      let s := s.modText dtk e fun g => { g with run := none }
      if fld k.snap 128 64 = 0 then s else textEvent dtk e k (fld k.snap 128 64) (fld k.snap 0 64) s

/-- The end of an engine's submission, as far as its accesses are performed. -/
def textComplete (dtk : Bool) (e : Nat) (s : State) : State := textStep dtk e (textStep dtk e (textStep dtk e s))

/-- TOKENISER_START (R380). -/
def execTokeniserStart (e : BitVec 3) (s : State) : Host.Outcome State Fault Refusal := .next (textStart false e.toNat s)
/-- TOKENISER_COMPLETE (R382). -/
def execTokeniserComplete (e : BitVec 3) (s : State) : Host.Outcome State Fault Refusal := .next (textComplete false e.toNat s)
/-- DETOKENISER_START (R380). -/
def execDetokeniserStart (e : BitVec 3) (s : State) : Host.Outcome State Fault Refusal := .next (textStart true e.toNat s)
/-- DETOKENISER_COMPLETE (R383). -/
def execDetokeniserComplete (e : BitVec 3) (s : State) : Host.Outcome State Fault Refusal := .next (textComplete true e.toNat s)

/-- `voc.swap` (R385). -/
def execVocSwap (a b : Reg) (sc : BitVec 3) (s : State) : Host.Outcome State Fault Refusal :=
  runSeq 4 (do
    noDet
    let c ← getC
    let x := c.rg a
    let nb := c.rg b
    opAddr x 64
    need (fld nb 57 7 = 0 && fld nb 0 6 = 0) cVocab nb
    let w := c.who true sc
    match vocabHeader (← acc (gRead w nb.toNat 64)) with
    | none => trap cVocab nb
    | some n => do
      let _ ← acc (gRead w (nb.toNat + 64) 256)
      need (mergesOk (mergesOf n (← acc (gRead w (nb.toNat + 320) (8 * n))))) cVocab nb
    let sc := maxScope sc 3
    waitFar sc
    let d ← readDesc sc x.toNat
    let v := fld d 0 32
    let k := (v + 1) % 2
    need (fld d 32 32 == 0 && fld d 64 64 == 0 && fld d 185 7 == 0 && fld d 128 6 == 0 && fld d 313 7 == 0 &&
      fld d 256 6 == 0 && fld d 384 128 == 0) cVocab x
    need (fld d (224 + 128 * k) 32 == 0) cVocab x
    let w := c.who true sc
    acc (gWrite w (x.toNat + 16 + 16 * k) (leBytes 8 nb.toNat ++ leBytes 8 ((v + 1) % 2 ^ 32)))
    acc (gWrite w x.toNat (leBytes 4 (v + 1)))
    return .next) s

end Sys2Proof.Machine
end

