-- ==== Sys2Proof/Machine/Host.lean ====
section
/-! DEFINITION. What the host writes: the registers, the partition control pages, the mailbox (R135-R137, R183, R377,
R387-R395). -/
namespace Sys2Proof.Machine

/-! ## Continuation queues (R135-R137) -/

/-- A register of a queue answers: PF 0 reaches every queue, a window its partition's (R135). -/
def reachesQueue (via : Option (BitVec 5)) (q : Nat) (s : State) : Bool :=
  match via with
  | none => true
  | some p => s.cqOwner q == some p

/-- CQTAIL_WRITE (R137): a tail that would overrun the capacity is ignored and sets err 7. -/
def execCqtailWrite (via : Option (BitVec 5)) (q : BitVec 8) (v : BitVec 32) (s : State) : Host.Outcome State Fault Refusal :=
  let c := s.cq q.toNat
  .next (
    if !reachesQueue via q.toNat s then s
    else if c.cap < (v - c.head).toNat then s.modCq q.toNat fun c => { c with err := 7 }
    else refreshBacklog (s.modCq q.toNat fun c => { c with tail := v }))

/-- The tickets of a partition's other enabled queues (R145). -/
def ticketsBeside (p : BitVec 5) (q : Nat) (s : State) : Nat :=
  (((List.range 256).filter fun x => x != q && (s.cq x).en && s.cqOwner x == some p).map fun x => (s.cq x).tickets.toNat).sum

/-- A write of `cqctl` that is refused whole (R136). -/
def cqctlRefused (q : Nat) (v : BitVec 64) (s : State) : Bool :=
  fld v 20 12 = 0 || 12 < fld v 16 4 ||
  (bit v 0 && match s.cqOwner q with
    | some p => decide (s.pg p 0x10 4 < ticketsBeside p q s + fld v 20 12)
    | none => false)

/-- `cqctl` after a write that is not refused (R135, R136). -/
def Cq.control (v : BitVec 64) (c : Cq) : Cq :=
  { c with err := if bit v 59 then 0 else c.err, stop := c.stop && !bit v 59, dies := v.extractLsb' 40 8,
           tickets := v.extractLsb' 20 12, size := if c.en then c.size else v.extractLsb' 16 4, det := bit v 1,
           en := bit v 0 }

/-- CQCTL_WRITE (R136). -/
def execCqctlWrite (via : Option (BitVec 5)) (q : BitVec 8) (v : BitVec 64) (s : State) : Host.Outcome State Fault Refusal :=
  .next (
    if !reachesQueue via q.toNat s || cqctlRefused q.toNat v s then s
    else refreshBacklog (s.modCq q.toNat (Cq.control v)))

/-! ## Rings (R183, R377) -/

/-- `rngctl` after a write that is not refused (R183). -/
def HwRing.control (v : BitVec 64) (r : HwRing) : HwRing :=
  if r.en then { r with en := bit v 16 }
  else
    let r := { r with part := v.extractLsb' 32 5, lcount := v.extractLsb' 0 4, en := bit v 16 }
    if r.en then { r with claim := 0, tail := 0, take := 0, head := 0, f := 0, x := 0 } else r

/-- RNGCTL_WRITE (R183): a reserved lcount refuses the write whole; clearing en releases the ring's waits. -/
def execRngctlWrite (cl : BitVec 4) (ring : BitVec 6) (v : BitVec 64) (s : State) : Host.Outcome State Fault Refusal :=
  let k := 64 * cl.toNat + ring.toNat
  .next (if 1 ≤ fld v 0 4 && fld v 0 4 ≤ 12 then
    let t := { s with rings := vmod s.rings k (HwRing.control v) }
    if (vget t.rings k HwRing.reset).en then t else releaseWaits true k 1 t
  else s)

/-- `rqctl` after a write: a window changes wq and en alone (R377, R389). -/
def ReqRing.control (window : Bool) (v : BitVec 64) (r : ReqRing) : ReqRing :=
  let was := r.en
  let r := if window then r else { r with ports := v.extractLsb' 40 8 }
  let r := if window || was then r else { r with part := v.extractLsb' 32 5, lcap := v.extractLsb' 0 4 |>.setWidth 8 }
  let r := { r with wq := v.extractLsb' 24 8, en := bit v 16 }
  if !was && r.en then { r with head := 0, tail := 0, armed := true } else r

/-- A ring's control changed: the connections of one that has lost en are closed, and what has arrived stays (R397); the enable
clears its frames, those still on their way to its slots too (R377). -/
def setRing (n : Nat) (f : ReqRing → ReqRing) (s : State) : State :=
  let t := s.modRq n f
  let conns := if (t.rq n).en then t.conns else t.conns.filter fun c => c.ring.toNat != n
  { t with conns := conns,
           arrivals := if (t.rq n).en && !(s.rq n).en then t.arrivals.filter (·.ring != n) else t.arrivals }

/-- RQCTL_WRITE (R377): a reserved lcap refuses a write through PF 0 whole. -/
def execRqctlWrite (via : Option (BitVec 5)) (ring : BitVec 7) (v : BitVec 64) (s : State) : Host.Outcome State Fault Refusal :=
  let n := ring.toNat
  .next (match via with
    | none => if 12 < fld v 0 4 then s else setRing n (ReqRing.control false v) s
    | some p => if s.rqGranted p n then setRing n (ReqRing.control true v) s else s)

/-- INTSTAT_CLEAR (R390): a partition's status, or the device's. -/
def execIntstatClear (unit : Option (BitVec 5)) (v : BitVec 64) (s : State) : Host.Outcome State Fault Refusal :=
  .next (match unit with
    | none => { s with dintstat := s.dintstat &&& ~~~v }
    | some p => s.setPart p fun q => { q with intstat := q.intstat &&& ~~~v })

/-! ## Control pages (R394, R395) -/

/-- A byte of a control page that the host may write (R394, R395). -/
def pageWritable (o : Nat) : Bool :=
  o < 0x34 || (0x38 ≤ o && o < 0x3A) || (0x40 ≤ o && o < 0x6B) || (0x6C ≤ o && o < 0x6E) || (0x70 ≤ o && o < 0xE4)

/-- A page with bytes written: the read-only and the reserved ones stay (R394). -/
def pageWith (pg : BitVec 32768) (off : Nat) (bs : List Byte) : BitVec 32768 :=
  let pg := bs.zipIdx.foldl (fun (x : BitVec 32768) b =>
    if pageWritable (off + b.2) then setFld x (8 * (off + b.2)) 8 b.1.toNat else x) pg
  setFld pg (8 * 0x1C) 32 (pageFld pg 0x1C 4 % 4)

/-- Two pages give one thing to two partitions (R395). -/
def pagesShare (a b : BitVec 32768) : Bool :=
  let both (o n : Nat) : Bool := pageFld a o n &&& pageFld b o n != 0
  both 0xC0 32 || both 0xB0 16 || both 0x70 64 || both 0x6C 1 || both 0x6D 1

/-- The pages of all partitions keep the limits of R395. -/
def limitsOk (l : List (BitVec 32768)) : Bool :=
  let total (o n : Nat) : Nat := (l.map fun p => pageFld p o n).sum
  (List.range 16).all (fun k => total (0x40 + 2 * k) 2 ≤ 1024) && (List.range 8).all (fun d => total (0x60 + d) 1 ≤ 16) &&
  total 0x68 2 ≤ 1024 && total 0x6A 1 ≤ 64

/-- A page's ticket budget is at most 2^20, and the enabled queues of its mask stay within it (R145, R394). -/
def budgetOk (pg : BitVec 32768) (s : State) : Bool :=
  let mine := (List.range 256).filter fun q => (s.cq q).en && pageFld pg 0xC0 32 >>> q % 2 == 1
  pageFld pg 0x10 4 ≤ 2 ^ 20 && decide ((mine.map fun q => (s.cq q).tickets.toNat).sum ≤ pageFld pg 0x10 4)

/-- The limits that a new page of a partition would have to keep, against the other pages and of its budget (log 107). -/
def pageAllowed (p : BitVec 5) (pg : BitVec 32768) (s : State) : Bool :=
  let others := ((List.range 32).filter (· != p.toNat)).map fun i => (s.part (BitVec.ofNat 5 i)).page
  limitsOk (pg :: others) && others.all (fun x => !pagesShare pg x) && budgetOk pg s

/-- A partition holds no task and none of its queues is enabled (R394). -/
def pageFree (p : BitVec 5) (s : State) : Bool :=
  !(s.cores.any fun c => c.ctx != 0 && c.partid == p) && !(s.saved.any (·.part == p)) &&
  !((List.range 256).any fun q => (s.cq q).en && s.cqOwner q == some p)

/-- A bit of flags that only the firmware sets (R394). -/
def setPageBit (p : BitVec 5) (b : Nat) (s : State) : State :=
  s.setPart p fun q => { q with page := setBit q.page (8 * 0x1C + b) true }

/-- All control pages as bytes. -/
def State.pagesBytes (s : State) : List Byte := (s.parts.toList.map fun p => leBytes 4096 p.page.toNat).flatten

/-- The measurement of the pages is taken when all have been written (R402). -/
def notePage (p : BitVec 5) (s : State) : State :=
  let w := setBit s.pageWritten p.toNat true
  if w = BitVec.allOnes 32 then { s with pageWritten := 0, pageDigest := Config.digest s.pagesBytes }
  else { s with pageWritten := w }

/-- CONTROL_PAGE_WRITE (R394, R395): discarded while the page is busy. -/
def execControlPageWrite (part : BitVec 5) (off : BitVec 12) (bytes : List (BitVec 8)) (s : State) :
    Host.Outcome State Fault Refusal :=
  .next (
    if !pageFree part s then s
    else
      let pg := pageWith (s.part part).page off.toNat bytes
      if pageAllowed part pg s then refreshBacklog (notePage part (s.setPart part fun q => { q with page := pg }))
      else setPageBit part 30 s)

/-! ## The code-load mailbox (R392) -/

/-- MAILBOX_GO (R392). -/
def execMailboxGo (part : BitVec 5) (v : BitVec 16) (s : State) : Host.Outcome State Fault Refusal :=
  .next (if v = 1 && !(s.part part).mail.go then
    s.setPart part fun q => { q with mail := { q.mail with go := true, result := 0, rtval := 0 } } else s)

/-- The checks of R308 on a mailbox load: the cause and the value of the first that fails. -/
def mailFault (p : BitVec 5) (m : Mailbox) (s : State) : Option (Nat × Nat) :=
  let c := m.off.toNat
  let x := m.src.toNat
  let n := m.len.toNat
  if c % 4 != 0 then some (cAlign, c)
  else if x % 4 != 0 then some (cAlign, x)
  else if n % 4 != 0 then some (cAlign, n)
  else if n = 0 || !s.inWindow p c n then some (cAccess, c)
  else if !vaOk x n then some (cAccess, x)
  else (codeFault s (Who.unit p) x n).map fun f => (cPage, f)

/-- One cluster of a mailbox load; none after a check that fails. -/
def mailCluster (p : BitVec 5) (m : Mailbox) (k : Nat) (s : State) : Except (Nat × Nat) State :=
  match mailFault p m s with
  | some f => .error f
  | none =>
    match (gRead (Who.unit p) m.src.toNat m.len.toNat .rx).run s with
    | .ok (.ok bs, t) => .ok (writeCode k m.off.toNat bs t)
    | _ => .error (cPage, m.src.toNat)

/-- The clusters of a mailbox load in ascending order: the first check that fails ends it. -/
def mailLoad (p : BitVec 5) (m : Mailbox) : List Nat → State → State × Nat × Nat
  | [], s => (s, 0, 0)
  | k :: r, s =>
    match mailCluster p m k s with
    | .ok t => mailLoad p m r t
    | .error f => (s, f)

/-- MAILBOX_LOAD_COMPLETE (R392). -/
def execMailboxLoadComplete (part : BitVec 5) (s : State) : Host.Outcome State Fault Refusal :=
  let m := (s.part part).mail
  if !m.go then .next s else
  let ks := (List.range 16).filter fun k => m.cmask = 0 || bit m.cmask k
  let (t, cause, v) := mailLoad part m ks s
  .next (raiseInt part 4 (t.setPart part fun q => { q with mail :=
    { q.mail with go := false, result := BitVec.ofNat 32 (2 ^ 31 + cause), rtval := dw v } }))

/-! ## Other registers (R388-R391) -/

/-- What a register of `n` bytes at `a` holds after bytes are written from `off`; none when none of them is its own. -/
def regWrite (a n old off : Nat) (bs : List Byte) : Option Nat :=
  if !overlaps a n off bs.length then none else
  some (leNat ((leBytes n old).zipIdx.map fun x =>
    if off ≤ a + x.2 && a + x.2 < off + bs.length then bs.getD (a + x.2 - off) 0 else x.1))

/-- A change made where a register is written. -/
def onReg (a n old off : Nat) (bs : List Byte) (f : Nat → State → State) (s : State) : State :=
  match regWrite a n old off bs with
  | some v => f v s
  | none => s

/-- Of `count` sets of registers of `n` bytes each, from an offset on, those that `k` bytes from `off` reach. -/
def setsAt (base n count off k : Nat) : List Nat :=
  (List.range count).filter fun i => off < base + n * (i + 1) && base + n * i < off + k

/-- `cqbase` of a queue, whose set starts at `a` (R135). -/
def writeCqReg (a q off : Nat) (bs : List Byte) (s : State) : State :=
  onReg a 8 (s.cq q).base.toNat off bs (fun v s => s.modCq q fun c =>
    if c.en then c else { c with base := dw (v % 2 ^ 57 / 4096 * 4096) }) s

/-- The plain registers of a request ring, whose set starts at `a` (R377, R389). -/
def writeRqReg (window : Bool) (a n off : Nat) (bs : List Byte) (s : State) : State :=
  let r := s.rq n
  let s := onReg (a + 8) 8 r.base.toNat off bs (fun v s => s.modRq n fun r =>
    if r.en then r else { r with base := dw (v % 2 ^ 57 / 4096 * 4096) }) s
  let s := onReg (a + 16) 8 r.wrec.toNat off bs (fun v s => s.modRq n fun r => { r with wrec := dw (v % 2 ^ 57 / 32 * 32) }) s
  onReg (a + 48) 8 r.svc.toNat off bs (fun v s => s.modRq n fun r =>
    if window || r.en then r else { r with svc := dw (v / 2 ^ 63 * 2 ^ 63 + v % 2 ^ 24) }) s

/-- The mailbox registers but go (R392). -/
def writeMail (p : BitVec 5) (off : Nat) (bs : List Byte) (s : State) : State :=
  let m := (s.part p).mail
  let f (g : Nat → Mailbox → Mailbox) (v : Nat) (s : State) : State :=
    s.setPart p fun q => { q with mail := if q.mail.go then q.mail else g v q.mail }
  let s := onReg 0x4100 8 m.src.toNat off bs (f fun v m => { m with src := dw v }) s
  let s := onReg 0x4108 4 m.len.toNat off bs (f fun v m => { m with len := BitVec.ofNat 32 v }) s
  let s := onReg 0x410C 4 m.off.toNat off bs (f fun v m => { m with off := BitVec.ofNat 32 v }) s
  onReg 0x4110 2 m.cmask.toNat off bs (f fun v m => { m with cmask := BitVec.ofNat 16 v }) s

/-- The bits of an interrupt enable register (R390): bits 63:6 are reserved. -/
def sources (v : Nat) : Dword := dw (v % 64)

/-- A write in a partition's window (R389). -/
def writeWindow (p : BitVec 5) (off : Nat) (bs : List Byte) (s : State) : State :=
  let s := (setsAt 0 32 256 off bs.length).foldl (fun s q => if s.cqOwner q == some p then writeCqReg (32 * q) q off bs s else s) s
  let s := (setsAt 0x2000 64 128 off bs.length).foldl (fun s n => if s.rqGranted p n then writeRqReg true (0x2000 + 64 * n) n off bs s else s) s
  let s := onReg 0x4030 4 (s.pg p 0x30 4) off bs (fun v s => s.setPart p fun q =>
    { q with page := setFld q.page (8 * 0x30) 32 v }) s
  let s := onReg 0x4048 8 (s.part p).intmask.toNat off bs (fun v s => s.setPart p fun q => { q with intmask := sources v }) s
  writeMail p off bs s

/-- A write in BAR0 of PF 0 (R388, R390, R391); one to an unassigned offset is discarded. -/
def writeBar (off : Nat) (bs : List Byte) (s : State) : State :=
  if 0x1200000 ≤ off then s else
  if 0x1000000 ≤ off then writeWindow (BitVec.ofNat 5 ((off - 0x1000000) / 0x10000)) (off % 0x10000) bs s else
  let s := onReg 0x104 4 s.lghead.toNat off bs (fun v s => { s with lghead := BitVec.ofNat 32 v }) s
  let s := onReg 0x208 8 s.dintmask.toNat off bs (fun v s => { s with dintmask := sources v }) s
  let s := (setsAt 0x400 8 32 off bs.length).foldl (fun (s : State) p =>
    onReg (0x400 + 8 * p) 8 (s.part (BitVec.ofNat 5 p)).pintmask.toNat off bs
      (fun v s => s.setPart (BitVec.ofNat 5 p) fun q => { q with pintmask := sources v }) s) s
  let s := (setsAt 0x10000 32 256 off bs.length).foldl (fun s q => writeCqReg (0x10000 + 32 * q) q off bs s) s
  (setsAt 0x20000 64 128 off bs.length).foldl (fun s n => writeRqReg false (0x20000 + 64 * n) n off bs s) s

/-- The number of a function: PF 0, or VF n for partition n − 1 (R387). -/
def functionOf (via : Option (BitVec 5)) : Nat := (via.map fun p => p.toNat + 1).getD 0

/-- The pending vectors of a function that it no longer masks are sent (R387, log 104). -/
def releaseMsix (f : Nat) (s : State) : State :=
  let go (x : Nat × Nat) : Bool := x.1 == f && !s.msixMasked f x.2
  { s with msix := s.msix ++ s.msixPending.filter go, msixPending := s.msixPending.filter fun x => !go x }

/-- A byte of an MSI-X table as it is held: the mask bit of a vector resets to 1 (log 104). -/
def msixFlip (o : Nat) (b : Byte) : Byte := if o % 16 = 12 then b ^^^ 1 else b

/-- A write in a function's BAR2: its MSI-X table, whose mask bits may set pending vectors free; the pending bits are
read-only. -/
def writeBar2 (via : Option (BitVec 5)) (off : Nat) (bs : List Byte) (s : State) : State :=
  let bs := (bs.take (2 ^ 15 - off)).zipIdx.map fun b => msixFlip (off + b.2) b.1
  releaseMsix (functionOf via) { s with msixTable := memWrite s.msixTable (msixBase (functionOf via) + off) bs }

/-- REGISTER_WRITE (R387-R389): through PF 0, or through the VF of a partition; its BAR0, or its BAR2. -/
def execRegisterWrite (via : Option (BitVec 5)) (place : BarPlace) (bytes : List (BitVec 8)) (s : State) :
    Host.Outcome State Fault Refusal :=
  let o := place.off.toNat
  .next (if place.bar2 then writeBar2 via o bytes s else match via with
    | none => writeBar o bytes s
    | some p => if o < 0x10000 then writeWindow p o bytes s else s)

end Sys2Proof.Machine
end

