-- ==== Sys2Proof/Machine/HostRead.lean ====
section
/-! DEFINITION. What the host reads: BAR0 of PF 0, the windows of the partitions, the MSI-X tables (R135, R183, R217, R377,
R387-R394, R398). A read changes nothing, so no step is one: these functions say what it answers. -/
namespace Sys2Proof.Machine

/-- A byte of a set of registers, each an offset, a length and a value; zero where none lies. -/
def regByte (l : List (Nat × Nat × Nat)) (o : Nat) : Byte :=
  match l.find? fun r => r.1 ≤ o && o < r.1 + r.2.1 with
  | some r => BitVec.ofNat 8 (r.2.2 / 2 ^ (8 * (o - r.1)))
  | none => 0

/-- `cqctl` (R136). -/
def cqctlValue (q : Nat) (s : State) : Nat :=
  let c := s.cq q
  let owner := ((s.cqOwner q).map (·.toNat)).getD 0
  c.err.toNat * 2 ^ 60 + c.stop.toNat * 2 ^ 59 + c.dies.toNat * 2 ^ 40 + owner * 2 ^ 32 + c.tickets.toNat * 2 ^ 20 +
  c.size.toNat * 2 ^ 16 + c.det.toNat * 2 + c.en.toNat

/-- The registers of a continuation queue (R135). -/
def cqRegs (q : Nat) (s : State) : List (Nat × Nat × Nat) :=
  let c := s.cq q
  [(0, 8, c.base.toNat), (8, 8, cqctlValue q s), (0x10, 4, c.head.toNat), (0x14, 4, c.tail.toNat), (0x18, 8, c.pass.toNat)]

/-- `rqctl` (R377). -/
def rqctlValue (r : ReqRing) : Nat :=
  r.ports.toNat * 2 ^ 40 + r.part.toNat * 2 ^ 32 + r.wq.toNat * 2 ^ 24 + r.armed.toNat * 2 ^ 17 + r.en.toNat * 2 ^ 16 +
  r.lcap.toNat % 16

/-- The registers of a request ring (R377). -/
def rqRegs (n : Nat) (s : State) : List (Nat × Nat × Nat) :=
  let r := s.rq n
  [(0, 8, rqctlValue r), (8, 8, r.base.toNat), (16, 8, r.wrec.toNat), (24, 4, r.head.toNat), (28, 4, r.tail.toNat),
   (32, 8, r.bad.toNat), (40, 8, r.full.toNat), (48, 8, r.svc.toNat), (56, 8, r.wfail.toNat)]

/-- The registers of a hardware ring (R183). -/
def ringRegs (r : HwRing) : List (Nat × Nat × Nat) :=
  [(0, 8, r.part.toNat * 2 ^ 32 + r.en.toNat * 2 ^ 16 + r.lcount.toNat), (16, 4, r.claim.toNat), (20, 4, r.tail.toNat),
   (24, 4, r.take.toNat), (28, 4, r.head.toNat)]

/-- A retention register (R217). -/
def retainRegs (r : Retain) : List (Nat × Nat × Nat) :=
  [(0, 8, r.en.toNat * 2 ^ 63 + r.base.toNat % 2 ^ 57), (8, 8, r.part.toNat * 2 ^ 32 + r.gran.toNat)]

/-- The counters of a port in the order of R398. -/
def EthPort.counters (e : EthPort) : List Dword := [e.received, e.malformed, e.refused, e.sent, e.discarded, e.downs]

/-- A byte of a control page (R394): the busy bit reads 1 while the partition is not free. -/
def pageByte (p : BitVec 5) (o : Nat) (s : State) : Byte :=
  let pg := setBit (s.part p).page (8 * 0x1C + 31) (!pageFree p s)
  BitVec.ofNat 8 (pageFld pg o 1)

/-- The interrupt registers and the mailbox of a window (R389, R392). -/
def windowRegs (p : BitVec 5) (s : State) : List (Nat × Nat × Nat) :=
  let q := s.part p
  [(0x4040, 8, q.intstat.toNat), (0x4048, 8, q.intmask.toNat), (0x4100, 8, q.mail.src.toNat), (0x4108, 4, q.mail.len.toNat),
   (0x410C, 4, q.mail.off.toNat), (0x4110, 2, q.mail.cmask.toNat), (0x4112, 2, q.mail.go.toNat),
   (0x4114, 4, q.mail.result.toNat), (0x4118, 8, q.mail.rtval.toNat)]

/-- A byte of a partition's window (R135, R389): what the partition does not own reads as zero. -/
def windowByte (p : BitVec 5) (s : State) (o : Nat) : Byte :=
  if o < 0x2000 then (if s.cqOwner (o / 32) = some p then regByte (cqRegs (o / 32) s) (o % 32) else 0)
  else if o < 0x4000 then
    (if s.rqGranted p ((o - 0x2000) / 64) then regByte (rqRegs ((o - 0x2000) / 64) s) (o % 64) else 0)
  else if 0x4028 ≤ o && o < 0x403C then pageByte p (o - 0x4000) s
  else regByte (windowRegs p s) o

/-- The registers of the device page (R388, R390, R391, R403); the spec gives those below 0x100 no offsets (log 105). -/
def deviceRegs (s : State) : List (Nat × Nat × Nat) :=
  let svn (f : FwTarget) : Nat := if f.active then f.svnB.toNat else f.svnA.toNat
  [(0x00, 8, Config.deviceIdentity.toNat), (0x08, 2, svn (vget s.fw 0 FwTarget.reset)),
   (0x0A, 2, svn (vget s.fw 1 FwTarget.reset)), (0x0C, 2, svn (vget s.fw 2 FwTarget.reset)), (0x10, 4, s.ready.toNat),
   (0x14, 4, s.lastReset.toNat), (0x18, 4, s.bootError.toNat), (0x100, 4, s.lgtail.toNat), (0x104, 4, s.lghead.toNat),
   (0x108, 8, s.lglost.toNat), (0x200, 8, s.dintstat.toNat), (0x208, 8, s.dintmask.toNat)] ++
  (List.range 32).map fun i => (0x400 + 8 * i, 8, (s.part (BitVec.ofNat 5 i)).pintmask.toNat)

/-- The log entry that stands in slot `i` of the log's 4,096 (R391); none before one has been written there. -/
def State.logSlot (s : State) (i : Nat) : Option LogEntry := s.log[(i + s.log.length + 4096 - s.lgtail.toNat % 4096) % 4096]?

/-- A byte of BAR0 of PF 0 (R388); an unassigned offset reads as zero. -/
def barByte (s : State) (o : Nat) : Byte :=
  if o < 0x1000 then regByte (deviceRegs s) o
  else if 0x10000 ≤ o && o < 0x12000 then regByte (cqRegs ((o - 0x10000) / 32) s) (o % 32)
  else if 0x20000 ≤ o && o < 0x22000 then regByte (rqRegs ((o - 0x20000) / 64) s) (o % 64)
  else if 0x100000 ≤ o && o < 0x108000 then
    let k := (o - 0x100000) / 32
    regByte (ringRegs (vget s.rings k HwRing.reset)) (o % 32)
  else if 0x200000 ≤ o && o < 0x280000 then
    let i := o % 0x10000 / 16
    if i < 16 then regByte (retainRegs (vget s.retain (16 * ((o - 0x200000) / 0x10000) + i) Retain.reset)) (o % 16) else 0
  else if 0x300000 ≤ o && o < 0x320000 then
    let k := o % 0x10000 / 8
    let e := vget s.eth (4 * ((o - 0x300000) / 0x10000) + k / 8) EthPort.reset
    if k < 32 then regByte [(0, 8, (e.counters.getD (k % 8) 0).toNat)] (o % 8) else 0
  else if 0x340000 ≤ o && o < 0x350000 then
    match s.logSlot ((o - 0x340000) / 16) with
    | some e => regByte [(0, 8, e.d0.toNat), (8, 8, e.d1.toNat)] (o % 16)
    | none => 0
  else if 0x400000 ≤ o && o < 0x420000 then pageByte (BitVec.ofNat 5 ((o - 0x400000) / 0x1000)) (o % 0x1000) s
  else if 0x1000000 ≤ o && o < 0x1200000 then
    windowByte (BitVec.ofNat 5 ((o - 0x1000000) / 0x10000)) s (o % 0x10000)
  else 0

/-- A byte of a function's BAR2 (log 104): its MSI-X table, then the pending bits of its 2,048 vectors. -/
def bar2Byte (via : Option (BitVec 5)) (s : State) (o : Nat) : Byte :=
  let f := functionOf via
  if o < 2 ^ 15 then msixFlip o (memByte s.msixTable (msixBase f + o))
  else if o < 2 ^ 15 + 256 then
    BitVec.ofNat 8 (((List.range 8).map fun i =>
      if s.msixPending.contains (f, 8 * (o - 2 ^ 15) + i) then 2 ^ i else 0).sum)
  else 0

/-- What a read of `n` bytes answers, through PF 0 or the VF of a partition (R387-R389). -/
def hostRead (via : Option (BitVec 5)) (bar2 : Bool) (off n : Nat) (s : State) : List Byte :=
  (List.range n).map fun i =>
    let o := off + i
    if bar2 then bar2Byte via s o else match via with
      | none => barByte s o
      | some p => if o < 0x10000 then windowByte p s o else 0

end Sys2Proof.Machine
end

