-- ==== Sys2Proof/Machine/Links.lean ====
section
/-! DEFINITION. The links: peers, the Nalyan link, the pool, the host port (R84, R231, R238-R240, R314, R396, R399). -/
namespace Sys2Proof.Machine

/-- A physical line is invalidated in the first-level and cluster caches, and the watches on it fire (R84, R239). -/
def fireLine (pa : Nat) (s : State) : State := fireWatches (pa / 64 * 64) 64 none s

/-- The context of a number, bound or saved, ended by an error that no word of it met (R320). -/
def endCtx (cause : Nat) (ctx : Nat) (s : State) : State :=
  match s.cores.find? (fun c => c.ctx == ctx && c.ctx != 0) with
  | some c => endTask cause (BitVec.allOnes 64) 0 c s
  | none =>
    match s.saved.find? (·.ctx == ctx) with
    | some v =>
      match v.members with
      | m :: _ => endTask cause (BitVec.allOnes 64) 0 m.core s
      | [] => s
    | none => s

/-- The contexts of several numbers ended. -/
def endAll (cause : Nat) (l : List Nat) (s : State) : State := l.eraseDups.foldl (fun t c => endCtx cause c t) s

/-! ## Stores between devices (R238) -/

/-- The first of what waits to be sent on a link goes out, if the link carries it (R399; log 69): the device's own stores, then
those that it relays, then its acknowledgements. -/
def sendOne (k : Bool) (s : State) : State :=
  if !(s.link k).ready then s else
  match s.remote.findIdx? fun r => r.link == k && !r.sent with
  | some i => { (s.modLink k Link.send) with remote := s.remote.modify i fun r => { r with sent := true } }
  | none =>
    match s.relayed.findIdx? fun r => r.link == k && !r.sent with
    | some i => { (s.modLink k Link.send) with relayed := s.relayed.modify i fun r => { r with sent := true } }
    | none =>
      match s.acks.findIdx? fun r => r.link == k && !r.sent with
      | some i => { (s.modLink k Link.send) with acks := s.acks.modify i fun r => { r with sent := true } }
      | none => s

/-- What has not been sent is to go out on a link. -/
def moveUnsent (k : Bool) (s : State) : State :=
  { s with remote := s.remote.map (fun r => if r.sent then r else { r with link := k })
           relayed := s.relayed.map (fun r => if r.sent then r else { r with link := k })
           acks := s.acks.map (fun r => if r.sent then r else { r with link := k }) }

/-- What waits to be sent on a link goes out in its order, while the link carries it (R399); what waits for the other link too
while that one is down. -/
def flush (k : Bool) (s : State) : State :=
  let t := if (s.link k).up && !(s.link !k).up then moveUnsent k s else s
  (List.range (t.remote.length + t.relayed.length + t.acks.length)).foldl (fun u _ => sendOne k u) t

/-- An event of a link, after which stores may go out. -/
def linkEvent (k : Bool) (f : Link → Link) (s : State) : State := flush k (s.modLink k f)

/-- A received flit buffer is free again: resume is sent once fewer than 2,048 are occupied (R399). -/
def Link.drain (l : Link) : Link :=
  { l with occupied := l.occupied - 1, pauseSent := l.pauseSent && decide (2048 ≤ l.occupied - 1) }

/-- A copy is newer than the last store applied (R238). -/
def newer (new : BitVec 16) (old : Option (BitVec 16)) : Bool :=
  match old with
  | none => true
  | some o => 1 ≤ (new - o).toNat && (new - o).toNat ≤ 32767

/-- A store relayed by its domain number (R399): it goes out on a link, at once or once the link carries it, and is not
applied. -/
def relayStore (src dst : BitVec 6) (pa : BitVec 52) (seq : BitVec 16) (bytes : List (BitVec 8)) (s : State) : State :=
  let k := s.outLink
  let go := s.goesNow k
  sendNow go k { s with relayed := s.relayed ++ [⟨src, dst, pa, seq, bytes, k, go⟩] }

/-- A store of another device acknowledged (R238): the acknowledgement goes out on a link, at once or once the link carries it
(log 69). -/
def acknowledge (dst : BitVec 6) (pa : BitVec 52) (seq : BitVec 16) (s : State) : State :=
  let k := s.outLink
  let go := s.goesNow k
  sendNow go k { s with acks := s.acks ++ [⟨dst, pa, seq, k, go⟩] }

/-- REMOTE_STORE_APPLY (R238, R399): a copy that arrives at its home slice is applied if it is newer, and acknowledged; one for
another device of the domain is relayed. The buffer of the link that brought it is free again. -/
def execRemoteStoreApply (hop : Hop) (pa : BitVec 52) (seq : BitVec 16) (bytes : List (BitVec 8)) (s : State) :
    Host.Outcome State Fault Refusal :=
  let a := pa.toNat
  let key := hop.src.toNat * 2 ^ 52 + a / 64
  let s := s.modLink hop.link Link.drain
  .next (
    if hop.dst != s.domain then relayStore hop.src hop.dst pa seq bytes s
    else if (isHbm a || isLp6 a) && decide (a % 64 + bytes.length ≤ 64) then
      acknowledge hop.src pa seq (if newer seq (kvGet key s.applied) then
        { (physWrite a bytes none s) with applied := kvPut key seq s.applied } else s)
    else s)

/-- Whose sequencer made a store (R84). -/
def sequencerOf (core : BitVec 11) (agent : Nat) : Option (BitVec 11) := if agent = 0 then some core else none
/-- A store to a peer is performed (R238). -/
def RemoteStore.perform (r : RemoteStore) (s : State) : State := placePeer r.pa.toNat r.bytes (sequencerOf r.core r.agent) s
/-- A store to the host is performed (R234, R314). -/
def PoolStore.perform (p : PoolStore) (s : State) : State := physWrite p.pa.toNat p.bytes (sequencerOf p.core p.agent) s

/-- No earlier store to the bytes of the one at a place in a list waits for an acknowledgement (R224). -/
def firstThere (l : List PoolStore) (i : Nat) : Bool :=
  match l[i]? with
  | some p => !(l.take i).any fun q => !q.lost && overlaps q.pa.toNat q.size p.pa.toNat p.size
  | none => false

/-- No earlier store to the line of the one at a place in the list of stores to peers waits for an acknowledgement (R224). -/
def State.firstOfLine (s : State) (i : Nat) : Bool :=
  match s.remote[i]? with
  | some r => !(s.remote.take i).any fun q => s.peerKey q.pa.toNat / 64 == s.peerKey r.pa.toNat / 64
  | none => false

/-- STORE_ACK (R238, R314): a store that was sent is performed at DM, or at SY for a store to host memory: its bytes take their
place. One that an earlier store to its bytes still precedes is not performed yet (R224; log 70). -/
def execStoreAck (pa : BitVec 52) (seq : BitVec 16) (s : State) : Host.Outcome State Fault Refusal :=
  .next (settleArrivals (
    if isHost pa.toNat then
      match (s.hostStores.zipIdx.find? fun p => p.1.pa == pa) with
      | some (p, i) => if firstThere s.hostStores i then { p.perform s with hostStores := s.hostStores.eraseIdx i } else s
      | none => s
    else
      match s.remote.zipIdx.find? fun r => r.1.pa == pa && r.1.seq == seq && r.1.sent with
      | some (r, i) => if s.firstOfLine i then { r.perform s with remote := s.remote.eraseIdx i } else s
      | none => s))

/-- The bytes of a store that was lost (R240, R314): they may or may not have been written. -/
def loseStore (p : PoolStore) (s : State) : State :=
  { s with mem := memWrite s.mem p.pa.toNat ((List.range p.size).map fun i => Config.lostByte (s.fresh + i)),
           fresh := s.fresh + p.size }
/-- The bytes of every store to the host that waits, once it can no longer be acknowledged. -/
def State.hostLost (s : State) : State := { (s.hostStores.foldl (fun t p => loseStore p t) s) with hostStores := [] }

/-- A command of an engine waits for one of several lost stores (R242): to a peer or to the host, or, at PL or SY, to the
pool. -/
def Command.waitsFor (lost : List PoolStore) (far : Bool) (k : Command) : Bool :=
  (far || decide (5 ≤ k.scope.toNat)) && lost.any fun p => p.agent == k.unit && p.ctx == k.ctx

/-- What the engines do when stores of theirs are lost (R240, R242): a copy record stops with a code, and another command that
waits for a lost store makes no result (log 126). -/
def loseInEngines (code : Nat) (lost : List PoolStore) (far : Bool) (s : State) : State :=
  let keep (l : List Command) : List Command := l.filter (!Command.waitsFor lost far ·)
  let text (e : TextEng) : TextEng := { e with run := e.run.filter (!Command.waitsFor lost far ·) }
  let copy (r : CopyRun) : CopyRun := if far || decide (5 ≤ r.chain.scope.toNat) then r.lose code lost s else r
  { s with
    channels := s.channels.map (fun c => { c with run := c.run.map copy })
    sampler := s.sampler.map keep, accept := s.accept.map keep, experts := s.experts.map keep, prefetch := s.prefetch.map keep
    tok := s.tok.map text, dtk := s.dtk.map text }

/-- A store on its way to a peer in the form of the others. -/
def RemoteStore.asStore (r : RemoteStore) : PoolStore := ⟨r.core, r.agent, r.ctx, r.task, r.member, r.pa, r.bytes, 4, false, true⟩

/-- What this device knows of its peers' memory once the stores that no peer has acknowledged are lost: their bytes are free
(log 89). -/
def State.peersKept (s : State) : List (Nat × Byte) :=
  s.remote.foldl (fun m r =>
    ((List.range r.bytes.length).map (s.peerKey r.pa.toNat + ·)).foldl (fun m k => kvDel k m) m) s.peerMem

/-- There is no path to a peer (R238): what no peer has acknowledged is lost, and its contexts end (log 71); no engine makes a
result of it (R242, log 126), and a message among it counts as placed, with free bytes (log 113). -/
def noPath (s : State) : State :=
  let t := loseInEngines (copyCode false (Config.stopCode s.fresh) (.det 0)) (s.remote.map RemoteStore.asStore) true s
  settleArrivals (endAll cDomain (s.remote.map (·.ctx))
    { t with remote := [], peerMem := s.peersKept, fresh := s.fresh + 1 })

/-- The link that a store is sent on again (R238): the other one, or, through a third device of the domain, any that is up. -/
def replayLink (r : RemoteStore) (relay : Option (BitVec 6)) (s : State) : Bool :=
  if relay.isSome && !(s.link !r.link).up then r.link else !r.link

/-- REMOTE_STORE_REPLAY (R238): a store that no acknowledgement has reached is sent again with its number, over the other
link or through a third device; with no link up there is no path (log 71). -/
def execRemoteStoreReplay (again : Resend) (s : State) : Host.Outcome State Fault Refusal :=
  match s.remote[again.ix]? with
  | none => .next s
  | some r =>
    let k := replayLink r again.relay s
    .next (
      if !(s.link false).up && !(s.link true).up then noPath s
      else if (s.link k).ready then
        { (s.modLink k Link.send) with remote := s.remote.set again.ix { r with link := k, relay := again.relay, sent := true } }
      else s)

/-! ## The Nalyan link (R399) -/

/-- The flits that an acknowledgement of `a` and all before it leaves. -/
def Link.acked (l : Link) (a : BitVec 12) : Link :=
  { l with unacked := l.unacked.filter fun f => 2048 ≤ (a - f.1).toNat }

/-- A flit that a link drops (R399): a replay request that names the first sequence needed is sent, once until that flit comes;
again if it comes bad. -/
def Link.dropped (l : Link) (needed : Bool) : Link :=
  if l.gap && !needed then l else { l with replays := l.replays + 1, asked := l.asked ++ [l.recvSeq], gap := true }

/-- NALYAN_FLIT_RECEIVE (R399): the flit in sequence is accepted; a bad one or a gap is dropped, and every later flit until the
one in sequence comes. The copy of a store that a flit carries keeps its buffer until it is applied or relayed; a flit without one
leaves its buffer free (log 69). -/
def execNalyanFlitReceive (link : Bool) (seq ack : BitVec 12) (good : Option Bool) (s : State) : Host.Outcome State Fault Refusal :=
  let l := s.link link
  .next (
    if !l.up then s
    else if good.isSome && seq = l.recvSeq then
      linkEvent link (fun l =>
        let l := l.acked ack
        let n := min 4096 (l.occupied + (good.getD false).toNat)
        { l with recvSeq := l.recvSeq + 1, occupied := n, pauseSent := l.pauseSent || decide (3072 < n), gap := false }) s
    else s.modLink link (·.dropped (seq == l.recvSeq)))

/-- A link is down (R238, R399): its flits are gone, and the stores that wait for it go out on the other; with no link left,
the stores that no peer has acknowledged end their contexts. -/
def linkDown (k : Bool) (s : State) : State :=
  if !(s.link k).up then s else
  let s := raiseDint 2 (s.modLink k fun l => { l with up := false, paused := false, unacked := [], gap := false })
  if (s.link !k).up then flush (!k) s else noPath s

/-- NALYAN_REPLAY_REQUEST (R399): the flits from the named one are sent again; one sent again eight times takes the link
down. -/
def execNalyanReplayRequest (link : Bool) (seq : BitVec 12) (s : State) : Host.Outcome State Fault Refusal :=
  let hit (f : BitVec 12 × Nat) : Bool := (f.1 - seq).toNat < 2048
  let n := ((s.link link).unacked.filter hit).length
  let s := s.modLink link fun l =>
    { l with unacked := l.unacked.map fun f => if hit f then (f.1, f.2 + 1) else f,
             replays := l.replays + BitVec.ofNat 64 n }
  .next (if (s.link link).unacked.any (fun f => 8 ≤ f.2) then linkDown link s else s)

/-- NALYAN_PAUSE (R399). -/
def execNalyanPause (link : Bool) (s : State) : Host.Outcome State Fault Refusal :=
  .next (s.modLink link fun l => { l with paused := l.up })
/-- NALYAN_RESUME (R399). -/
def execNalyanResume (link : Bool) (s : State) : Host.Outcome State Fault Refusal :=
  .next (linkEvent link (fun l => { l with paused := false }) s)
/-- NALYAN_LINK_DOWN (R399). -/
def execNalyanLinkDown (link : Bool) (s : State) : Host.Outcome State Fault Refusal := .next (linkDown link s)
/-- NALYAN_LINK_UP (R238). -/
def execNalyanLinkUp (link : Bool) (s : State) : Host.Outcome State Fault Refusal :=
  .next (linkEvent link (fun l => { l with up := true }) s)

/-! ## The pool (R231, R239, R240, R396) -/

/-- LEASE_END (R231): the watch on the line fires, as at an invalidation. -/
def execLeaseEnd (pa : BitVec 52) (s : State) : Host.Outcome State Fault Refusal := .next (fireLine pa.toNat s)

/-- BACK_INVALIDATE_SNOOP (R239): the line's dirty data is written back and so performed at PL, its copies and leases end,
and the watch on it fires. -/
def execBackInvalidateSnoop (pa : BitVec 52) (s : State) : Host.Outcome State Fault Refusal :=
  .next (if isPool pa.toNat then
    fireLine pa.toNat { s with poolStores := s.poolStores.filter fun p => p.lost || p.pa.toNat / 64 != pa.toNat / 64,
                               cache := s.cache.dropSlice (pa.toNat / 64) }
  else s)

/-- POOL_STORE_ACK (R239): a store that no earlier one to its bytes still precedes is performed (R224). -/
def execPoolStoreAck (ix : Nat) (s : State) : Host.Outcome State Fault Refusal :=
  match s.poolStores[ix]? with
  | some p => .next (if p.lost || !firstThere s.poolStores ix then s else { s with poolStores := s.poolStores.eraseIdx ix })
  | none => .next s

/-- A table of a level, or one that it points to, has a leaf that overlaps a physical range (R297). -/
def tableHits (s : State) (lo len : Nat) : Nat → Nat → Nat → Bool
  | 0, _, _ => false
  | n + 1, lvl, tbl =>
    (List.range (if lvl = 0 then 1024 else 2048)).any fun i =>
      let e := s.phys8 (tbl + 8 * i)
      let pa := e / 2 ^ 14 % 2 ^ 38 * 2 ^ 14
      e % 2 == 1 &&
      (if e / 2 % 4 = 1 then tableHits s lo len n (lvl + 1) pa
       else e / 2 % 4 == 2 && overlaps pa (2 ^ leafBits lvl) lo len)

/-- A partition maps part of a physical range. -/
def State.maps (s : State) (p : BitVec 5) (lo len : Nat) : Bool := s.pg p 0 8 != 0 && tableHits s lo len 4 0 (s.pg p 0 8)

/-- The size of a pool region. -/
def PoolRegion.len (r : PoolRegion) : Nat := r.units * 0x10000000

/-- The contexts that end with a region (R240): of an engine's command that waits for a lost store (log 126), of a core whose own
store at PL or SY is lost, of a core whose fence waits for a lost store. -/
def poolEnds (lost : List PoolStore) (s : State) : List Nat :=
  (s.commands.filter (Command.waitsFor lost false)).map (·.ctx) ++
  (lost.filter fun p => decide (p.agent < 4) && decide (5 ≤ p.scope.toNat)).map (·.ctx) ++
  (if lost.any (·.fenced s) then (s.cores.filter fun c => c.commit == .fence).map (·.ctx) else [])

/-- A pool region is lost (R240): its unacknowledged stores are lost, the engines that made them stop, the pairs of update
regions in it are discarded, and the partitions that map it interrupted (R390). -/
def loseRegion (r : PoolRegion) (s : State) : State :=
  let mine (p : PoolStore) : Bool := !p.lost && r.has p.pa.toNat
  let gone := s.poolStores.filter mine
  let ends := poolEnds gone s
  let s := { s with
    poolStores := s.poolStores.map fun (p : PoolStore) => if mine p then { p with lost := true } else p
    regions := s.regions.map fun (x : Region) =>
      if x.pages.any (fun q => r.has (16384 * q.2)) then { x with transit := [], held := [], runs := [], waiting := [] } else x }
  let s := endAll cPoolFatal ends (loseInEngines 6 gone false (gone.foldl (fun t p => loseStore p t) s))
  (List.range 32).foldl (fun (t : State) p =>
    if t.maps (BitVec.ofNat 5 p) r.base.toNat r.len then raiseInt (BitVec.ofNat 5 p) 5 t else t) s

/-- POOL_PORT_LINK_DOWN (R240, R396): a region that no port carries any more is lost. -/
def execPoolPortLinkDown (port : BitVec 2) (s : State) : Host.Outcome State Fault Refusal :=
  if !bit s.poolUp port.toNat then .next s else
  let up := setBit s.poolUp port.toNat false
  let dead (r : PoolRegion) : Bool := !r.lost && r.ports &&& up == 0
  let lost := s.pools.filter dead
  let s := raiseDint 2 { s with poolUp := up, pools := s.pools.map fun r => if dead r then { r with lost := true } else r }
  .next (lost.foldl (fun t r => loseRegion r t) s)

/-- POOL_PORT_LINK_UP (R396): a lost region stays lost (R240). -/
def execPoolPortLinkUp (port : BitVec 2) (s : State) : Host.Outcome State Fault Refusal :=
  .next { s with poolUp := setBit s.poolUp port.toNat true }

/-- POOL_REGION_MAP (R240, R396): a region of whole 256 MiB units above 0x1000_0000_0000, mapped afresh. -/
def execPoolRegionMap (base : BitVec 52) (units : Nat) (ports : BitVec 4) (s : State) : Host.Outcome State Fault Refusal :=
  let r : PoolRegion := ⟨base, units, ports, ports &&& s.poolUp == 0⟩
  if isPool base.toNat && base.toNat % 0x10000000 = 0 && 0 < units && base.toNat + r.len ≤ 2 ^ 52 then
    .next { s with pools := (s.pools.filter fun x => !overlaps x.base.toNat x.len base.toNat r.len) ++ [r],
                   poolStores := s.poolStores.filter fun p => !(p.lost && r.has p.pa.toNat) }
  else .next s

/-! ## The host port (R314) -/

/-- HOST_PORT_LOST (R314, R390): the contexts whose stores to host memory wait for an acknowledgement end; no engine makes a
result of such a store (R242, log 126), and its bytes are free (log 5). -/
def execHostPortLost (s : State) : Host.Outcome State Fault Refusal :=
  let s := if s.hostUp then raiseDint 2 { s with hostUp := false } else s
  let t := loseInEngines (copyCode false (Config.stopCode s.fresh) (.det 0)) s.hostStores true s
  .next (settleArrivals (endAll cHostLost (s.hostStores.map (·.ctx)) { t with fresh := s.fresh + 1 }.hostLost))

end Sys2Proof.Machine
end

