-- ==== Sys2Proof/Machine/Basoc.lean ====
section
/-! DEFINITION. Basoc, reset and boot, firmware, attestation (R400-R403). -/
namespace Sys2Proof.Machine

/-! ## Reset and power (R400, R403) -/

/-- What outlives the main domain: Basoc's own state, what has left the device, and the model's own fields. -/
def State.kept (s t : State) : State :=
  { t with powerCap := s.powerCap, fw := s.fw, basoc := s.basoc, pageWritten := s.pageWritten, pageDigest := s.pageDigest,
           msix := s.msix, wire := s.wire, agenda := s.agenda, eager := s.eager, fresh := s.fresh, nextCtx := s.nextCtx,
           nextNum := s.nextNum, boots := s.boots }

/-- A state with the memory that lies outside the device: the host's and the pool's (R403: a boot scrubs HBM4 and LP6). Stores
that had not reached it are lost, their bytes free (log 5). -/
def State.outside (s t : State) : State :=
  let u := (s.hostStores ++ s.poolStores.filter (!·.lost)).foldl (fun t p => loseStore p t) s
  let out (a : Nat) : Bool := isHost a || isPool a
  { t with mem := u.mem.filter (fun c => out c.1), poison := u.poison.filter (fun l => out (64 * l)), fresh := u.fresh }

/-- The image checks of R401: the header, the body's digest, the signer's key against the fused digest, the signature over
bytes 0 to 143, the security version. -/
def imageOk (target : Nat) (image : List Byte) (minSvn : BitVec 16) : Bool :=
  bytesAt image 0 4 == 0x4D574653 && bytesAt image 4 2 == target && image.length == 29936 + bytesAt image 8 8 &&
  Config.digest (image.drop 29936) == leVec 512 ((image.drop 16).take 64) &&
  leVec 512 ((image.drop 80).take 64) == Config.fusedKey && Config.imageSigned (image.take 29936) &&
  decide (minSvn.toNat ≤ bytesAt image 6 2)

/-- The image in a target's active bank; none for the one that the device was made with. -/
def FwTarget.image (f : FwTarget) : Option (List Byte) := if f.active then f.imageB else f.imageA

/-- The active image of a target passes its checks at a boot (R403). -/
def imageBoots (s : State) (target : Nat) : Bool :=
  let f := vget s.fw target FwTarget.reset
  match f.image with
  | some img => imageOk target img f.minSvn
  | none => true

/-- The first step of a boot that fails, of those that run; 0 for none (R403): an image that a ROM does not verify, or what
the boot finds. -/
def bootFails (b : Boot) (steps : List Nat) (s : State) : Nat :=
  let bad (n : Nat) : Bool :=
    b.fail == n || (n == 1 && !imageBoots s 0) || (n == 3 && !(imageBoots s 1 && imageBoots s 2))
  (steps.find? bad).getD 0

/-- The links as step 6 leaves them (R403): one that does not train is reported and left down; none trains in a boot that
stops before it (log 106). -/
def bootLinks (b : Boot) (f : Nat) (s : State) : State :=
  let done := f = 0 || f = 7
  let nal := if done then b.links else 0
  let eth := if done then b.eth else 0
  let pool := if done then b.pool else 0
  let s := { s with
    links := Vector.ofFn fun k => { s.links[k] with up := bit nal k.val }
    pools := s.pools.map fun (r : PoolRegion) => { r with lost := r.lost || r.ports &&& pool == 0 }
    eth := Vector.ofFn fun k => { s.eth[k] with up := bit eth k.val }
    poolUp := pool }
  if done && !(nal = 3 && eth = 255 && pool = 15) then raiseDint 2 s else s

/-- What the firmware sets at boot (R393, R399): the domain number, the entries of the peer aperture. -/
def bootDomain (b : Boot) (s : State) : State :=
  { s with domain := b.domain.getD 0, inDomain := b.domain.isSome,
           aperture := (b.aperture.filter fun a => a.1 < 96).map fun a =>
             ⟨a.1, a.2.1, BitVec.ofNat 52 (a.2.2.toNat / 2 ^ 37 * 2 ^ 37)⟩ }

/-- The end of a boot whose failing step is `f` (R403): the error code, or the ready bit with its interrupt (R390). -/
def booted (b : Boot) (f : Nat) (s : State) : State :=
  let s := bootDomain b (bootLinks b f { s with dintstat := 0 })
  let s := { s with power := f = 0 || 3 ≤ f, hostUp := f = 0 || 6 ≤ f, ready := f = 0, bootError := BitVec.ofNat 32 f }
  if f = 0 then raiseDint 4 s else s

/-- What the next boot finds. -/
def State.nextBoot (s : State) : Boot := s.boots.headD Boot.plain

/-- COLD_RESET (R403): the images that wait become active as their targets restart (R401). -/
def execColdReset (s : State) : Host.Outcome State Fault Refusal :=
  let boot := s.nextBoot
  let t := { s.outside (s.kept State.reset) with boots := s.boots.drop 1, fw := vmod s.fw 0 FwTarget.activate, lastReset := 0 }
  let all := { t with fw := vmod (vmod t.fw 1 FwTarget.activate) 2 FwTarget.activate }
  let f := bootFails boot [1, 2, 3, 4, 5, 6, 7] all
  .next (booted boot f (if f = 0 || 3 ≤ f then all else t))

/-- A core after a warm reset (R202, R403): `seqctr` stays. -/
def Core.warm (c : Core) : Core := { Core.reset c.id with seqctr := c.seqctr }

/-- WARM_RESET (R403): memory contents, the code stores, the event log and the counters of R398 stay. -/
def execWarmReset (s : State) : Host.Outcome State Fault Refusal :=
  if !s.power then .next s else
  let boot := s.nextBoot
  let s := s.hostLost
  let t := { s.kept State.reset with
    boots := s.boots.drop 1,
    core := s.core.warm, others := s.others.map Core.warm,
    mem := s.mem, code := s.code, poison := s.poison, codePoison := s.codePoison, log := s.log, lgtail := s.lgtail,
    lghead := s.lghead, lglost := s.lglost, eth := s.eth,
    reqRings := s.reqRings.map fun (r : ReqRing) => { ReqRing.reset with bad := r.bad, full := r.full, wfail := r.wfail },
    fw := vmod (vmod s.fw 1 FwTarget.activate) 2 FwTarget.activate, lastReset := 1, now := s.now, pools := s.pools,
    applied := s.applied, sentSeq := s.sentSeq, peerMem := s.peersKept }
  .next (booted boot (bootFails boot [3, 5, 6, 7] t) t)

/-- POWER_OFF (R400): the main domain holds nothing; what lies outside the device stays. -/
def execPowerOff (s : State) : Host.Outcome State Fault Refusal :=
  .next { bootLinks Boot.plain 1 (s.outside (s.kept State.reset)) with
    power := false, hostUp := false, ready := false, dintstat := 0, lastReset := s.lastReset }

/-- POWER_CAP_SET (R400). -/
def execPowerCapSet (watts : BitVec 16) (s : State) : Host.Outcome State Fault Refusal :=
  .next (if 600 ≤ watts.toNat && watts.toNat ≤ 2200 then { s with powerCap := watts } else s)

/-- A counter of a core as Basoc reads it (R338, R400). -/
def coreCounter (id : BitVec 11) (k : Nat) (s : State) : Option Dword :=
  let c := s.findCore id
  if 11 < k then none
  else if k = 0 || k = 5 then some (Config.cycles s.fresh)
  else if k = 9 then some (s.part c.partid).degraded
  else some (vget c.counters k 0)

/-- What Basoc answers for a sensor (R391, R398, R400): with the main power domain off temperatures and rails alone. What a
sensor of the module shows is a free value. -/
def sensorMsg (x : Sensor) (s : State) : BasocMsg :=
  match x with
  | .thermalOrRail _ => .sensor x (some (Config.sensor s.fresh))
  | .other _ => .sensor x (if s.power then some (Config.sensor s.fresh) else none)
  | .eth p k => .sensor x (if s.power then (vget s.eth p.toNat EthPort.reset).counters[k]? else none)
  | .core id k => .sensor x (if s.power then coreCounter id k s else none)
  | .log n => .logEntry (if s.power && n < 4096 then s.logSlot n else none)

/-- PLDM_SENSOR_READ (R400). -/
def execPldmSensorRead (sensor : Sensor) (s : State) : Host.Outcome State Fault Refusal :=
  .next { s with basoc := s.basoc ++ [sensorMsg sensor s], fresh := s.fresh + 1 }

/-! ## Firmware and attestation (R401, R402) -/

/-- The inactive bank written (R401). -/
def FwTarget.load (image : List Byte) (ok : Bool) (f : FwTarget) : FwTarget :=
  let v : BitVec 16 := BitVec.ofNat 16 (bytesAt image 6 2)
  if f.active then { f with svnA := v, imageA := some image, pending := ok }
  else { f with svnB := v, imageB := some image, pending := ok }

/-- FIRMWARE_UPDATE (R401). -/
def execFirmwareUpdate (target : BitVec 16) (image : List (BitVec 8)) (s : State) : Host.Outcome State Fault Refusal :=
  let t := target.toNat
  if 2 < t then .next { s with basoc := s.basoc ++ [.update target false] } else
  let ok := imageOk t image (vget s.fw t FwTarget.reset).minSvn
  .next { s with fw := vmod s.fw t (FwTarget.load image ok), basoc := s.basoc ++ [.update target ok] }

/-- The digest of a target's active image, header and body. -/
def FwTarget.digest (f : FwTarget) (target : Nat) : BitVec 512 :=
  match f.image with
  | some img => Config.digest img
  | none => Config.madeImage target

/-- The measurements of R402. -/
def measurements (s : State) : List Byte :=
  (s.fw.toList.zipIdx.flatMap fun f => leBytes 64 (f.1.digest f.2).toNat) ++ leBytes 64 s.pageDigest.toNat

/-- SPDM_ATTESTATION (R402): the measurements signed with the identity key, 49,856 bytes. -/
def execSpdmAttestation (nonce : BitVec 256) (s : State) : Host.Outcome State Fault Refusal :=
  .next { s with basoc := s.basoc ++ [.attest Config.identityKey (measurements s)
    ((List.range 49856).map (Config.signatureByte (measurements s) nonce))] }

end Sys2Proof.Machine
end

