-- ==== Sys2Proof/Machine/Csr.lean ====
section
/-! DEFINITION. The CSRs (R33-R39, R76) and the change of bank modes (R210, R211). -/
namespace Sys2Proof.Machine

/-- An assigned CSR address (R33). -/
def csrKnown (csr : BitVec 12) : Bool :=
  let n := csr.toNat
  n ≤ 4 || (0x10 ≤ n && n ≤ 0x18) || (0x20 ≤ n && n ≤ 0x2F)

/-- A CSR that a mode may write (R33). -/
def csrWritable (hm : Bool) (csr : BitVec 12) : Bool :=
  let n := csr.toNat
  (hm && (n = 1 || n = 2 || n = 3)) || n = 4 || n = 0x14 || n = 0x15 || n = 0x16

/-- The value of a CSR (R33). -/
def Core.csr (c : Core) (csr : BitVec 12) : Dword :=
  match csr.toNat with
  | 0x00 => c.status
  | 0x01 => zext c.cause
  | 0x02 => c.epc
  | 0x03 => c.tval
  | 0x04 => zext c.fflg
  | 0x10 => zext c.partid
  | 0x11 => zext c.phase
  | 0x12 => zext c.teamid
  | 0x13 => zext c.teamsz
  | 0x14 => c.seed
  | 0x15 => zext c.iterlim
  | 0x16 => zext c.bankmode
  | 0x17 => c.tkcnt
  | 0x18 => zext c.id
  | _ => (c.tile (csr.extractLsb' 0 4)).tc

/-- The waits and traps of a performed read (R26, R36, R38, R76). -/
def csrReadGate (csr : BitVec 12) : M Unit :=
  match csr.toNat with
  | 0x04 => waitQuiet
  | 0x18 => noDet
  | n => if 0x20 ≤ n then waitTile (csr.extractLsb' 0 4) else pure ()

/-- The contents of a bank and its FIFO word after a change of its code (R211); the waits on barriers in it are released when
it leaves scratchpad or shared mode (R182). -/
def changeBank (id : BitVec 11) (b old new : Nat) (s : State) : State :=
  let plain (m : Nat) : Bool := m = 0 || m = 3
  let s := if plain old && plain new then s else zeroBank id b s
  let s := if plain old && !plain new then releaseWaits false (bankBase id b) 0x20000 s else s
  if new = 2 && old != 2 then { s with core := { s.core with fifo := vmod s.core.fifo b fun _ => 0 } } else s

/-- A bank that leaves scratchpad or shared mode holds a line tagged by another task (R210). -/
def bankTagged (s : State) (w : Who) (b : Nat) : Bool :=
  let lo := 2 ^ 60 + bankBase s.core.id b / 64
  s.tags.any fun (k, t) => lo ≤ k && k < lo + 2048 &&
    (t.manyReaders || t.writer.any (fun x => x.1 != w.task) || t.reader.any (fun x => x.1 != w.task))

/-- A write of `bankmode` (R210): it waits for the queues and for the earlier stores, then every change takes effect in one
step. -/
def writeBankmode (v : BitVec 24) : M Unit := do
  waitQuiet
  waitFar 1
  let s ← get
  let c := s.core
  let changed := (List.range 12).filter fun b => fld v (2 * b) 2 != c.bankMode b
  let leaving (b : Nat) : Bool :=
    (c.bankMode b = 0 || c.bankMode b = 3) && (fld v (2 * b) 2 = 1 || fld v (2 * b) 2 = 2)
  if c.det then needX (!(changed.any fun b => leaving b && bankTagged s (c.who true 0) b)) cConflict
  each changed fun b => modS (changeBank c.id b (c.bankMode b) (fld v (2 * b) 2))
  modC fun c => { c with bankmode := v }

/-- A write of a CSR: only the bits within its width are stored (R76). -/
def csrWrite (csr : BitVec 12) (v : Dword) : M Unit :=
  match csr.toNat with
  | 0x01 => modC fun c => { c with cause := v.setWidth 7 }
  | 0x02 => modC fun c => { c with epc := v }
  | 0x03 => modC fun c => { c with tval := v }
  | 0x04 => do
    waitQuiet
    modC fun c => { c with fflg := v.setWidth 6 }
  | 0x14 => modC fun c => { c with seed := v }
  | 0x15 => modC fun c => { c with iterlim := if v.setWidth 8 = (0 : BitVec 8) then 1 else v.setWidth 8 }
  | 0x16 => writeBankmode (v.setWidth 24)
  | _ => pure ()

/-- A CSR instruction (R76): the checks, the read where it is performed, the write where it is attempted. -/
def csrOp (i : Instr) (d : Reg) (csr : BitVec 12) (reads writes : Bool) (new : Dword → Core → Dword) : M Flow := do
  let c ← getC
  if !csrKnown csr || (writes && !csrWritable c.hm csr) then illegal i
  if reads then csrReadGate csr
  let old := c.csr csr
  if writes then csrWrite csr (new old c)
  if reads then wG d old
  return .next

/-- `csrrw` (R76). -/
def execCsrrw (d a : Reg) (csr : BitVec 12) (s : State) : Host.Outcome State Fault Refusal :=
  runSeq 4 (csrOp (.csrrw d a csr) d csr (d != 0) true fun _ c => c.rg a) s
/-- `csrrs` (R76). -/
def execCsrrs (d a : Reg) (csr : BitVec 12) (s : State) : Host.Outcome State Fault Refusal :=
  runSeq 4 (csrOp (.csrrs d a csr) d csr true (a != 0) fun old c => old ||| c.rg a) s
/-- `csrrc` (R76). -/
def execCsrrc (d a : Reg) (csr : BitVec 12) (s : State) : Host.Outcome State Fault Refusal :=
  runSeq 4 (csrOp (.csrrc d a csr) d csr true (a != 0) fun old c => old &&& ~~~ c.rg a) s
/-- `csrrwi`: field a is a 5-bit immediate (R76). -/
def execCsrrwi (d u : Reg) (csr : BitVec 12) (s : State) : Host.Outcome State Fault Refusal :=
  runSeq 4 (csrOp (.csrrwi d u csr) d csr (d != 0) true fun _ _ => zext u) s

end Sys2Proof.Machine
end

