-- ==== Sys2Proof/Machine/Fp.lean ====
section
/-! DEFINITION. Binary32 arithmetic (R70-R72). -/
namespace Sys2Proof.Machine

/-- `fadd` (R71). -/
def execFadd (d a b : Reg) (s : State) : Host.Outcome State Fault Refusal :=
  runSeq 4 (resultF d fun c => fpRes (fp32Add (lo32 (c.rg a)) (lo32 (c.rg b)))) s

/-- `fsub` (R71). -/
def execFsub (d a b : Reg) (s : State) : Host.Outcome State Fault Refusal :=
  runSeq 4 (resultF d fun c => fpRes (fp32Sub (lo32 (c.rg a)) (lo32 (c.rg b)))) s

/-- `fmul` (R71). -/
def execFmul (d a b : Reg) (s : State) : Host.Outcome State Fault Refusal :=
  runSeq 4 (resultF d fun c => fpRes (fp32Mul (lo32 (c.rg a)) (lo32 (c.rg b)))) s

/-- `fdiv` (R71). -/
def execFdiv (d a b : Reg) (s : State) : Host.Outcome State Fault Refusal :=
  runSeq 4 (resultF d fun c => fpRes (fp32Div (lo32 (c.rg a)) (lo32 (c.rg b)))) s

/-- `fsqrt` (R71). -/
def execFsqrt (d a : Reg) (s : State) : Host.Outcome State Fault Refusal :=
  runSeq 4 (resultF d fun c => fpRes (fp32Sqrt (lo32 (c.rg a)))) s

/-- `fmin` (R71). -/
def execFmin (d a b : Reg) (s : State) : Host.Outcome State Fault Refusal :=
  runSeq 4 (resultF d fun c => fpRes (fp32MinMax false (lo32 (c.rg a)) (lo32 (c.rg b)))) s

/-- `fmax` (R71). -/
def execFmax (d a b : Reg) (s : State) : Host.Outcome State Fault Refusal :=
  runSeq 4 (resultF d fun c => fpRes (fp32MinMax true (lo32 (c.rg a)) (lo32 (c.rg b)))) s

/-- `fcmp` (R72). -/
def execFcmp (d a b : Reg) (s : State) : Host.Outcome State Fault Refusal :=
  runSeq 4 (resultF d fun c => let r := fp32Cmp (lo32 (c.rg a)) (lo32 (c.rg b)); (dw r.1, r.2)) s

/-- `f2i` (R72). -/
def execF2i (d a : Reg) (s : State) : Host.Outcome State Fault Refusal :=
  runSeq 4 (resultF d fun c => fp32ToI64 (lo32 (c.rg a))) s

/-- `i2f` (R71). -/
def execI2f (d a : Reg) (s : State) : Host.Outcome State Fault Refusal :=
  runSeq 4 (resultF d fun c => fpRes (i64ToFp32 (c.rg a))) s

end Sys2Proof.Machine
end

