-- ==== Sys2Proof/Machine/Integer.lean ====
section
/-! DEFINITION. Integer arithmetic and long immediates (R66-R69). -/
namespace Sys2Proof.Machine

/-- `add` (R66). -/
def execAdd (d a b : Reg) (s : State) : Host.Outcome State Fault Refusal :=
  runSeq 4 (result d fun c => c.rg a + c.rg b) s

/-- `sub` (R66). -/
def execSub (d a b : Reg) (s : State) : Host.Outcome State Fault Refusal :=
  runSeq 4 (result d fun c => c.rg a - c.rg b) s

/-- `and` (R66). -/
def execAnd (d a b : Reg) (s : State) : Host.Outcome State Fault Refusal :=
  runSeq 4 (result d fun c => c.rg a &&& c.rg b) s

/-- `or` (R66). -/
def execOr (d a b : Reg) (s : State) : Host.Outcome State Fault Refusal :=
  runSeq 4 (result d fun c => c.rg a ||| c.rg b) s

/-- `xor` (R66). -/
def execXor (d a b : Reg) (s : State) : Host.Outcome State Fault Refusal :=
  runSeq 4 (result d fun c => c.rg a ^^^ c.rg b) s

/-- `sll`: by b<5:0> (R66). -/
def execSll (d a b : Reg) (s : State) : Host.Outcome State Fault Refusal :=
  runSeq 4 (result d fun c => c.rg a <<< fld (c.rg b) 0 6) s

/-- `srl`: by b<5:0> (R66). -/
def execSrl (d a b : Reg) (s : State) : Host.Outcome State Fault Refusal :=
  runSeq 4 (result d fun c => c.rg a >>> fld (c.rg b) 0 6) s

/-- `sra`: by b<5:0> (R66). -/
def execSra (d a b : Reg) (s : State) : Host.Outcome State Fault Refusal :=
  runSeq 4 (result d fun c => (c.rg a).sshiftRight (fld (c.rg b) 0 6)) s

/-- `slt` (R66). -/
def execSlt (d a b : Reg) (s : State) : Host.Outcome State Fault Refusal :=
  runSeq 4 (result d fun c => ofBool (ltS (c.rg a) (c.rg b))) s

/-- `sltu` (R66). -/
def execSltu (d a b : Reg) (s : State) : Host.Outcome State Fault Refusal :=
  runSeq 4 (result d fun c => ofBool (ltU (c.rg a) (c.rg b))) s

/-- `mul` (R66). -/
def execMul (d a b : Reg) (s : State) : Host.Outcome State Fault Refusal :=
  runSeq 4 (result d fun c => c.rg a * c.rg b) s

/-- `mulh` (R66). -/
def execMulh (d a b : Reg) (s : State) : Host.Outcome State Fault Refusal :=
  runSeq 4 (result d fun c => mulHighS (c.rg a) (c.rg b)) s

/-- `mulhu` (R66). -/
def execMulhu (d a b : Reg) (s : State) : Host.Outcome State Fault Refusal :=
  runSeq 4 (result d fun c => mulHighU (c.rg a) (c.rg b)) s

/-- `div` (R67). -/
def execDiv (d a b : Reg) (s : State) : Host.Outcome State Fault Refusal :=
  runSeq 4 (resultF d fun c => divS (c.rg a) (c.rg b)) s

/-- `divu` (R67). -/
def execDivu (d a b : Reg) (s : State) : Host.Outcome State Fault Refusal :=
  runSeq 4 (resultF d fun c => divU (c.rg a) (c.rg b)) s

/-- `rem` (R67). -/
def execRem (d a b : Reg) (s : State) : Host.Outcome State Fault Refusal :=
  runSeq 4 (resultF d fun c => remS (c.rg a) (c.rg b)) s

/-- `remu` (R67). -/
def execRemu (d a b : Reg) (s : State) : Host.Outcome State Fault Refusal :=
  runSeq 4 (resultF d fun c => remU (c.rg a) (c.rg b)) s

/-- `min` (R66). -/
def execMin (d a b : Reg) (s : State) : Host.Outcome State Fault Refusal :=
  runSeq 4 (result d fun c => if ltS (c.rg b) (c.rg a) then c.rg b else c.rg a) s

/-- `max` (R66). -/
def execMax (d a b : Reg) (s : State) : Host.Outcome State Fault Refusal :=
  runSeq 4 (result d fun c => if ltS (c.rg a) (c.rg b) then c.rg b else c.rg a) s

/-- `minu` (R66). -/
def execMinu (d a b : Reg) (s : State) : Host.Outcome State Fault Refusal :=
  runSeq 4 (result d fun c => if ltU (c.rg b) (c.rg a) then c.rg b else c.rg a) s

/-- `maxu` (R66). -/
def execMaxu (d a b : Reg) (s : State) : Host.Outcome State Fault Refusal :=
  runSeq 4 (result d fun c => if ltU (c.rg a) (c.rg b) then c.rg b else c.rg a) s

/-- `clz` (R66). -/
def execClz (d a : Reg) (s : State) : Host.Outcome State Fault Refusal :=
  runSeq 4 (result d fun c => dw (clz64 (c.rg a))) s

/-- `ctz` (R66). -/
def execCtz (d a : Reg) (s : State) : Host.Outcome State Fault Refusal :=
  runSeq 4 (result d fun c => dw (ctz64 (c.rg a))) s

/-- `popc` (R66). -/
def execPopc (d a : Reg) (s : State) : Host.Outcome State Fault Refusal :=
  runSeq 4 (result d fun c => dw (popNat 64 (c.rg a).toNat)) s

/-- `sxb` (R66). -/
def execSxb (d a : Reg) (s : State) : Host.Outcome State Fault Refusal :=
  runSeq 4 (result d fun c => sext ((c.rg a).setWidth 8)) s

/-- `sxh` (R66). -/
def execSxh (d a : Reg) (s : State) : Host.Outcome State Fault Refusal :=
  runSeq 4 (result d fun c => sext ((c.rg a).setWidth 16)) s

/-- `sxw` (R66). -/
def execSxw (d a : Reg) (s : State) : Host.Outcome State Fault Refusal :=
  runSeq 4 (result d fun c => sext ((c.rg a).setWidth 32)) s

/-- `addi` (R68). -/
def execAddi (d a : Reg) (imm : BitVec 12) (s : State) : Host.Outcome State Fault Refusal :=
  runSeq 4 (result d fun c => c.rg a + sext imm) s

/-- `andi` (R68). -/
def execAndi (d a : Reg) (imm : BitVec 12) (s : State) : Host.Outcome State Fault Refusal :=
  runSeq 4 (result d fun c => c.rg a &&& sext imm) s

/-- `ori` (R68). -/
def execOri (d a : Reg) (imm : BitVec 12) (s : State) : Host.Outcome State Fault Refusal :=
  runSeq 4 (result d fun c => c.rg a ||| sext imm) s

/-- `xori` (R68). -/
def execXori (d a : Reg) (imm : BitVec 12) (s : State) : Host.Outcome State Fault Refusal :=
  runSeq 4 (result d fun c => c.rg a ^^^ sext imm) s

/-- `slli` (R68). -/
def execSlli (d a : Reg) (sh : BitVec 6) (s : State) : Host.Outcome State Fault Refusal :=
  runSeq 4 (result d fun c => c.rg a <<< sh.toNat) s

/-- `srli` (R68). -/
def execSrli (d a : Reg) (sh : BitVec 6) (s : State) : Host.Outcome State Fault Refusal :=
  runSeq 4 (result d fun c => c.rg a >>> sh.toNat) s

/-- `srai` (R68). -/
def execSrai (d a : Reg) (sh : BitVec 6) (s : State) : Host.Outcome State Fault Refusal :=
  runSeq 4 (result d fun c => (c.rg a).sshiftRight sh.toNat) s

/-- `slti` (R68). -/
def execSlti (d a : Reg) (imm : BitVec 12) (s : State) : Host.Outcome State Fault Refusal :=
  runSeq 4 (result d fun c => ofBool (ltS (c.rg a) (sext imm))) s

/-- `sltiu` (R68). -/
def execSltiu (d a : Reg) (imm : BitVec 12) (s : State) : Host.Outcome State Fault Refusal :=
  runSeq 4 (result d fun c => ofBool (ltU (c.rg a) (sext imm))) s

/-- `li` (R69). -/
def execLi (d : Reg) (x : BitVec 32) (s : State) : Host.Outcome State Fault Refusal :=
  runSeq 8 (result d fun _ => sext x) s

/-- `lih`: bits 31:0 of d stay (R69). -/
def execLih (d : Reg) (x : BitVec 32) (s : State) : Host.Outcome State Fault Refusal :=
  runSeq 8 (result d fun c => x ++ (c.rg d).setWidth 32) s

end Sys2Proof.Machine
end

