-- ==== Sys2Proof/Machine/Routed.lean ====
section
/-! DEFINITION. The words that go to the queues (R14, R48, R180): each is routed; its performer is named in `perform`. The Y
words run in the sequencer when their agent field is 0. -/
namespace Sys2Proof.Machine

open Host (Outcome)

/-- `ld.t` (R160): routed. -/
def execLdT (tok : Tok) (st : BitVec 5) (tile : BitVec 4) (s : State) : Outcome State Fault Refusal :=
  routed (.ldT tok st tile) s

/-- `ld.a` (R16): routed. -/
def execLdA (tok : Tok) (st : BitVec 5) (acc : BitVec 2) (s : State) : Outcome State Fault Refusal :=
  routed (.ldA tok st acc) s

/-- `ld.ti` (R161): routed. -/
def execLdTi (tok : Tok) (st : BitVec 5) (tile : BitVec 4) (idx : BitVec 4) (s : State) : Outcome State Fault Refusal :=
  routed (.ldTi tok st tile idx) s

/-- `ld.ff` (R162): routed. -/
def execLdFf (tok : Tok) (st : BitVec 5) (tile : BitVec 4) (s : State) : Outcome State Fault Refusal :=
  routed (.ldFf tok st tile) s

/-- `bmand` (R258): routed. -/
def execBmand (tok : Tok) (st : BitVec 5) (tile : BitVec 4) (rank : BitVec 4) (s : State) : Outcome State Fault Refusal :=
  routed (.bmand tok st tile rank) s

/-- `bmpfx` (R258): routed. -/
def execBmpfx (tok : Tok) (st : BitVec 5) (tile : BitVec 4) (s : State) : Outcome State Fault Refusal :=
  routed (.bmpfx tok st tile) s

/-- `isx.g` (R258): routed. -/
def execIsxG (tok : Tok) (st : BitVec 5) (tile : BitVec 4) (idx : BitVec 4) (s : State) : Outcome State Fault Refusal :=
  routed (.isxG tok st tile idx) s

/-- `mma`, tile × tile (R97): routed. -/
def execMmaTileTile (tok : Tok) (acc : BitVec 2) (ta : BitVec 4) (tb : BitVec 4) (zf : Bool) (fmt : BitVec 5) (s : State) : Outcome State Fault Refusal :=
  routed (.mmaTileTile tok acc ta tb zf fmt) s

/-- `mma`, pattern in A (R97): routed. -/
def execMmaPatternA (tok : Tok) (acc : BitVec 2) (tb : BitVec 4) (pat : BitVec 3) (zf : Bool) (fmt : BitVec 5) (s : State) : Outcome State Fault Refusal :=
  routed (.mmaPatternA tok acc tb pat zf fmt) s

/-- `mma`, pattern in B (R97): routed. -/
def execMmaPatternB (tok : Tok) (acc : BitVec 2) (ta : BitVec 4) (pat : BitVec 3) (zf : Bool) (fmt : BitVec 5) (s : State) : Outcome State Fault Refusal :=
  routed (.mmaPatternB tok acc ta pat zf fmt) s

/-- `cmpa` (R101): routed. -/
def execCmpa (tok : Tok) (acc : BitVec 2) (ta : BitVec 4) (fmt : BitVec 5) (s : State) : Outcome State Fault Refusal :=
  routed (.cmpa tok acc ta fmt) s

/-- `acz` (R102): routed. -/
def execAcz (tok : Tok) (acc : BitVec 2) (s : State) : Outcome State Fault Refusal :=
  routed (.acz tok acc) s

/-- `tsm` (R105): routed. -/
def execTsm (tok : Tok) (s : State) : Outcome State Fault Refusal :=
  routed (.tsm tok) s

/-- `st.t` (R160): routed. -/
def execStT (tok : Tok) (st : BitVec 5) (tile : BitVec 4) (s : State) : Outcome State Fault Refusal :=
  routed (.stT tok st tile) s

/-- `st.ti` (R161): routed. -/
def execStTi (tok : Tok) (st : BitVec 5) (tile : BitVec 4) (idx : BitVec 4) (s : State) : Outcome State Fault Refusal :=
  routed (.stTi tok st tile idx) s

/-- `st.ff` (R162): routed. -/
def execStFf (tok : Tok) (st : BitVec 5) (tile : BitVec 4) (s : State) : Outcome State Fault Refusal :=
  routed (.stFf tok st tile) s

/-- `st.z` (R163): routed. -/
def execStZ (tok : Tok) (st : BitVec 5) (s : State) : Outcome State Fault Refusal :=
  routed (.stZ tok st) s

/-- `st.a` (R103): routed. -/
def execStA (tok : Tok) (st : BitVec 5) (acc : BitVec 2) (s : State) : Outcome State Fault Refusal :=
  routed (.stA tok st acc) s

/-- `drn` (R114): routed. -/
def execDrn (tok : Tok) (st : BitVec 5) (acc : BitVec 2) (fmt : BitVec 5) (s : State) : Outcome State Fault Refusal :=
  routed (.drn tok st acc fmt) s

/-- `drn.t` (R115): routed. -/
def execDrnT (tok : Tok) (tile : BitVec 4) (acc : BitVec 2) (fmt : BitVec 5) (s : State) : Outcome State Fault Refusal :=
  routed (.drnT tok tile acc fmt) s

/-- `dcfg.sc` (R107): routed. -/
def execDcfgSc (tok : Tok) (st : BitVec 5) (acc : BitVec 2) (col : Bool) (s : State) : Outcome State Fault Refusal :=
  routed (.dcfgSc tok st acc col) s

/-- `dcfg.bi` (R107): routed. -/
def execDcfgBi (tok : Tok) (st : BitVec 5) (acc : BitVec 2) (col : Bool) (s : State) : Outcome State Fault Refusal :=
  routed (.dcfgBi tok st acc col) s

/-- `dcfg.fn` (R109): routed. -/
def execDcfgFn (tok : Tok) (st : BitVec 5) (acc : BitVec 2) (s : State) : Outcome State Fault Refusal :=
  routed (.dcfgFn tok st acc) s

/-- `dcfg.cl` (R107): routed. -/
def execDcfgCl (tok : Tok) (acc : BitVec 2) (b : BitVec 5) (s : State) : Outcome State Fault Refusal :=
  routed (.dcfgCl tok acc b) s

/-- `dcfg.rm` (R108): routed. -/
def execDcfgRm (tok : Tok) (acc : BitVec 2) (b : BitVec 5) (s : State) : Outcome State Fault Refusal :=
  routed (.dcfgRm tok acc b) s

/-- `srs.seed` (R286): routed. -/
def execSrsSeed (tok : Tok) (b : BitVec 5) (s : State) : Outcome State Fault Refusal :=
  routed (.srsSeed tok b) s

/-- `upd` (R202): routed. -/
def execUpd (tok : Tok) (key : BitVec 4) (tile : BitVec 4) (rg : BitVec 5) (sc : BitVec 3) (s : State) : Outcome State Fault Refusal :=
  routed (.upd tok key tile rg sc) s

/-- A Y word (R180): in the sequencer its operation is performed, else it is routed. -/
def yWord (q : BitVec 2) (i : Instr) (m : Core → M Unit) (s : State) : Outcome State Fault Refusal :=
  if q = 0 then runSeq 4 (do m (← getC); return .next) s else routed i s

/-- A Y word that may wait on an object (R180, R182, R183): the operation takes the agent, 0 for the sequencer. -/
def yWait (q : BitVec 2) (i : Instr) (m : Core → M Waits) (s : State) : Outcome State Fault Refusal :=
  if q = 0 then runSeq 4 (do (← m (← getC)).flow) s else routed i s

/-- `bar.init` (R127, R180). -/
def execBarInit (tok : Tok) (q : BitVec 2) (a : BitVec 5) (b : BitVec 5) (sc : BitVec 3) (s : State) : Outcome State Fault Refusal :=
  yWord q (.barInit tok q a b sc) (fun c => barInitOp (c.rg a) (c.rg b)) s

/-- `bar.exp` (R127, R180). -/
def execBarExp (tok : Tok) (q : BitVec 2) (a : BitVec 5) (b : BitVec 5) (sc : BitVec 3) (s : State) : Outcome State Fault Refusal :=
  yWord q (.barExp tok q a b sc) (fun c => barExpOp (c.rg a) (c.rg b) sc) s

/-- `bar.arr` (R127, R180). -/
def execBarArr (tok : Tok) (q : BitVec 2) (a : BitVec 5) (sc : BitVec 3) (s : State) : Outcome State Fault Refusal :=
  yWord q (.barArr tok q a sc) (fun c => barArrOp (c.rg a) sc) s

/-- `bar.wait` (R127, R180). -/
def execBarWait (tok : Tok) (q : BitVec 2) (a : BitVec 5) (b : BitVec 5) (sc : BitVec 3) (s : State) : Outcome State Fault Refusal :=
  yWait q (.barWait tok q a b sc) (fun c => barWaitOp 0 (c.rg a) (c.rg b)) s

/-- `ring.fill` (R185, R180). -/
def execRingFill (tok : Tok) (q : BitVec 2) (a : BitVec 5) (b : BitVec 5) (sc : BitVec 3) (s : State) : Outcome State Fault Refusal :=
  yWord q (.ringFill tok q a b sc) (fun c => ringFillOp (c.rg a) (c.rg b) sc) s

/-- `ring.rel` (R185, R180). -/
def execRingRel (tok : Tok) (q : BitVec 2) (a : BitVec 5) (b : BitVec 5) (sc : BitVec 3) (s : State) : Outcome State Fault Refusal :=
  yWord q (.ringRel tok q a b sc) (fun c => ringRelOp (c.rg a) (c.rg b) sc) s

/-- `ring.wf` (R185, R180). -/
def execRingWf (tok : Tok) (q : BitVec 2) (a : BitVec 5) (b : BitVec 5) (sc : BitVec 3) (s : State) : Outcome State Fault Refusal :=
  yWait q (.ringWf tok q a b sc) (fun c => ringWfOp 0 (c.rg a) (c.rg b)) s

/-- `ring.we` (R185, R180). -/
def execRingWe (tok : Tok) (q : BitVec 2) (a : BitVec 5) (b : BitVec 5) (sc : BitVec 3) (s : State) : Outcome State Fault Refusal :=
  yWait q (.ringWe tok q a b sc) (fun c => ringWeOp 0 (c.rg a) (c.rg b)) s

/-- `evq.post` (R190, R180). -/
def execEvqPost (tok : Tok) (q : BitVec 2) (a : BitVec 5) (b : BitVec 5) (sc : BitVec 3) (s : State) : Outcome State Fault Refusal :=
  yWord q (.evqPost tok q a b sc) (fun c => evqPostOp (c.rg a) (c.rg b) sc) s

/-- `join.dec` (R132, R180): it waits, the count unchanged, while its push cannot be made. -/
def execJoinDec (tok : Tok) (q : BitVec 2) (a : BitVec 5) (sc : BitVec 3) (s : State) : Outcome State Fault Refusal :=
  yWait q (.joinDec tok q a sc) (fun c => joinDecOp 0 (c.rg a) sc) s

/-- `ring.cl` (R185). -/
def execRingCl (a : BitVec 5) (b : BitVec 5) (_sc : BitVec 3) (s : State) : Outcome State Fault Refusal :=
  runSeq 4 (ringClOp a b) s

/-- `ring.take` (R185). -/
def execRingTake (a : BitVec 5) (b : BitVec 5) (_sc : BitVec 3) (s : State) : Outcome State Fault Refusal :=
  runSeq 4 (ringTakeOp a b) s

/-- `evq.pop` (R189). -/
def execEvqPop (a : BitVec 5) (_sc : BitVec 3) (s : State) : Outcome State Fault Refusal :=
  runSeq 4 (evqPopOp a) s

/-- `join.init` (R192). -/
def execJoinInit (a : BitVec 5) (b : BitVec 5) (sc : BitVec 3) (s : State) : Outcome State Fault Refusal :=
  runSeq 4 (joinInitOp a b sc) s

/-- `cq.push` (R141). -/
def execCqPush (a : BitVec 5) (b : BitVec 5) (sc : BitVec 3) (s : State) : Outcome State Fault Refusal :=
  runSeq 4 (cqPushOp a b sc) s

/-- `spawn` (R191). -/
def execSpawn (a : BitVec 5) (b : BitVec 5) (sc : BitVec 3) (s : State) : Outcome State Fault Refusal :=
  runSeq 4 (spawnOp a b sc) s

end Sys2Proof.Machine
end

