-- ==== Sys2Proof/Machine/Dispatch.lean ====
section
/-! DEFINITION. The dispatch of every instruction to its meaning. -/
namespace Sys2Proof.Machine

/-- The outcome of an instruction. -/
def exec (i : Instr) (s : State) : Host.Outcome State Fault Refusal :=
  match i with
  | .add d a b => Sys2Proof.Machine.execAdd d a b s
  | .sub d a b => Sys2Proof.Machine.execSub d a b s
  | .and d a b => Sys2Proof.Machine.execAnd d a b s
  | .or d a b => Sys2Proof.Machine.execOr d a b s
  | .xor d a b => Sys2Proof.Machine.execXor d a b s
  | .sll d a b => Sys2Proof.Machine.execSll d a b s
  | .srl d a b => Sys2Proof.Machine.execSrl d a b s
  | .sra d a b => Sys2Proof.Machine.execSra d a b s
  | .slt d a b => Sys2Proof.Machine.execSlt d a b s
  | .sltu d a b => Sys2Proof.Machine.execSltu d a b s
  | .mul d a b => Sys2Proof.Machine.execMul d a b s
  | .mulh d a b => Sys2Proof.Machine.execMulh d a b s
  | .mulhu d a b => Sys2Proof.Machine.execMulhu d a b s
  | .div d a b => Sys2Proof.Machine.execDiv d a b s
  | .divu d a b => Sys2Proof.Machine.execDivu d a b s
  | .rem d a b => Sys2Proof.Machine.execRem d a b s
  | .remu d a b => Sys2Proof.Machine.execRemu d a b s
  | .min d a b => Sys2Proof.Machine.execMin d a b s
  | .max d a b => Sys2Proof.Machine.execMax d a b s
  | .minu d a b => Sys2Proof.Machine.execMinu d a b s
  | .maxu d a b => Sys2Proof.Machine.execMaxu d a b s
  | .clz d a => Sys2Proof.Machine.execClz d a s
  | .ctz d a => Sys2Proof.Machine.execCtz d a s
  | .popc d a => Sys2Proof.Machine.execPopc d a s
  | .sxb d a => Sys2Proof.Machine.execSxb d a s
  | .sxh d a => Sys2Proof.Machine.execSxh d a s
  | .sxw d a => Sys2Proof.Machine.execSxw d a s
  | .addi d a imm => Sys2Proof.Machine.execAddi d a imm s
  | .andi d a imm => Sys2Proof.Machine.execAndi d a imm s
  | .ori d a imm => Sys2Proof.Machine.execOri d a imm s
  | .xori d a imm => Sys2Proof.Machine.execXori d a imm s
  | .slli d a sh => Sys2Proof.Machine.execSlli d a sh s
  | .srli d a sh => Sys2Proof.Machine.execSrli d a sh s
  | .srai d a sh => Sys2Proof.Machine.execSrai d a sh s
  | .slti d a imm => Sys2Proof.Machine.execSlti d a imm s
  | .sltiu d a imm => Sys2Proof.Machine.execSltiu d a imm s
  | .li d x => Sys2Proof.Machine.execLi d x s
  | .lih d x => Sys2Proof.Machine.execLih d x s
  | .fadd d a b => Sys2Proof.Machine.execFadd d a b s
  | .fsub d a b => Sys2Proof.Machine.execFsub d a b s
  | .fmul d a b => Sys2Proof.Machine.execFmul d a b s
  | .fdiv d a b => Sys2Proof.Machine.execFdiv d a b s
  | .fsqrt d a => Sys2Proof.Machine.execFsqrt d a s
  | .fmin d a b => Sys2Proof.Machine.execFmin d a b s
  | .fmax d a b => Sys2Proof.Machine.execFmax d a b s
  | .fcmp d a b => Sys2Proof.Machine.execFcmp d a b s
  | .f2i d a => Sys2Proof.Machine.execF2i d a s
  | .i2f d a => Sys2Proof.Machine.execI2f d a s
  | .beq a b off => Sys2Proof.Machine.execBeq a b off s
  | .bne a b off => Sys2Proof.Machine.execBne a b off s
  | .blt a b off => Sys2Proof.Machine.execBlt a b off s
  | .bge a b off => Sys2Proof.Machine.execBge a b off s
  | .bltu a b off => Sys2Proof.Machine.execBltu a b off s
  | .bgeu a b off => Sys2Proof.Machine.execBgeu a b off s
  | .j off => Sys2Proof.Machine.execJ off s
  | .jal off => Sys2Proof.Machine.execJal off s
  | .jalr d a => Sys2Proof.Machine.execJalr d a s
  | .jt a b => Sys2Proof.Machine.execJt a b s
  | .csrrw d a csr => Sys2Proof.Machine.execCsrrw d a csr s
  | .csrrs d a csr => Sys2Proof.Machine.execCsrrs d a csr s
  | .csrrc d a csr => Sys2Proof.Machine.execCsrrc d a csr s
  | .csrrwi d u csr => Sys2Proof.Machine.execCsrrwi d u csr s
  | .ldB sc loc d a x => Sys2Proof.Machine.execLdB sc loc d a x s
  | .ldH sc loc d a x => Sys2Proof.Machine.execLdH sc loc d a x s
  | .ldW sc loc d a x => Sys2Proof.Machine.execLdW sc loc d a x s
  | .ldD sc loc d a x => Sys2Proof.Machine.execLdD sc loc d a x s
  | .ldBu sc loc d a x => Sys2Proof.Machine.execLdBu sc loc d a x s
  | .ldHu sc loc d a x => Sys2Proof.Machine.execLdHu sc loc d a x s
  | .ldWu sc loc d a x => Sys2Proof.Machine.execLdWu sc loc d a x s
  | .sld sc loc d a x => Sys2Proof.Machine.execSld sc loc d a x s
  | .stB sc loc a b x => Sys2Proof.Machine.execStB sc loc a b x s
  | .stH sc loc a b x => Sys2Proof.Machine.execStH sc loc a b x s
  | .stW sc loc a b x => Sys2Proof.Machine.execStW sc loc a b x s
  | .stD sc loc a b x => Sys2Proof.Machine.execStD sc loc a b x s
  | .amoAdd sc d a b x => Sys2Proof.Machine.execAmoAdd sc d a b x s
  | .amoSwap sc d a b x => Sys2Proof.Machine.execAmoSwap sc d a b x s
  | .amoCas sc d a b x => Sys2Proof.Machine.execAmoCas sc d a b x s
  | .amoFadd sc d a b x => Sys2Proof.Machine.execAmoFadd sc d a b x s
  | .tshape d tile b => Sys2Proof.Machine.execTshape d tile b s
  | .pset pat a => Sys2Proof.Machine.execPset pat a s
  | .pget d pat => Sys2Proof.Machine.execPget d pat s
  | .fence sc => Sys2Proof.Machine.execFence sc s
  | .monArm a sc => Sys2Proof.Machine.execMonArm a sc s
  | .monWait d a => Sys2Proof.Machine.execMonWait d a s
  | .prbR a b => Sys2Proof.Machine.execPrbR a b s
  | .prbW a b => Sys2Proof.Machine.execPrbW a b s
  | .prbRel a b => Sys2Proof.Machine.execPrbRel a b s
  | .lptLd a => Sys2Proof.Machine.execLptLd a s
  | .lptNx d a => Sys2Proof.Machine.execLptNx d a s
  | .lptIx d a => Sys2Proof.Machine.execLptIx d a s
  | .smpCoarse a b sc => Sys2Proof.Machine.execSmpCoarse a b sc s
  | .smpThr d a sc => Sys2Proof.Machine.execSmpThr d a sc s
  | .smpDraw d a b sc => Sys2Proof.Machine.execSmpDraw d a b sc s
  | .specChk d a b sc => Sys2Proof.Machine.execSpecChk d a b sc s
  | .fragSel d a sc => Sys2Proof.Machine.execFragSel d a sc s
  | .tblSwap a b sc => Sys2Proof.Machine.execTblSwap a b sc s
  | .embPf a b sc => Sys2Proof.Machine.execEmbPf a b sc s
  | .moeCmb a b sc => Sys2Proof.Machine.execMoeCmb a b sc s
  | .exsLd a b sc => Sys2Proof.Machine.execExsLd a b sc s
  | .exsCnt d a sc => Sys2Proof.Machine.execExsCnt d a sc s
  | .exsAge a sc => Sys2Proof.Machine.execExsAge a sc s
  | .netRx d a sc => Sys2Proof.Machine.execNetRx d a sc s
  | .netTx a b sc => Sys2Proof.Machine.execNetTx a b sc s
  | .tokSub a b sc => Sys2Proof.Machine.execTokSub a b sc s
  | .tokRes d a sc => Sys2Proof.Machine.execTokRes d a sc s
  | .dtkSub a b sc => Sys2Proof.Machine.execDtkSub a b sc s
  | .dtkRes d a sc => Sys2Proof.Machine.execDtkRes d a sc s
  | .vocSwap a b sc => Sys2Proof.Machine.execVocSwap a b sc s
  | .updS a b sc => Sys2Proof.Machine.execUpdS a b sc s
  | .updRgn a sc => Sys2Proof.Machine.execUpdRgn a sc s
  | .updFlags d a sc => Sys2Proof.Machine.execUpdFlags d a sc s
  | .updDrain a sc => Sys2Proof.Machine.execUpdDrain a sc s
  | .cpGo a b sc => Sys2Proof.Machine.execCpGo a b sc s
  | .cpId d a => Sys2Proof.Machine.execCpId d a s
  | .cpWait a b sc => Sys2Proof.Machine.execCpWait a b sc s
  | .cpAbort a sc => Sys2Proof.Machine.execCpAbort a sc s
  | .ldT tok st tile => Sys2Proof.Machine.execLdT tok st tile s
  | .ldA tok st acc => Sys2Proof.Machine.execLdA tok st acc s
  | .ldTi tok st tile idx => Sys2Proof.Machine.execLdTi tok st tile idx s
  | .ldFf tok st tile => Sys2Proof.Machine.execLdFf tok st tile s
  | .bmand tok st tile rank => Sys2Proof.Machine.execBmand tok st tile rank s
  | .bmpfx tok st tile => Sys2Proof.Machine.execBmpfx tok st tile s
  | .isxG tok st tile idx => Sys2Proof.Machine.execIsxG tok st tile idx s
  | .mmaTileTile tok acc ta tb zf fmt => Sys2Proof.Machine.execMmaTileTile tok acc ta tb zf fmt s
  | .mmaPatternA tok acc tb pat zf fmt => Sys2Proof.Machine.execMmaPatternA tok acc tb pat zf fmt s
  | .mmaPatternB tok acc ta pat zf fmt => Sys2Proof.Machine.execMmaPatternB tok acc ta pat zf fmt s
  | .cmpa tok acc ta fmt => Sys2Proof.Machine.execCmpa tok acc ta fmt s
  | .acz tok acc => Sys2Proof.Machine.execAcz tok acc s
  | .tsm tok => Sys2Proof.Machine.execTsm tok s
  | .stT tok st tile => Sys2Proof.Machine.execStT tok st tile s
  | .stTi tok st tile idx => Sys2Proof.Machine.execStTi tok st tile idx s
  | .stFf tok st tile => Sys2Proof.Machine.execStFf tok st tile s
  | .stZ tok st => Sys2Proof.Machine.execStZ tok st s
  | .stA tok st acc => Sys2Proof.Machine.execStA tok st acc s
  | .drn tok st acc fmt => Sys2Proof.Machine.execDrn tok st acc fmt s
  | .drnT tok tile acc fmt => Sys2Proof.Machine.execDrnT tok tile acc fmt s
  | .dcfgSc tok st acc col => Sys2Proof.Machine.execDcfgSc tok st acc col s
  | .dcfgBi tok st acc col => Sys2Proof.Machine.execDcfgBi tok st acc col s
  | .dcfgFn tok st acc => Sys2Proof.Machine.execDcfgFn tok st acc s
  | .dcfgCl tok acc b => Sys2Proof.Machine.execDcfgCl tok acc b s
  | .dcfgRm tok acc b => Sys2Proof.Machine.execDcfgRm tok acc b s
  | .srsSeed tok b => Sys2Proof.Machine.execSrsSeed tok b s
  | .upd tok key tile rg sc => Sys2Proof.Machine.execUpd tok key tile rg sc s
  | .barInit tok q a b sc => Sys2Proof.Machine.execBarInit tok q a b sc s
  | .barExp tok q a b sc => Sys2Proof.Machine.execBarExp tok q a b sc s
  | .barArr tok q a sc => Sys2Proof.Machine.execBarArr tok q a sc s
  | .barWait tok q a b sc => Sys2Proof.Machine.execBarWait tok q a b sc s
  | .ringCl a b sc => Sys2Proof.Machine.execRingCl a b sc s
  | .ringFill tok q a b sc => Sys2Proof.Machine.execRingFill tok q a b sc s
  | .ringTake a b sc => Sys2Proof.Machine.execRingTake a b sc s
  | .ringRel tok q a b sc => Sys2Proof.Machine.execRingRel tok q a b sc s
  | .ringWf tok q a b sc => Sys2Proof.Machine.execRingWf tok q a b sc s
  | .ringWe tok q a b sc => Sys2Proof.Machine.execRingWe tok q a b sc s
  | .evqPop a sc => Sys2Proof.Machine.execEvqPop a sc s
  | .evqPost tok q a b sc => Sys2Proof.Machine.execEvqPost tok q a b sc s
  | .spawn a b sc => Sys2Proof.Machine.execSpawn a b sc s
  | .joinInit a b sc => Sys2Proof.Machine.execJoinInit a b sc s
  | .joinDec tok q a sc => Sys2Proof.Machine.execJoinDec tok q a sc s
  | .done => Sys2Proof.Machine.execDone s
  | .yield => Sys2Proof.Machine.execYield s
  | .phaseEnd => Sys2Proof.Machine.execPhaseEnd s
  | .cqPush a b sc => Sys2Proof.Machine.execCqPush a b sc s
  | .nop => Sys2Proof.Machine.execNop s
  | .brk => Sys2Proof.Machine.execBrk s
  | .trap a => Sys2Proof.Machine.execTrap a s
  | .eret => Sys2Proof.Machine.execEret s
  | .ctxSv a => Sys2Proof.Machine.execCtxSv a s
  | .ctxLd a => Sys2Proof.Machine.execCtxLd a s
  | .qsnSv a => Sys2Proof.Machine.execQsnSv a s
  | .qsnLd a => Sys2Proof.Machine.execQsnLd a s
  | .partSw a => Sys2Proof.Machine.execPartSw a s
  | .pmIdle => Sys2Proof.Machine.execPmIdle s
  | .eccInj a b => Sys2Proof.Machine.execEccInj a b s
  | .cntRd d a => Sys2Proof.Machine.execCntRd d a s
  | .codeLd d a b => Sys2Proof.Machine.execCodeLd d a b s
  | .codeInv a b => Sys2Proof.Machine.execCodeInv a b s
  | .kvApp d a b => Sys2Proof.Machine.execKvApp d a b s
  | .kvFork d a => Sys2Proof.Machine.execKvFork d a s
  | .kvRel a => Sys2Proof.Machine.execKvRel a s
  | .kvRd d a => Sys2Proof.Machine.execKvRd d a s
  | .kvMap a b => Sys2Proof.Machine.execKvMap a b s
  | .mapInv a b => Sys2Proof.Machine.execMapInv a b s
  | .migFrz a b => Sys2Proof.Machine.execMigFrz a b s
  | .dcUnpin a => Sys2Proof.Machine.execDcUnpin a s
  | .dcKeep a b => Sys2Proof.Machine.execDcKeep a b s
  | .queueTrap q => Sys2Proof.Machine.execQueueTrap q s
  | .tokenDeadlock q => Sys2Proof.Machine.execTokenDeadlock q s
  | .tokenSendRelease q => Sys2Proof.Machine.execTokenSendRelease q s
  | .preemption core how => Sys2Proof.Machine.execPreemption core how s
  | .contextResume core ix => Sys2Proof.Machine.execContextResume core ix s
  | .schedulerSelect => Sys2Proof.Machine.execSchedulerSelect s
  | .taskStart ix => Sys2Proof.Machine.execTaskStart ix s
  | .heldJoinDecrement ix => Sys2Proof.Machine.execHeldJoinDecrement ix s
  | .phaseCommit part => Sys2Proof.Machine.execPhaseCommit part s
  | .copyClaim die ch => Sys2Proof.Machine.execCopyClaim die ch s
  | .copyPiece die ch => Sys2Proof.Machine.execCopyPiece die ch s
  | .copyRetire die ch => Sys2Proof.Machine.execCopyRetire die ch s
  | .engineEventPost ix => Sys2Proof.Machine.execEngineEventPost ix s
  | .tumblerPairArrival rgn ix => Sys2Proof.Machine.execTumblerPairArrival rgn ix s
  | .tumblerApplication rgn => Sys2Proof.Machine.execTumblerApplication rgn s
  | .samplerCoarsePass cl => Sys2Proof.Machine.execSamplerCoarsePass cl s
  | .samplerThresholdSearch cl => Sys2Proof.Machine.execSamplerThresholdSearch cl s
  | .samplerDrawExecution cl => Sys2Proof.Machine.execSamplerDrawExecution cl s
  | .specCheckExecution die => Sys2Proof.Machine.execSpecCheckExecution die s
  | .expertLoadClaim die => Sys2Proof.Machine.execExpertLoadClaim die s
  | .expertLoadComplete die => Sys2Proof.Machine.execExpertLoadComplete die s
  | .embeddingPrefetch die => Sys2Proof.Machine.execEmbeddingPrefetch die s
  | .tokeniserStart e => Sys2Proof.Machine.execTokeniserStart e s
  | .tokeniserComplete e => Sys2Proof.Machine.execTokeniserComplete e s
  | .detokeniserStart e => Sys2Proof.Machine.execDetokeniserStart e s
  | .detokeniserComplete e => Sys2Proof.Machine.execDetokeniserComplete e s
  | .replyTransmit ix => Sys2Proof.Machine.execReplyTransmit ix s
  | .frameReceive port conn msg => Sys2Proof.Machine.execFrameReceive port conn msg s
  | .wakeRetry ring => Sys2Proof.Machine.execWakeRetry ring s
  | .connectionAccept port conn job => Sys2Proof.Machine.execConnectionAccept port conn job s
  | .monWaitTimeout core => Sys2Proof.Machine.execMonWaitTimeout core s
  | .pmIdleTimeout core => Sys2Proof.Machine.execPmIdleTimeout core s
  | .storeAck pa seq => Sys2Proof.Machine.execStoreAck pa seq s
  | .remoteStoreReplay r => Sys2Proof.Machine.execRemoteStoreReplay r s
  | .hostPortLost => Sys2Proof.Machine.execHostPortLost s
  | .throttleStepDown => Sys2Proof.Machine.execThrottleStepDown s
  | .throttleStepUp => Sys2Proof.Machine.execThrottleStepUp s
  | .thermalStop => Sys2Proof.Machine.execThermalStop s
  | .thermalResume => Sys2Proof.Machine.execThermalResume s
  | .cqtailWrite via q v => Sys2Proof.Machine.execCqtailWrite via q v s
  | .cqctlWrite via q v => Sys2Proof.Machine.execCqctlWrite via q v s
  | .rngctlWrite cl ring v => Sys2Proof.Machine.execRngctlWrite cl ring v s
  | .rqctlWrite via ring v => Sys2Proof.Machine.execRqctlWrite via ring v s
  | .intstatClear unit v => Sys2Proof.Machine.execIntstatClear unit v s
  | .controlPageWrite part off bytes => Sys2Proof.Machine.execControlPageWrite part off bytes s
  | .mailboxGo part v => Sys2Proof.Machine.execMailboxGo part v s
  | .mailboxLoadComplete part => Sys2Proof.Machine.execMailboxLoadComplete part s
  | .registerWrite via place bytes => Sys2Proof.Machine.execRegisterWrite via place bytes s
  | .partitionReset part => Sys2Proof.Machine.execPartitionReset part s
  | .coldReset => Sys2Proof.Machine.execColdReset s
  | .warmReset => Sys2Proof.Machine.execWarmReset s
  | .powerOff => Sys2Proof.Machine.execPowerOff s
  | .unassignedEncoding w x => Sys2Proof.Machine.execUnassignedEncoding w x s
  | .poolStoreAck ix => Sys2Proof.Machine.execPoolStoreAck ix s
  | .leaseEnd pa => Sys2Proof.Machine.execLeaseEnd pa s
  | .backInvalidateSnoop pa => Sys2Proof.Machine.execBackInvalidateSnoop pa s
  | .poolPortLinkDown port => Sys2Proof.Machine.execPoolPortLinkDown port s
  | .poolPortLinkUp port => Sys2Proof.Machine.execPoolPortLinkUp port s
  | .poolRegionMap base units ports => Sys2Proof.Machine.execPoolRegionMap base units ports s
  | .connectionClose port conn => Sys2Proof.Machine.execConnectionClose port conn s
  | .ethernetLinkDown port => Sys2Proof.Machine.execEthernetLinkDown port s
  | .ethernetLinkUp port => Sys2Proof.Machine.execEthernetLinkUp port s
  | .remoteStoreApply hop pa seq bytes => Sys2Proof.Machine.execRemoteStoreApply hop pa seq bytes s
  | .nalyanFlitReceive link seq ack good => Sys2Proof.Machine.execNalyanFlitReceive link seq ack good s
  | .nalyanReplayRequest link seq => Sys2Proof.Machine.execNalyanReplayRequest link seq s
  | .nalyanPause link => Sys2Proof.Machine.execNalyanPause link s
  | .nalyanResume link => Sys2Proof.Machine.execNalyanResume link s
  | .nalyanLinkDown link => Sys2Proof.Machine.execNalyanLinkDown link s
  | .nalyanLinkUp link => Sys2Proof.Machine.execNalyanLinkUp link s
  | .clapperMismatch core again => Sys2Proof.Machine.execClapperMismatch core again s
  | .matrixReplay core => Sys2Proof.Machine.execMatrixReplay core s
  | .cpLockstepMismatch die => Sys2Proof.Machine.execCpLockstepMismatch die s
  | .cpRestartComplete die => Sys2Proof.Machine.execCpRestartComplete die s
  | .watchdogExpiry core => Sys2Proof.Machine.execWatchdogExpiry core s
  | .runSliceExpiry core => Sys2Proof.Machine.execRunSliceExpiry core s
  | .hostAbort core => Sys2Proof.Machine.execHostAbort core s
  | .coreReturnToService core => Sys2Proof.Machine.execCoreReturnToService core s
  | .memoryEccError space pa poison => Sys2Proof.Machine.execMemoryEccError space pa poison s
  | .powerCapSet watts => Sys2Proof.Machine.execPowerCapSet watts s
  | .pldmSensorRead sensor => Sys2Proof.Machine.execPldmSensorRead sensor s
  | .firmwareUpdate target image => Sys2Proof.Machine.execFirmwareUpdate target image s
  | .spdmAttestation nonce => Sys2Proof.Machine.execSpdmAttestation nonce s
  | .phaseAbandon part => Sys2Proof.Machine.execPhaseAbandon part s
  | .fatalContextError cause tval => Sys2Proof.Machine.execFatalContextError cause tval s

end Sys2Proof.Machine
end

