-- ==== Sys2Proof/Machine/Turns.lean ====
section
/-! DEFINITION. Who moves next (log 7): the turns that the agents take of themselves. -/
namespace Sys2Proof.Machine

/-! ## Cores -/

/-- The core's sequencer may run its next word. -/
def Core.runnable (c : Core) : Bool := c.act == .running && c.qtrap.isNone

/-- A core has something to do: its sequencer runs, or a trap of a queue is on its way. -/
def Core.live (c : Core) : Bool := c.act == .running || c.qtrap.isSome

/-- The next core, by number and around, that has something to do. -/
def State.nextCore (s : State) : Option (BitVec 11) :=
  let l := s.others.filter Core.live
  match l.find? (fun c => s.core.id.toNat < c.id.toNat) with
  | some c => some c.id
  | none => l.head?.map (·.id)

/-- After a turn of the current core the next one is the current one. -/
def rotate (s : State) : State :=
  match s.nextCore with
  | some id => s.focus id
  | none => s

/-- What the queues of the current core do of themselves (R15, R197, R317). -/
def queueTurn (s : State) : Option Turn :=
  if s.core.qtrap.isNone && s.core.quiet then none else
  if (enterQueueTrap s).isSome then some (.event (.queueTrap 0)) else
  ([1, 2, 3].findSome? fun q =>
    match (s.core.queue q).head? with
    | none => none
    | some e =>
      let b : BitVec 2 := BitVec.ofNat 2 q
      if e.flight.isSome then (if s.canComplete q e then some (.event (.tokenSendRelease b)) else none)
      else if (startQueue q s).isSome then some (.start b)
      else if s.core.stall >>> q % 2 = 1 && (s.core.deadlocked q).isSome && s.core.qtrap.all (fun t => e.num < t.num) then
        some (.event (.tokenDeadlock b))
      else none)

/-- A sleep whose time has passed (R85, R337). -/
def sleepTurn (s : State) : Option Turn :=
  (s.cores.find? fun c => c.asleep && !c.timedOut && c.deadline != 0 && decide (c.deadline ≤ s.now)).map fun c =>
    .event (if c.commit = .idle then .pmIdleTimeout c.id else .monWaitTimeout c.id)

/-! ## Engines -/

/-- A copy channel has a step to take: a record to claim, a piece to move, or a signal or a retirement that waits for no store
(R242). -/
def Channel.due (s : State) (c : Channel) : Bool :=
  match c.run with
  | none => !c.queue.isEmpty
  | some r => !r.posting && ((r.owed == 0 && r.moving) || !s.engineFar r.chain.unit r.chain.scope)

/-- A copy channel's next step (R173, R174, R176). -/
def copyTurn (s : State) : Option Turn :=
  (s.channels.toList.findIdx? (Channel.due s)).map fun k =>
  let d : BitVec 3 := BitVec.ofNat 3 (k / 64)
  let n : BitVec 6 := BitVec.ofNat 6 (k % 64)
  .event (match (s.chan k).run with
    | none => .copyClaim d n
    | some r => if r.owed != 0 || r.moving then .copyPiece d n else .copyRetire d n)

/-- An update region takes the next pair on its way (R204). -/
def pairTurn (s : State) : Option Turn :=
  (s.regions.find? fun r => !r.transit.isEmpty).map fun r => .event (.tumblerPairArrival r.slot 0)

/-- A version that an engine waits for can be taken (R356), or has no translation. -/
def versionReady (w : Who) (a : Nat) (s : State) : Bool := (acquireVersion w a s).1 != .later

/-- The serving engines (R352, R357, R360-R362, R365): a command whose next step waits for its stores (R242), for the event
before it or for a version is passed over. -/
def serveTurn (s : State) : Option Turn :=
  let smp := (List.range 16).findSome? fun c =>
    if waitingPost 4 0 (· == c) s then none else
    ((headOf s.sampler c).filter fun k => k.stage % 2 == 0 || k.settled s).map fun k =>
      let b : BitVec 4 := BitVec.ofNat 4 c
      Turn.event (if k.op = 0 then .samplerCoarsePass b else if k.op = 1 then .samplerThresholdSearch b
                  else .samplerDrawExecution b)
  let die (v : Vector (List Command) 8) (src : Nat) (ready : Command → Bool) (i : Command → BitVec 3 → Instr) : Option Turn :=
    (List.range 8).findSome? fun d =>
      if waitingPost 4 src (fun x => x / 2 == d) s then none else
      ((headOf v d).filter ready).map fun k => .event (i k (BitVec.ofNat 3 d))
  smp <|> die s.accept 1 (·.settled s) (fun _ d => .specCheckExecution d) <|>
  die s.experts 2 (fun k => k.stage == 0 || k.settled s)
    (fun k d => if k.stage = 0 then .expertLoadClaim d else .expertLoadComplete d) <|>
  die s.prefetch 64 (fun k => k.stage != 0 || versionReady k.who k.a.toNat s) (fun _ d => .embeddingPrefetch d)

/-- A submission at the head of an engine can start (R380): its status store is performed, and its vocabulary's version can be
taken. -/
def textReady (dtk : Bool) (s : State) (k : Command) : Bool :=
  !statusAway dtk k s &&
  match engRead k.who k.a.toNat 64 s with
  | some (d, _) => versionReady k.who (bytesAt d 0 8 % 2 ^ 57) s
  | none => true

/-- A text engine's next step (R380). -/
def textTurn (dtk : Bool) (s : State) : Option Turn :=
  (List.range 8).findSome? fun e =>
    let g := s.textEng dtk e
    let b : BitVec 3 := BitVec.ofNat 3 e
    if g.run.isSome then
      if g.run.all (!·.settled s) then none else some (.event (if dtk then .detokeniserComplete b else .tokeniserComplete b))
    else if !g.subs.head?.any (textReady dtk s) || waitingPost 3 (8 * dtk.toNat + e) (fun _ => true) s then none
    else some (.event (if dtk then .detokeniserStart b else .tokeniserStart b))

/-- An event that waited for its quota (R188). -/
def postTurn (s : State) : Option Turn :=
  (s.posts.zipIdx.find? fun p => evRoom s p.1.ev.part p.1.cluster || evQuota s p.1.ev.part p.1.cluster == 0).map fun p =>
    .event (.engineEventPost ((s.posts.findIdx? fun q => q.cluster == p.1.cluster && q.ev.part == p.1.ev.part).getD p.2))

/-! ## The request unit, the links, the firmware -/

/-- The request unit (R140, R371): replies, and every 100 µs the wakes that failed. -/
def requestTurn (s : State) : Option Turn :=
  if !s.handed.isEmpty then some (.event (.replyTransmit 0)) else
  if s.now % 100000 != 0 then none else
  (s.reqRings.toList.findIdx? fun r => r.armed && r.count != 0 && r.wrec != 0 && r.wfail != 0).map fun n =>
    .event (.wakeRetry (BitVec.ofNat 7 n))

/-- What a store on its way to a peer does next (R238, R399): its acknowledgement comes, or the acknowledgement of flits that
frees its link, or it is sent again. -/
def remoteTurn (s : State) (r : RemoteStore) (i : Nat) : Option Turn :=
  let l := s.link r.link
  if l.up && !l.paused then
    if !r.sent then some (.event (.nalyanFlitReceive r.link l.recvSeq (l.sendSeq - 1) (some false)))
    else if s.firstOfLine i then some (.event (.storeAck r.pa r.seq)) else none
  else if !l.up && ((s.link !r.link).ready || !(s.link !r.link).up) then some (.event (.remoteStoreReplay ⟨i, none⟩))
  else none

/-- The far ends acknowledge (R238, R239, R314), and flits that free a link that something waits for (R399). -/
def ackTurn (s : State) : Option Turn :=
  ((s.poolStores.findIdx? fun p => !p.lost).map fun i => .event (.poolStoreAck i)) <|>
  (match s.hostStores with
    | p :: _ => some (.event (if s.hostUp then .storeAck p.pa 0 else .hostPortLost))
    | [] => none) <|>
  (s.remote.zipIdx.findSome? fun r => remoteTurn s r.1 r.2) <|>
  ([false, true].find? fun k => s.linkWaits k && (s.link k).up && !(s.link k).paused).map fun k =>
    .event (.nalyanFlitReceive k (s.link k).recvSeq ((s.link k).sendSeq - 1) (some false))

/-- A core on which a saved context can be resumed (R155). -/
def resumeAt (v : Saved) (s : State) : Option (BitVec 11) :=
  ((s.cq v.origin.toNat).clusters.flatMap (s.freeIn v.part)).find? fun id => (resumeCores v id s).isSome

/-- A saved context resumes (R143, R155). -/
def resumeTurn (s : State) : Option Turn :=
  s.saved.zipIdx.findSome? fun v =>
    if v.1.yielded || v.1.debug then none else (resumeAt v.1 s).map fun id => .event (.contextResume id v.2)

/-- A selected record can make a start (R146, R149): one of its instances finds a core, or its dies are still to be chosen; a
team takes its cluster; a task or a team binds. -/
def Selected.starts (s : State) (x : Selected) : Bool :=
  if recKind x.record = 2 then
    x.ctx == 0 || x.insts.any fun i => !(s.freeIn x.part (2 * i.2) ++ s.freeIn x.part (2 * i.2 + 1)).isEmpty
  else (recKind x.record == 1 && x.cluster.isNone) || (coresFor s x).isSome

/-- A selected record that can make a start. -/
def startTurn (s : State) : Option Turn :=
  (s.selected.findIdx? (Selected.starts s)).map fun i => .event (.taskStart i)

/-- A held decrement that can be made (R148). -/
def joinTurn (s : State) : Option Turn :=
  (s.joins.zipIdx.find? fun d => !d.1.deferred && (tryJoin d.1 s).2).map fun d => .event (.heldJoinDecrement d.2)

/-- A phase that can commit (R151). -/
def phaseTurn (s : State) : Option Turn :=
  if !(s.joins.any (·.deferred) || s.cqs.toList.any fun c => c.det && c.en) then none else
  ((List.range 32).find? fun p => canCommit s (BitVec.ofNat 5 p)).map fun p => .event (.phaseCommit (BitVec.ofNat 5 p))

/-- The scheduler selects (R143). -/
def selectTurn (s : State) : Option Turn :=
  if s.cqs.toList.any (·.backlogged) && (selectQueue s).isSome then some (.event .schedulerSelect) else none

/-- A mailbox load ends (R392). -/
def mailTurn (s : State) : Option Turn :=
  (s.parts.toList.findIdx? fun p => p.mail.go).map fun p => .event (.mailboxLoadComplete (BitVec.ofNat 5 p))

/-- The turn that comes of itself; none when nothing but a core's word is left. -/
def autoTurn (s : State) : Option Turn :=
  queueTurn s <|> sleepTurn s <|> copyTurn s <|> pairTurn s <|> serveTurn s <|> textTurn false s <|> textTurn true s <|>
  postTurn s <|> requestTurn s <|> ackTurn s <|> mailTurn s <|> joinTurn s <|> phaseTurn s <|> resumeTurn s <|>
  startTurn s <|> selectTurn s

/-- What Basoc does with the main power domain off (R400). -/
def basocAlone : Instr → Bool
  | .coldReset | .powerCapSet _ | .pldmSensorRead _ | .firmwareUpdate _ _ | .spdmAttestation _ => true
  | _ => false

/-- What happens after a boot that has failed (R403): Basoc serves, with the resets of R400 that the main domain allows. -/
def basocServes : Instr → Bool
  | .warmReset | .powerOff => true
  | i => basocAlone i

/-- An event can happen in the power state. -/
def State.served (s : State) (i : Instr) : Bool := if !s.power then basocAlone i else s.ready || basocServes i

end Sys2Proof.Machine
end

