-- ==== Sys2Proof/Machine/Step.lean ====
section
/-! DEFINITION. One step of the device, and the placing of an instruction where a step fetches. -/
namespace Sys2Proof.Machine

/-- The next word of the current core, once the accesses of the word before it are performed at their own scope. -/
def stepWord (s : State) : Host.Outcome State Fault Refusal :=
  if s.seqFar then .next s else
  match fetchInstr s with
  | .ok i => exec i s
  | .error x => .next (seqStop x s)

/-- One turn. With the main power domain off or after a boot that has failed only Basoc acts (R400, R403). -/
def runTurn (t : Turn) (s : State) : Host.Outcome State Fault Refusal :=
  match t with
  | .event i => if s.served i then exec i s else .next s
  | .word => if s.power && s.ready && s.core.runnable then stepWord s else .next s
  | .start q => .next ((startQueue q.toNat s).getD s)
  | .focus id => .next (if coreOf id < 96 then s.focus id else s)

/-- After a turn of the current core another core may become the current one. -/
def rotated (o : Host.Outcome State Fault Refusal) : Host.Outcome State Fault Refusal :=
  match o with
  | .next t => .next (rotate t)
  | .fault f => .fault f
  | .refused r => .refused r

/-- The current core's turn: its next word, if its sequencer runs. -/
def coreTurn (s : State) : Host.Outcome State Fault Refusal :=
  if s.core.runnable then rotated (stepWord s) else .next (rotate s)

/-- A turn that nothing outside the device names: the turns that come of themselves and the words of the cores
alternate, so that neither waits for ever. -/
def ownTurn (s : State) : Host.Outcome State Fault Refusal :=
  if s.now % 2 = 1 && s.core.runnable then coreTurn s else
  match autoTurn s with
  | some t => runTurn t s
  | none => coreTurn s

/-- One step: the turn at the head of the agenda, else a turn of the device's own; with the main power domain off there
is none, and after a boot that has failed time alone passes. -/
def step (s : State) : Host.Outcome State Fault Refusal :=
  let s := { s with now := s.now + 1 }
  match s.agenda with
  | t :: r => runTurn t { s with agenda := r }
  | [] => if !s.power then .fault .poweredOff else if s.ready then ownTurn s else .next s

/-- The lines that no longer count as poisoned: those that a range touches are taken out. -/
def clearLines (p : List Nat) (a n : Nat) : List Nat := p.filter fun l => !(linesOf a n).contains l

/-- A control page whose code window is the whole store (R394). -/
def wholeWindow : BitVec 32768 := BitVec.ofNat 32768 (4096 <<< (8 * 0x0C))

/-- The state with an instruction placed at the pc of the current core, in the running state, the window of its
partition the whole store, and the word's turn next (log 12): no access of its last word is still to be performed. -/
def State.withFetchWord (s : State) (nbits w : Nat) : State :=
  let a := clusterOf s.core.id * 0x400000 + s.core.pc.toNat % 0x400000
  let others (core : BitVec 11) (agent task member : Nat) : Bool := agent != 0 || !s.core.made core agent task member
  { s with remote := s.remote.filter (fun r => others r.core r.agent r.task r.member),
           hostStores := s.hostStores.filter (fun r => others r.core r.agent r.task r.member),
           poolStores := s.poolStores.filter (fun r => others r.core r.agent r.task r.member),
           core := { s.core with act := .running, qtrap := none },
           parts := s.parts.set s.core.partid.toFin { (s.part s.core.partid) with page := wholeWindow },
           code := memWrite s.code a (leBytes 8 (w % 2 ^ nbits)), codePoison := clearLines s.codePoison a 8,
           power := true, ready := true, agenda := [.word] }

end Sys2Proof.Machine
end

