-- ==== Sys2Proof/Safety.lean ====
section
/-! DEFINITION. What counts as a safe run: no refusal, and memories in their canonical form. -/
namespace Sys2Proof

/-- An outcome that is not a refusal: every instruction has its meaning. -/
def NotRefused (o : Host.Outcome Machine.State Machine.Fault Machine.Refusal) : Prop :=
  match o with
  | .refused _ => False
  | _ => True

/-- The memories of a state hold their canonical form (R215, R41, R44): rising addresses, no entry of zero. -/
def MemoryOk (s : Machine.State) : Prop :=
  Machine.memWf s.mem = true ∧ Machine.memWf s.bank = true ∧ Machine.memWf s.code = true

end Sys2Proof
end

