-- ==== Sys2Proof/Certificates/Slice0/Obligations.lean ====
section
/-! DEFINITION. The statements for the provers. Each says what the spec says of the machine; its docstring names the rules.
A completion statement concludes that `exec` answers a next state, and gives that state. -/

open Sys2Proof Sys2Proof.Machine

namespace Sys2Proof.Machine

/-! ## What the statements speak of -/

/-- The state after a word of `n` bytes that leaves the current core as `c` (R65, R338). -/
def State.did (s : State) (n : Nat) (c : Core) : State := { s with core := c.after n .next }

/-- A register result and nothing else (R23, R65). -/
def State.wrote (s : State) (n : Nat) (d : Reg) (v : Dword) : State := s.did n (s.core.setG d v)

/-- A register result with flags ORed into `fflg` (R36). -/
def State.wroteF (s : State) (n : Nat) (d : Reg) (v : Dword) (f : BitVec 6) : State :=
  s.did n ((s.core.setG d v).orFlags f)

/-- The next state of a word that goes on at another address (R73). -/
def State.wentTo (s : State) (c : Core) (pc : Dword) : State := { s with core := c.after 4 (.goto pc) }

/-- Two states hold the same memories, byte for byte: physical memory, banks, code stores. -/
def SameMemory (s t : State) : Prop :=
  ∀ a, memByte t.mem a = memByte s.mem a ∧ memByte t.bank a = memByte s.bank a ∧ memByte t.code a = memByte s.code a

/-- Two cores differ at most in the pc, the counters, the stall and the registers that a word may write: the g registers
named, and the flags if `fl`. -/
def SameBut (ds : List Reg) (fl : Bool) (c d : Core) : Prop :=
  (∀ r, r ∉ ds → d.rg r = c.rg r) ∧ (fl = false → d.fflg = c.fflg) ∧
  d = { c with g := d.g, fflg := d.fflg, pc := d.pc, counters := d.counters, stall := d.stall }

/-- No store of the current core's, or of the same member of its task before a pre-emption, is on its way at a scope (R88,
R234, R239): to the pool at PL and SY, to a peer or the host at any. -/
def State.noneFar (s : State) (sc : BitVec 3) : Prop :=
  (5 ≤ sc.toNat → ∀ p ∈ s.poolStores, s.core.made p.core p.agent p.task p.member = false) ∧
  (∀ p ∈ s.hostStores, s.core.made p.core p.agent p.task p.member = false) ∧
  ∀ r ∈ s.remote, s.core.made r.core r.agent r.task r.member = false

/-- Such a store is on its way, and none of the pool's is lost. -/
def State.someFar (s : State) (sc : BitVec 3) : Prop :=
  (∀ p ∈ s.poolStores, p.lost = false) ∧
  ((5 ≤ sc.toNat ∧ ∃ p ∈ s.poolStores, s.core.made p.core p.agent p.task p.member = true) ∨
    (∃ p ∈ s.hostStores, s.core.made p.core p.agent p.task p.member = true) ∨
    ∃ r ∈ s.remote, s.core.made r.core r.agent r.task r.member = true)

/-- Some store to the pool, whoever made it, is not performed at PL (R239), and is none of a transfer that an engine has under way
(R88). -/
def State.deviceFar (s : State) (sc : BitVec 3) : Prop :=
  5 ≤ sc.toNat ∧ ∃ p ∈ s.poolStores, p.lost = false ∧ (p.retired = true ∨ s.transfers p.agent = false)

/-- Every access of the sequencer's words so far is performed at its own scope (R224, R234, R239): no store of its to a peer or to
the host is on its way, and none at PL or SY to the pool but a lost one. -/
def State.wordDone (s : State) : Prop :=
  let own (core : BitVec 11) (agent task member : Nat) : Prop := agent = 0 ∧ s.core.made core agent task member = true
  (∀ r ∈ s.remote, ¬ own r.core r.agent r.task r.member) ∧ (∀ r ∈ s.hostStores, ¬ own r.core r.agent r.task r.member) ∧
  ∀ r ∈ s.poolStores, own r.core r.agent r.task r.member → 5 ≤ r.scope.toNat → r.lost = true

/-- The value of a doubleword as a signed integer and as an unsigned number. -/
def sInt (v : Dword) : Int := v.toInt
def uNat (v : Dword) : Nat := v.toNat
/-- An integer and a number wrapped modulo 2^64. -/
def wrapI (x : Int) : Dword := BitVec.ofInt 64 x
def wrapN (x : Nat) : Dword := BitVec.ofNat 64 x

end Sys2Proof.Machine

/-! ## Encoding and the step -/

/-- Decoding the encoded words of a well-formed instruction gives it back, with every operand (R46-R53). -/
def Obligations.DecodeEncode : Prop :=
  ∀ i : Instr, i.wellFormed = true → decode (encode i).1 (encode i).2 = .ok i

/-- Whatever decodes is well-formed, and its words are the words it is encoded as: no bit of a word is ignored (R47). -/
def Obligations.EncodeDecode : Prop :=
  ∀ (w x : Word) (i : Instr), decode w x = .ok i → i.wellFormed = true ∧ encode i = (w, if isExtended w then x else 0)

/-- Words decode to the instructions that the spec prints beside them (R18, R55, R93, R94, R192). The `jal` of −5 words is
not as printed: the spec's word has the token bit 22 set, which the format has not (log 47). -/
def Obligations.PrintedWords : Prop :=
  decode 0x000C5300 0 = .ok (.add 6 5 6) ∧ decode 0x040C0FFF 0 = .ok (.addi 6 0 0xFFF) ∧
  decode 0x200A0000 0x12345678 = .ok (.li 5 0x12345678) ∧ decode 0x28060003 0 = .ok (.beq 3 0 3) ∧
  decode 0x443FFFFB 0 = .ok (.jal 0x3FFFFB) ∧ decode 0x4800A581 0 = .ok (.jt 10 11) ∧
  decode 0x50120004 0 = .ok (.csrrs 9 0 4) ∧ decode 0x5C041003 0 = .ok (.ldD 0 false 2 1 0) ∧
  decode 0x5C021007 0x40 = .ok (.sld 0 false 1 1 0x40) ∧ decode 0x68101380 0 = .ok (.tshape 8 1 7) ∧
  decode 0x80022000 0 = .ok (.ldT noTok 1 1) ∧
  decode 0x80442001 0 = .ok (.ldA ⟨false, false, false, true⟩ 2 1) ∧
  decode 0xA2001287 0 = .ok (.mmaPatternA ⟨true, false, false, false⟩ 0 1 1 true 7) ∧
  decode 0xC6080007 0 = .ok (.drn ⟨true, false, false, false⟩ 4 0 7) ∧ decode 0xEC0C6581 0 = .ok (.joinInit 24 25 3) ∧
  decode 0xEC000003 0 = .ok .done

/-- The order of the checks of R50: a word that names no instruction is refused as such whatever its token bits, and one
that does but carries a flag that its agent may not carry is the illegal token. -/
def Obligations.DecodeRefuses : Prop :=
  ∀ w x : Word,
    (decodeWord w x = none → decode w x = .error .unassigned) ∧
    (∀ i, decodeWord w x = some i → fTok w &&& ~~~ tokAllowed (wordAgent w) ≠ 0 → decode w x = .error .illegalToken)

/-- When the bytes at the pc decode to an instruction, and the current core has the turn, the step is that instruction's, one
tick later (R44, R48). It has the turn where the agenda gives it one, and where the agenda is empty and no agent but it has
anything to do, or had the last turn; then the next core that has something to do becomes the current one (the order of
turns is the model's, log 7). While an access of an earlier word is not performed at its own scope, the turn passes and nothing
else changes (R224; log 111). -/
def Obligations.StepRunsDecoded : Prop :=
  ∀ (s : State) (i : Instr),
    let u : State := { s with now := s.now + 1 }
    s.power = true → s.ready = true → s.core.runnable = true →
    (s.wordDone → fetchInstr s = .ok i →
      (s.agenda = [.word] → step s = exec i { u with agenda := [] }) ∧
      (s.agenda = [] → autoTurn u = none ∨ s.now % 2 = 0 → step s = rotated (exec i u))) ∧
    (¬ s.wordDone → s.agenda = [.word] → step s = .next { u with agenda := [] })

/-- The fetch reads the word at the pc from the code store of the core's cluster, and the word after it for an extended
one, inside the partition's window (R44, R48, R50). -/
def Obligations.FetchReadsCode : Prop :=
  ∀ (s : State) (w x : Word) (i : Instr),
    let pc := s.core.pc.toNat
    s.fetchOk pc = true → s.fetchPoison pc = false → s.codeWord pc = w → decode w x = .ok i →
    (isExtended w = true → s.fetchOk (pc + 4) = true ∧ s.fetchPoison (pc + 4) = false ∧ s.codeWord (pc + 4) = x) →
    (isExtended w = false → x = 0) → fetchInstr s = .ok i

/-- No instruction is refused, and none stops the machine: every instruction answers a next state in every state, and so
does every step while the power is on (R50, R65). An event of another agent that cannot be taken answers the state as it is (log 80). -/
def Obligations.NothingRefused : Prop :=
  (∀ (i : Instr) (s : State), ∃ t, exec i s = .next t) ∧
  (∀ s : State, s.power = true ∨ s.agenda ≠ [] → ∃ t, step s = .next t)

/-- Every step keeps the canonical form of the memories (R215, R41, R44). -/
def Obligations.MemoryFormKept : Prop :=
  ∀ s t : State, MemoryOk s → step s = .next t → MemoryOk t

/-- The memories have their canonical form at reset (R215, R41, R44). -/
def Obligations.ResetMemoryForm : Prop := MemoryOk State.reset

/-- What reset leaves: the values of R33, R34, R37, R45, R106, R136, R183, R210, R211, R377 and R403; the g registers,
`teamsz`, `intstat`, and the counters of the rings and request rings have no reset value in the spec, and hold what log 2
names. -/
def Obligations.ResetValues : Prop :=
  let s := State.reset
  s.core.status = 0 ∧ s.core.cause = 0 ∧ s.core.tkcnt = 0 ∧ s.core.teamsz = 1 ∧ s.core.iterlim = 24 ∧
  s.core.bankmode = 0 ∧ s.core.pins = [] ∧ s.core.watch = none ∧ s.core.quiet = true ∧
  (∀ r : Reg, s.core.rg r = 0) ∧ (∀ t : BitVec 4, s.core.tile t = Tile.zero) ∧
  (∀ a : BitVec 2, s.core.acc a = Acc.zero ∧ s.core.cfg a = DrainCfg.identity) ∧
  (let k := DrainCfg.identity;
    (∀ i, i < 32 → k.rs.extractLsb' (32 * i) 32 = 0x3F800000#32 ∧ k.rb.extractLsb' (32 * i) 32 = 0#32) ∧
    (∀ j, j < 64 → k.cs.extractLsb' (32 * j) 32 = 0x3F800000#32 ∧ k.cb.extractLsb' (32 * j) 32 = 0#32) ∧
    k.lo = 0xFF800000 ∧ k.hi = 0x7F800000 ∧ k.rm = 0 ∧
    [k.rsOn, k.csOn, k.rbOn, k.cbOn, k.fnOn, k.clOn] = List.replicate 6 false) ∧
  (∀ p : BitVec 5, (s.part p).page = 0 ∧ (s.part p).intstat = 0) ∧
  (∀ q, let k := s.cq q
    k.en = false ∧ k.det = false ∧ k.size = 0 ∧ k.tickets = 1 ∧ k.dies = 0 ∧ k.stop = false ∧ k.err = 0) ∧
  (∀ n, let r := vget s.rings n HwRing.reset
    r.en = false ∧ r.lcount = 0 ∧ r.part = 0 ∧ r.claim = 0 ∧ r.tail = 0 ∧ r.take = 0 ∧ r.head = 0) ∧
  (∀ n, let k := s.rq n
    k.en = false ∧ k.armed = true ∧ k.ports = 0 ∧ k.part = 0 ∧ k.wq = 0 ∧ k.lcap = 0 ∧ k.head = 0 ∧ k.tail = 0) ∧
  s.regions = [] ∧ s.saved = [] ∧ s.selected = []

/-! ## Integer arithmetic -/

/-- The two-operand results of major 0x00, as integers (R66): each completes, writes d and nothing else. -/
def Obligations.IntegerResults : Prop :=
  ∀ (d a b : Reg) (s : State),
    let x := s.core.rg a
    let y := s.core.rg b
    exec (.add d a b) s = .next (s.wrote 4 d (wrapN (uNat x + uNat y))) ∧
    exec (.sub d a b) s = .next (s.wrote 4 d (wrapI (sInt x - sInt y))) ∧
    exec (.mul d a b) s = .next (s.wrote 4 d (wrapN (uNat x * uNat y))) ∧
    exec (.mulh d a b) s = .next (s.wrote 4 d (wrapI (sInt x * sInt y / 2 ^ 64))) ∧
    exec (.mulhu d a b) s = .next (s.wrote 4 d (wrapN (uNat x * uNat y / 2 ^ 64))) ∧
    exec (.sll d a b) s = .next (s.wrote 4 d (wrapN (uNat x * 2 ^ (uNat y % 64)))) ∧
    exec (.srl d a b) s = .next (s.wrote 4 d (wrapN (uNat x / 2 ^ (uNat y % 64)))) ∧
    exec (.sra d a b) s = .next (s.wrote 4 d (wrapI (sInt x / 2 ^ (uNat y % 64)))) ∧
    exec (.slt d a b) s = .next (s.wrote 4 d (if sInt x < sInt y then 1 else 0)) ∧
    exec (.sltu d a b) s = .next (s.wrote 4 d (if uNat x < uNat y then 1 else 0)) ∧
    exec (.min d a b) s = .next (s.wrote 4 d (wrapI (min (sInt x) (sInt y)))) ∧
    exec (.max d a b) s = .next (s.wrote 4 d (wrapI (max (sInt x) (sInt y)))) ∧
    exec (.minu d a b) s = .next (s.wrote 4 d (wrapN (min (uNat x) (uNat y)))) ∧
    exec (.maxu d a b) s = .next (s.wrote 4 d (wrapN (max (uNat x) (uNat y))))

/-- The bitwise results, bit by bit, of the register and immediate forms (R66, R68), and the unary results (R66): zero bits
counted from the top and from the bottom, one bits counted, and sign extension. -/
def Obligations.BitResults : Prop :=
  ∀ (d a b : Reg) (imm : BitVec 12) (s : State),
    let x := s.core.rg a
    let y := s.core.rg b
    let e := imm.signExtend 64
    (∃ v : Fin 6 → Dword,
      exec (.and d a b) s = .next (s.wrote 4 d (v 0)) ∧ exec (.or d a b) s = .next (s.wrote 4 d (v 1)) ∧
      exec (.xor d a b) s = .next (s.wrote 4 d (v 2)) ∧ exec (.andi d a imm) s = .next (s.wrote 4 d (v 3)) ∧
      exec (.ori d a imm) s = .next (s.wrote 4 d (v 4)) ∧ exec (.xori d a imm) s = .next (s.wrote 4 d (v 5)) ∧
      (∀ i, i < 64 →
        (v 0).getLsbD i = (x.getLsbD i && y.getLsbD i) ∧ (v 1).getLsbD i = (x.getLsbD i || y.getLsbD i) ∧
        (v 2).getLsbD i = (x.getLsbD i != y.getLsbD i) ∧ (v 3).getLsbD i = (x.getLsbD i && e.getLsbD i) ∧
        (v 4).getLsbD i = (x.getLsbD i || e.getLsbD i) ∧ (v 5).getLsbD i = (x.getLsbD i != e.getLsbD i))) ∧
    (∃ n : Nat, exec (.clz d a) s = .next (s.wrote 4 d (wrapN n)) ∧ n ≤ 64 ∧ uNat x < 2 ^ (64 - n) ∧
      (n < 64 → 2 ^ (63 - n) ≤ uNat x)) ∧
    (∃ n : Nat, exec (.ctz d a) s = .next (s.wrote 4 d (wrapN n)) ∧ n ≤ 64 ∧ uNat x % 2 ^ n = 0 ∧
      (n < 64 → x.getLsbD n = true)) ∧
    exec (.popc d a) s = .next (s.wrote 4 d (wrapN ((List.range 64).countP fun i => x.getLsbD i))) ∧
    exec (.sxb d a) s = .next (s.wrote 4 d (wrapI (x.setWidth 8).toInt)) ∧
    exec (.sxh d a) s = .next (s.wrote 4 d (wrapI (x.setWidth 16).toInt)) ∧
    exec (.sxw d a) s = .next (s.wrote 4 d (wrapI (x.setWidth 32).toInt))

/-- The immediate forms (R68) and the long immediates (R69). -/
def Obligations.ImmediateResults : Prop :=
  ∀ (d a : Reg) (imm : BitVec 12) (sh : BitVec 6) (v : BitVec 32) (s : State),
    let x := s.core.rg a
    let e := imm.toInt
    exec (.addi d a imm) s = .next (s.wrote 4 d (wrapI (sInt x + e))) ∧
    exec (.slti d a imm) s = .next (s.wrote 4 d (if sInt x < e then 1 else 0)) ∧
    exec (.sltiu d a imm) s = .next (s.wrote 4 d (if uNat x < uNat (wrapI e) then 1 else 0)) ∧
    exec (.slli d a sh) s = .next (s.wrote 4 d (wrapN (uNat x * 2 ^ sh.toNat))) ∧
    exec (.srli d a sh) s = .next (s.wrote 4 d (wrapN (uNat x / 2 ^ sh.toNat))) ∧
    exec (.srai d a sh) s = .next (s.wrote 4 d (wrapI (sInt x / 2 ^ sh.toNat))) ∧
    exec (.li d v) s = .next (s.wrote 8 d (wrapI v.toInt)) ∧
    exec (.lih d v) s = .next (s.wrote 8 d (wrapN (v.toNat * 2 ^ 32 + uNat (s.core.rg d) % 2 ^ 32)))

/-- Division (R67): each form completes whatever its operands, so that no division traps. The quotient truncates toward
zero and a = q·b + r; division by zero sets dz and −2^63 / −1 sets iovf. -/
def Obligations.Division : Prop :=
  ∀ (d a b : Reg) (s : State),
    let x := s.core.rg a
    let y := s.core.rg b
    let q := (sInt x).tdiv (sInt y)
    let r := (sInt x).tmod (sInt y)
    let big := sInt x = -2 ^ 63 ∧ sInt y = -1
    exec (.div d a b) s = .next (if y = 0 then s.wroteF 4 d (wrapI (-1)) flDz
      else if big then s.wroteF 4 d (wrapI (-2 ^ 63)) flIovf else s.wroteF 4 d (wrapI q) 0) ∧
    exec (.rem d a b) s = .next (if y = 0 then s.wroteF 4 d x flDz else s.wroteF 4 d (wrapI r) 0) ∧
    exec (.divu d a b) s = .next (if y = 0 then s.wroteF 4 d (wrapN (2 ^ 64 - 1)) flDz
      else s.wroteF 4 d (wrapN (uNat x / uNat y)) 0) ∧
    exec (.remu d a b) s = .next (if y = 0 then s.wroteF 4 d x flDz else s.wroteF 4 d (wrapN (uNat x % uNat y)) 0) ∧
    (y ≠ 0 → sInt x = q * sInt y + r ∧ (r ≠ 0 → (0 ≤ r ↔ 0 ≤ sInt x)) ∧ |r| < |sInt y|)

/-- A read of g0 answers zero, and a write to it is discarded with no other effect (R23). -/
def Obligations.RegisterZero : Prop :=
  ∀ (c : Core) (r : Reg) (v : Dword),
    c.rg 0 = 0 ∧ c.setG 0 v = c ∧ (r ≠ 0 → (c.setG r v).rg r = v) ∧ ∀ x, x ≠ r → (c.setG r v).rg x = c.rg x

/-- The frame of the words that only compute: every g register but d, every other register, and every byte of memory stay as
they were; the flags stay too but where the word ORs its own (R36, R65, R66, R70). -/
def Obligations.ComputeFrame : Prop :=
  ∀ (i : Instr) (d a b : Reg) (imm : BitVec 12) (sh : BitVec 6) (v : BitVec 32) (s t : State),
    let plain : List Instr := [.add d a b, .sub d a b, .and d a b, .or d a b, .xor d a b, .sll d a b, .srl d a b, .sra d a b,
      .slt d a b, .sltu d a b, .mul d a b, .mulh d a b, .mulhu d a b, .min d a b, .max d a b, .minu d a b, .maxu d a b,
      .clz d a, .ctz d a, .popc d a, .sxb d a, .sxh d a, .sxw d a, .addi d a imm, .andi d a imm, .ori d a imm,
      .xori d a imm, .slli d a sh, .srli d a sh, .srai d a sh, .slti d a imm, .sltiu d a imm, .li d v, .lih d v]
    let flagged : List Instr := [.div d a b, .divu d a b, .rem d a b, .remu d a b, .fadd d a b, .fsub d a b, .fmul d a b,
      .fdiv d a b, .fsqrt d a, .fmin d a b, .fmax d a b, .fcmp d a b, .f2i d a, .i2f d a]
    i ∈ plain ++ flagged → exec i s = .next t →
      SameBut [d] (decide (i ∈ flagged)) s.core t.core ∧ t.core.fflg &&& s.core.fflg = s.core.fflg ∧
      SameMemory s t ∧ t = { s with core := t.core }

/-! ## Binary32 -/

namespace Sys2Proof.Machine

/-- The fields of a binary32 encoding, and what it is (R70, R262, R263). -/
def f32Exp (v : BitVec 32) : Nat := (v.extractLsb' 23 8).toNat
def f32Frac (v : BitVec 32) : Nat := (v.extractLsb' 0 23).toNat
def f32Nan (v : BitVec 32) : Prop := f32Exp v = 255 ∧ f32Frac v ≠ 0
def f32Snan (v : BitVec 32) : Prop := f32Nan v ∧ v.getLsbD 22 = false
def f32Inf (v : BitVec 32) : Prop := f32Exp v = 255 ∧ f32Frac v = 0
def f32Zero (v : BitVec 32) : Prop := f32Exp v = 0 ∧ f32Frac v = 0
def f32Finite (v : BitVec 32) : Prop := f32Exp v ≠ 255
/-- The sign bit. -/
def f32Neg (v : BitVec 32) : Bool := v.getLsbD 31
/-- The value of a finite encoding. -/
def f32Value (v : BitVec 32) : ℚ :=
  (if f32Neg v then -1 else 1) *
    (if f32Exp v = 0 then (f32Frac v : ℚ) * 2 ^ (-149 : ℤ) else ((2 ^ 23 + f32Frac v : ℕ) : ℚ) * 2 ^ ((f32Exp v : ℤ) - 150))
/-- The place of a number in the order of R72, in which the two zeros are one place. -/
def f32Key (v : BitVec 32) : Int := if f32Neg v then -((v.toNat % 2 ^ 31 : Nat) : Int) else ((v.toNat % 2 ^ 31 : Nat) : Int)
/-- The canonical quiet NaN. -/
def f32Qnan : BitVec 32 := 0x7FC00000
/-- The encoding with a sign: an infinity, a zero. -/
def f32InfOf (neg : Bool) : BitVec 32 := if neg then 0xFF800000 else 0x7F800000
def f32ZeroOf (neg : Bool) : BitVec 32 := if neg then 0x80000000 else 0
/-- A result and its flags are the exact value rounded to nearest, ties to even (R70). Below the overflow bound it is the
nearest finite value, of two equally near the one with an even significand; it is exact and no flag is set, or nx is, and uf
with it where the value rounded to 24 bits lies below 2^−126. From the bound on it is the infinity, with of and nx. A result
of an exact value that is not 0 has its sign. -/
def RoundsTo (x : ℝ) (r : BitVec 32) (f : BitVec 6) : Prop :=
  (x ≠ 0 → (f32Neg r = true ↔ x < 0)) ∧
  (|x| < (2 - 2 ^ (-24 : ℤ)) * 2 ^ 127 → f32Finite r ∧
    (∀ z, f32Finite z → |(f32Value r : ℝ) - x| ≤ |(f32Value z : ℝ) - x| ∧
      (|(f32Value r : ℝ) - x| = |(f32Value z : ℝ) - x| → f32Value z ≠ f32Value r → r.getLsbD 0 = false)) ∧
    ((f32Value r : ℝ) = x → f = 0) ∧
    ((f32Value r : ℝ) ≠ x → |x| < 2 ^ (-126 : ℤ) - 2 ^ (-151 : ℤ) → f = flNx ||| flUf) ∧
    ((f32Value r : ℝ) ≠ x → 2 ^ (-126 : ℤ) - 2 ^ (-151 : ℤ) ≤ |x| → f = flNx)) ∧
  ((2 - 2 ^ (-24 : ℤ)) * 2 ^ 127 ≤ |x| → f32Inf r ∧ f = flOf ||| flNx)

end Sys2Proof.Machine

/-- The arithmetic of binary32 completes on every operand (R70, R71). A NaN operand or an invalid operation gives the
canonical NaN, with nv where R71 says; a finite value over zero gives a signed infinity with dz; an infinity with any other
operand, the quotient of a value by an infinity, the square root of +∞, and exact zeros give what IEEE 754 gives, with no
flag. -/
def Obligations.FloatSpecials : Prop :=
  ∀ (d a b : Reg) (s : State),
    let x := (s.core.rg a).setWidth 32
    let y := (s.core.rg b).setWidth 32
    let sx := f32Neg x
    let sy := f32Neg y
    let exact (r : BitVec 32) (f : BitVec 6) (v : BitVec 32) : Prop := r = v ∧ f = 0
    ∃ (r : Fin 6 → BitVec 32) (f : Fin 6 → BitVec 6),
      exec (.fadd d a b) s = .next (s.wroteF 4 d ((r 0).setWidth 64) (f 0)) ∧
      exec (.fsub d a b) s = .next (s.wroteF 4 d ((r 1).setWidth 64) (f 1)) ∧
      exec (.fmul d a b) s = .next (s.wroteF 4 d ((r 2).setWidth 64) (f 2)) ∧
      exec (.fdiv d a b) s = .next (s.wroteF 4 d ((r 3).setWidth 64) (f 3)) ∧
      exec (.fsqrt d a) s = .next (s.wroteF 4 d ((r 4).setWidth 64) (f 4)) ∧
      exec (.i2f d a) s = .next (s.wroteF 4 d ((r 5).setWidth 64) (f 5)) ∧
      (∀ k : Fin 6, k.val < 4 → f32Nan x ∨ f32Nan y → r k = f32Qnan ∧
        (f32Snan x ∨ f32Snan y → f k = flNv) ∧ (¬ f32Snan x → ¬ f32Snan y → f k = 0)) ∧
      (f32Inf x → f32Finite y ∨ (f32Inf y ∧ sx = sy) → exact (r 0) (f 0) x) ∧
      (f32Finite x → f32Inf y → exact (r 0) (f 0) y ∧ exact (r 1) (f 1) (f32InfOf (!sy))) ∧
      (f32Inf x → f32Finite y ∨ (f32Inf y ∧ sx ≠ sy) → exact (r 1) (f 1) x) ∧
      (f32Inf x → (f32Finite y ∧ ¬ f32Zero y) ∨ f32Inf y → exact (r 2) (f 2) (f32InfOf (sx != sy))) ∧
      (f32Finite x → ¬ f32Zero x → f32Inf y → exact (r 2) (f 2) (f32InfOf (sx != sy))) ∧
      (f32Inf x → f32Finite y → exact (r 3) (f 3) (f32InfOf (sx != sy))) ∧
      (f32Finite x → f32Inf y → exact (r 3) (f 3) (f32ZeroOf (sx != sy))) ∧
      (x = f32InfOf false → exact (r 4) (f 4) x) ∧
      (f32Finite x → f32Finite y →
        (f32Value x + f32Value y = 0 → exact (r 0) (f 0) (f32ZeroOf (sx && sy))) ∧
        (f32Value x - f32Value y = 0 → exact (r 1) (f 1) (f32ZeroOf (sx && !sy))) ∧
        (f32Zero x ∨ f32Zero y → exact (r 2) (f 2) (f32ZeroOf (sx != sy))) ∧
        (f32Zero x → ¬ f32Zero y → exact (r 3) (f 3) (f32ZeroOf (sx != sy)))) ∧
      (s.core.rg a = 0 → exact (r 5) (f 5) 0) ∧
      (f32Inf x → f32Inf y → f32Neg x ≠ f32Neg y → r 0 = f32Qnan ∧ f 0 = flNv) ∧
      (f32Inf x → f32Inf y → f32Neg x = f32Neg y → r 1 = f32Qnan ∧ f 1 = flNv) ∧
      ((f32Zero x ∧ f32Inf y) ∨ (f32Inf x ∧ f32Zero y) → r 2 = f32Qnan ∧ f 2 = flNv) ∧
      ((f32Zero x ∧ f32Zero y) ∨ (f32Inf x ∧ f32Inf y) → r 3 = f32Qnan ∧ f 3 = flNv) ∧
      (f32Finite x → ¬ f32Zero x → f32Zero y → f32Inf (r 3) ∧ f32Neg (r 3) = (f32Neg x != f32Neg y) ∧ f 3 = flDz) ∧
      (f32Nan x → r 4 = f32Qnan ∧ (f32Snan x → f 4 = flNv) ∧ (¬ f32Snan x → f 4 = 0)) ∧
      (f32Zero x → r 4 = x ∧ f 4 = 0) ∧
      (¬ f32Nan x → ¬ f32Zero x → f32Neg x = true → r 4 = f32Qnan ∧ f 4 = flNv)

/-- Finite operands: the sum, the difference, the product, the quotient, the square root of a positive value and the
conversion of an integer are the exact values rounded to nearest, ties to even, with exactly the flags of the rounding
(R70, R71). -/
def Obligations.FloatRounds : Prop :=
  ∀ (d a b : Reg) (s : State),
    let x := (s.core.rg a).setWidth 32
    let y := (s.core.rg b).setWidth 32
    ∃ (r : Fin 6 → BitVec 32) (f : Fin 6 → BitVec 6),
      exec (.fadd d a b) s = .next (s.wroteF 4 d ((r 0).setWidth 64) (f 0)) ∧
      exec (.fsub d a b) s = .next (s.wroteF 4 d ((r 1).setWidth 64) (f 1)) ∧
      exec (.fmul d a b) s = .next (s.wroteF 4 d ((r 2).setWidth 64) (f 2)) ∧
      exec (.fdiv d a b) s = .next (s.wroteF 4 d ((r 3).setWidth 64) (f 3)) ∧
      exec (.fsqrt d a) s = .next (s.wroteF 4 d ((r 4).setWidth 64) (f 4)) ∧
      exec (.i2f d a) s = .next (s.wroteF 4 d ((r 5).setWidth 64) (f 5)) ∧
      (f32Finite x → f32Finite y →
        RoundsTo (f32Value x + f32Value y) (r 0) (f 0) ∧ RoundsTo (f32Value x - f32Value y) (r 1) (f 1) ∧
        RoundsTo (f32Value x * f32Value y) (r 2) (f 2) ∧
        (¬ f32Zero y → RoundsTo (f32Value x / f32Value y) (r 3) (f 3))) ∧
      (f32Finite x → 0 < f32Value x → RoundsTo (Real.sqrt (f32Value x)) (r 4) (f 4)) ∧
      RoundsTo (s.core.rg a).toInt (r 5) (f 5)

/-- `fcmp`, `fmin` and `fmax` (R71, R72) by the order of the encodings: −0 equals +0 in `fcmp` and is below it in `fmin`
and `fmax`; a NaN operand of those is ignored when the other is a number; nv for a signalling NaN. -/
def Obligations.FloatOrder : Prop :=
  ∀ (d a b : Reg) (s : State),
    let x := (s.core.rg a).setWidth 32
    let y := (s.core.rg b).setWidth 32
    ∃ (k : Dword) (lo hi : BitVec 32) (f : BitVec 6),
      exec (.fcmp d a b) s = .next (s.wroteF 4 d k f) ∧
      exec (.fmin d a b) s = .next (s.wroteF 4 d (lo.setWidth 64) f) ∧
      exec (.fmax d a b) s = .next (s.wroteF 4 d (hi.setWidth 64) f) ∧
      (f32Snan x ∨ f32Snan y → f = flNv) ∧ (¬ f32Snan x → ¬ f32Snan y → f = 0) ∧
      (f32Nan x ∨ f32Nan y → k = 8) ∧
      (¬ f32Nan x → ¬ f32Nan y →
        (f32Key x < f32Key y → k = 1 ∧ lo = x ∧ hi = y) ∧ (f32Key y < f32Key x → k = 4 ∧ lo = y ∧ hi = x) ∧
        (f32Key x = f32Key y → k = 2 ∧ lo = (if f32Neg x then x else y) ∧ hi = (if f32Neg x then y else x))) ∧
      (f32Nan x → ¬ f32Nan y → lo = y ∧ hi = y) ∧ (¬ f32Nan x → f32Nan y → lo = x ∧ hi = x) ∧
      (f32Nan x → f32Nan y → lo = f32Qnan ∧ hi = f32Qnan)

/-- `f2i` (R72): NaN writes 0 with nv; a value beyond the range writes the end on its side with nv alone; every other finite
value is rounded to the nearest integer, ties to even, with nx exactly where it was none. -/
def Obligations.FloatToInteger : Prop :=
  ∀ (d a : Reg) (s : State),
    let x := (s.core.rg a).setWidth 32
    ∃ (n : Int) (f : BitVec 6),
      exec (.f2i d a) s = .next (s.wroteF 4 d (wrapI n) f) ∧ -2 ^ 63 ≤ n ∧ n < 2 ^ 63 ∧
      (f32Nan x → n = 0 ∧ f = flNv) ∧
      (f32Inf x → n = (if f32Neg x then -2 ^ 63 else 2 ^ 63 - 1) ∧ f = flNv) ∧
      (f32Finite x → f32Value x < -2 ^ 63 → n = -2 ^ 63 ∧ f = flNv) ∧
      (f32Finite x → 2 ^ 63 ≤ f32Value x → n = 2 ^ 63 - 1 ∧ f = flNv) ∧
      (f32Finite x → -2 ^ 63 ≤ f32Value x → f32Value x < 2 ^ 63 →
        2 * |f32Value x - n| ≤ 1 ∧ (2 * |f32Value x - n| = 1 → n % 2 = 0) ∧
        ((f32Value x = n ∧ f = 0) ∨ (f32Value x ≠ n ∧ f = flNx)))

/-! ## Control flow and CSRs -/

/-- Branches and jumps (R73-R75): the next word is at pc + 4 or at pc + 4·sext(off), and a link register takes pc + 4,
whatever the target. Nothing else changes. `jt` reads the count word as a fetch, and goes on at entry g[b] of its table; its
failures are traps of its own, with the `tval` that R75 names. -/
def Obligations.Jumps : Prop :=
  ∀ (d a b : Reg) (off : BitVec 12) (far : BitVec 22) (s : State),
    let c := s.core
    let x := c.rg a
    let y := c.rg b
    let goes (p : Prop) [Decidable p] : Dword := if p then wrapI (sInt c.pc + 4 * off.toInt) else c.pc + 4
    let go := wrapI (sInt c.pc + 4 * far.toInt)
    exec (.beq a b off) s = .next (s.wentTo c (goes (x = y))) ∧
    exec (.bne a b off) s = .next (s.wentTo c (goes (x ≠ y))) ∧
    exec (.blt a b off) s = .next (s.wentTo c (goes (sInt x < sInt y))) ∧
    exec (.bge a b off) s = .next (s.wentTo c (goes (sInt y ≤ sInt x))) ∧
    exec (.bltu a b off) s = .next (s.wentTo c (goes (uNat x < uNat y))) ∧
    exec (.bgeu a b off) s = .next (s.wentTo c (goes (uNat y ≤ uNat x))) ∧
    exec (.j far) s = .next (s.wentTo c go) ∧
    exec (.jal far) s = .next (s.wentTo (c.setG 31 (c.pc + 4)) go) ∧
    exec (.jalr d a) s = .next (s.wentTo (c.setG d (c.pc + 4)) x) ∧
    (let w := s.codeWord x.toNat
      let n := w.toNat % 2 ^ 22
      let traps (k : Nat) (v : Dword) : State := enterTrap k c.pc v s
      s.fetchPoison x.toNat = false →
      exec (.jt a b) s = .next (
        if s.fetchOk x.toNat = false then traps cFetch x
        else if w.toNat / 2 ^ 22 ≠ 0x3F0 then traps cJumpTable x
        else if n = 0 ∨ n ≤ y.toNat then traps cJumpTable y
        else s.wentTo c (x + 4 + 4 * y)))

/-- Every CSR that can be read answers the value that R33-R38 give it, and the old value goes to d: `csrrs` and `csrrc` with
a = 0 write nothing. `fflg` waits for the queues, tcN for the entries that name its tile, and `coreid` needs a task that is not
deterministic (R26, R36, R38, R76). -/
def Obligations.CsrReads : Prop :=
  ∀ (d : Reg) (csr : BitVec 12) (s : State),
    let c := s.core
    let values : List (Nat × Dword) :=
      [(0x000, wrapN (c.det.toNat * 128 + c.phm.toNat * 2 + c.hm.toNat)), (0x001, wrapN c.cause.toNat), (0x002, c.epc),
       (0x003, c.tval), (0x004, wrapN c.fflg.toNat), (0x010, wrapN c.partid.toNat), (0x011, wrapN c.phase.toNat),
       (0x012, wrapN c.teamid.toNat), (0x013, wrapN c.teamsz.toNat), (0x014, c.seed), (0x015, wrapN c.iterlim.toNat),
       (0x016, wrapN c.bankmode.toNat),
       (0x017, wrapN (c.msUp.toNat * 2 ^ 24 + c.msDn.toNat * 2 ^ 16 + c.lmUp.toNat * 2 ^ 8 + c.lmDn.toNat)),
       (0x018, wrapN c.id.toNat)] ++ (List.range 16).map fun t => (0x020 + t, (c.tile (BitVec.ofNat 4 t)).tc)
    (csr = 0x004 → c.quiet = true) → (csr = 0x018 → c.det = false) →
    (0x020 ≤ csr.toNat → ∀ q ∈ [1, 2, 3], ∀ e ∈ c.queue q, csr.extractLsb' 0 4 ∉ e.names) →
    ∀ v, (csr.toNat, v) ∈ values →
      exec (.csrrs d 0 csr) s = .next (s.wrote 4 d v) ∧ exec (.csrrc d 0 csr) s = .next (s.wrote 4 d v)

/-- The writes of CSRs (R33, R34, R76): the bits within the register's width are stored, 0 to `iterlim` stores 1, the old
value goes to d; `csrrw` stores g[a], `csrrwi` its immediate, and `csrrs` and `csrrc` combine the old value with g[a]. `cause`,
`epc` and `tval` are written in handler mode; `fflg` waits for the queues. `bankmode` has a statement of its own. -/
def Obligations.CsrWrites : Prop :=
  ∀ (d a u : Reg) (csr : BitVec 12) (s : State),
    let c := s.core
    let x := c.rg a
    let writable : List (Nat × Dword × (Dword → Core)) :=
      [(0x001, wrapN c.cause.toNat, fun v => { c with cause := v.setWidth 7 }), (0x002, c.epc, fun v => { c with epc := v }),
       (0x003, c.tval, fun v => { c with tval := v }), (0x004, wrapN c.fflg.toNat, fun v => { c with fflg := v.setWidth 6 }),
       (0x014, c.seed, fun v => { c with seed := v }),
       (0x015, wrapN c.iterlim.toNat, fun v =>
        { c with iterlim := if v.setWidth 8 = (0 : BitVec 8) then 1 else v.setWidth 8 })]
    (csr.toNat ≤ 3 → c.hm = true) → (csr = 0x004 → c.quiet = true) →
    ∀ old put, (csr.toNat, old, put) ∈ writable →
      let ends (v : Dword) : State := s.did 4 ((put v).setG d old)
      exec (.csrrw d a csr) s = .next (ends x) ∧ exec (.csrrwi d u csr) s = .next (ends (wrapN u.toNat)) ∧
      (a ≠ 0 → exec (.csrrs d a csr) s = .next (ends (old ||| x)) ∧ exec (.csrrc d a csr) s = .next (ends (old &&& ~~~ x)))

/-- A CSR that is unassigned, or that the mode may not write, is an illegal instruction: the trap is taken before the read,
and `tval` is the word (R34, R50, R76). -/
def Obligations.CsrIllegal : Prop :=
  ∀ (d a : Reg) (csr : BitVec 12) (s : State),
    let assigned := csr.toNat ≤ 4 ∨ (0x10 ≤ csr.toNat ∧ csr.toNat ≤ 0x18) ∨ (0x20 ≤ csr.toNat ∧ csr.toNat ≤ 0x2F)
    let writable := csr.toNat = 4 ∨ (0x14 ≤ csr.toNat ∧ csr.toNat ≤ 0x16) ∨
      (s.core.hm = true ∧ 1 ≤ csr.toNat ∧ csr.toNat ≤ 3)
    let traps (i : Instr) : Prop :=
      exec i s = .next (enterTrap 0x01 s.core.pc (wrapN (encode i).1.toNat) s)
    (¬ assigned → traps (.csrrw d a csr) ∧ traps (.csrrs d a csr) ∧ traps (.csrrc d a csr) ∧ traps (.csrrwi d a csr)) ∧
    (¬ writable → traps (.csrrw d a csr) ∧ traps (.csrrwi d a csr) ∧
      (a ≠ 0 → traps (.csrrs d a csr) ∧ traps (.csrrc d a csr)))

/-- A write of `bankmode`, by each of the four CSR words, waits for the queues; the code is stored, and each bank whose code changes is emptied unless it
stays between scratchpad (0) and shared (3). Every other bank keeps its contents (R210, R211). The core's earlier stores are
performed; the task is not deterministic: a deterministic one is judged by its tags first. -/
def Obligations.BankMode : Prop :=
  ∀ (d a u : Reg) (s : State), s.core.quiet = true → s.noneFar 1 → s.core.det = false →
    let c := s.core
    let was := wrapN c.bankmode.toNat
    ∀ w ∈ [(Instr.csrrw d a 0x016, c.rg a), (.csrrwi d u 0x016, wrapN u.toNat)] ++
        (if a = 0 then [] else [(Instr.csrrs d a 0x016, was ||| c.rg a), (.csrrc d a 0x016, was &&& ~~~ c.rg a)]),
    ∃ t, exec w.1 s = .next t ∧ t.core.bankmode = w.2.setWidth 24 ∧
      t.core.pc = c.pc + 4 ∧ t.core.rg d = (if d = 0 then 0 else was) ∧ t.mem = s.mem ∧ t.code = s.code ∧
      ∀ b < 12, ∀ o < 0x20000,
        let old := c.bankMode b
        let new := t.core.bankMode b
        memByte t.bank (bankBase c.id b + o) =
          if old = new ∨ (old ∈ [0, 3] ∧ new ∈ [0, 3]) then memByte s.bank (bankBase c.id b + o) else 0

/-! ## Memory -/

namespace Sys2Proof.Machine

/-- An access of the sequencer's at a scope is answered: it reads these bytes and leaves `t`, in which what the access itself
sets off has happened (a region applied, a tag recorded). -/
def Reads (sc : BitVec 3) (loc : Bool) (a n : Nat) (s : State) (bs : List Byte) (t : State) : Prop :=
  readAt (s.core.who true sc) loc a n s = .ok (.ok bs, t)
/-- An access that writes is answered and leaves `t`. -/
def Writes (sc : BitVec 3) (loc : Bool) (a : Nat) (bs : List Byte) (s t : State) : Prop :=
  writeAt (s.core.who true sc) loc a bs s = .ok (.ok (), t)

/-- The translation that an access of the current core uses: one that a pin of it keeps (R86, R87; log 90), else for its sequencer
the one that a first-level line of the core recorded (R213), else the table's (R297, R299). -/
def State.translation (s : State) (va : Nat) (seq : Bool := true) : Option Leaf :=
  (s.core.pins.findSome? fun p => p.leaf va).or
    ((if seq then (s.cache.l1.find? fun x => x.core = s.core.id ∧ x.va / 64 = va / 64).map fun x =>
        { x.leaf with pa := x.leaf.pa + va - x.va } else none).or (s.walk s.core.partid va))

/-- A virtual line is one physical line: no pin or first-level line that keeps an older translation covers a part of one only. -/
def State.linesWhole (s : State) : Prop :=
  ∀ x y l m, x / 64 = y / 64 → s.translation x = some l → s.translation y = some m → l.pa + y = m.pa + x

/-- `n` bytes at a virtual address lie in one granule that the current core's accesses (those of its sequencer, else of a queue)
translate, with a permission, to `pa` in the device's own memory; no line of them is poisoned; no update region is declared, and the task is not deterministic. -/
def State.plain (s : State) (p : Perm) (va n pa : Nat) (seq : Bool := true) : Prop :=
  0 < n ∧ va + n ≤ 2 ^ 57 ∧ (va + n - 1) / 16384 = va / 16384 ∧
  (∃ l, s.translation va seq = some l ∧ l.grants p = true ∧ l.pa = pa) ∧ (isHbm pa = true ∨ isLp6 pa = true) ∧
  s.pools = [] ∧ (∀ l ∈ linesOf pa n, l ∉ s.poison) ∧ s.regions = [] ∧ s.core.det = false

/-- `n` bytes at a cluster-local address lie in one bank that the sequencer may access, at place `k` of the banks. -/
def State.plainBank (s : State) (a n k : Nat) : Prop :=
  0 < n ∧ (a + n - 1) / 0x20000 = a / 0x20000 ∧ localOk s (s.core.who true 0) a n = some k ∧
  (∀ l ∈ linesOf k n, l ∉ s.bankPoison) ∧ s.core.det = false

/-- The value of bytes, the lowest address first. -/
def leValue (bs : List Byte) : Nat := (bs.zipIdx.map fun p => p.1.toNat * 256 ^ p.2).sum

end Sys2Proof.Machine

/-- A load that its address checks pass: the bytes of the access, sign- or zero-extended, go to d (R78, R79, R80). -/
def Obligations.Loads : Prop :=
  ∀ (sc : BitVec 3) (loc : Bool) (d a : Reg) (x : BitVec 32) (s t : State) (bs : List Byte),
    let ea := s.core.rg a + x.signExtend 64
    let at_ (n : Nat) : Prop := ea.toNat % n = 0 ∧ Reads sc loc ea.toNat n s bs t
    let u := leValue bs
    let sx (n : Nat) : Dword := wrapI (BitVec.ofNat n u).toInt
    (at_ 1 → exec (.ldB sc loc d a x) s = .next (t.wrote 8 d (sx 8)) ∧
      exec (.ldBu sc loc d a x) s = .next (t.wrote 8 d (wrapN u))) ∧
    (at_ 2 → exec (.ldH sc loc d a x) s = .next (t.wrote 8 d (sx 16)) ∧
      exec (.ldHu sc loc d a x) s = .next (t.wrote 8 d (wrapN u))) ∧
    (at_ 4 → exec (.ldW sc loc d a x) s = .next (t.wrote 8 d (sx 32)) ∧
      exec (.ldWu sc loc d a x) s = .next (t.wrote 8 d (wrapN u))) ∧
    (at_ 8 → (loc = true → fifoWord s.core ea.toNat = none) →
      exec (.ldD sc loc d a x) s = .next (t.wrote 8 d (wrapN u))) ∧
    (at_ 64 → exec (.sld sc loc d a x) s = .next (t.did 8 (t.core.setS d (BitVec.ofNat 512 u)))) ∧
    (ea.toNat % 8 = 0 → ∀ w, loc = true → fifoWord s.core ea.toNat = some w → s.core.det = false →
      exec (.ldD sc loc d a x) s = .next (s.wrote 8 d w))

/-- A store that its address checks pass writes the low bytes of g[b] there, and no register (R78, R79). -/
def Obligations.Stores : Prop :=
  ∀ (sc : BitVec 3) (loc : Bool) (a b : Reg) (x : BitVec 32) (s t : State),
    let ea := s.core.rg a + x.signExtend 64
    let at_ (n : Nat) : Prop :=
      ea.toNat % n = 0 ∧ Writes sc loc ea.toNat ((List.range n).map fun i => (s.core.rg b).extractLsb' (8 * i) 8) s t
    (at_ 1 → exec (.stB sc loc a b x) s = .next (t.did 8 t.core)) ∧
    (at_ 2 → exec (.stH sc loc a b x) s = .next (t.did 8 t.core)) ∧
    (at_ 4 → exec (.stW sc loc a b x) s = .next (t.did 8 t.core)) ∧
    (at_ 8 → exec (.stD sc loc a b x) s = .next (t.did 8 t.core))

/-- A plain access reads the bytes that the memory holds and changes nothing but which lines the caches hold (R78, R79, R213). A plain
store changes exactly the bytes stored: they read as written, every other byte of every memory as before, and nothing else changes
but those lines, the watches of other cores that it fires, and the trackers that note its lines (R78, R79, R84, R306). After an
access that lies in one line the core's first-level cache holds it with its translation (R213). -/
def Obligations.PlainAccesses : Prop :=
  ∀ (sc : BitVec 3) (a n k : Nat) (bs : List Byte) (s : State), MemoryOk s →
    let stored (m n : List Host.Cell) : Prop :=
      (∀ i (h : i < bs.length), memByte n (k + i) = bs[i]) ∧
      ∀ x, x < k ∨ k + bs.length ≤ x → memByte n x = memByte m x
    let holds (t : State) (n : Nat) : Prop := k % 64 + n ≤ 64 → ∃ l, t.cache.hit s.core.id a = some l ∧ (s.core.pins = [] → l.pa = k)
    (s.plain .r a n k → ∃ bs t, Reads sc false a n s bs t ∧ bs.length = n ∧
      (∀ i, i < n → bs[i]? = some (memByte s.mem (k + i))) ∧ t = { s with cache := t.cache } ∧ holds t n) ∧
    (s.plainBank a n k → ∃ bs, Reads sc true a n s bs s ∧ bs.length = n ∧ ∀ i, i < n → bs[i]? = some (memByte s.bank (k + i))) ∧
    let fires (c : Core) : Core := if c.id = s.core.id then c else
      { c with watch := c.watch.map fun w => if w.pline ∈ linesOf k bs.length then { w with fired := true } else w }
    (s.plain .w a bs.length k → ∃ t, Writes sc false a bs s t ∧ stored s.mem t.mem ∧
      t = { s with mem := t.mem, others := s.others.map fires, trackers := s.trackers.map (fun x => x.note k bs.length),
                   cache := t.cache } ∧ holds t bs.length) ∧
    (s.plainBank a bs.length k → ∃ t, Writes sc true a bs s t ∧ stored s.bank t.bank ∧ t = { s with bank := t.bank })

/-- The atomics (R81, R82): the old value goes to d, the new one to memory, in one step; `amo.cas` expects g[d] and writes
only if it finds it; `amo.fadd` ORs the flags of its sum. A scope wider than CO needs a task that is not deterministic (R83). -/
def Obligations.Atomics : Prop :=
  ∀ (sc : BitVec 3) (d a b : Reg) (x : BitVec 32) (s : State) (pa : Nat),
    let ea := s.core.rg a + x.signExtend 64
    let y := s.core.rg b
    let old (n : Nat) : Nat := leValue (memRead s.mem pa n)
    let new (n v : Nat) : List Host.Cell := memWrite s.mem pa (leBytes n v)
    let ends (i : Instr) (n : Nat) (fl : BitVec 6) (m : List Host.Cell) : Prop :=
      ∃ t, exec i s = .next t ∧ t.mem = m ∧ t.core.rg d = (if d = 0 then 0 else wrapN (old n)) ∧
        t.core.fflg = s.core.fflg ||| fl ∧ t.core.pc = s.core.pc + 8 ∧ (∀ r, r ≠ d → t.core.rg r = s.core.rg r) ∧
        t.bank = s.bank ∧ t.code = s.code
    (ea.toNat % 8 = 0 → s.plain .r ea.toNat 8 pa → s.plain .w ea.toNat 8 pa →
      ends (.amoAdd sc d a b x) 8 0 (new 8 (old 8 + y.toNat)) ∧ ends (.amoSwap sc d a b x) 8 0 (new 8 y.toNat) ∧
      ends (.amoCas sc d a b x) 8 0 (if old 8 = (s.core.rg d).toNat then new 8 y.toNat else s.mem)) ∧
    (ea.toNat % 4 = 0 → s.plain .r ea.toNat 4 pa → s.plain .w ea.toNat 4 pa →
      ends (.amoFadd sc d a b x) 4 (fp32Add (BitVec.ofNat 32 (old 4)) (y.setWidth 32)).2
        (new 4 (fp32Add (BitVec.ofNat 32 (old 4)) (y.setWidth 32)).1.toNat))

/-- An address that is not aligned to the size raises the alignment trap with `tval` = the address, before any access; a
missing translation and a missing permission are fatal context errors with `tval` = the address (R78). The translation is a
pin's where one keeps it (R86). -/
def Obligations.AccessChecks : Prop :=
  ∀ (sc : BitVec 3) (loc : Bool) (d a b : Reg) (x : BitVec 32) (s : State),
    let ea := s.core.rg a + x.signExtend 64
    let pc := s.core.pc
    let sized : List (Instr × Nat × Perm) :=
      [(.ldB sc loc d a x, 1, .r), (.ldH sc loc d a x, 2, .r), (.ldW sc loc d a x, 4, .r), (.ldD sc loc d a x, 8, .r),
       (.ldBu sc loc d a x, 1, .r), (.ldHu sc loc d a x, 2, .r), (.ldWu sc loc d a x, 4, .r), (.sld sc loc d a x, 64, .r),
       (.stB sc loc a b x, 1, .w), (.stH sc loc a b x, 2, .w), (.stW sc loc a b x, 4, .w), (.stD sc loc a b x, 8, .w)]
    ∀ q ∈ sized,
      (ea.toNat % q.2.1 ≠ 0 → exec q.1 s = .next (enterTrap 0x05 pc ea s)) ∧
      (ea.toNat % q.2.1 = 0 → loc = false → ea.toNat + q.2.1 ≤ 2 ^ 57 →
        (s.translation ea.toNat = none → exec q.1 s = .next (endContext 0x30 pc ea s.core.id s)) ∧
        (∀ l, s.translation ea.toNat = some l → l.grants q.2.2 = false →
          exec q.1 s = .next (endContext 0x31 pc ea s.core.id s))) ∧
      (ea.toNat % q.2.1 = 0 → loc = false → 2 ^ 57 < ea.toNat + q.2.1 → exec q.1 s = .next (enterTrap 0x04 pc ea s)) ∧
      (ea.toNat % q.2.1 = 0 → loc = true → (q.1 = .ldD sc loc d a x → fifoWord s.core ea.toNat = none) →
        localOk s (s.core.who true sc) ea.toNat q.2.1 = none → exec q.1 s = .next (enterTrap 0x04 pc ea s))

/-! ## The other words of the sequencer -/

/-- `tshape` waits for the entries that name its tile, then grants the shape that R94 computes, in the tile and in d; a request
beyond 18 bits is a shape mismatch. `pset` checks a descriptor and writes it, p0 apart; `pget` reads it (R31, R119, R120). -/
def Obligations.Shapes : Prop :=
  ∀ (d a b : Reg) (tile : BitVec 4) (pat : BitVec 3) (s : State),
    let c := s.core
    let q := (c.rg b).toNat
    let wc := q / 2 ^ 16 % 8
    let cols := min (max (q / 256 % 256) 1) 64
    let rows := min (min (max (q % 256) 1) 128) (32768 / (cols * (4 * 2 ^ wc)))
    let grant := wrapN (wc * 2 ^ 16 + cols * 2 ^ 8 + rows)
    let v := (c.rg a).toNat
    let kind := v % 16
    let n := v / 16 % 1024
    let good := kind < 10 ∧ 1 ≤ n ∧ n ≤ 256 ∧ v / 2 ^ 14 % 4 = 0 ∧
      (kind ≤ 6 → v / 2 ^ 16 = 0) ∧ (kind = 7 → v / 2 ^ 16 % 2 ^ 16 = 0) ∧ (kind = 8 → v / 2 ^ 32 = 0) ∧
      (kind = 9 → v / 2 ^ 20 = 0)
    ((∀ k ∈ [1, 2, 3], ∀ e ∈ c.queue k, tile ∉ e.names) →
      (q < 2 ^ 18 → exec (.tshape d tile b) s =
        .next (s.did 4 ((c.setTile tile { c.tile tile with tc := grant }).setG d grant))) ∧
      (2 ^ 18 ≤ q → exec (.tshape d tile b) s = .next (enterTrap 0x0C c.pc (c.rg b) s))) ∧
    exec (.pset 0 a) s = .next (s.did 4 c) ∧
    (pat ≠ 0 → good → exec (.pset pat a) s = .next (s.did 4 { c with p := c.p.set pat.toNat (c.rg a) pat.isLt })) ∧
    (pat ≠ 0 → ¬ good → exec (.pset pat a) s = .next (enterTrap 0x0E c.pc (c.rg a) s)) ∧
    exec (.pget d pat) s = .next (s.wrote 4 d (if pat = 0 then 0 else c.p[pat.toNat]'(pat.isLt)))

/-- `fence` and the probes complete once the queues are empty (R86-R88): a fence when no store of the core's is on its way at
its scope, else it waits, and the loss of one ends its context (R240); a probe pins a range whose every granule the table translates with the permission, and its pin keeps
those translations; `prb.rel` releases the newest entry of a base and length. A store of the core's own to a peer or to the
host performs at no scope below DM and SY, so that every fence waits for it (R234); a fence at PL and SY is cumulative (R230) and
waits for the stores of the device's other agents to the pool too, but for those of a transfer under way (R88; log 111). -/
def Obligations.FencesAndProbes : Prop :=
  ∀ (sc : BitVec 3) (a b : Reg) (s : State),
    let c := s.core
    let va := (c.rg a).toNat
    let n := (c.rg b).toNat
    let passes (p : Perm) : Prop := n ≤ 2 ^ 36 ∧ va + n ≤ 2 ^ 57 ∧
      ∀ g ∈ granules va n, ∃ l, s.walk c.partid g = some l ∧ l.grants p = true ∧ s.poolLost l.pa = false
    let pin (w : Bool) (l : List (Nat × Leaf)) : Pin := ⟨c.rg a, c.rg b, w, false, l⟩
    let pinned (w : Bool) (l : List (Nat × Leaf)) : State :=
      s.did 4 (if n = 0 then c else { c with pins := c.pins ++ [pin w l] })
    let keeps (w : Bool) (l : List (Nat × Leaf)) : Prop := ∀ x, va ≤ x → x < va + n → (pin w l).leaf x = s.walk c.partid x
    (c.quiet = true → s.noneFar sc → ¬ s.deviceFar sc →
      exec (.fence sc) s = .next (s.did 4 { c with commit := if c.commit = .fence then .none else c.commit })) ∧
    (c.quiet = true → s.someFar sc → exec (.fence sc) s = .next { s with core := { c with stall := 0 } }) ∧
    (c.quiet = true → s.noneFar sc → s.deviceFar sc →
      exec (.fence sc) s = .next { s with core := { c with commit := .fence, stall := 0 } }) ∧
    (c.quiet = true → 5 ≤ sc.toNat → (∃ p ∈ s.poolStores, p.ctx = c.ctx ∧ p.lost = true ∧
        c.made p.core p.agent p.task p.member = true) → exec (.fence sc) s = .next (endContext 0x33 c.pc 0 c.id s)) ∧
    (c.quiet = true → (n = 0 ∨ c.pins.length < 16) →
      (passes .r → ∃ l, exec (.prbR a b) s = .next (pinned false l) ∧ keeps false l) ∧
      (passes .w → ∃ l, exec (.prbW a b) s = .next (pinned true l) ∧ keeps true l)) ∧
    (c.quiet = true → n ≠ 0 → 16 ≤ c.pins.length → passes .r →
      exec (.prbR a b) s = .next (enterTrap 0x07 c.pc (c.rg a) s)) ∧
    ((∀ p ∈ c.pins, ¬ (p.base = c.rg a ∧ p.len = c.rg b)) → exec (.prbRel a b) s = .next (s.did 4 c)) ∧
    (∀ l r p, c.pins = l ++ p :: r → p.base = c.rg a → p.len = c.rg b →
      (∀ q ∈ r, ¬ (q.base = c.rg a ∧ q.len = c.rg b)) →
      exec (.prbRel a b) s = .next (s.did 4 { c with pins := l ++ r }))

/-- `mon.arm` watches the line of an address, translated for a read (log 93), and `mon.wait` returns: 2 with no watch, 0 if it
has fired, or if a pre-emption has interrupted it (R325), 1 if its time is 0 or has passed; else it sleeps. Every return
disarms the watch; neither runs in deterministic mode (R84, R85). -/
def Obligations.Monitor : Prop :=
  ∀ (sc : BitVec 3) (d a : Reg) (s : State), s.core.det = false →
    let c := s.core
    let v := (c.rg a).toNat
    let returns (k : Dword) : State :=
      s.did 4 { c.setG d k with commit := .none, watch := none, asleep := false, timedOut := false, woken := false, deadline := 0 }
    (∀ pa, s.plain .r v 1 pa → exec (.monArm a sc) s = .next (s.did 4 { c with watch := some ⟨v / 64, pa / 64, sc, false⟩ })) ∧
    (c.commit = .monDone → exec (.monWait d a) s = .next (returns 0)) ∧
    (c.commit ≠ .monDone →
      (c.watch = none → exec (.monWait d a) s = .next (returns 2)) ∧
      (∀ w, c.watch = some w → w.fired = true → exec (.monWait d a) s = .next (returns 0)) ∧
      (∀ w, c.watch = some w → w.fired = false → (v = 0 ∨ c.timedOut = true) → exec (.monWait d a) s = .next (returns 1)) ∧
      (∀ w, c.watch = some w → w.fired = false → v ≠ 0 → c.timedOut = false → c.asleep = false →
        ∃ t, exec (.monWait d a) s = .next t ∧ t.core.asleep = true ∧ t.core.deadline = s.now + min v (2 ^ 40) ∧
          t.core.pc = c.pc ∧ t.core.watch = c.watch))

/-- The loop table (R89-R91): `lpt.ld` reads four loop words at plain addresses and loads the levels: kind, trip count (from
the word, or from a doubleword of the launch frame) and the first index; `lpt.ix` writes the index of a level in use, `lpt.nx` advances a temporal one and tells whether
the loop continues; a pin or a first-level line that keeps an older translation keeps it for whole lines (R213); a level above 3, an unused one, and a spatial one in `lpt.nx` trap with the level as `tval`. -/
def Obligations.LoopTable : Prop :=
  ∀ (d a : Reg) (s : State),
    (∀ n : Fin 4, (s.core.rg a).toNat = n →
      let c := s.core
      let l := c.loops[n]
      let traps : State := enterTrap 0x0B c.pc (c.rg a) s
      let more := l.idx.toNat + 1 < l.trips.toNat
      (l.kind ≠ 0 → exec (.lptIx d a) s = .next (s.wrote 4 d (wrapN l.idx.toNat))) ∧
      (l.kind = 0 → exec (.lptIx d a) s = .next traps) ∧
      (l.kind = 1 → exec (.lptNx d a) s = .next (s.did 4
        (({ c with loops := c.loops.set n { l with idx := if more then l.idx + 1 else 0 } }).setG d (if more then 1 else 0)))) ∧
      (l.kind ≠ 1 → exec (.lptNx d a) s = .next traps)) ∧
    (4 ≤ (s.core.rg a).toNat → exec (.lptIx d a) s = .next (enterTrap 0x0B s.core.pc (s.core.rg a) s) ∧
      exec (.lptNx d a) s = .next (enterTrap 0x0B s.core.pc (s.core.rg a) s)) ∧
    ∀ (w : Fin 4 → Dword) (tr : Fin 4 → BitVec 32) (pw pf : Fin 4 → Nat),
    let c := s.core
    let va (k : Fin 4) : Dword := c.rg a + wrapN (8 * k)
    let kind (k : Fin 4) : BitVec 2 := (w k).extractLsb' 62 2
    let frame (k : Fin 4) : Dword := recFrame c.record + wrapN ((w k).toNat % 2 ^ 32)
    (∀ k, (va k).toNat % 8 = 0 ∧ s.plain .r (va k).toNat 8 (pw k) ∧ memRead s.mem (pw k) 8 = leBytes 8 (w k).toNat) →
    (∀ k, (w k).toNat / 2 ^ 32 % 2 ^ 29 = 0 ∧ (kind k = 0 → w k = 0 ∧ tr k = 0)) →
    (∀ k, kind k ≠ 0 → (w k).getLsbD 61 = false → tr k = (w k).setWidth 32 ∧ tr k ≠ 0) →
    (∀ k, kind k ≠ 0 → (w k).getLsbD 61 = true → (w k).toNat % 8 = 0 ∧ (frame k).toNat % 8 = 0 ∧ tr k ≠ 0 ∧
      s.plain .r (frame k).toNat 8 (pf k) ∧ memRead s.mem (pf k) 8 = leBytes 8 (tr k).toNat) →
    (∀ k, kind k = 2 → (tr k).toNat = c.teamsz.toNat) → s.linesWhole →
    ∃ t, exec (.lptLd a) s = .next t ∧ t.core.pc = c.pc + 4 ∧ t.mem = s.mem ∧ t.bank = s.bank ∧
      ∀ k : Fin 4, t.core.loops[k] = ⟨kind k, tr k,
        if kind k = 2 then c.teamid.setWidth 32 else if kind k = 3 then c.inst.setWidth 32 else 0⟩

/-! ## Traps -/

/-- Taking a synchronous trap (R316, R319): the saved registers, the mode, and the pc at the partition's trap entry; a
counter apart (R338), and the word's own wait, no other state changes. With no usable entry, or with hm = phm = 1, the context ends. -/
def Obligations.TrapEntry : Prop :=
  ∀ (cause : Nat) (epc tval : Dword) (s : State),
    let c := s.core
    let entry := s.pg c.partid 8 4
    let t := enterTrap cause epc tval s
    (c.hm = true → c.phm = true → t = endContext 0x34 epc tval c.id s) ∧
    (¬ (c.hm = true ∧ c.phm = true) → ¬ (cause = 0x03 ∧ c.hm = true ∧ epc = wrapN entry) →
      (entry = 0 ∨ s.inWindow c.partid entry 4 = false → t = endContext 0x35 epc tval c.id s) ∧
      (entry ≠ 0 → s.inWindow c.partid entry 4 = true →
        t = { s with core := t.core } ∧ t.core.cause.toNat = cause % 128 ∧ t.core.epc = epc ∧ t.core.tval = tval ∧
        t.core.phm = c.hm ∧ t.core.hm = true ∧ t.core.pc = wrapN entry ∧
        t.core = { c with cause := t.core.cause, epc := epc, tval := tval, phm := c.hm, hm := true, pc := t.core.pc,
                          counters := t.core.counters, waitCmd := 0, cmdDone := none,
                          objWaits := c.objWaits.filter fun w => w.agent ≠ 0 }))

/-- `trap` and `brk` take their exceptions: 0x50 + n for n up to 46, 0x7F beyond, with `tval` = g[a]; the breakpoint trap with
`tval` = 0 where the partition enables no debug halt (R333). `epc` is the word's own address (R65).
`eret` (R318): in task mode the illegal-instruction trap; else hm takes phm, phm is 0, and the pc is `epc`, or the resume
address where held state exists and the handler is left. `cause`, `epc` and `tval` stay. -/
def Obligations.TrapWords : Prop :=
  ∀ (a : Reg) (s : State),
    let v := s.core.rg a
    let c := s.core
    exec (.trap a) s = .next (enterTrap (if v.toNat ≤ 46 then 0x50 + v.toNat else 0x7F) s.core.pc v s) ∧
    (s.pageFlag 0 = false → exec .brk s = .next (enterTrap 0x09 s.core.pc 0 s)) ∧
    (s.pageFlag 0 = true → ∃ t, exec .brk s = .next t ∧
      t = { saveContext 0x4D false true s.core.id s with core := t.core }) ∧
    (c.hm = false → exec .eret s = .next (enterTrap 0x01 c.pc 0xF0000003 s)) ∧
    (c.hm = true → c.phm = true ∨ c.held = none →
      exec .eret s = .next { s with core := { c.count 1 with hm := c.phm, phm := false, pc := c.epc, stall := 0 } }) ∧
    (∀ h, c.hm = true → c.phm = false → c.held = some h →
      exec .eret s = .next { s with core :=
        { c.count 1 with hm := false, phm := false, pc := h.resume, held := none, stall := 0 } })

/-- `nop` does nothing; `pm.idle` sleeps, then wakes (R332, R337). `cnt.rd` reads a counter, `ecc.inj` poisons a line or arms
an injected error, in a handler of a partition that allows it (R338, R339). -/
def Obligations.SystemWords : Prop :=
  ∀ (d a b : Reg) (s : State),
    let c := s.core
    let n := (c.rg a).toNat
    exec .nop s = .next (s.did 4 c) ∧
    (c.quiet = true → (c.woken = true ∨ c.timedOut = true ∨ ∃ w, c.watch = some w ∧ w.fired = true) →
      exec .pmIdle s =
        .next (s.did 4 { c with commit := .none, asleep := false, woken := false, timedOut := false, deadline := 0 })) ∧
    (c.quiet = true → c.woken = false → c.timedOut = false → c.watch = none → c.asleep = false →
      exec .pmIdle s =
        .next { s with core := { c with commit := .idle, asleep := true, deadline := s.now + 100000, stall := 0 } }) ∧
    (c.det = false →
      (n ∈ [1, 2, 3, 4, 6, 7, 8, 10, 11] → exec (.cntRd d a) s = .next (s.wrote 4 d (vget c.counters n 0))) ∧
      (n = 9 → exec (.cntRd d a) s = .next (s.wrote 4 d (s.part c.partid).degraded)) ∧
      (n = 0 ∨ n = 5 → ∃ v t, exec (.cntRd d a) s = .next t ∧ t = { s.wrote 4 d v with fresh := t.fresh }) ∧
      (11 < n → exec (.cntRd d a) s = .next (enterTrap 0x1E c.pc (c.rg a) s))) ∧
    (c.hm = true → s.pageFlag 1 = true →
      (∀ pa, n ≤ 1 → s.plain .r (c.rg b).toNat 1 pa → exec (.eccInj a b) s =
        .next ({ s with poison := if n = 0 ∨ pa / 64 ∈ s.poison then s.poison else s.poison ++ [pa / 64] }.did 4 c)) ∧
      (n = 2 → exec (.eccInj a b) s = .next (s.did 4 { c with injArray := true })) ∧
      (n = 3 → exec (.eccInj a b) s = .next (s.did 4 { c with injClap := true })) ∧
      (3 < n → exec (.eccInj a b) s = .next (enterTrap 0x1F c.pc (c.rg a) s)))

/-! ## Synchronisation -/

namespace Sys2Proof.Machine

/-- The word waits: the pc stands and nothing else changes. -/
def State.waits (s : State) : State := { s with core := { s.core with stall := 0 } }

/-- The sequencer begins to wait on an object (R182, R183). -/
def State.waitsAt (s : State) (ring : Bool) (place : Nat) : State :=
  { s with core := { s.core with stall := 0, objWaits := s.core.objWaits ++ [⟨0, ring, place, false⟩] } }

/-- The state with a free value of the model's taken (log 9). -/
def State.drawn (s : State) : State := { s with fresh := s.fresh + 1 }

/-- A synchronous trap of the word itself whose rule names no `tval` (R316; log 9: a free value). -/
def State.trapped (s : State) (cause : Nat) : State := enterTrap cause s.core.pc (Config.openTval s.fresh) s.drawn

/-- The entry of a queue word whose waits are consumed (R14, R15). -/
def State.entry (i : Instr) (s : State) : Entry := { entryOf i s.core s.nextNum with waited := true }

/-- The state in which the entry of a queue word starts: the word is routed, the pc has passed it, its waits are consumed. -/
def State.begun (i : Instr) (s : State) : State :=
  { s with core := (consume ((s.core.enqueue (queueOf i) (entryOf i s.core s.nextNum)).after 4 .next) (queueOf i) i.tok).setHead
             (queueOf i) (s.entry i), nextNum := s.nextNum + 1 }

/-- The state `t` with the entry complete: its effects, its sends, and its place in the queue given up; what it read is kept for a
replay (R105). -/
def State.ran (i : Instr) (s t : State) (f : Eff) : State :=
  let c := t.core.noteDone (s.entry i) f ((s.entry i).reads (s.begun i).core) s.core.srS s.core.srN
  { t with core := c.complete (queueOf i) (s.entry i) f }

/-- A queue word can run as soon as it is routed: its queue is empty, its waits find tokens, nothing holds it back. Whether
it starts at once is the model's choice (log 7). -/
def State.canRun (i : Instr) (s : State) : Prop :=
  s.eager = true ∧ i.agent ≠ 0 ∧ s.core.held = none ∧ s.core.qtrap = none ∧ s.core.queue (queueOf i) = [] ∧
  waitOk s.core (queueOf i) i.tok = true ∧ (s.core.det = false ∨ s.core.quiet = true) ∧ s.core.injArray = false ∧
  s.core.injClap = false ∧ ∀ q ∈ [1, 2, 3], ∀ x, (s.core.queue q).head? = some x → x.resumed = false

/-- The word completes with effects `f` and leaves `t` otherwise, whenever its sends can be made and its queue's stores
are performed at their own scope (R15, R164, R224). -/
def State.completes (s : State) (i : Instr) (t : State) (f : Eff) : Prop :=
  sendOk t.core (queueOf i) i.tok = true → t.queueFar (queueOf i) = false → exec i s = .next (s.ran i t f)

/-- A Y word does this (R180): the sequencer at once, a queue when the entry runs. -/
def State.yDoes (s : State) (i : Instr) (q : BitVec 2) (F : State → State) : Prop :=
  (q = 0 → exec i s = .next ((F s).did 4 (F s).core)) ∧
  (q ≠ 0 → s.canRun i → s.completes i (F (s.begun i)) ⟨[], [], [], 0⟩)

/-- A Y word traps: the sequencer with its own trap, a queue with a queue trap of the entry (R180, R317). -/
def State.yTraps (s : State) (i : Instr) (q : BitVec 2) (cause : Nat) (tval : Dword) : Prop :=
  (q = 0 → exec i s = .next (enterTrap cause s.core.pc tval s)) ∧
  (q ≠ 0 → s.canRun i → exec i s = .next (noteQueueTrap (queueOf i) (s.entry i) cause tval (s.begun i)))

/-- A Y word takes a trap whose rule names no `tval` (log 9). -/
def State.yTrapsX (s : State) (i : Instr) (q : BitVec 2) (cause : Nat) : Prop :=
  (q = 0 → exec i s = .next (s.trapped cause)) ∧
  (q ≠ 0 → s.canRun i → exec i s =
    .next (noteQueueTrap (queueOf i) (s.entry i) cause (Config.openTval s.fresh) (s.begun i).drawn))

/-- No object has released a wait of an agent on it; the object has released one. -/
def Core.unreleased (c : Core) (agent : Nat) (ring : Bool) (place : Nat) : Prop :=
  ∀ w, c.waitsOn agent ring place = some w → w.released = false
def Core.released (c : Core) (agent : Nat) (ring : Bool) (place : Nat) : Prop :=
  ∃ w, c.waitsOn agent ring place = some w ∧ w.released = true

/-- The waits of an agent are over. -/
def Core.unwaits (c : Core) (agent : Nat) : Core := { c with objWaits := c.objWaits.filter fun w => w.agent ≠ agent }

/-- The first doubleword of a barrier (R126). -/
def barWord (phase rng : Bool) (rsv : BitVec 14) (arrived : BitVec 12) (pending : BitVec 36) : Dword :=
  BitVec.ofBool phase ++ BitVec.ofBool rng ++ rsv ++ arrived ++ pending

/-- The state with both doublewords of a barrier replaced. -/
def State.barrierPut (s : State) (k : Nat) (d0 d1 : Dword) : State :=
  { s with bank := memWrite s.bank k (leBytes 8 d0.toNat ++ leBytes 8 d1.toNat) }

/-- The state with a ring replaced. -/
def State.ringPut (s : State) (k : Nat) (r : HwRing) : State := { s with rings := vmod s.rings k fun _ => r }

end Sys2Proof.Machine

/-- The barrier instructions (R126, R127, R182), in the sequencer and in a queue (R180), at a barrier that the core may access;
the counts A and W of R153 move at a barrier whose need is `teamsz`. A wait that the bank has released, by leaving modes 0
and 3, ends in the access-fault trap. A wait checks the barrier's range error once, as it begins (R127). -/
def Obligations.Barriers : Prop :=
  ∀ (tok : Tok) (q : BitVec 2) (a b : Reg) (sc : BitVec 3) (s : State) (k : Nat) (ph rng : Bool) (rsv : BitVec 14)
    (arr : BitVec 12) (pend : BitVec 36) (d1 : Dword),
    let c := s.core
    let av := c.rg a
    let v := c.rg b
    let needed := d1.toNat % 4096
    let checked (n : Nat) (p : Int) : Dword :=
      if n = needed ∧ p = 0 then barWord (!ph) false rsv 0 0 else barWord ph false rsv (BitVec.ofNat 12 n) (BitVec.ofInt 36 p)
    let puts (d0 : Dword) (f : Core → Core) (u : State) : State := { u.barrierPut k d0 d1 with core := f u.core }
    let counted : Prop := needed = c.teamsz.toNat
    av.toNat % 16 = 0 → localOk s (c.who true 0) av.toNat 16 = some k → (∀ l ∈ linesOf k 16, l ∉ s.bankPoison) →
    memRead s.bank k 8 = leBytes 8 (barWord ph rng rsv arr pend).toNat → memRead s.bank (k + 8) 8 = leBytes 8 d1.toNat →
    (v.toNat ≤ 4095 → s.yDoes (.barInit tok q a b sc) q fun u => u.barrierPut k 0 v) ∧
    (4095 < v.toNat → s.yTrapsX (.barInit tok q a b sc) q 0x10) ∧
    (rng = true → s.yTrapsX (.barExp tok q a b sc) q 0x10 ∧ s.yTrapsX (.barArr tok q a sc) q 0x10) ∧
    (rng = false →
      (s.noneFar sc → -2 ^ 35 ≤ pend.toInt + sInt v → pend.toInt + sInt v < 2 ^ 35 →
        s.yDoes (.barExp tok q a b sc) q (puts (checked arr.toNat (pend.toInt + sInt v)) id)) ∧
      ((pend.toInt + sInt v < -2 ^ 35 ∨ 2 ^ 35 ≤ pend.toInt + sInt v) → s.yTrapsX (.barExp tok q a b sc) q 0x10) ∧
      (s.noneFar sc → arr.toNat < needed → s.yDoes (.barArr tok q a sc) q
        (puts (checked (arr.toNat + 1) pend.toInt) fun x => if counted then { x with arrivals := c.arrivals + 1 } else x)) ∧
      (needed ≤ arr.toNat → s.yTrapsX (.barArr tok q a sc) q 0x10)) ∧
    (c.released q.toNat false k → s.yTraps (.barWait tok q a b sc) q 0x04 av) ∧
    (c.unreleased q.toNat false k →
      let passed : Prop := rng = false ∨ (c.waitsOn q.toNat false k).isSome = true
      (¬ passed → s.yTrapsX (.barWait tok q a b sc) q 0x10) ∧
      (passed → v.getLsbD 0 ≠ ph → s.yDoes (.barWait tok q a b sc) q fun u =>
        { u with core := (if counted then { u.core with waits := c.waits + 1 } else u.core).unwaits q.toNat }) ∧
      (passed → v.getLsbD 0 = ph → q = 0 → exec (.barWait tok q a b sc) s =
        .next (if (c.waitsOn 0 false k).isSome then s.waits else s.waitsAt false k)))

/-- The ring instructions (R185), in the sequencer and in a queue (R180), at a ring of the running partition, with the ring's
counters compared by the sign of their difference (R184). A wait that the ring has released, by clearing en, ends in the
access-fault trap (R183). -/
def Obligations.Rings : Prop :=
  ∀ (tok : Tok) (q : BitVec 2) (a b : Reg) (sc : BitVec 3) (s : State) (r : HwRing) (n : Nat),
    let c := s.core
    let k := clusterOf c.id * 64 + n
    let size := 2 ^ r.lcount.toNat
    let v : BitVec 32 := (c.rg b).setWidth 32
    let at_ (x : BitVec 32) : Nat := x.toNat % size
    let ends (u : State) : State := { u with core := u.core.unwaits q.toNat }
    n ≤ 63 → vget s.rings k HwRing.reset = r → r.part = c.partid → r.en = true → r.lcount.toNat ≤ 12 →
    ((c.rg b).toNat = n → c.det = false →
      ((r.claim - r.head).toInt < size → exec (.ringCl a b sc) s =
        .next ((s.ringPut k { r with claim := r.claim + 1 }).wrote 4 a (wrapN r.claim.toNat))) ∧
      (size ≤ (r.claim - r.head).toInt → exec (.ringCl a b sc) s = .next (s.wrote 4 a (wrapI (-1)))) ∧
      (r.take ≠ r.tail → exec (.ringTake a b sc) s =
        .next ((s.ringPut k { r with take := r.take + 1 }).wrote 4 a (wrapN r.take.toNat))) ∧
      (r.take = r.tail → exec (.ringTake a b sc) s = .next (s.wrote 4 a (wrapI (-1))))) ∧
    ((c.rg a).toNat = n →
      (0 ≤ (v - r.head).toInt → (v - r.head).toInt < size → r.f.getLsbD (at_ v) = false → s.noneFar sc →
        ∃ (f : BitVec 4096) (m : Nat),
          let claim := if 0 ≤ (v - r.claim).toInt then v + 1 else r.claim
          let tail (i : Nat) : BitVec 32 := r.tail + BitVec.ofNat 32 i
          s.yDoes (.ringFill tok q a b sc) q (fun u => u.ringPut k { r with f := f, claim := claim, tail := tail m }) ∧
          (∀ i, i < 4096 → f.getLsbD i = (r.f.getLsbD i || decide (i = at_ v))) ∧ m ≤ size ∧
          (∀ i, i < m → tail i ≠ claim ∧ f.getLsbD (at_ (tail i)) = true) ∧
          (tail m = claim ∨ f.getLsbD (at_ (tail m)) = false ∨ m = size)) ∧
      (((v - r.head).toInt < 0 ∨ size ≤ (v - r.head).toInt ∨ r.f.getLsbD (at_ v) = true) →
        s.yTraps (.ringFill tok q a b sc) q 0x17 (wrapN v.toNat)) ∧
      (0 ≤ (v - r.head).toInt → 0 < (r.tail - v).toInt → r.x.getLsbD (at_ v) = false → s.noneFar sc →
        ∃ (f x : BitVec 4096) (m : Nat),
          let head (i : Nat) : BitVec 32 := r.head + BitVec.ofNat 32 i
          let released (i : Nat) : Bool := r.x.getLsbD i || decide (i = at_ v)
          let freed (i : Nat) : Bool := (List.range m).any fun j => at_ (head j) == i
          s.yDoes (.ringRel tok q a b sc) q (fun u => u.ringPut k { r with
            f := f, x := x, take := if 0 ≤ (v - r.take).toInt then v + 1 else r.take, head := head m }) ∧
          (∀ i, i < 4096 → f.getLsbD i = (r.f.getLsbD i && !freed i) ∧ x.getLsbD i = (released i && !freed i)) ∧ m ≤ size ∧
          (∀ i, i < m → head i ≠ r.tail ∧ released (at_ (head i)) = true) ∧
          (head m = r.tail ∨ released (at_ (head m)) = false ∨ m = size)) ∧
      (((v - r.head).toInt < 0 ∨ (r.tail - v).toInt ≤ 0 ∨ r.x.getLsbD (at_ v) = true) →
        s.yTrapsX (.ringRel tok q a b sc) q 0x17) ∧
      (c.released q.toNat true k →
        s.yTraps (.ringWf tok q a b sc) q 0x04 (c.rg a) ∧ s.yTraps (.ringWe tok q a b sc) q 0x04 (c.rg a)) ∧
      (c.unreleased q.toNat true k →
        let waits : State := if (c.waitsOn 0 true k).isSome then s.waits else s.waitsAt true k
        (0 < (r.tail - v).toInt → s.yDoes (.ringWf tok q a b sc) q ends) ∧
        ((v - r.head).toInt < size → s.yDoes (.ringWe tok q a b sc) q ends) ∧
        ((r.tail - v).toInt ≤ 0 → q = 0 → exec (.ringWf tok q a b sc) s = .next waits) ∧
        (size ≤ (v - r.head).toInt → q = 0 → exec (.ringWe tok q a b sc) s = .next waits)))

/-- The event queue (R188-R190) and the join counters (R132, R192), in the sequencer and, where they are Y words, in a queue
(R180). A decrement that leaves 0 pushes the record at the counter's second doubleword in the same step, and waits, the count
unchanged, while the queue cannot take it; a queue of another partition is taken as one that cannot (log 26), and the record
is read at any alignment (log 96). Which lines the caches hold is left open here (R213, R214, R216); a pin or a first-level line
that keeps an older translation keeps it for whole lines. -/
def Obligations.EventsAndJoins : Prop :=
  ∀ (tok : Tok) (q : BitVec 2) (a b : Reg) (sc : BitVec 3) (s : State),
    let c := s.core
    let av := c.rg a
    let v := c.rg b
    let cl := clusterOf c.id
    let mine (l : List Event) : Nat := (l.filter fun e => e.part == c.partid).length
    let quota := s.pg c.partid (0x40 + 2 * cl) 2
    let ev : Event := ⟨c.partid, wrapN (2 * 2 ^ 57 + av.toNat % 2 ^ 57), v⟩
    let wakes (d : Core) : Core := { d with woken := d.woken || decide (d.commit = .idle ∧ d.partid = c.partid ∧ clusterOf d.id = cl) }
    (quota = 0 → s.yTraps (.evqPost tok q a b sc) q 0x04 0) ∧
    (s.noneFar sc → quota ≠ 0 → quota ≤ mine (s.eventsOf cl) → q = 0 → exec (.evqPost tok q a b sc) s = .next s.waits) ∧
    (s.noneFar sc → mine (s.eventsOf cl) < quota → s.yDoes (.evqPost tok q a b sc) q fun u =>
      { u with events := vmod u.events cl fun l => l ++ [ev], core := wakes u.core, others := u.others.map wakes }) ∧
    (c.det = false → mine (s.eventsOf cl) = 0 → exec (.evqPop a sc) s = .next s.waits) ∧
    (∀ l e r, c.det = false → s.eventsOf cl = l ++ e :: r → mine l = 0 → e.part = c.partid →
      exec (.evqPop a sc) s =
        .next ({ s with events := vmod s.events cl fun _ => l ++ r }.did 4 ((c.setG a e.d0).setG (a + 1) e.d1))) ∧
    (∀ pa, av.toNat % 16 = 0 → s.plain .w av.toNat 8 pa →
      (v.toNat % 2 ^ 32 = 0 ∨ v.toNat / 2 ^ 40 ≠ 0 → exec (.joinInit a b sc) s = .next (enterTrap 0x16 c.pc v s)) ∧
      (s.noneFar sc → v.toNat % 2 ^ 32 ≠ 0 → v.toNat / 2 ^ 40 = 0 → s.cqOwner (v.toNat / 2 ^ 32) = some c.partid →
        let t := physWrite pa (leBytes 8 v.toNat) (some c.id) s
        ∃ k, exec (.joinInit a b sc) s = .next ({ t with cache := k }.did 4 t.core))) ∧
    (∀ (pa : Nat) (d0 d1 : Dword), av.toNat % 16 = 0 → s.noneFar sc → s.linesWhole →
      s.plain .r av.toNat 16 pa (q = 0) → s.plain .w av.toNat 16 pa (q = 0) →
      memRead s.mem pa 16 = leBytes 8 d0.toNat ++ leBytes 8 d1.toNat →
      let n := d0.toNat % 2 ^ 32
      let k := d0.toNat / 2 ^ 32 % 256
      let counts (u : State) : State := physWrite pa (leBytes 8 (d0.toNat - 1)) (if q = 0 then some c.id else none) u
      (n = 0 → s.yTrapsX (.joinDec tok q a sc) q 0x16) ∧
      (1 < n → ∃ h, s.yDoes (.joinDec tok q a sc) q fun u => { counts u with cache := h }) ∧
      (n = 1 → canTake s c.partid k = false → q = 0 → ∃ h, exec (.joinDec tok q a sc) s =
        .next (if slotMissing c.partid k s then { (stopQueue k 8 s).waits with cache := h } else s.waits)) ∧
      (∀ pr r, n = 1 → canTake s c.partid k = true → s.plain .r d1.toNat 32 pr (q = 0) → memRead s.mem pr 32 = leBytes 32 r →
        ∃ h, s.yDoes (.joinDec tok q a sc) q fun u =>
          match pushRecord (c.whoIn q.toNat sc) k (BitVec.ofNat 256 r) (counts u) with
          | .done t _ => { t with cache := h }
          | _ => { counts u with cache := h }))

/-- A push (R135, R141): the record goes into the slot of the tail, and the tail advances; `cq.push` and `spawn` answer the
slot's number, 0 in deterministic mode; a queue that is off or full gives −1, and a deterministic push waits for room. A tail
slot with no translation stops the queue with err 8 and gives −1. A queue is off with en = 0, with stop = 1, or where another
partition owns it, and full with 2^(size + 4) records. Which error a record has is `recordError`'s (log 95). -/
def Obligations.Continuations : Prop :=
  ∀ (a b : Reg) (sc : BitVec 3) (s t : State) (r : BitVec 256),
    let c := t.core
    let qn := (c.rg a).toNat
    let frame := c.rg b
    let code := c.rg a
    let spawned : Nat := code.toNat + 2 ^ 64 * frame.toNat + 2 ^ 192 * c.partid.toNat + 2 ^ 208 +
      (if c.det then 2 ^ 207 + 2 ^ 224 * ((c.phase.toNat + 1) % 2 ^ 32) else 0)
    let pushes (i : Instr) (q : Nat) (x : Nat) : Prop :=
      recordError t (t.cq q) c.partid (BitVec.ofNat 256 x) = none → t.noneFar sc →
      (c.det = true → c.phase.toNat < x / 2 ^ 224) →
      let push : PushRes := pushRecord (c.who true 3) q (BitVec.ofNat 256 x) t
      (∀ u m, push = .done u m →
        exec i s = .next (u.wrote 4 a (if c.det then 0 else wrapN m.toNat))) ∧
      (push = .off → exec i s = .next (t.wrote 4 a (wrapI (-1)))) ∧
      (push = .full →
        exec i s = .next (if c.det then s.waits else t.wrote 4 a (wrapI (-1)))) ∧
      (∀ u, push = .untranslated u → exec i s = .next (u.wrote 4 a (wrapI (-1))))
    (qn ≤ 255 → s.cqOwner qn = some c.partid → frame.toNat % 32 = 0 → s.core = t.core →
      Reads sc false frame.toNat 32 s (leBytes 32 r.toNat) t → pushes (.cqPush a b sc) qn r.toNat) ∧
    (s = t → code.toNat < 2 ^ 22 → code.toNat % 4 = 0 → s.cqOwner c.origin.toNat = some c.partid →
      pushes (.spawn a b sc) c.origin.toNat spawned) ∧
    (∀ q : Nat,
      let k := t.cq q
      let off : Prop := k.en = false ∨ k.stop = true ∨ t.cqOwner q ≠ some c.partid
      (pushRecord (c.who true 3) q r t = .off ↔ off) ∧
      (pushRecord (c.who true 3) q r t = .full ↔ ¬ off ∧ 2 ^ (k.size.toNat + 4) ≤ (k.tail - k.head).toNat)) ∧
    (∀ (q : Nat) (pa : Nat), q < 256 →
      let k := t.cq q
      let slot := k.base.toNat / 4096 % 2 ^ 45 * 4096 + 32 * (k.tail.toNat % 2 ^ (k.size.toNat + 4))
      k.en = true → k.stop = false → t.cqOwner q = some c.partid → (k.tail - k.head).toNat < 2 ^ (k.size.toNat + 4) →
      slot + 32 ≤ 2 ^ 57 →
      (∀ l, t.walk c.partid slot = some l → l.grants .w = true → l.pa = pa → t.poolLost pa = false → isPeer pa = false →
        ∃ u, pushRecord (c.who true 3) q r t = .done u k.tail ∧ u.mem = memWrite t.mem pa (leBytes 32 r.toNat) ∧
          (u.cq q).tail = k.tail + 1 ∧ (u.cq q).head = k.head ∧ u.bank = t.bank ∧ u.code = t.code ∧ u.core.g = c.g) ∧
      (t.walk c.partid slot = none → ∃ u, pushRecord (c.who true 3) q r t = .untranslated u ∧ (u.cq q).stop = true ∧
        (u.cq q).err = 8 ∧ (u.cq q).tail = k.tail ∧ (u.cq q).head = k.head ∧ SameMemory t u))

/-- `done` and `phase.end` (R148, R193, R195): once the queues are empty and the task's stores are performed at its scope, DV
(R234), the last member ends its task, and every core of it is free, its pins, watch and tokens gone; an earlier member of a
team keeps its core until then. The last member makes the decrement of the record's join counter: a count of 0 is the
join-underflow trap; a count that falls to 0 pushes its continuation, and where the queue cannot take it the decrement is
held, the count as it was. The decrement of a deterministic task that ends with `phase.end` is deferred to the commit. -/
def Obligations.TaskEnds : Prop :=
  ∀ (s : State) (x : CtxInfo) (i : Instr), i ∈ [Instr.done, .phaseEnd] → s.core.quiet = true → s.noneFar 3 → s.core.ctx ≠ 0 →
    s.ctxs.find? (fun y => y.ctx == s.core.ctx) = some x →
    let c := s.core
    let joinAt := c.record.toNat / 2 ^ 128 % 2 ^ 64
    let frees (t : State) : Prop := t.core = (c.count 1).freed c.bankmode ∧
      ∀ d ∈ s.cores, d.ctx = c.ctx →
        let e := t.findCore d.id
        e.ctx = 0 ∧ e.pins = [] ∧ e.watch = none ∧ e.tkcnt = 0 ∧ e.quiet = true ∧ (e.act = .idle ∨ e.act = .fenced)
    (x.left = 1 → joinAt = 0 → ∃ t, exec i s = .next t ∧ frees t ∧ t.ctxs = s.ctxs.filter (fun y => y.ctx ≠ c.ctx) ∧
      t.joins = s.joins ∧ SameMemory s t) ∧
    (x.left = 1 → joinAt ≠ 0 → c.det = true → (i = .phaseEnd ∨ x.phaseEnd = true) →
      ∀ u, checkJoin (c.who true 3) (wrapN joinAt) s = .ok ((), u) → u = { s with cache := u.cache } →
      ∃ t, exec i s = .next t ∧ frees t ∧ t.joins = s.joins ++ [⟨c.partid, wrapN joinAt, true⟩] ∧ SameMemory s t) ∧
    (∀ (pa : Nat) (d0 d1 : Dword), x.left = 1 → joinAt ≠ 0 → joinAt % 16 = 0 → s.translation joinAt = s.walk c.partid joinAt →
      s.plain .r joinAt 16 pa → s.plain .w joinAt 16 pa →
      memRead s.mem pa 16 = leBytes 8 d0.toNat ++ leBytes 8 d1.toNat →
      let n := d0.toNat % 2 ^ 32
      let k := d0.toNat / 2 ^ 32 % 256
      let ends (p : State → Prop) : Prop := ∃ t, exec i s = .next t ∧ frees t ∧ t.bank = s.bank ∧ t.code = s.code ∧ p t
      let counted : List Host.Cell := memWrite s.mem pa (leBytes 8 (d0.toNat - 1))
      (n = 0 → exec i s = .next (enterTrap 0x16 c.pc (wrapN joinAt) s)) ∧
      (1 < n → ends fun t => t.mem = counted ∧ t.joins = s.joins ∧ t.cqs = s.cqs) ∧
      (n = 1 → canTake s c.partid k = false → ends fun t => t.mem = s.mem ∧
        t.joins = s.joins ++ [⟨c.partid, wrapN joinAt, false⟩]) ∧
      (∀ pr r u m, n = 1 → canTake s c.partid k = true → s.translation d1.toNat = s.walk c.partid d1.toNat →
        s.plain .r d1.toNat 32 pr → memRead s.mem pr 32 = leBytes 32 r →
        pushRecord (joinAgent c.partid c.id) k (BitVec.ofNat 256 r) { s with mem := counted } = .done u m →
        ends fun t => t.mem = u.mem ∧ t.joins = s.joins ∧ (t.cq k).tail = (s.cq k).tail + 1)) ∧
    (1 < x.left → ∃ t, exec i s = .next t ∧ SameMemory s t ∧
      t.ctxs = s.ctxs.map (fun y =>
        if y.ctx = c.ctx then { y with left := y.left - 1, phaseEnd := i = .phaseEnd ∨ x.phaseEnd = true } else y) ∧
      t.core.act = if recKind c.record = 1 then .finished else if c.act = .fenced then .fenced else .idle)

/-! ## The queues -/

/-- Routing (R14, R48, R317, R319), for every queue word, and every Y word whose agent is a queue: its entry, with the copies of
what it names - g and stream registers, the pattern register, the granted shapes of its tiles, and for a drain `seed` - goes to the
end of its queue, and the pc passes it. A full queue and a queue trap on its way make the
sequencer wait; a handler with held state raises the handler-state trap. That a head may start in the same step is the
model's order of turns (log 7). -/
def Obligations.Routing : Prop :=
  ∀ (i : Instr) (s : State), i.agent ≠ 0 →
    let c := s.core
    let q := queueOf i
    (c.hm = true → c.held ≠ none → exec i s = .next (s.trapped 0x2E)) ∧
    (c.hm = false ∨ c.held = none →
      (c.qtrap ≠ none → exec i s = .next s.waits) ∧
      (c.qtrap = none → 32 ≤ (c.queue q).length →
        exec i s = .next { s with core := { c with stall := 2 ^ q } }) ∧
      (c.qtrap = none → (c.queue q).length < 32 → s.eager = false → c.injClap = false →
        ∃ t, exec i s = .next t ∧ t = { s with core := t.core, nextNum := s.nextNum + 1 } ∧
          t.core.queue q = c.queue q ++ [entryOf i c s.nextNum] ∧ (∀ k ∈ [1, 2, 3], k ≠ q → t.core.queue k = c.queue k) ∧
          t.core.pc = c.pc + 4 ∧ t.core.g = c.g ∧ t.core.st = c.st ∧ t.core.p = c.p ∧ t.core.tiles = c.tiles ∧
          t.core.accs = c.accs ∧ t.core.cfgs = c.cfgs ∧ t.core.fflg = c.fflg ∧ t.core.tkcnt = c.tkcnt)) ∧
    (entryOf i c s.nextNum).instr = i ∧ (entryOf i c s.nextNum).word = (encode i).1 ∧
    (entryOf i c s.nextNum).addr = c.pc ∧ (entryOf i c s.nextNum).g = (gNamed i).map c.rg ∧
    (∀ x, streamNamed i = some x → (entryOf i c s.nextNum).stream = c.rs x) ∧
    ∀ (tok : Tok) (st g : Reg) (a b t x key : BitVec 4) (ac : BitVec 2) (p : BitVec 3) (zf : Bool) (fmt : BitVec 5) (sc : BitVec 3),
      let e := entryOf i c s.nextNum
      let sh (k : BitVec 4) : BitVec 19 := (c.tile k).tc.setWidth 19
      let pattern : Prop := e.pat = c.rp p ∧ (c.rp p % 16 = 9 → e.shI = sh ((c.rp p).extractLsb' 16 4))
      (i ∈ [Instr.ldT tok st t, .ldFf tok st t, .bmpfx tok st t, .stT tok st t, .stFf tok st t, .drnT tok t ac fmt] → e.shT = sh t) ∧
      (i ∈ [Instr.ldTi tok st t x, .isxG tok st t x, .stTi tok st t x, .bmand tok st t x] → e.shT = sh t ∧ e.shI = sh x) ∧
      (i = .mmaTileTile tok ac a b zf fmt → e.shA = sh a ∧ e.shB = sh b) ∧
      (i = .mmaPatternA tok ac b p zf fmt → e.shB = sh b ∧ pattern) ∧
      (i = .mmaPatternB tok ac a p zf fmt → e.shA = sh a ∧ pattern) ∧
      (i = .cmpa tok ac a fmt → e.shA = sh a) ∧
      (i = .upd tok key t g sc → e.shA = sh key ∧ e.shT = sh t) ∧
      (i ∈ [Instr.drn tok st ac fmt, .drnT tok t ac fmt] → e.pat = c.seed)

/-- A head that can start performs, completes, and makes its sends in one step (R15, R104; the order of turns is log 7); a trap
of it is a queue trap with that entry (R317). With it: `acz`, `tsm`, `dcfg.cl`, `dcfg.rm`, `srs.seed` complete with the effects
of R102, R105, R107, R108 and R286. The effects of the Y words at the head of a queue are in `Barriers`, `Rings` and
`EventsAndJoins`. -/
def Obligations.QueueStart : Prop :=
  ∀ (tok : Tok) (ac : BitVec 2) (b : Reg) (i : Instr) (s : State), s.canRun i →
    let u := s.begun i
    let v := s.core.rg b
    let lo : BitVec 32 := v.setWidth 32
    let hi : BitVec 32 := v.extractLsb' 32 32
    let k := s.core.cfg ac
    (∀ f t, perform (s.entry i) u = .ok (.done f, t) → s.completes i t f) ∧
    (∀ x w, perform (s.entry i) u = .error (.trap x w) →
      exec i s = .next (noteQueueTrap (queueOf i) (s.entry i) x w u)) ∧
    (i = .acz tok ac → s.completes i u ⟨[], [(ac.toNat, Acc.zero)], [], 0⟩) ∧
    (i = .tsm tok → s.completes i u ⟨[], [], [], 0⟩ ∧ u.core.marker = true ∧ u.core.retained = [] ∧ u.core.restored = []) ∧
    (i = .dcfgCl tok ac b → ¬ f32Nan lo → ¬ f32Nan hi → f32Key lo ≤ f32Key hi →
      (f32Zero lo → f32Zero hi → f32Neg lo = true ∨ f32Neg hi = false) →
      s.completes i u ⟨[], [], [(ac.toNat, { k with lo := lo, hi := hi, clOn := true })], 0⟩) ∧
    (i = .dcfgRm tok ac b → v.toNat / 2 ^ 10 = 0 → v.toNat / 4 % 4 = 0 → v.toNat % 4 ≠ 3 →
      s.completes i u ⟨[], [], [(ac.toNat, { k with
        rm := v.setWidth 2, rsOn := k.rsOn && !v.getLsbD 4, csOn := k.csOn && !v.getLsbD 5, rbOn := k.rbOn && !v.getLsbD 6,
        cbOn := k.cbOn && !v.getLsbD 7, fnOn := k.fnOn && !v.getLsbD 8, clOn := k.clOn && !v.getLsbD 9 })], 0⟩) ∧
    (i = .srsSeed tok b →
      s.completes i { u with core := { u.core with srS := if v = 0 then 1 else v } } ⟨[], [], [], 0⟩)

/-- The loads of tiles, accumulators and drain settings, and the bitmap words (R16, R107, R109, R160-R162, R258, R259): a stream
that its checks pass and whose accesses are answered completes with what it loads. A table of kind 0 or 3 is judged and loaded
by its header alone. The side store that `ld.ff` leaves in a grouped tile is free (log 135). The packing of a tile and of its side store is the model's (log 11), as is the order of turns
(log 7). -/
def Obligations.TileLoads : Prop :=
  ∀ (tok : Tok) (st : Reg) (tile idx : BitVec 4) (ac : BitVec 2) (col : Bool) (i : Instr) (s t : State) (v : Tile) (n : Nat),
    s.canRun i →
    let c := s.core
    let e := s.entry i
    let u := s.begun i
    let d := strOf (c.rs st)
    let old := c.tile tile
    let ix := c.tile idx
    let shT : BitVec 19 := old.tc.setWidth 19
    let shI : BitVec 19 := ix.tc.setWidth 19
    let fits : Prop := shRows shT ≠ 0 ∧ fmtIsTile d.fmt = true ∧ fmtWcode d.fmt = shWcode shT ∧ d.rows = shRows shT ∧
      d.cols = shCols shT
    let bits : Prop := d.fmt = 15 ∧ d.rows = 1 ∧ d.cols % 2 = 0 ∧ 2 ≤ d.cols ∧ d.cols ≤ 64
    let same : List (Nat × Nat) := d.liveRows.map fun i => (i, i)
    (i = .ldT tok st tile → strBad .tile (c.rs st) = none → fits → sparseFmt d u = .ok ((), u) →
      sparseShape d u = .ok ((), u) → loadTile e d shT old same u = .ok (v, t) →
      s.completes i t ⟨[(tile.toNat, v)], [], [], 0⟩) ∧
    (i = .ldTi tok st tile idx → strBad .index (c.rs st) = none → fits → shRows shI ≠ 0 → ix.indexOk = true →
      loadTile e d shT old (indexRows d ix shI) u = .ok (v, t) → s.completes i t ⟨[(tile.toNat, v)], [], [], 0⟩) ∧
    (i = .ldFf tok st tile → strBad .fifo (c.rs st) = none → fits → d.base % strAlign (fmtBits d.fmt) = 0 →
      fifoBank d u = .ok (n, u) →
      let f := vget c.fifo n 0
      let len := fifoBytes d
      let bs := (fifoCuts (f.toNat / 2 ^ 32) len).flatMap fun p => memRead s.bank (bankBase c.id n + p.1) p.2
      len ≤ (f.toNat + 2 ^ 32 - f.toNat / 2 ^ 32) % 2 ^ 32 →
      (∀ p ∈ fifoCuts (f.toNat / 2 ^ 32) len, ∀ l ∈ linesOf (bankBase c.id n + p.1) p.2, l ∉ s.bankPoison) →
      let grouped := fmtGrouped d.fmt
      s.completes i { u with
          core := { u.core with fifo := vmod c.fifo n fun f => setFld f 32 32 (f.toNat / 2 ^ 32 + len) },
          fresh := if grouped then s.fresh + 1 else s.fresh }
        ⟨[(tile.toNat, ⟨BitVec.ofNat 32768 (leNat bs % 2 ^ (d.rows * d.cols * fmtBits d.fmt)),
          if grouped then Config.fifoSide s.fresh else 0, 0, mkTc shT d.fmt false 0 false⟩)], [], [], 0⟩) ∧
    (i = .ldA tok st ac → strBad .acc (c.rs st) = none → (d.fmt = 13 ∨ d.fmt = 14) → d.rows = 32 → d.cols = 64 →
      strAddrs (c.who false 0) d 48 (segSpans 48 (d.segs 48 same)) [] u = .ok ((), u) →
      acc (loadSegs (c.who false 0) d 48 (d.segs 48 same)) u = .ok (n, t) →
      s.completes i t ⟨[], [(ac.toNat, ⟨BitVec.ofNat 98304 n, 0, d.fmt = 14⟩)], [], 0⟩) ∧
    (cfgData st (if col then 64 else 32) e u = .ok (n, t) →
      (i = .dcfgSc tok st ac col → s.completes i t ⟨[], [], [(ac.toNat,
        if col then { t.core.cfg ac with cs := BitVec.ofNat 2048 n, csOn := true }
        else { t.core.cfg ac with rs := BitVec.ofNat 1024 n, rsOn := true })], 0⟩) ∧
      (i = .dcfgBi tok st ac col → s.completes i t ⟨[], [], [(ac.toNat,
        if col then { t.core.cfg ac with cb := BitVec.ofNat 2048 n, cbOn := true }
        else { t.core.cfg ac with rb := BitVec.ofNat 1024 n, rbOn := true })], 0⟩)) ∧
    (i = .dcfgFn tok st ac → cfgStream st 49 16 e u = .ok (d, u) → cfgRows d [0] u = .ok (n, t) →
      let head := BitVec.ofNat 25088 n
      let segs : List Nat := (List.range 48).map fun r => r + 1
      let writes (u : State) (tb : BitVec 25088) : Prop :=
        s.completes i u ⟨[], [], [(ac.toNat, { u.core.cfg ac with table := tb, fnOn := n % 256 ≠ 0 })], 0⟩
      (tableOk head = true → n % 256 = 0 ∨ n % 256 = 3 → writes t head) ∧
      (∀ m x, tableOk head = true → n % 256 = 1 ∨ n % 256 = 2 → cfgRows d segs t = .ok (m, x) →
        writes x (BitVec.ofNat 25088 (n ||| m))) ∧
      (tableOk head = false → exec i s = .next (noteQueueTrap 3 e 0x0D (wrapN d.base) u))) ∧
    (∀ xs : List Nat, strBad .plain (c.rs st) = none → shRows shT ≠ 0 → bits → bitmapOf d u = .ok (xs, t) →
      (i = .bmpfx tok st tile → isShape shT 2 d.cols = true → s.completes i t ⟨[(tile.toNat,
        plainTile (t.core.tile tile) shT 15 32 (xs ++ prefixCounts 0 xs))], [], [], 0⟩) ∧
      (i = .bmand tok st tile idx → shRows shI = 2 → shCols shI = d.cols → isShape shT 3 d.cols = true → ix.fmt = 15 →
        ix.sp = false → s.completes i t ⟨[(tile.toNat, plainTile (t.core.tile tile) shT 15 32
          ((xs.zipIdx.map fun p => p.1 &&& ix.el 32 p.2) ++ ((List.range d.cols).map fun j => ix.el 32 (d.cols + j)) ++
            (List.range d.cols).map fun j => ix.el 32 j))], [], [], 0⟩)) ∧
    (i = .isxG tok st tile idx → strBad .plain (c.rs st) = none → shRows shT ≠ 0 → (1 ≤ d.fmt ∧ d.fmt ≤ 12) ∨ d.fmt = 15 →
      fmtWcode d.fmt = shWcode shT → ix.fmt = 15 → ix.sp = false → d.rows = 1 → shRows shI = 3 → shCols shI % 2 = 0 →
      2 ≤ shCols shI → shCols shI ≤ 64 →
      let b := fmtBits d.fmt
      let el (r j : Nat) : Nat := ix.el 32 (r * shCols shI + j)
      let offs : List Nat := (List.range (shCols shI)).flatMap fun j =>
        ((List.range 32).filter fun k => (el 0 j).testBit k).map fun k =>
          el 1 j + (List.range k).countP fun h => (el 2 j).testBit h
      offs.length ≤ shRows shT * shCols shT → (∀ o ∈ offs, o < d.cols) → offs = [] ∨ d.base % strAlign b = 0 →
      strRange (c.who false 0) d (offs.map fun o => ((d.base : Int) + (o * b / 8 : Nat), max 1 (b / 8))) u = .ok ((), u) →
      ∀ xs, acc (offs.foldlM (fun l o => do
          let bs ← readAt (c.who false 0) d.loc (d.base + o * b / 8) (max 1 (b / 8))
          return l ++ [leNat bs >>> (o * b % 8) % 2 ^ b]) []) u = .ok (xs, t) →
        s.completes i t ⟨[(tile.toNat, plainTile old shT d.fmt b xs)], [], [], 0⟩)

/-! ## Numbers of the array and of the drain

The formats, their rounding, the additions of the array and the stages of a drain, over the rationals: by the rules' own words
and by no operation of the model. -/

namespace Sys2Proof.Machine

/-- The float formats by code, and the FW48 layout: exponent bits, fraction bits, and whether it is E4M3 (R29, R262). -/
def fltOf : Nat → Option FFmt
  | 1 => some ⟨8, 7, false⟩
  | 2 => some ⟨5, 10, false⟩
  | 3 => some ⟨8, 23, false⟩
  | 4 => some ⟨4, 3, true⟩
  | 5 => some ⟨5, 2, false⟩
  | _ => none
def flt48 : FFmt := ⟨11, 36, false⟩
/-- The integer formats by code: whether signed, and the width (R264). -/
def intOf : Nat → Option (Bool × Nat)
  | 6 => some (true, 8)
  | 7 => some (true, 16)
  | 8 => some (true, 32)
  | 9 => some (true, 4)
  | 10 => some (false, 4)
  | 11 => some (false, 8)
  | 12 => some (false, 16)
  | 15 => some (false, 32)
  | _ => none

/-- The fields of an encoding, what it is and its magnitude (R262, R263). -/
def fltExp (f : FFmt) (x : Nat) : Nat := x / 2 ^ f.fb % 2 ^ f.eb
def fltFrac (f : FFmt) (x : Nat) : Nat := x % 2 ^ f.fb
def fltNeg (f : FFmt) (x : Nat) : Bool := x.testBit (f.eb + f.fb)
def fltTop (f : FFmt) (x : Nat) : Bool := fltExp f x + 1 == 2 ^ f.eb
def fltNan (f : FFmt) (x : Nat) : Bool := fltTop f x && (if f.e4m3 then fltFrac f x == 7 else fltFrac f x != 0)
def fltInf (f : FFmt) (x : Nat) : Bool := fltTop f x && !f.e4m3 && fltFrac f x == 0
/-- The exponent of the least spacing: 1 − bias − fraction bits. -/
def fltLeast (f : FFmt) : ℤ := 2 - 2 ^ (f.eb - 1) - f.fb
def fltMag (f : FFmt) (x : Nat) : ℚ :=
  if fltExp f x = 0 then (fltFrac f x : ℚ) * 2 ^ fltLeast f
  else ((2 ^ f.fb + fltFrac f x : ℕ) : ℚ) * 2 ^ (fltLeast f + fltExp f x - 1)
/-- The value of a finite encoding. -/
def fltValue (f : FFmt) (x : Nat) : ℚ := (if fltNeg f x then -1 else 1) * fltMag f x
/-- An encoding with a sign; the infinity, the largest finite magnitude and the canonical NaN. -/
def fltSigned (f : FFmt) (neg : Bool) (x : Nat) : Nat := x + if neg then 2 ^ (f.eb + f.fb) else 0
def fltInfinity (f : FFmt) : Nat := (2 ^ f.eb - 1) * 2 ^ f.fb
def fltLargest (f : FFmt) : Nat := if f.e4m3 then 0x7E else fltInfinity f - 1
def fltCanonical (f : FFmt) : Nat := if f.e4m3 then 0x7F else fltInfinity f + 2 ^ (f.fb - 1)

/-- A number of units rounded to a whole number by a mode (R265). -/
def wholeOf (rm : Rm) (y : ℚ) : Nat :=
  let t := ⌊y⌋.toNat
  let r := y - t
  let up : Bool := match rm with
    | .rne => decide (1 / 2 < r) || (decide (r = 1 / 2) && t % 2 == 1)
    | .tz => false
    | .sr rnd => decide ((rnd : ℤ) < ⌊r * 2 ^ 32⌋)
  if up then t + 1 else t

/-- The number (−1)^neg · x, x not negative, rounded into a format, with its flags (R265-R267): on the grid of x's magnitude, never
finer than the least spacing; beyond the largest finite value it overflows; it is tiny where the rounding on an unbounded grid
lies below the least normal. -/
def roundedTo (f : FFmt) (rm : Rm) (neg : Bool) (x : ℚ) : Nat × Flags :=
  if x = 0 then (fltSigned f neg 0, 0) else
  let free := Int.log 2 x - f.fb
  let q := max free (fltLeast f)
  let m := wholeOf rm (x / 2 ^ q)
  if fltMag f (fltLargest f) < m * 2 ^ q then
    (fltSigned f neg (if rm = .tz ∨ f.e4m3 then fltLargest f else fltInfinity f), flOf ||| flNx)
  else
    let inexact : Bool := (m : ℚ) * 2 ^ q != x
    let tiny : Bool := decide ((wholeOf rm (x / 2 ^ free) : ℚ) * 2 ^ free < 2 ^ (fltLeast f + f.fb))
    (fltSigned f neg ((q - fltLeast f).toNat * 2 ^ f.fb + m), flIf inexact flNx ||| flIf (inexact && tiny) flUf)

/-- A value of a FW48 element converted to an integer format of w bits: rounded, then saturated (R269). -/
def integerOf (rm : Rm) (sg : Bool) (w : Nat) (x : Nat) : Nat × Flags :=
  let lo : Int := if sg then -2 ^ (w - 1) else 0
  let hi : Int := if sg then 2 ^ (w - 1) - 1 else 2 ^ w - 1
  let coded (v : Int) : Nat := (v % 2 ^ w).toNat
  if fltNan flt48 x then (0, flNv)
  else if fltInf flt48 x then (coded (if fltNeg flt48 x then lo else hi), flIovf)
  else
    let n : Nat := wholeOf rm (fltMag flt48 x)
    let v : Int := if fltNeg flt48 x then -n else n
    (coded (max lo (min hi v)), flIf ((n : ℚ) != fltMag flt48 x) flNx ||| flIf (decide (v < lo) || decide (hi < v)) flIovf)

/-- A binary32 value in FW48, exactly (R271). -/
def as48 (x : Nat) : Nat :=
  let f : FFmt := ⟨8, 23, false⟩
  if fltNan f x then fltCanonical flt48
  else if fltInf f x then fltSigned flt48 (fltNeg f x) (fltInfinity flt48)
  else (roundedTo flt48 .rne (fltNeg f x) (fltMag f x)).1

/-- `fw48_add` (R98, R271). -/
def sum48 (x y : Nat) : Nat × Flags :=
  let f := flt48
  if fltNan f x || fltNan f y || (fltInf f x && fltInf f y && fltNeg f x != fltNeg f y) then (fltCanonical f, 0)
  else if fltInf f x then (x, 0)
  else if fltInf f y then (y, 0)
  else
    let q := fltValue f x + fltValue f y
    roundedTo f .rne (if q = 0 then fltNeg f x && fltNeg f y else decide (q < 0)) |q|

/-- `fw48_mul` (R271). -/
def product48 (x y : Nat) : Nat × Flags :=
  let f := flt48
  let zero (x : Nat) : Bool := !fltNan f x && !fltInf f x && fltMag f x == 0
  let neg := fltNeg f x != fltNeg f y
  if fltNan f x || fltNan f y || (fltInf f x && zero y) || (zero x && fltInf f y) then (fltCanonical f, 0)
  else if fltInf f x || fltInf f y then (fltSigned f neg (fltInfinity f), 0)
  else roundedTo f .rne neg (fltMag f x * fltMag f y)

/-- The place of an element that is no NaN in the order of values, in which the two zeros are one place; x is less than y; and x is
below y with −0 below +0 (R107). -/
def key48 (x : Nat) : Int := if fltNeg flt48 x then -((x % 2 ^ 47 : Nat) : Int) else ((x % 2 ^ 47 : Nat) : Int)
def less48 (x y : Nat) : Bool := !fltNan flt48 x && !fltNan flt48 y && decide (key48 x < key48 y)
def below48 (x y : Nat) : Bool :=
  less48 x y || (!fltNan flt48 x && !fltNan flt48 y && key48 x == key48 y && fltNeg flt48 x && !fltNeg flt48 y)

/-! ### The array (R13, R98, R101, R121) -/

/-- The sign and the magnitude of a product's operand. -/
def signOf : Val → Bool
  | .nan => false
  | .inf s => s
  | .fin s _ _ => s
def magOf : Val → ℚ
  | .fin _ m e => m * 2 ^ e
  | _ => 0
/-- The value of a finite operand. -/
def numOf (v : Val) : ℚ := (if signOf v then -1 else 1) * magOf v

/-- One addition of a float-class element, with the bit it raises in ovf (R98): the product is exact, the sum rounded. -/
def addProduct (x : Nat) (a b : Val) : Nat × Bool :=
  let f := flt48
  let zero (v : Val) : Bool := !v.isNan && !v.isInf && magOf v == 0
  let arose := (a.isInf && zero b) || (zero a && b.isInf)
  let neg := signOf a != signOf b
  if a.isNan || b.isNan then (fltCanonical f, false)
  else if arose then (fltCanonical f, true)
  else if fltNan f x then (fltCanonical f, false)
  else if a.isInf || b.isInf then
    if fltInf f x && fltNeg f x != neg then (fltCanonical f, true) else (fltSigned f neg (fltInfinity f), false)
  else if fltInf f x then (x, false)
  else
    let q := fltValue f x + numOf a * numOf b
    let r := (roundedTo f .rne (if q = 0 then fltNeg f x && neg else decide (q < 0)) |q|).1
    (r, fltInf f r)

/-- One addition of an integer-class element (R17, R97). -/
def addInteger (x : Nat) (p : Int) : Nat × Bool :=
  let v := (BitVec.ofNat 48 x).toInt + p
  ((v % 2 ^ 48).toNat, decide (v < -2 ^ 47) || decide (2 ^ 47 ≤ v))

/-- The additions of one element in their order, and whether one raised its bit. -/
def productsInto (float : Bool) (x : Nat) (ps : List (Val × Val)) : Nat × Bool :=
  ps.foldl (fun r p =>
    let y := if float then addProduct r.1 p.1 p.2 else addInteger r.1 (valInt p.1 * valInt p.2)
    (y.1, r.2 || y.2)) (x, false)

/-- The generated element G(o, k) of a pattern, v its index vector (R13, R121); of a reserved kind, which no `pset` lets in, it is
free (log 130). -/
def patternHas (p : Dword) (v : List Int) (o k : Nat) : Bool :=
  let n := (p.extractLsb' 4 10).toNat
  let kind := (p.extractLsb' 0 4).toNat
  let lo := (p.extractLsb' 24 8).toNat
  let hi := (p.extractLsb' 16 8).toNat
  let a : Int := (p.extractLsb' 48 16).toInt
  let b : Int := (p.extractLsb' 32 16).toNat
  decide (o < n ∧ k < n ∧ (kind = 1 ∨ (kind = 2 ∧ k = o) ∨ (kind = 3 ∧ k ≤ o) ∨ (kind = 4 ∧ k < o) ∨ (kind = 5 ∧ o ≤ k) ∨
    (kind = 6 ∧ o < k) ∨ (kind = 7 ∧ (k : Int) = (a * o + b) % n) ∨
    (kind = 8 ∧ (o : Int) - lo ≤ k ∧ (k : Int) ≤ o + hi) ∨ (kind = 9 ∧ v[o]? = some (k : Int)) ∨
    (9 < kind ∧ Config.patternElem p o k = true)))
/-- It as an operand. -/
def patternVal (p : Dword) (v : List Int) (o k : Nat) : Val :=
  .fin false (if patternHas p v o k then 1 else 0) 0

/-- A value is above another in the order of `cmpa`: every NaN above +∞ (R101). -/
def rankOver (y x : Val) : Bool :=
  !x.isNan && (y.isNan || match x, y with
    | .inf s, .inf t => s && !t
    | .inf s, _ => s
    | _, .inf t => !t
    | _, _ => decide (numOf x < numOf y))
/-- The rank of position j in a row (R101): the positions above it and the earlier positions equal to it. -/
def rankIn (row : List Val) (j : Nat) : Nat :=
  let at' (k : Nat) : Val := row.getD k .nan
  (List.range row.length).countP (fun k => rankOver (at' k) (at' j)) +
    (List.range j).countP fun k => !rankOver (at' k) (at' j) && !rankOver (at' j) (at' k)

/-! ### The drain (R106, R110, R112, R113, R265-R275) -/

/-- The function of a table (R110). The bound x0 + 256·w is itself an FW48 sum, whose flags count (log 108). -/
def tableFunction (t : BitVec 25088) (x : Nat) : Nat × Flags :=
  let w (o : Nat) : Nat := (t.extractLsb' (8 * o) 32).toNat
  let signed (o : Nat) : Int := (t.extractLsb' (8 * o) 32).toInt
  let below := if (w 0).testBit 8 then x else as48 (w 12)
  let above := if (w 0).testBit 9 then x else as48 (w 16)
  let poly (s u : Nat) : Nat × Flags :=
    let c (k : Nat) := as48 (w (64 + 12 * s + 4 * k))
    let p := product48 (c 2) u
    let q := sum48 p.1 (c 1)
    let r := product48 q.1 u
    let y := sum48 r.1 (c 0)
    (y.1, p.2 ||| q.2 ||| r.2 ||| y.2)
  let kind := w 0 % 256
  if (kind = 1 ∨ kind = 2) ∧ fltNan flt48 x then (fltCanonical flt48, 0)
  else if kind = 1 then
    let x0 := as48 (w 4)
    let width : ℚ := 2 ^ signed 8
    let top := sum48 x0 (roundedTo flt48 .rne false (256 * width)).1
    if less48 x x0 then (below, 0)
    else if !less48 x top.1 then (above, top.2)
    else
      let s := ⌊(fltValue flt48 x - fltValue flt48 x0) / width⌋.toNat
      let b := sum48 x0 (roundedTo flt48 .rne false (s * width)).1
      let u := sum48 x (b.1 ^^^ 2 ^ 47)
      let y := poly s u.1
      (y.1, top.2 ||| b.2 ||| u.2 ||| y.2)
  else if kind = 2 then
    if key48 x ≤ 0 then (as48 (w 28), 0)
    else if fltInf flt48 x then (above, 0)
    else
      let e := Int.log 2 (fltMag flt48 x)
      let m := fltMag flt48 x / 2 ^ e
      let r := ⌊8 * (m - 1)⌋.toNat
      if e < signed 4 then (below, 0)
      else if signed 4 + 32 ≤ e then (above, 0)
      else poly (8 * (e - signed 4).toNat + r) (roundedTo flt48 .rne false (m - 1 - r / 8)).1
  else if kind = 3 then
    let c := as48 (w 24)
    let holds : Bool :=
      if fltNan flt48 x || fltNan flt48 c then w 20 == 3
      else match w 20 with
        | 0 => decide (key48 x < key48 c)
        | 1 => decide (key48 x ≤ key48 c)
        | 2 => decide (key48 x = key48 c)
        | 3 => decide (key48 x ≠ key48 c)
        | 4 => decide (key48 c ≤ key48 x)
        | _ => decide (key48 c < key48 x)
    (if holds then 0x3FF000000000 else 0, 0)
  else (x, 0)

/-- `convert` of a FW48 value to a destination format (R112, R266-R269). -/
def converted (fmt : Nat) (rm : Rm) (x : Nat) : Nat × Flags :=
  match fltOf fmt, intOf fmt with
  | some f, _ =>
    if fltNan flt48 x then (fltCanonical f, 0)
    else if fltInf flt48 x then
      if f.e4m3 then (fltSigned f (fltNeg flt48 x) (fltLargest f), flOf ||| flNx)
      else (fltSigned f (fltNeg flt48 x) (fltInfinity f), 0)
    else roundedTo f rm (fltNeg flt48 x) (fltMag flt48 x)
  | _, some (sg, w) => integerOf rm sg w x
  | _, _ => (0, 0)

/-- One element of a drain and its flags (R112, R113, R270). -/
def drainedElement (k : DrainCfg) (float ovf : Bool) (fmt : Nat) (rm : Rm) (i j x : Nat) : Nat × Flags :=
  let word {n : Nat} (v : BitVec n) (o : Nat) : Nat := as48 (v.extractLsb' (32 * o) 32).toNat
  let v : Int := (BitVec.ofNat 48 x).toInt
  let then' (on : Bool) (f : Nat → Nat × Flags) (r : Nat × Flags) : Nat × Flags :=
    if on then ((f r.1).1, r.2 ||| (f r.1).2) else r
  let out : Nat × Flags :=
    if fmt = 13 then (x, 0)
    else if !float && !k.rsOn && !k.csOn && !k.rbOn && !k.cbOn && !k.fnOn then
      match fltOf fmt, intOf fmt with
      | some f, _ => roundedTo f rm (decide (v < 0)) |(v : ℚ)|
      | _, some (sg, w) =>
        let lo : Int := if sg then -2 ^ (w - 1) else 0
        let hi : Int := if sg then 2 ^ (w - 1) - 1 else 2 ^ w - 1
        ((max lo (min hi v) % 2 ^ w).toNat, flIf (decide (v < lo) || decide (hi < v)) flIovf)
      | _, _ => (0, 0)
    else
      let r := if float then (x, 0) else roundedTo flt48 .rne (decide (v < 0)) |(v : ℚ)|
      let r := then' k.rsOn (fun y => product48 y (word k.rs i)) r
      let r := then' k.csOn (fun y => product48 y (word k.cs j)) r
      let r := then' k.rbOn (fun y => sum48 y (word k.rb i)) r
      let r := then' k.cbOn (fun y => sum48 y (word k.cb j)) r
      let r := then' k.fnOn (tableFunction k.table) r
      let lo := as48 k.lo.toNat
      let hi := as48 k.hi.toNat
      let y := if k.clOn && below48 r.1 lo then lo else r.1
      let y := if k.clOn && below48 hi y then hi else y
      ((converted fmt rm y).1, r.2 ||| (converted fmt rm y).2)
  let arose : Flags :=
    if !ovf then 0 else if !float then flIovf
    else if fltNan flt48 x then flNv else if fltInf flt48 x then flOf else 0
  (out.1, out.2 ||| arose)

/-- The generator's advance, and the state that a deterministic drain starts from (R273, R275). -/
def generatorNext (s : Dword) : Dword :=
  let s := s ^^^ (s <<< 13)
  let s := s ^^^ (s >>> 7)
  s ^^^ (s <<< 17)
def generatorSeed (seed n : Dword) : Dword :=
  let z := seed + n
  let z := (z ^^^ (z >>> 30)) * 0xBF58476D1CE4E5B9
  let z := (z ^^^ (z >>> 27)) * 0x94D049BB133111EB
  let z := z ^^^ (z >>> 31)
  if z = 0 then 1 else z

/-- The rows of a drain: the generator after all of them, the elements of the stored rows, and the flags of those (R112, R113,
R273). The generator advances before each row, stored or not, of a stochastic drain alone. -/
def drained (k : DrainCfg) (a : Acc) (fmt : Nat) (s : Dword) (rows : List Nat) (cols : Nat) (stored : Nat → Bool) :
    Dword × List (Nat × List Nat) × Flags :=
  let state (n : Nat) : Dword := if k.rm = 1 then generatorNext^[n] s else s
  let mode (n j : Nat) : Rm :=
    if k.rm = 1 then .sr (((state (n + 1)).rotateLeft j).toNat % 2 ^ 32) else if k.rm = 2 then .tz else .rne
  let row (n i : Nat) : List (Nat × Flags) := (List.range cols).map fun j =>
    drainedElement k a.float (a.ovf.getLsbD (64 * i + j)) fmt (mode n j) i j (a.img.extractLsb' (48 * (64 * i + j)) 48).toNat
  let kept := (rows.zipIdx.filter fun p => stored p.1).map fun p => (p.1, row p.2 p.1)
  (state rows.length, kept.map fun r => (r.1, r.2.map (·.1)), (kept.flatMap fun r => r.2.map (·.2)).foldl (· ||| ·) 0)

end Sys2Proof.Machine

/-- The stores of tiles and accumulators, and the drains (R103, R106, R110, R112-R116, R160-R163, R265-R275): a stream that
its checks pass and whose accesses are answered completes, the flags of a drain ORed into `fflg`. What a drain writes is each
element taken through the stages that are on and converted by the mode, with the flags of the rows it stores; the linear
kind's bound is itself an FW48 sum (log 108). `st.a` writes its image and then its ovf map, whose addresses are checked with
the others (log 91; the packing of a tile is log 11); what `drn.t` leaves of the side store and beyond the granted region is
log 92. A store that meets a spill area is refused before it starts (R251). -/
def Obligations.TileStores : Prop :=
  ∀ (tok : Tok) (st : Reg) (tile idx : BitVec 4) (ac : BitVec 2) (fmt : BitVec 5) (i : Instr) (s t : State) (n : Nat),
    s.canRun i →
    let c := s.core
    let e := s.entry i
    let u := s.begun i
    let d := strOf (c.rs st)
    let v := c.tile tile
    let ix := c.tile idx
    let shT : BitVec 19 := v.tc.setWidth 19
    let shI : BitVec 19 := ix.tc.setWidth 19
    let nothing : Eff := ⟨[], [], [], 0⟩
    let fits : Prop := shRows shT ≠ 0 ∧ storeFmt d v u = .ok ((), u) ∧ d.rows = shRows shT ∧ d.cols = shCols shT
    let same : List (Nat × Nat) := d.liveRows.map fun i => (i, i)
    let w := c.whoIn 3 0
    let b := fmtBits d.fmt
    (i = .stT tok st tile → strBad .tile (c.rs st) = none → fits → sparseFmt d u = .ok ((), u) →
      sparseShape d u = .ok ((), u) → storeTile e d v same u = .ok ((), t) → s.completes i t nothing) ∧
    (i = .stTi tok st tile idx → strBad .index (c.rs st) = none → fits → shRows shI ≠ 0 → ix.indexOk = true →
      storeTile e d v (indexRows d ix shI) u = .ok ((), t) → s.completes i t nothing) ∧
    (i = .stFf tok st tile → strBad .fifo (c.rs st) = none → fits → d.base % strAlign b = 0 → fifoBank d u = .ok (n, u) →
      let f := vget c.fifo n 0
      let len := fifoBytes d
      let o := f.toNat % 2 ^ 32 % 131072
      let bs := leBytes len (v.data.toNat % 2 ^ (d.rows * d.cols * b))
      (f.toNat + 2 ^ 32 - f.toNat / 2 ^ 32) % 2 ^ 32 + len ≤ 131072 →
      s.completes i { u with
        bank := if o + len ≤ 131072 then memWrite s.bank (bankBase c.id n + o) bs
          else memWrite (memWrite s.bank (bankBase c.id n + o) (bs.take (131072 - o))) (bankBase c.id n) (bs.drop (131072 - o)),
        core := { u.core with fifo := vmod c.fifo n fun f => setFld f 0 32 (f.toNat % 2 ^ 32 + len) } } nothing) ∧
    (i = .stZ tok st → strBad .zero (c.rs st) = none → 1 ≤ d.fmt → d.fmt ≤ 15 → d.rows ≠ 0 → d.cols ≠ 0 →
      strAddrs w d b (segSpans b (d.segs b same)) [] u = .ok ((), u) →
      noSpill w d (segSpans b (d.segs b same)) u = .ok ((), u) →
      acc (storeSegs w d b 0 (d.segs b same)) u = .ok ((), t) → s.completes i t nothing) ∧
    (∀ x, i = .stA tok st ac → strBad .acc (c.rs st) = none → d.fmt = (if (c.acc ac).float then 14 else 13) → d.rows = 32 →
      d.cols = 64 →
      let elems := segSpans 48 (d.segs 48 same)
      let map : List (Int × Nat) := d.liveRows.map fun (r : Nat) => ((d.base : Int) + 32 * d.rstride + 8 * (r : Int), 8)
      strAddrs w d 48 elems map u = .ok ((), u) → noSpill w d (elems ++ map) u = .ok ((), u) →
      acc (storeSegs w d 48 (c.acc ac).img.toNat (d.segs 48 same)) u = .ok ((), x) →
      acc (d.liveRows.foldlM (fun _ (r : Nat) => writeAt w d.loc (addrOf ((d.base : Int) + 32 * d.rstride + 8 * r))
        (leBytes 8 ((c.acc ac).ovf.toNat / 2 ^ (64 * r) % 2 ^ 64))) ()) x = .ok ((), t) → s.completes i t nothing) ∧
    (i = .drn tok st ac fmt → strBad .acc (c.rs st) = none →
      d.fmt = (if fmt = 13 then (if (c.acc ac).float then 14 else 13) else fmt.toNat) → 1 ≤ d.rows → d.rows ≤ 32 →
      1 ≤ d.cols → d.cols ≤ 64 →
      strAddrs w d (fmtBits fmt.toNat) (segSpans (fmtBits fmt.toNat) (d.segs (fmtBits fmt.toNat) same)) [] u = .ok ((), u) →
      noSpill w d (segSpans (fmtBits fmt.toNat) (d.segs (fmtBits fmt.toNat) same)) u = .ok ((), u) →
      let k := c.cfg ac
      let s0 := if k.rm = 1 then (if c.det then generatorSeed c.seed c.srN else c.srS) else c.srS
      let r := drained k (c.acc ac) fmt.toNat s0 (List.range d.rows) d.cols d.liveRows.contains
      let u' : State := { u with core := { u.core with srS := r.1, srN := if k.rm = 1 then c.srN + 1 else c.srN } }
      acc (storeSegs w d (fmtBits fmt.toNat) (packRows (fmtBits fmt.toNat) d.cols r.2.1)
        (d.segs (fmtBits fmt.toNat) (r.2.1.map fun x => (x.1, x.1)))) u' = .ok ((), t) →
      s.completes i t ⟨[], [], [], r.2.2⟩) ∧
    (i = .drnT tok tile ac fmt → fmtWcode fmt.toNat = shWcode shT → shRows shT ≠ 0 → shRows shT ≤ 32 →
      let k := c.cfg ac
      let s0 := if k.rm = 1 then (if c.det then generatorSeed c.seed c.srN else c.srS) else c.srS
      let r := drained k (c.acc ac) fmt.toNat s0 (List.range (shRows shT)) (shCols shT) fun _ => true
      s.completes i { u with core := { u.core with srS := r.1, srN := if k.rm = 1 then c.srN + 1 else c.srN } }
        ⟨[(tile.toNat, ⟨BitVec.ofNat 32768 (packRows (fmtBits fmt.toNat) (shCols shT) r.2.1), v.side, 0,
          mkTc shT fmt.toNat false 0 false⟩)], [], [], r.2.2⟩)

/-- The array (R13, R95-R99, R101, R119-R122, R262-R264, R278-R281): each element of the result takes the products of its row and
column in order of depth, one addition at a time; a float addition is the exact product added and rounded to nearest even into
FW48, with what R98 says of NaN, infinities and zeros, and its bit in ovf; an integer element is the exact sum modulo 2^48; every
other element keeps its value. A pattern's elements are the 0s and 1s of its kind. `cmpa` adds ranks. An element of an ungrouped
tile has the value its format gives it (the packing of a tile is the model's, log 11). -/
def Obligations.MatrixProducts : Prop :=
  ∀ (tok : Tok) (ac : BitVec 2) (ta tb : BitVec 4) (pat : BitVec 3) (zf : Bool) (fmt : BitVec 5) (i : Instr) (s : State),
    s.canRun i →
    let c := s.core
    let e := s.entry i
    let u := s.begun i
    let a := c.tile ta
    let b := c.tile tb
    let f := fmt.toNat
    let shA : BitVec 19 := a.tc.setWidth 19
    let shB : BitVec 19 := b.tc.setWidth 19
    let ix := patVector c e
    let grouped := fmtGrouped a.fmt || fmtGrouped b.fmt
    let result (cls : Bool) (m n : Nat) (terms : Nat → Nat → List (Val × Val)) : Prop :=
      zf = true ∨ (c.acc ac).float = cls →
      let x : Acc := if zf then ⟨0, 0, cls⟩ else c.acc ac
      ∃ y : Acc, s.completes i u ⟨[], [(ac.toNat, y)], [], 0⟩ ∧ y.float = cls ∧ ∀ r j, r < 32 → j < 64 →
        (r < m → j < n →
          y.el (64 * r + j) = (productsInto cls (x.el (64 * r + j)) (terms r j)).1 ∧
          y.ovf.getLsbD (64 * r + j) = (x.ovf.getLsbD (64 * r + j) || (productsInto cls (x.el (64 * r + j)) (terms r j)).2) ∧
          (cls = false → y.el (64 * r + j) = ofSigned 48 (toSigned 48 (x.el (64 * r + j)) +
            ((terms r j).map fun p => valInt p.1 * valInt p.2).sum))) ∧
        (¬ (r < m ∧ j < n) → y.el (64 * r + j) = x.el (64 * r + j) ∧
          y.ovf.getLsbD (64 * r + j) = x.ovf.getLsbD (64 * r + j))
    let patOk : Prop := fld e.pat 0 4 = 9 →
      shRows e.shI ≠ 0 ∧ (c.tile (e.pat.extractLsb' 16 4)).indexOk = true
    (i = .mmaTileTile tok ac ta tb zf fmt → shRows shA ≠ 0 → shRows shB ≠ 0 → a.fmt ∈ mmaA f → b.fmt ∈ mmaB f → b.sp = false →
      (fmtGrouped a.fmt = false ∨ fmtGrouped b.fmt = false) → shRows shA ≤ 32 → shCols shB ≤ 64 →
      depthOf a (shCols shA) = shRows shB → maskCheck a (shRows shA) (shCols shA) u = .ok ((), u) →
      result (mmaFloat f || grouped) (shRows shA) (shCols shB)
        fun r j => (tileRow a (shCols shA) true r).map fun x => (x.1, b.value (shCols shB) true x.2 j)) ∧
    (i = .mmaPatternA tok ac tb pat zf fmt → shRows shB ≠ 0 → b.fmt ∈ mmaB f → b.sp = false → patOk → shCols shB ≤ 64 →
      result (mmaFloat f) 32 (shCols shB)
        fun r j => (List.range (shRows shB)).map fun k => (patternVal e.pat ix r k, b.value (shCols shB) false k j)) ∧
    (i = .mmaPatternB tok ac ta pat zf fmt → shRows shA ≠ 0 → shRows shA ≤ 32 → a.fmt ∈ mmaA f → patOk →
      maskCheck a (shRows shA) (shCols shA) u = .ok ((), u) →
      result (mmaFloat f) (shRows shA) 64
        fun r j => (tileRow a (shCols shA) false r).map fun x => (x.1, patternVal e.pat ix j x.2)) ∧
    (i = .cmpa tok ac ta fmt → shRows shA ≠ 0 → a.fmt = f → a.sp = false → (c.acc ac).float = false →
      ∃ y : Acc, s.completes i u ⟨[], [(ac.toNat, y)], [], 0⟩ ∧ y.float = false ∧ ∀ r j, r < 32 → j < 64 →
        let row := (List.range (shCols shA)).map fun j => a.value (shCols shA) false r j
        y.el (64 * r + j) = ofSigned 48 (toSigned 48 ((c.acc ac).el (64 * r + j)) +
          if r < shRows shA ∧ j < shCols shA then (rankIn row j : Int) else (shCols shA : Int))) ∧
    (∀ cols scaled r j, a.mask.getLsbD r = false →
      let v := a.value cols scaled r j
      let el (w : Nat) : Nat := a.data.toNat / 2 ^ (w * (r * cols + j)) % 2 ^ w
      (∀ F, fltOf a.fmt = some F →
        let x := el (1 + F.eb + F.fb)
        v.isNan = fltNan F x ∧ v.isInf = fltInf F x ∧ (fltNan F x = false → signOf v = fltNeg F x) ∧
          (fltNan F x = false → fltInf F x = false → magOf v = fltMag F x)) ∧
      (∀ sg w, intOf a.fmt = some (sg, w) →
        v.isNan = false ∧ v.isInf = false ∧ numOf v = if sg then ((BitVec.ofNat w (el w)).toInt : ℚ) else (el w : ℚ)))

/-- A dense tile in a bank: `ld.t` of a stream with no blocks, no padding and whole bytes puts into element (i, j) the bytes at
row i, column j of the stream (R157, R160; the packing of a tile is the model's, log 11). -/
def Obligations.DenseTile : Prop :=
  ∀ (tok : Tok) (st : Reg) (tile : BitVec 4) (s : State) (k : Nat),
    let i := Instr.ldT tok st tile
    let c := s.core
    let d := strOf (c.rs st)
    let sh : BitVec 19 := (c.tile tile).tc.setWidth 19
    let w := fmtBits d.fmt / 8
    let stride := d.rstride.toNat
    let span := stride * (d.rows - 1) + d.cols * w
    s.canRun i → MemoryOk s → strBad .tile (c.rs st) = none → c.det = false → d.loc = true → d.bcols = 0 → d.vrows = 0 → d.sp = false →
    1 ≤ d.fmt → d.fmt ≤ 12 → fmtBits d.fmt % 8 = 0 → 0 ≤ d.rstride → d.base % w = 0 → stride % w = 0 →
    d.rows = shRows sh → d.cols = shCols sh → 1 ≤ d.rows → 1 ≤ d.cols → fmtWcode d.fmt = shWcode sh →
    d.rows * d.cols * fmtBits d.fmt ≤ 32768 → (d.base + span - 1) / 0x20000 = d.base / 0x20000 →
    localOk s (c.who false 0) d.base span = some k → (∀ l ∈ linesOf k span, l ∉ s.bankPoison) →
    ∃ v : Tile, s.completes i (s.begun i) ⟨[(tile.toNat, v)], [], [], 0⟩ ∧ v.fmt = d.fmt ∧ v.mask = 0 ∧ v.sp = false ∧
      v.tc.setWidth 19 = sh ∧ ∀ r j, r < d.rows → j < d.cols →
        v.el (8 * w) (r * d.cols + j) = leValue ((List.range w).map fun n => memByte s.bank (k + stride * r + j * w + n))

/-! ## Contexts, pages, engines -/

namespace Sys2Proof.Machine

/-- A part of a meaning answers `v` and leaves `t`. -/
def Does {α : Type} (m : M α) (s : State) (v : α) (t : State) : Prop := m s = .ok (v, t)

/-- An address operand: below 2^57, and a multiple of `m`. -/
def addrOk (v : Dword) (m : Nat) : Prop := v.toNat < 2 ^ 57 ∧ v.toNat % m = 0

/-- A command has gone to an engine: an injected Clapper mismatch meets it (R339), with no other effect than its event and its
count (R342). -/
def State.handedOver (s : State) : State :=
  if s.core.injClap then clapperReplay { s with core := { s.core with injClap := false } } else s
/-- The word that has handed it over is done, with a register result or with none. -/
def State.gave (s : State) : State := s.handedOver.did 4 s.handedOver.core
def State.gaveTo (s : State) (d : Reg) (v : Dword) : State := s.handedOver.wrote 4 d v
/-- The word that has handed it over waits for its result. -/
def State.gaveWaits (s : State) (n : Nat) : State :=
  { s.handedOver with core := { s.handedOver.core with waitCmd := n, cmdDone := none, stall := 0 } }
/-- A word's own stores are made, and are not performed yet, or are (R238, R348). -/
def State.unperformed (s : State) : State := { s with core := { s.core with cmdDone := some (false, 0), stall := 0 } }
def State.performed (s : State) : State := { s with core := { s.core with cmdDone := none } }

end Sys2Proof.Machine

/-- The context instructions (R194, R332, R334-R336). In task mode every handler-only word takes the illegal-instruction trap with
its words as `tval`. In a handler an image goes out with the resume address and comes in with the pc, the registers and the
mode it gives, `bankmode`, the banks and the binding staying as they were. What is on its way of an emission is withdrawn first
(R249; log 20), and `tval` of a count beyond 32 is the first slot past the queue's (log 114). That `part.sw` saves the context in
handler mode, to resume at the next word, is log 37. -/
def Obligations.ContextWords : Prop :=
  ∀ (a b : Reg) (s t : State) (bs : List Byte),
    let c := s.core
    let v := c.rg a
    let w := withdraw c s
    let d := w.1.settleHeads
    let still : State := { w.2 with core := d }
    let passed : State := { s with core := { c.count 1 with pc := c.pc + 4 } }
    (c.hm = false → ∀ i ∈ [Instr.ctxSv a, .ctxLd a, .qsnSv a, .qsnLd a, .partSw a, .eccInj a b, .mapInv a b, .migFrz a b],
      exec i s = .next (enterTrap 0x01 c.pc ((encode i).2 ++ (encode i).1) s)) ∧
    (c.hm = true → (∀ k ∈ [1, 2, 3], ∀ e ∈ c.queue k, c.isHeld e = true) →
      (v.toNat % 4096 = 0 → Does (writeArea v (coreImage d.giveBack.interrupted 0 0 d.resumeAddr)) still () t →
        exec (.ctxSv a) s = .next (t.did 4 t.core)) ∧
      (v.toNat % 256 = 0 → Does (writeArea v (queueHeader d d.resumeAddr ++ queueSlots d)) still () t →
        exec (.qsnSv a) s = .next (t.did 4 { t.core.giveBack with
          lq := [], mq := [], sq := [], held := none, lmDn := 0, lmUp := 0, msDn := 0, msUp := 0 }))) ∧
    ((∀ r ∈ s.regions, ∀ p ∈ r.transit ++ r.waiting, p.owner ∉ c.owners) → (∀ n, c.commit ≠ .updS n) → w = (c, s)) ∧
    (c.hm = true → v.toNat % 4096 ≠ 0 →
      exec (.ctxSv a) s = .next (enterTrap 0x05 c.pc v s) ∧
      (c.det = false → exec (.ctxLd a) s = .next (enterTrap 0x05 c.pc v s))) ∧
    (c.hm = true → c.det = false → v.toNat % 4096 = 0 → c.quiet = true → c.held = none →
      Does (acc (gRead (c.who true 0) v.toNat coreBytes)) s bs t → bytesAt bs 0 4 = 1 →
      imageFault bs c.partid = none → entryFault bs 0x28D00 = none →
      ∃ u, exec (.ctxLd a) s = .next u ∧ u.core.pc = wrapN (bytesAt bs 0x28D00 8) ∧
        (∀ r : Reg, r ≠ 0 → u.core.rg r = wrapN (bytesAt bs (0x100 + 8 * r.toNat) 8)) ∧
        u.core.hm = decide (bytesAt bs 0x200 1 % 2 = 1) ∧ u.core.phm = decide (bytesAt bs 0x200 1 / 2 % 2 = 1) ∧
        u.core.epc = wrapN (bytesAt bs 0x210 8) ∧ u.core.tval = wrapN (bytesAt bs 0x218 8) ∧
        u.core.seed = wrapN (bytesAt bs 0x228 8) ∧ (∀ k : BitVec 4, u.core.tile k = tileFrom bs k.toNat) ∧
        (∀ k : BitVec 2, u.core.acc k = accFrom bs k.toNat ∧ u.core.cfg k = cfgFrom bs k.toNat) ∧
        u.core.bankmode = c.bankmode ∧ u.core.partid = c.partid ∧ u.core.phase = c.phase ∧ u.core.teamid = c.teamid ∧
        u.core.teamsz = c.teamsz ∧ u.core.det = c.det ∧ SameMemory t u) ∧
    (c.hm = true → v.toNat % 256 = 0 → c.quiet = true →
      Does (acc (gRead (c.who true 0) v.toNat snapBytes)) s bs t →
      (∀ k ∈ [1, 2, 3], 32 < countOf bs 0 k → (∀ j ∈ [1, 2, 3], j < k → countOf bs 0 j ≤ 32) →
        exec (.qsnLd a) s = .next (enterTrap 0x1C c.pc (v + wrapN (256 + 4096 * k)) s)) ∧
      ((∀ k ∈ [1, 2, 3], countOf bs 0 k ≤ 32) → ∀ o, entryFault bs 0 = some o →
        exec (.qsnLd a) s = .next (enterTrap 0x1C c.pc (v + wrapN o) s)) ∧
      ((∀ k ∈ [1, 2, 3], countOf bs 0 k ≤ 32) → entryFault bs 0 = none → ∃ n, queuesFrom bs 0 t.nextNum false none c = some n ∧
        exec (.qsnLd a) s = .next ({ t with core := n, nextNum := t.nextNum + 96 }.did 4 n))) ∧
    (c.hm = true → c.det = false → v.toNat < 32 → v.toNat ≠ c.partid.toNat →
      s.pg c.partid 0x18 4 / 2 ^ v.toNat % 2 = 1 →
      let u := saveContext 0x42 false false c.id passed
      exec (.partSw a) s = .next (if u.core.ctx = 0 then giveCore c.id (v.setWidth 5) u else u).waits) ∧
    (c.hm = true → c.det = false → (32 ≤ v.toNat ∨ v.toNat = c.partid.toNat ∨ s.pg c.partid 0x18 4 / 2 ^ v.toNat % 2 = 0) →
      exec (.partSw a) s = .next (enterTrap 0x1D c.pc v s)) ∧
    (c.quiet = true → (1 < c.teamsz.toNat ∨ c.det = true) → exec .yield s = .next (s.did 4 c)) ∧
    (c.quiet = true → c.teamsz.toNat ≤ 1 → c.det = false →
      exec .yield s = .next (saveContext 0x41 true false c.id passed).waits)

/-- The code store, invalidation, migration and retention (R217-R219, R303-R310). `code.ld`, `map.inv` and `mig.frz` first release
every earlier access of the core at DV. An invalidation revokes the pins it overlaps and fires the watches on its lines (R84),
and completes once no store of the device is on its way (log 111). A migration starts on a level-3 leaf of HBM4 or LPDDR6, else it answers state 4
(log 45 for the order of the refusals); a round gives out the flagged lines and clears them; a commit copies the flagged lines
and changes the entry, unless the new entry is not valid or the old one has changed (4) or the granule is pinned (3); an
abandonment gives the tracker up (6). -/
def Obligations.PageWords : Prop :=
  ∀ (d a b : Reg) (s t : State) (bs : List Byte),
    let c := s.core
    let cv := c.rg d
    let av := c.rg a
    let bv := c.rg b
    let die := dieOf c.id
    let keep (k : Nat) : Retain := vget s.retain (16 * die + k) Retain.reset
    let mine (k : Nat) : Prop := (keep k).en = true ∧ (keep k).part = c.partid
    let w := c.who true 3
    (c.det = false → c.quiet = true → s.noneFar 3 → cv.toNat % 4 = 0 → av.toNat % 4 = 0 → bv.toNat % 4 = 0 → bv ≠ 0 →
      s.inWindow c.partid cv.toNat bv.toNat = true → av.toNat + bv.toNat ≤ 2 ^ 57 →
      (∀ g ∈ granules av.toNat bv.toNat, ∃ l, s.translation g = some l ∧ l.grants .rx = true) →
      Does (acc (gRead w av.toNat bv.toNat .rx)) s bs t →
      exec (.codeLd d a b) s = .next ({ t with
        code := memWrite t.code (clusterOf c.id * 0x400000 + cv.toNat) bs,
        codePoison := clearPoison t.codePoison (clusterOf c.id * 0x400000 + cv.toNat) bs.length }.did 4 t.core)) ∧
    (c.det = false → av.toNat % 4 = 0 → bv.toNat % 4 = 0 → bv ≠ 0 → s.inWindow c.partid av.toNat bv.toNat = true →
      exec (.codeInv a b) s = .next ({ s with
        code := memWrite s.code (clusterOf c.id * 0x400000 + av.toNat) (List.replicate bv.toNat 0xFF),
        codePoison := clearPoison s.codePoison (clusterOf c.id * 0x400000 + av.toNat) bv.toNat }.did 4 c)) ∧
    (c.hm = true → c.quiet = true → s.noneFar 3 → av.toNat % 16384 = 0 → bv.toNat % 16384 = 0 → bv ≠ 0 →
      av.toNat + bv.toNat ≤ 2 ^ 57 →
      let u := invalidate c.partid av.toNat bv.toNat s
      let away : Prop := s.remote ≠ [] ∨ s.hostStores ≠ []
      (c.commit ≠ .mapInv →
        (¬ away → exec (.mapInv a b) s = .next (u.did 4 { u.core with commit := .none })) ∧
        (away → exec (.mapInv a b) s = .next { u with core := { u.core with commit := .mapInv, stall := 0 } })) ∧
      (c.commit = .mapInv →
        (¬ away → exec (.mapInv a b) s = .next (s.did 4 { c with commit := .none })) ∧
        (away → exec (.mapInv a b) s = .next s.waits)) ∧
      u = { s with core := u.core, others := u.others, saved := u.saved, channels := u.channels, cache := u.cache } ∧
      u.cache.l1 = s.cache.l1.filter (fun x =>
        !((s.findCore x.core).partid == c.partid && overlaps (64 * (x.va / 64)) 64 av.toNat bv.toNat)) ∧
      u.core = { c with pins := u.core.pins, watch := u.core.watch } ∧
      u.core.pins = c.pins.map (fun p => { p with
        revoked := p.revoked || overlaps p.base.toNat p.len.toNat av.toNat bv.toNat }) ∧
      u.core.watch = c.watch.map fun w => { w with fired := w.fired || overlaps (64 * w.line) 64 av.toNat bv.toNat }) ∧
    (c.hm = true → c.quiet = true → s.noneFar 3 → av.toNat % 64 = 0 → Does (acc (gRead w av.toNat 64)) s bs t →
      Does (acc (gProbe w .w av.toNat 64)) t () t →
      let p := c.partid
      let rec_ := leNat bs
      let g := rec_ / 2 ^ 14 % 2 ^ 43 * 2 ^ 14
      let leaf := rec_ / 2 ^ 64 % 2 ^ 64
      let new := leaf / 2 ^ 14 % 2 ^ 38 * 2 ^ 14
      let tracks (x : Tracker) : Prop := x.part = p ∧ x.va.toNat = g
      let ends (op : Nat) (u : State) (map : Option (BitVec 256)) (rounds state : Option Nat) : Prop :=
        bv.toNat = op → ∀ x, Does (do
          match map with
          | some m => acc (gWrite w (av.toNat + 16) (leBytes 32 m.toNat))
          | none => pure ()
          match rounds with
          | some n => acc (gWrite w (av.toNat + 52) (leBytes 4 n))
          | none => pure ()
          match state with
          | some n => acc (gWrite w (av.toNat + 48) (leBytes 1 n))
          | none => pure ()) u () x → exec (.migFrz a b) s = .next (x.did 4 x.core)
      let suits (l : Leaf) : Prop := l.level = 3 ∧ (isHbm l.pa = true ∨ isLp6 l.pa = true)
      let full : Prop := 64 ≤ t.trackers.length ∨ t.pg p 0x6A 1 ≤ t.trackers.countP fun x => x.part == p
      ((∀ l, t.walk p g = some l → ¬ suits l) → ends 0 t none none (some 4)) ∧
      (∀ l, t.walk p g = some l → suits l →
        ((∃ x ∈ t.trackers, tracks x) → ends 0 t none none (some 8)) ∧
        ((∀ x ∈ t.trackers, ¬ tracks x) → (full → ends 0 t none none (some 5)) ∧
          (¬ full → ends 0 { t with trackers := t.trackers ++
              [⟨p, wrapN g, BitVec.ofNat 52 l.entryAddr, l.entry, BitVec.ofNat 52 l.pa, 0⟩] } none (some 0) (some 1)))) ∧
      ((∀ x ∈ t.trackers, ¬ tracks x) → ∀ op ∈ [1, 2, 3], ends op t none none (some 7)) ∧
      (∀ before after x, t.trackers = before ++ x :: after → tracks x → (∀ y ∈ before ++ after, ¬ tracks y) →
        ends 1 { t with trackers := before ++ { x with map := 0 } :: after } (some x.map)
          (some ((rec_ / 2 ^ 416 % 2 ^ 32 + 1) % 2 ^ 32)) none ∧
        ends 3 { t with trackers := before ++ after } none none (some 6) ∧
        (leafValid t leaf = false ∨ t.phys8 x.leafAddr.toNat ≠ x.leaf.toNat → ends 2 t none none (some 4)) ∧
        (leafValid t leaf = true → t.phys8 x.leafAddr.toNat = x.leaf.toNat →
          (pinnedAt t p g = true → ends 2 t none none (some 3)) ∧
          (pinnedAt t p g = false → MemoryOk t → x.page.toNat % 16384 = 0 → isPeer x.page.toNat = false →
            isPeer new = false → isPeer x.leafAddr.toNat = false → isHost x.page.toNat = false → isHost new = false →
            isHost x.leafAddr.toNat = false →
            ∃ u, ends 2 u (some x.map) none (some 2) ∧ (∀ y ∈ u.trackers, ¬ tracks y) ∧ u.bank = t.bank ∧ u.code = t.code ∧
              ∀ y, memByte u.mem y =
                if x.leafAddr.toNat ≤ y ∧ y < x.leafAddr.toNat + 8 then BitVec.ofNat 8 (leaf / 256 ^ (y - x.leafAddr.toNat))
                else if new ≤ y ∧ y < new + 16384 ∧ x.map.getLsbD ((y - new) / 64) = true
                then memByte t.mem (x.page.toNat + (y - new)) else memByte t.mem y)))) ∧
    (av.toNat % 16384 = 0 → bv.toNat % 16384 = 0 → bv ≠ 0 → bv.toNat ≤ 2 ^ 40 → av.toNat + bv.toNat ≤ 2 ^ 57 →
      (∀ k, k < 16 → mine k → overlaps (keep k).base.toNat ((keep k).gran.toNat * 16384) av.toNat bv.toNat = false) →
      (List.range 16).countP (fun k => (keep k).en && (keep k).part == c.partid) < s.pg c.partid (0x60 + die) 1 →
      ∀ k, k < 16 → (keep k).en = false → (∀ j, j < k → (keep j).en = true) →
        exec (.dcKeep a b) s = .next ({ s with retain := vmod s.retain (16 * die + k) fun _ =>
          ⟨true, av, c.partid, BitVec.ofNat 32 (bv.toNat / 16384)⟩ }.did 4 c)) ∧
    (let gone (k : Nat) : Bool :=
        let old := vget s.retain k Retain.reset
        decide (k / 16 = die ∧ old.en = true ∧ old.part = c.partid ∧ old.base = av)
      ∃ r k, exec (.dcUnpin a) s = .next ({ s with retain := r, cache := k }.did 4 c) ∧
        (∀ k, k < 128 → vget r k Retain.reset = if gone k then Retain.reset else vget s.retain k Retain.reset) ∧
        k.l1 = s.cache.l1 ∧ k.cluster = s.cache.cluster ∧
        k.slices = s.cache.slices.map fun x =>
          (x.1, x.2.map fun l => if l.cls.any (fun z => gone (16 * z.1 + z.2)) then { l with cls := none } else l))

/-- The KV instructions (R287-R295), outside deterministic mode, once the queues are empty and every earlier access of the core is
performed at DV (R290): the record is read and judged, and each entry and field takes the value its rule gives, in the order of
the rule. The next word decodes once the step is performed at DV; that the state keeps the step's progress is the model's
(log 113). -/
def Obligations.KvWords : Prop :=
  ∀ (d a b : Reg) (s t u x y : State) (k m : KvRec) (e f : Dword) (es : List (Nat × Dword)),
    let c := s.core
    let av := c.rg a
    let bv := c.rg b
    let dv := c.rg d
    let w := c.who true 3
    let at_ := av.toNat
    let ends (i : Instr) (y : State) (f : Core → Core) : Prop :=
      (y.noneFar 3 → exec i s = .next (y.did 4 (f y.core))) ∧
      (y.someFar 3 → exec i s = .next { y with core := { f y.core with commit := .kvStep, stall := 0 } })
    (c.commit = .kvStep → ∀ i ∈ [Instr.kvApp d a b, .kvFork d a, .kvMap a b, .kvRel a, .kvRd d a],
      (s.noneFar 3 → exec i s = .next (s.did 4 { c with commit := .none })) ∧ (s.someFar 3 → exec i s = .next s.waits)) ∧
    (c.commit ≠ .kvStep → c.det = false → c.quiet = true → s.noneFar 3 →
    (addrOk av 64 → addrOk bv 8 → Does (kvOpen at_) s k t → k.len ≠ 192 →
      let n := k.len
      let off := n % 16
      let p := if off = 0 then k.free else k.page (n / 16)
      let dst := k.dbase + 16 * k.tokb * p + k.tokb * off
      (off = 0 → k.free ≠ noPage ∧ k.free < k.npages ∧ u = t) → (off ≠ 0 → Does (kvEntry k p) t e u ∧ enRef e ≤ 1) →
      dst + k.tokb ≤ 2 ^ 57 → probeFail w .w u dst k.tokb = none →
      Does (do
        iff' (off = 0) (do
          let e ← kvEntry k p
          kvPut4 (k.kvd + 24) (enNext e)
          kvPut8 (k.entryAt p) (2 ^ 48)
          kvPut4 (at_ + 16 + 4 * (n / 16)) p)
        let bs ← (List.range (k.tokb / 8)).flatMapM fun i => acc (gRead w (bv + wrapN (8 * i)).toNat 8)
        acc (gWrite w dst bs)
        let g ← kvGet8 (k.entryAt p)
        kvPut8 (k.entryAt p) (g / 2 ^ 48 * 2 ^ 48 + (off + 1) * 2 ^ 43 + g % 2 ^ 43)
        kvPut4 (at_ + 8) (n + 1)) u () x →
      ends (.kvApp d a b) x fun z => z.setG d (wrapN (n + 1))) ∧
    (addrOk av 64 → addrOk dv 64 → Does (kvOpen at_) s k t → Does (kvOpen dv.toNat) t m u → dv ≠ av → m.len = 0 →
      m.hold = noPage → Does (k.pages.mapM fun p => do return (p, ← kvEntry k p)) u es x →
      (∀ r ∈ es, enRef r.2 ≠ 65535) →
      Does (do
        each es fun r => kvPut8 (k.entryAt r.1) (r.2.toNat + 2 ^ 48)
        kvPut8 dv.toNat k.kvd
        kvPut8 (dv.toNat + 8) (noPage * 2 ^ 32 + k.len)
        each (List.range 12) fun i => kvPut4 (dv.toNat + 16 + 4 * i) (k.page i)) x () y →
      ends (.kvFork d a) y id) ∧
    (addrOk av 64 → Does (kvOpen at_) s k t →
      let i := bv.toNat
      i < 12 → k.page i ≠ noPage → k.hold = noPage → k.free ≠ noPage → k.free < k.npages →
      Does (kvEntry k (k.page i)) t e u → Does (kvEntry k k.free) u f x →
      Does (do
        kvPut4 (k.kvd + 24) (enNext f)
        kvPut8 (k.entryAt k.free) (mkEntry 1 (enFill e) 0)
        kvPut4 (at_ + 12) (k.page i)
        kvPut4 (at_ + 16 + 4 * i) k.free) x () y →
      ends (.kvMap a b) y id) ∧
    (av.toNat < 2 ^ 57 → av.toNat / 2 % 32 = 0 → Does (kvOpen (at_ / 2 * 2)) s k t →
      let r := at_ / 2 * 2
      (at_ % 2 = 1 → k.hold ≠ noPage → Does (kvCheckDrops k [k.hold]) t () u →
        Does (do
          kvDrop k k.hold
          kvPut4 (r + 12) noPage) u () x → ends (.kvRel a) x id) ∧
      (at_ % 2 = 0 →
        let ps := k.pages ++ (if k.hold = noPage then [] else [k.hold])
        Does (kvCheckDrops k ps) t () u →
        Does (do
          each ps (kvDrop k)
          each (List.range 12) fun i => iff' (k.page i != noPage) (kvPut4 (r + 16 + 4 * i) noPage)
          iff' (k.hold != noPage) (kvPut4 (r + 12) noPage)
          kvPut4 (r + 8) 0) u () x → ends (.kvRel a) x id)) ∧
    (av.toNat < 2 ^ 57 → av.toNat / 16 % 4 = 0 → Does (kvOpen (at_ / 64 * 64)) s k t →
      let i := at_ % 16
      i ≤ 11 →
      (k.page i = noPage → ends (.kvRd d a) t fun z => z.setG d (wrapN noPage)) ∧
      (k.page i ≠ noPage → Does (kvEntry k (k.page i)) t e u →
        ends (.kvRd d a) u fun z => z.setG d (wrapN (e.toNat / 2 ^ 43 * 2 ^ 43 + k.page i)))))

/-- The words that hand a command to the sampler, the acceptance engine, the expert loader and the prefetcher, and those of the
same chapter that complete in the sequencer (R347-R368). `moe.cmb` and `spec.chk` wait until their own stores are performed;
that the state keeps the word's progress in `cmdDone` is the model's (log 113), and so is that a check counts itself (log 42). -/
def Obligations.ServingWords : Prop :=
  ∀ (d a b : Reg) (sc : BitVec 3) (s t u x : State) (h g : BitVec 512) (sl : List Dword) (bs : List Byte),
    let c := s.core
    let av := c.rg a
    let bv := c.rg b
    let sc2 := maxScope sc 2
    let sc3 := maxScope sc 3
    let pushed (y : State) (k : Command) (unit op : Nat) (scope : BitVec 3) : Prop :=
      k.unit = unit ∧ k.op = op ∧ k.num = y.nextNum ∧ k.core = y.core.id ∧ k.part = y.core.partid ∧ k.a = av ∧ k.stage = 0 ∧
      k.scope = scope ∧ k.det = y.core.det
    -- exs.cnt, exs.age, exs.ld
    (c.det = false → Does (ecrOpen av sc) s (h, sl) t →
      (∀ ct, let e := (c.rg d).toNat
        e < ecrExp h → Does (acc (gRead (c.who true sc3).exclusive (ecrCtr av.toNat h e) 4)) t ct u →
        Does (acc (gWrite (c.who true sc3).exclusive (ecrCtr av.toNat h e) (leBytes 4 (min (leNat ct + 1) (2 ^ 32 - 1))))) u () x →
        let found (st : Nat) := sl.findIdx? fun v => slotSt v == st && slotExp v == e
        exec (.exsCnt d a sc) s = .next (x.wrote 4 d (match found 2, found 1 with
          | some i, _ => wrapN i
          | none, some i => wrapN (i + 2 ^ 32)
          | none, none => wrapI (-1)))) ∧
      (Does (acc (gRead (c.who true sc3).exclusive (ecrCtr av.toNat h 0) (4 * ecrExp h))) t bs u →
        Does (acc (gWrite (c.who true sc3).exclusive (ecrCtr av.toNat h 0)
          ((List.range (ecrExp h)).flatMap fun i => leBytes 4 (bytesAt bs (4 * i) 4 / 2)))) u () x →
        exec (.exsAge a sc) s = .next (x.did 4 x.core)) ∧
      (bv.toNat / 2 ^ 12 % 2 ^ 51 = 0 → bv.toNat % 2 ^ 12 < ecrExp h → t.noneFar sc3 →
        ∃ k, pushed t k (expertUnit (dieOf c.id)) 0 sc3 ∧ k.b = bv ∧
          k.x = wrapN (bv.toNat % 2 ^ 12) ∧ k.snap = h ∧ exec (.exsLd a b sc) s = .next ({ t with
            nextNum := t.nextNum + 1, experts := vmod t.experts (dieOf c.id) (· ++ [k]) }.gave))) ∧
    -- tbl.swap, emb.pf
    (c.det = false → addrOk av 64 → s.noneFar sc3 → Does (readDesc sc3 av.toNat) s h t → tableRecOk h = true → addrOk bv 64 →
      let v := h.toNat % 2 ^ 32
      let k := (v + 1) % 2
      fld h (224 + 128 * k) 32 = 0 →
      Does (do
        acc (gWrite (c.who true sc3) (av.toNat + 16 + 16 * k) (leBytes 8 bv.toNat ++ leBytes 8 ((v + 1) % 2 ^ 32)))
        acc (gWrite (c.who true sc3) av.toNat (leBytes 4 (v + 1)))) t () x →
      exec (.tblSwap a b sc) s = .next (x.did 4 x.core)) ∧
    (addrOk av 64 → addrOk bv 64 → Does (readDesc sc av.toNat) s h t → Does (readDesc sc bv.toNat) t g u →
      let n := fld g 64 32
      tableRecOk h = true → fld g 57 7 = 0 → fld g 97 31 = 0 → fld g 128 384 = 0 → n ≠ 0 → n ≤ 65536 →
      Does (checkRange .r (fld g 0 57) (n * (if g.getLsbD 96 then 8 else 4))) u () x → x.noneFar sc3 →
      ∃ k, pushed x k (prefetchUnit (dieOf c.id)) 0 sc3 ∧ k.b = bv ∧ k.snap = h ∧ k.snap2 = g ∧
        exec (.embPf a b sc) s = .next ({ x with
          nextNum := x.nextNum + 1, prefetch := vmod x.prefetch (dieOf c.id) (· ++ [k]) }.gave)) ∧
    -- smp.coarse, and smp.thr and smp.draw before and after their command
    (addrOk av 64 → Does (readDesc sc av.toNat) s h t → samplingOk h = true →
      let sampler := samplerUnit (clusterOf c.id)
      (bv.toNat ≤ 1 → Does (checkSampling h true 0 (samplingOf h).rows) t () u → u.noneFar sc2 →
        ∃ k, pushed u k sampler 0 sc2 ∧ k.b = bv ∧ k.snap = h ∧ exec (.smpCoarse a b sc) s = .next ({ u with
          nextNum := u.nextNum + 1, sampler := vmod u.sampler (clusterOf u.core.id) (· ++ [k]) }.gave)) ∧
      (c.waitCmd = 0 → Does (checkSampling h false 0 (samplingOf h).rows) t () u → u.noneFar sc2 →
        ∃ k, pushed u k sampler 1 sc2 ∧ k.x = c.iterlim.setWidth 64 ∧ k.snap = h ∧ exec (.smpThr d a sc) s = .next ({ u with
          nextNum := u.nextNum + 1, sampler := vmod u.sampler (clusterOf u.core.id) (· ++ [k]) }.gaveWaits k.num)) ∧
      (c.waitCmd = 0 → bv.toNat / 2 ^ 17 % 2 ^ 47 = 0 → bv.toNat % 256 < (samplingOf h).rows →
        Does (checkSampling h (bv.getLsbD 16) (bv.toNat % 256) 1) t () u → u.noneFar sc2 →
        ∃ k, pushed u k sampler 2 sc2 ∧ k.b = bv ∧ k.snap = h ∧ exec (.smpDraw d a b sc) s = .next ({ u with
          nextNum := u.nextNum + 1, sampler := vmod u.sampler (clusterOf u.core.id) (· ++ [k]) }.gaveWaits k.num))) ∧
    (c.waitCmd ≠ 0 → ∀ i ∈ [Instr.smpThr d a sc, .smpDraw d a b sc],
      (∀ v, c.cmdDone = some (false, v) →
        exec i s = .next (s.did 4 ({ c with waitCmd := 0, cmdDone := none }.setG d v))) ∧
      (∀ v, c.cmdDone = some (true, v) → exec i s = .next (enterTrap 0x20 c.pc v s)) ∧
      (c.cmdDone = none → exec i s = .next s.waits)) ∧
    -- spec.chk, frag.sel
    (addrOk av 64 → Does (readDesc sc av.toNat) s h t →
      let k := checkOf h
      let n := vget x.checkNum (dieOf c.id) 0 + 1
      (checkOk h = true → bv.toNat ≤ 1 → Does (readDesc sc k.sdesc) t g u → samplingOk g = true →
        k.row0 + k.nd < (samplingOf g).rows →
        Does (do
          checkSampling g k.full k.row0 (k.nd + 1)
          checkRange .r k.d (4 * k.nd)
          checkRange .w k.o (4 * (k.nd + 1))) u () x →
        let goes (y : State) : Prop := y.noneFar sc2 → ∃ q, pushed y q (acceptUnit (dieOf c.id)) 0 sc2 ∧ q.b = bv ∧
          q.x = n.setWidth 64 ∧ q.snap = h ∧ q.snap2 = g ∧ exec (.specChk d a b sc) s = .next ({ y.performed with
            nextNum := y.nextNum + 1, checkNum := vmod y.checkNum (dieOf c.id) fun _ => n,
            accept := vmod y.accept (dieOf c.id) (· ++ [q]) }.gaveTo d (n.setWidth 64))
        (∀ y, c.cmdDone = none → x.noneFar sc2 → Does (acc (gWrite (c.who true sc2) (av.toNat + 32) (leBytes 8 0))) x () y →
          goes y ∧ (y.someFar sc2 → exec (.specChk d a b sc) s = .next y.unperformed)) ∧
        (c.cmdDone ≠ none → goes x)) ∧
      (h.getLsbD 319 = true → exec (.fragSel d a sc) s = .next (t.wrote 4 d (wrapN (h.toNat / 2 ^ 288 % 256)))) ∧
      (h.getLsbD 319 = false → exec (.fragSel d a sc) s = .next s.waits)) ∧
    -- moe.cmb, and once its stores are made
    (c.cmdDone ≠ none → s.noneFar sc → exec (.moeCmb a b sc) s = .next (s.performed.did 4 s.performed.core)) ∧
    (c.cmdDone = none → addrOk av 64 → bv.toNat ≤ 1 → c.quiet = true → s.noneFar sc → Does (readDesc sc av.toNat) s h t →
      let k := combineOf h
      let n := k.nexp * k.cap
      combineOk h = true → k.overlaps = false →
      ∀ (words : List (List Byte)) (gates : List (List (List Byte))) (gate : Nat → Nat) (tok : Nat → Option Nat) (y : State),
        let rd (a : Nat) : M (List Byte) := acc (gRead (c.who true sc) a 2)
        let of (q : Nat) : List Nat := (List.range n).filter fun i => tok i == some q
        Does ((List.range n).mapM fun i => rd (k.s + i * k.sstride)) t words u →
        (∀ i, i < n → slotToken k.ntok (leNat (words.getD i [])) = some (tok i)) →
        Does ((List.range k.ntok).mapM fun q => (of q).mapM fun i => rd (k.g + 2 * (k.nexp * q + i / k.cap))) u gates y →
        (∀ i q, i < n → tok i = some q →
          gate i = leNat ((gates.getD q []).getD ((of q).idxOf i) []) ∧ gateBad (gate i) = false) →
        let sum (q : Nat) : Val := (of q).foldl (fun y i => y.add (bf16.dec (gate i))) (.fin false 0 0)
        let out (q : Nat) : List Nat := (List.range n).map fun i =>
          if tok i = some q then (if bv.getLsbD 0 then gateOver (gate i) (sum q) else gate i) else 0
        Does (each (List.range k.ntok) fun q =>
          acc (gWrite (c.who true sc) (k.o + q * k.ostride) ((out q).flatMap (leBytes 2)))) y () x →
        (x.noneFar sc → exec (.moeCmb a b sc) s = .next (x.performed.did 4 x.performed.core)) ∧
        (x.someFar sc → exec (.moeCmb a b sc) s = .next x.unperformed))

/-- The words of the text engines and of the request unit (R369-R371, R373, R374, R380, R385). A submission clears its status and
joins its engine's queue in one step (R374); the command it queues, and the number of a hand-over, are the model's names for
what the rules queue (log 113). -/
def Obligations.TextWords : Prop :=
  ∀ (dtk : Bool) (d a b : Reg) (sc : BitVec 3) (s t u x : State) (h : BitVec 512) (bs fr : List Byte),
    let c := s.core
    let av := c.rg a
    let bv := c.rg b
    let sc3 := maxScope sc 3
    let w := c.who true sc3
    let sub : Instr := if dtk then .dtkSub a b sc else .tokSub a b sc
    let res : Instr := if dtk then .dtkRes d a sc else .tokRes d a sc
    (addrOk av 64 → bv.toNat ≤ 7 → s.pg c.partid (if dtk then 0x6D else 0x6C) 1 / 2 ^ bv.toNat % 2 = 1 →
      Does (readDesc sc av.toNat) s h t → submitOk dtk h = true →
      (pendingSub t c.partid av = true → exec sub s = .next s.waits) ∧
      (pendingSub t c.partid av = false → t.noneFar sc3 →
        Does (acc (gWrite w (av.toNat + (if dtk then 48 else 40)) (leBytes 8 0))) t () u →
        ∃ k : Command, k.num = u.nextNum ∧ k.a = av ∧ k.core = u.core.id ∧ k.part = u.core.partid ∧ k.scope = sc3 ∧
          k.unit = textUnit dtk bv.toNat ∧ exec sub s = .next (({ u with nextNum := u.nextNum + 1 }.modText dtk bv.toNat fun q =>
            { q with subs := q.subs ++ [k] }).gave))) ∧
    (addrOk av 64 → Does (acc (gRead (c.who true sc) (av.toNat + statusOff dtk) 8)) s bs t →
      (2 ^ 63 ≤ leNat bs → bs.length = 8 → exec res s = .next (t.wrote 4 d (wrapN (leNat bs)))) ∧
      (leNat bs < 2 ^ 63 → exec res s = .next s.waits)) ∧
    (c.det = false → addrOk av 64 → Does (readDesc sc av.toNat) s h t → recvOk h = true →
      let n := h.toNat % 128
      let r := t.rq n
      let wr : Who := { w with part := r.part }
      t.rqGranted c.partid n = true →
      (r.count = 0 → exec (.netRx d a sc) s =
        .next ((t.modRq n fun r => { r with armed := true }).wrote 4 d (wrapI (-1)))) ∧
      (r.count ≠ 0 → Does (acc (gRead wr (r.slot r.head) 8)) t bs u →
        let len := 32 + frTlen bs
        len ≤ h.toNat / 2 ^ 128 % 2 ^ 32 →
        Does (do
          let f ← acc (gRead wr (r.slot r.head) len)
          acc (gWrite w (h.toNat / 2 ^ 64 % 2 ^ 57) f)
          return f) u fr x →
        exec (.netRx d a sc) s = .next ((x.modRq n fun r => { r with head := r.head + 1 }).wrote 4 d (wrapN len)))) ∧
    (c.det = false → (∀ n, c.commit ≠ .netTx n) → addrOk av 64 → Does (acc (gRead (c.who true sc) av.toNat 32)) s bs t →
      replyOk bs bv = true → t.noneFar sc3 →
      let y : State := { t with nextNum := t.nextNum + 1, handed := t.handed ++ [⟨t.nextNum, c.partid, c.id, av, bv, sc3⟩] }
      exec (.netTx a b sc) s = .next { y.handedOver with
        core := { y.handedOver.core with commit := .netTx t.nextNum, stall := 0 } }) ∧
    (∀ n, c.det = false → c.commit = .netTx n →
      ((∀ r ∈ s.handed, r.num ≠ n) → exec (.netTx a b sc) s = .next (s.did 4 { c with commit := .none })) ∧
      ((∃ r ∈ s.handed, r.num = n) → exec (.netTx a b sc) s = .next s.waits)) ∧
    (c.det = false → addrOk av 64 → addrOk bv 64 →
      ∀ (hd cl mg : List Byte) (n : Nat) (y z : State),
        Does (acc (gRead (c.who true sc) bv.toNat 64)) s hd t → vocabHeader hd = some n →
        Does (acc (gRead (c.who true sc) (bv.toNat + 64) 256)) t cl u →
        Does (acc (gRead (c.who true sc) (bv.toNat + 320) (8 * n))) u mg x → mergesOk (mergesOf n mg) = true → x.noneFar sc3 →
        Does (readDesc sc3 av.toNat) x h y →
        let v := h.toNat % 2 ^ 32
        let k := (v + 1) % 2
        fld h 32 32 = 0 → fld h 64 64 = 0 → fld h 185 7 = 0 → fld h 128 6 = 0 → fld h 313 7 = 0 → fld h 256 6 = 0 →
        fld h 384 128 = 0 → fld h (224 + 128 * k) 32 = 0 →
        Does (do
          acc (gWrite w (av.toNat + 16 + 16 * k) (leBytes 8 bv.toNat ++ leBytes 8 ((v + 1) % 2 ^ 32)))
          acc (gWrite w av.toNat (leBytes 4 (v + 1)))) y () z →
        exec (.vocSwap a b sc) s = .next (z.did 4 z.core))

/-- The channel instructions (R129, R165-R169, R241): a chain is handed over at the larger of the scope and DI, which releases at
it, and its identifier latched; a wait returns once the chains are complete and their bytes performed at its scope; an abort waits until the channel has stopped and its stores are performed at the abort's scope; what it waits
for it keeps over a pre-emption (R325). -/
def Obligations.ChannelWords : Prop :=
  ∀ (d a b : Reg) (sc : BitVec 3) (s : State),
    let c := s.core
    let av := c.rg a
    let bv := c.rg b
    let k := chanIx (dieOf c.id) av.toNat
    let ch := s.chan k
    let who := c.who true sc
    let granted := av.toNat ≤ 63 ∧ s.pg c.partid (0x70 + 8 * dieOf c.id) 8 / 2 ^ av.toNat % 2 = 1
    let w : BitVec 32 := bv.setWidth 32
    (granted →
      (bv.toNat % 64 = 0 → bv.toNat + 64 ≤ 2 ^ 57 →
        (∃ l, s.translation bv.toNat = some l ∧ l.grants .r = true ∧ s.poolLost l.pa = false) →
        (16 ≤ ch.queue.length → exec (.cpGo a b sc) s = .next s.waits) ∧
        (ch.queue.length < 16 → s.noneFar (maxScope sc 2) → exec (.cpGo a b sc) s =
          .next ((s.handedOver.modChan k fun x => { x with issued := ch.issued + 1, queue := x.queue ++ [
            { chan := k, ident := ch.issued + 1, head := bv, core := c.id, part := c.partid, scope := maxScope sc 2,
              det := c.det, ctx := c.ctx, task := who.task, member := who.member, arrivals := who.arr,
              waits := who.wts }] }).did 4
            { s.handedOver.core with latchId := ch.issued + 1, latchCh := av.setWidth 6 }))) ∧
      (av = c.latchCh.setWidth 64 → exec (.cpId d a) s = .next (s.wrote 4 d (c.latchId.setWidth 64))) ∧
      (av ≠ c.latchCh.setWidth 64 → c.det = false →
        exec (.cpId d a) s = .next (s.wrote 4 d (ch.issued.setWidth 64))) ∧
      (av ≠ c.latchCh.setWidth 64 → c.det = true → exec (.cpId d a) s = .next (s.trapped 0x11)) ∧
      (0 < (w - ch.issued).toInt → exec (.cpWait a b sc) s = .next (enterTrap 0x14 c.pc (wrapN w.toNat) s)) ∧
      ((w - ch.issued).toInt ≤ 0 → exec (.cpWait a b sc) s =
        .next (if (ch.cpdone - w).toInt < 0 ∨ s.retiredFar k sc = true then s.waits else s.did 4 c)) ∧
      (c.det = false → (∀ x, c.commit ≠ .cpAbort x) →
        let t := s.modChan k Channel.abort
        exec (.cpAbort a sc) s = .next (if (t.chan k).past ch.issued ∧ s.engineFar (chanUnit k) sc = false then t.did 4 { c with commit := .none }
          else { t with core := { c with commit := .cpAbort ch.issued.toNat, stall := 0 } })) ∧
      (∀ x, c.det = false → c.commit = .cpAbort x → exec (.cpAbort a sc) s =
        .next (if ch.past (BitVec.ofNat 32 x) ∧ s.engineFar (chanUnit k) sc = false then s.did 4 { c with commit := .none }
          else s.waits))) ∧
    (¬ granted → ∀ i ∈ [Instr.cpGo a b sc, .cpId d a, .cpWait a b sc],
      exec i s = .next (enterTrap 0x04 c.pc av s))

/-- Update streams (R200-R207, R246-R252): a region is declared in a free entry, its spill header cleared, the copies of its lines
invalidated and the watches on them fired (R84); a read of one in a lost pool region ends the context (R240); an emission holds its region until its pairs are
accepted, one after the other with the emitter's next numbers; a read of the region applies it first; a drain with bit 0 closes
it and removes it once no emission holds it. A region may not overlap another one of any partition (R246; log 21). The model
may let a pair arrive at once (log 7); the record of a hold, by its task's member and queue, is the model's (log 113). -/
def Obligations.UpdateWords : Prop :=
  ∀ (tok : Tok) (key tile : BitVec 4) (d a b : Reg) (sc : BitVec 3) (s t : State) (r : Region),
    let c := s.core
    let av := c.rg a
    let bv := c.rg b
    let own := 2 * c.id.toNat + 1
    let changed (y : State) (slot : Nat) (f : Region → Region) : State :=
      { y with regions := y.regions.map fun q => if q.slot = slot then f q else q }
    let em : BitVec 16 := if c.det then c.teamid.setWidth 16 else c.id.setWidth 16
    let sent (who key val : Nat) (y : State) : State :=
      let z := changed { y with core := { y.core with seqctr := y.core.seqctr + 1 } } r.slot fun q => { q with
        transit := q.transit ++ [⟨BitVec.ofNat 32 key, BitVec.ofNat 32 val, em, y.core.seqctr, who⟩] }
      if y.eager then arriveAll r.slot z else z
    let found (base : Nat) : Prop := regionAt s base = some r ∧ r.inside c.id = true ∧ r.closed = false ∧ r.replacing = 0
    -- upd.s
    ((∀ n, c.commit ≠ .updS n) → found av.toNat → bv.toNat / 2 ^ 32 < r.size → s.noneFar (maxScope sc r.scope) →
      Does (tagEmission r (c.who true sc) av) s () t →
      let y := sent own (bv.toNat / 2 ^ 32) (bv.toNat % 2 ^ 32)
        (changed t r.slot (·.hold c true own 0)).handedOver
      exec (.updS a b sc) s = .next (if outstanding r.slot own y then
        { y with core := { y.core with commit := .updS r.slot, stall := 0 } }
        else (changed y r.slot (·.unhold c true)).did 4 { y.core with commit := .none })) ∧
    (∀ n, c.commit = .updS n → exec (.updS a b sc) s = .next (if outstanding n own s then s.waits
      else (changed s n (·.unhold c true)).did 4 { c with commit := .none })) ∧
    -- upd.rgn, of a base that is not declared
    (∀ bs p q k, av.toNat % 64 = 0 → Does (acc (gRead (c.who true sc) av.toNat 64)) s bs t →
      let n := newRegion 1024 (leVec 512 bs) c []
      regionOk n = true → (∀ z ∈ t.regions, z.base ≠ n.base ∧ n.meets z = false) →
      freeSlot t = some k → (t.regions.filter (·.part == c.partid)).length < t.pg c.partid 0x68 2 →
      Does (acc (pinPages (c.who true sc) n.base n.bytes)) t p t →
      Does (acc (pinPages (c.who true sc) n.sbase n.ssize)) t q t →
      let m : Region := { n with pages := p ++ q }
      ((t.regions.filter fun z => z.home == m.home).map Region.slots).sum + m.slots ≤ 16384 → t.noneFar sc →
      ∀ x, Does (acc (tagLine (c.who true sc) true m.sbase (physTag (m.phys m.sbase / 64)))) t () x →
      let z : State := physStore (c.who true sc) (m.phys m.sbase) (leBytes 64 0)
        { x with regions := t.regions ++ [{ m with slot := k }] }
      let fired (d : Core) : Core := { d with watch := d.watch.map fun w =>
        if (m.touchesKeys (64 * w.pline) 64) = true then { w with fired := true } else w }
      let copied (l : Nat) : Bool := m.touchesKeys (64 * l) 64
      let y : State := { z with core := fired z.core, others := z.others.map fired, cache := { z.cache with
        l1 := z.cache.l1.filter fun e => !copied (e.leaf.pa / 64), cluster := z.cache.cluster.filter fun e => !copied e.line } }
      exec (.updRgn a sc) s = .next (y.did 4 y.core)) ∧
    -- upd.flags, upd.drain
    (found av.toNat → r.lost s = true → exec (.updFlags d a sc) s = .next (endContext 0x33 c.pc (wrapN r.base) c.id s)) ∧
    (found av.toNat → r.lost s = false → Does (acc (trigger (c.who true 0) av.toNat (r.phys r.base) 1)) s () t →
      let y := applyRegion r.slot t
      exec (.updFlags d a sc) s = .next (y.wrote 4 d (((y.regions.find? (·.slot == r.slot)).map (·.status)).getD 0))) ∧
    ((∀ n, c.commit ≠ .updDrain n) → av.toNat < 2 ^ 57 → av.toNat / 2 % 32 = 0 → found (av.toNat / 64 * 64) →
      r.lost s = true → exec (.updDrain a sc) s = .next (endContext 0x33 c.pc (wrapN r.base) c.id s)) ∧
    ((∀ n, c.commit ≠ .updDrain n) → av.toNat < 2 ^ 57 → av.toNat / 2 % 32 = 0 → found (av.toNat / 64 * 64) →
      r.lost s = false → (∃ hits, Does (acc (triggered (c.who true sc) r.base (r.phys r.base) 1)) s hits s) →
      s.noneFar (maxScope sc r.scope) →
      let v := if av.getLsbD 0 then changed s r.slot fun q => { q with closed := true } else s
      let x := settlePairs r.slot { v with core := { v.core with commit := .updDrain r.slot } }
      let y := applyRegion r.slot x
      (∀ z, x.regions.find? (·.slot == r.slot) = some z →
        let holding : Prop := ∃ h ∈ z.holds, h.left ≠ 0 ∨ ∃ p ∈ z.transit ++ z.waiting, p.owner = h.owner
        (z.closed = false → z.lost x = false → exec (.updDrain a sc) s = .next (y.did 4 { y.core with commit := .none })) ∧
        (z.closed = true → ¬ holding → z.lost x = false → exec (.updDrain a sc) s =
          .next ({ y with regions := y.regions.filter (·.slot != r.slot) }.did 4 { y.core with commit := .none })) ∧
        (z.closed = true → holding → exec (.updDrain a sc) s =
          .next { x with core := { x.core with stall := x.core.busyMask } }))) ∧
    (c.commit = .updDrain r.slot → (settlePairs r.slot s).regions.find? (·.slot == r.slot) = some r →
      (r.closed = true → ∀ h ∈ r.holds, h.left = 0 ∧ ∀ p ∈ r.transit ++ r.waiting, p.owner ≠ h.owner) → r.lost s = true →
      exec (.updDrain a sc) s = .next (endContext 0x33 c.pc (wrapN r.base) c.id s)) ∧
    -- upd, in its queue
    (let i := Instr.upd tok key tile a sc
     let e := s.entry i
     let k := c.tile key
     let v := c.tile tile
     let n := shRows e.shA * shCols e.shA
     let ps := (List.range n).map fun j => (((k.ints n).getD j 0).toNat, v.el (fmtBits v.fmt) j)
     let after (m : Nat) : State := (ps.take m).foldl (fun y p => sent (2 * e.num) p.1 p.2 y)
       (changed (s.begun i) r.slot (·.hold c false (2 * e.num) n))
     s.canRun i → c.det = false → found av.toNat → shRows e.shA ≠ 0 → shRows e.shT ≠ 0 → k.indexOk = true → v.fmt = r.fmt →
      v.sp = false → shRows e.shA = shRows e.shT → shCols e.shA = shCols e.shT →
      (∀ z ∈ k.ints n, 0 ≤ z ∧ z < r.size) → (s.begun i).noneFar (maxScope sc r.scope) →
      ((∀ m, m ≤ n → outstanding r.slot (2 * e.num) (after m) = false) →
        s.completes i (changed (after n) r.slot (·.unhold c false)) ⟨[], [], [], 0⟩) ∧
      (∀ m, 0 < m → m ≤ n → outstanding r.slot (2 * e.num) (after m) = true →
        (∀ j, j < m → outstanding r.slot (2 * e.num) (after j) = false) →
        let left : Entry := { e with started := true, progress := m, read := e.reads (s.begun i).core }
        let rest := changed (after m) r.slot (·.holdLeft c false (2 * e.num) (n - m))
        exec i s = .next { rest with core := rest.core.setHead (queueOf i) left }))

/-! ## The steps of other agents -/

namespace Sys2Proof.Machine

/-- What a save of the context of a core with a reason comes to (R155, R315, R320, R323): the members stop at their word
boundaries with what is on its way of an emission withdrawn; their images go to the first free areas of the save region, the
cores are free and the context is kept; one that cannot be written ends the context with 0x3C instead. -/
def State.savesTo (s : State) (reason : BitVec 7) (id : BitVec 11) (t : State) : Prop :=
  let m := s.findCore id
  let all := savedWith m s
  let out := all.foldl (fun (x : List Core × State) k => (x.1 ++ [(withdraw k x.2).1.boundary.settleHeads], (withdraw k x.2).2))
    ([], logEvent reason.toNat false m.partid m.pc.toNat m.id.toNat s)
  let ms : List SavedMember := (out.1.zip (saveSlots s m.partid out.1.length)).map fun x => ⟨x.1, wrapN x.2⟩
  (writeImages reason.toNat ms out.2 = none → t = endTask 0x3C (wrapI (-1)) 0 m out.2) ∧
  ∀ y, writeImages reason.toNat ms out.2 = some y →
    t.saved = y.saved ++ [⟨m.partid, reason, m.record, m.origin, m.inst, m.ctx, ms, false, false⟩] ∧ SameMemory y t ∧
    (∀ x ∈ t.selected, recPart x.record = m.partid.toNat → x.cluster = none) ∧
    ∀ k ∈ all, (t.findCore k.id).ctx = 0 ∧ (t.findCore k.id).quiet = true

end Sys2Proof.Machine

/-- The steps of the queues, the firmware and the scheduler on tasks (R15, R50, R85, R143, R146-R151, R195, R197, R314, R317, R320,
R323, R330, R337, R394). A trap of a queue head enters the handler once no earlier entry is left, its own queue entry and
all later ones held. A pre-emption stops the queue heads after the units that it names, withdraws what is on its way of an
emission, and writes the images to the first free areas of the save region; it ends the context where one cannot be written.
The cores and dies that a record takes are the model's choice where the rules leave it (log 16), and so is which free area an
image takes (log 15); the pre-emption's units are the event's (log 18). The phase that a commit takes is the least over the
heads, which is above the current one (log 35). -/
def Obligations.TaskEvents : Prop :=
  ∀ (q : BitVec 2) (id : BitVec 11) (p : BitVec 5) (ix : Nat) (reason cause : BitVec 7)
    (units : List (BitVec 11 × BitVec 2 × Nat)) (tval : Dword) (w : Word) (s : State),
    let c := s.core
    let d := s.findCore id
    let ones : Dword := wrapI (-1)
    -- QUEUE_TRAP, TOKEN_DEADLOCK, TOKEN_SEND_RELEASE
    (∀ e, q ≠ 0 → s.startable q.toNat = some e → c.qtrap = none → c.injArray = false → e.waited = true →
      (∀ k ∈ [1, 2, 3], ∀ y ∈ c.queue k, e.num ≤ y.num) → c.commit = .none →
      (∀ x v, perform e s = .error (.trap x v) → exec (.queueTrap q) s = .next (enterTrap x e.addr v { s with core :=
        { c with held := some ⟨c.pc, q.toNat, e.num, []⟩, asleep := false, deadline := 0, timedOut := false,
                 woken := false, objWaits := c.objWaits.filter (fun o => o.agent ≠ 0 ∧ o.agent ≠ q.toNat), stall := 0 } })) ∧
      (∀ f t, perform e s = .ok (.done f, t) → exec (.queueTrap q) s = .next s)) ∧
    (∀ e n, (c.queue q.toNat).head? = some e → c.deadlocked q.toNat = some n → c.stall / 2 ^ q.toNat % 2 = 1 → c.qtrap = none →
      exec (.tokenDeadlock q) s = .next (noteQueueTrap q.toNat e 0x18 (wrapN n) s)) ∧
    (∀ e f, (c.queue q.toNat).head? = some e → e.flight = some f → exec (.tokenSendRelease q) s =
      .next (if sendOk c q.toNat e.tok = true ∧ s.queueFar q.toNat = false then { s with core := c.complete q.toNat e f } else s)) ∧
    -- UNASSIGNED_ENCODING, FATAL_CONTEXT_ERROR
    (decodeWord w 0 = none → isExtended w = false →
      exec (.unassignedEncoding w 0) s = .next (enterTrap 0x01 c.pc (w.setWidth 64) s)) ∧
    (0x30 ≤ cause.toNat → cause.toNat ≤ 0x3F → c.ctx ≠ 0 → exec (.fatalContextError cause tval) s =
      .next (refreshBacklog (endContext cause.toNat ones tval c.id s))) ∧
    -- PREEMPTION, RUN_SLICE_EXPIRY, WATCHDOG_EXPIRY, HOST_ABORT: of a bound task
    (d.ctx ≠ 0 →
      (let cut := stopHeads d.ctx units s
       (reason = 0x40 ∨ reason = 0x43) → (cut.findCore id).ctx ≠ 0 →
        ∃ t, exec (.preemption id ⟨reason, units⟩) s = .next t ∧ (units = [] → cut = s) ∧ cut.savesTo reason id t) ∧
      (s.pg d.partid 0xE0 4 ≠ 0 → (∃ n, n < 256 ∧ (s.cq n).backlogged = true ∧ s.cqOwner n = some d.partid) →
        ∃ t, exec (.runSliceExpiry id) s = .next t ∧ s.savesTo 0x40 id t) ∧
      (s.pg d.partid 0x14 4 ≠ 0 → exec (.watchdogExpiry id) s = .next (endTask 0x38 ones 0 d s)) ∧
      (s.pg d.partid 0x14 4 = 0 → exec (.watchdogExpiry id) s = .next s) ∧
      exec (.hostAbort id) s = .next (endTask 0x3A ones 0 d s)) ∧
    -- CONTEXT_RESUME
    (∀ v ids, s.saved[ix]? = some v → v.yielded = false → resumeCores v id s = some ids →
      let u : State := { s with saved := s.saved.filter fun x => !(x.ctx == v.ctx && x.inst == v.inst) }
      (∀ t, restoreAll v v.members ids u = some t →
        exec (.contextResume id ix) s = .next (ids.foldl (fun t k => logCore 0x4E (t.findCore k) t) t)) ∧
      (∀ m l, restoreAll v v.members ids u = none → v.members = m :: l →
        exec (.contextResume id ix) s = .next (endTask 0x3F ones 0 m.core s))) ∧
    -- SCHEDULER_SELECT, TASK_START
    (∀ n r, selectQueue s = some n → s.cqOwner n = some p → s.yieldedFor n p = none → headError s n p = none →
      headRecord s n = some r → ∃ t, exec .schedulerSelect s = .next t ∧
        t.selected = s.selected ++
          [⟨r, BitVec.ofNat 8 n, none, [], 0, recKind r == 1 && (coresFor s ⟨r, BitVec.ofNat 8 n, none, [], 0, false⟩).isNone⟩] ∧ (t.cq n).head = (s.cq n).head + 1 ∧
        (∀ k, k < 256 → k ≠ n → (t.cq k).head = (s.cq k).head) ∧ SameMemory s t) ∧
    (∀ x, s.selected[ix]? = some x → recKind x.record ≠ 2 →
      (coresFor s x = none → exec (.taskStart ix) s = .next (holdTeam ix x s)) ∧
      (∀ ids, coresFor s x = some ids → exec (.taskStart ix) s = .next (refreshBacklog (bindAll x.record x.queue ids
        { s with selected := s.selected.eraseIdx ix })))) ∧
    (∀ x, s.selected[ix]? = some x → recKind x.record = 2 →
      let free (k : Nat) : List (BitVec 11) := s.freeIn x.part (2 * k) ++ s.freeIn x.part (2 * k + 1)
      let dies := chooseDies s x
      let chosen : Selected := { x with insts := dies, ctx := s.nextCtx }
      (x.ctx = 0 → s.nextCtx ≠ 0 → exec (.taskStart ix) s =
        exec (.taskStart ix) (newCtx x.record (recSize x.record) { s with selected := s.selected.set ix chosen })) ∧
      (∀ (j : Nat) (i : Nat × Nat), dies[j]? = some i → i.1 = j ∧ i.2 < 8 ∧ (s.cq x.queue.toNat).allowed i.2 = true) ∧
      (dies.map (·.2)).Pairwise (· < ·) ∧
      (∀ l i r core, x.ctx ≠ 0 → x.insts = l ++ i :: r → (∀ k ∈ l, free k.2 = []) → (free i.2).head? = some core →
        let rest : List Selected := if l ++ r = [] then s.selected.eraseIdx ix else s.selected.set ix { x with insts := l ++ r }
        exec (.taskStart ix) s = .next (refreshBacklog (bindCore core ⟨x.record, x.queue, x.ctx, 0, 1, i.1⟩
          { s with selected := rest })))) ∧
    (∀ b : Binding, let k := d.started b
      k.act = .running ∧ k.pc = b.record.setWidth 64 ∧ k.rg 1 = b.record.extractLsb' 64 64 ∧
      (∀ r : Reg, r ≠ 1 → k.rg r = 0) ∧ k.quiet = true ∧ k.held = none ∧ k.tkcnt = 0 ∧ k.hm = false ∧ k.phm = false ∧
      k.fflg = 0 ∧ k.iterlim = 24 ∧ k.pins = [] ∧ k.watch = none ∧ k.det = b.record.getLsbD 207 ∧
      k.latchId = 0 ∧ k.latchCh = 0 ∧ k.teamsz = BitVec.ofNat 7 b.teamsz ∧ k.teamid = BitVec.ofNat 7 b.teamid ∧ k.bankmode = d.bankmode) ∧
    -- HELD_JOIN_DECREMENT, PHASE_COMMIT, PHASE_ABANDON
    (∀ x, s.joins[ix]? = some x → x.deferred = false →
      let r := tryJoin x s
      exec (.heldJoinDecrement ix) s = .next (if r.2 then { r.1 with joins := r.1.joins.eraseIdx ix } else r.1)) ∧
    (canCommit s p = false → exec (.phaseCommit p) s = .next s) ∧
    (∀ n, canCommit s p = true → (∀ x ∈ s.joins, ¬ (x.deferred = true ∧ x.part = p)) → (headPhases s p).min? = some n →
      ∃ t, exec (.phaseCommit p) s = .next t ∧ (t.part p).phase = BitVec.ofNat 32 n ∧ SameMemory s t ∧ t.joins = s.joins ∧
        t.tags = s.tags.filter (fun x => x.2.part != p)) ∧
    (exec (.phaseAbandon p) s =
      .next { s with ctxs := s.ctxs.filter fun x => !(x.ended && recPart x.record == p.toNat) }) ∧
    -- MON_WAIT_TIMEOUT, PM_IDLE_TIMEOUT
    (d.asleep = true → d.commit ≠ .idle → exec (.monWaitTimeout id) s = .next (s.putCore { d with timedOut := true })) ∧
    (d.asleep = true → d.commit = .idle → exec (.pmIdleTimeout id) s = .next (s.putCore { d with timedOut := true }))

/-- Errors of the hardware and the firmware's steps (R105, R320, R321, R323, R340-R344, R346, R391, R404). An array error
discards the accumulators written since the marker and executes the entries of the window again that have performed, an entry of SQ
on what it read, but for those whose effect counts (log 98; what `ld.ff` gave is put back), or ends the context; the thermal stop is logged as one event of the device and saves every running context
(log 51); a repaired mismatch changes its counter and the log alone (log 32). A partition reset ends the partition's tasks, each
with its error record, and leaves its memory as it is; it drops the selected records and keeps the held joins (log 52). -/
def Obligations.ReliabilityEvents : Prop :=
  ∀ (id : BitVec 11) (die : BitVec 3) (p : BitVec 5) (space : BitVec 2) (pa : BitVec 52) (s : State),
    let d := s.findCore id
    let k := die.toNat
    let l := pa.toNat / 64
    let cp := vget s.cps k CmdProc.reset
    -- CLAPPER_MISMATCH, MATRIX_REPLAY on the current core; CORE_RETURN_TO_SERVICE
    (s.core.id = id → coreOf id < 96 → d.ctx ≠ 0 →
      exec (.clapperMismatch id false) s = .next (logCore 0x44 d { s with core := d.count 6 }) ∧
      (d.replayable = true →
        let start := logCore 0x45 d { s with core := (d.count 7).discard }
        (d.replayed = [] → exec (.matrixReplay id) s = .next start) ∧
        (∀ e m n r f u, d.replayed = .run e m n :: r →
          perform e { start with core := { start.core with srS := m, srN := n } } = .ok (.done f, u) → exec (.matrixReplay id) s =
          .next (replayFrom r { u with core :=
            { f.apply u.core with fflg := u.core.fflg, srS := start.core.srS, srN := start.core.srN } })) ∧
        (∀ f r, d.replayed = .put f :: r → exec (.matrixReplay id) s =
          .next (replayFrom r { start with core := { f.apply start.core with fflg := start.core.fflg } })) ∧
        (d.replayBase = none → ∀ a : BitVec 2, start.core.acc a = if d.dirtyAcc.getLsbD a.toNat then Acc.zero else d.acc a) ∧
        let again (x : Performed) (y : Entry) : Entry :=
          if queueOf y.instr = 3 then { y with started := true, read := x.read } else y
        (∀ e m n, .run e m n ∈ d.replayed → ∃ x ∈ d.performed, ∃ y ∈ d.replayWindow, x.num = y.num ∧ counted y.instr = false ∧
          m = x.srS ∧ n = x.srN ∧ e = again x y) ∧
        (∀ f, .put f ∈ d.replayed → ∃ x ∈ d.performed, ∃ y ∈ d.replayWindow, x.num = y.num ∧ f = x.wrote ∧
          ∃ a b c, y.instr = .ldFf a b c) ∧
        ∀ x ∈ d.performed, ∀ y, d.replayWindow.find? (·.num == x.num) = some y → counted y.instr = false →
          (∀ q ∈ [1, 2, 3], ∀ z ∈ d.queue q, z.num = x.num → z.flight = none ∨ z.progress ≠ 0) →
          .run (again x y) x.srS x.srN ∈ d.replayed ∨ (.put x.wrote ∈ d.replayed ∧ ∃ a b c, y.instr = .ldFf a b c)) ∧
      (d.replayable = false → exec (.matrixReplay id) s =
        .next (endContext 0x36 ((d.mq.head?.map (·.addr)).getD d.pc) 0 id s))) ∧
    (coreOf id < 96 → ∃ t, exec (.clapperMismatch id true) s = .next t ∧ (t.findCore id).act = .fenced) ∧
    (d.act = .fenced → exec (.coreReturnToService id) s = .next (s.putCore { d with act := .idle })) ∧
    -- MEMORY_ECC_ERROR
    (exec (.memoryEccError 0 pa true) s = .next { s with poison := if l ∈ s.poison then s.poison else s.poison ++ [l] } ∧
      exec (.memoryEccError 1 pa true) s =
        .next { s with bankPoison := if l ∈ s.bankPoison then s.bankPoison else s.bankPoison ++ [l] } ∧
      exec (.memoryEccError 2 pa true) s =
        .next { s with codePoison := if l ∈ s.codePoison then s.codePoison else s.codePoison ++ [l] } ∧
      (space ≠ 1 → exec (.memoryEccError space pa false) s = .next s) ∧
      (pa.toNat / 0x180000 < 2048 → exec (.memoryEccError 1 pa false) s =
        .next (s.putCore ((s.findCore (BitVec.ofNat 11 (pa.toNat / 0x180000))).count 8)))) ∧
    -- CP_LOCKSTEP_MISMATCH, CP_RESTART_COMPLETE
    (let last (l : List Nat) : Nat := (l.filter fun x => decide (s.now / 1000 ≤ x + 1000000)).length
     ∃ t, exec (.cpLockstepMismatch die) s = .next t ∧ (vget t.cps k CmdProc.reset).frozen = true ∧
      (vget t.cps k CmdProc.reset).stuck = (cp.stuck || decide (3 ≤ last (cp.restarts ++ [s.now / 1000]))) ∧
      t.dintstat.getLsbD 0 = true ∧ (∀ x ∈ t.selected, ∀ n, x.cluster = some n → n / 2 ≠ k) ∧ SameMemory s t ∧ t.core = s.core) ∧
    (cp.frozen = true → ∃ t, exec (.cpRestartComplete die) s = .next t ∧
      (vget t.cps k CmdProc.reset).frozen = cp.stuck ∧
      (∃ r, t.basoc = s.basoc ++ .restart die :: r) ∧ SameMemory s t) ∧
    -- THROTTLE_STEP_DOWN, THROTTLE_STEP_UP, THERMAL_STOP, THERMAL_RESUME
    (exec .throttleStepDown s = .next { s with clockStep := min 14 (s.clockStep + 1) } ∧
      exec .throttleStepUp s = .next { s with clockStep := s.clockStep - 1 } ∧
      exec .thermalResume s = .next { s with thermal := false } ∧
      ∃ t, exec .thermalStop s = .next t ∧ t.thermal = true ∧ t.dintstat.getLsbD 1 = true ∧
        (∀ x ∈ s.cores, (t.findCore x.id).ctx = 0) ∧
        ((∀ x ∈ s.others, x.ctx = 0) →
          (s.core.ctx = 0 → t.cores = s.cores ∧ t.saved = s.saved ∧ SameMemory s t) ∧
          (s.core.ctx ≠ 0 → ∃ u, (logEvent 0x49 true 0 0 0 { s with thermal := true }).savesTo 0x49 s.core.id u ∧
            t = raiseDint 1 u))) ∧
    -- PARTITION_RESET
    (∃ t, exec (.partitionReset p) s = .next t ∧
      (∀ q, q < 256 → s.cqOwner q = some p → (t.cq q).en = false ∧ (t.cq q).head = (s.cq q).tail) ∧
      (∀ x ∈ s.cores, x.ctx ≠ 0 → x.partid = p → (t.findCore x.id).ctx = 0) ∧
      (∀ v ∈ t.saved, v ∈ s.saved) ∧ (∀ v ∈ s.saved, v.part = p → (∃ m ∈ v.members, m.core.ctx = v.ctx) → v ∉ t.saved) ∧
      (∀ r ∈ t.regions, r.part ≠ p) ∧ (t.part p).degraded = 0 ∧ (∀ x ∈ t.selected, recPart x.record ≠ p.toNat) ∧
      (∀ n, n < 1024 → (vget s.rings n HwRing.reset).part = p → (vget t.rings n HwRing.reset).en = false) ∧
      (∀ n, n < 128 → (vget s.retain n Retain.reset).part = p → vget t.retain n Retain.reset = Retain.reset) ∧
      t.joins = s.joins ∧
      (let idle (x : Core) : Prop := ¬ (x.ctx ≠ 0 ∧ x.partid = p)
       (∀ x ∈ s.others, idle x) → (∀ v ∈ s.saved, v.part ≠ p) →
        (idle s.core → SameMemory s t ∧ (t.part p).page = (s.part p).page ∧
          ∀ n, n < 512 → s.pg p (0x70 + 8 * (n / 64)) 8 / 2 ^ (n % 64) % 2 = 1 → t.chan n = (s.chan n).abort) ∧
        (¬ idle s.core →
          let u := endTask 0x39 (wrapI (-1)) 0 s.core (logEvent 0x48 false p 0 0 s)
          SameMemory u t ∧ (t.part p).page = (u.part p).page)))

namespace Sys2Proof.Machine

/-- `n` bytes at a virtual address lie in one granule that a partition's table maps, with a permission, to `pa` in the device's own
memory, and no line of them is poisoned (R297, R299). -/
def State.mapped (s : State) (part : BitVec 5) (p : Perm) (va n pa : Nat) : Prop :=
  0 < n ∧ va + n ≤ 2 ^ 57 ∧ (va + n - 1) / 16384 = va / 16384 ∧
  (∃ l, s.walk part va = some l ∧ l.grants p = true ∧ l.pa = pa) ∧ (isHbm pa = true ∨ isLp6 pa = true) ∧
  s.poolLost pa = false ∧ ∀ l ∈ linesOf pa n, l ∉ s.poison

/-- The record at an address, claimed by a chain, with the bytes that the claim has read (R176). -/
def CopyRun.claimed' (q : CopyRun) (c : Chain) (a : Dword) (d : Nat) : Prop :=
  q.chain = c ∧ q.recAddr = a ∧ q.snap.toNat = d ∧ q.pos = 0 ∧ q.degraded = false ∧ q.stage = 0 ∧ q.owed = 0 ∧
  q.posting = false ∧ q.outcome = if recordBad q.snap = true then some 8 else none

/-- A field of a record: its byte offset and its bytes (R171). -/
def CopyRun.field (r : CopyRun) (o n : Nat) : Nat := r.snap.toNat / 2 ^ (8 * o) % 2 ^ (8 * n)

end Sys2Proof.Machine

/-- The steps of the engines of a die and a cluster (R128, R130, R171-R177, R188, R204-R206, R242, R352, R357, R360-R362, R365, R372,
R380-R384). What an engine tells - a status, a result, an event - it tells once every access of the command before it is
performed at its scope (R242). A claim reads the record and sets own; a piece moves the bytes that its kind names, of a row of
at most 4,096; a retirement writes code and done, and cpdone follows the last record. The text engines read the vocabulary and
the source as they stand at the completion (log 64); the prefetcher fills its rows in one turn and passes over what it cannot
read (log 112). An engine waits to acquire a version while the slot holds another one (log 65), and a loader
that finds no translation of its record posts the event of a failed copy (log 103). -/
def Obligations.EngineEvents : Prop :=
  ∀ (die e : BitVec 3) (ch : BitVec 6) (cl : BitVec 4) (ix slot : Nat) (dtk : Bool) (s : State),
    let k := chanIx die.toNat ch.toNat
    let x := s.chan k
    let start : Instr := if dtk then .detokeniserStart e else .tokeniserStart e
    let complete : Instr := if dtk then .detokeniserComplete e else .tokeniserComplete e
    -- COPY_CLAIM, COPY_PIECE, COPY_RETIRE
    (∀ c r, x.run = none → x.queue = c :: r →
      (∀ run t, claimRecord c c.head s = some (run, t) →
        exec (.copyClaim die ch) s = .next (t.modChan k fun y => { y with queue := r, run := some run })) ∧
      (claimRecord c c.head s = none →
        exec (.copyClaim die ch) s = .next (s.modChan k fun y => { y with queue := r, cpdone := c.ident }))) ∧
    (∀ r, x.run = some r → r.posting = false → r.owed = 0 →
      (r.outcome = none → r.stage = 0 → r.pos < r.total → exec (.copyPiece die ch) s =
        .next ((doPiece r s).2.modChan k fun y => { y with run := some (doPiece r s).1 })) ∧
      (r.outcome ≠ none ∨ r.stage ≠ 0 ∨ r.total ≤ r.pos →
        (s.engineFar r.chain.unit r.chain.scope = false →
          exec (.copyRetire die ch) s = .next (retire' die.toNat ch.toNat r s)) ∧
        (s.engineFar r.chain.unit r.chain.scope = true → exec (.copyRetire die ch) s = .next s))) ∧
    (∀ r, x.run = some r → r.owed ≠ 0 →
      (s.engineFar r.chain.unit r.chain.scope = true → exec (.copyPiece die ch) s = .next s) ∧
      (s.engineFar r.chain.unit r.chain.scope = false → exec (.copyPiece die ch) s = .next
        ((signalOwed r s).2.modChan k fun y => { y with run := some (signalOwed r s).1 }))) ∧
    -- a claim over plain memory: the snapshot, own
    (∀ c r, x.run = none → x.queue = c :: r → c.det = false → s.regions = [] →
      let va := c.head.toNat
      (2 ^ 57 < va + 64 ∨ (va % 64 = 0 ∧ ∀ l, s.walk c.part va = some l → l.grants .w = false) →
        exec (.copyClaim die ch) s = .next (s.modChan k fun y => { y with queue := r, cpdone := c.ident })) ∧
      (∀ pa, s.mapped c.part .r va 64 pa → s.mapped c.part .w va 64 pa →
        let d := leValue (memRead s.mem pa 64)
        ∃ t q, exec (.copyClaim die ch) s = .next t ∧ (t.chan k).queue = r ∧ (t.chan k).run = some q ∧ q.last = c.ident ∧
          q.claimed' c c.head d ∧ t.mem = memWrite s.mem (pa + 8) (leBytes 4 (d / 2 ^ 64 % 2 ^ 31 + 2 ^ 31)) ∧ t.bank = s.bank)) ∧
    -- a piece from plain memory: the bytes that each kind moves, to memory or to banks, and the barriers that it signals
    (∀ r v pi ps, MemoryOk s → x.run = some r → r.posting = false → r.owed = 0 → r.stage = 0 → r.outcome = none → r.pos < r.total →
      r.chain.det = false → r.revoked = [] → s.regions = [] → s.engineFar r.chain.unit r.chain.scope = false →
      let f := r.field
      let kind := f 8 1 % 16
      let len := f 12 4
      let row := r.pos / len
      let off := r.pos % len
      let n := min 4096 (len - off)
      let part := r.chain.part
      let stride (o : Nat) : Int := (BitVec.ofNat 32 (f o 4)).toInt
      let wrap (a : Int) : Nat := (wrapI a).toNat
      let iw := if f 9 1 % 4 = 1 then 8 else 4
      let src := (if kind = 1 then wrap (f 16 8 + row * stride 48) else if kind = 2 then wrap (f 16 8 + v * f 44 4) else f 16 8) + off
      let dst := (if kind = 1 then wrap (f 24 8 + row * stride 52) else if kind = 2 then wrap (f 24 8 + row * len) else f 24 8) + off
      let cores : List Nat := (List.range 96).filter fun c => f 32 12 / 2 ^ c % 2 = 1
      let outs : List Nat := if kind = 3 then cores.map fun c => c * 2 ^ 21 + f 24 4 + off else [dst]
      let bars : List Nat := if kind = 3 then cores.map fun c => c * 2 ^ 21 + f 28 4 else if f 8 1 / 64 % 2 = 1 then [f 32 4] else []
      let local' : Prop := kind = 3 ∨ f 8 1 / 16 % 2 = 1
      let did (t : State) (q : CopyRun) : Prop := exec (.copyPiece die ch) s = .next t ∧ (t.chan k).run = some q ∧ q.pos = r.pos + n ∧
        q.outcome = none ∧ q.owed = 0 ∧ q.degraded = r.degraded
      kind ≤ 3 → (kind = 3 ∨ f 8 1 / 32 % 2 = 0) → s.mapped part .r src n ps →
      (kind = 2 → (off = 0 → s.mapped part .r (f 48 8 + row * iw) iw pi ∧ leValue (memRead s.mem pi iw) = v) ∧
        (off ≠ 0 → v = r.rowIx)) →
      (∀ pd, ¬ local' → bars = [] → s.mapped part .w dst n pd → (∀ y ∈ r.sources s, dst + n ≤ y ∨ y + len ≤ dst) →
        ∃ t q, did t q ∧ t.mem = memWrite s.mem pd (memRead s.mem ps n) ∧ t.bank = s.bank) ∧
      (∀ g : Nat → Nat, local' → (∀ a ∈ outs, localOk s r.chain.who a n = some (g a)) →
        (∀ b ∈ bars, b % 16 = 0 ∧ localOk s r.chain.who b 16 = some (g b)) →
        ((outs.map fun a => (g a, n)) ++ bars.map fun b => (g b, 16)).Pairwise (fun (a b : Nat × Nat) => a.1 + a.2 ≤ b.1 ∨ b.1 + b.2 ≤ a.1) →
        ∃ t q, did t q ∧ t.mem = s.mem ∧
          (∀ a ∈ outs, ∀ i, i < n → memByte t.bank (g a + i) = memByte s.mem (ps + i)) ∧
          (∀ b ∈ bars, ∀ ph rng rsv arr pend (d1 : Dword),
            memRead s.bank (g b) 8 = leBytes 8 (barWord ph rng rsv arr pend).toNat →
            memRead s.bank (g b + 8) 8 = leBytes 8 d1.toNat →
            let left : Int := pend.toInt - n
            memRead t.bank (g b) 8 = leBytes 8 (if left < -2 ^ 35 then barWord ph true rsv arr pend
              else if arr.toNat = d1.toNat % 4096 ∧ left = 0 then barWord (!ph) rng rsv 0 0
              else barWord ph rng rsv arr (BitVec.ofInt 36 left)).toNat) ∧
          (∀ y, (∀ a ∈ outs, y < g a ∨ g a + n ≤ y) → (∀ b ∈ bars, y < g b ∨ g b + 16 ≤ y) →
            memByte t.bank y = memByte s.bank y))) ∧
    -- a retirement with the record in plain memory: the status word, cpdone, the event, the successor
    (∀ r pr, x.run = some r → r.posting = false → r.owed = 0 → r.stage = 0 → r.outcome ≠ none ∨ r.total ≤ r.pos → r.chain.det = false →
      let code := r.outcome.getD (if r.degraded then 2 else 1)
      let z := if code ∈ [3, 4, 5, 6, 7, 9] then tornFrom (r.total + 1) r s else s
      s.engineFar r.chain.unit r.chain.scope = false → z.engineFar r.chain.unit r.chain.scope = false → z.regions = [] →
      z.mapped r.chain.part .w r.recAddr.toNat 64 pr →
      let next := r.field 0 8
      let evq : Prop := r.field 8 1 % 16 ≠ 3 ∧ r.field 11 1 / 64 % 2 = 1
      let status (c : Nat) (m : List Host.Cell) : List Host.Cell := memWrite m (pr + 56) (leBytes 8 (c * 2 ^ 56 + r.pos % 2 ^ 32))
      let ends (c : Nat) (p : State → Prop) : Prop := ∃ t, exec (.copyRetire die ch) s = .next t ∧ t.mem = status c z.mem ∧
        t.bank = z.bank ∧ (t.chan k).run = none ∧ (t.chan k).cpdone = r.last ∧ p t
      let untranslated : Prop := 2 ^ 57 < next + 64 ∨ (next % 64 = 0 ∧ ∀ l, z.walk r.chain.part next = some l → l.grants .w = false)
      (¬ evq → next = 0 ∨ (code ≠ 1 ∧ code ≠ 2) → ends code fun _ => True) ∧
      (¬ evq → next ≠ 0 → code ∈ [1, 2] → untranslated → ends 10 fun _ => True) ∧
      (evq → next = 0 ∨ (code ≠ 1 ∧ code ≠ 2) → z.posts = [] →
        let cl := clusterOf r.chain.core
        0 < evQuota z r.chain.part cl → evRoom z r.chain.part cl = true → ends code fun t => t.eventsOf cl = z.eventsOf cl ++
          [⟨r.chain.part, wrapN (code * 2 ^ 60 + 2 ^ 57 + r.recAddr.toNat / 64 % 2 ^ 51 * 64 + ch.toNat),
            wrapN (r.chain.ident.toNat * 2 ^ 32 + r.pos % 2 ^ 32)⟩]) ∧
      (∀ pn, ¬ evq → next ≠ 0 → code ∈ [1, 2] → r.aborted = false → z.mapped r.chain.part .r next 64 pn →
        z.mapped r.chain.part .w next 64 pn → (pr + 64 ≤ pn ∨ pn + 64 ≤ pr) →
        let d := leValue (memRead z.mem pn 64)
        ∃ t q, exec (.copyRetire die ch) s = .next t ∧ (t.chan k).run = some q ∧ q.last = r.last ∧ q.claimed' r.chain (wrapN next) d ∧
          t.mem = status code (memWrite z.mem (pn + 8) (leBytes 4 (d / 2 ^ 64 % 2 ^ 31 + 2 ^ 31))) ∧ t.bank = z.bank)) ∧
    (∀ r, x.run = some r → r.succ = none →
      finishRecord k s = s.modChan k fun y => { y with run := none, cpdone := r.last }) ∧
    -- ENGINE_EVENT_POST of an engine that is not a copy channel
    (∀ p, s.posts[ix]? = some p → p.copy = none →
      (∀ y ∈ s.posts.take ix, ¬ (y.cluster = p.cluster ∧ y.ev.part = p.ev.part)) → evQuota s p.ev.part p.cluster ≠ 0 →
      exec (.engineEventPost ix) s = .next (if evRoom s p.ev.part p.cluster then
        postEvent p.cluster p.ev { s with posts := s.posts.eraseIdx ix } else s)) ∧
    -- TUMBLER_PAIR_ARRIVAL, TUMBLER_APPLICATION
    (∀ r p, s.regions.find? (·.slot == slot) = some r → r.transit[ix]? = some p → r.lost s = true →
      ∃ t, exec (.tumblerPairArrival slot ix) s = .next t ∧ t = { s with regions := t.regions } ∧
        ∃ z, t.regions.find? (·.slot == slot) = some z ∧ z = { r with transit := r.transit.eraseIdx ix }) ∧
    (∀ r p, s.regions.find? (·.slot == slot) = some r → r.transit[ix]? = some p → r.lost s = false →
      (r.held.filter fun y => r.bin y.key.toNat == r.bin p.key.toNat).length < r.quota →
      ∃ t, exec (.tumblerPairArrival slot ix) s = .next t ∧ SameMemory s t ∧
        ∃ z, t.regions.find? (·.slot == slot) = some z ∧ z.held = r.held ++ [p] ∧ z.transit = r.transit.eraseIdx ix ∧
          z.waiting = r.waiting ∧ z.status = r.status) ∧
    (applicationWanted slot s = false → exec (.tumblerApplication slot) s = .next s) ∧
    (∀ r, MemoryOk s → applicationWanted slot s = true → s.regions.find? (·.slot == slot) = some r → regionOk r = true →
      r.waiting.length ≤ r.quota → r.lost s = false →
      let ps := r.held ++ r.runs.flatten
      let at' (n : Nat) : Nat := r.phys (r.base + n * r.ebytes)
      let near (a : Nat) : Prop := isPeer a = false ∧ isHost a = false
      ps ≠ [] → near (r.phys r.sbase) → (∀ y ∈ ps, near (at' y.key.toNat)) →
      ∃ t z, exec (.tumblerApplication slot) s = .next t ∧ t.regions.find? (·.slot == slot) = some z ∧ z.held = r.waiting ∧
        z.runs = [] ∧ z.waiting = [] ∧ z.transit = r.transit ∧
        fld z.status 16 32 = (fld r.status 16 32 + ps.length) % 2 ^ 32 ∧
        (∀ a, (∀ y ∈ ps, a < at' y.key.toNat ∨ at' y.key.toNat + r.ebytes ≤ a) → (a < r.phys r.sbase ∨ r.phys r.sbase + 8 ≤ a) →
          memByte t.mem a = memByte s.mem a) ∧
        (∀ y, ps = [y] → at' y.key.toNat / 64 ∉ s.poison →
          overlaps (at' y.key.toNat) r.ebytes (r.phys r.sbase) 8 = false →
          leNat (memRead t.mem (at' y.key.toNat) r.ebytes) =
            (reduce r.op r.fmt (leNat (memRead s.mem (at' y.key.toNat) r.ebytes)) y.val.toNat).1 % 2 ^ (8 * r.ebytes))) ∧
    -- SAMPLER_COARSE_PASS, SAMPLER_THRESHOLD_SEARCH, SAMPLER_DRAW_EXECUTION
    (∀ c l, vget s.sampler cl.toNat [] = c :: l → waitingPost 4 0 (· == cl.toNat) s = false →
      let d := samplingOf c.snap
      let far (y : State) : Bool := y.engineFar c.unit c.scope
      let head (f : List Command → List Command) (y : State) : State := { y with sampler := vmod y.sampler cl.toNat f }
      let ends (y : State) (trap : Bool) (v : Dword) : State :=
        if far y then head (fun q => { c with stage := 1, snap2 := (BitVec.ofBool trap ++ v).setWidth 512 } :: q.drop 1) y
        else tellCore c trap v (head (·.drop 1) y)
      (∀ t slow, c.op = 0 → c.stage % 2 = 0 → c.b.getLsbD 0 = false → coarseRow d c.who (c.stage / 2) s = some (t, slow) →
        let did (n : Nat) : Command := { c with stage := c.stage + n, snap2 := (BitVec.ofBool slow).setWidth 512 }
        exec (.samplerCoarsePass cl) s = .next (if far t then head (fun q => did 1 :: q.drop 1) t
          else head (fun q => if c.stage / 2 + 1 < d.rows then did 2 :: q.drop 1 else q.drop 1) t)) ∧
      (c.op = 0 → c.stage % 2 = 1 →
        (far s = true → exec (.samplerCoarsePass cl) s = .next s) ∧
        (far s = false →
          let row := c.stage / 2
          let y := head (fun q => if row + 1 < d.rows then { c with stage := c.stage + 1 } :: q.drop 1 else q.drop 1) s
          exec (.samplerCoarsePass cl) s = .next (if c.b.getLsbD 0 then
            enginePost (clusterOf c.core) (type4 c.part (if c.snap2.getLsbD 0 then 2 else 1) 0 c.a (wrapN row)) none y else y))) ∧
      (c.op = 1 → c.stage = 0 →
        (∀ r t, firstInvalid d c.who d.rows 0 s = (some r, t) →
          exec (.samplerThresholdSearch cl) s = .next (ends t true (wrapN r))) ∧
        (∀ t, firstInvalid d c.who d.rows 0 s = (none, t) →
          let z := (List.range d.rows).foldl (fun (y : State × Nat) r =>
            ((searchRow d c.x.toNat c.who y.1 r).1, y.2 + (searchRow d c.x.toNat c.who y.1 r).2.toNat)) (t, 0)
          exec (.samplerThresholdSearch cl) s = .next (ends z.1 false (wrapN z.2)))) ∧
      (let good (j : Nat) : Prop := ∃ b, readBlock d c.who j s = some (b, s) ∧ b.valid = true
       (∀ r, r < d.rows → (∀ j, j < r → good j) → (∀ y, readBlock d c.who r s = some y → y.1.valid = false ∧ y.2 = s) →
        firstInvalid d c.who d.rows 0 s = (some r, s)) ∧
       ((∀ r, r < d.rows → good r) → firstInvalid d c.who d.rows 0 s = (none, s))) ∧
      (∀ b u, c.op = 2 → c.stage = 0 → readBlock d c.who (c.b.toNat % 256) s = some (b, u) → b.valid = true →
        (c.b.getLsbD 16 = false → b.slow = true →
          exec (.samplerDrawExecution cl) s = .next (ends u false (wrapI (-1)))) ∧
        (∀ tok t, c.b.getLsbD 16 = true ∨ b.slow = false →
          drawRow d c.who (c.b.toNat % 256) (c.b.toNat / 256 % 256) (c.b.getLsbD 16) b u = some (tok, t) →
          exec (.samplerDrawExecution cl) s = .next (ends t false (wrapN tok)))) ∧
      (∀ i : Instr, c.stage ≠ 0 → (c.op = 1 ∧ i = .samplerThresholdSearch cl ∨ c.op = 2 ∧ i = .samplerDrawExecution cl) →
        exec i s = .next (if far s then s
          else tellCore c (c.snap2.getLsbD 64) (c.snap2.setWidth 64) (head (·.drop 1) s)))) ∧
    -- SPEC_CHECK_EXECUTION, with no event wanted
    (∀ c l, vget s.accept die.toNat [] = c :: l → c.stage = 0 → c.b.getLsbD 0 = false →
      let free (y : State) : Prop := y.engineFar c.unit c.scope = false ∧ waitingPost 4 1 (fun n => n / 2 == die.toNat) y = false
      let t := checkOf c.snap
      ∀ bs s1 n tok u v, free s → engRead c.who t.d (4 * t.nd) s = some (bs, s1) →
        let drafts := (List.range t.nd).map fun i => bytesAt bs (4 * i) 4
        checkRows c t (samplingOf c.snap2) drafts (t.nd + 1) 0 s1 = (false, n, tok, u) →
        engWrite c.who t.o ((drafts.take n ++ [tok]).flatMap (leBytes 4)) u = some v →
        let told : Command := { c with stage := 1, snap2 := BitVec.ofNat 512 (2 * n) }
        let u1 : State := { v with accept := vmod v.accept die.toNat fun q => told :: q.drop 1 }
        (v.engineFar c.unit c.scope = true → exec (.specCheckExecution die) s = .next u1) ∧
        (free v → n < 2 ^ 16 →
          ∀ y, engWrite c.who (c.a.toNat + 32) (leBytes 8 (2 ^ 63 + n * 2 ^ 32 + n)) u1 = some y → free y →
            exec (.specCheckExecution die) s = .next { y with accept := vmod y.accept die.toNat (·.drop 1) })) ∧
    -- EXPERT_LOAD_CLAIM, EXPERT_LOAD_COMPLETE
    (∀ c l, vget s.experts die.toNat [] = c :: l →
      let free (y : State) : Prop := y.engineFar c.unit c.scope = false ∧ waitingPost 4 2 (fun n => n / 2 == die.toNat) y = false
      let at' (n : Nat) (y : State) : State := { y with experts := vmod y.experts die.toNat fun q => { c with stage := n } :: q.drop 1 }
      let out (y : State) : State := { y with experts := vmod y.experts die.toNat (·.drop 1) }
      (c.stage = 0 → waitingPost 4 2 (fun n => n / 2 == die.toNat) s = false →
        (∀ sl cs u, ecrState c s = some (sl, cs, u) →
          ((∃ y ∈ sl, slotSt y ≠ 0 ∧ slotExp y = c.x.toNat) → exec (.expertLoadClaim die) s = .next (out u)) ∧
          (∀ v t, (∀ y ∈ sl, ¬ (slotSt y ≠ 0 ∧ slotExp y = c.x.toNat)) → victim sl cs = some v →
            engWrite c.who (c.a.toNat + 64 + 8 * v) (leBytes 8 (slotWord 1 c.x.toNat)) u = some t →
            exec (.expertLoadClaim die) s = .next (at' (1 + 5 * v) t))) ∧
        (ecrState c s = none → ∃ d1, exec (.expertLoadClaim die) s =
          .next (enginePost (clusterOf c.core) (type4 c.part 3 2 c.a d1) none { out s with fresh := s.fresh + 1 }) ∧
          d1.toNat / 2 ^ 32 = c.x.toNat % 2 ^ 32)) ∧
      (∀ v, c.stage = 1 + 5 * v → free s →
        let n := fld c.snap 160 32
        let word (k : Nat) (y : State) : Option State := engWrite c.who (c.a.toNat + 64 + 8 * v) (leBytes 8 k) y
        let copied : Option State := (engRead c.who (fld c.snap 192 57 + c.x.toNat * n) n s).bind fun r =>
          engWrite c.who (fld c.snap 64 57 + v * n) r.1 r.2
        (∀ t y, copied = some t → c.b.getLsbD 63 = false → free t → word (slotWord 2 c.x.toNat) (at' (2 + 5 * v) t) = some y →
          free y → exec (.expertLoadComplete die) s = .next (out y)) ∧
        (∀ t, copied = some t → t.engineFar c.unit c.scope = true →
          exec (.expertLoadComplete die) s = .next (at' (2 + 5 * v) t)) ∧
        (∀ y, copied = none → word 0 (at' (3 + 5 * v) s) = some y → free y → exec (.expertLoadComplete die) s =
          .next (enginePost (clusterOf c.core) (type4 c.part 3 2 c.a (wrapN (c.x.toNat * 2 ^ 32 + v % 256))) none (out y))))) ∧
    -- EMBEDDING_PREFETCH
    (∀ c l, vget s.prefetch die.toNat [] = c :: l →
      let out (y : State) : State := { y with prefetch := vmod y.prefetch die.toNat (·.drop 1) }
      (∀ cb u, c.stage = 0 → engRead c.who c.a.toNat 4 s = some (cb, u) →
        let v := leNat cb
        let place := c.a.toNat + 16 + 16 * (v % 2)
        ∀ eb y, engRead c.who place 16 u = some (eb, y) →
          (bytesAt eb 8 4 ≠ v → exec (.embeddingPrefetch die) s = .next y) ∧
          (bytesAt eb 8 4 = v → ∀ t, engWrite c.who.exclusive (place + 8) (leBytes 8 (bytesAt eb 8 8 + 2 ^ 32)) y = some t →
            let got : Command := { c with x := wrapN (place + 8), stage := bytesAt eb 0 8 % 2 ^ 57 + 1 }
            exec (.embeddingPrefetch die) s =
              .next { t with prefetch := vmod t.prefetch die.toNat fun q => got :: q.drop 1 })) ∧
      (c.stage = 0 → engRead c.who c.a.toNat 4 s = none → exec (.embeddingPrefetch die) s = .next (out s)) ∧
      (∀ b y t, c.stage ≠ 0 → c.x ≠ 0 →
        let u := fillRows c (c.stage - 1) s
        engRead c.who c.x.toNat 8 u = some (b, y) →
        engWrite c.who.exclusive c.x.toNat (leBytes 8 (leNat b + 2 ^ 64 - 2 ^ 32)) y = some t →
        exec (.embeddingPrefetch die) s = .next (out t))) ∧
    -- TOKENISER_START and the others: a submission is taken up, and ends with its status
    (∀ c l d a base y t v z, s.textEng dtk e.toNat = ⟨c :: l, none⟩ →
      waitingPost 3 (8 * dtk.toNat + e.toNat) (fun _ => true) s = false →
      (statusAway dtk c s = true → exec start s = .next s) ∧
      (statusAway dtk c s = false → (physPieces s c.part .w c.a.toNat 64).isSome = true →
        engRead c.who c.a.toNat 64 s = some (leBytes 64 d, y) → d < 2 ^ 512 →
        acquireVersion c.who (d % 2 ^ 57) y = (.taken a base, t) → readVocab c.who base t = (.ok v, z) →
        exec start s = .next (z.modText dtk e.toNat fun _ => ⟨l, some { c with
          snap := BitVec.ofNat 512 d, x := wrapN a, snap2 := BitVec.ofNat 512 base, stage := 1 }⟩))) ∧
    (∀ c l v s1, s.textEng dtk e.toNat = ⟨l, some c⟩ → c.stage = 1 → readVocab c.who c.snap2.toNat s = (.ok v, s1) →
      let free (y : State) : Prop := y.engineFar c.unit c.scope = false
      let r := if dtk then detokenise c v s1 else tokenise c v s1
      let st := statusOf r.1.code r.1.nrep r.1.n
      let told : Command := { c with stage := 4, snap := BitVec.ofNat 512 (st + r.1.hold * 2 ^ 64 + r.1.code * 2 ^ 128) }
      let w (t : State) (off n : Nat) : State := (engWrite c.who (c.a.toNat + off) (leBytes 8 n) t).getD t
      let u := r.2.modText dtk e.toNat fun y => { y with run := some told }
      let z := releaseVersion c.who c.x.toNat (if dtk then w (w u 48 st) 40 r.1.hold else w u 40 st)
      let o := z.modText dtk e.toNat fun y => { y with run := none }
      free s → r.1.hold < 2 ^ 64 → r.1.code < 8 →
      (u.engineFar c.unit c.scope = true → exec complete s = .next u) ∧
      (free u → free z →
        exec complete s = .next (if r.1.code = 0 then o else textEvent dtk e.toNat c r.1.code st o)))

/-- The steps of the request unit, the Ethernet ports, the links and the pool (R84, R140, R224, R231, R238-R240, R314, R371,
R377-R379, R396-R399). A message is counted in `rqtail` once its slot is written and the stores of it are performed; one that
cannot be placed is refused. A store to a peer, to the host or to the pool is performed when its acknowledgement comes, and not
before an earlier one to its line or its bytes (R224; logs 24, 70); its bytes take their place in the peer's and in the host's
memory then (R226; log 89). What waits for a link goes out in its order: the device's own stores, then those it relays, then its
acknowledgements; a flit that brings no copy of a store leaves its buffer free (log 69). With both links down, or without the
host, the contexts of the stores end, their bytes are free, and no engine makes a result of one (R242; logs 71, 89, 113, 126).
That LEASE_END always fires the watch is log 73. -/
def Obligations.LinkEvents : Prop :=
  ∀ (ix : Nat) (port : BitVec 3) (conn : BitVec 32) (job : BitVec 24) (msg : List (BitVec 8)) (ring : BitVec 7) (pa : BitVec 52)
    (src dst : BitVec 6) (relay : Option (BitVec 6)) (seq : BitVec 16) (link copy : Bool) (fs ack : BitVec 12) (pp : BitVec 2) (base : BitVec 52) (units : Nat)
    (ports : BitVec 4) (s : State),
    let p := port.toNat
    let eth := vget s.eth p EthPort.reset
    let l := s.link link
    let waits (k : Bool) : Prop := (∃ y ∈ s.remote, y.link = k ∧ y.sent = false) ∨ (∃ y ∈ s.relayed, y.link = k ∧ y.sent = false) ∨
      ∃ y ∈ s.acks, y.link = k ∧ y.sent = false
    let noPathFrom (u : State) (o : Host.Outcome State Fault Refusal) : Prop := ∃ code ∈ [3, 4, 5, 6, 9], o =
      .next (settleArrivals (endAll 0x32 (s.remote.map (·.ctx)) { loseInEngines code (s.remote.map RemoteStore.asStore) true u with
        remote := [], peerMem := s.peersKept, fresh := s.fresh + 1 }))
    -- FRAME_RECEIVE, WAKE_RETRY
    (∀ n t, s.connOf p conn.toNat = some n → eth.up = true →
      let u := s.modEth p fun y => { y with received := y.received + 1 }
      (requestOk msg = false → exec (.frameReceive port conn msg) s =
        .next ((u.modRq n fun r => { r with bad := r.bad + 1 }).modEth p fun y => { y with malformed := y.malformed + 1 })) ∧
      (requestOk msg = true →
        let r := u.rq n
        let going := s.arrivals.countP fun y => y.ring == n
        let va := r.base.toNat + 4096 * ((r.tail.toNat + going) % 2 ^ 32 % 2 ^ (r.lcap.toNat % 16))
        let unit := arrivalUnit + s.nextNum
        let bs := putBytes msg 16 (leBytes 8 (conn.toNat + 2 ^ 32 * p))
        let open' : Prop := r.en = true ∧ (r.tail - r.head).toNat + going < 2 ^ (r.lcap.toNat % 16) ∧ r.ports.getLsbD p = true
        (¬ open' ∨ 2 ^ 57 < va + msg.length ∨
          (∃ x, va ≤ x ∧ x < va + msg.length ∧ ∀ l, s.walk r.part x = some l → l.grants .w = false ∨ s.poolLost l.pa = true) →
          exec (.frameReceive port conn msg) s =
            .next (raiseInt r.part 2 ((u.modRq n fun y => { y with full := y.full + 1 }).modEth p fun y =>
              { y with refused := y.refused + 1 }))) ∧
        (open' → s.arrivals = [] →
          unitWrite { Who.unit r.part with agent := unit } { u with nextNum := s.nextNum + 1 } va bs = some t →
          exec (.frameReceive port conn msg) s = .next (if t.engineFar unit 3 then { t with arrivals := [⟨n, unit⟩] }
            else wakeRing n (t.modRq n fun y => { y with tail := y.tail + 1 }))))) ∧
    (s.arrivals = [] → settleArrivals s = s) ∧
    (∀ n unit, s.arrivals = [⟨n, unit⟩] → settleArrivals s =
      if s.engineFar unit 3 then s else wakeRing n ({ s with arrivals := [] }.modRq n fun y => { y with tail := y.tail + 1 })) ∧
    ((s.rq ring.toNat).wfail ≠ 0 → exec (.wakeRetry ring) s = .next (wakeRing ring.toNat s)) ∧
    -- CONNECTION_ACCEPT, CONNECTION_CLOSE, ETHERNET_LINK_DOWN, ETHERNET_LINK_UP
    (eth.up = true → s.connOf p conn.toNat = none →
      let fits (n : Nat) : Prop := (s.rq n).en = true ∧ (s.rq n).svc.getLsbD 63 = true ∧
        (s.rq n).svc.toNat % 2 ^ 24 = job.toNat ∧ (s.rq n).ports.getLsbD p = true
      let bound (n : Nat) : Nat := s.conns.countP fun y => y.ring.toNat == n
      ((∀ n, n < 128 → ¬ fits n) → exec (.connectionAccept port conn job) s = .next s) ∧
      (∀ n, n < 128 → fits n → (∀ m, m < 128 → fits m → bound n < bound m ∨ (bound n = bound m ∧ n ≤ m)) →
        exec (.connectionAccept port conn job) s =
          .next { s with conns := s.conns ++ [⟨port, conn, job, BitVec.ofNat 7 n⟩] })) ∧
    exec (.connectionClose port conn) s = .next { s with conns := s.conns.filter fun y => !(y.port == port && y.conn == conn) } ∧
    (eth.up = true → exec (.ethernetLinkDown port) s =
      .next (raiseDint 2 (s.modEth p fun y => { y with up := false, downs := y.downs + 1 }))) ∧
    exec (.ethernetLinkUp port) s = .next (s.modEth p fun y => { y with up := true }) ∧
    -- REPLY_TRANSMIT
    (∀ r bs t, s.handed[ix]? = some r →
      let u : State := { s with handed := s.handed.eraseIdx ix }
      engRead r.who r.frame.toNat r.len.toNat u = some (bs, t) →
      let route := bytesAt bs 16 8
      let q := route / 2 ^ 32
      (7 < q → exec (.replyTransmit ix) s = .next t) ∧
      (q ≤ 7 → (vget t.eth q EthPort.reset).up = false → exec (.replyTransmit ix) s =
        .next (t.modEth q fun y => { y with discarded := y.discarded + 1 })) ∧
      (q ≤ 7 → t.connOf q (route % 2 ^ 32) ≠ none → (vget t.eth q EthPort.reset).up = true → exec (.replyTransmit ix) s =
        .next { (t.modEth q fun y => { y with sent := y.sent + 1 }) with wire := t.wire ++ [(BitVec.ofNat 3 q, bs)] }) ∧
      (q ≤ 7 → t.connOf q (route % 2 ^ 32) = none → exec (.replyTransmit ix) s =
        .next (t.modEth q fun y => { y with discarded := y.discarded + 1 }))) ∧
    -- REMOTE_STORE_APPLY, STORE_ACK, REMOTE_STORE_REPLAY
    (pa.toNat % 64 + msg.length ≤ 64 → (isHbm pa.toNat = true ∨ isLp6 pa.toNat = true) →
      let key := src.toNat * 2 ^ 52 + pa.toNat / 64
      let u := s.modLink link Link.drain
      let isNewer : Prop := ∀ o, kvGet key s.applied = some o → 1 ≤ (seq - o).toNat ∧ (seq - o).toNat ≤ 32767
      let k := !(u.link false).up
      let goes : Prop := (u.link k).ready = true ∧ ¬ waits k
      dst = s.domain → ∀ v : State,
        (isNewer → v = { physWrite pa.toNat msg none u with applied := kvPut key seq s.applied }) → (¬ isNewer → v = u) →
        (goes → exec (.remoteStoreApply ⟨src, dst, link⟩ pa seq msg) s =
          .next { (v.modLink k Link.send) with acks := s.acks ++ [⟨src, pa, seq, k, true⟩] }) ∧
        (¬ goes → exec (.remoteStoreApply ⟨src, dst, link⟩ pa seq msg) s =
          .next { v with acks := s.acks ++ [⟨src, pa, seq, k, false⟩] })) ∧
    (let u := s.modLink link Link.drain
      let k := !(u.link false).up
      let goes : Prop := (u.link k).ready = true ∧ ¬ waits k
      dst ≠ s.domain →
        (goes → exec (.remoteStoreApply ⟨src, dst, link⟩ pa seq msg) s =
          .next { (u.modLink k Link.send) with relayed := u.relayed ++ [⟨src, dst, pa, seq, msg, k, true⟩] }) ∧
        (¬ goes → exec (.remoteStoreApply ⟨src, dst, link⟩ pa seq msg) s =
          .next { u with relayed := u.relayed ++ [⟨src, dst, pa, seq, msg, k, false⟩] })) ∧
    (isHost pa.toNat = true →
      ((∀ y ∈ s.hostStores, y.pa ≠ pa) → exec (.storeAck pa seq) s = .next (settleArrivals s)) ∧
      (∀ pre r post, s.hostStores = pre ++ r :: post → (∀ y ∈ pre, y.pa ≠ pa) → r.pa = pa →
        let before : Prop := ∃ y ∈ pre, y.lost = false ∧ overlaps y.pa.toNat y.size r.pa.toNat r.size = true
        (¬ before → exec (.storeAck pa seq) s = .next (settleArrivals
          { physWrite pa.toNat r.bytes (if r.agent = 0 then some r.core else none) s with hostStores := pre ++ post })) ∧
        (before → exec (.storeAck pa seq) s = .next (settleArrivals s)))) ∧
    (let hit (y : RemoteStore) : Prop := y.pa = pa ∧ y.seq = seq ∧ y.sent = true
     isHost pa.toNat = false →
      ((∀ y ∈ s.remote, ¬ hit y) → exec (.storeAck pa seq) s = .next (settleArrivals s)) ∧
      (∀ pre r post, s.remote = pre ++ r :: post → (∀ y ∈ pre, ¬ hit y) → hit r →
        let before : Prop := ∃ y ∈ pre, s.peerKey y.pa.toNat / 64 = s.peerKey pa.toNat / 64
        (¬ before → exec (.storeAck pa seq) s = .next (settleArrivals
          { placePeer pa.toNat r.bytes (if r.agent = 0 then some r.core else none) s with remote := pre ++ post })) ∧
        (before → exec (.storeAck pa seq) s = .next (settleArrivals s)))) ∧
    (let t := placePeer pa.toNat msg none s
     (∀ i (h : i < msg.length), kvGet (s.peerKey pa.toNat + i) t.peerMem = some msg[i]) ∧
      ∀ x, x < s.peerKey pa.toNat ∨ s.peerKey pa.toNat + msg.length ≤ x → kvGet x t.peerMem = kvGet x s.peerMem) ∧
    (∀ x, (∀ r ∈ s.remote, x < s.peerKey r.pa.toNat ∨ s.peerKey r.pa.toNat + r.bytes.length ≤ x) →
      kvGet x s.peersKept = kvGet x s.peerMem) ∧
    (∀ x, ∀ r ∈ s.remote, s.peerKey r.pa.toNat ≤ x → x < s.peerKey r.pa.toNat + r.bytes.length → kvGet x s.peersKept = none) ∧
    (∀ r, s.remote[ix]? = some r →
      let k := if relay.isSome && !(s.link !r.link).up then r.link else !r.link
      ((s.link k).ready = true → exec (.remoteStoreReplay ⟨ix, relay⟩) s = .next { (s.modLink k Link.send) with
        remote := s.remote.set ix { r with link := k, relay := relay, sent := true } }) ∧
      ((s.link false).up = false → (s.link true).up = false → noPathFrom s (exec (.remoteStoreReplay ⟨ix, relay⟩) s))) ∧
    (∀ code lost far, let t := loseInEngines code lost far s
      let hit (c : Command) : Prop := (far = true ∨ 5 ≤ c.scope.toNat) ∧ ∃ y ∈ lost, y.agent = c.unit ∧ y.ctx = c.ctx
      (∀ c, c ∈ t.commands ↔ c ∈ s.commands ∧ ¬ hit c) ∧
      ∀ k r, (s.chan k).run = some r → (far = true ∨ 5 ≤ r.chain.scope.toNat) → r.stage = 0 →
        (r.lostAt lost s = none → (t.chan k).run = some r) ∧
        (∀ n, r.lostAt lost s = some n → (t.chan k).run = some { r with pos := n, owed := 0, outcome := some code })) ∧
    -- the Nalyan link
    (let calm : Prop := ∀ k, ¬ waits k
     l.up = true →
      (calm → fs = l.recvSeq → ∃ t, exec (.nalyanFlitReceive link fs ack (some copy)) s = .next t ∧
        let m := t.link link
        let held := l.occupied + if copy then 1 else 0
        m.recvSeq = l.recvSeq + 1 ∧ m.occupied = min 4096 held ∧
        m.unacked = l.unacked.filter (fun f => 2048 ≤ (ack - f.1).toNat) ∧
        m.pauseSent = (l.pauseSent || decide (3072 < held)) ∧ m.gap = false ∧ t = { s with links := t.links }) ∧
      (∀ good, (fs ≠ l.recvSeq ∨ good = none) →
        (l.gap = false ∨ fs = l.recvSeq → exec (.nalyanFlitReceive link fs ack good) s = .next (s.modLink link fun m =>
          { m with replays := m.replays + 1, asked := m.asked ++ [m.recvSeq], gap := true })) ∧
        (l.gap = true → fs ≠ l.recvSeq → exec (.nalyanFlitReceive link fs ack good) s = .next s)) ∧
      ((∀ f ∈ l.unacked, (f.1 - fs).toNat < 2048 → f.2 < 7) → (∀ f ∈ l.unacked, f.2 < 8) →
        exec (.nalyanReplayRequest link fs) s = .next (s.modLink link fun m => { m with
          unacked := m.unacked.map fun f => if (f.1 - fs).toNat < 2048 then (f.1, f.2 + 1) else f,
          replays := m.replays + BitVec.ofNat 64 (l.unacked.countP fun f => decide ((f.1 - fs).toNat < 2048)) })) ∧
      exec (.nalyanPause link) s = .next (s.modLink link fun m => { m with paused := true }) ∧
      (let fallen := raiseDint 2 (s.modLink link fun m => { m with up := false, paused := false, unacked := [], gap := false })
       (calm → (s.link !link).up = true → exec (.nalyanLinkDown link) s = .next fallen) ∧
       ((s.link !link).up = false → noPathFrom fallen (exec (.nalyanLinkDown link) s)))) ∧
    (let awake := s.modLink link fun m => { m with paused := false }
     ((∀ k, ¬ waits k) → exec (.nalyanResume link) s = .next awake ∧
        exec (.nalyanLinkUp link) s = .next (s.modLink link fun m => { m with up := true })) ∧
      (∀ pre r post, s.remote = pre ++ r :: post → (∀ y ∈ pre ++ post, y.link = link → y.sent = true) → r.link = link →
        r.sent = false → (∀ y ∈ s.relayed, y.link = link → y.sent = true) → (∀ y ∈ s.acks, y.link = link → y.sent = true) →
        l.up = true → (s.link !link).up = true → l.unacked.length < 2048 → exec (.nalyanResume link) s =
          .next { (awake.modLink link Link.send) with remote := pre ++ { r with sent := true } :: post }) ∧
      (∀ r a, (∀ y ∈ s.remote, y.link = link → y.sent = true) → s.relayed = [r] → s.acks = [a] → r.link = link → a.link = link →
        r.sent = false → a.sent = false → l.up = true → (s.link !link).up = true → l.unacked.length < 2047 →
        let first := awake.modLink link Link.send
        exec (.nalyanResume link) s = .next { (first.modLink link Link.send) with
          relayed := [{ r with sent := true }], acks := [{ a with sent := true }] })) ∧
    -- the pool and the host port
    exec (.leaseEnd pa) s = .next (fireWatches (pa.toNat / 64 * 64) 64 none s) ∧
    (isPool pa.toNat = true → exec (.backInvalidateSnoop pa) s = .next (fireWatches (pa.toNat / 64 * 64) 64 none
      { s with poolStores := s.poolStores.filter (fun y => y.lost || y.pa.toNat / 64 != pa.toNat / 64),
               cache := { s.cache with slices := s.cache.slices.map fun x =>
                 (x.1, x.2.filter fun y => y.line != pa.toNat / 64) } })) ∧
    (∀ y, s.poolStores[ix]? = some y → y.lost = false →
      let before : Prop := ∃ z ∈ s.poolStores.take ix, z.lost = false ∧ overlaps z.pa.toNat z.size y.pa.toNat y.size = true
      (¬ before → exec (.poolStoreAck ix) s = .next { s with poolStores := s.poolStores.eraseIdx ix }) ∧
      (before → exec (.poolStoreAck ix) s = .next s)) ∧
    (s.poolUp.getLsbD pp.toNat = true →
      let up := setBit s.poolUp pp.toNat false
      (∀ r ∈ s.pools, r.lost = true ∨ r.ports &&& up ≠ 0) →
      exec (.poolPortLinkDown pp) s = .next (raiseDint 2 { s with poolUp := up })) ∧
    exec (.poolPortLinkUp pp) s = .next { s with poolUp := setBit s.poolUp pp.toNat true } ∧
    (isPool base.toNat = true → base.toNat % 0x10000000 = 0 → 0 < units → base.toNat + units * 0x10000000 ≤ 2 ^ 52 →
      ∃ t, exec (.poolRegionMap base units ports) s = .next t ∧
        t = { s with pools := t.pools, poolStores := t.poolStores } ∧
        (∀ a, base.toNat ≤ a → a < base.toNat + units * 0x10000000 →
          t.poolAt a = some ⟨base, units, ports, ports &&& s.poolUp == 0⟩)) ∧
    (let down := if s.hostUp then raiseDint 2 { s with hostUp := false } else s
     (s.hostStores = [] → exec .hostPortLost s = .next (settleArrivals { down with fresh := s.fresh + 1 })) ∧
      (∃ code ∈ [3, 4, 5, 6, 9], exec .hostPortLost s = .next (settleArrivals (endAll 0x3E (s.hostStores.map (·.ctx))
        { loseInEngines code s.hostStores true down with fresh := s.fresh + 1 }.hostLost))) ∧
      s.hostLost.hostStores = [] ∧
      ∀ x, (∀ y ∈ s.hostStores, x < y.pa.toNat ∨ y.pa.toNat + y.size ≤ x) → memByte s.hostLost.mem x = memByte s.mem x)

/-- The host's registers and Basoc (R135-R137, R183, R377, R387-R395, R398, R400-R403). A ring that loses its enable releases the
waits on it (R183). A write of a control page is discarded while the partition is not free, and refused, with bit 30 of its
flags, where a limit or the ticket budget would be broken (R145, R395; log 107). A boot that fails stops at its step and stores
its number, and links that do not train are left down (R403; log 74, log 106). A vector that its function masks stays pending (R387). A cold reset and a power off clear the device's own
memory; the host's and the pool's keep theirs (log 5). The coding of the last reset, 0 cold and 1 warm, is log 75. What Basoc reads of the counters is what they
hold, and of a sensor of the module a free value (log 9). What the host reads of the registers is read from the same state; the
offsets of the MSI-X table and of the device page below 0x100 are the model's (log 104, log 105). -/
def Obligations.HostEvents : Prop :=
  ∀ (via : Option (BitVec 5)) (q : BitVec 8) (v32 : BitVec 32) (v : BitVec 64) (cl : BitVec 4) (rn : BitVec 6) (ring : BitVec 7)
    (part : BitVec 5) (off : BitVec 12) (bytes : List (BitVec 8)) (watts target : BitVec 16) (sensor : Sensor) (nonce : BitVec 256)
    (s : State),
    let boot := s.nextBoot
    let scrubbed (t : State) : Prop := ∀ x,
      (isHost x = false → isPool x = false → memByte t.mem x = 0) ∧
      (isHost x = true ∨ isPool x = true → s.hostStores = [] → (∀ y ∈ s.poolStores, y.lost = true) →
        memByte t.mem x = memByte s.mem x)
    let c := s.cq q.toNat
    let reaches := via = none ∨ ∃ p, via = some p ∧ s.cqOwner q.toNat = some p
    let hw := vget s.rings (64 * cl.toNat + rn.toNat) HwRing.reset
    let rq := s.rq ring.toNat
    let mail := (s.part part).mail
    -- CQTAIL_WRITE, CQCTL_WRITE
    (¬ reaches → exec (.cqtailWrite via q v32) s = .next s ∧ exec (.cqctlWrite via q v) s = .next s) ∧
    (reaches →
      (2 ^ (c.size.toNat + 4) < (v32 - c.head).toNat → exec (.cqtailWrite via q v32) s =
        .next (s.modCq q.toNat fun k => { k with err := 7 })) ∧
      ((v32 - c.head).toNat ≤ 2 ^ (c.size.toNat + 4) → exec (.cqtailWrite via q v32) s =
        .next (refreshBacklog (s.modCq q.toNat fun k => { k with tail := v32 }))) ∧
      let beside (p : BitVec 5) : Nat := (((List.range 256).filter fun n =>
        decide (n ≠ q.toNat ∧ (s.cq n).en = true ∧ s.cqOwner n = some p)).map fun n => (s.cq n).tickets.toNat).sum
      let refuses : Prop := v.toNat / 2 ^ 20 % 2 ^ 12 = 0 ∨ 12 < v.toNat / 2 ^ 16 % 16 ∨
        (v.getLsbD 0 = true ∧ ∃ p, s.cqOwner q.toNat = some p ∧ s.pg p 0x10 4 < beside p + v.toNat / 2 ^ 20 % 2 ^ 12)
      (refuses → exec (.cqctlWrite via q v) s = .next s) ∧
      (¬ refuses → ∃ t, exec (.cqctlWrite via q v) s = .next t ∧
        let k := t.cq q.toNat
        k.en = v.getLsbD 0 ∧ k.det = v.getLsbD 1 ∧ k.tickets = v.extractLsb' 20 12 ∧ k.dies = v.extractLsb' 40 8 ∧
        k.size = (if c.en then c.size else v.extractLsb' 16 4) ∧ (v.getLsbD 59 = true → k.stop = false ∧ k.err = 0) ∧
        k.head = c.head ∧ k.tail = c.tail ∧ k.base = c.base)) ∧
    -- RNGCTL_WRITE, RQCTL_WRITE
    ((v.toNat % 16 = 0 ∨ 12 < v.toNat % 16) → exec (.rngctlWrite cl rn v) s = .next s) ∧
    (1 ≤ v.toNat % 16 → v.toNat % 16 ≤ 12 → ∃ t, exec (.rngctlWrite cl rn v) s = .next t ∧
      let r := vget t.rings (64 * cl.toNat + rn.toNat) HwRing.reset
      (v.getLsbD 16 = false → ∀ x ∈ t.core :: t.others, ∀ o ∈ x.objWaits, o.ring = true →
        o.place = 64 * cl.toNat + rn.toNat → o.released = true) ∧
      (hw.en = true → r = { hw with en := v.getLsbD 16 }) ∧
      (hw.en = false → v.getLsbD 16 = true →
        r = ⟨v.extractLsb' 32 5, true, v.extractLsb' 0 4, 0, 0, 0, 0, 0, 0⟩)) ∧
    (12 < v.toNat % 16 → exec (.rqctlWrite none ring v) s = .next s) ∧
    (v.toNat % 16 ≤ 12 → ∃ t, exec (.rqctlWrite none ring v) s = .next t ∧
      let r := t.rq ring.toNat
      r.ports = v.extractLsb' 40 8 ∧ r.wq = v.extractLsb' 24 8 ∧ r.en = v.getLsbD 16 ∧
      (rq.en = false → r.part = v.extractLsb' 32 5 ∧ r.lcap.toNat = v.toNat % 16) ∧
      (rq.en = false → v.getLsbD 16 = true → r.head = 0 ∧ r.tail = 0 ∧ r.armed = true) ∧
      (v.getLsbD 16 = false → (∀ y ∈ t.conns, y.ring ≠ ring) ∧ t.arrivals = s.arrivals) ∧
      (rq.en = false → v.getLsbD 16 = true → ∀ y ∈ t.arrivals, y.ring ≠ ring.toNat)) ∧
    -- INTSTAT_CLEAR
    (exec (.intstatClear none v) s = .next { s with dintstat := s.dintstat &&& ~~~v } ∧
      ∃ t, exec (.intstatClear (some part) v) s = .next t ∧ (t.part part).intstat = (s.part part).intstat &&& ~~~v ∧
        ∀ p, p ≠ part → t.part p = s.part p) ∧
    -- CONTROL_PAGE_WRITE
    (pageFree part s = false → exec (.controlPageWrite part off bytes) s = .next s ∧
      (hostRead none false (0x400000 + 0x1000 * part.toNat + 0x1F) 1 s).map (·.getLsbD 7) = [true]) ∧
    (pageFree part s = true →
      let pg := pageWith (s.part part).page off.toNat bytes
      let at' (p : BitVec 5) (o n : Nat) : Nat := if p = part then pageFld pg o n else s.pg p o n
      let total (o n : Nat) : Nat := ((List.range 32).map fun p => at' (BitVec.ofNat 5 p) o n).sum
      let keeps : Prop :=
        (∀ k, k < 16 → total (0x40 + 2 * k) 2 ≤ 1024) ∧ (∀ d, d < 8 → total (0x60 + d) 1 ≤ 16) ∧ total 0x68 2 ≤ 1024 ∧
        total 0x6A 1 ≤ 64 ∧
        (∀ p, p ≠ part → ∀ f ∈ [(0xC0, 32), (0xB0, 16), (0x70, 64), (0x6C, 1), (0x6D, 1)],
          pageFld pg f.1 f.2 &&& s.pg p f.1 f.2 = 0) ∧
        pageFld pg 0x10 4 ≤ 2 ^ 20 ∧
        (((List.range 256).filter fun n => decide ((s.cq n).en = true ∧ pageFld pg 0xC0 32 / 2 ^ n % 2 = 1)).map fun n =>
          (s.cq n).tickets.toNat).sum ≤ pageFld pg 0x10 4
      (¬ keeps → exec (.controlPageWrite part off bytes) s = .next (setPageBit part 30 s)) ∧
      (hostRead none false (0x400000 + 0x1000 * part.toNat + 0x1F) 1 s).map (·.getLsbD 7) = [false] ∧
      (keeps → ∃ t, exec (.controlPageWrite part off bytes) s = .next t ∧ (t.part part).page = pg ∧
        (∀ p, p ≠ part → t.part p = s.part p) ∧ SameMemory s t)) ∧
    -- MAILBOX_GO, MAILBOX_LOAD_COMPLETE
    (mail.go = false → exec (.mailboxGo part 1) s = .next (s.setPart part fun p =>
      { p with mail := { p.mail with go := true, result := 0, rtval := 0 } })) ∧
    (mail.go = true →
      let ks := (List.range 16).filter fun k => mail.cmask = 0 || mail.cmask.getLsbD k
      let r := mailLoad part mail ks s
      exec (.mailboxLoadComplete part) s = .next (raiseInt part 4 (r.1.setPart part fun p => { p with mail :=
        { p.mail with go := false, result := BitVec.ofNat 32 (2 ^ 31 + r.2.1), rtval := wrapN r.2.2 } }))) ∧
    -- REGISTER_WRITE: the read pointer of the log, a partition's interrupt mask in its window, an MSI-X vector; their reads
    (exec (.registerWrite none ⟨false, 0x104⟩ (leBytes 4 v32.toNat)) s = .next { s with lghead := v32 } ∧
      hostRead none false 0x104 4 { s with lghead := v32 } = leBytes 4 v32.toNat) ∧
    (∃ t, exec (.registerWrite (some part) ⟨false, 0x4048⟩ (leBytes 8 v.toNat)) s = .next t ∧
      (t.part part).intmask = wrapN (v.toNat % 64) ∧ t = { s with parts := t.parts } ∧
      hostRead (some part) false 0x4048 8 t = leBytes 8 (v.toNat % 64)) ∧
    (∀ n, n < 2048 → s.msixPending = [] → ∃ t, exec (.registerWrite via ⟨true, BitVec.ofNat 25 (16 * n)⟩ (leBytes 8 v.toNat)) s = .next t ∧
      t = { s with msixTable := t.msixTable } ∧ (memWf s.msixTable = true → hostRead via true (16 * n) 8 t = leBytes 8 v.toNat)) ∧
    -- a masked vector stays pending, its bit reads 1, and the write that unmasks it sends it
    (∀ b, s.dintstat.getLsbD b = false → s.dintmask.getLsbD b = true →
      let u : State := { s with dintstat := setBit s.dintstat b true }
      (s.msixMasked 0 b = false → raiseDint b s = { u with msix := s.msix ++ [(0, b)] }) ∧
      (s.msixMasked 0 b = true → (0, b) ∉ s.msixPending → raiseDint b s = { u with msixPending := s.msixPending ++ [(0, b)] })) ∧
    (let f := functionOf via
     ∀ n, n < 2048 → memWf s.msixTable = true → s.msixMasked f n = true → s.msixPending = [(f, n)] →
      (hostRead via true (2 ^ 15 + n / 8) 1 s).map (·.getLsbD (n % 8)) = [true] ∧
      ∃ t, exec (.registerWrite via ⟨true, BitVec.ofNat 25 (16 * n + 12)⟩ (leBytes 4 0)) s = .next t ∧
        t.msix = s.msix ++ [(f, n)] ∧ t.msixPending = [] ∧ t.msixMasked f n = false) ∧
    (∀ off, 0x1200000 ≤ off → off < 2 ^ 25 → exec (.registerWrite none ⟨false, BitVec.ofNat 25 off⟩ bytes) s = .next s ∧
      hostRead none false off 1 s = [0]) ∧
    (∀ o, o < 0x20 → (∀ p, s.cqOwner q.toNat = some p → p ≠ part) → hostRead (some part) false (32 * q.toNat + o) 1 s = [0]) ∧
    -- COLD_RESET, WARM_RESET, POWER_OFF
    (∃ t, exec .coldReset s = .next t ∧ t.core = Core.reset 0 ∧ t.others = [] ∧ scrubbed t ∧ t.bank = [] ∧ t.code = [] ∧
      t.cache = State.reset.cache ∧ t.parts = State.reset.parts ∧ t.cqs = State.reset.cqs ∧ t.lastReset = 0 ∧ t.ready = decide (t.bootError = 0) ∧
      (1 ≤ boot.fail → boot.fail ≤ 7 → 1 ≤ t.bootError.toNat ∧ t.bootError.toNat ≤ boot.fail ∧ t.ready = false) ∧
      (boot.fail = 0 → (∀ f : Fin 3, s.fw[f].pending = false ∧ s.fw[f].image = none) →
        t.bootError = 0 ∧ t.power = true ∧ t.dintstat.getLsbD 4 = true ∧
        (∀ k : Bool, (t.link k).up = boot.links.getLsbD k.toNat) ∧ t.poolUp = boot.pool ∧
        (∀ k : Fin 8, t.eth[k].up = boot.eth.getLsbD k.val) ∧
        t.dintstat.getLsbD 2 = decide (¬ (boot.links = 3 ∧ boot.eth = 255 ∧ boot.pool = 15)))) ∧
    (s.power = true → ∃ t, exec .warmReset s = .next t ∧ t.core = { Core.reset s.core.id with seqctr := s.core.seqctr } ∧
      t.others = s.others.map (fun x => { Core.reset x.id with seqctr := x.seqctr }) ∧ (s.hostStores = [] → t.mem = s.mem) ∧
      t.code = s.code ∧ t.bank = [] ∧ t.log = s.log ∧ t.parts = State.reset.parts ∧ t.cqs = State.reset.cqs ∧ t.lastReset = 1 ∧
      (∀ k : Fin 8, t.eth[k].counters = s.eth[k].counters)) ∧
    (∃ t, exec .powerOff s = .next t ∧ t.power = false ∧ t.ready = false ∧ scrubbed t ∧ t.core = Core.reset 0) ∧
    -- POWER_CAP_SET, PLDM_SENSOR_READ, FIRMWARE_UPDATE, SPDM_ATTESTATION
    (600 ≤ watts.toNat → watts.toNat ≤ 2200 → exec (.powerCapSet watts) s = .next { s with powerCap := watts }) ∧
    ((watts.toNat < 600 ∨ 2200 < watts.toNat) → exec (.powerCapSet watts) s = .next s) ∧
    (∃ x t, exec (.pldmSensorRead sensor) s = .next t ∧ t = { s with basoc := s.basoc ++ [x], fresh := t.fresh } ∧
      (∀ k n, sensor = .eth k n → s.power = true → x = .sensor sensor ((vget s.eth k.toNat EthPort.reset).counters[n]?)) ∧
      (∀ id n, sensor = .core id n → s.power = true → n ∈ [1, 2, 3, 4, 6, 7, 8, 10, 11] →
        x = .sensor sensor (some (vget (s.findCore id).counters n 0))) ∧
      (∀ n, sensor = .log n → s.power = true → n < 4096 → x = .logEntry (s.logSlot n)) ∧
      ((∀ n, sensor ≠ .thermalOrRail n) → s.power = false → x = .sensor sensor none ∨ x = .logEntry none)) ∧
    (target.toNat ≤ 2 →
      let f := vget s.fw target.toNat FwTarget.reset
      let ok := imageOk target.toNat bytes f.minSvn
      ∃ t, exec (.firmwareUpdate target bytes) s = .next t ∧ t = { s with fw := t.fw, basoc := s.basoc ++ [.update target ok] } ∧
        let g := vget t.fw target.toNat FwTarget.reset
        g.pending = ok ∧ g.active = f.active ∧ g.minSvn = f.minSvn ∧
        g.image = f.image ∧ (if f.active then g.svnB = f.svnB ∧ g.imageA = some bytes
          else g.svnA = f.svnA ∧ g.imageB = some bytes)) ∧
    (∃ sig : List (BitVec 8), sig.length = 49856 ∧ exec (.spdmAttestation nonce) s =
      .next { s with basoc := s.basoc ++ [.attest Config.identityKey (measurements s) sig] })
end

