-- ==== Sys2Proof/Laws/Memory.lean ====
section
/-! SUPPORT. The laws of a memory: its canonical form, which every memory operation keeps, and a byte read after a
write. -/
namespace Sys2Proof.Machine

open Host (Cell)

/-- The canonical form as a reader says it: addresses rise strictly, and no entry is zero. -/
def MemForm (m : List Cell) : Prop := m.Pairwise (fun c d => c.1 < d.1) ∧ ∀ c ∈ m, c.2 ≠ 0

theorem rising_iff (m : List Cell) :
    (m.zip m.tail).all (fun p => p.1.1 < p.2.1) = true ↔ m.Pairwise (fun c d => c.1 < d.1) := by
  induction m with
  | nil => simp
  | cons c l ih =>
    cases l with
    | nil => simp
    | cons d r =>
      have ih' := ih
      simp only [List.tail_cons] at ih' ⊢
      rw [List.zip_cons_cons, List.all_cons, Bool.and_eq_true, ih', List.pairwise_cons (a := c)]
      constructor
      · rintro ⟨h, hp⟩
        refine ⟨?_, hp⟩
        intro e he
        rcases List.mem_cons.1 he with rfl | he
        · simpa using h
        · have := (List.pairwise_cons.1 hp).1 e he
          have h' : c.1 < d.1 := by simpa using h
          omega
      · rintro ⟨h, hp⟩
        exact ⟨by simpa using h d (by simp), hp⟩

theorem memWf_iff (m : List Cell) : memWf m = true ↔ MemForm m := by
  unfold memWf MemForm
  rw [Bool.and_eq_true, rising_iff]
  simp

/-- The empty memory has the form. -/
theorem memWf_nil : memWf [] = true := rfl

/-- Every memory that a filter leaves has the form. -/
theorem memWf_filter (p : Cell → Bool) {m : List Cell} (h : memWf m = true) : memWf (m.filter p) = true := by
  rw [memWf_iff] at *
  exact ⟨h.1.filter _, fun c hc => h.2 c (List.mem_of_mem_filter hc)⟩

/-- The cells of some bytes: each lies in their range and is not zero, and they rise. -/
theorem cellsOf_form (bs : List Byte) : ∀ a, MemForm (cellsOf a bs) ∧ ∀ c ∈ cellsOf a bs, a ≤ c.1 ∧ c.1 < a + bs.length := by
  induction bs with
  | nil => intro a; simp [cellsOf, MemForm]
  | cons b bs ih =>
    intro a
    obtain ⟨⟨hp, hz⟩, hr⟩ := ih (a + 1)
    unfold cellsOf
    split
    · refine ⟨⟨hp, hz⟩, fun c hc => ?_⟩
      have := hr c hc
      simp only [List.length_cons]; omega
    · rename_i hb
      refine ⟨⟨List.pairwise_cons.2 ⟨fun c hc => ?_, hp⟩, ?_⟩, ?_⟩
      · have := hr c hc
        show a < c.1
        omega
      · intro c hc
        rcases List.mem_cons.1 hc with rfl | hc
        · exact hb
        · exact hz c hc
      · intro c hc
        rcases List.mem_cons.1 hc with rfl | hc
        · simp
        · have := hr c hc
          simp only [List.length_cons]; omega

/-- A write keeps the form. -/
theorem memWf_memWrite (m : List Cell) (a : Nat) (bs : List Byte) (h : memWf m = true) : memWf (memWrite m a bs) = true := by
  rw [memWf_iff] at *
  obtain ⟨⟨hp, hz⟩, hr⟩ := cellsOf_form bs a
  unfold memWrite
  refine ⟨?_, ?_⟩
  · rw [List.pairwise_append, List.pairwise_append]
    refine ⟨⟨h.1.filter _, hp, ?_⟩, h.1.filter _, ?_⟩
    · intro c hc d hd
      have h1 : c.1 < a := by simpa using (List.mem_filter.1 hc).2
      have := hr d hd
      omega
    · intro c hc d hd
      have h2 : a + bs.length ≤ d.1 := by simpa using (List.mem_filter.1 hd).2
      rcases List.mem_append.1 hc with hc | hc
      · have h1 : c.1 < a := by simpa using (List.mem_filter.1 hc).2
        omega
      · have := hr c hc
        omega
  · intro c hc
    rcases List.mem_append.1 hc with hc | hc
    · rcases List.mem_append.1 hc with hc | hc
      · exact h.2 c (List.mem_of_mem_filter hc)
      · exact hz c hc
    · exact h.2 c (List.mem_of_mem_filter hc)

/-- Zeroing a range keeps the form. -/
theorem memWf_memZero (m : List Cell) (a n : Nat) (h : memWf m = true) : memWf (memZero m a n) = true := memWf_filter _ h

/-! ## A byte read after a write -/

theorem find_cellsOf_out (bs : List Byte) : ∀ a x, (x < a ∨ a + bs.length ≤ x) → (cellsOf a bs).find? (·.1 == x) = none := by
  intro a x h
  rw [List.find?_eq_none]
  intro c hc
  have := (cellsOf_form bs a).2 c hc
  simp; omega

theorem find_cellsOf_in (bs : List Byte) : ∀ a i (h : i < bs.length),
    (((cellsOf a bs).find? (·.1 == a + i)).map (·.2)).getD 0 = bs[i] := by
  induction bs with
  | nil => intro a i h; simp at h
  | cons b bs ih =>
    intro a i h
    unfold cellsOf
    cases i with
    | zero =>
      split
      · rename_i hb
        rw [find_cellsOf_out bs (a + 1) (a + 0) (by omega)]
        simp [hb]
      · simp
    | succ j =>
      have hj : j < bs.length := by simpa using h
      have e : a + (j + 1) = (a + 1) + j := by omega
      split
      · rw [e]; simpa using ih (a + 1) j hj
      · rw [List.find?_cons_of_neg (by simp), e]
        simpa using ih (a + 1) j hj

theorem find_filter_keep (p : Cell → Bool) (m : List Cell) (x : Nat) (hp : ∀ c : Cell, c.1 = x → p c = true) :
    (m.filter p).find? (·.1 == x) = m.find? (·.1 == x) := by
  rw [List.find?_filter]
  congr 1
  funext c
  by_cases h : c.1 = x
  · simp [h, hp c h]
  · simp [h]

theorem find_filter_drop (p : Cell → Bool) (m : List Cell) (x : Nat) (hp : ∀ c : Cell, c.1 = x → p c = false) :
    (m.filter p).find? (·.1 == x) = none := by
  rw [List.find?_eq_none]
  intro c hc
  by_cases h : c.1 = x
  · have := (List.mem_filter.1 hc).2
    simp [hp c h] at this
  · simp [h]

/-- Every byte outside a write reads as before. -/
theorem memByte_memWrite_ne (m : List Cell) (a : Nat) (bs : List Byte) (x : Nat) (h : x < a ∨ a + bs.length ≤ x) :
    memByte (memWrite m a bs) x = memByte m x := by
  unfold memByte memWrite
  rw [List.find?_append, List.find?_append, find_cellsOf_out bs a x h]
  rcases h with h | h
  · rw [find_filter_keep _ m x (fun c hc => by simp; omega), find_filter_drop _ m x (fun c hc => by simp; omega)]
    simp
  · rw [find_filter_drop _ m x (fun c hc => by simp; omega), find_filter_keep _ m x (fun c hc => by simp; omega)]
    simp

/-- A byte of a write reads as written. -/
theorem memByte_memWrite_eq (m : List Cell) (a : Nat) (bs : List Byte) (i : Nat) (h : i < bs.length) :
    memByte (memWrite m a bs) (a + i) = bs[i] := by
  unfold memByte memWrite
  rw [List.find?_append, List.find?_append, find_filter_drop _ m (a + i) (fun c hc => by simp; omega),
    find_filter_drop _ m (a + i) (fun c hc => by simp; omega)]
  simpa using find_cellsOf_in bs a i h

/-- A zeroed range reads as zero, and every byte outside it as before. -/
theorem memByte_memZero (m : List Cell) (a n x : Nat) :
    memByte (memZero m a n) x = if a ≤ x ∧ x < a + n then 0 else memByte m x := by
  unfold memByte memZero
  split
  · rw [find_filter_drop _ m x (fun c hc => by simp; omega)]; rfl
  · rw [find_filter_keep _ m x (fun c hc => by simp; omega)]

/-! ## A range read -/

theorem fillBytes_length (n : Nat) : ∀ a m, (fillBytes n a m).length = n := by
  induction n with
  | zero => intro a m; simp [fillBytes]
  | succ n ih =>
    intro a m
    cases m with
    | nil => simp [fillBytes, ih]
    | cons c l => unfold fillBytes; split <;> simp [ih]

/-- A read answers as many bytes as it was asked for. -/
theorem memRead_length (m : List Cell) (a n : Nat) : (memRead m a n).length = n := fillBytes_length n a _

theorem fillBytes_get (n : Nat) : ∀ a (m : List Cell), m.Pairwise (fun c d => c.1 < d.1) → (∀ c ∈ m, a ≤ c.1) →
    ∀ i (h : i < n), (fillBytes n a m)[i]'(by rw [fillBytes_length]; exact h) = memByte m (a + i) := by
  induction n with
  | zero => intro a m _ _ i h; omega
  | succ n ih =>
    intro a m hp hl i h
    cases m with
    | nil =>
      cases i with
      | zero => simp [fillBytes, memByte]
      | succ j =>
        have := ih (a + 1) [] (by simp) (by simp) j (by omega)
        simp only [fillBytes, List.getElem_cons_succ, this, memByte]
        simp
    | cons c l =>
      have hc := hl c (by simp)
      have hlt := (List.pairwise_cons.1 hp).1
      by_cases e : c.1 = a
      · have hl' : ∀ d ∈ l, a + 1 ≤ d.1 := fun d hd => by have := hlt d hd; omega
        cases i with
        | zero => simp [fillBytes, e, memByte]
        | succ j =>
          have := ih (a + 1) l (List.pairwise_cons.1 hp).2 hl' j (by omega)
          simp only [fillBytes, e, if_true, List.getElem_cons_succ, this, memByte]
          rw [List.find?_cons_of_neg (by simp; omega)]
          congr 3
          funext d; congr 1; omega
      · have hl' : ∀ d ∈ c :: l, a + 1 ≤ d.1 := by
          intro d hd
          rcases List.mem_cons.1 hd with rfl | hd
          · omega
          · have := hlt d hd; omega
        cases i with
        | zero =>
          simp only [fillBytes, e, if_false, List.getElem_cons_zero, memByte]
          rw [List.find?_eq_none.2]
          · rfl
          · intro d hd; have := hl' d hd; simp; omega
        | succ j =>
          have := ih (a + 1) (c :: l) hp hl' j (by omega)
          simp only [fillBytes, e, if_false, List.getElem_cons_succ, this]
          congr 1; omega

/-- The bytes of a read are the bytes that the memory holds at each address. -/
theorem memRead_get (m : List Cell) (hm : memWf m = true) (a n i : Nat) (h : i < n) :
    (memRead m a n)[i]'(by rw [memRead_length]; exact h) = memByte m (a + i) := by
  have hf := (memWf_iff m).1 hm
  unfold memRead
  rw [fillBytes_get n a _ (hf.1.filter _) (fun c hc => by
    have := (List.mem_filter.1 hc).2; simp at this; exact this.1) i h]
  unfold memByte
  rw [find_filter_keep _ m (a + i) (fun c hc => by simp; omega)]

/-- A read sees the bytes of a write, and the old bytes outside it. -/
theorem memRead_memWrite_same (m : List Cell) (hm : memWf m = true) (a : Nat) (bs : List Byte) :
    memRead (memWrite m a bs) a bs.length = bs := by
  apply List.ext_getElem
  · rw [memRead_length]
  · intro i h1 h2
    rw [memRead_get _ (memWf_memWrite m a bs hm) a bs.length i h2]
    exact memByte_memWrite_eq m a bs i h2

end Sys2Proof.Machine
end

