-- ==== Sys2Proof/Laws/State.lean ====
section
/-! SUPPORT. What the named updates of a core and of the state leave alone, field by field, and what they write. -/
namespace Sys2Proof.Machine

/-! ## A g register written (R23) -/
@[simp] theorem Core.setG_id (c : Core) (r : Reg) (v : Dword) : (c.setG r v).id = c.id := by unfold Core.setG; split <;> rfl
@[simp] theorem Core.setG_act (c : Core) (r : Reg) (v : Dword) : (c.setG r v).act = c.act := by unfold Core.setG; split <;> rfl
@[simp] theorem Core.setG_tiles (c : Core) (r : Reg) (v : Dword) : (c.setG r v).tiles = c.tiles := by unfold Core.setG; split <;> rfl
@[simp] theorem Core.setG_accs (c : Core) (r : Reg) (v : Dword) : (c.setG r v).accs = c.accs := by unfold Core.setG; split <;> rfl
@[simp] theorem Core.setG_cfgs (c : Core) (r : Reg) (v : Dword) : (c.setG r v).cfgs = c.cfgs := by unfold Core.setG; split <;> rfl
@[simp] theorem Core.setG_p (c : Core) (r : Reg) (v : Dword) : (c.setG r v).p = c.p := by unfold Core.setG; split <;> rfl
@[simp] theorem Core.setG_st (c : Core) (r : Reg) (v : Dword) : (c.setG r v).st = c.st := by unfold Core.setG; split <;> rfl
@[simp] theorem Core.setG_pc (c : Core) (r : Reg) (v : Dword) : (c.setG r v).pc = c.pc := by unfold Core.setG; split <;> rfl
@[simp] theorem Core.setG_hm (c : Core) (r : Reg) (v : Dword) : (c.setG r v).hm = c.hm := by unfold Core.setG; split <;> rfl
@[simp] theorem Core.setG_phm (c : Core) (r : Reg) (v : Dword) : (c.setG r v).phm = c.phm := by unfold Core.setG; split <;> rfl
@[simp] theorem Core.setG_det (c : Core) (r : Reg) (v : Dword) : (c.setG r v).det = c.det := by unfold Core.setG; split <;> rfl
@[simp] theorem Core.setG_cause (c : Core) (r : Reg) (v : Dword) : (c.setG r v).cause = c.cause := by unfold Core.setG; split <;> rfl
@[simp] theorem Core.setG_epc (c : Core) (r : Reg) (v : Dword) : (c.setG r v).epc = c.epc := by unfold Core.setG; split <;> rfl
@[simp] theorem Core.setG_tval (c : Core) (r : Reg) (v : Dword) : (c.setG r v).tval = c.tval := by unfold Core.setG; split <;> rfl
@[simp] theorem Core.setG_fflg (c : Core) (r : Reg) (v : Dword) : (c.setG r v).fflg = c.fflg := by unfold Core.setG; split <;> rfl
@[simp] theorem Core.setG_partid (c : Core) (r : Reg) (v : Dword) : (c.setG r v).partid = c.partid := by unfold Core.setG; split <;> rfl
@[simp] theorem Core.setG_phase (c : Core) (r : Reg) (v : Dword) : (c.setG r v).phase = c.phase := by unfold Core.setG; split <;> rfl
@[simp] theorem Core.setG_teamid (c : Core) (r : Reg) (v : Dword) : (c.setG r v).teamid = c.teamid := by unfold Core.setG; split <;> rfl
@[simp] theorem Core.setG_teamsz (c : Core) (r : Reg) (v : Dword) : (c.setG r v).teamsz = c.teamsz := by unfold Core.setG; split <;> rfl
@[simp] theorem Core.setG_seed (c : Core) (r : Reg) (v : Dword) : (c.setG r v).seed = c.seed := by unfold Core.setG; split <;> rfl
@[simp] theorem Core.setG_iterlim (c : Core) (r : Reg) (v : Dword) : (c.setG r v).iterlim = c.iterlim := by unfold Core.setG; split <;> rfl
@[simp] theorem Core.setG_bankmode (c : Core) (r : Reg) (v : Dword) : (c.setG r v).bankmode = c.bankmode := by unfold Core.setG; split <;> rfl
@[simp] theorem Core.setG_lmDn (c : Core) (r : Reg) (v : Dword) : (c.setG r v).lmDn = c.lmDn := by unfold Core.setG; split <;> rfl
@[simp] theorem Core.setG_lmUp (c : Core) (r : Reg) (v : Dword) : (c.setG r v).lmUp = c.lmUp := by unfold Core.setG; split <;> rfl
@[simp] theorem Core.setG_msDn (c : Core) (r : Reg) (v : Dword) : (c.setG r v).msDn = c.msDn := by unfold Core.setG; split <;> rfl
@[simp] theorem Core.setG_msUp (c : Core) (r : Reg) (v : Dword) : (c.setG r v).msUp = c.msUp := by unfold Core.setG; split <;> rfl
@[simp] theorem Core.setG_lq (c : Core) (r : Reg) (v : Dword) : (c.setG r v).lq = c.lq := by unfold Core.setG; split <;> rfl
@[simp] theorem Core.setG_mq (c : Core) (r : Reg) (v : Dword) : (c.setG r v).mq = c.mq := by unfold Core.setG; split <;> rfl
@[simp] theorem Core.setG_sq (c : Core) (r : Reg) (v : Dword) : (c.setG r v).sq = c.sq := by unfold Core.setG; split <;> rfl
@[simp] theorem Core.setG_held (c : Core) (r : Reg) (v : Dword) : (c.setG r v).held = c.held := by unfold Core.setG; split <;> rfl
@[simp] theorem Core.setG_pins (c : Core) (r : Reg) (v : Dword) : (c.setG r v).pins = c.pins := by unfold Core.setG; split <;> rfl
@[simp] theorem Core.setG_watch (c : Core) (r : Reg) (v : Dword) : (c.setG r v).watch = c.watch := by unfold Core.setG; split <;> rfl
@[simp] theorem Core.setG_loops (c : Core) (r : Reg) (v : Dword) : (c.setG r v).loops = c.loops := by unfold Core.setG; split <;> rfl
@[simp] theorem Core.setG_record (c : Core) (r : Reg) (v : Dword) : (c.setG r v).record = c.record := by unfold Core.setG; split <;> rfl
@[simp] theorem Core.setG_origin (c : Core) (r : Reg) (v : Dword) : (c.setG r v).origin = c.origin := by unfold Core.setG; split <;> rfl
@[simp] theorem Core.setG_inst (c : Core) (r : Reg) (v : Dword) : (c.setG r v).inst = c.inst := by unfold Core.setG; split <;> rfl
@[simp] theorem Core.setG_arrivals (c : Core) (r : Reg) (v : Dword) : (c.setG r v).arrivals = c.arrivals := by unfold Core.setG; split <;> rfl
@[simp] theorem Core.setG_waits (c : Core) (r : Reg) (v : Dword) : (c.setG r v).waits = c.waits := by unfold Core.setG; split <;> rfl
@[simp] theorem Core.setG_latchId (c : Core) (r : Reg) (v : Dword) : (c.setG r v).latchId = c.latchId := by unfold Core.setG; split <;> rfl
@[simp] theorem Core.setG_latchCh (c : Core) (r : Reg) (v : Dword) : (c.setG r v).latchCh = c.latchCh := by unfold Core.setG; split <;> rfl
@[simp] theorem Core.setG_seqctr (c : Core) (r : Reg) (v : Dword) : (c.setG r v).seqctr = c.seqctr := by unfold Core.setG; split <;> rfl
@[simp] theorem Core.setG_srS (c : Core) (r : Reg) (v : Dword) : (c.setG r v).srS = c.srS := by unfold Core.setG; split <;> rfl
@[simp] theorem Core.setG_srN (c : Core) (r : Reg) (v : Dword) : (c.setG r v).srN = c.srN := by unfold Core.setG; split <;> rfl
@[simp] theorem Core.setG_fifo (c : Core) (r : Reg) (v : Dword) : (c.setG r v).fifo = c.fifo := by unfold Core.setG; split <;> rfl
@[simp] theorem Core.setG_counters (c : Core) (r : Reg) (v : Dword) : (c.setG r v).counters = c.counters := by unfold Core.setG; split <;> rfl
@[simp] theorem Core.setG_commit (c : Core) (r : Reg) (v : Dword) : (c.setG r v).commit = c.commit := by unfold Core.setG; split <;> rfl
@[simp] theorem Core.setG_marker (c : Core) (r : Reg) (v : Dword) : (c.setG r v).marker = c.marker := by unfold Core.setG; split <;> rfl
@[simp] theorem Core.setG_retained (c : Core) (r : Reg) (v : Dword) : (c.setG r v).retained = c.retained := by unfold Core.setG; split <;> rfl
@[simp] theorem Core.setG_restored (c : Core) (r : Reg) (v : Dword) : (c.setG r v).restored = c.restored := by unfold Core.setG; split <;> rfl
@[simp] theorem Core.setG_dirtyAcc (c : Core) (r : Reg) (v : Dword) : (c.setG r v).dirtyAcc = c.dirtyAcc := by unfold Core.setG; split <;> rfl
@[simp] theorem Core.setG_builtAcc (c : Core) (r : Reg) (v : Dword) : (c.setG r v).builtAcc = c.builtAcc := by unfold Core.setG; split <;> rfl
@[simp] theorem Core.setG_check (c : Core) (r : Reg) (v : Dword) : (c.setG r v).check = c.check := by unfold Core.setG; split <;> rfl
@[simp] theorem Core.setG_injArray (c : Core) (r : Reg) (v : Dword) : (c.setG r v).injArray = c.injArray := by unfold Core.setG; split <;> rfl
@[simp] theorem Core.setG_injClap (c : Core) (r : Reg) (v : Dword) : (c.setG r v).injClap = c.injClap := by unfold Core.setG; split <;> rfl
@[simp] theorem Core.setG_onlyPart (c : Core) (r : Reg) (v : Dword) : (c.setG r v).onlyPart = c.onlyPart := by unfold Core.setG; split <;> rfl
@[simp] theorem Core.setG_qtrap (c : Core) (r : Reg) (v : Dword) : (c.setG r v).qtrap = c.qtrap := by unfold Core.setG; split <;> rfl
@[simp] theorem Core.setG_stall (c : Core) (r : Reg) (v : Dword) : (c.setG r v).stall = c.stall := by unfold Core.setG; split <;> rfl
@[simp] theorem Core.setG_ctx (c : Core) (r : Reg) (v : Dword) : (c.setG r v).ctx = c.ctx := by unfold Core.setG; split <;> rfl
@[simp] theorem Core.setG_asleep (c : Core) (r : Reg) (v : Dword) : (c.setG r v).asleep = c.asleep := by unfold Core.setG; split <;> rfl
@[simp] theorem Core.setG_deadline (c : Core) (r : Reg) (v : Dword) : (c.setG r v).deadline = c.deadline := by unfold Core.setG; split <;> rfl
@[simp] theorem Core.setG_timedOut (c : Core) (r : Reg) (v : Dword) : (c.setG r v).timedOut = c.timedOut := by unfold Core.setG; split <;> rfl
@[simp] theorem Core.setG_woken (c : Core) (r : Reg) (v : Dword) : (c.setG r v).woken = c.woken := by unfold Core.setG; split <;> rfl
@[simp] theorem Core.setG_waitCmd (c : Core) (r : Reg) (v : Dword) : (c.setG r v).waitCmd = c.waitCmd := by unfold Core.setG; split <;> rfl
@[simp] theorem Core.setG_cmdDone (c : Core) (r : Reg) (v : Dword) : (c.setG r v).cmdDone = c.cmdDone := by unfold Core.setG; split <;> rfl
@[simp] theorem Core.setG_performed (c : Core) (r : Reg) (v : Dword) : (c.setG r v).performed = c.performed := by unfold Core.setG; split <;> rfl
@[simp] theorem Core.setG_replayBase (c : Core) (r : Reg) (v : Dword) : (c.setG r v).replayBase = c.replayBase := by unfold Core.setG; split <;> rfl
@[simp] theorem Core.setG_objWaits (c : Core) (r : Reg) (v : Dword) : (c.setG r v).objWaits = c.objWaits := by unfold Core.setG; split <;> rfl
/-! ## Flags ORed into fflg (R36) -/
@[simp] theorem Core.orFlags_id (c : Core) (x : BitVec 6) : (c.orFlags x).id = c.id := rfl
@[simp] theorem Core.orFlags_act (c : Core) (x : BitVec 6) : (c.orFlags x).act = c.act := rfl
@[simp] theorem Core.orFlags_g (c : Core) (x : BitVec 6) : (c.orFlags x).g = c.g := rfl
@[simp] theorem Core.orFlags_tiles (c : Core) (x : BitVec 6) : (c.orFlags x).tiles = c.tiles := rfl
@[simp] theorem Core.orFlags_accs (c : Core) (x : BitVec 6) : (c.orFlags x).accs = c.accs := rfl
@[simp] theorem Core.orFlags_cfgs (c : Core) (x : BitVec 6) : (c.orFlags x).cfgs = c.cfgs := rfl
@[simp] theorem Core.orFlags_p (c : Core) (x : BitVec 6) : (c.orFlags x).p = c.p := rfl
@[simp] theorem Core.orFlags_st (c : Core) (x : BitVec 6) : (c.orFlags x).st = c.st := rfl
@[simp] theorem Core.orFlags_pc (c : Core) (x : BitVec 6) : (c.orFlags x).pc = c.pc := rfl
@[simp] theorem Core.orFlags_hm (c : Core) (x : BitVec 6) : (c.orFlags x).hm = c.hm := rfl
@[simp] theorem Core.orFlags_phm (c : Core) (x : BitVec 6) : (c.orFlags x).phm = c.phm := rfl
@[simp] theorem Core.orFlags_det (c : Core) (x : BitVec 6) : (c.orFlags x).det = c.det := rfl
@[simp] theorem Core.orFlags_cause (c : Core) (x : BitVec 6) : (c.orFlags x).cause = c.cause := rfl
@[simp] theorem Core.orFlags_epc (c : Core) (x : BitVec 6) : (c.orFlags x).epc = c.epc := rfl
@[simp] theorem Core.orFlags_tval (c : Core) (x : BitVec 6) : (c.orFlags x).tval = c.tval := rfl
@[simp] theorem Core.orFlags_partid (c : Core) (x : BitVec 6) : (c.orFlags x).partid = c.partid := rfl
@[simp] theorem Core.orFlags_phase (c : Core) (x : BitVec 6) : (c.orFlags x).phase = c.phase := rfl
@[simp] theorem Core.orFlags_teamid (c : Core) (x : BitVec 6) : (c.orFlags x).teamid = c.teamid := rfl
@[simp] theorem Core.orFlags_teamsz (c : Core) (x : BitVec 6) : (c.orFlags x).teamsz = c.teamsz := rfl
@[simp] theorem Core.orFlags_seed (c : Core) (x : BitVec 6) : (c.orFlags x).seed = c.seed := rfl
@[simp] theorem Core.orFlags_iterlim (c : Core) (x : BitVec 6) : (c.orFlags x).iterlim = c.iterlim := rfl
@[simp] theorem Core.orFlags_bankmode (c : Core) (x : BitVec 6) : (c.orFlags x).bankmode = c.bankmode := rfl
@[simp] theorem Core.orFlags_lmDn (c : Core) (x : BitVec 6) : (c.orFlags x).lmDn = c.lmDn := rfl
@[simp] theorem Core.orFlags_lmUp (c : Core) (x : BitVec 6) : (c.orFlags x).lmUp = c.lmUp := rfl
@[simp] theorem Core.orFlags_msDn (c : Core) (x : BitVec 6) : (c.orFlags x).msDn = c.msDn := rfl
@[simp] theorem Core.orFlags_msUp (c : Core) (x : BitVec 6) : (c.orFlags x).msUp = c.msUp := rfl
@[simp] theorem Core.orFlags_lq (c : Core) (x : BitVec 6) : (c.orFlags x).lq = c.lq := rfl
@[simp] theorem Core.orFlags_mq (c : Core) (x : BitVec 6) : (c.orFlags x).mq = c.mq := rfl
@[simp] theorem Core.orFlags_sq (c : Core) (x : BitVec 6) : (c.orFlags x).sq = c.sq := rfl
@[simp] theorem Core.orFlags_held (c : Core) (x : BitVec 6) : (c.orFlags x).held = c.held := rfl
@[simp] theorem Core.orFlags_pins (c : Core) (x : BitVec 6) : (c.orFlags x).pins = c.pins := rfl
@[simp] theorem Core.orFlags_watch (c : Core) (x : BitVec 6) : (c.orFlags x).watch = c.watch := rfl
@[simp] theorem Core.orFlags_loops (c : Core) (x : BitVec 6) : (c.orFlags x).loops = c.loops := rfl
@[simp] theorem Core.orFlags_record (c : Core) (x : BitVec 6) : (c.orFlags x).record = c.record := rfl
@[simp] theorem Core.orFlags_origin (c : Core) (x : BitVec 6) : (c.orFlags x).origin = c.origin := rfl
@[simp] theorem Core.orFlags_inst (c : Core) (x : BitVec 6) : (c.orFlags x).inst = c.inst := rfl
@[simp] theorem Core.orFlags_arrivals (c : Core) (x : BitVec 6) : (c.orFlags x).arrivals = c.arrivals := rfl
@[simp] theorem Core.orFlags_waits (c : Core) (x : BitVec 6) : (c.orFlags x).waits = c.waits := rfl
@[simp] theorem Core.orFlags_latchId (c : Core) (x : BitVec 6) : (c.orFlags x).latchId = c.latchId := rfl
@[simp] theorem Core.orFlags_latchCh (c : Core) (x : BitVec 6) : (c.orFlags x).latchCh = c.latchCh := rfl
@[simp] theorem Core.orFlags_seqctr (c : Core) (x : BitVec 6) : (c.orFlags x).seqctr = c.seqctr := rfl
@[simp] theorem Core.orFlags_srS (c : Core) (x : BitVec 6) : (c.orFlags x).srS = c.srS := rfl
@[simp] theorem Core.orFlags_srN (c : Core) (x : BitVec 6) : (c.orFlags x).srN = c.srN := rfl
@[simp] theorem Core.orFlags_fifo (c : Core) (x : BitVec 6) : (c.orFlags x).fifo = c.fifo := rfl
@[simp] theorem Core.orFlags_counters (c : Core) (x : BitVec 6) : (c.orFlags x).counters = c.counters := rfl
@[simp] theorem Core.orFlags_commit (c : Core) (x : BitVec 6) : (c.orFlags x).commit = c.commit := rfl
@[simp] theorem Core.orFlags_marker (c : Core) (x : BitVec 6) : (c.orFlags x).marker = c.marker := rfl
@[simp] theorem Core.orFlags_retained (c : Core) (x : BitVec 6) : (c.orFlags x).retained = c.retained := rfl
@[simp] theorem Core.orFlags_restored (c : Core) (x : BitVec 6) : (c.orFlags x).restored = c.restored := rfl
@[simp] theorem Core.orFlags_dirtyAcc (c : Core) (x : BitVec 6) : (c.orFlags x).dirtyAcc = c.dirtyAcc := rfl
@[simp] theorem Core.orFlags_builtAcc (c : Core) (x : BitVec 6) : (c.orFlags x).builtAcc = c.builtAcc := rfl
@[simp] theorem Core.orFlags_check (c : Core) (x : BitVec 6) : (c.orFlags x).check = c.check := rfl
@[simp] theorem Core.orFlags_injArray (c : Core) (x : BitVec 6) : (c.orFlags x).injArray = c.injArray := rfl
@[simp] theorem Core.orFlags_injClap (c : Core) (x : BitVec 6) : (c.orFlags x).injClap = c.injClap := rfl
@[simp] theorem Core.orFlags_onlyPart (c : Core) (x : BitVec 6) : (c.orFlags x).onlyPart = c.onlyPart := rfl
@[simp] theorem Core.orFlags_qtrap (c : Core) (x : BitVec 6) : (c.orFlags x).qtrap = c.qtrap := rfl
@[simp] theorem Core.orFlags_stall (c : Core) (x : BitVec 6) : (c.orFlags x).stall = c.stall := rfl
@[simp] theorem Core.orFlags_ctx (c : Core) (x : BitVec 6) : (c.orFlags x).ctx = c.ctx := rfl
@[simp] theorem Core.orFlags_asleep (c : Core) (x : BitVec 6) : (c.orFlags x).asleep = c.asleep := rfl
@[simp] theorem Core.orFlags_deadline (c : Core) (x : BitVec 6) : (c.orFlags x).deadline = c.deadline := rfl
@[simp] theorem Core.orFlags_timedOut (c : Core) (x : BitVec 6) : (c.orFlags x).timedOut = c.timedOut := rfl
@[simp] theorem Core.orFlags_woken (c : Core) (x : BitVec 6) : (c.orFlags x).woken = c.woken := rfl
@[simp] theorem Core.orFlags_waitCmd (c : Core) (x : BitVec 6) : (c.orFlags x).waitCmd = c.waitCmd := rfl
@[simp] theorem Core.orFlags_cmdDone (c : Core) (x : BitVec 6) : (c.orFlags x).cmdDone = c.cmdDone := rfl
@[simp] theorem Core.orFlags_performed (c : Core) (x : BitVec 6) : (c.orFlags x).performed = c.performed := rfl
@[simp] theorem Core.orFlags_replayBase (c : Core) (x : BitVec 6) : (c.orFlags x).replayBase = c.replayBase := rfl
@[simp] theorem Core.orFlags_objWaits (c : Core) (x : BitVec 6) : (c.orFlags x).objWaits = c.objWaits := rfl
/-! ## The end of a word (R73, R338) -/
@[simp] theorem Core.after_id (c : Core) (n : Nat) (w : Flow) : (c.after n w).id = c.id := by cases w <;> rfl
@[simp] theorem Core.after_act (c : Core) (n : Nat) (w : Flow) : (c.after n w).act = c.act := by cases w <;> rfl
@[simp] theorem Core.after_g (c : Core) (n : Nat) (w : Flow) : (c.after n w).g = c.g := by cases w <;> rfl
@[simp] theorem Core.after_tiles (c : Core) (n : Nat) (w : Flow) : (c.after n w).tiles = c.tiles := by cases w <;> rfl
@[simp] theorem Core.after_accs (c : Core) (n : Nat) (w : Flow) : (c.after n w).accs = c.accs := by cases w <;> rfl
@[simp] theorem Core.after_cfgs (c : Core) (n : Nat) (w : Flow) : (c.after n w).cfgs = c.cfgs := by cases w <;> rfl
@[simp] theorem Core.after_p (c : Core) (n : Nat) (w : Flow) : (c.after n w).p = c.p := by cases w <;> rfl
@[simp] theorem Core.after_st (c : Core) (n : Nat) (w : Flow) : (c.after n w).st = c.st := by cases w <;> rfl
@[simp] theorem Core.after_hm (c : Core) (n : Nat) (w : Flow) : (c.after n w).hm = c.hm := by cases w <;> rfl
@[simp] theorem Core.after_phm (c : Core) (n : Nat) (w : Flow) : (c.after n w).phm = c.phm := by cases w <;> rfl
@[simp] theorem Core.after_det (c : Core) (n : Nat) (w : Flow) : (c.after n w).det = c.det := by cases w <;> rfl
@[simp] theorem Core.after_cause (c : Core) (n : Nat) (w : Flow) : (c.after n w).cause = c.cause := by cases w <;> rfl
@[simp] theorem Core.after_epc (c : Core) (n : Nat) (w : Flow) : (c.after n w).epc = c.epc := by cases w <;> rfl
@[simp] theorem Core.after_tval (c : Core) (n : Nat) (w : Flow) : (c.after n w).tval = c.tval := by cases w <;> rfl
@[simp] theorem Core.after_fflg (c : Core) (n : Nat) (w : Flow) : (c.after n w).fflg = c.fflg := by cases w <;> rfl
@[simp] theorem Core.after_partid (c : Core) (n : Nat) (w : Flow) : (c.after n w).partid = c.partid := by cases w <;> rfl
@[simp] theorem Core.after_phase (c : Core) (n : Nat) (w : Flow) : (c.after n w).phase = c.phase := by cases w <;> rfl
@[simp] theorem Core.after_teamid (c : Core) (n : Nat) (w : Flow) : (c.after n w).teamid = c.teamid := by cases w <;> rfl
@[simp] theorem Core.after_teamsz (c : Core) (n : Nat) (w : Flow) : (c.after n w).teamsz = c.teamsz := by cases w <;> rfl
@[simp] theorem Core.after_seed (c : Core) (n : Nat) (w : Flow) : (c.after n w).seed = c.seed := by cases w <;> rfl
@[simp] theorem Core.after_iterlim (c : Core) (n : Nat) (w : Flow) : (c.after n w).iterlim = c.iterlim := by cases w <;> rfl
@[simp] theorem Core.after_bankmode (c : Core) (n : Nat) (w : Flow) : (c.after n w).bankmode = c.bankmode := by cases w <;> rfl
@[simp] theorem Core.after_lmDn (c : Core) (n : Nat) (w : Flow) : (c.after n w).lmDn = c.lmDn := by cases w <;> rfl
@[simp] theorem Core.after_lmUp (c : Core) (n : Nat) (w : Flow) : (c.after n w).lmUp = c.lmUp := by cases w <;> rfl
@[simp] theorem Core.after_msDn (c : Core) (n : Nat) (w : Flow) : (c.after n w).msDn = c.msDn := by cases w <;> rfl
@[simp] theorem Core.after_msUp (c : Core) (n : Nat) (w : Flow) : (c.after n w).msUp = c.msUp := by cases w <;> rfl
@[simp] theorem Core.after_lq (c : Core) (n : Nat) (w : Flow) : (c.after n w).lq = c.lq := by cases w <;> rfl
@[simp] theorem Core.after_mq (c : Core) (n : Nat) (w : Flow) : (c.after n w).mq = c.mq := by cases w <;> rfl
@[simp] theorem Core.after_sq (c : Core) (n : Nat) (w : Flow) : (c.after n w).sq = c.sq := by cases w <;> rfl
@[simp] theorem Core.after_held (c : Core) (n : Nat) (w : Flow) : (c.after n w).held = c.held := by cases w <;> rfl
@[simp] theorem Core.after_pins (c : Core) (n : Nat) (w : Flow) : (c.after n w).pins = c.pins := by cases w <;> rfl
@[simp] theorem Core.after_watch (c : Core) (n : Nat) (w : Flow) : (c.after n w).watch = c.watch := by cases w <;> rfl
@[simp] theorem Core.after_loops (c : Core) (n : Nat) (w : Flow) : (c.after n w).loops = c.loops := by cases w <;> rfl
@[simp] theorem Core.after_record (c : Core) (n : Nat) (w : Flow) : (c.after n w).record = c.record := by cases w <;> rfl
@[simp] theorem Core.after_origin (c : Core) (n : Nat) (w : Flow) : (c.after n w).origin = c.origin := by cases w <;> rfl
@[simp] theorem Core.after_inst (c : Core) (n : Nat) (w : Flow) : (c.after n w).inst = c.inst := by cases w <;> rfl
@[simp] theorem Core.after_arrivals (c : Core) (n : Nat) (w : Flow) : (c.after n w).arrivals = c.arrivals := by cases w <;> rfl
@[simp] theorem Core.after_waits (c : Core) (n : Nat) (w : Flow) : (c.after n w).waits = c.waits := by cases w <;> rfl
@[simp] theorem Core.after_latchId (c : Core) (n : Nat) (w : Flow) : (c.after n w).latchId = c.latchId := by cases w <;> rfl
@[simp] theorem Core.after_latchCh (c : Core) (n : Nat) (w : Flow) : (c.after n w).latchCh = c.latchCh := by cases w <;> rfl
@[simp] theorem Core.after_seqctr (c : Core) (n : Nat) (w : Flow) : (c.after n w).seqctr = c.seqctr := by cases w <;> rfl
@[simp] theorem Core.after_srS (c : Core) (n : Nat) (w : Flow) : (c.after n w).srS = c.srS := by cases w <;> rfl
@[simp] theorem Core.after_srN (c : Core) (n : Nat) (w : Flow) : (c.after n w).srN = c.srN := by cases w <;> rfl
@[simp] theorem Core.after_fifo (c : Core) (n : Nat) (w : Flow) : (c.after n w).fifo = c.fifo := by cases w <;> rfl
@[simp] theorem Core.after_commit (c : Core) (n : Nat) (w : Flow) : (c.after n w).commit = c.commit := by cases w <;> rfl
@[simp] theorem Core.after_marker (c : Core) (n : Nat) (w : Flow) : (c.after n w).marker = c.marker := by cases w <;> rfl
@[simp] theorem Core.after_retained (c : Core) (n : Nat) (w : Flow) : (c.after n w).retained = c.retained := by cases w <;> rfl
@[simp] theorem Core.after_restored (c : Core) (n : Nat) (w : Flow) : (c.after n w).restored = c.restored := by cases w <;> rfl
@[simp] theorem Core.after_dirtyAcc (c : Core) (n : Nat) (w : Flow) : (c.after n w).dirtyAcc = c.dirtyAcc := by cases w <;> rfl
@[simp] theorem Core.after_builtAcc (c : Core) (n : Nat) (w : Flow) : (c.after n w).builtAcc = c.builtAcc := by cases w <;> rfl
@[simp] theorem Core.after_check (c : Core) (n : Nat) (w : Flow) : (c.after n w).check = c.check := by cases w <;> rfl
@[simp] theorem Core.after_injArray (c : Core) (n : Nat) (w : Flow) : (c.after n w).injArray = c.injArray := by cases w <;> rfl
@[simp] theorem Core.after_injClap (c : Core) (n : Nat) (w : Flow) : (c.after n w).injClap = c.injClap := by cases w <;> rfl
@[simp] theorem Core.after_onlyPart (c : Core) (n : Nat) (w : Flow) : (c.after n w).onlyPart = c.onlyPart := by cases w <;> rfl
@[simp] theorem Core.after_qtrap (c : Core) (n : Nat) (w : Flow) : (c.after n w).qtrap = c.qtrap := by cases w <;> rfl
@[simp] theorem Core.after_ctx (c : Core) (n : Nat) (w : Flow) : (c.after n w).ctx = c.ctx := by cases w <;> rfl
@[simp] theorem Core.after_asleep (c : Core) (n : Nat) (w : Flow) : (c.after n w).asleep = c.asleep := by cases w <;> rfl
@[simp] theorem Core.after_deadline (c : Core) (n : Nat) (w : Flow) : (c.after n w).deadline = c.deadline := by cases w <;> rfl
@[simp] theorem Core.after_timedOut (c : Core) (n : Nat) (w : Flow) : (c.after n w).timedOut = c.timedOut := by cases w <;> rfl
@[simp] theorem Core.after_woken (c : Core) (n : Nat) (w : Flow) : (c.after n w).woken = c.woken := by cases w <;> rfl
@[simp] theorem Core.after_waitCmd (c : Core) (n : Nat) (w : Flow) : (c.after n w).waitCmd = c.waitCmd := by cases w <;> rfl
@[simp] theorem Core.after_cmdDone (c : Core) (n : Nat) (w : Flow) : (c.after n w).cmdDone = c.cmdDone := by cases w <;> rfl
@[simp] theorem Core.after_performed (c : Core) (n : Nat) (w : Flow) : (c.after n w).performed = c.performed := by cases w <;> rfl
@[simp] theorem Core.after_replayBase (c : Core) (n : Nat) (w : Flow) : (c.after n w).replayBase = c.replayBase := by cases w <;> rfl
@[simp] theorem Core.after_objWaits (c : Core) (n : Nat) (w : Flow) : (c.after n w).objWaits = c.objWaits := by cases w <;> rfl
/-! ## A partition changed -/
@[simp] theorem State.setPart_core (s : State) (p : BitVec 5) (f : Part → Part) : (s.setPart p f).core = s.core := rfl
@[simp] theorem State.setPart_others (s : State) (p : BitVec 5) (f : Part → Part) : (s.setPart p f).others = s.others := rfl
@[simp] theorem State.setPart_mem (s : State) (p : BitVec 5) (f : Part → Part) : (s.setPart p f).mem = s.mem := rfl
@[simp] theorem State.setPart_bank (s : State) (p : BitVec 5) (f : Part → Part) : (s.setPart p f).bank = s.bank := rfl
@[simp] theorem State.setPart_code (s : State) (p : BitVec 5) (f : Part → Part) : (s.setPart p f).code = s.code := rfl
@[simp] theorem State.setPart_poison (s : State) (p : BitVec 5) (f : Part → Part) : (s.setPart p f).poison = s.poison := rfl
@[simp] theorem State.setPart_bankPoison (s : State) (p : BitVec 5) (f : Part → Part) : (s.setPart p f).bankPoison = s.bankPoison := rfl
@[simp] theorem State.setPart_codePoison (s : State) (p : BitVec 5) (f : Part → Part) : (s.setPart p f).codePoison = s.codePoison := rfl
@[simp] theorem State.setPart_cqs (s : State) (p : BitVec 5) (f : Part → Part) : (s.setPart p f).cqs = s.cqs := rfl
@[simp] theorem State.setPart_selected (s : State) (p : BitVec 5) (f : Part → Part) : (s.setPart p f).selected = s.selected := rfl
@[simp] theorem State.setPart_joins (s : State) (p : BitVec 5) (f : Part → Part) : (s.setPart p f).joins = s.joins := rfl
@[simp] theorem State.setPart_saved (s : State) (p : BitVec 5) (f : Part → Part) : (s.setPart p f).saved = s.saved := rfl
@[simp] theorem State.setPart_ctxs (s : State) (p : BitVec 5) (f : Part → Part) : (s.setPart p f).ctxs = s.ctxs := rfl
@[simp] theorem State.setPart_tags (s : State) (p : BitVec 5) (f : Part → Part) : (s.setPart p f).tags = s.tags := rfl
@[simp] theorem State.setPart_rings (s : State) (p : BitVec 5) (f : Part → Part) : (s.setPart p f).rings = s.rings := rfl
@[simp] theorem State.setPart_events (s : State) (p : BitVec 5) (f : Part → Part) : (s.setPart p f).events = s.events := rfl
@[simp] theorem State.setPart_posts (s : State) (p : BitVec 5) (f : Part → Part) : (s.setPart p f).posts = s.posts := rfl
@[simp] theorem State.setPart_channels (s : State) (p : BitVec 5) (f : Part → Part) : (s.setPart p f).channels = s.channels := rfl
@[simp] theorem State.setPart_regions (s : State) (p : BitVec 5) (f : Part → Part) : (s.setPart p f).regions = s.regions := rfl
@[simp] theorem State.setPart_retain (s : State) (p : BitVec 5) (f : Part → Part) : (s.setPart p f).retain = s.retain := rfl
@[simp] theorem State.setPart_cache (s : State) (p : BitVec 5) (f : Part → Part) : (s.setPart p f).cache = s.cache := rfl
@[simp] theorem State.setPart_trackers (s : State) (p : BitVec 5) (f : Part → Part) : (s.setPart p f).trackers = s.trackers := rfl
@[simp] theorem State.setPart_dintstat (s : State) (p : BitVec 5) (f : Part → Part) : (s.setPart p f).dintstat = s.dintstat := rfl
@[simp] theorem State.setPart_dintmask (s : State) (p : BitVec 5) (f : Part → Part) : (s.setPart p f).dintmask = s.dintmask := rfl
@[simp] theorem State.setPart_log (s : State) (p : BitVec 5) (f : Part → Part) : (s.setPart p f).log = s.log := rfl
@[simp] theorem State.setPart_lgtail (s : State) (p : BitVec 5) (f : Part → Part) : (s.setPart p f).lgtail = s.lgtail := rfl
@[simp] theorem State.setPart_lghead (s : State) (p : BitVec 5) (f : Part → Part) : (s.setPart p f).lghead = s.lghead := rfl
@[simp] theorem State.setPart_lglost (s : State) (p : BitVec 5) (f : Part → Part) : (s.setPart p f).lglost = s.lglost := rfl
@[simp] theorem State.setPart_msix (s : State) (p : BitVec 5) (f : Part → Part) : (s.setPart p f).msix = s.msix := rfl
@[simp] theorem State.setPart_reqRings (s : State) (p : BitVec 5) (f : Part → Part) : (s.setPart p f).reqRings = s.reqRings := rfl
@[simp] theorem State.setPart_conns (s : State) (p : BitVec 5) (f : Part → Part) : (s.setPart p f).conns = s.conns := rfl
@[simp] theorem State.setPart_handed (s : State) (p : BitVec 5) (f : Part → Part) : (s.setPart p f).handed = s.handed := rfl
@[simp] theorem State.setPart_wire (s : State) (p : BitVec 5) (f : Part → Part) : (s.setPart p f).wire = s.wire := rfl
@[simp] theorem State.setPart_eth (s : State) (p : BitVec 5) (f : Part → Part) : (s.setPart p f).eth = s.eth := rfl
@[simp] theorem State.setPart_sampler (s : State) (p : BitVec 5) (f : Part → Part) : (s.setPart p f).sampler = s.sampler := rfl
@[simp] theorem State.setPart_accept (s : State) (p : BitVec 5) (f : Part → Part) : (s.setPart p f).accept = s.accept := rfl
@[simp] theorem State.setPart_checkNum (s : State) (p : BitVec 5) (f : Part → Part) : (s.setPart p f).checkNum = s.checkNum := rfl
@[simp] theorem State.setPart_experts (s : State) (p : BitVec 5) (f : Part → Part) : (s.setPart p f).experts = s.experts := rfl
@[simp] theorem State.setPart_prefetch (s : State) (p : BitVec 5) (f : Part → Part) : (s.setPart p f).prefetch = s.prefetch := rfl
@[simp] theorem State.setPart_tok (s : State) (p : BitVec 5) (f : Part → Part) : (s.setPart p f).tok = s.tok := rfl
@[simp] theorem State.setPart_dtk (s : State) (p : BitVec 5) (f : Part → Part) : (s.setPart p f).dtk = s.dtk := rfl
@[simp] theorem State.setPart_links (s : State) (p : BitVec 5) (f : Part → Part) : (s.setPart p f).links = s.links := rfl
@[simp] theorem State.setPart_domain (s : State) (p : BitVec 5) (f : Part → Part) : (s.setPart p f).domain = s.domain := rfl
@[simp] theorem State.setPart_inDomain (s : State) (p : BitVec 5) (f : Part → Part) : (s.setPart p f).inDomain = s.inDomain := rfl
@[simp] theorem State.setPart_aperture (s : State) (p : BitVec 5) (f : Part → Part) : (s.setPart p f).aperture = s.aperture := rfl
@[simp] theorem State.setPart_remote (s : State) (p : BitVec 5) (f : Part → Part) : (s.setPart p f).remote = s.remote := rfl
@[simp] theorem State.setPart_applied (s : State) (p : BitVec 5) (f : Part → Part) : (s.setPart p f).applied = s.applied := rfl
@[simp] theorem State.setPart_sentSeq (s : State) (p : BitVec 5) (f : Part → Part) : (s.setPart p f).sentSeq = s.sentSeq := rfl
@[simp] theorem State.setPart_poolUp (s : State) (p : BitVec 5) (f : Part → Part) : (s.setPart p f).poolUp = s.poolUp := rfl
@[simp] theorem State.setPart_pools (s : State) (p : BitVec 5) (f : Part → Part) : (s.setPart p f).pools = s.pools := rfl
@[simp] theorem State.setPart_poolStores (s : State) (p : BitVec 5) (f : Part → Part) : (s.setPart p f).poolStores = s.poolStores := rfl
@[simp] theorem State.setPart_hostUp (s : State) (p : BitVec 5) (f : Part → Part) : (s.setPart p f).hostUp = s.hostUp := rfl
@[simp] theorem State.setPart_hostStores (s : State) (p : BitVec 5) (f : Part → Part) : (s.setPart p f).hostStores = s.hostStores := rfl
@[simp] theorem State.setPart_cps (s : State) (p : BitVec 5) (f : Part → Part) : (s.setPart p f).cps = s.cps := rfl
@[simp] theorem State.setPart_power (s : State) (p : BitVec 5) (f : Part → Part) : (s.setPart p f).power = s.power := rfl
@[simp] theorem State.setPart_ready (s : State) (p : BitVec 5) (f : Part → Part) : (s.setPart p f).ready = s.ready := rfl
@[simp] theorem State.setPart_bootError (s : State) (p : BitVec 5) (f : Part → Part) : (s.setPart p f).bootError = s.bootError := rfl
@[simp] theorem State.setPart_lastReset (s : State) (p : BitVec 5) (f : Part → Part) : (s.setPart p f).lastReset = s.lastReset := rfl
@[simp] theorem State.setPart_clockStep (s : State) (p : BitVec 5) (f : Part → Part) : (s.setPart p f).clockStep = s.clockStep := rfl
@[simp] theorem State.setPart_powerCap (s : State) (p : BitVec 5) (f : Part → Part) : (s.setPart p f).powerCap = s.powerCap := rfl
@[simp] theorem State.setPart_thermal (s : State) (p : BitVec 5) (f : Part → Part) : (s.setPart p f).thermal = s.thermal := rfl
@[simp] theorem State.setPart_fw (s : State) (p : BitVec 5) (f : Part → Part) : (s.setPart p f).fw = s.fw := rfl
@[simp] theorem State.setPart_basoc (s : State) (p : BitVec 5) (f : Part → Part) : (s.setPart p f).basoc = s.basoc := rfl
@[simp] theorem State.setPart_pageWritten (s : State) (p : BitVec 5) (f : Part → Part) : (s.setPart p f).pageWritten = s.pageWritten := rfl
@[simp] theorem State.setPart_pageDigest (s : State) (p : BitVec 5) (f : Part → Part) : (s.setPart p f).pageDigest = s.pageDigest := rfl
@[simp] theorem State.setPart_boots (s : State) (p : BitVec 5) (f : Part → Part) : (s.setPart p f).boots = s.boots := rfl
@[simp] theorem State.setPart_agenda (s : State) (p : BitVec 5) (f : Part → Part) : (s.setPart p f).agenda = s.agenda := rfl
@[simp] theorem State.setPart_eager (s : State) (p : BitVec 5) (f : Part → Part) : (s.setPart p f).eager = s.eager := rfl
@[simp] theorem State.setPart_now (s : State) (p : BitVec 5) (f : Part → Part) : (s.setPart p f).now = s.now := rfl
@[simp] theorem State.setPart_fresh (s : State) (p : BitVec 5) (f : Part → Part) : (s.setPart p f).fresh = s.fresh := rfl
@[simp] theorem State.setPart_nextCtx (s : State) (p : BitVec 5) (f : Part → Part) : (s.setPart p f).nextCtx = s.nextCtx := rfl
@[simp] theorem State.setPart_nextNum (s : State) (p : BitVec 5) (f : Part → Part) : (s.setPart p f).nextNum = s.nextNum := rfl
@[simp] theorem State.setPart_msixTable (s : State) (p : BitVec 5) (f : Part → Part) : (s.setPart p f).msixTable = s.msixTable := rfl
@[simp] theorem State.setPart_peerMem (s : State) (p : BitVec 5) (f : Part → Part) : (s.setPart p f).peerMem = s.peerMem := rfl
@[simp] theorem State.setPart_relayed (s : State) (p : BitVec 5) (f : Part → Part) : (s.setPart p f).relayed = s.relayed := rfl
@[simp] theorem State.setPart_msixPending (s : State) (p : BitVec 5) (f : Part → Part) : (s.setPart p f).msixPending = s.msixPending := rfl
@[simp] theorem State.setPart_arrivals (s : State) (p : BitVec 5) (f : Part → Part) : (s.setPart p f).arrivals = s.arrivals := rfl
@[simp] theorem State.setPart_acks (s : State) (p : BitVec 5) (f : Part → Part) : (s.setPart p f).acks = s.acks := rfl
/-! ## A continuation queue changed -/
@[simp] theorem State.modCq_core (s : State) (q : Nat) (f : Cq → Cq) : (s.modCq q f).core = s.core := rfl
@[simp] theorem State.modCq_others (s : State) (q : Nat) (f : Cq → Cq) : (s.modCq q f).others = s.others := rfl
@[simp] theorem State.modCq_mem (s : State) (q : Nat) (f : Cq → Cq) : (s.modCq q f).mem = s.mem := rfl
@[simp] theorem State.modCq_bank (s : State) (q : Nat) (f : Cq → Cq) : (s.modCq q f).bank = s.bank := rfl
@[simp] theorem State.modCq_code (s : State) (q : Nat) (f : Cq → Cq) : (s.modCq q f).code = s.code := rfl
@[simp] theorem State.modCq_poison (s : State) (q : Nat) (f : Cq → Cq) : (s.modCq q f).poison = s.poison := rfl
@[simp] theorem State.modCq_bankPoison (s : State) (q : Nat) (f : Cq → Cq) : (s.modCq q f).bankPoison = s.bankPoison := rfl
@[simp] theorem State.modCq_codePoison (s : State) (q : Nat) (f : Cq → Cq) : (s.modCq q f).codePoison = s.codePoison := rfl
@[simp] theorem State.modCq_selected (s : State) (q : Nat) (f : Cq → Cq) : (s.modCq q f).selected = s.selected := rfl
@[simp] theorem State.modCq_joins (s : State) (q : Nat) (f : Cq → Cq) : (s.modCq q f).joins = s.joins := rfl
@[simp] theorem State.modCq_saved (s : State) (q : Nat) (f : Cq → Cq) : (s.modCq q f).saved = s.saved := rfl
@[simp] theorem State.modCq_ctxs (s : State) (q : Nat) (f : Cq → Cq) : (s.modCq q f).ctxs = s.ctxs := rfl
@[simp] theorem State.modCq_tags (s : State) (q : Nat) (f : Cq → Cq) : (s.modCq q f).tags = s.tags := rfl
@[simp] theorem State.modCq_rings (s : State) (q : Nat) (f : Cq → Cq) : (s.modCq q f).rings = s.rings := rfl
@[simp] theorem State.modCq_events (s : State) (q : Nat) (f : Cq → Cq) : (s.modCq q f).events = s.events := rfl
@[simp] theorem State.modCq_posts (s : State) (q : Nat) (f : Cq → Cq) : (s.modCq q f).posts = s.posts := rfl
@[simp] theorem State.modCq_channels (s : State) (q : Nat) (f : Cq → Cq) : (s.modCq q f).channels = s.channels := rfl
@[simp] theorem State.modCq_regions (s : State) (q : Nat) (f : Cq → Cq) : (s.modCq q f).regions = s.regions := rfl
@[simp] theorem State.modCq_retain (s : State) (q : Nat) (f : Cq → Cq) : (s.modCq q f).retain = s.retain := rfl
@[simp] theorem State.modCq_cache (s : State) (q : Nat) (f : Cq → Cq) : (s.modCq q f).cache = s.cache := rfl
@[simp] theorem State.modCq_trackers (s : State) (q : Nat) (f : Cq → Cq) : (s.modCq q f).trackers = s.trackers := rfl
@[simp] theorem State.modCq_parts (s : State) (q : Nat) (f : Cq → Cq) : (s.modCq q f).parts = s.parts := rfl
@[simp] theorem State.modCq_dintstat (s : State) (q : Nat) (f : Cq → Cq) : (s.modCq q f).dintstat = s.dintstat := rfl
@[simp] theorem State.modCq_dintmask (s : State) (q : Nat) (f : Cq → Cq) : (s.modCq q f).dintmask = s.dintmask := rfl
@[simp] theorem State.modCq_log (s : State) (q : Nat) (f : Cq → Cq) : (s.modCq q f).log = s.log := rfl
@[simp] theorem State.modCq_lgtail (s : State) (q : Nat) (f : Cq → Cq) : (s.modCq q f).lgtail = s.lgtail := rfl
@[simp] theorem State.modCq_lghead (s : State) (q : Nat) (f : Cq → Cq) : (s.modCq q f).lghead = s.lghead := rfl
@[simp] theorem State.modCq_lglost (s : State) (q : Nat) (f : Cq → Cq) : (s.modCq q f).lglost = s.lglost := rfl
@[simp] theorem State.modCq_msix (s : State) (q : Nat) (f : Cq → Cq) : (s.modCq q f).msix = s.msix := rfl
@[simp] theorem State.modCq_reqRings (s : State) (q : Nat) (f : Cq → Cq) : (s.modCq q f).reqRings = s.reqRings := rfl
@[simp] theorem State.modCq_conns (s : State) (q : Nat) (f : Cq → Cq) : (s.modCq q f).conns = s.conns := rfl
@[simp] theorem State.modCq_handed (s : State) (q : Nat) (f : Cq → Cq) : (s.modCq q f).handed = s.handed := rfl
@[simp] theorem State.modCq_wire (s : State) (q : Nat) (f : Cq → Cq) : (s.modCq q f).wire = s.wire := rfl
@[simp] theorem State.modCq_eth (s : State) (q : Nat) (f : Cq → Cq) : (s.modCq q f).eth = s.eth := rfl
@[simp] theorem State.modCq_sampler (s : State) (q : Nat) (f : Cq → Cq) : (s.modCq q f).sampler = s.sampler := rfl
@[simp] theorem State.modCq_accept (s : State) (q : Nat) (f : Cq → Cq) : (s.modCq q f).accept = s.accept := rfl
@[simp] theorem State.modCq_checkNum (s : State) (q : Nat) (f : Cq → Cq) : (s.modCq q f).checkNum = s.checkNum := rfl
@[simp] theorem State.modCq_experts (s : State) (q : Nat) (f : Cq → Cq) : (s.modCq q f).experts = s.experts := rfl
@[simp] theorem State.modCq_prefetch (s : State) (q : Nat) (f : Cq → Cq) : (s.modCq q f).prefetch = s.prefetch := rfl
@[simp] theorem State.modCq_tok (s : State) (q : Nat) (f : Cq → Cq) : (s.modCq q f).tok = s.tok := rfl
@[simp] theorem State.modCq_dtk (s : State) (q : Nat) (f : Cq → Cq) : (s.modCq q f).dtk = s.dtk := rfl
@[simp] theorem State.modCq_links (s : State) (q : Nat) (f : Cq → Cq) : (s.modCq q f).links = s.links := rfl
@[simp] theorem State.modCq_domain (s : State) (q : Nat) (f : Cq → Cq) : (s.modCq q f).domain = s.domain := rfl
@[simp] theorem State.modCq_inDomain (s : State) (q : Nat) (f : Cq → Cq) : (s.modCq q f).inDomain = s.inDomain := rfl
@[simp] theorem State.modCq_aperture (s : State) (q : Nat) (f : Cq → Cq) : (s.modCq q f).aperture = s.aperture := rfl
@[simp] theorem State.modCq_remote (s : State) (q : Nat) (f : Cq → Cq) : (s.modCq q f).remote = s.remote := rfl
@[simp] theorem State.modCq_applied (s : State) (q : Nat) (f : Cq → Cq) : (s.modCq q f).applied = s.applied := rfl
@[simp] theorem State.modCq_sentSeq (s : State) (q : Nat) (f : Cq → Cq) : (s.modCq q f).sentSeq = s.sentSeq := rfl
@[simp] theorem State.modCq_poolUp (s : State) (q : Nat) (f : Cq → Cq) : (s.modCq q f).poolUp = s.poolUp := rfl
@[simp] theorem State.modCq_pools (s : State) (q : Nat) (f : Cq → Cq) : (s.modCq q f).pools = s.pools := rfl
@[simp] theorem State.modCq_poolStores (s : State) (q : Nat) (f : Cq → Cq) : (s.modCq q f).poolStores = s.poolStores := rfl
@[simp] theorem State.modCq_hostUp (s : State) (q : Nat) (f : Cq → Cq) : (s.modCq q f).hostUp = s.hostUp := rfl
@[simp] theorem State.modCq_hostStores (s : State) (q : Nat) (f : Cq → Cq) : (s.modCq q f).hostStores = s.hostStores := rfl
@[simp] theorem State.modCq_cps (s : State) (q : Nat) (f : Cq → Cq) : (s.modCq q f).cps = s.cps := rfl
@[simp] theorem State.modCq_power (s : State) (q : Nat) (f : Cq → Cq) : (s.modCq q f).power = s.power := rfl
@[simp] theorem State.modCq_ready (s : State) (q : Nat) (f : Cq → Cq) : (s.modCq q f).ready = s.ready := rfl
@[simp] theorem State.modCq_bootError (s : State) (q : Nat) (f : Cq → Cq) : (s.modCq q f).bootError = s.bootError := rfl
@[simp] theorem State.modCq_lastReset (s : State) (q : Nat) (f : Cq → Cq) : (s.modCq q f).lastReset = s.lastReset := rfl
@[simp] theorem State.modCq_clockStep (s : State) (q : Nat) (f : Cq → Cq) : (s.modCq q f).clockStep = s.clockStep := rfl
@[simp] theorem State.modCq_powerCap (s : State) (q : Nat) (f : Cq → Cq) : (s.modCq q f).powerCap = s.powerCap := rfl
@[simp] theorem State.modCq_thermal (s : State) (q : Nat) (f : Cq → Cq) : (s.modCq q f).thermal = s.thermal := rfl
@[simp] theorem State.modCq_fw (s : State) (q : Nat) (f : Cq → Cq) : (s.modCq q f).fw = s.fw := rfl
@[simp] theorem State.modCq_basoc (s : State) (q : Nat) (f : Cq → Cq) : (s.modCq q f).basoc = s.basoc := rfl
@[simp] theorem State.modCq_pageWritten (s : State) (q : Nat) (f : Cq → Cq) : (s.modCq q f).pageWritten = s.pageWritten := rfl
@[simp] theorem State.modCq_pageDigest (s : State) (q : Nat) (f : Cq → Cq) : (s.modCq q f).pageDigest = s.pageDigest := rfl
@[simp] theorem State.modCq_boots (s : State) (q : Nat) (f : Cq → Cq) : (s.modCq q f).boots = s.boots := rfl
@[simp] theorem State.modCq_agenda (s : State) (q : Nat) (f : Cq → Cq) : (s.modCq q f).agenda = s.agenda := rfl
@[simp] theorem State.modCq_eager (s : State) (q : Nat) (f : Cq → Cq) : (s.modCq q f).eager = s.eager := rfl
@[simp] theorem State.modCq_now (s : State) (q : Nat) (f : Cq → Cq) : (s.modCq q f).now = s.now := rfl
@[simp] theorem State.modCq_fresh (s : State) (q : Nat) (f : Cq → Cq) : (s.modCq q f).fresh = s.fresh := rfl
@[simp] theorem State.modCq_nextCtx (s : State) (q : Nat) (f : Cq → Cq) : (s.modCq q f).nextCtx = s.nextCtx := rfl
@[simp] theorem State.modCq_nextNum (s : State) (q : Nat) (f : Cq → Cq) : (s.modCq q f).nextNum = s.nextNum := rfl
@[simp] theorem State.modCq_msixTable (s : State) (q : Nat) (f : Cq → Cq) : (s.modCq q f).msixTable = s.msixTable := rfl
@[simp] theorem State.modCq_peerMem (s : State) (q : Nat) (f : Cq → Cq) : (s.modCq q f).peerMem = s.peerMem := rfl
@[simp] theorem State.modCq_relayed (s : State) (q : Nat) (f : Cq → Cq) : (s.modCq q f).relayed = s.relayed := rfl
@[simp] theorem State.modCq_msixPending (s : State) (q : Nat) (f : Cq → Cq) : (s.modCq q f).msixPending = s.msixPending := rfl
@[simp] theorem State.modCq_arrivals (s : State) (q : Nat) (f : Cq → Cq) : (s.modCq q f).arrivals = s.arrivals := rfl
@[simp] theorem State.modCq_acks (s : State) (q : Nat) (f : Cq → Cq) : (s.modCq q f).acks = s.acks := rfl
/-! ## The lines of an access in the caches -/
@[simp] theorem State.fills_core (w : Who) (wr : Bool) (va pa n : Nat) (l : Option Leaf) (s : State) : (s.fills w wr va pa n l).core = s.core := rfl
@[simp] theorem State.fills_others (w : Who) (wr : Bool) (va pa n : Nat) (l : Option Leaf) (s : State) : (s.fills w wr va pa n l).others = s.others := rfl
@[simp] theorem State.fills_mem (w : Who) (wr : Bool) (va pa n : Nat) (l : Option Leaf) (s : State) : (s.fills w wr va pa n l).mem = s.mem := rfl
@[simp] theorem State.fills_bank (w : Who) (wr : Bool) (va pa n : Nat) (l : Option Leaf) (s : State) : (s.fills w wr va pa n l).bank = s.bank := rfl
@[simp] theorem State.fills_code (w : Who) (wr : Bool) (va pa n : Nat) (l : Option Leaf) (s : State) : (s.fills w wr va pa n l).code = s.code := rfl
@[simp] theorem State.fills_poison (w : Who) (wr : Bool) (va pa n : Nat) (l : Option Leaf) (s : State) : (s.fills w wr va pa n l).poison = s.poison := rfl
@[simp] theorem State.fills_bankPoison (w : Who) (wr : Bool) (va pa n : Nat) (l : Option Leaf) (s : State) : (s.fills w wr va pa n l).bankPoison = s.bankPoison := rfl
@[simp] theorem State.fills_codePoison (w : Who) (wr : Bool) (va pa n : Nat) (l : Option Leaf) (s : State) : (s.fills w wr va pa n l).codePoison = s.codePoison := rfl
@[simp] theorem State.fills_cqs (w : Who) (wr : Bool) (va pa n : Nat) (l : Option Leaf) (s : State) : (s.fills w wr va pa n l).cqs = s.cqs := rfl
@[simp] theorem State.fills_selected (w : Who) (wr : Bool) (va pa n : Nat) (l : Option Leaf) (s : State) : (s.fills w wr va pa n l).selected = s.selected := rfl
@[simp] theorem State.fills_joins (w : Who) (wr : Bool) (va pa n : Nat) (l : Option Leaf) (s : State) : (s.fills w wr va pa n l).joins = s.joins := rfl
@[simp] theorem State.fills_saved (w : Who) (wr : Bool) (va pa n : Nat) (l : Option Leaf) (s : State) : (s.fills w wr va pa n l).saved = s.saved := rfl
@[simp] theorem State.fills_ctxs (w : Who) (wr : Bool) (va pa n : Nat) (l : Option Leaf) (s : State) : (s.fills w wr va pa n l).ctxs = s.ctxs := rfl
@[simp] theorem State.fills_tags (w : Who) (wr : Bool) (va pa n : Nat) (l : Option Leaf) (s : State) : (s.fills w wr va pa n l).tags = s.tags := rfl
@[simp] theorem State.fills_rings (w : Who) (wr : Bool) (va pa n : Nat) (l : Option Leaf) (s : State) : (s.fills w wr va pa n l).rings = s.rings := rfl
@[simp] theorem State.fills_events (w : Who) (wr : Bool) (va pa n : Nat) (l : Option Leaf) (s : State) : (s.fills w wr va pa n l).events = s.events := rfl
@[simp] theorem State.fills_posts (w : Who) (wr : Bool) (va pa n : Nat) (l : Option Leaf) (s : State) : (s.fills w wr va pa n l).posts = s.posts := rfl
@[simp] theorem State.fills_channels (w : Who) (wr : Bool) (va pa n : Nat) (l : Option Leaf) (s : State) : (s.fills w wr va pa n l).channels = s.channels := rfl
@[simp] theorem State.fills_regions (w : Who) (wr : Bool) (va pa n : Nat) (l : Option Leaf) (s : State) : (s.fills w wr va pa n l).regions = s.regions := rfl
@[simp] theorem State.fills_retain (w : Who) (wr : Bool) (va pa n : Nat) (l : Option Leaf) (s : State) : (s.fills w wr va pa n l).retain = s.retain := rfl
@[simp] theorem State.fills_trackers (w : Who) (wr : Bool) (va pa n : Nat) (l : Option Leaf) (s : State) : (s.fills w wr va pa n l).trackers = s.trackers := rfl
@[simp] theorem State.fills_dintstat (w : Who) (wr : Bool) (va pa n : Nat) (l : Option Leaf) (s : State) : (s.fills w wr va pa n l).dintstat = s.dintstat := rfl
@[simp] theorem State.fills_dintmask (w : Who) (wr : Bool) (va pa n : Nat) (l : Option Leaf) (s : State) : (s.fills w wr va pa n l).dintmask = s.dintmask := rfl
@[simp] theorem State.fills_log (w : Who) (wr : Bool) (va pa n : Nat) (l : Option Leaf) (s : State) : (s.fills w wr va pa n l).log = s.log := rfl
@[simp] theorem State.fills_lgtail (w : Who) (wr : Bool) (va pa n : Nat) (l : Option Leaf) (s : State) : (s.fills w wr va pa n l).lgtail = s.lgtail := rfl
@[simp] theorem State.fills_lghead (w : Who) (wr : Bool) (va pa n : Nat) (l : Option Leaf) (s : State) : (s.fills w wr va pa n l).lghead = s.lghead := rfl
@[simp] theorem State.fills_lglost (w : Who) (wr : Bool) (va pa n : Nat) (l : Option Leaf) (s : State) : (s.fills w wr va pa n l).lglost = s.lglost := rfl
@[simp] theorem State.fills_msix (w : Who) (wr : Bool) (va pa n : Nat) (l : Option Leaf) (s : State) : (s.fills w wr va pa n l).msix = s.msix := rfl
@[simp] theorem State.fills_reqRings (w : Who) (wr : Bool) (va pa n : Nat) (l : Option Leaf) (s : State) : (s.fills w wr va pa n l).reqRings = s.reqRings := rfl
@[simp] theorem State.fills_conns (w : Who) (wr : Bool) (va pa n : Nat) (l : Option Leaf) (s : State) : (s.fills w wr va pa n l).conns = s.conns := rfl
@[simp] theorem State.fills_handed (w : Who) (wr : Bool) (va pa n : Nat) (l : Option Leaf) (s : State) : (s.fills w wr va pa n l).handed = s.handed := rfl
@[simp] theorem State.fills_wire (w : Who) (wr : Bool) (va pa n : Nat) (l : Option Leaf) (s : State) : (s.fills w wr va pa n l).wire = s.wire := rfl
@[simp] theorem State.fills_eth (w : Who) (wr : Bool) (va pa n : Nat) (l : Option Leaf) (s : State) : (s.fills w wr va pa n l).eth = s.eth := rfl
@[simp] theorem State.fills_sampler (w : Who) (wr : Bool) (va pa n : Nat) (l : Option Leaf) (s : State) : (s.fills w wr va pa n l).sampler = s.sampler := rfl
@[simp] theorem State.fills_accept (w : Who) (wr : Bool) (va pa n : Nat) (l : Option Leaf) (s : State) : (s.fills w wr va pa n l).accept = s.accept := rfl
@[simp] theorem State.fills_checkNum (w : Who) (wr : Bool) (va pa n : Nat) (l : Option Leaf) (s : State) : (s.fills w wr va pa n l).checkNum = s.checkNum := rfl
@[simp] theorem State.fills_experts (w : Who) (wr : Bool) (va pa n : Nat) (l : Option Leaf) (s : State) : (s.fills w wr va pa n l).experts = s.experts := rfl
@[simp] theorem State.fills_prefetch (w : Who) (wr : Bool) (va pa n : Nat) (l : Option Leaf) (s : State) : (s.fills w wr va pa n l).prefetch = s.prefetch := rfl
@[simp] theorem State.fills_tok (w : Who) (wr : Bool) (va pa n : Nat) (l : Option Leaf) (s : State) : (s.fills w wr va pa n l).tok = s.tok := rfl
@[simp] theorem State.fills_dtk (w : Who) (wr : Bool) (va pa n : Nat) (l : Option Leaf) (s : State) : (s.fills w wr va pa n l).dtk = s.dtk := rfl
@[simp] theorem State.fills_links (w : Who) (wr : Bool) (va pa n : Nat) (l : Option Leaf) (s : State) : (s.fills w wr va pa n l).links = s.links := rfl
@[simp] theorem State.fills_domain (w : Who) (wr : Bool) (va pa n : Nat) (l : Option Leaf) (s : State) : (s.fills w wr va pa n l).domain = s.domain := rfl
@[simp] theorem State.fills_inDomain (w : Who) (wr : Bool) (va pa n : Nat) (l : Option Leaf) (s : State) : (s.fills w wr va pa n l).inDomain = s.inDomain := rfl
@[simp] theorem State.fills_aperture (w : Who) (wr : Bool) (va pa n : Nat) (l : Option Leaf) (s : State) : (s.fills w wr va pa n l).aperture = s.aperture := rfl
@[simp] theorem State.fills_remote (w : Who) (wr : Bool) (va pa n : Nat) (l : Option Leaf) (s : State) : (s.fills w wr va pa n l).remote = s.remote := rfl
@[simp] theorem State.fills_applied (w : Who) (wr : Bool) (va pa n : Nat) (l : Option Leaf) (s : State) : (s.fills w wr va pa n l).applied = s.applied := rfl
@[simp] theorem State.fills_sentSeq (w : Who) (wr : Bool) (va pa n : Nat) (l : Option Leaf) (s : State) : (s.fills w wr va pa n l).sentSeq = s.sentSeq := rfl
@[simp] theorem State.fills_poolUp (w : Who) (wr : Bool) (va pa n : Nat) (l : Option Leaf) (s : State) : (s.fills w wr va pa n l).poolUp = s.poolUp := rfl
@[simp] theorem State.fills_pools (w : Who) (wr : Bool) (va pa n : Nat) (l : Option Leaf) (s : State) : (s.fills w wr va pa n l).pools = s.pools := rfl
@[simp] theorem State.fills_poolStores (w : Who) (wr : Bool) (va pa n : Nat) (l : Option Leaf) (s : State) : (s.fills w wr va pa n l).poolStores = s.poolStores := rfl
@[simp] theorem State.fills_hostUp (w : Who) (wr : Bool) (va pa n : Nat) (l : Option Leaf) (s : State) : (s.fills w wr va pa n l).hostUp = s.hostUp := rfl
@[simp] theorem State.fills_hostStores (w : Who) (wr : Bool) (va pa n : Nat) (l : Option Leaf) (s : State) : (s.fills w wr va pa n l).hostStores = s.hostStores := rfl
@[simp] theorem State.fills_cps (w : Who) (wr : Bool) (va pa n : Nat) (l : Option Leaf) (s : State) : (s.fills w wr va pa n l).cps = s.cps := rfl
@[simp] theorem State.fills_power (w : Who) (wr : Bool) (va pa n : Nat) (l : Option Leaf) (s : State) : (s.fills w wr va pa n l).power = s.power := rfl
@[simp] theorem State.fills_ready (w : Who) (wr : Bool) (va pa n : Nat) (l : Option Leaf) (s : State) : (s.fills w wr va pa n l).ready = s.ready := rfl
@[simp] theorem State.fills_bootError (w : Who) (wr : Bool) (va pa n : Nat) (l : Option Leaf) (s : State) : (s.fills w wr va pa n l).bootError = s.bootError := rfl
@[simp] theorem State.fills_lastReset (w : Who) (wr : Bool) (va pa n : Nat) (l : Option Leaf) (s : State) : (s.fills w wr va pa n l).lastReset = s.lastReset := rfl
@[simp] theorem State.fills_clockStep (w : Who) (wr : Bool) (va pa n : Nat) (l : Option Leaf) (s : State) : (s.fills w wr va pa n l).clockStep = s.clockStep := rfl
@[simp] theorem State.fills_powerCap (w : Who) (wr : Bool) (va pa n : Nat) (l : Option Leaf) (s : State) : (s.fills w wr va pa n l).powerCap = s.powerCap := rfl
@[simp] theorem State.fills_thermal (w : Who) (wr : Bool) (va pa n : Nat) (l : Option Leaf) (s : State) : (s.fills w wr va pa n l).thermal = s.thermal := rfl
@[simp] theorem State.fills_fw (w : Who) (wr : Bool) (va pa n : Nat) (l : Option Leaf) (s : State) : (s.fills w wr va pa n l).fw = s.fw := rfl
@[simp] theorem State.fills_basoc (w : Who) (wr : Bool) (va pa n : Nat) (l : Option Leaf) (s : State) : (s.fills w wr va pa n l).basoc = s.basoc := rfl
@[simp] theorem State.fills_pageWritten (w : Who) (wr : Bool) (va pa n : Nat) (l : Option Leaf) (s : State) : (s.fills w wr va pa n l).pageWritten = s.pageWritten := rfl
@[simp] theorem State.fills_pageDigest (w : Who) (wr : Bool) (va pa n : Nat) (l : Option Leaf) (s : State) : (s.fills w wr va pa n l).pageDigest = s.pageDigest := rfl
@[simp] theorem State.fills_boots (w : Who) (wr : Bool) (va pa n : Nat) (l : Option Leaf) (s : State) : (s.fills w wr va pa n l).boots = s.boots := rfl
@[simp] theorem State.fills_agenda (w : Who) (wr : Bool) (va pa n : Nat) (l : Option Leaf) (s : State) : (s.fills w wr va pa n l).agenda = s.agenda := rfl
@[simp] theorem State.fills_eager (w : Who) (wr : Bool) (va pa n : Nat) (l : Option Leaf) (s : State) : (s.fills w wr va pa n l).eager = s.eager := rfl
@[simp] theorem State.fills_now (w : Who) (wr : Bool) (va pa n : Nat) (l : Option Leaf) (s : State) : (s.fills w wr va pa n l).now = s.now := rfl
@[simp] theorem State.fills_fresh (w : Who) (wr : Bool) (va pa n : Nat) (l : Option Leaf) (s : State) : (s.fills w wr va pa n l).fresh = s.fresh := rfl
@[simp] theorem State.fills_nextCtx (w : Who) (wr : Bool) (va pa n : Nat) (l : Option Leaf) (s : State) : (s.fills w wr va pa n l).nextCtx = s.nextCtx := rfl
@[simp] theorem State.fills_nextNum (w : Who) (wr : Bool) (va pa n : Nat) (l : Option Leaf) (s : State) : (s.fills w wr va pa n l).nextNum = s.nextNum := rfl
@[simp] theorem State.fills_msixTable (w : Who) (wr : Bool) (va pa n : Nat) (l : Option Leaf) (s : State) : (s.fills w wr va pa n l).msixTable = s.msixTable := rfl
@[simp] theorem State.fills_peerMem (w : Who) (wr : Bool) (va pa n : Nat) (l : Option Leaf) (s : State) : (s.fills w wr va pa n l).peerMem = s.peerMem := rfl
@[simp] theorem State.fills_relayed (w : Who) (wr : Bool) (va pa n : Nat) (l : Option Leaf) (s : State) : (s.fills w wr va pa n l).relayed = s.relayed := rfl
@[simp] theorem State.fills_msixPending (w : Who) (wr : Bool) (va pa n : Nat) (l : Option Leaf) (s : State) : (s.fills w wr va pa n l).msixPending = s.msixPending := rfl
@[simp] theorem State.fills_arrivals (w : Who) (wr : Bool) (va pa n : Nat) (l : Option Leaf) (s : State) : (s.fills w wr va pa n l).arrivals = s.arrivals := rfl
@[simp] theorem State.fills_acks (w : Who) (wr : Bool) (va pa n : Nat) (l : Option Leaf) (s : State) : (s.fills w wr va pa n l).acks = s.acks := rfl
@[simp] theorem State.fills_parts (w : Who) (wr : Bool) (va pa n : Nat) (l : Option Leaf) (s : State) : (s.fills w wr va pa n l).parts = s.parts := rfl
@[simp] theorem State.fills_cache (w : Who) (wr : Bool) (va pa n : Nat) (l : Option Leaf) (s : State) : (s.fills w wr va pa n l).cache = s.cached w wr va pa n l := rfl
/-! ## What they write -/
@[simp] theorem Core.orFlags_fflg (c : Core) (x : BitVec 6) : (c.orFlags x).fflg = c.fflg ||| x := rfl
@[simp] theorem Core.after_stall (c : Core) (n : Nat) (w : Flow) :
    (c.after n w).stall = match w with
      | .hold m => m
      | _ => 0 := by cases w <;> rfl
@[simp] theorem Core.after_pc_next (c : Core) (n : Nat) : (c.after n .next).pc = c.pc + dw n := rfl
@[simp] theorem Core.after_pc_goto (c : Core) (n : Nat) (p : Dword) : (c.after n (.goto p)).pc = p := rfl
@[simp] theorem Core.after_pc_stay (c : Core) (n : Nat) : (c.after n .stay).pc = c.pc := rfl
@[simp] theorem Core.after_rg (c : Core) (n : Nat) (w : Flow) (r : Reg) : (c.after n w).rg r = c.rg r := by
  cases w <;> rfl
@[simp] theorem Core.orFlags_rg (c : Core) (x : BitVec 6) (r : Reg) : (c.orFlags x).rg r = c.rg r := rfl
@[simp] theorem Core.rg_zero (c : Core) : c.rg 0#5 = 0 := rfl
@[simp] theorem Core.setG_zero (c : Core) (v : Dword) : c.setG 0#5 v = c := rfl
/-- A register read back (R23): the value written, and zero of g0. -/
theorem Core.rg_setG_self (c : Core) (r : Reg) (v : Dword) : (c.setG r v).rg r = if r = 0 then 0 else v := by
  unfold Core.rg Core.setG; split <;> simp_all
/-- Another register read back. -/
theorem Core.rg_setG_ne (c : Core) (d r : Reg) (v : Dword) (h : r ≠ d) : (c.setG d v).rg r = c.rg r := by
  unfold Core.rg Core.setG
  split
  · rfl
  · split
    · rfl
    · have : d.toNat ≠ r.toNat := fun e => h (BitVec.eq_of_toNat_eq e.symm)
      simp [this]

end Sys2Proof.Machine
end

