-- ==== Sys2Proof/Laws/Run.lean ====
section
/-! SUPPORT. How a meaning runs: what each primitive of the monad answers, and how an answer becomes an outcome. -/
namespace Sys2Proof.Machine

/-! ## The monad -/

@[simp] theorem run_pure {α : Type} (a : α) (s : State) : (pure a : M α) s = .ok (a, s) := rfl

@[simp] theorem run_bind {α β : Type} (m : M α) (f : α → M β) (s : State) :
    (m >>= f) s = match m s with
      | .ok (a, t) => f a t
      | .error e => .error e := by
  show (StateT.bind m f) s = _
  unfold StateT.bind
  cases h : m s <;> simp [Bind.bind, Except.bind]

@[simp] theorem run_map {α β : Type} (f : α → β) (m : M α) (s : State) :
    (f <$> m) s = match m s with
      | .ok (a, t) => .ok (f a, t)
      | .error e => .error e := by
  show (StateT.map f m) s = _
  unfold StateT.map
  cases h : m s <;> simp [Bind.bind, Except.bind, Pure.pure, Except.pure]

@[simp] theorem run_get (s : State) : (get : M State) s = .ok (s, s) := rfl
@[simp] theorem run_set (t s : State) : (set t : M PUnit) s = .ok (.unit, t) := rfl
@[simp] theorem run_modify (f : State → State) (s : State) : (modify f : M PUnit) s = .ok (.unit, f s) := rfl
@[simp] theorem run_stopWith {α : Type} (x : Stop) (s : State) : (stopWith x : M α) s = .error x := rfl
@[simp] theorem run_trap {α : Type} (c : Nat) (v : Dword) (s : State) : (trap c v : M α) s = .error (.trap c v) := rfl
@[simp] theorem run_trapX {α : Type} (c : Nat) (s : State) : (trapX c : M α) s = .error (.trapX c) := rfl
@[simp] theorem run_fatal {α : Type} (c : Nat) (v : Dword) (s : State) : (fatal c v : M α) s = .error (.fatal c v) := rfl
@[simp] theorem run_getC (s : State) : getC s = .ok (s.core, s) := rfl
@[simp] theorem run_modC (f : Core → Core) (s : State) : modC f s = .ok ((), { s with core := f s.core }) := rfl
@[simp] theorem run_modS (f : State → State) (s : State) : modS f s = .ok ((), f s) := rfl
@[simp] theorem run_rG (r : Reg) (s : State) : rG r s = .ok (s.core.rg r, s) := rfl
@[simp] theorem run_wG (r : Reg) (v : Dword) (s : State) :
    wG r v s = .ok ((), { s with core := s.core.setG r v }) := rfl
@[simp] theorem run_orF (f : BitVec 6) (s : State) : orF f s = .ok ((), { s with core := s.core.orFlags f }) := rfl

@[simp] theorem run_ite {α : Type} (p : Prop) [Decidable p] (m n : M α) (s : State) :
    (if p then m else n) s = if p then m s else n s := by split <;> rfl

@[simp] theorem run_need (b : Bool) (c : Nat) (v : Dword) (s : State) :
    need b c v s = if b then .ok ((), s) else .error (.trap c v) := by unfold need; split <;> rfl
@[simp] theorem run_needX (b : Bool) (c : Nat) (s : State) :
    needX b c s = if b then .ok ((), s) else .error (.trapX c) := by unfold needX; split <;> rfl
@[simp] theorem run_iff' (b : Bool) (m : M Unit) (s : State) : iff' b m s = if b then m s else .ok ((), s) := by
  unfold iff'; split <;> rfl

@[simp] theorem run_noDet (s : State) : noDet s = if s.core.det then .error (.trapX cDet) else .ok ((), s) := by
  cases h : s.core.det <;> simp [noDet, run_needX, h]

/-- The sequencer waits for its queues exactly while one of them holds an entry. -/
@[simp] theorem run_waitQuiet (s : State) :
    waitQuiet s = if s.core.quiet then .ok ((), s) else .error (.waitQ s.core.busyMask) := by
  unfold waitQuiet; simp

/-! ## From an answer to an outcome -/

/-- A word whose operation completes: the state it leaves, with the pc advanced and the word counted. -/
theorem runSeq_ok {len : Nat} {m : M Flow} {s t : State} {f : Flow} (h : m s = .ok (f, t)) :
    runSeq len m s = .next { t with core := t.core.after len f } := by unfold runSeq; rw [h]; rfl

/-- A word whose operation stops. -/
theorem runSeq_error {len : Nat} {m : M Flow} {s : State} {x : Stop} (h : m s = .error x) :
    runSeq len m s = .next (seqStop x s) := by unfold runSeq; rw [h]; rfl

/-- A word of the sequencer always answers a next state. -/
theorem runSeq_next (len : Nat) (m : M Flow) (s : State) : ∃ t, runSeq len m s = .next t := ⟨_, rfl⟩

/-- Everything that a register result can do. -/
theorem run_result (d : Reg) (v : Core → Dword) (s : State) :
    result d v s = .ok (.next, { s with core := s.core.setG d (v s.core) }) := by simp [result]

/-- Everything that a register result with flags can do. -/
theorem run_resultF (d : Reg) (v : Core → Dword × BitVec 6) (s : State) :
    resultF d v s = .ok (.next, { s with core := (s.core.setG d (v s.core).1).orFlags (v s.core).2 }) := by simp [resultF]

/-- Everything that a conditional branch can do. -/
theorem run_branch (off : BitVec 12) (cond : Core → Bool) (s : State) :
    branch off cond s = .ok (if cond s.core then .goto (s.core.target off) else .next, s) := by simp [branch]

/-- Everything that a jump can do. -/
theorem run_jump_none (t : Core → Dword) (s : State) : jump none t s = .ok (.goto (t s.core), s) := by simp [jump]
theorem run_jump_some (d : Reg) (t : Core → Dword) (s : State) :
    jump (some d) t s = .ok (.goto (t s.core), { s with core := s.core.setG d (s.core.pc + 4) }) := by simp [jump]

/-- An access that is answered. -/
theorem run_acc_ok {α : Type} {m : A α} {s t : State} {v : α} (h : m s = .ok (.ok v, t)) : acc m s = .ok (v, t) := by
  simp [acc, ExceptT.run, h]

/-- An access that is refused stops the instruction. -/
theorem run_acc_error {α : Type} {m : A α} {s t : State} {e : AccErr} (h : m s = .ok (.error e, t)) :
    acc m s = .error (accStop e) := by simp [acc, ExceptT.run, h]

/-- Everything that a scalar load can do once its bytes are read. -/
theorem run_load {sc : BitVec 3} {loc : Bool} {d a : Reg} {x : BitVec 32} {n : Nat} {sg : Bool} {s t : State}
    {bs : List Byte} (h : loadBytes sc loc (s.core.ea a x) n s = .ok (bs, t)) :
    load sc loc d a x n sg s =
      .ok (.next, { t with
        core := t.core.setG d (if sg then dw (ofSigned 64 (toSigned (8 * n) (leNat bs))) else dw (leNat bs)) }) := by
  simp [load, h]

/-- Everything that a scalar store can do once its bytes are written. -/
theorem run_store {sc : BitVec 3} {loc : Bool} {a b : Reg} {x : BitVec 32} {n : Nat} {s t : State}
    (ha : (s.core.ea a x).toNat % n = 0)
    (h : writeAt (s.core.who true sc) loc (s.core.ea a x).toNat (leBytes n (s.core.rg b).toNat) s = .ok (.ok (), t)) :
    store sc loc a b x n s = .ok (.next, t) := by
  simp [store, aligned, run_need, ha, run_acc_ok h]

end Sys2Proof.Machine
end

