-- ==== Sys2Proof/Laws/Access.lean ====
section
/-! SUPPORT. What an access to global memory does where nothing stands in its way: the granules of a read and of a write. -/
namespace Sys2Proof.Machine

open Host (Cell)

/-! ## The access monad -/

/-- An access run in a state. -/
def runA {α : Type} (m : A α) (s : State) : Except Stop (Except AccErr α × State) := m.run s

@[simp] theorem runA_pure {α : Type} (v : α) (s : State) : runA (pure v : A α) s = .ok (.ok v, s) := rfl
@[simp] theorem runA_throw {α : Type} (e : AccErr) (s : State) : runA (throw e : A α) s = .ok (.error e, s) := rfl
@[simp] theorem runA_get (s : State) : runA (get : A State) s = .ok (.ok s, s) := rfl
@[simp] theorem runA_set (t s : State) : runA (set t : A PUnit) s = .ok (.ok .unit, t) := rfl
@[simp] theorem runA_modify (f : State → State) (s : State) : runA (modify f : A PUnit) s = .ok (.ok .unit, f s) := rfl
@[simp] theorem runA_lift {α : Type} (m : M α) (s : State) :
    runA (liftM m : A α) s = match m s with
      | .ok (v, t) => .ok (.ok v, t)
      | .error e => .error e := by
  exact (run_bind m (fun v => pure (Except.ok v)) s).trans (by cases m s <;> rfl)
@[simp] theorem runA_bind {α β : Type} (m : A α) (f : α → A β) (s : State) :
    runA (m >>= f) s = match runA m s with
      | .ok (.ok v, t) => runA (f v) t
      | .ok (.error e, t) => .ok (.error e, t)
      | .error e => .error e := by
  show (ExceptT.bind m f).run s = _
  unfold ExceptT.bind ExceptT.mk ExceptT.run runA ExceptT.run
  simp only [run_bind]
  cases m s with
  | error e => rfl
  | ok p =>
    obtain ⟨x, t⟩ := p
    cases x <;> rfl
@[simp] theorem runA_ite {α : Type} (p : Prop) [Decidable p] (m n : A α) (s : State) :
    runA (if p then m else n) s = if p then runA m s else runA n s := by split <;> rfl

/-- An access that answers, as an instruction sees it. -/
theorem acc_runA {α : Type} {m : A α} {s t : State} {v : α} (h : runA m s = .ok (.ok v, t)) : acc m s = .ok (v, t) :=
  run_acc_ok h

/-- A loop over a list whose every turn answers, from states that keep an invariant. -/
theorem runA_foldlM {α β : Type} (I : State → Prop) (f : β → α → A β) (g : β → α → β) :
    ∀ (l : List α) (b : β) (s : State), I s → (∀ x ∈ l, ∀ b s, I s → ∃ t, runA (f b x) s = .ok (.ok (g b x), t) ∧ I t) →
      ∃ t, runA (l.foldlM f b) s = .ok (.ok (l.foldl g b), t) ∧ I t
  | [], _, s, hs, _ => ⟨s, rfl, hs⟩
  | x :: l, b, s, hs, h => by
    obtain ⟨t, ht, hI⟩ := h x (by simp) b s hs
    obtain ⟨u, hu, hJ⟩ := runA_foldlM I f g l (g b x) t hI fun y hy => h y (by simp [hy])
    refine ⟨u, ?_, hJ⟩
    rw [List.foldlM_cons, runA_bind, ht]
    exact hu

/-! ## Memory -/

/-- A read that a write does not reach. -/
theorem memRead_memWrite_ne (m : List Cell) (a : Nat) (bs : List Byte) (x n : Nat)
    (h : x + n ≤ a ∨ a + bs.length ≤ x) : memRead (memWrite m a bs) x n = memRead m x n := by
  have hc : (cellsOf a bs).filter (fun c => x ≤ c.1 && c.1 < x + n) = [] := by
    rw [List.filter_eq_nil_iff]
    intro c hc
    have := (cellsOf_form bs a).2 c hc
    simp only [Bool.and_eq_true, decide_eq_true_eq, not_and]
    omega
  unfold memRead memWrite
  congr 1
  simp only [List.filter_append, hc, List.filter_filter, List.append_nil]
  rcases h with h | h
  · rw [show (m.filter fun c => (decide (x ≤ c.1) && decide (c.1 < x + n)) && decide (a + bs.length ≤ c.1)) = [] by
      rw [List.filter_eq_nil_iff]; intro c _; simp only [Bool.and_eq_true, decide_eq_true_eq, not_and]; omega]
    rw [List.append_nil]
    apply List.filter_congr
    intro c _
    rw [Bool.eq_iff_iff]; simp only [Bool.and_eq_true, decide_eq_true_eq]; omega
  · rw [show (m.filter fun c => (decide (x ≤ c.1) && decide (c.1 < x + n)) && decide (c.1 < a)) = [] by
      rw [List.filter_eq_nil_iff]; intro c _; simp only [Bool.and_eq_true, decide_eq_true_eq, not_and]; omega]
    rw [List.nil_append]
    apply List.filter_congr
    intro c _
    rw [Bool.eq_iff_iff]; simp only [Bool.and_eq_true, decide_eq_true_eq]; omega

/-- A read where nothing is listed. -/
theorem memRead_zero (m : List Cell) (x n : Nat) (h : ∀ c ∈ m, c.1 < x ∨ x + n ≤ c.1) :
    memRead m x n = List.replicate n 0 := by
  have hf : m.filter (fun c => x ≤ c.1 && c.1 < x + n) = [] := by
    rw [List.filter_eq_nil_iff]
    intro c hc
    have := h c hc
    simp only [Bool.and_eq_true, decide_eq_true_eq, not_and]; omega
  unfold memRead
  rw [hf]
  have : ∀ n a, fillBytes n a [] = List.replicate n 0 := by
    intro n
    induction n with
    | zero => intro a; rfl
    | succ n ih => intro a; rw [fillBytes, ih, List.replicate_succ]
  exact this n x

/-! ## Granules -/

/-- No line of a list makes an access without a tag stop or change anything. -/
theorem runA_tagLines (w : Who) (hd : w.det = false) (wr : Bool) (va : Nat) (key : Nat → Nat) (l : List Nat) (s : State) :
    runA (l.foldlM (fun _ x => tagLine w wr va (key x)) ()) s = .ok (.ok (), s) := by
  induction l with
  | nil => rfl
  | cons x l ih =>
    rw [List.foldlM_cons, runA_bind]
    have : runA (tagLine w wr va (key x)) s = .ok (.ok (), s) := by
      unfold tagLine
      simp [hd]
    rw [this]
    exact ih

/-- Without a pin of its core and a first-level line of the address an access walks the table. -/
theorem lookup_walk {s : State} {w : Who} {va : Nat} (h : (s.findCore w.core).pins = [])
    (hk : w.seq = true → s.cache.hit w.core va = none) : s.lookup w va = s.walk w.part va := by
  unfold State.lookup
  cases w.engine <;> cases hw : w.seq <;> simp [h, hk, hw]

/-- The addresses of a line have the same indices. -/
theorem vaIndex_line {x y : Nat} (h : x / 64 = y / 64) (lvl : Nat) : vaIndex lvl x = vaIndex lvl y := by
  unfold vaIndex
  split
  · omega
  · split
    · omega
    · split <;> omega

/-- A table maps a virtual line to one physical line. -/
theorem walkFrom_line (s : State) {x y : Nat} (h : x / 64 = y / 64) :
    ∀ n lvl tbl l m, walkFrom s x n lvl tbl = some l → walkFrom s y n lvl tbl = some m → l.pa + y = m.pa + x := by
  intro n
  induction n with
  | zero => intro lvl tbl l m hx; simp [walkFrom] at hx
  | succ n ih =>
    intro lvl tbl l m hx hy
    have hm : x % 2 ^ leafBits lvl + y = y % 2 ^ leafBits lvl + x := by
      have h14 : x / 16384 = y / 16384 := by omega
      unfold leafBits
      split
      · omega
      · split <;> omega
    rw [walkFrom] at hx hy
    rw [vaIndex_line h] at hx
    dsimp only at hx hy
    split at hx
    · simp at hx
    split at hx
    · simp at hx
    rename_i h1 h2
    rw [if_neg h1, if_neg h2] at hy
    split at hx
    · rename_i h3
      rw [if_pos h3] at hy
      split at hx
      · simp at hx
      · rename_i h4
        rw [if_neg h4] at hy
        exact ih _ _ _ _ hx hy
    · rename_i h3
      rw [if_neg h3] at hy
      split at hx
      · rename_i h4
        rw [if_pos h4] at hy
        split at hx
        · simp at hx
        · rename_i h5
          rw [if_neg h5] at hy
          split at hx
          · simp at hx
          · split at hy
            · simp at hy
            · obtain rfl := Option.some.inj hx
              obtain rfl := Option.some.inj hy
              dsimp only
              omega
      · simp at hx
/-- What enters below the first level leaves the first-level lines. -/
theorem cacheLine_l1 (s : State) (w : Who) (wr : Bool) (va : Nat) (k : Cache) (line : Nat) :
    (s.cacheLine w wr va k line).l1 = k.l1 := by
  have hf (cl : Nat) (ways : List (Nat × Nat)) : (k.fillCluster cl ways line).l1 = k.l1 := by
    unfold Cache.fillCluster
    split
    · rfl
    · dsimp only
      split
      · rfl
      · split <;> rfl
  unfold State.cacheLine Cache.touch
  dsimp only
  cases w.engine <;> split <;> first | rfl | exact hf _ _

/-- The first-level lines after an access: lines from before, and at most one of its own. -/
theorem cached_l1 {s : State} {w : Who} {wr : Bool} {va pa n : Nat} {leaf : Option Leaf} {x : L1Line}
    (h : x ∈ (s.cached w wr va pa n leaf).l1) : x ∈ s.cache.l1 ∨ ∃ l, leaf = some l ∧ x = ⟨w.core, va, l⟩ := by
  have hl (ls : List Nat) : ∀ k : Cache, (ls.foldl (s.cacheLine w wr va) k).l1 = k.l1 := by
    induction ls with
    | nil => intro k; rfl
    | cons a ls ih => intro k; rw [List.foldl_cons, ih, cacheLine_l1]
  have hk (l : Leaf) (h : x ∈ (s.cache.fillL1 w.core va l).l1) : x ∈ s.cache.l1 ∨ x = ⟨w.core, va, l⟩ := by
    unfold Cache.fillL1 at h
    simp only [List.mem_append, List.mem_singleton] at h
    refine h.imp_left fun h => ?_
    split at h
    · exact h
    · exact List.mem_of_mem_eraseP h
  unfold State.cached at h
  cases leaf with
  | none =>
    dsimp only at h
    split at h
    · exact .inl h
    · rw [hl] at h; exact .inl h
  | some l =>
    dsimp only at h
    have h : x ∈ s.cache.l1 ∨ x ∈ (s.cache.fillL1 w.core va l).l1 := by
      split at h
      · split at h
        · exact .inr h
        · exact .inl h
      · rw [hl] at h
        split at h
        · exact .inr h
        · exact .inl h
    rcases h with h | h
    · exact .inl h
    · exact (hk l h).imp_right fun h => ⟨l, rfl, h⟩

/-- A translation that grants the access. -/
theorem runA_transl {w : Who} {p : Perm} {va : Nat} {s : State} {l : Leaf} (h : s.lookup w va = some l)
    (hp : l.grants p = true) (hl : s.poolLost l.pa = false) : runA (transl w p va) s = .ok (.ok l.pa, s) := by
  unfold transl
  simp [h, hp, hl]

/-- A read of one granule, of memory that no region, poison or tag concerns. -/
theorem runA_readIn {w : Who} {p : Perm} {va n : Nat} {s : State} {l : Leaf} (hd : w.det = false)
    (h : s.lookup w va = some l) (hp : l.grants p = true) (hl : s.poolLost l.pa = false) (hr : s.regions = [])
    (ho : s.poison = []) (he : isPeer l.pa = false) (hh : isHost l.pa = false) :
    runA (readIn w p va n) s = .ok (.ok (memRead s.mem l.pa n), s.fills w false va l.pa n (some l)) := by
  have hn : (linesOf l.pa n).any s.poison.contains = false := by simp [ho]
  have hb : s.lineBusy w l.pa n = false := by simp [State.lineBusy, he, hh]
  have ht : runA (trigger w va l.pa n) s = .ok (.ok (), s) := by simp [trigger, triggered, hr]
  have hg : runA (physGet w l.pa n) s = .ok (.ok (memRead s.mem l.pa n), s) := by
    simp [physGet, State.ownBytes, hb, he, hh]
  unfold readIn
  rw [runA_bind, runA_transl h hp hl]
  simp only [runA_bind, runA_get, h, ht, hn, Bool.false_eq_true, if_false, runA_tagLines w hd, hg, runA_pure, runA_modify]

/-- A write of one granule, of memory that no region or tag concerns. -/
theorem runA_writeIn {w : Who} {va : Nat} {bs : List Byte} {s : State} {l : Leaf} (hd : w.det = false)
    (h : s.lookup w va = some l) (hp : l.grants .w = true) (hl : s.poolLost l.pa = false) (hr : s.regions = [])
    (he : isHbm l.pa = true) :
    runA (writeIn w va bs) s =
      .ok (.ok (), (physWrite l.pa bs (if w.seq then some w.core else none) s).fills w true va l.pa bs.length (some l)) := by
  have h1 : isPeer l.pa = false := by simp [isHbm, isPeer] at *; omega
  have h2 : isPool l.pa = false := by simp [isHbm, isPool] at *; omega
  have h3 : isHost l.pa = false := by simp [isHbm, isHost] at *; omega
  have ht : runA (trigger w va l.pa bs.length) s = .ok (.ok (), s) := by simp [trigger, triggered, hr]
  have hput : physPut w l.pa bs s = .ok ((), physWrite l.pa bs (if w.seq then some w.core else none) s) := by
    cases he : w.excl <;> simp [physPut, physNow, physStore, noteFar, h1, h2, h3, he]
  unfold writeIn
  rw [runA_bind, runA_transl h hp hl]
  simp only [runA_bind, runA_get, h, hr, List.any_nil, ht, Bool.false_eq_true, if_false, runA_tagLines w hd, runA_lift, hput,
    runA_modify]

end Sys2Proof.Machine
end

