-- ==== Sys2Proof/Laws/Encoding.lean ====
section
/-! SUPPORT. The fields of an encoded word are the fields that it was built from, format by format (R46). -/
namespace Sys2Proof

theorem extract_of_append_high {m n k : Nat} (x : BitVec m) (y : BitVec n) (lo : Nat) (h : n ≤ lo) :
    (x ++ y).extractLsb' lo k = x.extractLsb' (lo - n) k := by
  ext i hi
  simp only [BitVec.getElem_extractLsb', BitVec.getLsbD_append]
  rw [if_neg (by omega)]
  congr 1
  omega

theorem extract_of_append_low {m n k : Nat} (x : BitVec m) (y : BitVec n) (lo : Nat) (h : lo + k ≤ n) :
    (x ++ y).extractLsb' lo k = y.extractLsb' lo k := by
  ext i hi
  simp only [BitVec.getElem_extractLsb', BitVec.getLsbD_append]
  rw [if_pos (by omega)]

theorem extract_whole {n : Nat} (x : BitVec n) : x.extractLsb' 0 n = x := by ext i hi; simp

@[simp] theorem fMajor_mkS3 (m : BitVec 6) (d a b : Reg) (fn : BitVec 7) : fMajor (mkS3 m d a b fn) = m :=
  (extract_of_append_high _ (fn : BitVec 7) 26 (by omega)).trans
    ((extract_of_append_high _ (b : BitVec 5) 19 (by omega)).trans
    ((extract_of_append_high _ (a : BitVec 5) 14 (by omega)).trans
    ((extract_of_append_high _ (d : BitVec 5) 9 (by omega)).trans
    ((extract_of_append_high _ (0 : BitVec 4) 4 (by omega)).trans
    ((extract_whole (m : BitVec 6)))))))
@[simp] theorem fTok_mkS3 (m : BitVec 6) (d a b : Reg) (fn : BitVec 7) : fTok (mkS3 m d a b fn) = 0 :=
  (extract_of_append_high _ (fn : BitVec 7) 22 (by omega)).trans
    ((extract_of_append_high _ (b : BitVec 5) 15 (by omega)).trans
    ((extract_of_append_high _ (a : BitVec 5) 10 (by omega)).trans
    ((extract_of_append_high _ (d : BitVec 5) 5 (by omega)).trans
    ((extract_of_append_low _ (0 : BitVec 4) 0 (by omega)).trans
    ((extract_whole (0 : BitVec 4)))))))
@[simp] theorem f17_mkS3 (m : BitVec 6) (d a b : Reg) (fn : BitVec 7) : f17 (mkS3 m d a b fn) = d :=
  (extract_of_append_high _ (fn : BitVec 7) 17 (by omega)).trans
    ((extract_of_append_high _ (b : BitVec 5) 10 (by omega)).trans
    ((extract_of_append_high _ (a : BitVec 5) 5 (by omega)).trans
    ((extract_of_append_low _ (d : BitVec 5) 0 (by omega)).trans
    ((extract_whole (d : BitVec 5))))))
@[simp] theorem f12_mkS3 (m : BitVec 6) (d a b : Reg) (fn : BitVec 7) : f12 (mkS3 m d a b fn) = a :=
  (extract_of_append_high _ (fn : BitVec 7) 12 (by omega)).trans
    ((extract_of_append_high _ (b : BitVec 5) 5 (by omega)).trans
    ((extract_of_append_low _ (a : BitVec 5) 0 (by omega)).trans
    ((extract_whole (a : BitVec 5)))))
@[simp] theorem f7_mkS3 (m : BitVec 6) (d a b : Reg) (fn : BitVec 7) : f7 (mkS3 m d a b fn) = b :=
  (extract_of_append_high _ (fn : BitVec 7) 7 (by omega)).trans
    ((extract_of_append_low _ (b : BitVec 5) 0 (by omega)).trans
    ((extract_whole (b : BitVec 5))))
@[simp] theorem fFn7_mkS3 (m : BitVec 6) (d a b : Reg) (fn : BitVec 7) : fFn7 (mkS3 m d a b fn) = fn :=
  (extract_of_append_low _ (fn : BitVec 7) 0 (by omega)).trans
    ((extract_whole (fn : BitVec 7)))

@[simp] theorem fMajor_mkSI (m : BitVec 6) (d a : Reg) (imm : BitVec 12) : fMajor (mkSI m d a imm) = m :=
  (extract_of_append_high _ (imm : BitVec 12) 26 (by omega)).trans
    ((extract_of_append_high _ (a : BitVec 5) 14 (by omega)).trans
    ((extract_of_append_high _ (d : BitVec 5) 9 (by omega)).trans
    ((extract_of_append_high _ (0 : BitVec 4) 4 (by omega)).trans
    ((extract_whole (m : BitVec 6))))))
@[simp] theorem fTok_mkSI (m : BitVec 6) (d a : Reg) (imm : BitVec 12) : fTok (mkSI m d a imm) = 0 :=
  (extract_of_append_high _ (imm : BitVec 12) 22 (by omega)).trans
    ((extract_of_append_high _ (a : BitVec 5) 10 (by omega)).trans
    ((extract_of_append_high _ (d : BitVec 5) 5 (by omega)).trans
    ((extract_of_append_low _ (0 : BitVec 4) 0 (by omega)).trans
    ((extract_whole (0 : BitVec 4))))))
@[simp] theorem f17_mkSI (m : BitVec 6) (d a : Reg) (imm : BitVec 12) : f17 (mkSI m d a imm) = d :=
  (extract_of_append_high _ (imm : BitVec 12) 17 (by omega)).trans
    ((extract_of_append_high _ (a : BitVec 5) 5 (by omega)).trans
    ((extract_of_append_low _ (d : BitVec 5) 0 (by omega)).trans
    ((extract_whole (d : BitVec 5)))))
@[simp] theorem f12_mkSI (m : BitVec 6) (d a : Reg) (imm : BitVec 12) : f12 (mkSI m d a imm) = a :=
  (extract_of_append_high _ (imm : BitVec 12) 12 (by omega)).trans
    ((extract_of_append_low _ (a : BitVec 5) 0 (by omega)).trans
    ((extract_whole (a : BitVec 5))))
@[simp] theorem fImm_mkSI (m : BitVec 6) (d a : Reg) (imm : BitVec 12) : fImm (mkSI m d a imm) = imm :=
  (extract_of_append_low _ (imm : BitVec 12) 0 (by omega)).trans
    ((extract_whole (imm : BitVec 12)))

@[simp] theorem fMajor_mkSJ (m : BitVec 6) (off : BitVec 22) : fMajor (mkSJ m off) = m :=
  (extract_of_append_high _ (off : BitVec 22) 26 (by omega)).trans
    ((extract_of_append_high _ (0 : BitVec 4) 4 (by omega)).trans
    ((extract_whole (m : BitVec 6))))
@[simp] theorem fTok_mkSJ (m : BitVec 6) (off : BitVec 22) : fTok (mkSJ m off) = 0 :=
  (extract_of_append_high _ (off : BitVec 22) 22 (by omega)).trans
    ((extract_of_append_low _ (0 : BitVec 4) 0 (by omega)).trans
    ((extract_whole (0 : BitVec 4))))
@[simp] theorem fOff22_mkSJ (m : BitVec 6) (off : BitVec 22) : fOff22 (mkSJ m off) = off :=
  (extract_of_append_low _ (off : BitVec 22) 0 (by omega)).trans
    ((extract_whole (off : BitVec 22)))

@[simp] theorem fMajor_mkM (m : BitVec 6) (t : Tok) (acc : BitVec 2) (ta tb : BitVec 4) (p : BitVec 3) (fn : BitVec 9) : fMajor (mkM m t acc ta tb p fn) = m :=
  (extract_of_append_high _ (fn : BitVec 9) 26 (by omega)).trans
    ((extract_of_append_high _ (p : BitVec 3) 17 (by omega)).trans
    ((extract_of_append_high _ (tb : BitVec 4) 14 (by omega)).trans
    ((extract_of_append_high _ (ta : BitVec 4) 10 (by omega)).trans
    ((extract_of_append_high _ (acc : BitVec 2) 6 (by omega)).trans
    ((extract_of_append_high _ (t.bits : BitVec 4) 4 (by omega)).trans
    ((extract_whole (m : BitVec 6))))))))
@[simp] theorem fTok_mkM (m : BitVec 6) (t : Tok) (acc : BitVec 2) (ta tb : BitVec 4) (p : BitVec 3) (fn : BitVec 9) : fTok (mkM m t acc ta tb p fn) = t.bits :=
  (extract_of_append_high _ (fn : BitVec 9) 22 (by omega)).trans
    ((extract_of_append_high _ (p : BitVec 3) 13 (by omega)).trans
    ((extract_of_append_high _ (tb : BitVec 4) 10 (by omega)).trans
    ((extract_of_append_high _ (ta : BitVec 4) 6 (by omega)).trans
    ((extract_of_append_high _ (acc : BitVec 2) 2 (by omega)).trans
    ((extract_of_append_low _ (t.bits : BitVec 4) 0 (by omega)).trans
    ((extract_whole (t.bits : BitVec 4))))))))
@[simp] theorem f20_mkM (m : BitVec 6) (t : Tok) (acc : BitVec 2) (ta tb : BitVec 4) (p : BitVec 3) (fn : BitVec 9) : f20 (mkM m t acc ta tb p fn) = acc :=
  (extract_of_append_high _ (fn : BitVec 9) 20 (by omega)).trans
    ((extract_of_append_high _ (p : BitVec 3) 11 (by omega)).trans
    ((extract_of_append_high _ (tb : BitVec 4) 8 (by omega)).trans
    ((extract_of_append_high _ (ta : BitVec 4) 4 (by omega)).trans
    ((extract_of_append_low _ (acc : BitVec 2) 0 (by omega)).trans
    ((extract_whole (acc : BitVec 2)))))))
@[simp] theorem f16_mkM (m : BitVec 6) (t : Tok) (acc : BitVec 2) (ta tb : BitVec 4) (p : BitVec 3) (fn : BitVec 9) : f16 (mkM m t acc ta tb p fn) = ta :=
  (extract_of_append_high _ (fn : BitVec 9) 16 (by omega)).trans
    ((extract_of_append_high _ (p : BitVec 3) 7 (by omega)).trans
    ((extract_of_append_high _ (tb : BitVec 4) 4 (by omega)).trans
    ((extract_of_append_low _ (ta : BitVec 4) 0 (by omega)).trans
    ((extract_whole (ta : BitVec 4))))))
@[simp] theorem fTb_mkM (m : BitVec 6) (t : Tok) (acc : BitVec 2) (ta tb : BitVec 4) (p : BitVec 3) (fn : BitVec 9) : fTb (mkM m t acc ta tb p fn) = tb :=
  (extract_of_append_high _ (fn : BitVec 9) 12 (by omega)).trans
    ((extract_of_append_high _ (p : BitVec 3) 3 (by omega)).trans
    ((extract_of_append_low _ (tb : BitVec 4) 0 (by omega)).trans
    ((extract_whole (tb : BitVec 4)))))
@[simp] theorem fPat_mkM (m : BitVec 6) (t : Tok) (acc : BitVec 2) (ta tb : BitVec 4) (p : BitVec 3) (fn : BitVec 9) : fPat (mkM m t acc ta tb p fn) = p :=
  (extract_of_append_high _ (fn : BitVec 9) 9 (by omega)).trans
    ((extract_of_append_low _ (p : BitVec 3) 0 (by omega)).trans
    ((extract_whole (p : BitVec 3))))
@[simp] theorem fFn9_mkM (m : BitVec 6) (t : Tok) (acc : BitVec 2) (ta tb : BitVec 4) (p : BitVec 3) (fn : BitVec 9) : fFn9 (mkM m t acc ta tb p fn) = fn :=
  (extract_of_append_low _ (fn : BitVec 9) 0 (by omega)).trans
    ((extract_whole (fn : BitVec 9)))

@[simp] theorem fMajor_mkE (m : BitVec 6) (t : Tok) (st : BitVec 5) (tile : BitVec 4) (g : BitVec 5) (fn : BitVec 8) : fMajor (mkE m t st tile g fn) = m :=
  (extract_of_append_high _ (fn : BitVec 8) 26 (by omega)).trans
    ((extract_of_append_high _ (g : BitVec 5) 18 (by omega)).trans
    ((extract_of_append_high _ (tile : BitVec 4) 13 (by omega)).trans
    ((extract_of_append_high _ (st : BitVec 5) 9 (by omega)).trans
    ((extract_of_append_high _ (t.bits : BitVec 4) 4 (by omega)).trans
    ((extract_whole (m : BitVec 6)))))))
@[simp] theorem fTok_mkE (m : BitVec 6) (t : Tok) (st : BitVec 5) (tile : BitVec 4) (g : BitVec 5) (fn : BitVec 8) : fTok (mkE m t st tile g fn) = t.bits :=
  (extract_of_append_high _ (fn : BitVec 8) 22 (by omega)).trans
    ((extract_of_append_high _ (g : BitVec 5) 14 (by omega)).trans
    ((extract_of_append_high _ (tile : BitVec 4) 9 (by omega)).trans
    ((extract_of_append_high _ (st : BitVec 5) 5 (by omega)).trans
    ((extract_of_append_low _ (t.bits : BitVec 4) 0 (by omega)).trans
    ((extract_whole (t.bits : BitVec 4)))))))
@[simp] theorem f17_mkE (m : BitVec 6) (t : Tok) (st : BitVec 5) (tile : BitVec 4) (g : BitVec 5) (fn : BitVec 8) : f17 (mkE m t st tile g fn) = st :=
  (extract_of_append_high _ (fn : BitVec 8) 17 (by omega)).trans
    ((extract_of_append_high _ (g : BitVec 5) 9 (by omega)).trans
    ((extract_of_append_high _ (tile : BitVec 4) 4 (by omega)).trans
    ((extract_of_append_low _ (st : BitVec 5) 0 (by omega)).trans
    ((extract_whole (st : BitVec 5))))))
@[simp] theorem f13_mkE (m : BitVec 6) (t : Tok) (st : BitVec 5) (tile : BitVec 4) (g : BitVec 5) (fn : BitVec 8) : f13 (mkE m t st tile g fn) = tile :=
  (extract_of_append_high _ (fn : BitVec 8) 13 (by omega)).trans
    ((extract_of_append_high _ (g : BitVec 5) 5 (by omega)).trans
    ((extract_of_append_low _ (tile : BitVec 4) 0 (by omega)).trans
    ((extract_whole (tile : BitVec 4)))))
@[simp] theorem f8_mkE (m : BitVec 6) (t : Tok) (st : BitVec 5) (tile : BitVec 4) (g : BitVec 5) (fn : BitVec 8) : f8 (mkE m t st tile g fn) = g :=
  (extract_of_append_high _ (fn : BitVec 8) 8 (by omega)).trans
    ((extract_of_append_low _ (g : BitVec 5) 0 (by omega)).trans
    ((extract_whole (g : BitVec 5))))
@[simp] theorem fFn8_mkE (m : BitVec 6) (t : Tok) (st : BitVec 5) (tile : BitVec 4) (g : BitVec 5) (fn : BitVec 8) : fFn8 (mkE m t st tile g fn) = fn :=
  (extract_of_append_low _ (fn : BitVec 8) 0 (by omega)).trans
    ((extract_whole (fn : BitVec 8)))

@[simp] theorem fMajor_mkY (m : BitVec 6) (t : Tok) (q : BitVec 2) (a b : Reg) (sc : BitVec 3) (fn : BitVec 7) : fMajor (mkY m t q a b sc fn) = m :=
  (extract_of_append_high _ (fn : BitVec 7) 26 (by omega)).trans
    ((extract_of_append_high _ (sc : BitVec 3) 19 (by omega)).trans
    ((extract_of_append_high _ (b : BitVec 5) 16 (by omega)).trans
    ((extract_of_append_high _ (a : BitVec 5) 11 (by omega)).trans
    ((extract_of_append_high _ (q : BitVec 2) 6 (by omega)).trans
    ((extract_of_append_high _ (t.bits : BitVec 4) 4 (by omega)).trans
    ((extract_whole (m : BitVec 6))))))))
@[simp] theorem fTok_mkY (m : BitVec 6) (t : Tok) (q : BitVec 2) (a b : Reg) (sc : BitVec 3) (fn : BitVec 7) : fTok (mkY m t q a b sc fn) = t.bits :=
  (extract_of_append_high _ (fn : BitVec 7) 22 (by omega)).trans
    ((extract_of_append_high _ (sc : BitVec 3) 15 (by omega)).trans
    ((extract_of_append_high _ (b : BitVec 5) 12 (by omega)).trans
    ((extract_of_append_high _ (a : BitVec 5) 7 (by omega)).trans
    ((extract_of_append_high _ (q : BitVec 2) 2 (by omega)).trans
    ((extract_of_append_low _ (t.bits : BitVec 4) 0 (by omega)).trans
    ((extract_whole (t.bits : BitVec 4))))))))
@[simp] theorem f20_mkY (m : BitVec 6) (t : Tok) (q : BitVec 2) (a b : Reg) (sc : BitVec 3) (fn : BitVec 7) : f20 (mkY m t q a b sc fn) = q :=
  (extract_of_append_high _ (fn : BitVec 7) 20 (by omega)).trans
    ((extract_of_append_high _ (sc : BitVec 3) 13 (by omega)).trans
    ((extract_of_append_high _ (b : BitVec 5) 10 (by omega)).trans
    ((extract_of_append_high _ (a : BitVec 5) 5 (by omega)).trans
    ((extract_of_append_low _ (q : BitVec 2) 0 (by omega)).trans
    ((extract_whole (q : BitVec 2)))))))
@[simp] theorem f15_mkY (m : BitVec 6) (t : Tok) (q : BitVec 2) (a b : Reg) (sc : BitVec 3) (fn : BitVec 7) : f15 (mkY m t q a b sc fn) = a :=
  (extract_of_append_high _ (fn : BitVec 7) 15 (by omega)).trans
    ((extract_of_append_high _ (sc : BitVec 3) 8 (by omega)).trans
    ((extract_of_append_high _ (b : BitVec 5) 5 (by omega)).trans
    ((extract_of_append_low _ (a : BitVec 5) 0 (by omega)).trans
    ((extract_whole (a : BitVec 5))))))
@[simp] theorem f10_mkY (m : BitVec 6) (t : Tok) (q : BitVec 2) (a b : Reg) (sc : BitVec 3) (fn : BitVec 7) : f10 (mkY m t q a b sc fn) = b :=
  (extract_of_append_high _ (fn : BitVec 7) 10 (by omega)).trans
    ((extract_of_append_high _ (sc : BitVec 3) 3 (by omega)).trans
    ((extract_of_append_low _ (b : BitVec 5) 0 (by omega)).trans
    ((extract_whole (b : BitVec 5)))))
@[simp] theorem fSc7_mkY (m : BitVec 6) (t : Tok) (q : BitVec 2) (a b : Reg) (sc : BitVec 3) (fn : BitVec 7) : fSc7 (mkY m t q a b sc fn) = sc :=
  (extract_of_append_high _ (fn : BitVec 7) 7 (by omega)).trans
    ((extract_of_append_low _ (sc : BitVec 3) 0 (by omega)).trans
    ((extract_whole (sc : BitVec 3))))
@[simp] theorem fFn7_mkY (m : BitVec 6) (t : Tok) (q : BitVec 2) (a b : Reg) (sc : BitVec 3) (fn : BitVec 7) : fFn7 (mkY m t q a b sc fn) = fn :=
  (extract_of_append_low _ (fn : BitVec 7) 0 (by omega)).trans
    ((extract_whole (fn : BitVec 7)))

end Sys2Proof
end

