-- ==== Sys2Proof/Laws/PerInstr.lean ====
section
/-! SUPPORT. What is proved of every instruction, one lemma a constructor. -/
namespace Sys2Proof.Laws

/-- An instruction whose first word is not extended has no extension word (R48, R51). -/
def Encoding.Statement (i : Instr) : Prop := isExtended (encode i).1 = false → (encode i).2 = 0

theorem isExtended_mkS3 (m : BitVec 6) (d a b : Reg) (fn : BitVec 7) :
    isExtended (mkS3 m d a b fn) = isExtended (mkS3 m 0 0 0 0) := by simp [isExtended]
theorem isExtended_mkSI (m : BitVec 6) (d a : Reg) (imm : BitVec 12) :
    isExtended (mkSI m d a imm) = isExtended (mkSI m 0 0 0) := by simp [isExtended]

theorem Encoding.add : ∀ d a b, Encoding.Statement (.add d a b) := fun _ _ _ _ => rfl
theorem Encoding.sub : ∀ d a b, Encoding.Statement (.sub d a b) := fun _ _ _ _ => rfl
theorem Encoding.and : ∀ d a b, Encoding.Statement (.and d a b) := fun _ _ _ _ => rfl
theorem Encoding.or : ∀ d a b, Encoding.Statement (.or d a b) := fun _ _ _ _ => rfl
theorem Encoding.xor : ∀ d a b, Encoding.Statement (.xor d a b) := fun _ _ _ _ => rfl
theorem Encoding.sll : ∀ d a b, Encoding.Statement (.sll d a b) := fun _ _ _ _ => rfl
theorem Encoding.srl : ∀ d a b, Encoding.Statement (.srl d a b) := fun _ _ _ _ => rfl
theorem Encoding.sra : ∀ d a b, Encoding.Statement (.sra d a b) := fun _ _ _ _ => rfl
theorem Encoding.slt : ∀ d a b, Encoding.Statement (.slt d a b) := fun _ _ _ _ => rfl
theorem Encoding.sltu : ∀ d a b, Encoding.Statement (.sltu d a b) := fun _ _ _ _ => rfl
theorem Encoding.mul : ∀ d a b, Encoding.Statement (.mul d a b) := fun _ _ _ _ => rfl
theorem Encoding.mulh : ∀ d a b, Encoding.Statement (.mulh d a b) := fun _ _ _ _ => rfl
theorem Encoding.mulhu : ∀ d a b, Encoding.Statement (.mulhu d a b) := fun _ _ _ _ => rfl
theorem Encoding.div : ∀ d a b, Encoding.Statement (.div d a b) := fun _ _ _ _ => rfl
theorem Encoding.divu : ∀ d a b, Encoding.Statement (.divu d a b) := fun _ _ _ _ => rfl
theorem Encoding.rem : ∀ d a b, Encoding.Statement (.rem d a b) := fun _ _ _ _ => rfl
theorem Encoding.remu : ∀ d a b, Encoding.Statement (.remu d a b) := fun _ _ _ _ => rfl
theorem Encoding.min : ∀ d a b, Encoding.Statement (.min d a b) := fun _ _ _ _ => rfl
theorem Encoding.max : ∀ d a b, Encoding.Statement (.max d a b) := fun _ _ _ _ => rfl
theorem Encoding.minu : ∀ d a b, Encoding.Statement (.minu d a b) := fun _ _ _ _ => rfl
theorem Encoding.maxu : ∀ d a b, Encoding.Statement (.maxu d a b) := fun _ _ _ _ => rfl
theorem Encoding.clz : ∀ d a, Encoding.Statement (.clz d a) := fun _ _ _ => rfl
theorem Encoding.ctz : ∀ d a, Encoding.Statement (.ctz d a) := fun _ _ _ => rfl
theorem Encoding.popc : ∀ d a, Encoding.Statement (.popc d a) := fun _ _ _ => rfl
theorem Encoding.sxb : ∀ d a, Encoding.Statement (.sxb d a) := fun _ _ _ => rfl
theorem Encoding.sxh : ∀ d a, Encoding.Statement (.sxh d a) := fun _ _ _ => rfl
theorem Encoding.sxw : ∀ d a, Encoding.Statement (.sxw d a) := fun _ _ _ => rfl
theorem Encoding.addi : ∀ d a imm, Encoding.Statement (.addi d a imm) := fun _ _ _ _ => rfl
theorem Encoding.andi : ∀ d a imm, Encoding.Statement (.andi d a imm) := fun _ _ _ _ => rfl
theorem Encoding.ori : ∀ d a imm, Encoding.Statement (.ori d a imm) := fun _ _ _ _ => rfl
theorem Encoding.xori : ∀ d a imm, Encoding.Statement (.xori d a imm) := fun _ _ _ _ => rfl
theorem Encoding.slli : ∀ d a sh, Encoding.Statement (.slli d a sh) := fun _ _ _ _ => rfl
theorem Encoding.srli : ∀ d a sh, Encoding.Statement (.srli d a sh) := fun _ _ _ _ => rfl
theorem Encoding.srai : ∀ d a sh, Encoding.Statement (.srai d a sh) := fun _ _ _ _ => rfl
theorem Encoding.slti : ∀ d a imm, Encoding.Statement (.slti d a imm) := fun _ _ _ _ => rfl
theorem Encoding.sltiu : ∀ d a imm, Encoding.Statement (.sltiu d a imm) := fun _ _ _ _ => rfl
theorem Encoding.li : ∀ d x, Encoding.Statement (.li d x) := fun d x h =>
  absurd ((isExtended_mkSI 0x08 d 0 0).symm.trans h) (by decide)
theorem Encoding.lih : ∀ d x, Encoding.Statement (.lih d x) := fun d x h =>
  absurd ((isExtended_mkSI 0x08 d 0 1).symm.trans h) (by decide)
theorem Encoding.fadd : ∀ d a b, Encoding.Statement (.fadd d a b) := fun _ _ _ _ => rfl
theorem Encoding.fsub : ∀ d a b, Encoding.Statement (.fsub d a b) := fun _ _ _ _ => rfl
theorem Encoding.fmul : ∀ d a b, Encoding.Statement (.fmul d a b) := fun _ _ _ _ => rfl
theorem Encoding.fdiv : ∀ d a b, Encoding.Statement (.fdiv d a b) := fun _ _ _ _ => rfl
theorem Encoding.fsqrt : ∀ d a, Encoding.Statement (.fsqrt d a) := fun _ _ _ => rfl
theorem Encoding.fmin : ∀ d a b, Encoding.Statement (.fmin d a b) := fun _ _ _ _ => rfl
theorem Encoding.fmax : ∀ d a b, Encoding.Statement (.fmax d a b) := fun _ _ _ _ => rfl
theorem Encoding.fcmp : ∀ d a b, Encoding.Statement (.fcmp d a b) := fun _ _ _ _ => rfl
theorem Encoding.f2i : ∀ d a, Encoding.Statement (.f2i d a) := fun _ _ _ => rfl
theorem Encoding.i2f : ∀ d a, Encoding.Statement (.i2f d a) := fun _ _ _ => rfl
theorem Encoding.beq : ∀ a b off, Encoding.Statement (.beq a b off) := fun _ _ _ _ => rfl
theorem Encoding.bne : ∀ a b off, Encoding.Statement (.bne a b off) := fun _ _ _ _ => rfl
theorem Encoding.blt : ∀ a b off, Encoding.Statement (.blt a b off) := fun _ _ _ _ => rfl
theorem Encoding.bge : ∀ a b off, Encoding.Statement (.bge a b off) := fun _ _ _ _ => rfl
theorem Encoding.bltu : ∀ a b off, Encoding.Statement (.bltu a b off) := fun _ _ _ _ => rfl
theorem Encoding.bgeu : ∀ a b off, Encoding.Statement (.bgeu a b off) := fun _ _ _ _ => rfl
theorem Encoding.j : ∀ off, Encoding.Statement (.j off) := fun _ _ => rfl
theorem Encoding.jal : ∀ off, Encoding.Statement (.jal off) := fun _ _ => rfl
theorem Encoding.jalr : ∀ d a, Encoding.Statement (.jalr d a) := fun _ _ _ => rfl
theorem Encoding.jt : ∀ a b, Encoding.Statement (.jt a b) := fun _ _ _ => rfl
theorem Encoding.csrrw : ∀ d a csr, Encoding.Statement (.csrrw d a csr) := fun _ _ _ _ => rfl
theorem Encoding.csrrs : ∀ d a csr, Encoding.Statement (.csrrs d a csr) := fun _ _ _ _ => rfl
theorem Encoding.csrrc : ∀ d a csr, Encoding.Statement (.csrrc d a csr) := fun _ _ _ _ => rfl
theorem Encoding.csrrwi : ∀ d u csr, Encoding.Statement (.csrrwi d u csr) := fun _ _ _ _ => rfl
theorem Encoding.ldB : ∀ sc loc d a x, Encoding.Statement (.ldB sc loc d a x) := fun sc loc d a x h =>
  absurd ((isExtended_mkS3 0x17 d a 0 (memFn sc loc 0)).symm.trans h) (by decide)
theorem Encoding.ldH : ∀ sc loc d a x, Encoding.Statement (.ldH sc loc d a x) := fun sc loc d a x h =>
  absurd ((isExtended_mkS3 0x17 d a 0 (memFn sc loc 1)).symm.trans h) (by decide)
theorem Encoding.ldW : ∀ sc loc d a x, Encoding.Statement (.ldW sc loc d a x) := fun sc loc d a x h =>
  absurd ((isExtended_mkS3 0x17 d a 0 (memFn sc loc 2)).symm.trans h) (by decide)
theorem Encoding.ldD : ∀ sc loc d a x, Encoding.Statement (.ldD sc loc d a x) := fun sc loc d a x h =>
  absurd ((isExtended_mkS3 0x17 d a 0 (memFn sc loc 3)).symm.trans h) (by decide)
theorem Encoding.ldBu : ∀ sc loc d a x, Encoding.Statement (.ldBu sc loc d a x) := fun sc loc d a x h =>
  absurd ((isExtended_mkS3 0x17 d a 0 (memFn sc loc 4)).symm.trans h) (by decide)
theorem Encoding.ldHu : ∀ sc loc d a x, Encoding.Statement (.ldHu sc loc d a x) := fun sc loc d a x h =>
  absurd ((isExtended_mkS3 0x17 d a 0 (memFn sc loc 5)).symm.trans h) (by decide)
theorem Encoding.ldWu : ∀ sc loc d a x, Encoding.Statement (.ldWu sc loc d a x) := fun sc loc d a x h =>
  absurd ((isExtended_mkS3 0x17 d a 0 (memFn sc loc 6)).symm.trans h) (by decide)
theorem Encoding.sld : ∀ sc loc d a x, Encoding.Statement (.sld sc loc d a x) := fun sc loc d a x h =>
  absurd ((isExtended_mkS3 0x17 d a 0 (memFn sc loc 7)).symm.trans h) (by decide)
theorem Encoding.stB : ∀ sc loc a b x, Encoding.Statement (.stB sc loc a b x) := fun sc loc a b x h =>
  absurd ((isExtended_mkS3 0x18 0 a b (memFn sc loc 0)).symm.trans h) (by decide)
theorem Encoding.stH : ∀ sc loc a b x, Encoding.Statement (.stH sc loc a b x) := fun sc loc a b x h =>
  absurd ((isExtended_mkS3 0x18 0 a b (memFn sc loc 1)).symm.trans h) (by decide)
theorem Encoding.stW : ∀ sc loc a b x, Encoding.Statement (.stW sc loc a b x) := fun sc loc a b x h =>
  absurd ((isExtended_mkS3 0x18 0 a b (memFn sc loc 2)).symm.trans h) (by decide)
theorem Encoding.stD : ∀ sc loc a b x, Encoding.Statement (.stD sc loc a b x) := fun sc loc a b x h =>
  absurd ((isExtended_mkS3 0x18 0 a b (memFn sc loc 3)).symm.trans h) (by decide)
theorem Encoding.amoAdd : ∀ sc d a b x, Encoding.Statement (.amoAdd sc d a b x) := fun sc d a b x h =>
  absurd ((isExtended_mkS3 0x19 d a b (memFn sc false 0)).symm.trans h) (by decide)
theorem Encoding.amoSwap : ∀ sc d a b x, Encoding.Statement (.amoSwap sc d a b x) := fun sc d a b x h =>
  absurd ((isExtended_mkS3 0x19 d a b (memFn sc false 1)).symm.trans h) (by decide)
theorem Encoding.amoCas : ∀ sc d a b x, Encoding.Statement (.amoCas sc d a b x) := fun sc d a b x h =>
  absurd ((isExtended_mkS3 0x19 d a b (memFn sc false 2)).symm.trans h) (by decide)
theorem Encoding.amoFadd : ∀ sc d a b x, Encoding.Statement (.amoFadd sc d a b x) := fun sc d a b x h =>
  absurd ((isExtended_mkS3 0x19 d a b (memFn sc false 3)).symm.trans h) (by decide)
theorem Encoding.tshape : ∀ d tile b, Encoding.Statement (.tshape d tile b) := fun _ _ _ _ => rfl
theorem Encoding.pset : ∀ pat a, Encoding.Statement (.pset pat a) := fun _ _ _ => rfl
theorem Encoding.pget : ∀ d pat, Encoding.Statement (.pget d pat) := fun _ _ _ => rfl
theorem Encoding.fence : ∀ sc, Encoding.Statement (.fence sc) := fun _ _ => rfl
theorem Encoding.monArm : ∀ a sc, Encoding.Statement (.monArm a sc) := fun _ _ _ => rfl
theorem Encoding.monWait : ∀ d a, Encoding.Statement (.monWait d a) := fun _ _ _ => rfl
theorem Encoding.prbR : ∀ a b, Encoding.Statement (.prbR a b) := fun _ _ _ => rfl
theorem Encoding.prbW : ∀ a b, Encoding.Statement (.prbW a b) := fun _ _ _ => rfl
theorem Encoding.prbRel : ∀ a b, Encoding.Statement (.prbRel a b) := fun _ _ _ => rfl
theorem Encoding.lptLd : ∀ a, Encoding.Statement (.lptLd a) := fun _ _ => rfl
theorem Encoding.lptNx : ∀ d a, Encoding.Statement (.lptNx d a) := fun _ _ _ => rfl
theorem Encoding.lptIx : ∀ d a, Encoding.Statement (.lptIx d a) := fun _ _ _ => rfl
theorem Encoding.smpCoarse : ∀ a b sc, Encoding.Statement (.smpCoarse a b sc) := fun _ _ _ _ => rfl
theorem Encoding.smpThr : ∀ d a sc, Encoding.Statement (.smpThr d a sc) := fun _ _ _ _ => rfl
theorem Encoding.smpDraw : ∀ d a b sc, Encoding.Statement (.smpDraw d a b sc) := fun _ _ _ _ _ => rfl
theorem Encoding.specChk : ∀ d a b sc, Encoding.Statement (.specChk d a b sc) := fun _ _ _ _ _ => rfl
theorem Encoding.fragSel : ∀ d a sc, Encoding.Statement (.fragSel d a sc) := fun _ _ _ _ => rfl
theorem Encoding.tblSwap : ∀ a b sc, Encoding.Statement (.tblSwap a b sc) := fun _ _ _ _ => rfl
theorem Encoding.embPf : ∀ a b sc, Encoding.Statement (.embPf a b sc) := fun _ _ _ _ => rfl
theorem Encoding.moeCmb : ∀ a b sc, Encoding.Statement (.moeCmb a b sc) := fun _ _ _ _ => rfl
theorem Encoding.exsLd : ∀ a b sc, Encoding.Statement (.exsLd a b sc) := fun _ _ _ _ => rfl
theorem Encoding.exsCnt : ∀ d a sc, Encoding.Statement (.exsCnt d a sc) := fun _ _ _ _ => rfl
theorem Encoding.exsAge : ∀ a sc, Encoding.Statement (.exsAge a sc) := fun _ _ _ => rfl
theorem Encoding.netRx : ∀ d a sc, Encoding.Statement (.netRx d a sc) := fun _ _ _ _ => rfl
theorem Encoding.netTx : ∀ a b sc, Encoding.Statement (.netTx a b sc) := fun _ _ _ _ => rfl
theorem Encoding.tokSub : ∀ a b sc, Encoding.Statement (.tokSub a b sc) := fun _ _ _ _ => rfl
theorem Encoding.tokRes : ∀ d a sc, Encoding.Statement (.tokRes d a sc) := fun _ _ _ _ => rfl
theorem Encoding.dtkSub : ∀ a b sc, Encoding.Statement (.dtkSub a b sc) := fun _ _ _ _ => rfl
theorem Encoding.dtkRes : ∀ d a sc, Encoding.Statement (.dtkRes d a sc) := fun _ _ _ _ => rfl
theorem Encoding.vocSwap : ∀ a b sc, Encoding.Statement (.vocSwap a b sc) := fun _ _ _ _ => rfl
theorem Encoding.updS : ∀ a b sc, Encoding.Statement (.updS a b sc) := fun _ _ _ _ => rfl
theorem Encoding.updRgn : ∀ a sc, Encoding.Statement (.updRgn a sc) := fun _ _ _ => rfl
theorem Encoding.updFlags : ∀ d a sc, Encoding.Statement (.updFlags d a sc) := fun _ _ _ _ => rfl
theorem Encoding.updDrain : ∀ a sc, Encoding.Statement (.updDrain a sc) := fun _ _ _ => rfl
theorem Encoding.cpGo : ∀ a b sc, Encoding.Statement (.cpGo a b sc) := fun _ _ _ _ => rfl
theorem Encoding.cpId : ∀ d a, Encoding.Statement (.cpId d a) := fun _ _ _ => rfl
theorem Encoding.cpWait : ∀ a b sc, Encoding.Statement (.cpWait a b sc) := fun _ _ _ _ => rfl
theorem Encoding.cpAbort : ∀ a sc, Encoding.Statement (.cpAbort a sc) := fun _ _ _ => rfl
theorem Encoding.ldT : ∀ tok st tile, Encoding.Statement (.ldT tok st tile) := fun _ _ _ _ => rfl
theorem Encoding.ldA : ∀ tok st acc, Encoding.Statement (.ldA tok st acc) := fun _ _ _ _ => rfl
theorem Encoding.ldTi : ∀ tok st tile idx, Encoding.Statement (.ldTi tok st tile idx) := fun _ _ _ _ _ => rfl
theorem Encoding.ldFf : ∀ tok st tile, Encoding.Statement (.ldFf tok st tile) := fun _ _ _ _ => rfl
theorem Encoding.bmand : ∀ tok st tile rank, Encoding.Statement (.bmand tok st tile rank) := fun _ _ _ _ _ => rfl
theorem Encoding.bmpfx : ∀ tok st tile, Encoding.Statement (.bmpfx tok st tile) := fun _ _ _ _ => rfl
theorem Encoding.isxG : ∀ tok st tile idx, Encoding.Statement (.isxG tok st tile idx) := fun _ _ _ _ _ => rfl
theorem Encoding.mmaTileTile : ∀ tok acc ta tb zf fmt, Encoding.Statement (.mmaTileTile tok acc ta tb zf fmt) := fun _ _ _ _ _ _ _ => rfl
theorem Encoding.mmaPatternA : ∀ tok acc tb pat zf fmt, Encoding.Statement (.mmaPatternA tok acc tb pat zf fmt) := fun _ _ _ _ _ _ _ => rfl
theorem Encoding.mmaPatternB : ∀ tok acc ta pat zf fmt, Encoding.Statement (.mmaPatternB tok acc ta pat zf fmt) := fun _ _ _ _ _ _ _ => rfl
theorem Encoding.cmpa : ∀ tok acc ta fmt, Encoding.Statement (.cmpa tok acc ta fmt) := fun _ _ _ _ _ => rfl
theorem Encoding.acz : ∀ tok acc, Encoding.Statement (.acz tok acc) := fun _ _ _ => rfl
theorem Encoding.tsm : ∀ tok, Encoding.Statement (.tsm tok) := fun _ _ => rfl
theorem Encoding.stT : ∀ tok st tile, Encoding.Statement (.stT tok st tile) := fun _ _ _ _ => rfl
theorem Encoding.stTi : ∀ tok st tile idx, Encoding.Statement (.stTi tok st tile idx) := fun _ _ _ _ _ => rfl
theorem Encoding.stFf : ∀ tok st tile, Encoding.Statement (.stFf tok st tile) := fun _ _ _ _ => rfl
theorem Encoding.stZ : ∀ tok st, Encoding.Statement (.stZ tok st) := fun _ _ _ => rfl
theorem Encoding.stA : ∀ tok st acc, Encoding.Statement (.stA tok st acc) := fun _ _ _ _ => rfl
theorem Encoding.drn : ∀ tok st acc fmt, Encoding.Statement (.drn tok st acc fmt) := fun _ _ _ _ _ => rfl
theorem Encoding.drnT : ∀ tok tile acc fmt, Encoding.Statement (.drnT tok tile acc fmt) := fun _ _ _ _ _ => rfl
theorem Encoding.dcfgSc : ∀ tok st acc col, Encoding.Statement (.dcfgSc tok st acc col) := fun _ _ _ _ _ => rfl
theorem Encoding.dcfgBi : ∀ tok st acc col, Encoding.Statement (.dcfgBi tok st acc col) := fun _ _ _ _ _ => rfl
theorem Encoding.dcfgFn : ∀ tok st acc, Encoding.Statement (.dcfgFn tok st acc) := fun _ _ _ _ => rfl
theorem Encoding.dcfgCl : ∀ tok acc b, Encoding.Statement (.dcfgCl tok acc b) := fun _ _ _ _ => rfl
theorem Encoding.dcfgRm : ∀ tok acc b, Encoding.Statement (.dcfgRm tok acc b) := fun _ _ _ _ => rfl
theorem Encoding.srsSeed : ∀ tok b, Encoding.Statement (.srsSeed tok b) := fun _ _ _ => rfl
theorem Encoding.upd : ∀ tok key tile rg sc, Encoding.Statement (.upd tok key tile rg sc) := fun _ _ _ _ _ _ => rfl
theorem Encoding.barInit : ∀ tok q a b sc, Encoding.Statement (.barInit tok q a b sc) := fun _ _ _ _ _ _ => rfl
theorem Encoding.barExp : ∀ tok q a b sc, Encoding.Statement (.barExp tok q a b sc) := fun _ _ _ _ _ _ => rfl
theorem Encoding.barArr : ∀ tok q a sc, Encoding.Statement (.barArr tok q a sc) := fun _ _ _ _ _ => rfl
theorem Encoding.barWait : ∀ tok q a b sc, Encoding.Statement (.barWait tok q a b sc) := fun _ _ _ _ _ _ => rfl
theorem Encoding.ringCl : ∀ a b sc, Encoding.Statement (.ringCl a b sc) := fun _ _ _ _ => rfl
theorem Encoding.ringFill : ∀ tok q a b sc, Encoding.Statement (.ringFill tok q a b sc) := fun _ _ _ _ _ _ => rfl
theorem Encoding.ringTake : ∀ a b sc, Encoding.Statement (.ringTake a b sc) := fun _ _ _ _ => rfl
theorem Encoding.ringRel : ∀ tok q a b sc, Encoding.Statement (.ringRel tok q a b sc) := fun _ _ _ _ _ _ => rfl
theorem Encoding.ringWf : ∀ tok q a b sc, Encoding.Statement (.ringWf tok q a b sc) := fun _ _ _ _ _ _ => rfl
theorem Encoding.ringWe : ∀ tok q a b sc, Encoding.Statement (.ringWe tok q a b sc) := fun _ _ _ _ _ _ => rfl
theorem Encoding.evqPop : ∀ a sc, Encoding.Statement (.evqPop a sc) := fun _ _ _ => rfl
theorem Encoding.evqPost : ∀ tok q a b sc, Encoding.Statement (.evqPost tok q a b sc) := fun _ _ _ _ _ _ => rfl
theorem Encoding.spawn : ∀ a b sc, Encoding.Statement (.spawn a b sc) := fun _ _ _ _ => rfl
theorem Encoding.joinInit : ∀ a b sc, Encoding.Statement (.joinInit a b sc) := fun _ _ _ _ => rfl
theorem Encoding.joinDec : ∀ tok q a sc, Encoding.Statement (.joinDec tok q a sc) := fun _ _ _ _ _ => rfl
theorem Encoding.done : Encoding.Statement .done := fun _ => rfl
theorem Encoding.yield : Encoding.Statement .yield := fun _ => rfl
theorem Encoding.phaseEnd : Encoding.Statement .phaseEnd := fun _ => rfl
theorem Encoding.cqPush : ∀ a b sc, Encoding.Statement (.cqPush a b sc) := fun _ _ _ _ => rfl
theorem Encoding.nop : Encoding.Statement .nop := fun _ => rfl
theorem Encoding.brk : Encoding.Statement .brk := fun _ => rfl
theorem Encoding.trap : ∀ a, Encoding.Statement (.trap a) := fun _ _ => rfl
theorem Encoding.eret : Encoding.Statement .eret := fun _ => rfl
theorem Encoding.ctxSv : ∀ a, Encoding.Statement (.ctxSv a) := fun _ _ => rfl
theorem Encoding.ctxLd : ∀ a, Encoding.Statement (.ctxLd a) := fun _ _ => rfl
theorem Encoding.qsnSv : ∀ a, Encoding.Statement (.qsnSv a) := fun _ _ => rfl
theorem Encoding.qsnLd : ∀ a, Encoding.Statement (.qsnLd a) := fun _ _ => rfl
theorem Encoding.partSw : ∀ a, Encoding.Statement (.partSw a) := fun _ _ => rfl
theorem Encoding.pmIdle : Encoding.Statement .pmIdle := fun _ => rfl
theorem Encoding.eccInj : ∀ a b, Encoding.Statement (.eccInj a b) := fun _ _ _ => rfl
theorem Encoding.cntRd : ∀ d a, Encoding.Statement (.cntRd d a) := fun _ _ _ => rfl
theorem Encoding.codeLd : ∀ d a b, Encoding.Statement (.codeLd d a b) := fun _ _ _ _ => rfl
theorem Encoding.codeInv : ∀ a b, Encoding.Statement (.codeInv a b) := fun _ _ _ => rfl
theorem Encoding.kvApp : ∀ d a b, Encoding.Statement (.kvApp d a b) := fun _ _ _ _ => rfl
theorem Encoding.kvFork : ∀ d a, Encoding.Statement (.kvFork d a) := fun _ _ _ => rfl
theorem Encoding.kvRel : ∀ a, Encoding.Statement (.kvRel a) := fun _ _ => rfl
theorem Encoding.kvRd : ∀ d a, Encoding.Statement (.kvRd d a) := fun _ _ _ => rfl
theorem Encoding.kvMap : ∀ a b, Encoding.Statement (.kvMap a b) := fun _ _ _ => rfl
theorem Encoding.mapInv : ∀ a b, Encoding.Statement (.mapInv a b) := fun _ _ _ => rfl
theorem Encoding.migFrz : ∀ a b, Encoding.Statement (.migFrz a b) := fun _ _ _ => rfl
theorem Encoding.dcUnpin : ∀ a, Encoding.Statement (.dcUnpin a) := fun _ _ => rfl
theorem Encoding.dcKeep : ∀ a b, Encoding.Statement (.dcKeep a b) := fun _ _ _ => rfl
theorem Encoding.queueTrap : ∀ q, Encoding.Statement (.queueTrap q) := fun _ _ => rfl
theorem Encoding.tokenDeadlock : ∀ q, Encoding.Statement (.tokenDeadlock q) := fun _ _ => rfl
theorem Encoding.tokenSendRelease : ∀ q, Encoding.Statement (.tokenSendRelease q) := fun _ _ => rfl
theorem Encoding.fatalContextError : ∀ cause tval, Encoding.Statement (.fatalContextError cause tval) := fun _ _ _ => rfl
theorem Encoding.preemption : ∀ core how, Encoding.Statement (.preemption core how) := fun _ _ _ => rfl
theorem Encoding.contextResume : ∀ core ix, Encoding.Statement (.contextResume core ix) := fun _ _ _ => rfl
theorem Encoding.schedulerSelect : Encoding.Statement .schedulerSelect := fun _ => rfl
theorem Encoding.taskStart : ∀ ix, Encoding.Statement (.taskStart ix) := fun _ _ => rfl
theorem Encoding.heldJoinDecrement : ∀ ix, Encoding.Statement (.heldJoinDecrement ix) := fun _ _ => rfl
theorem Encoding.phaseCommit : ∀ part, Encoding.Statement (.phaseCommit part) := fun _ _ => rfl
theorem Encoding.copyClaim : ∀ die ch, Encoding.Statement (.copyClaim die ch) := fun _ _ _ => rfl
theorem Encoding.copyPiece : ∀ die ch, Encoding.Statement (.copyPiece die ch) := fun _ _ _ => rfl
theorem Encoding.copyRetire : ∀ die ch, Encoding.Statement (.copyRetire die ch) := fun _ _ _ => rfl
theorem Encoding.engineEventPost : ∀ ix, Encoding.Statement (.engineEventPost ix) := fun _ _ => rfl
theorem Encoding.tumblerPairArrival : ∀ rgn ix, Encoding.Statement (.tumblerPairArrival rgn ix) := fun _ _ _ => rfl
theorem Encoding.tumblerApplication : ∀ rgn, Encoding.Statement (.tumblerApplication rgn) := fun _ _ => rfl
theorem Encoding.samplerCoarsePass : ∀ cl, Encoding.Statement (.samplerCoarsePass cl) := fun _ _ => rfl
theorem Encoding.samplerThresholdSearch : ∀ cl, Encoding.Statement (.samplerThresholdSearch cl) := fun _ _ => rfl
theorem Encoding.samplerDrawExecution : ∀ cl, Encoding.Statement (.samplerDrawExecution cl) := fun _ _ => rfl
theorem Encoding.specCheckExecution : ∀ die, Encoding.Statement (.specCheckExecution die) := fun _ _ => rfl
theorem Encoding.expertLoadClaim : ∀ die, Encoding.Statement (.expertLoadClaim die) := fun _ _ => rfl
theorem Encoding.expertLoadComplete : ∀ die, Encoding.Statement (.expertLoadComplete die) := fun _ _ => rfl
theorem Encoding.embeddingPrefetch : ∀ die, Encoding.Statement (.embeddingPrefetch die) := fun _ _ => rfl
theorem Encoding.tokeniserStart : ∀ e, Encoding.Statement (.tokeniserStart e) := fun _ _ => rfl
theorem Encoding.tokeniserComplete : ∀ e, Encoding.Statement (.tokeniserComplete e) := fun _ _ => rfl
theorem Encoding.detokeniserStart : ∀ e, Encoding.Statement (.detokeniserStart e) := fun _ _ => rfl
theorem Encoding.detokeniserComplete : ∀ e, Encoding.Statement (.detokeniserComplete e) := fun _ _ => rfl
theorem Encoding.replyTransmit : ∀ ix, Encoding.Statement (.replyTransmit ix) := fun _ _ => rfl
theorem Encoding.frameReceive : ∀ port conn msg, Encoding.Statement (.frameReceive port conn msg) := fun _ _ _ _ => rfl
theorem Encoding.wakeRetry : ∀ ring, Encoding.Statement (.wakeRetry ring) := fun _ _ => rfl
theorem Encoding.connectionAccept : ∀ port conn job, Encoding.Statement (.connectionAccept port conn job) := fun _ _ _ _ => rfl
theorem Encoding.connectionClose : ∀ port conn, Encoding.Statement (.connectionClose port conn) := fun _ _ _ => rfl
theorem Encoding.ethernetLinkDown : ∀ port, Encoding.Statement (.ethernetLinkDown port) := fun _ _ => rfl
theorem Encoding.monWaitTimeout : ∀ core, Encoding.Statement (.monWaitTimeout core) := fun _ _ => rfl
theorem Encoding.pmIdleTimeout : ∀ core, Encoding.Statement (.pmIdleTimeout core) := fun _ _ => rfl
theorem Encoding.remoteStoreApply : ∀ hop pa seq bytes, Encoding.Statement (.remoteStoreApply hop pa seq bytes) := fun _ _ _ _ _ => rfl
theorem Encoding.storeAck : ∀ pa seq, Encoding.Statement (.storeAck pa seq) := fun _ _ _ => rfl
theorem Encoding.remoteStoreReplay : ∀ r, Encoding.Statement (.remoteStoreReplay r) := fun _ _ => rfl
theorem Encoding.nalyanFlitReceive : ∀ link seq ack good, Encoding.Statement (.nalyanFlitReceive link seq ack good) := fun _ _ _ _ _ => rfl
theorem Encoding.nalyanReplayRequest : ∀ link seq, Encoding.Statement (.nalyanReplayRequest link seq) := fun _ _ _ => rfl
theorem Encoding.nalyanPause : ∀ link, Encoding.Statement (.nalyanPause link) := fun _ _ => rfl
theorem Encoding.nalyanResume : ∀ link, Encoding.Statement (.nalyanResume link) := fun _ _ => rfl
theorem Encoding.nalyanLinkDown : ∀ link, Encoding.Statement (.nalyanLinkDown link) := fun _ _ => rfl
theorem Encoding.backInvalidateSnoop : ∀ pa, Encoding.Statement (.backInvalidateSnoop pa) := fun _ _ => rfl
theorem Encoding.poolPortLinkDown : ∀ port, Encoding.Statement (.poolPortLinkDown port) := fun _ _ => rfl
theorem Encoding.hostPortLost : Encoding.Statement .hostPortLost := fun _ => rfl
theorem Encoding.clapperMismatch : ∀ core again, Encoding.Statement (.clapperMismatch core again) := fun _ _ _ => rfl
theorem Encoding.matrixReplay : ∀ core, Encoding.Statement (.matrixReplay core) := fun _ _ => rfl
theorem Encoding.cpLockstepMismatch : ∀ die, Encoding.Statement (.cpLockstepMismatch die) := fun _ _ => rfl
theorem Encoding.cpRestartComplete : ∀ die, Encoding.Statement (.cpRestartComplete die) := fun _ _ => rfl
theorem Encoding.watchdogExpiry : ∀ core, Encoding.Statement (.watchdogExpiry core) := fun _ _ => rfl
theorem Encoding.runSliceExpiry : ∀ core, Encoding.Statement (.runSliceExpiry core) := fun _ _ => rfl
theorem Encoding.throttleStepDown : Encoding.Statement .throttleStepDown := fun _ => rfl
theorem Encoding.throttleStepUp : Encoding.Statement .throttleStepUp := fun _ => rfl
theorem Encoding.thermalStop : Encoding.Statement .thermalStop := fun _ => rfl
theorem Encoding.thermalResume : Encoding.Statement .thermalResume := fun _ => rfl
theorem Encoding.cqtailWrite : ∀ via q v, Encoding.Statement (.cqtailWrite via q v) := fun _ _ _ _ => rfl
theorem Encoding.cqctlWrite : ∀ via q v, Encoding.Statement (.cqctlWrite via q v) := fun _ _ _ _ => rfl
theorem Encoding.rngctlWrite : ∀ cl ring v, Encoding.Statement (.rngctlWrite cl ring v) := fun _ _ _ _ => rfl
theorem Encoding.rqctlWrite : ∀ via ring v, Encoding.Statement (.rqctlWrite via ring v) := fun _ _ _ _ => rfl
theorem Encoding.intstatClear : ∀ unit v, Encoding.Statement (.intstatClear unit v) := fun _ _ _ => rfl
theorem Encoding.controlPageWrite : ∀ part off bytes, Encoding.Statement (.controlPageWrite part off bytes) := fun _ _ _ _ => rfl
theorem Encoding.mailboxGo : ∀ part v, Encoding.Statement (.mailboxGo part v) := fun _ _ _ => rfl
theorem Encoding.mailboxLoadComplete : ∀ part, Encoding.Statement (.mailboxLoadComplete part) := fun _ _ => rfl
theorem Encoding.registerWrite : ∀ via place bytes, Encoding.Statement (.registerWrite via place bytes) := fun _ _ _ _ => rfl
theorem Encoding.partitionReset : ∀ part, Encoding.Statement (.partitionReset part) := fun _ _ => rfl
theorem Encoding.coldReset : Encoding.Statement .coldReset := fun _ => rfl
theorem Encoding.warmReset : Encoding.Statement .warmReset := fun _ => rfl
theorem Encoding.powerOff : Encoding.Statement .powerOff := fun _ => rfl
theorem Encoding.powerCapSet : ∀ watts, Encoding.Statement (.powerCapSet watts) := fun _ _ => rfl
theorem Encoding.pldmSensorRead : ∀ sensor, Encoding.Statement (.pldmSensorRead sensor) := fun _ _ => rfl
theorem Encoding.firmwareUpdate : ∀ target image, Encoding.Statement (.firmwareUpdate target image) := fun _ _ _ => rfl
theorem Encoding.spdmAttestation : ∀ nonce, Encoding.Statement (.spdmAttestation nonce) := fun _ _ => rfl
theorem Encoding.unassignedEncoding : ∀ w x, Encoding.Statement (.unassignedEncoding w x) := fun _ _ _ => rfl
theorem Encoding.leaseEnd : ∀ pa, Encoding.Statement (.leaseEnd pa) := fun _ _ => rfl
theorem Encoding.poolStoreAck : ∀ ix, Encoding.Statement (.poolStoreAck ix) := fun _ _ => rfl
theorem Encoding.nalyanLinkUp : ∀ link, Encoding.Statement (.nalyanLinkUp link) := fun _ _ => rfl
theorem Encoding.ethernetLinkUp : ∀ port, Encoding.Statement (.ethernetLinkUp port) := fun _ _ => rfl
theorem Encoding.poolPortLinkUp : ∀ port, Encoding.Statement (.poolPortLinkUp port) := fun _ _ => rfl
theorem Encoding.poolRegionMap : ∀ base units ports, Encoding.Statement (.poolRegionMap base units ports) := fun _ _ _ _ => rfl
theorem Encoding.hostAbort : ∀ core, Encoding.Statement (.hostAbort core) := fun _ _ => rfl
theorem Encoding.coreReturnToService : ∀ core, Encoding.Statement (.coreReturnToService core) := fun _ _ => rfl
theorem Encoding.phaseAbandon : ∀ part, Encoding.Statement (.phaseAbandon part) := fun _ _ => rfl
theorem Encoding.memoryEccError : ∀ space pa poison, Encoding.Statement (.memoryEccError space pa poison) := fun _ _ _ _ => rfl

end Sys2Proof.Laws
end

