-- ==== Sys2Proof/Tests/Slice0.lean ====
section
/-! SUPPORT. Tests: the checks of well-formedness, the decoding of words written from the encoding tables of the spec, and a
witness for the hypotheses of every statement. -/
namespace Sys2Proof.Tests
open Sys2Proof.Machine

set_option Elab.async false

/-! ## Small states -/

/-- An outcome that is a next state with a property. -/
def nexts (o : Host.Outcome State Fault Refusal) (p : State → Bool) : Bool :=
  match o with
  | .next t => p t
  | _ => false
/-- A part of a meaning answers, and its value and state have a property. -/
def okM {α : Type} (m : M α) (s : State) (p : α → State → Bool) : Bool :=
  match m s with
  | .ok (v, t) => p v t
  | .error _ => false

/-- The core runs at address 0, the window of its partition the whole store, and its word there is `nop`. -/
def base : State := State.reset.withFetchWord 32 0xF0000000
/-- The core changed. -/
def core (f : Core → Core) (s : State) : State := { s with core := f s.core }
/-- g registers set. -/
def regs (l : List (Nat × Nat)) (s : State) : State :=
  core (fun c => l.foldl (fun c p => c.setG (BitVec.ofNat 5 p.1) (BitVec.ofNat 64 p.2)) c) s
/-- Physical memory written. -/
def put (a : Nat) (bs : List Byte) (s : State) : State := { s with mem := memWrite s.mem a bs }
def put8 (a v : Nat) (s : State) : State := put a (leBytes 8 v) s
/-- The banks written. -/
def putBank (a : Nat) (bs : List Byte) (s : State) : State := { s with bank := memWrite s.bank a bs }
/-- A field of partition 0's control page. -/
def page (o n v : Nat) (s : State) : State := s.setPart 0 fun p => { p with page := setFld p.page (8 * o) (8 * n) v }
/-- The first 64 GiB of partition 0 mapped one to one. -/
def mapped : State := put8 0x104000 0x3D (put8 0x100000 0x104003 (page 0 8 0x100000 base))
/-- The core in its handler. -/
def handler (s : State) : State := core (fun c => { c with hm := true }) s
/-- The core in deterministic mode. -/
def det (s : State) : State := core (fun c => { c with det := true }) s
/-- Two states agree in everything but the long tables; of the request rings, in those that the tests use. -/
def same (t u : State) : Bool :=
  decide (t.core = u.core) && t.others == u.others && t.mem == u.mem && t.bank == u.bank && t.code == u.code &&
  t.poison == u.poison && t.bankPoison == u.bankPoison && t.codePoison == u.codePoison && t.selected == u.selected &&
  t.joins == u.joins && t.saved == u.saved && t.ctxs == u.ctxs && t.tags == u.tags && t.events == u.events &&
  t.posts == u.posts && t.regions == u.regions && t.trackers == u.trackers && t.dintstat == u.dintstat && t.log == u.log &&
  t.msix == u.msix && t.conns == u.conns && t.handed == u.handed && t.wire == u.wire && t.eth == u.eth &&
  t.sampler == u.sampler && t.accept == u.accept && t.checkNum == u.checkNum && t.experts == u.experts &&
  t.prefetch == u.prefetch && t.links == u.links && t.remote == u.remote && t.applied == u.applied && t.pools == u.pools &&
  t.acks == u.acks && t.arrivals == u.arrivals && t.msixPending == u.msixPending && t.peerMem == u.peerMem &&
  t.relayed == u.relayed && t.msixTable == u.msixTable && t.tok == u.tok && t.dtk == u.dtk && [0, 3].all (fun n => t.rq n == u.rq n) &&
  t.poolStores == u.poolStores && t.hostStores == u.hostStores && t.cps == u.cps && t.basoc == u.basoc && t.now == u.now &&
  t.nextCtx == u.nextCtx && t.nextNum == u.nextNum && t.poolUp == u.poolUp && t.power == u.power
/-- An outcome that is, as far as `same` sees, this next state. -/
def gives (o : Host.Outcome State Fault Refusal) (t : State) : Bool := nexts o (same · t)
/-- What `State.plain` says, as a test. -/
def plainB (s : State) (p : Perm) (va n pa : Nat) : Bool :=
  0 < n && va + n ≤ 2 ^ 57 && (va + n - 1) / 16384 == va / 16384 &&
  (match s.translation va with
    | some l => l.grants p && l.pa == pa
    | none => false) &&
  (isHbm pa || isLp6 pa) && s.pools.isEmpty && (linesOf pa n).all (fun l => !s.poison.contains l) && s.regions.isEmpty &&
  !s.core.det
theorem plain_of_plainB {s : State} {p : Perm} {va n pa : Nat} (h : plainB s p va n pa = true) : s.plain p va n pa := by
  unfold plainB at h
  split at h
  · rename_i l hl
    simp only [Bool.and_eq_true, decide_eq_true_eq, beq_iff_eq, Bool.or_eq_true, List.isEmpty_iff, List.all_eq_true,
      Bool.not_eq_true', List.contains_eq_mem, decide_eq_false_iff_not] at h
    obtain ⟨⟨⟨⟨⟨⟨⟨⟨h1, h2⟩, h3⟩, h4, h5⟩, h6⟩, h7⟩, h8⟩, h9⟩, h10⟩ := h
    exact ⟨h1, h2, h3, ⟨l, hl, h4, h5⟩, h6, h7, h8, h9, h10⟩
  · simp at h
/-- What `State.plainBank` says, as a test. -/
def plainBankB (s : State) (a n k : Nat) : Bool :=
  0 < n && (a + n - 1) / 0x20000 == a / 0x20000 && localOk s (s.core.who true 0) a n == some k &&
  (linesOf k n).all (fun l => !s.bankPoison.contains l) && !s.core.det
theorem plainBank_of_plainBankB {s : State} {a n k : Nat} (h : plainBankB s a n k = true) : s.plainBank a n k := by
  simp only [plainBankB, Bool.and_eq_true, decide_eq_true_eq, beq_iff_eq, List.all_eq_true, Bool.not_eq_true',
    List.contains_eq_mem, decide_eq_false_iff_not] at h
  obtain ⟨⟨⟨⟨h1, h2⟩, h3⟩, h4⟩, h5⟩ := h
  exact ⟨h1, h2, h3, h4, h5⟩
/-- What `State.mapped` says, as a test. -/
def mappedB (s : State) (part : BitVec 5) (p : Perm) (va n pa : Nat) : Bool :=
  0 < n && va + n ≤ 2 ^ 57 && (va + n - 1) / 16384 == va / 16384 && (s.walk part va).any (fun l => l.grants p && l.pa == pa) &&
  (isHbm pa || isLp6 pa) && !s.poolLost pa && (linesOf pa n).all fun l => !s.poison.contains l
/-- With no pin and no first-level line the table maps whole lines, as `State.linesWhole` says. -/
theorem linesWhole_of_table {s : State} (hp : s.core.pins = []) (hl : s.cache.l1 = []) : s.linesWhole := by
  intro x y l m h hx hy
  simp only [State.translation, hp, hl, List.findSome?_nil, List.find?_nil, Option.map_none, ite_self, Option.none_or] at hx hy
  exact walkFrom_line s h _ _ _ l m hx hy
/-- With no store on its way the sequencer's accesses are performed, as `State.wordDone` says. -/
theorem wordDone_of_none {s : State} (hr : s.remote = []) (hh : s.hostStores = []) (hp : s.poolStores = []) : s.wordDone := by
  simp [State.wordDone, hr, hh, hp]
/-- A stream descriptor that leaves doublewords 2 to 7 zero (R11). -/
def strm (loc : Bool) (va fmt rows cols rstride : Nat) : BitVec 512 :=
  BitVec.ofNat 512 (va + 2 ^ 62 * loc.toNat + 2 ^ 64 * (fmt + 2 ^ 8 * rows + 2 ^ 16 * cols + 2 ^ 32 * rstride))
/-- A stream register and a tile set. -/
def stream (r : Reg) (d : BitVec 512) (s : State) : State := core (·.setS r d) s
def tile (r : BitVec 4) (data wc cols rows fmt : Nat) (s : State) : State :=
  core (·.setTile r ⟨BitVec.ofNat 32768 data, 0, 0, BitVec.ofNat 64 (rows + 2 ^ 8 * cols + 2 ^ 16 * wc + 2 ^ 19 * fmt)⟩) s
/-- What `State.canRun` says, as a test. -/
def canRunB (i : Instr) (s : State) : Bool :=
  s.eager && i.agent != 0 && s.core.held.isNone && s.core.qtrap.isNone && (s.core.queue (queueOf i)).isEmpty &&
  waitOk s.core (queueOf i) i.tok && (!s.core.det || s.core.quiet) && !s.core.injArray && !s.core.injClap &&
  [1, 2, 3].all fun q => (s.core.queue q).head?.all fun x => !x.resumed
theorem canRun_of_canRunB {i : Instr} {s : State} (h : canRunB i s = true) : s.canRun i := by
  simp only [canRunB, Bool.and_eq_true, Bool.or_eq_true, bne_iff_ne, ne_eq, Option.isNone_iff_eq_none, List.isEmpty_iff,
    Bool.not_eq_true', List.all_eq_true] at h
  obtain ⟨⟨⟨⟨⟨⟨⟨⟨⟨h1, h2⟩, h3⟩, h4⟩, h5⟩, h6⟩, h7⟩, h8⟩, h9⟩, h10⟩ := h
  exact ⟨h1, h2, h3, h4, h5, h6, h7, h8, h9, fun q hq x hx => by simpa [hx] using h10 q hq⟩
/-- A store that waits for the pool or the host, of 8 bytes. -/
def sentStore (core : BitVec 11) (agent task : Nat) (pa : BitVec 52) (sc : BitVec 3) : PoolStore :=
  ⟨core, agent, 0, task, 0, pa, List.replicate 8 7, sc, false, false⟩
/-- The word completes with effects and leaves a state, as `State.completes` says. -/
def completesB (s : State) (i : Instr) (t : State) (f : Eff) : Bool :=
  sendOk t.core (queueOf i) i.tok && !t.queueFar (queueOf i) && gives (exec i s) (s.ran i t f)
/-- Doublewords written one after another. -/
def puts (a : Nat) (l : List Nat) (s : State) : State := put a (l.flatMap (leBytes 8)) s
/-- A kv record of length 17 at 0x2000 whose descriptor stands at 0x3000: pages 0 and 1 of four, page 2 free, tokens of 8
bytes at 0x8000, entries at 0x4000 (R287-R289). -/
def kvState : State :=
  puts 0x4000 [2 ^ 48 + 16 * 2 ^ 43, 2 ^ 48 + 2 ^ 43, 3, 0xFFFFFFFF]
    (puts 0x3000 [0x4000, 8 + 2 ^ 32 * 4, 0x8000, 2]
      (puts 0x2000 [0x3000, 17 + 2 ^ 32 * 0xFFFFFFFF, 2 ^ 32, 2 ^ 64 - 1, 2 ^ 64 - 1, 2 ^ 64 - 1, 2 ^ 64 - 1, 2 ^ 64 - 1] mapped))
/-- An empty record at 0x2040 beside it. -/
def kvPair : State :=
  puts 0x2040 [0x3000, 2 ^ 32 * 0xFFFFFFFF, 2 ^ 64 - 1, 2 ^ 64 - 1, 2 ^ 64 - 1, 2 ^ 64 - 1, 2 ^ 64 - 1, 2 ^ 64 - 1] kvState
/-- A copy record of 64 bytes from 0x3000 to 0x4000 under way (R170). -/
def copyRun : CopyRun :=
  ⟨⟨3, 5, 0x2000, 0, 0, 2, false, 0, 0, 0, 0, 0⟩, 0x2000, 0, 0, false, none, none, 0, false, 0, 0, 5, false, [], []⟩
/-- The descriptor of a region of `n` elements at 0x6000 whose spill area of 128 bytes stands at 0x8000 (R200). -/
def rgnDesc (n fmt op scope quota : Nat) : List Nat :=
  [0x6000, fmt + 2 ^ 20 * op + 2 ^ 29 * scope + 2 ^ 32 * n, 0x8000, quota + 2 ^ 32 * 128]
/-- A region that adds, declared: four elements of 32 bits. -/
def rgn : Region :=
  newRegion 0 (leVec 512 ((rgnDesc 4 8 0 1 2 ++ [0, 0, 0, 0]).flatMap (leBytes 8))) mapped.core [(1, 1), (2, 2)]
def rgnState : State := { mapped with regions := [rgn] }
/-- The regions of a state changed. -/
def rgns (f : Region → Region) (s : State) : State := { s with regions := s.regions.map f }
/-- Doublewords as one number. -/
def dws (l : List Nat) : Nat := leNat (l.flatMap (leBytes 8))
/-- A command of an engine of a number, from core 0 of partition 0. -/
def cmd (unit op a b x snap snap2 : Nat) : Command :=
  ⟨unit, op, 1, 0, 0, 2, BitVec.ofNat 64 a, BitVec.ofNat 64 b, BitVec.ofNat 64 x, BitVec.ofNat 512 snap, BitVec.ofNat 512 snap2, 0, false,
    0, 0, 0, 0, 0⟩
/-- A sampling descriptor of `rows` rows of one weight at 0x4000, their blocks at 0x5000 (R358). -/
def smpDesc (rows : Nat) : Nat := dws [0x4000, 2 ^ 8 * rows + 2 ^ 32, 2 ^ 34, 0x5000, 0x3F800000 + 2 ^ 32]
/-- The sampler of cluster 0 with one command. -/
def sampling (k : Command) (s : State) : State := { s with sampler := vmod s.sampler 0 fun _ => [k] }

/-! ## Words without a form are refused (R18, R27, R47, R49, R54, R96, R101, R114, R115, R189) -/

theorem test_wf_scope : (Instr.ldB 7 false 1 2 0).wellFormed = false := by decide +kernel
theorem test_wf_evqpop_odd : (Instr.evqPop 3 1).wellFormed = false := by decide +kernel
theorem test_wf_evqpop_zero : (Instr.evqPop 0 1).wellFormed = false := by decide +kernel
theorem test_wf_mma_format : (Instr.mmaTileTile noTok 1 2 3 true 3).wellFormed = false := by decide +kernel
theorem test_wf_mma_pattern : (Instr.mmaPatternA noTok 1 2 0 true 7).wellFormed = false := by decide +kernel
theorem test_wf_cmpa_format : (Instr.cmpa noTok 1 2 13).wellFormed = false := by decide +kernel
theorem test_wf_drn_format : (Instr.drn noTok 1 2 14).wellFormed = false := by decide +kernel
theorem test_wf_drnT_format : (Instr.drnT noTok 1 2 13).wellFormed = false := by decide +kernel
theorem test_wf_load_waits_up : (Instr.ldT ⟨true, false, false, false⟩ 1 2).wellFormed = false := by decide +kernel
theorem test_wf_sequencer_token : (Instr.barWait ⟨false, true, false, false⟩ 0 1 2 1).wellFormed = false := by decide +kernel
theorem test_wf_event : Instr.schedulerSelect.wellFormed = false := by decide +kernel
theorem test_wf_good : (Instr.mmaTileTile noTok 1 2 3 true 7).wellFormed = true := by decide +kernel

/-! ## Words written from the encoding tables of the spec (R46-R54), family by family -/

/-- Every word of a list decodes to its instruction, which is well-formed. -/
def decodeAll (l : List (Word × Word × Instr)) : Bool :=
  l.all fun r => match decode r.1 r.2.1 with
    | .ok i => decide (i = r.2.2) && r.2.2.wellFormed
    | .error _ => false

theorem test_decode_integer_1 : decodeAll [
    (0x002AA980, 0, .add 21 10 19), (0x002AA981, 0, .sub 21 10 19), (0x002AA982, 0, .and 21 10 19),
    (0x002AA983, 0, .or 21 10 19), (0x002AA984, 0, .xor 21 10 19), (0x002AA985, 0, .sll 21 10 19),
    (0x002AA986, 0, .srl 21 10 19), (0x002AA987, 0, .sra 21 10 19), (0x002AA988, 0, .slt 21 10 19),
    (0x002AA989, 0, .sltu 21 10 19), (0x002AA98A, 0, .mul 21 10 19), (0x002AA98B, 0, .mulh 21 10 19),
    (0x002AA98C, 0, .mulhu 21 10 19), (0x002AA98D, 0, .div 21 10 19), (0x002AA98E, 0, .divu 21 10 19),
    (0x002AA98F, 0, .rem 21 10 19), (0x002AA990, 0, .remu 21 10 19), (0x002AA991, 0, .min 21 10 19),
    (0x002AA992, 0, .max 21 10 19), (0x002AA993, 0, .minu 21 10 19)] = true := by decide +kernel

theorem test_decode_integer_2 : decodeAll [
    (0x002AA994, 0, .maxu 21 10 19), (0x002AA018, 0, .clz 21 10), (0x002AA019, 0, .ctz 21 10),
    (0x002AA01A, 0, .popc 21 10), (0x002AA01B, 0, .sxb 21 10), (0x002AA01C, 0, .sxh 21 10), (0x002AA01D, 0, .sxw 21 10),
    (0x042AA7FD, 0, .addi 21 10 2045), (0x082AA7FD, 0, .andi 21 10 2045), (0x0C2AA7FD, 0, .ori 21 10 2045),
    (0x102AA7FD, 0, .xori 21 10 2045), (0x142AA02D, 0, .slli 21 10 45), (0x142AA42D, 0, .srli 21 10 45),
    (0x142AA82D, 0, .srai 21 10 45), (0x182AA7FD, 0, .slti 21 10 2045), (0x1C2AA7FD, 0, .sltiu 21 10 2045),
    (0x202A0000, 0x89ABCDEF, .li 21 0x89ABCDEF), (0x202A0001, 0x89ABCDEF, .lih 21 0x89ABCDEF)] = true := by decide +kernel

theorem test_decode_float : decodeAll [
    (0x242AA980, 0, .fadd 21 10 19), (0x242AA981, 0, .fsub 21 10 19), (0x242AA982, 0, .fmul 21 10 19),
    (0x242AA983, 0, .fdiv 21 10 19), (0x242AA004, 0, .fsqrt 21 10), (0x242AA985, 0, .fmin 21 10 19),
    (0x242AA986, 0, .fmax 21 10 19), (0x242AA987, 0, .fcmp 21 10 19), (0x242AA008, 0, .f2i 21 10),
    (0x242AA009, 0, .i2f 21 10)] = true := by decide +kernel

theorem test_decode_control : decodeAll [
    (0x281539A5, 0, .beq 10 19 2469), (0x2C1539A5, 0, .bne 10 19 2469), (0x301539A5, 0, .blt 10 19 2469),
    (0x341539A5, 0, .bge 10 19 2469), (0x381539A5, 0, .bltu 10 19 2469), (0x3C1539A5, 0, .bgeu 10 19 2469),
    (0x402ABCDE, 0, .j 2800862), (0x442ABCDE, 0, .jal 2800862), (0x482AA000, 0, .jalr 21 10), (0x4800A981, 0, .jt 10 19)] = true := by decide +kernel

theorem test_decode_csr : decodeAll [
    (0x4C2AA5A3, 0, .csrrw 21 10 1443), (0x502AA5A3, 0, .csrrs 21 10 1443), (0x542AA5A3, 0, .csrrc 21 10 1443),
    (0x582BB5A3, 0, .csrrwi 21 27 1443)] = true := by decide +kernel

theorem test_decode_memory : decodeAll [
    (0x5C2AA030, 0x89ABCDEF, .ldB 3 false 21 10 0x89ABCDEF), (0x5C2AA039, 0x89ABCDEF, .ldH 3 true 21 10 0x89ABCDEF),
    (0x5C2AA032, 0x89ABCDEF, .ldW 3 false 21 10 0x89ABCDEF), (0x5C2AA03B, 0x89ABCDEF, .ldD 3 true 21 10 0x89ABCDEF),
    (0x5C2AA034, 0x89ABCDEF, .ldBu 3 false 21 10 0x89ABCDEF), (0x5C2AA03D, 0x89ABCDEF, .ldHu 3 true 21 10 0x89ABCDEF),
    (0x5C2AA036, 0x89ABCDEF, .ldWu 3 false 21 10 0x89ABCDEF), (0x5C2AA03F, 0x89ABCDEF, .sld 3 true 21 10 0x89ABCDEF),
    (0x6000A9B8, 0x89ABCDEF, .stB 3 true 10 19 0x89ABCDEF), (0x6000A9B1, 0x89ABCDEF, .stH 3 false 10 19 0x89ABCDEF),
    (0x6000A9BA, 0x89ABCDEF, .stW 3 true 10 19 0x89ABCDEF), (0x6000A9B3, 0x89ABCDEF, .stD 3 false 10 19 0x89ABCDEF),
    (0x642AA9B0, 0x89ABCDEF, .amoAdd 3 21 10 19 0x89ABCDEF), (0x642AA9B1, 0x89ABCDEF, .amoSwap 3 21 10 19 0x89ABCDEF),
    (0x642AA9B2, 0x89ABCDEF, .amoCas 3 21 10 19 0x89ABCDEF), (0x642AA9B3, 0x89ABCDEF, .amoFadd 3 21 10 19 0x89ABCDEF)] = true := by decide +kernel

theorem test_decode_scalar : decodeAll [
    (0x682A9980, 0, .tshape 21 9 19), (0x680AA001, 0, .pset 5 10), (0x682A5002, 0, .pget 21 5), (0x6C000003, 0, .fence 3),
    (0x6C00A00B, 0, .monArm 10 3), (0x6C2AA010, 0, .monWait 21 10), (0x6C00A998, 0, .prbR 10 19),
    (0x6C00A9A0, 0, .prbW 10 19), (0x6C00A9A8, 0, .prbRel 10 19), (0x7000A000, 0, .lptLd 10),
    (0x702AA001, 0, .lptNx 21 10), (0x702AA002, 0, .lptIx 21 10)] = true := by decide +kernel

theorem test_decode_serving : decodeAll [
    (0x7400A9B0, 0, .smpCoarse 10 19 3), (0x742AA031, 0, .smpThr 21 10 3), (0x742AA9B2, 0, .smpDraw 21 10 19 3),
    (0x742AA9B3, 0, .specChk 21 10 19 3), (0x742AA034, 0, .fragSel 21 10 3), (0x7400A9B5, 0, .tblSwap 10 19 3),
    (0x7400A9B6, 0, .embPf 10 19 3), (0x7400A9B7, 0, .moeCmb 10 19 3), (0x7400A9B8, 0, .exsLd 10 19 3),
    (0x742AA039, 0, .exsCnt 21 10 3), (0x7400A03A, 0, .exsAge 10 3)] = true := by decide +kernel

theorem test_decode_text : decodeAll [
    (0x782AA030, 0, .netRx 21 10 3), (0x7800A9B1, 0, .netTx 10 19 3), (0x7800A9B2, 0, .tokSub 10 19 3),
    (0x782AA033, 0, .tokRes 21 10 3), (0x7800A9B4, 0, .dtkSub 10 19 3), (0x782AA035, 0, .dtkRes 21 10 3),
    (0x7800A9B6, 0, .vocSwap 10 19 3)] = true := by decide +kernel

theorem test_decode_update_copy : decodeAll [
    (0x7C00A9B0, 0, .updS 10 19 3), (0x7C00A031, 0, .updRgn 10 3), (0x7C2AA032, 0, .updFlags 21 10 3),
    (0x7C00A033, 0, .updDrain 10 3), (0x7C00A9B8, 0, .cpGo 10 19 3), (0x7C2AA009, 0, .cpId 21 10),
    (0x7C00A9BA, 0, .cpWait 10 19 3), (0x7C00A03B, 0, .cpAbort 10 3)] = true := by decide +kernel

theorem test_decode_loads : decodeAll [
    (0x81632000, 0, .ldT ⟨false, true, false, true⟩ 17 9), (0x81624001, 0, .ldA ⟨false, true, false, true⟩ 17 2),
    (0x81632602, 0, .ldTi ⟨false, true, false, true⟩ 17 9 6), (0x81632003, 0, .ldFf ⟨false, true, false, true⟩ 17 9),
    (0x85632600, 0, .bmand ⟨false, true, false, true⟩ 17 9 6), (0x85632001, 0, .bmpfx ⟨false, true, false, true⟩ 17 9),
    (0x85632602, 0, .isxG ⟨false, true, false, true⟩ 17 9 6)] = true := by decide +kernel

theorem test_decode_matrix : decodeAll [
    (0xA363C087, 0, .mmaTileTile ⟨true, true, false, true⟩ 2 3 12 true 7),
    (0xA360CA87, 0, .mmaPatternA ⟨true, true, false, true⟩ 2 12 5 true 7),
    (0xA3630B87, 0, .mmaPatternB ⟨true, true, false, true⟩ 2 3 5 true 7),
    (0xA7630007, 0, .cmpa ⟨true, true, false, true⟩ 2 3 7), (0xAB600000, 0, .acz ⟨true, true, false, true⟩ 2),
    (0xAB400001, 0, .tsm ⟨true, true, false, true⟩)] = true := by decide +kernel

theorem test_decode_stores : decodeAll [
    (0xC2232000, 0, .stT ⟨true, false, false, false⟩ 17 9), (0xC2232601, 0, .stTi ⟨true, false, false, false⟩ 17 9 6),
    (0xC2232002, 0, .stFf ⟨true, false, false, false⟩ 17 9), (0xC2220003, 0, .stZ ⟨true, false, false, false⟩ 17),
    (0xC2224004, 0, .stA ⟨true, false, false, false⟩ 17 2), (0xC6224007, 0, .drn ⟨true, false, false, false⟩ 17 2 7),
    (0xC6012227, 0, .drnT ⟨true, false, false, false⟩ 9 2 7),
    (0xC6224041, 0, .dcfgSc ⟨true, false, false, false⟩ 17 2 true),
    (0xC6224061, 0, .dcfgBi ⟨true, false, false, false⟩ 17 2 true),
    (0xC6224080, 0, .dcfgFn ⟨true, false, false, false⟩ 17 2), (0xC60054A0, 0, .dcfgCl ⟨true, false, false, false⟩ 2 20),
    (0xC60054C0, 0, .dcfgRm ⟨true, false, false, false⟩ 2 20), (0xC60014E0, 0, .srsSeed ⟨true, false, false, false⟩ 20),
    (0xCA1B3460, 0, .upd ⟨true, false, false, false⟩ 13 9 20 3)] = true := by decide +kernel

theorem test_decode_sync : decodeAll [
    (0xE3654D80, 0, .barInit ⟨true, true, false, true⟩ 2 10 19 3),
    (0xE3654D81, 0, .barExp ⟨true, true, false, true⟩ 2 10 19 3),
    (0xE3650182, 0, .barArr ⟨true, true, false, true⟩ 2 10 3),
    (0xE3654D83, 0, .barWait ⟨true, true, false, true⟩ 2 10 19 3), (0xE4054D80, 0, .ringCl 10 19 3),
    (0xE7654D81, 0, .ringFill ⟨true, true, false, true⟩ 2 10 19 3), (0xE4054D82, 0, .ringTake 10 19 3),
    (0xE7654D83, 0, .ringRel ⟨true, true, false, true⟩ 2 10 19 3),
    (0xE7654D84, 0, .ringWf ⟨true, true, false, true⟩ 2 10 19 3),
    (0xE7654D85, 0, .ringWe ⟨true, true, false, true⟩ 2 10 19 3), (0xE8050180, 0, .evqPop 10 3),
    (0xEB654D81, 0, .evqPost ⟨true, true, false, true⟩ 2 10 19 3), (0xEC054D80, 0, .spawn 10 19 3),
    (0xEC054D81, 0, .joinInit 10 19 3), (0xEF650182, 0, .joinDec ⟨true, true, false, true⟩ 2 10 3), (0xEC000003, 0, .done),
    (0xEC000004, 0, .yield), (0xEC000005, 0, .phaseEnd), (0xEC054D86, 0, .cqPush 10 19 3)] = true := by decide +kernel

theorem test_decode_system_1 : decodeAll [
    (0xF0000000, 0, .nop), (0xF0000001, 0, .brk), (0xF000A002, 0, .trap 10), (0xF0000003, 0, .eret),
    (0xF000A004, 0, .ctxSv 10), (0xF000A005, 0, .ctxLd 10), (0xF000A006, 0, .qsnSv 10), (0xF000A007, 0, .qsnLd 10),
    (0xF000A008, 0, .partSw 10), (0xF0000009, 0, .pmIdle), (0xF000A98A, 0, .eccInj 10 19), (0xF02AA00B, 0, .cntRd 21 10),
    (0xF42AA980, 0, .codeLd 21 10 19), (0xF400A981, 0, .codeInv 10 19), (0xF42AA982, 0, .kvApp 21 10 19),
    (0xF42AA003, 0, .kvFork 21 10), (0xF400A004, 0, .kvRel 10), (0xF42AA005, 0, .kvRd 21 10),
    (0xF400A986, 0, .kvMap 10 19), (0xF400A987, 0, .mapInv 10 19)] = true := by decide +kernel

theorem test_decode_system_2 : decodeAll [
    (0xF400A988, 0, .migFrz 10 19), (0xF800A000, 0, .dcUnpin 10), (0xF800A981, 0, .dcKeep 10 19)] = true := by decide +kernel

/-! ## Witnesses: concrete states that meet the hypotheses of each statement, clause by clause -/

/-! ### Encoding, the step, integers -/

theorem witness_DecodeEncode : (
    (Instr.add 31 0 1).wellFormed) = true := by decide +kernel

theorem witness_EncodeDecode : (
    decide (decode 0x5C021007 0x40 = .ok (.sld 0 false 1 1 0x40)) && isExtended 0x5C021007) = true := by decide +kernel

theorem witness_DecodeRefuses_unassigned : (
    decide (decodeWord 0x03C0007F 0 = none)) = true := by decide +kernel

theorem witness_DecodeRefuses_token : (
    decide (decodeWord 0x00400000 0 = some (.add 0 0 0)) && fTok 0x00400000 &&& ~~~ tokAllowed (wordAgent 0x00400000) != 0) = true := by decide +kernel

theorem witness_StepRunsDecoded_agenda : (
    let s : State := { base with agenda := [.word] }
    s.power && s.ready && s.core.runnable && decide (fetchInstr s = .ok .nop) &&
        gives (step s) { core (·.after 4 .next) base with now := 1 }) = true := by decide +kernel

theorem witness_StepRunsDecoded_own : (
    let s : State := { base with agenda := [] }
    s.power && s.ready && s.core.runnable && (autoTurn { s with now := 1 }).isNone &&
        decide (fetchInstr s = .ok .nop) && gives (step s) { core (·.after 4 .next) s with now := 1 }) = true := by decide +kernel

/-- A pair on its way gives another agent something to do; the core's turn comes first where the time is even. -/
theorem witness_StepRunsDecoded_turn : (
    let s : State := { rgns (fun r => { r with transit := [⟨1, 5, 0, 0, 1⟩] }) rgnState with agenda := [] }
    s.power && s.ready && s.core.runnable && (autoTurn { s with now := 1 }).isSome && s.now % 2 == 0 &&
        decide (fetchInstr s = .ok .nop) && gives (step s) { core (·.after 4 .next) s with now := 1 }) = true := by decide +kernel

theorem witness_StepRunsDecoded_done : base.wordDone ∧ rgnState.wordDone :=
  ⟨wordDone_of_none (by decide) (by decide) (by decide), wordDone_of_none (by decide +kernel) (by decide +kernel) (by decide +kernel)⟩

/-- A store of the core to the host is on its way: its next word waits (R224). -/
theorem witness_StepRunsDecoded_waits : let s : State := { base with agenda := [.word], hostStores := [sentStore 0 0 0 (2 ^ 40) 2] }
    ¬ s.wordDone ∧ (s.power && s.ready && s.core.runnable && gives (step s) { s with now := 1, agenda := [] }) = true := by
  refine ⟨fun h => h.2.1 (sentStore 0 0 0 (2 ^ 40) 2) (by simp) ⟨rfl, by decide +kernel⟩, by decide +kernel⟩

theorem witness_FetchReadsCode : (
    base.fetchOk 0 && !base.fetchPoison 0 && base.codeWord 0 == 0xF0000000 && decide (fetchInstr base = .ok .nop)) = true := by decide +kernel

theorem witness_FetchReadsCode_extended : (
    let s := State.reset.withFetchWord 64 0x12345678200A0000
    s.fetchOk 0 && s.fetchOk 4 && !s.fetchPoison 4 && isExtended (s.codeWord 0) && s.codeWord 4 == 0x12345678 &&
        decide (fetchInstr s = .ok (.li 5 0x12345678))) = true := by decide +kernel

theorem witness_MemoryFormKept : (
    memWf mapped.mem && memWf mapped.bank && memWf mapped.code && nexts (step mapped) fun t => memWf t.mem) = true := by decide +kernel

theorem witness_NothingRefused_off : (
    let s : State := { base with power := false, agenda := [.word] }
    nexts (step s) fun t => t.core.pc == 0) = true := by decide +kernel

theorem witness_Division : (
    let s := regs [(2, 2 ^ 64 - 7), (3, 2)] base
    s.core.rg 3 != 0 && gives (exec (.rem 1 2 3) s) (s.wroteF 4 1 (wrapI (-1)) 0) &&
        gives (exec (.div 1 2 3) s) (s.wroteF 4 1 (wrapI (-3)) 0)) = true := by decide +kernel

theorem witness_Division_zero : (
    let s := regs [(2, 7)] base
    s.core.rg 3 == 0 && gives (exec (.div 1 2 3) s) (s.wroteF 4 1 (wrapI (-1)) flDz)) = true := by decide +kernel

theorem witness_Division_big : (
    let s := regs [(2, 2 ^ 63), (3, 2 ^ 64 - 1)] base
    sInt (s.core.rg 2) == -2 ^ 63 && sInt (s.core.rg 3) == -1 &&
        gives (exec (.div 1 2 3) s) (s.wroteF 4 1 (wrapI (-2 ^ 63)) flIovf) &&
        gives (exec (.rem 1 2 3) s) (s.wroteF 4 1 0 0)) = true := by decide +kernel

theorem witness_RegisterZero : (
    (base.core.setG 31 7).rg 31 == 7 && (base.core.setG 31 7).rg 30 == 0) = true := by decide +kernel

theorem witness_ComputeFrame : (
    gives (exec (.fadd 1 0 0) base) (base.wroteF 4 1 0 0) && nexts (exec (.clz 1 0) base) fun t => t.core.rg 1 == 64) = true := by decide +kernel

theorem witness_Integer_corners : (
    let s := regs [(2, 2 ^ 63), (3, 2 ^ 64 - 1)] base
    gives (exec (.mulh 1 2 3) s) (s.wrote 4 1 (wrapI ((-2 ^ 63) * (-1) / 2 ^ 64))) &&
        gives (exec (.sra 1 2 3) s) (s.wrote 4 1 (wrapI (-1))) &&
        gives (exec (.mulhu 1 2 3) s) (s.wrote 4 1 (wrapN (2 ^ 63 * (2 ^ 64 - 1) / 2 ^ 64)))) = true := by decide +kernel

theorem witness_Immediate_corners : (
    let s := regs [(2, 1)] base
    gives (exec (.sltiu 1 2 0xFFF) s) (s.wrote 4 1 1) && gives (exec (.slti 1 2 0xFFF) s) (s.wrote 4 1 0) &&
        gives (exec (.lih 2 0x89ABCDEF) s) (s.wrote 8 2 0x89ABCDEF00000001) &&
        gives (exec (.li 2 0x89ABCDEF) s) (s.wrote 8 2 0xFFFFFFFF89ABCDEF)) = true := by decide +kernel

/-! ### Floats, jumps, special registers -/

theorem witness_FloatSpecials_snan : (
    let s := regs [(2, 0x7F800001), (3, 0x3F800000)] base
    let x := (s.core.rg 2).setWidth 32
    decide (f32Exp x = 255 ∧ f32Frac x ≠ 0) && !x.getLsbD 22 &&
        gives (exec (.fmul 1 2 3) s) (s.wroteF 4 1 0x7FC00000 flNv) &&
        gives (exec (.fsqrt 1 2) s) (s.wroteF 4 1 0x7FC00000 flNv)) = true := by decide +kernel

theorem witness_FloatSpecials_qnan : (
    let s := regs [(2, 0x7FC01234), (3, 0x3F800000)] base
    gives (exec (.fdiv 1 2 3) s) (s.wroteF 4 1 0x7FC00000 0) && gives (exec (.fadd 1 2 3) s) (s.wroteF 4 1 0x7FC00000 0)) = true := by decide +kernel

theorem witness_FloatSpecials_infinities : (
    let s := regs [(2, 0x7F800000), (3, 0xFF800000)] base
    gives (exec (.fadd 1 2 3) s) (s.wroteF 4 1 0x7FC00000 flNv) &&
        gives (exec (.fsub 1 2 2) s) (s.wroteF 4 1 0x7FC00000 flNv) &&
        gives (exec (.fdiv 1 2 3) s) (s.wroteF 4 1 0x7FC00000 flNv)) = true := by decide +kernel

theorem witness_FloatSpecials_zero : (
    let s := regs [(2, 0x80000000), (3, 0x7F800000), (4, 0x3F800000)] base
    gives (exec (.fmul 1 2 3) s) (s.wroteF 4 1 0x7FC00000 flNv) &&
        gives (exec (.fdiv 1 2 2) s) (s.wroteF 4 1 0x7FC00000 flNv) &&
        gives (exec (.fdiv 1 4 2) s) (s.wroteF 4 1 0xFF800000 flDz) &&
        gives (exec (.fsqrt 1 2) s) (s.wroteF 4 1 0x80000000 0)) = true := by decide +kernel

theorem witness_FloatSpecials_negative : (
    let s := regs [(2, 0xBF800000)] base
    gives (exec (.fsqrt 1 2) s) (s.wroteF 4 1 0x7FC00000 flNv)) = true := by decide +kernel

theorem witness_FloatSpecials_infinite_results : (
    let s := regs [(2, 0x7F800000), (3, 0xFF800000), (4, 0xBF800000)] base
    gives (exec (.fadd 1 2 4) s) (s.wroteF 4 1 0x7F800000 0) && gives (exec (.fadd 1 2 2) s) (s.wroteF 4 1 0x7F800000 0) &&
        gives (exec (.fadd 1 4 3) s) (s.wroteF 4 1 0xFF800000 0) && gives (exec (.fsub 1 4 3) s) (s.wroteF 4 1 0x7F800000 0) &&
        gives (exec (.fsub 1 2 3) s) (s.wroteF 4 1 0x7F800000 0) && gives (exec (.fmul 1 2 4) s) (s.wroteF 4 1 0xFF800000 0) &&
        gives (exec (.fmul 1 4 3) s) (s.wroteF 4 1 0x7F800000 0) && gives (exec (.fdiv 1 3 4) s) (s.wroteF 4 1 0x7F800000 0) &&
        gives (exec (.fdiv 1 2 0) s) (s.wroteF 4 1 0x7F800000 0) && gives (exec (.fdiv 1 4 2) s) (s.wroteF 4 1 0x80000000 0) &&
        gives (exec (.fsqrt 1 2) s) (s.wroteF 4 1 0x7F800000 0)) = true := by decide +kernel

theorem witness_FloatSpecials_exact_zeros : (
    let s := regs [(2, 0x80000000), (3, 0x3F800000), (4, 0xBF800000)] base
    gives (exec (.fadd 1 3 4) s) (s.wroteF 4 1 0 0) && gives (exec (.fadd 1 2 2) s) (s.wroteF 4 1 0x80000000 0) &&
        gives (exec (.fsub 1 3 3) s) (s.wroteF 4 1 0 0) && gives (exec (.fsub 1 2 0) s) (s.wroteF 4 1 0x80000000 0) &&
        gives (exec (.fmul 1 0 4) s) (s.wroteF 4 1 0x80000000 0) && gives (exec (.fmul 1 2 4) s) (s.wroteF 4 1 0 0) &&
        gives (exec (.fdiv 1 0 4) s) (s.wroteF 4 1 0x80000000 0) && gives (exec (.i2f 1 0) s) (s.wroteF 4 1 0 0)) = true := by decide +kernel

theorem witness_FloatRounds : (
    let s := regs [(2, 0x4CBEBC20), (3, 0x3F800000), (4, 0x7F7FFFFF)] base
    gives (exec (.fadd 1 2 3) s) (s.wroteF 4 1 0x4CBEBC20 flNx) &&
        gives (exec (.fadd 1 4 4) s) (s.wroteF 4 1 0x7F800000 (flOf ||| flNx)) &&
        gives (exec (.fdiv 1 3 2) s) (s.wroteF 4 1 0x322BCC77 flNx)) = true := by decide +kernel

/-- Ties to even, a result below the normal range, the square root of 2, integers of 25 bits, and sums at the overflow bound. -/
theorem witness_FloatRounds_corners : (
    let s := regs [(2, 0x3F800000), (3, 0x33800000), (4, 0x3F800001), (5, 0x00800001), (6, 0x3F000000), (7, 0x40000000),
      (8, 2 ^ 24 + 1), (9, 2 ^ 24 + 3), (10, 0x7F000000), (11, 0x7EFFFFFF), (12, 0x7F7FFFFF), (13, 0x72800000)] base
    gives (exec (.fadd 1 2 3) s) (s.wroteF 4 1 0x3F800000 flNx) && gives (exec (.fadd 1 4 3) s) (s.wroteF 4 1 0x3F800002 flNx) &&
        gives (exec (.fmul 1 5 6) s) (s.wroteF 4 1 0x00400000 (flNx ||| flUf)) &&
        gives (exec (.fsqrt 1 7) s) (s.wroteF 4 1 0x3FB504F3 flNx) && gives (exec (.i2f 1 8) s) (s.wroteF 4 1 0x4B800000 flNx) &&
        gives (exec (.i2f 1 9) s) (s.wroteF 4 1 0x4B800002 flNx) &&
        gives (exec (.fadd 1 10 11) s) (s.wroteF 4 1 0x7F800000 (flOf ||| flNx)) &&
        gives (exec (.fadd 1 12 13) s) (s.wroteF 4 1 0x7F7FFFFF flNx)) = true := by decide +kernel

theorem witness_FloatOrder : (
    let s := regs [(2, 0x80000000), (3, 0), (4, 0x3F800000), (5, 0x7F800001)] base
    gives (exec (.fcmp 1 2 3) s) (s.wroteF 4 1 2 0) && gives (exec (.fmin 1 3 2) s) (s.wroteF 4 1 0x80000000 0) &&
        gives (exec (.fmax 1 2 3) s) (s.wroteF 4 1 0 0) && gives (exec (.fcmp 1 4 5) s) (s.wroteF 4 1 8 flNv) &&
        gives (exec (.fmin 1 4 5) s) (s.wroteF 4 1 0x3F800000 flNv) && gives (exec (.fcmp 1 2 4) s) (s.wroteF 4 1 1 0) &&
        gives (exec (.fmax 1 5 5) s) (s.wroteF 4 1 0x7FC00000 flNv)) = true := by decide +kernel

theorem witness_FloatToInteger : (
    let s := regs [(2, 0x3FC00000), (3, 0x40200000), (4, 0x5F000000), (5, 0xDF000000), (6, 0x7FC00000), (7, 0xFF800000)]
        base
    gives (exec (.f2i 1 2) s) (s.wroteF 4 1 2 flNx) && gives (exec (.f2i 1 3) s) (s.wroteF 4 1 2 flNx) &&
        gives (exec (.f2i 1 4) s) (s.wroteF 4 1 (wrapI (2 ^ 63 - 1)) flNv) &&
        gives (exec (.f2i 1 5) s) (s.wroteF 4 1 (wrapI (-2 ^ 63)) 0) && gives (exec (.f2i 1 6) s) (s.wroteF 4 1 0 flNv) &&
        gives (exec (.f2i 1 7) s) (s.wroteF 4 1 (wrapI (-2 ^ 63)) flNv)) = true := by decide +kernel

theorem witness_Jumps : (
    let s := core (fun c => { c with pc := 0x100 }) (regs [(2, 5)] base)
    gives (exec (.bltu 0 2 0xFFF) s) (s.wentTo s.core 0xFC) && gives (exec (.bge 0 2 3) s) (s.wentTo s.core 0x104) &&
        gives (exec (.jal 0x3FFFFB) s) (s.wentTo (s.core.setG 31 0x104) 0xEC) &&
        gives (exec (.jalr 2 2) s) (s.wentTo (s.core.setG 2 0x104) 5)) = true := by decide +kernel

theorem witness_Jumps_table : (
    let s := regs [(2, 0x1200), (3, 2)] { base with code := memWrite base.code 0x1200 (leBytes 4 0xFC000003) }
    !s.fetchPoison 0x1200 && s.fetchOk 0x1200 && gives (exec (.jt 2 3) s) (s.wentTo s.core 0x120C) &&
        gives (exec (.jt 2 2) s) (enterTrap cJumpTable s.core.pc 0x1200 s) &&
        gives (exec (.jt 0 3) s) (enterTrap cJumpTable s.core.pc 0 s)) = true := by decide +kernel

theorem witness_Jumps_table_refused : (
    let s := regs [(2, 0x1202)] base
    !s.fetchPoison 0x1202 && !s.fetchOk 0x1202 && gives (exec (.jt 2 3) s) (enterTrap cFetch s.core.pc 0x1202 s)) = true := by decide +kernel

theorem witness_CsrReads : (
    let s := handler (core (fun c => { c with seed := 7, teamsz := 5, epc := 9 }) base)
    s.core.quiet && gives (exec (.csrrs 1 0 0x000) s) (s.wrote 4 1 1) &&
        gives (exec (.csrrc 1 0 0x014) s) (s.wrote 4 1 7) && gives (exec (.csrrs 1 0 0x013) s) (s.wrote 4 1 5) &&
        gives (exec (.csrrs 1 0 0x018) s) (s.wrote 4 1 0) && gives (exec (.csrrs 1 0 0x004) s) (s.wrote 4 1 0) &&
        gives (exec (.csrrs 1 0 0x002) s) (s.wrote 4 1 9)) = true := by decide +kernel

theorem witness_CsrReads_tile : (
    let s := core (fun c => c.setTile 15 { c.tile 15 with tc := 0x3A4020 }) base
    (s.core.queue 1).isEmpty && gives (exec (.csrrs 1 0 0x02F) s) (s.wrote 4 1 0x3A4020)) = true := by decide +kernel

theorem witness_CsrReads_tokens : (
    let s := core (fun c => { c with lmDn := 1, lmUp := 2, msDn := 3, msUp := 63 }) base
    gives (exec (.csrrs 1 0 0x017) s) (s.wrote 4 1 0x3F030201)) = true := by decide +kernel

theorem witness_CsrWrites_handler : (
    let s := handler (regs [(2, 2 ^ 64 - 1)] base)
    s.core.hm && gives (exec (.csrrw 1 2 0x001) s) (s.did 4 ({ s.core with cause := 127 }.setG 1 0)) &&
        gives (exec (.csrrw 1 2 0x002) s) (s.did 4 ({ s.core with epc := 2 ^ 64 - 1 }.setG 1 0))) = true := by decide +kernel

theorem witness_CsrWrites : (
    let s := regs [(2, 2 ^ 64 - 256)] base
    s.core.quiet && gives (exec (.csrrw 1 2 0x004) s) (s.did 4 (s.core.setG 1 0)) &&
        gives (exec (.csrrw 1 2 0x015) s) (s.did 4 ({ s.core with iterlim := 1 }.setG 1 24)) &&
        gives (exec (.csrrs 1 2 0x014) s) (s.did 4 { s.core with seed := 2 ^ 64 - 256 }) &&
        gives (exec (.csrrwi 1 31 0x014) s) (s.did 4 { s.core with seed := 31 })) = true := by decide +kernel

/-- A writable CSR by every word. -/
def csrState : State := handler (regs [(2, 6)] (core (fun c => { c with cause := 3, epc := 5, tval := 7, fflg := 9, seed := 11 }) base))
def csrWritten (csr : BitVec 12) (old : Nat) (put : Core → Dword → Core) : Bool :=
  let ends (v : Nat) : State := csrState.did 4 ((put csrState.core (wrapN v)).setG 1 (wrapN old))
  gives (exec (.csrrw 1 2 csr) csrState) (ends 6) && gives (exec (.csrrwi 1 30 csr) csrState) (ends 30) &&
    gives (exec (.csrrs 1 2 csr) csrState) (ends (old ||| 6)) && gives (exec (.csrrc 1 2 csr) csrState) (ends (old - (old &&& 6)))
theorem witness_CsrWrites_trap : (
    csrState.core.hm && csrWritten 0x001 3 (fun c v => { c with cause := v.setWidth 7 }) &&
        csrWritten 0x002 5 (fun c v => { c with epc := v })) = true := by decide +kernel
theorem witness_CsrWrites_flags : (
    csrWritten 0x003 7 (fun c v => { c with tval := v }) && csrState.core.quiet &&
        csrWritten 0x004 9 fun c v => { c with fflg := v.setWidth 6 }) = true := by decide +kernel
theorem witness_CsrWrites_task : (
    csrWritten 0x014 11 (fun c v => { c with seed := v }) &&
        csrWritten 0x015 24 fun c v => { c with iterlim := v.setWidth 8 }) = true := by decide +kernel

theorem witness_CsrIllegal : (
    gives (exec (.csrrs 1 0 0x005) base) (enterTrap 0x01 base.core.pc (wrapN (encode (.csrrs 1 0 0x005)).1.toNat) base) &&
        gives (exec (.csrrw 1 0 0x000) base) (enterTrap 0x01 base.core.pc (wrapN (encode (.csrrw 1 0 0x000)).1.toNat) base)
        && gives (exec (.csrrw 1 0 0x030) base) (enterTrap 0x01 base.core.pc (wrapN (encode (.csrrw 1 0 0x030)).1.toNat)
        base) && gives (exec (.csrrs 1 1 0x018) base) (enterTrap 0x01 base.core.pc (wrapN (encode (.csrrs 1 1
        0x018)).1.toNat) base)) = true := by decide +kernel

theorem witness_CsrIllegal_task : (
    gives (exec (.csrrw 1 0 0x001) base) (enterTrap 0x01 base.core.pc (wrapN (encode (.csrrw 1 0 0x001)).1.toNat) base)) = true := by decide +kernel

theorem witness_BankMode : (
    let s := regs [(2, 0xC0000E)] (putBank 0x20000 [7] (putBank 0 [9] base))
    s.core.quiet && !s.core.det && nexts (exec (.csrrw 1 2 0x016) s) fun t => t.core.bankmode == 0xC0000E &&
        memByte t.bank 0 == 0 && memByte t.bank 0x20000 == 7 && t.core.pc == 4 &&
        nexts (exec (.csrrwi 1 3 0x016) s) (fun t => t.core.bankmode == 3 && memByte t.bank 0 == 9) &&
        nexts (exec (.csrrs 1 2 0x016) s) (fun t => t.core.bankmode == 0xC0000E) &&
        nexts (exec (.csrrc 1 2 0x016) t) fun u => u.core.bankmode == 0 && memByte u.bank 0x20000 == 7) = true := by decide +kernel

/-! ### Scalar memory, traps, loops -/

theorem witness_Loads : (
    let s := regs [(2, 0x2000)] (put 0x2000 [0x80, 0xFF, 0x80, 0x80, 1, 2, 3, 0x84] mapped)
    let r (n : Nat) := plainB s .r 0x2000 n 0x2000
    r 1 && r 2 && r 4 && r 8 && gives (exec (.ldB 0 false 1 2 0) s) (s.wrote 8 1 (wrapI (-128))) &&
        gives (exec (.ldHu 0 false 1 2 0) s) (s.wrote 8 1 0xFF80) &&
        gives (exec (.ldW 0 false 1 2 0) s) (s.wrote 8 1 0xFFFFFFFF8080FF80) &&
        gives (exec (.ldD 0 false 1 2 0) s) (s.wrote 8 1 0x840302018080FF80)) = true := by decide +kernel

theorem witness_Loads_stream : (
    let s := regs [(2, 0x2040)] (put 0x2000 [1] mapped)
    gives (exec (.sld 0 false 3 2 0xFFFFFFC0) s) (s.did 8 (s.core.setS 3 1))) = true := by decide +kernel

theorem witness_Loads_bank : (
    let s := regs [(2, 8)] (putBank 8 [5] base)
    (fifoWord s.core 8).isNone && gives (exec (.ldD 0 true 1 2 0) s) (s.wrote 8 1 5)) = true := by decide +kernel

theorem witness_Loads_fifo : (
    let s := core (fun c => { c with bankmode := 2, fifo := c.fifo.set 0 0x500000007 }) base
    decide (fifoWord s.core 0 = some 0x500000007) && gives (exec (.ldD 0 true 1 2 0) s) (s.wrote 8 1 0x500000007)) = true := by decide +kernel

theorem witness_Stores : (
    let s := regs [(2, 0x2000), (3, 0x1122334455667788)] mapped
    gives (exec (.stH 0 false 2 3 0) s) ((put 0x2000 [0x88, 0x77] s).did 8 s.core) &&
        gives (exec (.stD 0 false 2 3 8) s) ((put8 0x2008 0x1122334455667788 s).did 8 s.core)) = true := by decide +kernel

theorem witness_Stores_bank : (
    let s := regs [(3, 0x1122334455667788)] base
    gives (exec (.stW 0 true 0 3 0x1FFFC) s) ((putBank 0x1FFFC [0x88, 0x77, 0x66, 0x55] s).did 8 s.core)) = true := by decide +kernel

/-- A store fires the watch of another core on its line, and no other one. -/
theorem witness_PlainAccesses_watch : (
    let w (n : Nat) : Watch := ⟨n, n, 0, false⟩
    let s : State := { mapped with core := { mapped.core with watch := some (w 0x80) }, others := [{ Core.reset 1 with watch := some (w 0x80) }, { Core.reset 2 with watch := some (w 0x81) }] }
    plainB s .w 0x2000 1 0x2000 && okM (acc (writeAt (s.core.who true 0) false 0x2000 [5])) s fun _ t =>
        t.core.watch == some (w 0x80) && t.others.map (·.watch) == [some { w 0x80 with fired := true }, some (w 0x81)]) = true := by decide +kernel

theorem witness_PlainAccesses : (
    memWf mapped.mem && plainB mapped .r 0x3FFC 4 0x3FFC && plainB mapped .w 0x3FFC 4 0x3FFC &&
        plainBankB mapped 0x1FFFC 4 0x1FFFC) = true := by decide +kernel

theorem witness_Atomics : (
    let s := regs [(1, 9), (2, 0x2000), (3, 5)] (put8 0x2000 9 mapped)
    plainB s .r 0x2000 8 0x2000 && plainB s .w 0x2000 8 0x2000 &&
        gives (exec (.amoAdd 0 1 2 3 0) s) ((put8 0x2000 14 s).wrote 8 1 9) &&
        gives (exec (.amoCas 0 1 2 3 0) s) ((put8 0x2000 5 s).wrote 8 1 9) &&
        gives (exec (.amoSwap 0 4 2 3 0) s) ((put8 0x2000 5 s).wrote 8 4 9)) = true := by decide +kernel

theorem witness_Atomics_cas_fails : (
    let s := regs [(1, 8), (2, 0x2000), (3, 5)] (put8 0x2000 9 mapped)
    gives (exec (.amoCas 0 1 2 3 0) s) (s.wrote 8 1 9)) = true := by decide +kernel

theorem witness_Atomics_float : (
    let s := regs [(2, 0x2004), (3, 0x3F800000)] (put 0x2004 (leBytes 4 0x7F800001) mapped)
    plainB s .w 0x2004 4 0x2004 &&
        gives (exec (.amoFadd 0 1 2 3 0) s) ((put 0x2004 (leBytes 4 0x7FC00000) s).wroteF 8 1 0x7F800001 flNv)) = true := by decide +kernel

theorem witness_AccessChecks_alignment : (
    let s := regs [(2, 0x2001)] mapped
    gives (exec (.ldH 0 false 1 2 0) s) (enterTrap 0x05 s.core.pc 0x2001 s) &&
        gives (exec (.sld 0 true 1 2 0x1F) s) (enterTrap 0x05 s.core.pc 0x2020 s)) = true := by decide +kernel

theorem witness_AccessChecks_missing : (
    let s := regs [(2, 2 ^ 36)] mapped
    (s.walk 0 (2 ^ 36)).isNone && gives (exec (.stB 0 false 2 1 0) s) (endContext 0x30 s.core.pc (2 ^ 36) s.core.id s)) = true := by decide +kernel

theorem witness_AccessChecks_permission : (
    let s := regs [(2, 0x2000)] (put8 0x104000 0xD mapped)
    (s.walk 0 0x2000).any (fun l => !l.grants .w) &&
        gives (exec (.stB 0 false 2 1 0) s) (endContext 0x31 s.core.pc 0x2000 s.core.id s)) = true := by decide +kernel

theorem witness_AccessChecks_range : (
    let s := regs [(2, 2 ^ 57)] mapped
    gives (exec (.ldB 0 false 1 2 0) s) (enterTrap 0x04 s.core.pc (2 ^ 57) s)) = true := by decide +kernel

theorem witness_AccessChecks_bank : (
    let s := regs [(2, 12 * 0x20000)] base
    (localOk s (s.core.who true 0) (12 * 0x20000) 4).isNone &&
        gives (exec (.ldW 0 true 1 2 0) s) (enterTrap 0x04 s.core.pc (12 * 0x20000) s)) = true := by decide +kernel

theorem witness_Shapes : (
    let s := regs [(2, 0x24040), (3, 2 ^ 18)] base
    gives (exec (.tshape 1 15 2) s) (s.did 4 ((s.core.setTile 15 { s.core.tile 15 with tc := 0x24020 }).setG 1 0x24020)) &&
        gives (exec (.tshape 1 15 3) s) (enterTrap 0x0C s.core.pc (2 ^ 18) s)) = true := by decide +kernel

theorem witness_Shapes_patterns : (
    let s := regs [(2, 0x10019), (3, 10)] base
    gives (exec (.pset 7 2) s) (s.did 4 { s.core with p := s.core.p.set 7 0x10019 }) &&
        gives (exec (.pset 1 3) s) (enterTrap 0x0E s.core.pc 10 s) && gives (exec (.pset 0 3) s) (s.did 4 s.core) &&
        gives (exec (.pget 4 0) s) (s.wrote 4 4 0)) = true := by decide +kernel

theorem witness_FencesAndProbes_pins : (
    let s := regs [(2, 0x3FFF), (3, 2)] mapped
    (granules 0x3FFF 2).all (fun g => (s.walk 0 g).any fun l => l.grants .w && !s.poolLost l.pa) &&
        nexts (exec (.prbW 2 3) s) (fun t => t.core.pins.map (fun p => (p.base, p.len, p.w, p.revoked)) == [(0x3FFF, 2, true, false)] &&
          [0x3FFF, 0x4000].all (fun x => t.core.pins.all fun p => p.leaf x == s.walk 0 x) &&
          same t (s.did 4 { s.core with pins := t.core.pins })) &&
        gives (exec (.prbR 2 0) s) (s.did 4 s.core) && gives (exec (.fence 6) s) (s.did 4 s.core)) = true := by decide +kernel

theorem witness_FencesAndProbes_full : (
    let p : Pin := ⟨0, 1, false, false, []⟩
    let s := core (fun c => { c with pins := List.replicate 16 p }) (regs [(2, 0x2000), (3, 1)] mapped)
    s.core.pins.length == 16 && gives (exec (.prbR 2 3) s) (enterTrap 0x07 s.core.pc 0x2000 s) &&
        gives (exec (.prbRel 2 3) s) (s.did 4 s.core)) = true := by decide +kernel

theorem witness_FencesAndProbes_release : (
    let p : Pin := ⟨0x2000, 1, false, false, []⟩
    let q : Pin := ⟨0x2000, 1, true, false, []⟩
    let s := core (fun c => { c with pins := [p, q, ⟨0, 1, false, false, []⟩] }) (regs [(2, 0x2000), (3, 1)] mapped)
    gives (exec (.prbRel 2 3) s) (s.did 4 { s.core with pins := [p, ⟨0, 1, false, false, []⟩] })) = true := by decide +kernel

/-- Stores on their way: to the pool at SY alone, to a peer at every scope (R88, R234). -/
theorem witness_FencesAndProbes_far : (
    let y := sentStore 0 0 (base.core.who true 0).task 0x1000 6
    let s := { base with poolStores := [y] }
    let a : RemoteStore := ⟨0, 0, 0, (base.core.who true 0).task, 0, 0x1000, [1], 7, false, none, true⟩
    let t := { base with remote := [a] }
    s.core.made y.core y.agent y.task y.member && gives (exec (.fence 6) s) { s with core := { s.core with stall := 0 } } &&
        gives (exec (.fence 4) s) (s.did 4 s.core) && gives (exec (.fence 0) t) { t with core := { t.core with stall := 0 } }) = true := by decide +kernel

/-- Its own store to the pool is lost: the context ends (R240). -/
theorem witness_FencesAndProbes_lost : (
    let y := { sentStore 0 0 0 0x1000 6 with ctx := 7, lost := true }
    let s := core (fun c => { c with ctx := 7 }) { base with poolStores := [y] }
    s.core.made y.core y.agent y.task y.member && gives (exec (.fence 5) s) (endContext 0x33 s.core.pc 0 0 s)) = true := by decide +kernel

/-- Another core's stores: one to the pool makes the fence wait at PL, unless it is lost, or of a transfer under way (R88, R230); one
to the host or to a peer does not. -/
theorem witness_FencesAndProbes_device : (
    let y := sentStore 5 0 9 0x1000 5
    let a : RemoteStore := ⟨5, 0, 0, 9, 0, 0x1000, [1], 7, false, none, true⟩
    let waits (sc : BitVec 3) (s : State) : Bool := gives (exec (.fence sc) s) { s with core := { s.core with commit := .fence, stall := 0 } }
    let goes (sc : BitVec 3) (s : State) : Bool := gives (exec (.fence sc) s) (s.did 4 { s.core with commit := .none })
    let moving (z : PoolStore) : State := { base.modChan 3 fun x => { x with run := some copyRun } with poolStores := [z] }
    let z := sentStore 0 (chanUnit 3) 0 0x1000 5
    !base.core.made 5 0 9 0 && waits 5 { base with poolStores := [y] } && goes 4 { base with poolStores := [y] } &&
        goes 5 { base with poolStores := [{ y with lost := true }] } && goes 6 { base with hostStores := [y] } &&
        goes 6 { base with remote := [a] } && goes 5 (moving z) && waits 5 (moving { z with retired := true }) &&
        waits 5 { base with poolStores := [z] } && goes 5 (core (fun c => { c with commit := .fence }) base)) = true := by
  decide +kernel

/-- A pin keeps its translation: the table changed, its loads go on as before (R86, R87). -/
theorem witness_FencesAndProbes_kept : (
    let s := regs [(2, 0x2000), (3, 8)] (put8 0x2000 7 mapped)
    nexts (exec (.prbR 2 3) s) fun t => let u := put8 0x104000 0 t
      (u.walk 0 0x2000).isNone && (u.translation 0x2000).isSome &&
        nexts (exec (.ldD 0 false 1 2 0) u) fun v => v.core.rg 1 == 7) = true := by decide +kernel

theorem witness_Monitor : (
    let s := regs [(2, 0x2047)] mapped
    plainB s .r 0x2047 1 0x2047 && !s.core.det &&
        gives (exec (.monArm 2 0) s) (s.did 4 { s.core with watch := some ⟨0x81, 0x81, 0, false⟩ }) &&
        gives (exec (.monWait 1 2) s) (s.wrote 4 1 2)) = true := by decide +kernel

theorem witness_Monitor_fired : (
    let s := core (fun c => { c with watch := some ⟨0x81, 0x81, 0, true⟩ }) (regs [(2, 5)] base)
    gives (exec (.monWait 1 2) s) ((core (fun c => { c with watch := none }) s).wrote 4 1 0)) = true := by decide +kernel

theorem witness_Monitor_times_out : (
    let s := core (fun c => { c with watch := some ⟨0x81, 0x81, 0, false⟩ }) base
    gives (exec (.monWait 1 0) s) ((core (fun c => { c with watch := none }) s).wrote 4 1 1)) = true := by decide +kernel

theorem witness_Monitor_sleeps : (
    let s := core (fun c => { c with watch := some ⟨0x81, 0x81, 0, false⟩ }) (regs [(2, 2 ^ 41)] base)
    nexts (exec (.monWait 1 2) s) fun t => t.core.asleep && t.core.deadline == 2 ^ 40 && t.core.pc == 0 &&
        t.core.watch == s.core.watch) = true := by decide +kernel

theorem witness_LoopTable_temporal : (
    let s := core (fun c => { c with loops := c.loops.set 3 ⟨1, 3, 1⟩ }) (regs [(2, 3)] base)
    gives (exec (.lptNx 1 2) s) (s.did 4 ({ s.core with loops := s.core.loops.set 3 ⟨1, 3, 2⟩ }.setG 1 1)) &&
        gives (exec (.lptIx 1 2) s) (s.wrote 4 1 1)) = true := by decide +kernel

theorem witness_LoopTable_finished : (
    let s := core (fun c => { c with loops := c.loops.set 3 ⟨1, 3, 2⟩ }) (regs [(2, 3)] base)
    gives (exec (.lptNx 1 2) s) (s.did 4 ({ s.core with loops := s.core.loops.set 3 ⟨1, 3, 0⟩ }.setG 1 0))) = true := by decide +kernel

theorem witness_LoopTable_traps : (
    let s := core (fun c => { c with loops := c.loops.set 1 ⟨2, 1, 0⟩ }) (regs [(2, 1), (3, 4)] base)
    gives (exec (.lptNx 1 2) s) (enterTrap 0x0B s.core.pc 1 s) &&
        gives (exec (.lptIx 1 3) s) (enterTrap 0x0B s.core.pc 4 s) &&
        gives (exec (.lptIx 1 0) s) (enterTrap 0x0B s.core.pc 0 s)) = true := by decide +kernel

/-- Four loop words at 0x2000: one whose trip count is in the launch frame, one unused, one of the team, one of the instance. -/
def loopState : State := core (fun c => { c with record := 0x3000 * 2 ^ 64 }) (regs [(2, 0x2000)] (put8 0x3018 5 (put8 0x2018 (3 * 2 ^
  62 + 7) (put8 0x2010 (2 * 2 ^ 62 + 1) (put8 0x2000 0x6000000000000018 mapped)))))
theorem witness_LoopTable_lines : loopState.linesWhole := linesWhole_of_table (by decide +kernel) (by decide +kernel)
theorem witness_LoopTable_load : (
    let s := loopState
    recFrame s.core.record == 0x3000 && plainB s .r 0x2018 8 0x2018 && plainB s .r 0x3018 8 0x3018 && s.core.teamsz == 1 &&
        nexts (exec (.lptLd 2) s) fun t => t.core.loops.toList == [⟨1, 5, 0⟩, ⟨0, 0, 0⟩, ⟨2, 1, 0⟩, ⟨3, 7, 0⟩] &&
        t.core.pc == 4) = true := by decide +kernel

theorem witness_TrapEntry : (
    let s := page 8 4 0x40 base
    s.inWindow 0 0x40 4 && nexts (.next (enterTrap 9 4 5 s)) fun t => t.core.pc == 0x40 && t.core.hm && !t.core.phm &&
        t.core.epc == 4 && t.core.tval == 5 && t.core.cause == 9) = true := by decide +kernel

theorem witness_TrapEntry_nested : (
    let s := handler (page 8 4 0x40 base)
    nexts (.next (enterTrap 9 4 5 s)) fun t => t.core.pc == 0x40 && t.core.hm && t.core.phm) = true := by decide +kernel

theorem witness_TrapEntry_double : (
    let s := core (fun c => { c with phm := true, ctx := 1 }) (handler (page 8 4 0x40 base))
    s.core.hm && s.core.phm && nexts (.next (enterTrap 9 4 5 s)) fun t => t.core.act == .idle) = true := by decide +kernel

theorem witness_TrapEntry_nowhere : (
    let s := page 8 4 0x400000 (core (fun c => { c with ctx := 1 }) base)
    base.pg 0 8 4 == 0 && s.pg 0 8 4 != 0 && !s.inWindow 0 0x400000 4 &&
        nexts (.next (enterTrap 9 4 5 s)) fun t => t.core.act == .idle) = true := by decide +kernel

theorem witness_TrapWords : (
    let s := page 8 4 0x40 (regs [(2, 46), (3, 47)] base)
    !s.pageFlag 0 && nexts (exec (.trap 2) s) (fun t => t.core.cause == 0x7E && t.core.epc == 0) &&
        nexts (exec (.trap 3) s) (fun t => t.core.cause == 0x7F) && nexts (exec .brk s) (fun t => t.core.cause == 9)) = true := by decide +kernel

theorem witness_TrapWords_halt : (
    let s := core (fun c => { c with ctx := 1 }) (page 0x1C 4 1 base)
    s.pageFlag 0 && s.core.ctx != 0) = true := by decide +kernel

theorem witness_TrapWords_return : (
    let s := core (fun c => { c with epc := 0x80 }) (handler base)
    gives (exec .eret s) { s with core := { s.core.count 1 with hm := false, pc := 0x80, stall := 0 } } &&
        nexts (exec .eret (page 8 4 0x40 base)) fun t => t.core.cause == 1 && t.core.tval == 0xF0000003) = true := by decide +kernel

theorem witness_TrapWords_held : (
    let h : Held := ⟨0x90, 1, 5, []⟩
    let s := core (fun c => { c with epc := 0x80, held := some h }) (handler base)
    gives (exec .eret s)
        { s with core := { s.core.count 1 with hm := false, pc := 0x90, held := none, commit := .none, stall := 0 } }) = true := by decide +kernel

theorem witness_SystemWords : (
    gives (exec .nop base) (base.did 4 base.core) &&
        nexts (exec .pmIdle base) (fun t => t.core.asleep && t.core.commit == .idle && t.core.deadline == 100000) &&
        gives (exec .pmIdle (core (fun c => { c with woken := true }) base)) (base.did 4 base.core)) = true := by decide +kernel

theorem witness_SystemWords_counters : (
    let s := regs [(2, 9), (3, 12), (4, 5), (5, 11)] (core (fun c => { c with counters := c.counters.set 11 7 }) base)
    gives (exec (.cntRd 1 2) s) (s.wrote 4 1 0) && gives (exec (.cntRd 1 3) s) (enterTrap 0x1E s.core.pc 12 s) &&
        nexts (exec (.cntRd 1 4) s) (fun t => t.fresh == 1) && gives (exec (.cntRd 1 5) s) (s.wrote 4 1 7)) = true := by decide +kernel

theorem witness_SystemWords_inject : (
    let s := handler (regs [(2, 1), (3, 0x2000), (4, 3), (5, 4)] (page 0x1C 4 2 mapped))
    s.pageFlag 1 && plainB s .r 0x2000 1 0x2000 &&
        gives (exec (.eccInj 2 3) s) ({ s with poison := [0x80] }.did 4 s.core) &&
        gives (exec (.eccInj 4 3) s) (s.did 4 { s.core with injClap := true }) &&
        gives (exec (.eccInj 5 3) s) (enterTrap 0x1F s.core.pc 4 s)) = true := by decide +kernel

/-! ### Synchronisation, continuations -/

theorem witness_Barriers_arrive : (
    let b := barWord false false 5 2 (-3)
    let s := regs [(2, 0x100), (3, 3)] (putBank 0x100 (leBytes 8 b.toNat ++ leBytes 8 3) base)
    let ok := decide (localOk s (s.core.who true 0) 0x100 16 = some 0x100)
    ok && decide (memRead s.bank 0x100 8 = leBytes 8 b.toNat) &&
        gives (exec (.barArr noTok 0 2 1) s) ((s.barrierPut 0x100 (barWord false false 5 3 (-3)) 3).did 4 s.core) &&
        gives (exec (.barExp noTok 0 2 3 1) s) ((s.barrierPut 0x100 (barWord false false 5 2 0) 3).did 4 s.core)) = true := by decide +kernel

theorem witness_Barriers_last : (
    let b := barWord false false 5 0 0
    let s := regs [(2, 0x100)] (putBank 0x100 (leBytes 8 b.toNat ++ leBytes 8 1) base)
    gives (exec (.barArr noTok 0 2 1) s) ((s.barrierPut 0x100 (barWord true false 5 0 0) 1).did 4
        { s.core with arrivals := 1 })) = true := by decide +kernel

theorem witness_Barriers_wait : (
    let b := barWord true false 5 0 0
    let s := regs [(2, 0x100), (3, 1)] (putBank 0x100 (leBytes 8 b.toNat ++ leBytes 8 1) base)
    let t := s.waitsAt false 0x100
    gives (exec (.barWait noTok 0 2 3 1) s) t && gives (exec (.barWait noTok 0 2 3 1) t) t.waits &&
        gives (exec (.barWait noTok 0 2 0 1) t) (s.did 4 { s.core with waits := 1 }) &&
        (let u := { t with bank := memWrite t.bank 0x100 (leBytes 8 (barWord true true 5 0 0).toNat) }
         gives (exec (.barWait noTok 0 2 3 1) u) u.waits)) = true := by decide +kernel

/-- A wait that the bank has released (R182). -/
theorem witness_Barriers_released : (
    let s := core (fun c => { c with objWaits := [⟨0, false, 0x100, true⟩] }) (regs [(2, 0x100)] base)
    gives (exec (.barWait noTok 0 2 3 1) s) (enterTrap 0x04 0 0x100 s)) = true := by decide +kernel

/-- The barrier words at the head of a queue (R180). -/
theorem witness_Barriers_queue : (
    let b := barWord false false 5 2 (-3)
    let s := regs [(2, 0x100), (3, 3)] (putBank 0x100 (leBytes 8 b.toNat ++ leBytes 8 4) base)
    let does (i : Instr) (F : State → State) : Bool := canRunB i s && completesB s i (F (s.begun i)) ⟨[], [], [], 0⟩
    does (.barInit noTok 3 2 3 1) (fun u => u.barrierPut 0x100 0 3) &&
        does (.barExp noTok 2 2 3 1) (fun u => u.barrierPut 0x100 (barWord false false 5 2 0) 4) &&
        does (.barArr noTok 1 2 1) (fun u => u.barrierPut 0x100 (barWord false false 5 3 (-3)) 4) &&
        does (.barWait noTok 3 2 3 1) id) = true := by decide +kernel

theorem witness_Barriers_range : (
    let b := barWord true true 5 0 0
    let s := regs [(2, 0x100), (3, 4096)] (putBank 0x100 (leBytes 8 b.toNat ++ leBytes 8 1) base)
    gives (exec (.barWait noTok 0 2 3 1) s) (s.trapped 0x10) && gives (exec (.barArr noTok 0 2 1) s) (s.trapped 0x10) &&
        gives (exec (.barExp noTok 0 2 3 1) s) (s.trapped 0x10) &&
        gives (exec (.barInit noTok 0 2 3 1) s) (s.trapped 0x10) &&
        gives (exec (.barInit noTok 0 2 2 1) s) ((s.barrierPut 0x100 0 0x100).did 4 s.core)) = true := by decide +kernel

theorem witness_Barriers_overflow : (
    let b := barWord false false 0 1 (2 ^ 35 - 1)
    let s := regs [(2, 0x100), (3, 1)] (putBank 0x100 (leBytes 8 b.toNat ++ leBytes 8 1) base)
    gives (exec (.barExp noTok 0 2 3 1) s) (s.trapped 0x10) && gives (exec (.barArr noTok 0 2 1) s) (s.trapped 0x10)) = true := by decide +kernel

theorem witness_Rings_claim : (
    let r : HwRing := { HwRing.reset with en := true, lcount := 1, claim := 5, head := 4, tail := 5, take := 4 }
    let s := regs [(3, 2)] (base.ringPut 2 r)
    clusterOf s.core.id * 64 + 2 == 2 &&
        gives (exec (.ringCl 1 3 1) s) ((s.ringPut 2 { r with claim := 6 }).wrote 4 1 5) &&
        gives (exec (.ringTake 1 3 1) s) ((s.ringPut 2 { r with take := 5 }).wrote 4 1 4)) = true := by decide +kernel

theorem witness_Rings_full : (
    let r : HwRing := { HwRing.reset with en := true, lcount := 1, claim := 6, head := 4, tail := 4, take := 4 }
    let s := regs [(3, 2)] (base.ringPut 2 r)
    gives (exec (.ringCl 1 3 1) s) (s.wrote 4 1 (wrapI (-1))) && gives (exec (.ringTake 1 3 1) s) (s.wrote 4 1 (wrapI (-1)))) = true := by decide +kernel

theorem witness_Rings_fill : (
    let r : HwRing := { HwRing.reset with en := true, lcount := 1, claim := 6, head := 4, tail := 4, take := 4, f := 2 }
    let s := regs [(2, 2), (3, 4)] (base.ringPut 2 r)
    gives (exec (.ringFill noTok 0 2 3 1) s) ((s.ringPut 2 { r with f := 3, tail := 6 }).did 4 s.core)) = true := by decide +kernel

theorem witness_Rings_fill_traps : (
    let r : HwRing := { HwRing.reset with en := true, lcount := 1, claim := 6, head := 4, tail := 4, take := 4, f := 2 }
    let s := regs [(2, 2), (3, 5), (4, 6), (5, 3)] (base.ringPut 2 r)
    gives (exec (.ringFill noTok 0 2 3 1) s) (enterTrap 0x17 0 5 s) &&
        gives (exec (.ringFill noTok 0 2 4 1) s) (enterTrap 0x17 0 6 s) &&
        gives (exec (.ringFill noTok 0 2 5 1) s) (enterTrap 0x17 0 3 s)) = true := by decide +kernel

theorem witness_Rings_release : (
    let r : HwRing := { HwRing.reset with en := true, lcount := 1, claim := 6, head := 4, tail := 6, take := 4, f := 3, x := 2 }
    let s := regs [(2, 2), (3, 4), (4, 6), (5, 5)] (base.ringPut 2 r)
    gives (exec (.ringRel noTok 0 2 3 1) s) ((s.ringPut 2 { r with f := 0, x := 0, take := 5, head := 6 }).did 4 s.core) &&
        gives (exec (.ringRel noTok 0 2 4 1) s) (s.trapped 0x17) && gives (exec (.ringRel noTok 0 2 5 1) s) (s.trapped 0x17)) = true := by decide +kernel

theorem witness_Rings_waits : (
    let r : HwRing := { HwRing.reset with en := true, lcount := 1, claim := 6, head := 4, tail := 5, take := 4 }
    let s := regs [(2, 2), (3, 4), (4, 6), (5, 5)] (base.ringPut 2 r)
    gives (exec (.ringWf noTok 0 2 3 1) s) (s.did 4 s.core) && gives (exec (.ringWf noTok 0 2 5 1) s) (s.waitsAt true 2) &&
        gives (exec (.ringWe noTok 0 2 5 1) s) (s.did 4 s.core) && gives (exec (.ringWe noTok 0 2 4 1) s) (s.waitsAt true 2) &&
        gives (exec (.ringWe noTok 0 2 4 1) (s.waitsAt true 2)) (s.waitsAt true 2).waits) = true := by decide +kernel

/-- A wait that the ring has released (R183). -/
theorem witness_Rings_released : (
    let r : HwRing := { HwRing.reset with en := true, lcount := 1, claim := 6, head := 4, tail := 5, take := 4 }
    let s := core (fun c => { c with objWaits := [⟨0, true, 2, true⟩] }) (regs [(2, 2), (3, 4)] (base.ringPut 2 r))
    gives (exec (.ringWf noTok 0 2 3 1) s) (enterTrap 0x04 0 2 s) && gives (exec (.ringWe noTok 0 2 3 1) s) (enterTrap 0x04 0 2 s)) = true := by decide +kernel

/-- The ring words at the head of a queue (R180). -/
theorem witness_Rings_queue : (
    let r : HwRing := { HwRing.reset with en := true, lcount := 1, claim := 6, head := 4, tail := 5, take := 4, f := 1 }
    let s := regs [(2, 2), (3, 4), (4, 5)] (base.ringPut 2 r)
    let does (i : Instr) (F : State → State) : Bool := canRunB i s && completesB s i (F (s.begun i)) ⟨[], [], [], 0⟩
    does (.ringFill noTok 3 2 4 1) (fun u => u.ringPut 2 { r with f := 3, tail := 6 }) &&
        does (.ringRel noTok 2 2 3 1) (fun u => u.ringPut 2 { r with f := 0, take := 5, head := 5 }) &&
        does (.ringWf noTok 1 2 3 1) id && does (.ringWe noTok 3 2 4 1) id) = true := by decide +kernel

theorem witness_Events_post : (
    let s := regs [(2, 2 ^ 58 + 7), (3, 9)] (page 0x40 2 2 base)
    s.pg 0 0x40 2 == 2 &&
        gives (exec (.evqPost noTok 0 2 3 1) s) ({ s with events := s.events.set 0 [⟨0, wrapN (2 * 2 ^ 57 + 7), 9⟩] }.did 4
        s.core) && gives (exec (.evqPost noTok 0 2 3 1) base) (enterTrap 0x04 0 0 base)) = true := by decide +kernel

theorem witness_Events_full : (
    let e : Event := ⟨0, 1, 2⟩
    let s := regs [(2, 7), (3, 9)] (page 0x40 2 1 { base with events := base.events.set 0 [⟨1, 5, 5⟩, e, ⟨0, 3, 4⟩] })
    gives (exec (.evqPost noTok 0 2 3 1) s) s.waits &&
        gives (exec (.evqPop 4 1) s) ({ s with events := s.events.set 0 [⟨1, 5, 5⟩, ⟨0, 3, 4⟩] }.did 4 ((s.core.setG 4
        1).setG 5 2))) = true := by decide +kernel

theorem witness_Events_none : (
    gives (exec (.evqPop 4 1) base) base.waits) = true := by decide +kernel

theorem witness_Joins_init : (
    let s := regs [(2, 0x2000), (3, 0x0300000005), (4, 0x10000000000), (5, 0x300000000)] (mapped.modCq 3 id)
    plainB s .w 0x2000 8 0x2000 && gives (exec (.joinInit 2 4 1) s) (enterTrap 0x16 0 0x10000000000 s) &&
        gives (exec (.joinInit 2 5 1) s) (enterTrap 0x16 0 0x300000000 s)) = true := by decide +kernel

theorem witness_Joins_init_owned : (
    let s := regs [(2, 0x2000), (3, 0x0300000005)] (page 0xC0 8 8 mapped)
    decide (s.cqOwner 3 = some 0) && gives (exec (.joinInit 2 3 1) s) ((put8 0x2000 0x0300000005 s).did 4 s.core)) = true := by decide +kernel

theorem witness_Joins_decrement : (
    let s := regs [(2, 0x2000)] (put8 0x2000 0x0300000005 mapped)
    plainB s .w 0x2000 16 0x2000 && gives (exec (.joinDec noTok 0 2 1) s) ((put8 0x2000 0x0300000004 s).did 4 s.core) &&
        gives (exec (.joinDec noTok 0 2 1) (put8 0x2000 0x0300000000 s)) ((put8 0x2000 0x0300000000 s).trapped 0x16)) = true := by decide +kernel

/-- A full queue, and one whose tail slot has no translation. -/
theorem witness_Joins_waits : (
    let f (b t : Nat) := regs [(2, 0x2000)] (put8 0x2000 0x0300000001 ((page 0xC0 8 8 mapped).modCq 3 fun k => { k with en := true, base := dw b, tail := BitVec.ofNat 32 t }))
    let s := f 0x8000 16
    let t := f (2 ^ 40) 0
    !canTake s 0 3 && !slotMissing 0 3 s && gives (exec (.joinDec noTok 0 2 1) s) s.waits &&
        !canTake t 0 3 && slotMissing 0 3 t && gives (exec (.joinDec noTok 0 2 1) t) (stopQueue 3 8 t).waits) = true := by decide +kernel

/-- A join counter at 0x2000 that stands at 5. -/
def joinState : State := regs [(2, 0x2000), (3, 9)] (page 0x40 2 2 (put8 0x2000 0x0300000005 mapped))
theorem witness_EventsAndJoins_lines : joinState.linesWhole := linesWhole_of_table (by decide +kernel) (by decide +kernel)
/-- A decrement and an event of a queue (R180). -/
theorem witness_EventsAndJoins_queue : (
    let s := joinState
    canRunB (.joinDec noTok 3 2 1) s &&
        completesB s (.joinDec noTok 3 2 1) (put8 0x2000 0x0300000004 (s.begun (.joinDec noTok 3 2 1))) ⟨[], [], [], 0⟩ &&
        completesB s (.evqPost noTok 1 2 3 1) { s.begun (.evqPost noTok 1 2 3 1) with events := s.events.set 0 [⟨0, wrapN (2 * 2 ^ 57 + 0x2000), 9⟩] } ⟨[], [], [], 0⟩) = true := by decide +kernel

theorem witness_Joins_push : (
    let s := regs [(2, 0x2000)]
        (put8 0x2008 0x3000 (put8 0x2000 0x0300000001 (put8 0x3000 0x40 ((page 0xC0 8 8 mapped).modCq 3 fun k => { k with en := true, base := 0x8000 }))))
    canTake s 0 3 && plainB s .r 0x3000 32 0x3000 &&
        (match pushRecord (joinAgent 0 0) 3 (BitVec.ofNat 256 0x40) (put8 0x2000 0x0300000000 s) with | .done _ _ => true | _ => false)) = true := by decide +kernel

theorem witness_Continuations : (
    let s := regs [(2, 3), (3, 0x3000)]
        (put8 0x3018 (2 ^ 16) (put8 0x3000 0x40 ((page 0xC0 8 8 mapped).modCq 3 fun k => { k with en := true, base := 0x8000 })))
    let r := BitVec.ofNat 256 (0x40 + 2 ^ 208)
    (recordError s (s.cq 3) 0 r).isNone && (match pushRecord (s.core.who true 3) 3 r s with | .done _ m => m == 0 | _ => false)) = true := by decide +kernel

theorem witness_Continuations_off : (
    let s := regs [(2, 3), (3, 0x3000)]
        (put8 0x3018 (2 ^ 16) (put8 0x3000 0x40 ((page 0xC0 8 8 mapped).modCq 3 fun k => { k with base := 0x8000 })))
    gives (exec (.cqPush 2 3 1) s) (s.wrote 4 2 (wrapI (-1)))) = true := by decide +kernel

theorem witness_Continuations_full : (
    let s := regs [(2, 3), (3, 0x3000)]
        (put8 0x3018 (2 ^ 16) (put8 0x3000 0x40 ((page 0xC0 8 8 mapped).modCq 3 fun k => { k with en := true, base := 0x8000, tail := 16 })))
    gives (exec (.cqPush 2 3 1) s) (s.wrote 4 2 (wrapI (-1)))) = true := by decide +kernel

theorem witness_Continuations_outcomes : (
    let s := (page 0xC0 8 8 mapped).modCq 3 fun k => { k with en := true, base := 0x8000 }
    [s.modCq 3 fun k => { k with en := false }, s.modCq 3 fun k => { k with stop := true }, page 0xC0 8 0 s].all (fun s =>
      pushRecord (s.core.who true 3) 3 0 s matches .off) && (pushRecord (s.core.who true 3) 3 0 (s.modCq 3 fun k => { k with tail := 16 }) matches .full) &&
      (pushRecord (s.core.who true 3) 3 0 (s.modCq 3 fun k => { k with tail := 15 }) matches .done ..)) = true := by decide +kernel

theorem witness_Continuations_spawn : (
    let s := regs [(2, 0x40), (3, 0x3000)]
        (core (fun c => { c with origin := 3 }) ((page 0xC0 8 8 mapped).modCq 3 fun k => { k with en := true, base := 0x8000 }))
    let r := BitVec.ofNat 256 (0x40 + 2 ^ 64 * 0x3000 + 2 ^ 208)
    (recordError s (s.cq 3) 0 r).isNone && (match pushRecord (s.core.who true 3) 3 r s with | .done _ m => m == 0 | _ => false)) = true := by decide +kernel

theorem witness_Continuations_deterministic : (
    let s := det (regs [(2, 0x40), (3, 0x3000)] (core (fun c => { c with origin := 3, phase := 6 }) ((page 0xC0 8 8 mapped).modCq 3 fun k => { k with en := true, det := true, base := 0x8000 })))
    let r := BitVec.ofNat 256 (0x40 + 2 ^ 64 * 0x3000 + 2 ^ 208 + 2 ^ 207 + 2 ^ 224 * 7)
    (recordError s (s.cq 3) 0 r).isNone && (match pushRecord (s.core.who true 3) 3 r s with | .done _ _ => true | _ => false)) = true := by decide +kernel

theorem witness_TaskEnds : (
    let s : State := { core (fun c => { c with ctx := 7, pins := [⟨0, 1, false, false, []⟩], lmDn := 3 }) base with ctxs := [⟨7, 0, 1, false, false⟩] }
    s.core.quiet && nexts (exec .done s) fun t => decide (t.core = (s.core.count 1).freed 0) && t.ctxs.isEmpty &&
        t.core.act == .idle) = true := by decide +kernel

/-- The last member makes the decrement of its counter: of 5, of 1 with a push, of 1 that is held, of 0. -/
theorem witness_TaskEnds_join : (
    let f (n b : Nat) (q : Bool) : State := { core (fun c => { c with ctx := 7, record := 0x2000 * 2 ^ 128 }) (put8 0x3000 0x40 (puts 0x2000 [n + 2 ^ 32 * 3, 0x3000] ((page 0xC0 8 8 mapped).modCq 3 fun k => { k with en := q, base := dw b }))) with ctxs := [⟨7, 0, 1, false, false⟩] }
    let s := f 5 0x8000 true
    let t := f 1 0x8000 true
    plainB s .w 0x2000 16 0x2000 && s.translation 0x2000 == s.walk 0 0x2000 &&
        nexts (exec .done s) (fun u => u.core.ctx == 0 && memRead u.mem 0x2000 8 == leBytes 8 (4 + 2 ^ 32 * 3) && u.joins.isEmpty) &&
        canTake t 0 3 && nexts (exec .phaseEnd t) (fun u => u.core.ctx == 0 && memRead u.mem 0x8000 8 == leBytes 8 0x40 && (u.cq 3).tail == 1) &&
        !canTake (f 1 0x8000 false) 0 3 && nexts (exec .done (f 1 0x8000 false)) (fun u => u.core.ctx == 0 && u.joins == [⟨0, 0x2000, false⟩] &&
          u.mem == (f 1 0x8000 false).mem) &&
        gives (exec .done (f 0 0x8000 true)) (enterTrap 0x16 0 0x2000 (f 0 0x8000 true))) = true := by decide +kernel

theorem witness_TaskEnds_member : (
    let s : State := { core (fun c => { c with ctx := 7, record := 2 ^ 200 }) base with ctxs := [⟨7, 2 ^ 200, 2, false, false⟩] }
    nexts (exec .done s) fun t => t.ctxs == [⟨7, 2 ^ 200, 1, false, false⟩] &&
        (t.core.act == .finished || t.core.act == .idle)) = true := by decide +kernel

/-! ### The queues -/

theorem witness_Routing_trap : (
    let h : Held := ⟨0x90, 1, 5, []⟩
    let s := core (fun c => { c with held := some h }) (handler base)
    let i := Instr.tsm noTok
    i.agent != 0 && gives (exec i s) (s.trapped 0x2E)) = true := by decide +kernel

theorem witness_Routing_waits : (
    let s := core (fun c => { c with qtrap := some ⟨1, 5, 4, 0⟩ }) base
    gives (exec (.acz noTok 1) s) s.waits) = true := by decide +kernel

theorem witness_Routing_full : (
    let s := core (fun c => { c with mq := List.replicate 32 (entryOf (.tsm noTok) c 0) }) base
    (s.core.queue 2).length == 32 && gives (exec (.acz noTok 1) s) { s with core := { s.core with stall := 4 } }) = true := by decide +kernel

theorem witness_Routing_queued : (
    let s : State := { regs [(3, 7)] base with eager := false }
    let i := Instr.dcfgCl noTok 1 3
    nexts (exec i s) fun t => decide (t.core.sq = [entryOf i s.core 1]) &&
        t.core.sq.all (fun e => e.g == [7] && e.word == (encode i).1 && e.addr == 0) && t.core.pc == 4 && t.nextNum == 2) = true := by decide +kernel

/-- The copies of a drain's seed, of tiles' shapes, and of a one-hot pattern with the shape of its index tile (R14). -/
theorem witness_Routing_copies : (
    let s := tile 4 0 3 2 1 15 (tile 5 0 2 4 8 6 (core (fun c => { (c.setP 2 (9 + 2 ^ 4 * 3 + 2 ^ 16 * 4)) with seed := 77 }) base))
    let e (i : Instr) : Entry := entryOf i s.core 1
    let sh (k : BitVec 4) : BitVec 19 := (s.core.tile k).tc.setWidth 19
    sh 4 != sh 5 && (e (.drn noTok 1 2 3)).pat == 77 && (e (.mmaPatternA noTok 1 5 2 true 6)).pat == s.core.rp 2 &&
        (e (.mmaPatternA noTok 1 5 2 true 6)).shI == sh 4 && (e (.mmaPatternB noTok 1 5 2 true 6)).shA == sh 5 &&
        (e (.ldTi noTok 1 5 4)).shT == sh 5 && (e (.ldTi noTok 1 5 4)).shI == sh 4 && (e (.upd noTok 4 5 1 0)).shA == sh 4) = true := by
  decide +kernel

theorem witness_Routing_sync : (
    let s : State := { base with eager := false }
    let i := Instr.barArr noTok 3 4 1
    i.agent == 3 && nexts (exec i s) fun t => t.core.sq.length == 1) = true := by decide +kernel

theorem witness_QueueStart_acz : (
    let i := Instr.acz ⟨false, false, true, false⟩ 2
    canRunB i base && completesB base i (base.begun i) ⟨[], [(2, Acc.zero)], [], 0⟩ &&
        nexts (exec i base) fun t => t.core.tkcnt != 0) = true := by decide +kernel

theorem witness_QueueStart_tsm : (
    let i := Instr.tsm noTok
    canRunB i base && completesB base i (base.begun i) ⟨[], [], [], 0⟩) = true := by decide +kernel

theorem witness_QueueStart_waits_token : (
    let i := Instr.tsm ⟨true, false, false, false⟩
    let s := core (fun c => { c with lmDn := 1 }) base
    canRunB i s && !canRunB i base && nexts (exec i s) fun t => t.core.lmDn == 0) = true := by decide +kernel

theorem witness_QueueStart_clamp : (
    let i := Instr.dcfgCl noTok 2 3
    let s := regs [(3, 0x3F800000BF800000)] base
    canRunB i s && completesB s i (s.begun i) ⟨[], [], [(2,
        { s.core.cfg 2 with lo := 0xBF800000, hi := 0x3F800000, clOn := true })], 0⟩) = true := by decide +kernel

theorem witness_QueueStart_mode : (
    let i := Instr.dcfgRm noTok 2 3
    let s := regs [(3, 0x3F2)] base
    canRunB i s && completesB s i (s.begun i) ⟨[], [], [(2, { s.core.cfg 2 with rm := 2 })], 0⟩) = true := by decide +kernel

theorem witness_QueueStart_seed : (
    let i := Instr.srsSeed noTok 3
    canRunB i base && completesB base i { base.begun i with core := { (base.begun i).core with srS := 1 } } ⟨[], [], [], 0⟩) = true := by decide +kernel

theorem witness_QueueStart_trap : (
    let i := Instr.dcfgRm noTok 2 3
    let s := regs [(3, 0x400)] base
    (match perform (s.entry i) (s.begun i) with | .error (.trap x w) => gives (exec i s) (noteQueueTrap 3 (s.entry i) x w (s.begun i)) | _ => false)) = true := by decide +kernel

theorem witness_TileLoads_dense : (
    let i := Instr.ldT noTok 3 1
    let s := tile 1 0 2 2 2 0 (stream 3 (strm true 0x40 7 2 2 8) (putBank 0x40 [1, 2, 3, 4, 0, 0, 0, 0, 5, 6, 7, 8] base))
    let d := strOf (s.core.rs 3)
    canRunB i s && (strBad .tile (s.core.rs 3)).isNone && d.rows == 2 && d.cols == 2 && d.fmt == 7 &&
        okM (loadTile (s.entry i) d (BitVec.ofNat 19 0x20202) (s.core.tile 1) [(0, 0), (1, 1)]) (s.begun i) fun v t =>
        v.data == 0x0807060504030201 && completesB s i t ⟨[(1, v)], [], [], 0⟩) = true := by decide +kernel

theorem witness_TileLoads_global : (
    let i := Instr.ldT noTok 3 1
    let s := tile 1 0 2 2 2 0 (stream 3 (strm false 0x2040 7 2 2 8) (put 0x2040 [1, 2, 3, 4, 0, 0, 0, 0, 5, 6, 7, 8]
        mapped))
    okM (loadTile (s.entry i) (strOf (s.core.rs 3)) (BitVec.ofNat 19 0x20202) (s.core.tile 1) [(0, 0), (1, 1)]) (s.begun i)
        fun v t => v.data == 0x0807060504030201 && completesB s i t ⟨[(1, v)], [], [], 0⟩) = true := by decide +kernel

theorem witness_TileLoads_index : (
    let i := Instr.ldTi noTok 3 1 2
    let s := tile 2 1 3 1 2 15 (tile 1 0 2 2 2 0 (stream 3 (strm true 0x40 7 2 2 8) (putBank 0x40 [1, 2, 3, 4, 0, 0, 0, 0,
        5, 6, 7, 8] base)))
    let d := strOf (s.core.rs 3)
    canRunB i s && (strBad .index (s.core.rs 3)).isNone && (s.core.tile 2).indexOk &&
        okM (loadTile (s.entry i) d (BitVec.ofNat 19 0x20202) (s.core.tile 1) (indexRows d (s.core.tile 2) (BitVec.ofNat 19
        0x30102))) (s.begun i) fun v t => v.data == 0x0403020108070605 && completesB s i t ⟨[(1, v)], [], [], 0⟩) = true := by decide +kernel

theorem witness_TileLoads_fifo : (
    let i := Instr.ldFf noTok 3 1
    let s := tile 1 0 2 2 2 0
        (stream 3 (strm true 0 7 2 2 0) (core (fun c => { c with bankmode := 2, fifo := c.fifo.set 0 (0x1FFFC * 2 ^ 32 + 0x20004) }) (putBank 0 [5, 6, 7, 8] (putBank 0x1FFFC [1, 2, 3, 4] base))))
    let d := strOf (s.core.rs 3)
    canRunB i s && (strBad .fifo (s.core.rs 3)).isNone && okM (fifoBank d) (s.begun i) (fun n _ => n == 0) &&
        nexts (exec i s) fun t => (t.core.tile 1).data == 0x0807060504030201 && (t.core.tile 1).fmt == 7 &&
        (t.core.fifo)[0] == 0x20004 * 2 ^ 32 + 0x20004) = true := by decide +kernel

theorem witness_TileLoads_accumulator : (
    let i := Instr.ldA noTok 3 1
    let s := stream 3 (strm true 0 13 32 64 384) (putBank 0 [9] base)
    let d := strOf (s.core.rs 3)
    let same := d.liveRows.map fun i => (i, i)
    canRunB i s && (strBad .acc (s.core.rs 3)).isNone &&
        okM (strAddrs (s.core.who false 0) d 48 (segSpans 48 (d.segs 48 same)) []) (s.begun i) (fun _ _ => true) &&
        okM (acc (loadSegs (s.core.who false 0) d 48 (d.segs 48 same))) (s.begun i) fun n t => n == 9 &&
        completesB s i t ⟨[], [(1, ⟨9, 0, false⟩)], [], 0⟩) = true := by decide +kernel

theorem witness_TileLoads_scales : (
    let i := Instr.dcfgSc noTok 3 1 false
    let s := stream 3 (strm true 0 3 1 32 128) (putBank 0 [9] base)
    canRunB i s && okM (cfgData 3 32 (s.entry i)) (s.begun i) fun n t => n == 9 &&
        completesB s i t ⟨[], [], [(1, { t.core.cfg 1 with rs := 9, rsOn := true })], 0⟩) = true := by decide +kernel

theorem witness_TileLoads_biases : (
    let i := Instr.dcfgBi noTok 3 1 true
    let s := stream 3 (strm true 0 3 1 64 256) (putBank 0 [9] base)
    canRunB i s && okM (cfgData 3 64 (s.entry i)) (s.begun i) fun n t => completesB s i t ⟨[], [], [(1,
        { t.core.cfg 1 with cb := BitVec.ofNat 2048 n, cbOn := true })], 0⟩) = true := by decide +kernel

theorem witness_TileLoads_table : (
    let i := Instr.dcfgFn noTok 3 1
    let s := stream 3 (strm true 0 3 49 16 64) base
    canRunB i s && okM (cfgStream 3 49 16 (s.entry i)) (s.begun i) fun d _ => okM (cfgRows d [0]) (s.begun i) fun n t =>
        tableOk (BitVec.ofNat 25088 n) && n % 256 == 0 &&
        completesB s i t ⟨[], [], [(1, { t.core.cfg 1 with table := BitVec.ofNat 25088 n, fnOn := false })], 0⟩) = true := by decide +kernel

/-- A table of kind 1, whose segments are read. -/
theorem witness_TileLoads_segments : (
    let i := Instr.dcfgFn noTok 3 1
    let s := stream 3 (strm true 0 3 49 16 64) (putBank 64 [5] (putBank 0 (leBytes 8 (1 + 2 ^ 32 * 0)) base))
    canRunB i s && okM (cfgStream 3 49 16 (s.entry i)) (s.begun i) fun d _ => okM (cfgRows d [0]) (s.begun i) fun n t =>
      okM (cfgRows d ((List.range 48).map fun r => r + 1)) t fun m x => n % 256 == 1 && m != 0 && tableOk (BitVec.ofNat 25088 n) &&
        completesB s i x ⟨[], [], [(1, { x.core.cfg 1 with table := BitVec.ofNat 25088 (n ||| m), fnOn := true })], 0⟩) = true := by decide +kernel

theorem witness_TileLoads_bad_table : (
    let i := Instr.dcfgFn noTok 3 1
    let s := stream 3 (strm true 0 3 49 16 64) (putBank 0 [9] base)
    okM (cfgStream 3 49 16 (s.entry i)) (s.begun i) fun d _ => okM (cfgRows d [0]) (s.begun i) fun n _ =>
        !tableOk (BitVec.ofNat 25088 n) && gives (exec i s) (noteQueueTrap 3 (s.entry i) 0x0D 0 (s.begun i))) = true := by decide +kernel

theorem witness_TileLoads_prefix : (
    let i := Instr.bmpfx noTok 3 1
    let s := tile 1 0 3 2 2 0 (stream 3 (strm true 0 15 1 2 8) (putBank 0 [7, 0, 0, 0, 1] base))
    canRunB i s && (strBad .plain (s.core.rs 3)).isNone &&
        okM (bitmapOf (strOf (s.core.rs 3))) (s.begun i) fun xs t => xs == [7, 1] &&
        completesB s i t ⟨[(1, plainTile (t.core.tile 1) (BitVec.ofNat 19 0x30202) 15 32 (xs ++ prefixCounts 0 xs))], [],
        [], 0⟩) = true := by decide +kernel

theorem witness_TileLoads_and : (
    let i := Instr.bmand noTok 3 1 2
    let s := tile 2 5 3 2 2 15 (tile 1 0 3 2 3 0 (stream 3 (strm true 0 15 1 2 8) (putBank 0 [7, 0, 0, 0, 1] base)))
    canRunB i s && nexts (exec i s) fun t => (t.core.tile 1).el 32 0 == 5 && (t.core.tile 1).el 32 1 == 0 &&
        (t.core.tile 1).el 32 4 == 5) = true := by decide +kernel

theorem witness_TileLoads_gather : (
    let i := Instr.isxG noTok 3 1 2
    let s := tile 2 (1 + 2 ^ 32 * 0 + 2 ^ 64 * 0) 3 2 3 15 (tile 1 0 2 2 2 0 (stream 3 (strm true 0x40 7 1 8 16) (putBank
        0x40 [1, 2, 3, 4] base)))
    let d := strOf (s.core.rs 3)
    let b := fmtBits d.fmt
    let w := s.core.who false 0
    canRunB i s && (strBad .plain (s.core.rs 3)).isNone && d.fmt == 7 && d.rows == 1 && (s.core.tile 2).fmt == 15 &&
        okM (strRange w d [((d.base : Int), max 1 (b / 8))]) (s.begun i) (fun _ t => same t (s.begun i)) &&
        okM (acc (readAt w true d.base 2)) (s.begun i) fun bs t =>
          completesB s i t ⟨[(1, plainTile (s.core.tile 1) (BitVec.ofNat 19 0x20202) 7 16 [leNat bs])], [], [], 0⟩) = true := by decide +kernel

/-- No offset gathered: the base may lie anywhere (R259). -/
theorem witness_TileLoads_gather_none : (
    let i := Instr.isxG noTok 3 1 2
    let s := tile 2 0 3 2 3 15 (tile 1 9 2 2 2 0 (stream 3 (strm true 0x41 7 1 8 16) base))
    canRunB i s && completesB s i (s.begun i) ⟨[(1, plainTile (s.core.tile 1) (BitVec.ofNat 19 0x20202) 7 16 [])], [], [], 0⟩) = true := by decide +kernel

theorem witness_TileStores_tile : (
    let i := Instr.stT noTok 3 1
    let s := tile 1 0x0807060504030201 2 2 2 7 (stream 3 (strm true 0x40 7 2 2 8) base)
    let d := strOf (s.core.rs 3)
    canRunB i s && (strBad .tile (s.core.rs 3)).isNone && okM (storeFmt d (s.core.tile 1)) (s.begun i) (fun _ _ => true) &&
        okM (storeTile (s.entry i) d (s.core.tile 1) [(0, 0), (1, 1)]) (s.begun i) fun _ t => memRead t.bank 0x40 12 == [1,
        2, 3, 4, 0, 0, 0, 0, 5, 6, 7, 8] && completesB s i t ⟨[], [], [], 0⟩) = true := by decide +kernel

theorem witness_TileStores_index : (
    let i := Instr.stTi noTok 3 1 2
    let s := tile 2 1 3 1 2 15 (tile 1 0x0807060504030201 2 2 2 7 (stream 3 (strm true 0x40 7 2 2 8) base))
    let d := strOf (s.core.rs 3)
    canRunB i s && okM (storeTile (s.entry i) d (s.core.tile 1) (indexRows d (s.core.tile 2) (BitVec.ofNat 19 0x30102)))
        (s.begun i) fun _ t => memRead t.bank 0x40 12 == [5, 6, 7, 8, 0, 0, 0, 0, 1, 2, 3, 4] &&
        completesB s i t ⟨[], [], [], 0⟩) = true := by decide +kernel

theorem witness_TileStores_fifo : (
    let i := Instr.stFf noTok 3 1
    let s := tile 1 0x0807060504030201 2 2 2 7
        (stream 3 (strm true 0 7 2 2 0) (core (fun c => { c with bankmode := 2, fifo := c.fifo.set 0 (0x1FFFC * 2 ^ 32 + 0x1FFFC) }) base))
    canRunB i s && nexts (exec i s) fun t => memRead t.bank 0x1FFFC 4 == [1, 2, 3, 4] &&
        memRead t.bank 0 4 == [5, 6, 7, 8] && (t.core.fifo)[0] == 0x1FFFC * 2 ^ 32 + 0x20004) = true := by decide +kernel

theorem witness_TileStores_zero : (
    let i := Instr.stZ noTok 3
    let s := stream 3 (strm true 0x40 7 2 2 8) (putBank 0x40 [1, 2, 3, 4, 9, 0, 0, 0, 5, 6, 7, 8] base)
    canRunB i s && (strBad .zero (s.core.rs 3)).isNone &&
        nexts (exec i s) fun t => memRead t.bank 0x40 12 == [0, 0, 0, 0, 9, 0, 0, 0, 0, 0, 0, 0]) = true := by decide +kernel

theorem witness_TileStores_accumulator : (
    let i := Instr.stA noTok 3 1
    let s := core (fun c => c.setAcc 1 ⟨9, 1 + 2 ^ 64 * 5, false⟩) (stream 3 (strm true 0 13 32 64 384) base)
    let d := strOf (s.core.rs 3)
    let w := s.core.whoIn 3 0
    let elems := segSpans 48 (d.segs 48 (d.liveRows.map fun i => (i, i)))
    let map : List (Int × Nat) := d.liveRows.map fun r => ((d.base : Int) + 32 * d.rstride + 8 * (r : Int), 8)
    canRunB i s && (strBad .acc (s.core.rs 3)).isNone && d.fmt == 13 &&
        okM (strAddrs w d 48 elems map) (s.begun i) (fun _ t => same t (s.begun i)) &&
        okM (noSpill w d (elems ++ map)) (s.begun i) (fun _ t => same t (s.begun i)) &&
        nexts (exec i s) fun t => memRead t.bank 0 6 == leBytes 6 9 && memRead t.bank 0x3000 16 == leBytes 8 1 ++ leBytes 8 5 &&
          t.core.sq.isEmpty) = true := by decide +kernel

theorem witness_TileStores_drain : (
    let i := Instr.drn noTok 3 1 8
    let s := core (fun c => c.setAcc 1 ⟨9, 0, false⟩) (stream 3 (strm true 0 8 1 1 4) base)
    canRunB i s && nexts (exec i s) fun t => memRead t.bank 0 4 == [9, 0, 0, 0]) = true := by decide +kernel

theorem witness_TileStores_drain_tile : (
    let i := Instr.drnT noTok 1 1 7
    let s := core (fun c => c.setAcc 1 ⟨2 ^ 48 - 1, 0, false⟩) (tile 1 0 2 2 2 0 base)
    canRunB i s && nexts (exec i s) fun t => (t.core.tile 1).data == 0xFFFF && (t.core.tile 1).fmt == 7) = true := by decide +kernel

theorem witness_MatrixProducts_tiles : (
    let i := Instr.mmaTileTile noTok 1 1 2 true 7
    let s := tile 1 (3 + 2 ^ 16 * 0xFFFE) 2 2 1 7 (tile 2 (5 + 2 ^ 16 * 7) 2 1 2 7 base)
    canRunB i s && okM (maskCheck (s.core.tile 1) 1 2) (s.begun i) (fun _ _ => true) &&
        nexts (exec i s) fun t => (t.core.acc 1).el 0 == 1) = true := by decide +kernel

theorem witness_MatrixProducts_patternA : (
    let i := Instr.mmaPatternA noTok 1 2 1 true 7
    let s := core (fun c => { c with p := c.p.set 1 0x10 }) (tile 2 (5 + 2 ^ 16 * 7) 2 1 2 7 base)
    canRunB i s && nexts (exec i s) fun t => !(t.core.acc 1).float) = true := by decide +kernel

theorem witness_MatrixProducts_patternB : (
    let i := Instr.mmaPatternB noTok 1 1 1 true 7
    let s := core (fun c => { c with p := c.p.set 1 0x10 }) (tile 1 (3 + 2 ^ 16 * 4) 2 2 1 7 base)
    canRunB i s && nexts (exec i s) fun t => !(t.core.acc 1).float) = true := by decide +kernel

theorem witness_MatrixProducts_ranks : (
    let i := Instr.cmpa noTok 1 1 7
    let s := tile 1 (3 + 2 ^ 16 * 4) 2 2 1 7 base
    canRunB i s && nexts (exec i s) fun t => (t.core.acc 1).el 0 == 1 && (t.core.acc 1).el 1 == 0 &&
        (t.core.acc 1).el 64 == 2) = true := by decide +kernel

theorem witness_DenseTile : (
    let i := Instr.ldT noTok 3 1
    let s := tile 1 0 2 2 2 0 (stream 3 (strm true 0x40 7 2 2 8) (putBank 0x40 [1, 2, 3, 4, 0, 0, 0, 0, 5, 6, 7, 8] base))
    memWf s.mem && memWf s.bank && memWf s.code && decide (localOk s (s.core.who false 0) 0x40 12 = some 0x40) &&
        nexts (exec i s) fun t => (t.core.tile 1).el 16 2 == 0x0605) = true := by decide +kernel

/-! ### Contexts, pages, channels -/

theorem witness_Context_task_mode : (
    let s := page 8 4 0x40 base
    [Instr.ctxSv 1, .ctxLd 1, .qsnSv 1, .qsnLd 1, .partSw 1, .eccInj 1 2, .mapInv 1 2, .migFrz 1 2].all fun i => gives
        (exec i s) (enterTrap 0x01 0 ((encode i).2 ++ (encode i).1) s)) = true := by decide +kernel

theorem witness_Context_alignment : (
    let s := handler (regs [(2, 0x10100)] (page 8 4 0x40 mapped))
    gives (exec (.ctxSv 2) s) (enterTrap 0x05 0 0x10100 s) && gives (exec (.ctxLd 2) s) (enterTrap 0x05 0 0x10100 s)) = true := by decide +kernel

theorem witness_Context_switch : (
    let s := handler (regs [(2, 3)] (page 0x18 4 8 base))
    s.core.hm && !s.core.det && s.pg s.core.partid 0x18 4 / 2 ^ 3 % 2 == 1 &&
        gives (exec (.partSw 0) s) (enterTrap 0x1D 0 0 s)) = true := by decide +kernel

theorem witness_Context_yield : (
    base.core.quiet && !base.core.det && base.core.teamsz.toNat ≤ 1 &&
        gives (exec .yield (det base)) ((det base).did 4 (det base).core)) = true := by decide +kernel

theorem witness_Page_code_load : (
    let s := regs [(1, 0x100), (2, 0x2000), (3, 8)] (put8 0x2000 0x1122334455667788 mapped)
    s.core.quiet && s.inWindow 0 0x100 8 && (granules 0x2000 8).all (fun g => (s.walk 0 g).any (·.grants .rx)) &&
        okM (acc (gRead (s.core.who true 3) 0x2000 8 .rx)) s fun bs _ => leNat bs == 0x1122334455667788) = true := by decide +kernel

theorem witness_Page_code_invalidate : (
    let s := regs [(2, 0x100), (3, 8)] base
    s.inWindow 0 0x100 8 && nexts (exec (.codeInv 2 3) s) fun t => memRead t.code 0x100 8 == List.replicate 8 0xFF && t.core.pc == 4) = true := by decide +kernel

theorem witness_Page_invalidate : (
    let s := handler (core (fun c => { c with pins := [⟨0x5000, 1, true, false, []⟩], watch := some ⟨0x100, 0x100, 0, false⟩ }) (regs [(2, 0x4000), (3, 0x4000)] mapped))
    s.core.quiet && (invalidate 0 0x4000 0x4000 s).core.watch.any (·.fired) && (invalidate 0 0x4000 0x4000 s).core.pins.all (·.revoked) &&
        gives (exec (.mapInv 2 3) s) ((invalidate 0 0x4000 0x4000 s).did 4 (invalidate 0 0x4000 0x4000 s).core)) = true := by decide +kernel

/-- A store of another core to a peer, on its way: `map.inv` waits for it past its invalidation point (R234, R303). -/
theorem witness_Page_invalidate_away : (
    let a : RemoteStore := ⟨5, 0, 0, 9, 0, 0x1000, [1], 7, false, none, true⟩
    let s := { handler (regs [(2, 0x4000), (3, 0x4000)] mapped) with remote := [a] }
    let u := invalidate 0 0x4000 0x4000 s
    let v := { u with core := { u.core with commit := .mapInv, stall := 0 } }
    !s.core.made 5 0 9 0 && gives (exec (.mapInv 2 3) s) v && gives (exec (.mapInv 2 3) v) v.waits &&
        gives (exec (.mapInv 2 3) { v with remote := [] }) ({ v with remote := [] }.did 4 { v.core with commit := .none })) = true := by
  decide +kernel

theorem witness_Page_migrate : (
    let s := handler (regs [(2, 0x2000), (3, 0)] mapped)
    okM (acc (gRead (s.core.who true 3) 0x2000 64)) s (fun _ _ => true) &&
        okM (acc (gProbe (s.core.who true 3) .w 0x2000 64)) s (fun _ _ => true) &&
        nexts (exec (.migFrz 2 3) s) fun t => t.core.pc == 4) = true := by decide +kernel

/-- Pages 0 and 1 mapped by leaves of 16 KiB, the page 1 to be migrated to 0x8000. -/
def paged : State :=
  handler (regs [(2, 0x2000)] (put8 0x10C000 0x3D (put8 0x10C008 0x403D (put8 0x108000 0x10C003 (put8 0x104000 0x108003
    (put8 0x100000 0x104003 (puts 0x2000 [0x4000, 0x803D] (page 0x6A 1 1 (page 0 8 0x100000 base)))))))))
/-- `mig.frz` with an operation, and its record's state after it. -/
def migrates (op state : Nat) (s : State) (p : State → Bool) : Bool :=
  nexts (exec (.migFrz 2 3) (regs [(3, op)] s)) fun t => memRead t.mem 0x2030 1 == leBytes 1 state && p t

/-- A migration from its start: a store to the page is noted, a round gives it out, the commit moves the line. -/
theorem witness_Page_migration : (
    (paged.walk 0 0x4000).any (fun l => l.level == 3 && isHbm l.pa) && paged.trackers.isEmpty &&
        migrates 0 1 paged (fun t => t.trackers.map (·.va) == [0x4000] && migrates 0 8 t (fun _ => true) &&
          (let u := physWrite 0x4040 [7] none t
           migrates 1 1 u (fun v => memRead v.mem 0x2010 8 == leBytes 8 2 && v.trackers.map (·.map) == [0]) &&
           migrates 2 2 u (fun v => memRead v.mem 0x10C008 8 == leBytes 8 0x803D && memRead v.mem 0x8040 1 == [7] && v.trackers.isEmpty) &&
           migrates 2 3 (core (fun c => { c with pins := [⟨0x4000, 8, false, false, []⟩] }) u) (fun _ => true) &&
           migrates 2 4 (put8 0x2008 0 u) (fun _ => true) && migrates 3 6 u (fun v => v.trackers.isEmpty))) &&
        migrates 1 7 paged (fun _ => true) && migrates 0 5 (page 0x6A 1 0 paged) (fun _ => true) &&
        migrates 0 4 (put8 0x2000 0x20000000 paged) (fun _ => true)) = true := by decide +kernel

/-- Nothing on its way of an emission: there is nothing to withdraw. -/
theorem witness_Context_withdraw : (
    base.regions.isEmpty && decide (base.core.commit = .none) && decide ((withdraw base.core base).1 = base.core) &&
        same (withdraw base.core base).2 base) = true := by decide +kernel

theorem witness_Page_keep : (
    let s := regs [(2, 0x4000), (3, 0x8000)] (page 0x60 1 1 base)
    gives (exec (.dcKeep 2 3) s) ({ s with retain := vmod s.retain 0 fun _ => ⟨true, 0x4000, 0, 2⟩ }.did 4 s.core) &&
        nexts (exec (.dcKeep 2 3) s) fun t => nexts (exec (.dcUnpin 2) t) fun u => !(vget u.retain 0 Retain.reset).en) = true := by decide +kernel

theorem witness_Channels_go : (
    let s := regs [(2, 3), (3, 0x2000)] (page 0x70 8 8 mapped)
    (s.walk 0 0x2000).any (fun l => l.grants .r && !s.poolLost l.pa) &&
        nexts (exec (.cpGo 2 3 1) s) fun t => (t.chan 3).queue.map (fun c => (c.chan, c.ident, c.head)) == [(3, 1, 0x2000)] && (t.chan 3).issued == 1 && (t.chan 3).queue.length == 1 &&
        t.core.latchId == 1 && t.core.latchCh == 3) = true := by decide +kernel

theorem witness_Channels_full : (
    let s := regs [(2, 3), (3, 0x2000)] (page 0x70 8 8 mapped)
    let t := s.modChan 3 fun x => { x with queue := List.replicate 16 ⟨3, 1, 0, 0, 0, 0, false, 0, 0, 0, 0, 0⟩ }
    (t.chan 3).queue.length == 16 && gives (exec (.cpGo 2 3 1) t) t.waits) = true := by decide +kernel

theorem witness_Channels_id : (
    let s := core (fun c => { c with latchId := 9, latchCh := 3 }) (regs [(2, 3), (3, 4)] (page 0x70 8 0x18 mapped))
    gives (exec (.cpId 1 2) s) (s.wrote 4 1 9) && gives (exec (.cpId 1 3) s) (s.wrote 4 1 0) &&
        gives (exec (.cpId 1 3) (det s)) ((det s).trapped 0x11)) = true := by decide +kernel

theorem witness_Channels_wait : (
    let s := (regs [(2, 3), (3, 5), (4, 6)] (page 0x70 8 8 mapped)).modChan 3 fun x => { x with issued := 5, cpdone := 4 }
    gives (exec (.cpWait 2 3 1) s) s.waits && gives (exec (.cpWait 2 4 1) s) (enterTrap 0x14 0 6 s) &&
        gives (exec (.cpWait 2 0 1) s) (s.did 4 s.core)) = true := by decide +kernel

theorem witness_Channels_abort : (
    let s := (regs [(2, 3)] (page 0x70 8 8 mapped)).modChan 3 fun x => { x with issued := 5, cpdone := 5 }
    let t := s.modChan 3 Channel.abort
    (t.chan 3).past 5 && gives (exec (.cpAbort 2 1) s) (t.did 4 s.core)) = true := by decide +kernel

theorem witness_Channels_abort_far : (
    let s := { (regs [(2, 3)] (page 0x70 8 8 mapped)) with poolStores := [sentStore 0 (chanUnit 3) 0 0x1000 5] }
    let t := s.modChan 3 Channel.abort
    s.engineFar (chanUnit 3) 5 && !s.engineFar (chanUnit 3) 2 && gives (exec (.cpAbort 2 2) s) (t.did 4 s.core) &&
        gives (exec (.cpAbort 2 5) s) { t with core := { t.core with commit := .cpAbort 0, stall := 0 } }) = true := by decide +kernel

theorem witness_Channels_abort_waits : (
    let s := (core (fun c => { c with commit := .cpAbort 5 }) (regs [(2, 3)] (page 0x70 8 8 mapped))).modChan 3 fun x =>
        { x with issued := 5, cpdone := 4, run := some copyRun }
    !(s.chan 3).past 5 && gives (exec (.cpAbort 2 1) s) s.waits) = true := by decide +kernel

theorem witness_Channels_access : (
    let s := regs [(2, 64), (3, 5)] (page 8 4 0x40 (page 0x70 8 8 mapped))
    [Instr.cpGo 2 3 1, .cpId 1 2, .cpWait 2 3 1].all (fun i => gives (exec i s) (enterTrap 0x04 0 64 s)) &&
        [Instr.cpGo 3 3 1, .cpId 1 3, .cpWait 3 3 1].all fun i => gives (exec i s) (enterTrap 0x04 0 5 s)) = true := by decide +kernel

/-- A first-level hit makes no translation: with the table entry gone a load of the line that the first one filled goes on, and one
of another line ends its context (R213, R78). -/
theorem test_cache_first_level : (
    let s := regs [(2, 0x2000), (3, 0x2040)] (put8 0x2000 5 mapped)
    nexts (exec (.ldD 0 false 1 2 0) s) fun t => let u := put8 0x104000 0 t
      t.core.rg 1 == 5 && nexts (exec (.ldD 0 false 4 2 0) u) (fun v => v.core.rg 4 == 5) &&
        nexts (exec (.ldD 0 false 4 3 0) { u with core := { u.core with ctx := 7 } }) fun v => v.core.act == .idle) = true := by decide +kernel

/-- A line of a granule that `dc.keep` retains carries its class, and is an ordinary one again after `dc.unpin` (R217-R219). -/
theorem test_cache_class : (
    let s := regs [(2, 0x4000), (3, 0x4000)] (page 0x60 1 1 mapped)
    let classes (t : State) : List (Option (Nat × Nat)) := t.cache.slices.flatMap fun x => x.2.map (·.cls)
    nexts (exec (.dcKeep 2 3) s) fun t => nexts (exec (.ldD 0 false 1 2 0) t) fun u =>
      classes u == [some (0, 0)] && nexts (exec (.dcUnpin 2) u) fun v => classes v == [none]) = true := by decide +kernel

/-- A full set gives up a line of the evict-first hint before one used longer ago (R216). -/
theorem test_cache_victim : (
    let line (n : Nat) : SliceLine := ⟨n, n == 9, if n = 0 then some (0, 1) else none⟩
    let set := (List.range 16).map line
    (touchSet 20 false none set).map (·.line) == (List.range 16).filter (· != 9) ++ [20] &&
      (touchSet 21 false none (touchSet 20 false none set)).map (·.line) == ((List.range 16).filter fun n => n != 9 && n != 1) ++ [20, 21]) = true := by decide +kernel

/-! ### KV pages, serving, text -/

theorem witness_Kv_append : (
    let s := regs [(1, 0), (2, 0x2000), (3, 0x5000)] (puts 0x5000 [77] kvState)
    !s.core.det && s.core.quiet &&
        okM (kvOpen 0x2000) s (fun k t => k.len == 17 && okM (kvEntry k 1) t fun e _ => enRef e ≤ 1) &&
        (probeFail (s.core.who true 3) .w s (0x8000 + 128 + 8) 8).isNone &&
        nexts (exec (.kvApp 1 2 3) s) fun t => t.core.rg 1 == 18 && memRead t.mem 0x8088 8 == leBytes 8 77 &&
        memRead t.mem 0x2008 4 == leBytes 4 18) = true := by decide +kernel

/-- A token stored in the host's memory: the word is complete once the store is performed (R290). -/
theorem witness_Kv_step : (
    let s := regs [(1, 0), (2, 0x2000), (3, 0x5000)] (puts 0x5000 [77] (puts 0x3000 [0x4000, 8 + 2 ^ 32 * 4, 2 ^ 36 + 0x8000, 2]
      (put8 0x104008 (2 ^ 40 + 0x3D) kvState)))
    isHost (2 ^ 40 + 0x8088) && nexts (exec (.kvApp 1 2 3) s) fun t => t.core.commit == .kvStep && t.core.pc == 0 &&
      t.core.rg 1 == 18 && t.hostStores.length == 1 && gives (exec (.kvApp 1 2 3) t) t.waits &&
      (let u := { t with hostStores := [] }
       gives (exec (.kvApp 1 2 3) u) (u.did 4 { u.core with commit := .none }))) = true := by decide +kernel

theorem witness_Kv_append_page : (
    let s := regs [(2, 0x2000), (3, 0x5000)] (puts 0x2008 [16 + 2 ^ 32 * 0xFFFFFFFF, 2 ^ 32 * 0xFFFFFFFF] kvState)
    okM (kvOpen 0x2000) s (fun k _ => k.len == 16 && k.free == 2) &&
        nexts (exec (.kvApp 1 2 3) s) fun t => memRead t.mem 0x2014 4 == leBytes 4 2 &&
        memRead t.mem 0x3018 4 == leBytes 4 3 && t.core.rg 1 == 17) = true := by decide +kernel

theorem witness_Kv_fork : (
    let s := regs [(1, 0x2040), (2, 0x2000)] kvPair
    okM (kvOpen 0x2040) s (fun m _ => m.len == 0 && m.hold == noPage) &&
        nexts (exec (.kvFork 1 2) s) fun t => memRead t.mem 0x2048 4 == leBytes 4 17 &&
        memRead t.mem 0x4000 8 == leBytes 8 (2 * 2 ^ 48 + 16 * 2 ^ 43) && t.core.pc == 4) = true := by decide +kernel

theorem witness_Kv_map : (
    let s := regs [(2, 0x2000), (3, 1)] kvState
    okM (kvOpen 0x2000) s
        (fun k t => k.page 1 == 1 && k.hold == noPage && k.free < k.npages && okM (kvEntry k k.free) t fun _ _ => true) &&
        nexts (exec (.kvMap 2 3) s) fun t => memRead t.mem 0x2014 4 == leBytes 4 2 &&
        memRead t.mem 0x200C 4 == leBytes 4 1 && t.core.pc == 4) = true := by decide +kernel

theorem witness_Kv_release_hold : (
    let s := regs [(2, 0x2001)] (put 0x200C (leBytes 4 3) (puts 0x4018 [2 ^ 48] kvState))
    okM (kvOpen 0x2000) s (fun k t => k.hold == 3 && okM (kvCheckDrops k [3]) t fun _ _ => true) &&
        nexts (exec (.kvRel 2) s) fun t => t.core.pc == 4) = true := by decide +kernel

theorem witness_Kv_release : (
    let s := regs [(2, 0x2000)] kvState
    okM (kvOpen 0x2000) s (fun k t => okM (kvCheckDrops k k.pages) t fun _ _ => true) &&
        nexts (exec (.kvRel 2) s) fun t => memRead t.mem 0x2008 4 == leBytes 4 0 && t.core.pc == 4) = true := by decide +kernel

theorem witness_Kv_read : (
    let s := regs [(2, 0x2001), (3, 0x2002)] kvState
    nexts (exec (.kvRd 1 2) s) (fun t => t.core.rg 1 == wrapN (2 ^ 48 + 2 ^ 43 + 1)) &&
        nexts (exec (.kvRd 1 3) s) fun t => t.core.rg 1 == wrapN noPage) = true := by decide +kernel

theorem witness_Serving_count : (
    let s := regs [(1, 1), (2, 0x2000)] (puts 0x2000 [1 + 2 ^ 16 * 2, 0, 0, 0, 0, 0, 0, 0, 2 * 2 ^ 62 + 2 ^ 32, 5 * 2 ^ 32]
        mapped)
    okM (ecrOpen 0x2000 0) s (fun h _ => ecrExp h.1 == 2) && nexts (exec (.exsCnt 1 2 0) s) fun t => t.core.rg 1 == 0 &&
        memRead t.mem 0x204C 4 == leBytes 4 6) = true := by decide +kernel

theorem witness_Serving_age : (
    let s := regs [(1, 1), (2, 0x2000)] (puts 0x2000 [1 + 2 ^ 16 * 2, 0, 0, 0, 0, 0, 0, 0, 2 * 2 ^ 62 + 2 ^ 32, 5 * 2 ^ 32
        + 3] mapped)
    nexts (exec (.exsAge 2 0) s) fun t => memRead t.mem 0x2048 8 == leBytes 8 (2 * 2 ^ 32 + 1)) = true := by decide +kernel

theorem witness_Serving_load : (
    let s := regs [(3, 1), (2, 0x2000)] (puts 0x2000 [1 + 2 ^ 16 * 2] mapped)
    nexts (exec (.exsLd 2 3 0) s) fun t => ((vget t.experts 0 []).map fun k => (k.num, k.x)) == [(1, 1)] && t.nextNum == 2) = true := by decide +kernel

theorem witness_Serving_swap : (
    let s := regs [(2, 0x2000), (3, 0x3000)] (puts 0x2000 [2 ^ 32 + 6] mapped)
    okM (readDesc 3 0x2000) s (fun h _ => tableRecOk h && fld h 352 32 == 0) &&
        nexts (exec (.tblSwap 2 3 0) s) fun t => memRead t.mem 0x2000 4 == leBytes 4 7 &&
        memRead t.mem 0x2020 8 == leBytes 8 0x3000) = true := by decide +kernel

theorem witness_Serving_prefetch : (
    let s := regs [(2, 0x2000), (3, 0x3000)] (puts 0x3000 [0x4000, 1] (puts 0x2000 [2 ^ 32 + 6] mapped))
    okM (readDesc 0 0x3000) s (fun g _ => fld g 64 32 == 1 && fld g 128 384 == 0) &&
        nexts (exec (.embPf 2 3 0) s) fun t => (vget t.prefetch 0 []).length == 1) = true := by decide +kernel

theorem witness_Serving_coarse : (
    let s := regs [(2, 0x2000)] (puts 0x2000 [0x4000, 2 ^ 8 + 2 ^ 32, 2 ^ 34, 0x5000, 0x3F800000 + 2 ^ 32] mapped)
    okM (readDesc 0 0x2000) s (fun h _ => samplingOk h && okM (checkSampling h true 0 (samplingOf h).rows) s fun _ _ => true) &&
        nexts (exec (.smpCoarse 2 0 0) s) fun t => ((vget t.sampler 0 []).map (·.op)) == [0]) = true := by decide +kernel

theorem witness_Serving_search : (
    let s := regs [(2, 0x2000)] (puts 0x2000 [0x4000, 2 ^ 8 + 2 ^ 32, 2 ^ 34, 0x5000, 0x3F800000 + 2 ^ 32] mapped)
    s.core.waitCmd == 0 &&
        nexts (exec (.smpThr 1 2 0) s)
        (fun t => t.core.waitCmd == 1 && t.core.pc == 0 && gives (exec (.smpThr 1 2 0) t) t.waits) &&
        nexts (exec (.smpDraw 1 2 0 0) s) fun t => t.core.waitCmd == 1 && ((vget t.sampler 0 []).map (·.op)) == [2]) = true := by decide +kernel

theorem witness_Serving_answer : (
    let s := core (fun c => { c with waitCmd := 1, cmdDone := some (false, 9) }) base
    gives (exec (.smpThr 1 2 0) s) (s.did 4 ({ s.core with waitCmd := 0, cmdDone := none }.setG 1 9)) &&
        gives (exec (.smpDraw 1 2 3 0) (core (fun c => { c with cmdDone := some (true, 9) }) (page 8 4 0x40 s)))
        (enterTrap 0x20 0 9 (core (fun c => { c with cmdDone := some (true, 9) }) (page 8 4 0x40 s)))) = true := by decide +kernel

theorem witness_Serving_check : (
    let s := regs [(2, 0x2000)] (puts 0x2000 [0x4000, 2 ^ 9 + 2 ^ 32, 2 ^ 34, 0x5000, 0x3F800000 + 2 ^ 32] (puts 0x2000
        [0x4000, 0, 0, 1] mapped))
    let s := regs [(2, 0x3000)] (puts 0x3000 [0x2000, 0x6000, 0x7000, 1] s)
    okM (readDesc 0 0x3000) s (fun h _ => checkOk h) && nexts (exec (.specChk 1 2 0 0) s) fun t => t.core.rg 1 == 1 &&
        (vget t.accept 0 []).length == 1) = true := by decide +kernel

theorem witness_Serving_fragment : (
    let s := regs [(2, 0x2000)] (puts 0x2020 [2 ^ 63 + 5 * 2 ^ 32] mapped)
    nexts (exec (.fragSel 1 2 0) s) (fun t => t.core.rg 1 == 5) &&
        gives (exec (.fragSel 1 2 0) (put8 0x2020 0 s)) (put8 0x2020 0 s).waits) = true := by decide +kernel

theorem witness_Serving_combine : (
    let s := regs [(2, 0x2000)] (put 0x5000 [0x80, 0x3F] (put 0x4000 [0, 0x3F] (puts 0x2000 [0x4000, 0x5000, 0x6000, 64 * 2
        ^ 32 + 2 * 2 ^ 16, 1 + 2 ^ 8 + 2 ^ 16] mapped)))
    okM (readDesc 0 0x2000) s (fun h _ => combineOk h && !(combineOf h).overlaps) && slotToken 1 0x3F80 == some (some 0) &&
        !gateBad 0x3F00 && nexts (exec (.moeCmb 2 0 0) s) fun t => memRead t.mem 0x6000 2 == [0, 0x3F] && t.core.pc == 4) = true := by decide +kernel

theorem witness_Text_submit : (
    let s := regs [(2, 0x2000), (3, 1)] (puts 0x2000 [0x4000, 0x5000, 4] (page 0x6C 1 2 mapped))
    okM (readDesc 0 0x2000) s (fun h _ => submitOk false h) &&
        nexts (exec (.tokSub 2 3 0) s) fun t => (vget t.tok 1 TextEng.reset).subs.length == 1 && t.core.pc == 4 &&
        gives (exec (.tokSub 2 3 0) (core (fun c => { c with pc := 0 }) t)) (core (fun c => { c with pc := 0 }) t).waits) = true := by decide +kernel

theorem witness_Text_result : (
    let s := regs [(2, 0x2000)] (puts 0x2028 [2 ^ 63 + 5] mapped)
    nexts (exec (.tokRes 1 2 0) s) (fun t => t.core.rg 1 == 2 ^ 63 + 5) && gives (exec (.dtkRes 1 2 0) s) s.waits) = true := by decide +kernel

theorem witness_Text_receive : (
    let s := regs [(2, 0x2000)]
        (puts 0x8000 [1 + 2 ^ 32 * 8, 0, 0, 0, 77] (puts 0x2000 [0, 0x4000, 64] ((page 0xB0 8 1 mapped).modRq 0 fun r => { r with en := true, base := 0x8000, tail := 1, lcap := 1 })))
    okM (readDesc 3 0x2000) s (fun h _ => recvOk h) && s.rqGranted 0 0 &&
        nexts (exec (.netRx 1 2 0) s)
        (fun t => t.core.rg 1 == 40 && memRead t.mem 0x4020 8 == leBytes 8 77 && (t.rq 0).head == 1) &&
        nexts (exec (.netRx 1 2 0) (s.modRq 0 fun r => { r with tail := 0 })) fun t => t.core.rg 1 == wrapI (-1) &&
        (t.rq 0).armed) = true := by decide +kernel

theorem witness_Text_send : (
    let s := regs [(2, 0x2000), (3, 40)] (puts 0x2000 [2 + 2 ^ 32 * 8] mapped)
    okM (acc (gRead (s.core.who true 0) 0x2000 32)) s (fun bs _ => replyOk bs 40) &&
        nexts (exec (.netTx 2 3 0) s) fun t => t.handed.length == 1 && t.core.pc == 0 &&
        gives (exec (.netTx 2 3 0) t) t.waits && nexts (exec (.netTx 2 3 0) { t with handed := [] }) fun u => u.core.pc == 4) = true := by decide +kernel

theorem witness_Text_vocabulary : (
    let s := regs [(2, 0x2000), (3, 0x3000)] (puts 0x2000 [6] mapped)
    okM (acc (gRead (s.core.who true 0) 0x3000 64)) s (fun hd _ => vocabHeader hd == some 0) &&
        nexts (exec (.vocSwap 2 3 0) s) fun t => memRead t.mem 0x2000 4 == leBytes 4 7 &&
        memRead t.mem 0x2020 8 == leBytes 8 0x3000) = true := by decide +kernel

/-! ### Update streams -/

/-- A pair of core 0 sent to the region, as `UpdateWords` says. -/
def sendPair (who key val : Nat) (y : State) : State :=
  let z := rgns (fun q => { q with transit := q.transit ++ [⟨BitVec.ofNat 32 key, BitVec.ofNat 32 val, 0, y.core.seqctr, who⟩] })
    { y with core := { y.core with seqctr := y.core.seqctr + 1 } }
  if y.eager then arriveAll 0 z else z

theorem witness_Update_pair : (
    let s := regs [(1, 0x6000), (2, 5 + 2 ^ 32)] rgnState
    let y := (sendPair 1 1 5 (rgns (·.hold s.core true 1 0) s)).handedOver
    regionAt s 0x6000 == some rgn && rgn.inside s.core.id && rgn.size == 4 &&
        okM (tagEmission rgn (s.core.who true 0) 0x6000) s (fun _ t => same t s) && !outstanding 0 1 y &&
        gives (exec (.updS 1 2 0) s) ((rgns (·.unhold s.core true) y).did 4 { y.core with commit := .none })) = true := by decide +kernel

theorem witness_Update_pair_waits : (
    let s := { regs [(1, 0x6000), (2, 5 + 2 ^ 32)] rgnState with eager := false }
    let y := (sendPair 1 1 5 (rgns (·.hold s.core true 1 0) s)).handedOver
    let t := { y with core := { y.core with commit := .updS 0, stall := 0 } }
    let v := rgns (fun q => { q with transit := [] }) t
    outstanding 0 1 y && gives (exec (.updS 1 2 0) s) t && gives (exec (.updS 1 2 0) t) t.waits &&
        gives (exec (.updS 1 2 0) v) ((rgns (·.unhold v.core true) v).did 4 { v.core with commit := .none })) = true := by decide +kernel

theorem witness_Update_declare : (
    let s := regs [(1, 0x2000)] (put8 0x8008 7 (puts 0x2000 (rgnDesc 4 8 0 1 2) (page 0x68 2 3 mapped)))
    (match acc (gRead (s.core.who true 0) 0x2000 64) s with | .ok (bs, t) => let n := newRegion 1024 (leVec 512 bs) s.core []; regionOk n && freeSlot t == some 0 && (match acc (pinPages (s.core.who true 0) n.base n.bytes) t, acc (pinPages (s.core.who true 0) n.sbase n.ssize) t with | .ok (p, _), .ok (q, _) => let m : Region := { n with pages := p ++ q }; m.slots == 8 && (let y := physStore (s.core.who true 0) (m.phys m.sbase) (leBytes 64 0) { t with regions := t.regions ++ [{ m with slot := 0 }] }; gives (exec (.updRgn 1 0) s) (y.did 4 y.core)) | _, _ => false) | _ => false)) = true := by decide +kernel

theorem witness_Update_flags : (
    let s := regs [(1, 0x6000)] rgnState
    let y := applyRegion 0 s
    okM (acc (trigger (s.core.who true 0) 0x6000 (rgn.phys rgn.base) 1)) s (fun _ t => same t s) &&
        gives (exec (.updFlags 3 1 0) s) (y.wrote 4 3 (((y.regions.find? (·.slot == 0)).map (·.status)).getD 0))) = true := by decide +kernel

/-- The region in a lost pool region (R240): a read, a drain, a drain that waited, and a pair on its way. -/
theorem witness_Update_lost : (
    let lost (s : State) : State := { s with pools := [⟨BitVec.ofNat 52 (2 ^ 50), 1, 1, true⟩], regions := s.regions.map fun q =>
      { q with pages := [(1, 2 ^ 36), (2, 2)] } }
    let s := lost (regs [(1, 0x6000)] rgnState)
    let t := core (fun c => { c with commit := .updDrain 0 }) s
    let u := rgns (fun q => { q with transit := [⟨1, 5, 0, 0, 1⟩] }) s
    s.regions.all (·.lost s) && gives (exec (.updFlags 3 1 0) s) (endContext 0x33 s.core.pc 0x6000 0 s) &&
        gives (exec (.updDrain 1 0) s) (endContext 0x33 s.core.pc 0x6000 0 s) &&
        (settlePairs 0 t).regions == t.regions && gives (exec (.updDrain 1 0) t) (endContext 0x33 t.core.pc 0x6000 0 t) &&
        gives (exec (.tumblerPairArrival 0 0) u) s) = true := by decide +kernel

theorem witness_Update_drain : (
    let s := regs [(1, 0x6000)] rgnState
    let x := settlePairs 0 { s with core := { s.core with commit := .updDrain 0 } }
    let y := applyRegion 0 x
    x.regions.all (fun z => z.slot == 0 && !z.closed) && okM (acc (trigger (s.core.who true 0) rgn.base (rgn.phys rgn.base) 1)) s (fun _ t => same t s) &&
        gives (exec (.updDrain 1 0) s) (y.did 4 { y.core with commit := .none })) = true := by decide +kernel

theorem witness_Update_drain_close : (
    let s := regs [(1, 0x6001)] rgnState
    let x := settlePairs 0
        { rgns (fun q => { q with closed := true }) s with core := { s.core with commit := .updDrain 0 } }
    let y := applyRegion 0 x
    x.regions.all (fun z => z.slot == 0 && z.closed && z.holds.isEmpty) && gives (exec (.updDrain 1 0) s) ({ y with regions := y.regions.filter (·.slot != 0) }.did 4
        { y.core with commit := .none })) = true := by decide +kernel

theorem witness_Update_drain_waits : (
    let s := regs [(1, 0x6001)] (rgns (fun q => { q with holds := [⟨9, 1, 4, 2⟩] }) rgnState)
    let x := settlePairs 0
        { rgns (fun q => { q with closed := true }) s with core := { s.core with commit := .updDrain 0 } }
    x.regions.all (fun z => z.slot == 0 && z.closed && z.holds.any (·.left != 0)) &&
        gives (exec (.updDrain 1 0) s) { x with core := { x.core with stall := x.core.busyMask } }) = true := by decide +kernel

/-- An `upd` whose two pairs are accepted at once, and one whose first pair stays on its way. -/
theorem witness_Update_queue : (
    let i := Instr.upd noTok 1 2 1 0
    let s := regs [(1, 0x6000)] (tile 1 (2 ^ 32 * 3) 3 2 1 8 (tile 2 (7 + 2 ^ 32 * 9) 3 2 1 8 rgnState))
    let e := s.entry i
    let after (n : Nat) (s : State) : State := ([(0, 7), (3, 9)].take n).foldl (fun y p => sendPair (2 * e.num) p.1 p.2 y)
      (rgns (·.hold s.core false (2 * e.num) 2) (s.begun i))
    canRunB i s && (s.core.tile 1).indexOk && (s.core.tile 2).fmt == rgn.fmt && !(s.core.tile 2).sp &&
        (s.core.tile 1).ints (shRows e.shA * shCols e.shA) == [0, 3] && shRows e.shA == shRows e.shT &&
        shCols e.shA == shCols e.shT && (List.range 3).all (fun m => !outstanding 0 (2 * e.num) (after m s)) &&
        completesB s i (rgns (·.unhold s.core false) (after 2 s)) ⟨[], [], [], 0⟩ &&
        ((after 2 s).regions.map fun r => r.held.map fun p => (p.key, p.val)) == [[(0, 7), (3, 9)]] &&
        (let u := { s with regions := s.regions.map fun q => { q with desc := leVec 512 ([0x6000, 8 + 2 ^ 29 + 2 ^ 34, 0x8000, 0, 0, 0, 0, 0].flatMap (leBytes 8)) } }
         let x := rgns (·.holdLeft s.core false (2 * e.num) 1) (after 1 u)
         !outstanding 0 (2 * e.num) (after 0 u) && outstanding 0 (2 * e.num) (after 1 u) &&
           gives (exec i u) { x with core := x.core.setHead 3 { e with started := true, progress := 1, read := e.reads (u.begun i).core } })) = true := by decide +kernel

/-! ### Steps on tasks -/

theorem witness_Task_queue_trap : (
    let i := Instr.upd noTok 1 2 1 0
    let s := regs [(1, 0x6000)] (tile 1 0 3 2 1 8 (tile 2 0 3 2 1 8 mapped))
    let e := { s.entry i with waited := true }
    let t := core (fun c => { c with sq := [e], pc := 8 }) s
    t.startable 3 == some e &&
        (match perform e t with
          | .error (.trap x v) => gives (exec (.queueTrap 3) t) (enterTrap x e.addr v { t with core := { t.core with held := some ⟨t.core.pc, 3, e.num, []⟩, asleep := false, deadline := 0, timedOut := false, woken := false, stall := 0 } })
          | _ => false)) = true := by decide +kernel

theorem witness_Task_queue_no_trap : (
    let i := Instr.upd noTok 1 2 1 0
    let s := regs [(1, 0x6000)] (tile 1 0 3 2 1 8 (tile 2 0 3 2 1 8 rgnState))
    let e := { s.entry i with waited := true }
    let t := core (fun c => { c with sq := [e], pc := 8 }) s
    t.startable 3 == some e &&
        (match perform e t with | .ok (.done _, _) => gives (exec (.queueTrap 3) t) t | _ => false)) = true := by decide +kernel

theorem witness_Task_token_deadlock : (
    let i := Instr.upd ⟨true, false, false, false⟩ 1 2 1 0
    let e := entryOf i base.core 5
    let s := core (fun c => { c with sq := [e], stall := 8 }) base
    s.core.deadlocked 3 == some 2 && gives (exec (.tokenDeadlock 3) s) (noteQueueTrap 3 e 0x18 2 s)) = true := by decide +kernel

theorem witness_Task_send_release : (
    let i := Instr.upd ⟨false, false, true, false⟩ 1 2 1 0
    let e := { entryOf i base.core 5 with flight := some ⟨[], [], [], 0⟩ }
    let s := core (fun c => { c with sq := [e] }) base
    let t := core (fun c => { c with msUp := 63 }) s
    sendOk s.core 3 e.tok && gives (exec (.tokenSendRelease 3) s) { s with core := s.core.complete 3 e ⟨[], [], [], 0⟩ } &&
        !sendOk t.core 3 e.tok && gives (exec (.tokenSendRelease 3) t) t) = true := by decide +kernel

theorem witness_Task_unassigned : (
    decodeWord 0xFFFFFFFF 0 == none && !isExtended 0xFFFFFFFF &&
        gives (exec (.unassignedEncoding 0xFFFFFFFF 0) base) (enterTrap 0x01 0 0xFFFFFFFF base)) = true := by decide +kernel

theorem witness_Task_fatal : (
    let s := core (fun c => { c with ctx := 7 }) base
    s.core.ctx != 0) = true := by decide +kernel

theorem witness_Task_preempted : (
    let s := core (fun c => { c with ctx := 7 }) base
    (s.findCore 0).ctx != 0 && same (stopHeads 7 [] s) s && (savedWith s.core s).length == 1) = true := by decide +kernel

theorem witness_Task_slice : (
    let s := (core (fun c => { c with ctx := 7 }) (page 0xE0 4 1 (page 0xC0 1 1 base))).modCq 0 fun c =>
        { c with backlogged := true }
    s.pg 0 0xE0 4 != 0 && (s.cq 0).backlogged && s.cqOwner 0 == some 0) = true := by decide +kernel

theorem witness_Task_watchdog : (
    let s := core (fun c => { c with ctx := 7 }) base
    (page 0x14 4 1 s).pg 0 0x14 4 != 0 && gives (exec (.watchdogExpiry 0) s) s) = true := by decide +kernel

theorem witness_Task_resume_lost : (
    let m : SavedMember := ⟨{ Core.reset 0 with ctx := 7 }, 0x4000000⟩
    let v : Saved := ⟨0, 0x40, 0, 0, 0, 7, [m], false, false⟩
    let t := { base.modCq 0 (fun c => { c with dies := 1 }) with saved := [v] }
    resumeCores v 5 t == some [5] && (restoreAll v v.members [5] { t with saved := [] }).isNone) = true := by decide +kernel

theorem witness_Task_select : (
    let s := (puts 0x8000 [0x40, 0, 0, 2 ^ 16] (page 0xC0 1 1 mapped)).modCq 0 fun c =>
        { c with en := true, base := 0x8000, tail := 1, dies := 1, backlogged := true }
    selectQueue s == some 0 && s.cqOwner 0 == some 0 && (s.yieldedFor 0 0).isNone && headError s 0 0 == none &&
        (headRecord s 0).isSome) = true := by decide +kernel

theorem witness_Task_start : (
    let x : Selected := ⟨0x40 + 2 ^ 208, 0, none, [], 0, false⟩
    let s := { base with selected := [x] }
    let t := { s with thermal := true }
    (coresFor s x).isSome && nexts (exec (.taskStart 0) s) (fun t => t.selected.isEmpty && t.cores.any fun c => c.pc == 0x40 && c.ctx != 0) &&
        (coresFor t x).isNone && gives (exec (.taskStart 0) t) t) = true := by decide +kernel

theorem witness_Task_start_team : (
    let x : Selected := ⟨0x40 + 2 ^ 200 + 2 ^ 208 * 3, 0, none, [], 0, false⟩
    let s := { base with selected := [x] }
    (holdTeam 0 x s).selected.all (·.cluster.isSome) && (coresFor s x).any (·.length == 3) &&
        (holdTeam 0 x s).selected.all (fun y => (coresFor (holdTeam 0 x s) y).any (·.length == 3))) = true := by decide +kernel

/-- A record of kind 2: its dies are chosen, and its instances start one by one (R149). -/
theorem witness_Task_start_instances : (
    let x : Selected := ⟨0x40 + 2 ^ 201 + 2 ^ 208 * 2, 0, none, [], 0, false⟩
    let s := { base with selected := [x] }
    let y : Selected := { x with insts := [(0, 0), (1, 1)], ctx := s.nextCtx }
    recKind x.record == 2 && chooseDies s x == [(0, 0), (1, 1)] &&
        (match exec (.taskStart 0) s, exec (.taskStart 0) (newCtx x.record 2 { s with selected := [y] }) with
          | .next t, .next u => same t u && t.selected == [{ y with insts := [(1, 1)] }] &&
              t.cores.any (fun c => c.ctx == s.nextCtx && c.inst == 0 && c.teamsz == 1) &&
              nexts (exec (.taskStart 0) t) fun v => v.selected.isEmpty && v.cores.any fun c => c.ctx == s.nextCtx && c.inst == 1
          | _, _ => false)) = true := by decide +kernel

theorem witness_Task_join : (
    let x : JoinDec := ⟨0, 0x8000, false⟩
    let s := { puts 0x8000 [2, 0] mapped with joins := [x] }
    let r := tryJoin x s
    r.2 && memRead r.1.mem 0x8000 8 == leBytes 8 1 && gives (exec (.heldJoinDecrement 0) s) { r.1 with joins := [] }) = true := by decide +kernel

theorem witness_Task_join_held : (
    let x : JoinDec := ⟨0, 0x8000, false⟩
    let s := { puts 0x8000 [1, 0] (page 0xC0 1 1 mapped) with joins := [x] }
    let r := tryJoin x s
    !r.2 && gives (exec (.heldJoinDecrement 0) s) r.1) = true := by decide +kernel

theorem witness_Task_phase : (
    let s := (puts 0x8000 [0, 0, 0, 2 ^ 15 + 2 ^ 16 + 2 ^ 32 * 3] (page 0xC0 1 1 mapped)).modCq 0 fun c =>
        { c with en := true, det := true, base := 0x8000, tail := 1, dies := 1 }
    !canCommit base 0 && canCommit s 0 && (headPhases s 0).min? == some 3) = true := by decide +kernel

theorem witness_Task_abandon : (
    let x : CtxInfo := ⟨7, 0, 1, true, false⟩
    let s := { base with ctxs := [x] }
    nexts (exec (.phaseAbandon 0) s) fun t => t.ctxs.isEmpty && same t { s with ctxs := [] }) = true := by decide +kernel

theorem witness_Task_timeouts : (
    let s := core (fun c => { c with asleep := true }) base
    let t := core (fun c => { c with commit := .idle }) s
    gives (exec (.monWaitTimeout 0) s) (core (fun c => { c with timedOut := true }) s) &&
        gives (exec (.pmIdleTimeout 0) t) (core (fun c => { c with timedOut := true }) t)) = true := by decide +kernel

/-! ### Errors -/

theorem witness_Errors_replay : (
    let s := core (fun c => { c with ctx := 7, mq := [entryOf (.cmpa noTok 1 1 7) c 5] }) base
    gives (exec (.clapperMismatch 0 false) s) (logCore 0x44 s.core { s with core := s.core.count 6 }) &&
        !s.core.replayable &&
        gives (exec (.matrixReplay 0) s) (endContext 0x36 ((s.core.mq.head?.map (·.addr)).getD s.core.pc) 0 0 s) &&
        (let t := core (fun c => { c with marker := true, builtAcc := 15 }) s; t.core.replayable && gives (exec (.matrixReplay 0) t) (logCore 0x45 t.core { t with core := t.core.count 7 }))) = true := by decide +kernel

/-- A retained `acz` is executed again; what a retained `ld.ff` wrote is put back. -/
theorem witness_Errors_replay_entries : (
    let e := entryOf (.acz noTok 1) base.core 5
    let s := core (fun c => { c with ctx := 7, marker := true, builtAcc := 15, dirtyAcc := 2, retained := [e], performed := [⟨5, ⟨[], [(1, Acc.zero)], [], 0⟩, Eff.none, 4, 9⟩] }) base
    let start := logCore 0x45 s.core { s with core := (s.core.count 7).discard }
    s.core.replayable && s.core.replayed == [.run e 4 9] && s.core.replayBase == none &&
        (match perform e { start with core := { start.core with srS := 4, srN := 9 } } with
          | .ok (.done f, u) => gives (exec (.matrixReplay 0) s) { u with core :=
              { f.apply u.core with fflg := u.core.fflg, srS := start.core.srS, srN := start.core.srN } }
          | _ => false) &&
        (let k := entryOf (.ldFf noTok 1 2) base.core 6
         let f : Eff := ⟨[(2, ⟨9, 0, 0, 3⟩)], [], [], 1⟩
         let t := core (fun c => { c with retained := [k], performed := [⟨6, f, Eff.none, 0, 0⟩] }) s
         t.core.replayable && t.core.replayed == [.put f] && gives (exec (.matrixReplay 0) t)
           (let start := logCore 0x45 t.core { t with core := (t.core.count 7).discard }
            { start with core := { f.apply start.core with fflg := start.core.fflg } }))) = true := by decide +kernel

theorem witness_Errors_fence : (
    nexts (exec (.clapperMismatch 0 true) base)
        (fun t => t.core.act == .fenced && gives (exec (.coreReturnToService 0) t) (core (fun c => { c with act := .idle }) t))) = true := by decide +kernel

theorem witness_Errors_ecc : (
    gives (exec (.memoryEccError 0 0x1040 true) base) { base with poison := [0x41] } &&
        gives (exec (.memoryEccError 1 0x1040 true) base) { base with bankPoison := [0x41] } &&
        gives (exec (.memoryEccError 2 0x1040 true) base) { base with codePoison := [0x41] } &&
        gives (exec (.memoryEccError 0 0x1040 false) base) base &&
        gives (exec (.memoryEccError 1 0x180000 false) base) (base.putCore ((base.findCore 1).count 8))) = true := by decide +kernel

theorem witness_Errors_processor : (
    nexts (exec (.cpLockstepMismatch 2) base) fun t => (vget t.cps 2 CmdProc.reset).frozen && t.dintstat.getLsbD 0 &&
        nexts (exec (.cpRestartComplete 2) t) fun u => !(vget u.cps 2 CmdProc.reset).frozen && u.basoc == [.restart 2] &&
        (let v := { u with cps := vmod u.cps 2 fun x => { x with restarts := [0, 0] } }
         nexts (exec (.cpLockstepMismatch 2) v) fun w => (vget w.cps 2 CmdProc.reset).stuck &&
           nexts (exec (.cpRestartComplete 2) w) fun w => (vget w.cps 2 CmdProc.reset).frozen)) = true := by decide +kernel

theorem witness_Errors_thermal : (
    nexts (exec .throttleStepDown base) (fun t => t.clockStep == 1) &&
        nexts (exec .throttleStepUp { base with clockStep := 3 }) (fun t => t.clockStep == 2) && base.core.ctx == 0 &&
        nexts (exec .thermalStop base) fun t => t.thermal && t.dintstat.getLsbD 1 &&
        nexts (exec .thermalResume t) fun u => !u.thermal) = true := by decide +kernel

theorem witness_Errors_partition : (
    let s := (page 0xC0 1 1 base).modCq 0 fun c => { c with en := true, head := 2, tail := 5 }
    s.cores.all (fun x => x.ctx == 0) && s.saved.isEmpty && s.cqOwner 0 == some 0) = true := by decide +kernel

theorem witness_Errors_partition_task : (
    let s := core (fun c => { c with ctx := 7 }) base
    s.others.isEmpty && s.saved.isEmpty && s.core.ctx != 0 && s.core.partid == 0 &&
        nexts (exec (.partitionReset 0) s) fun t => t.core.ctx == 0) = true := by decide +kernel

/-! ### Engines -/

theorem witness_Engine_copy_claim : (
    let c : Chain := ⟨3, 5, 0x2000, 0, 0, 2, false, 0, 0, 0, 0, 0⟩
    let f (s : State) : State := s.modChan 3 fun y => { y with queue := [c] }
    let s := f mapped
    (match claimRecord c c.head s with | some (run, t) => gives (exec (.copyClaim 0 3) s) (t.modChan 3 fun y => { y with queue := [], run := some run }) | none => false)
        && (let u := f base; (claimRecord c c.head u).isNone && gives (exec (.copyClaim 0 3) u) (u.modChan 3 fun y => { y with queue := [], cpdone := 5 }))) = true := by decide +kernel

theorem witness_Engine_copy_piece : (
    let r := { copyRun with snap := BitVec.ofNat 512 (dws [0, 2 ^ 32 * 64, 0x3000, 0x4000]) }
    let s := (put8 0x3000 77 mapped).modChan 3 fun y => { y with run := some r }
    r.pos < r.total && gives (exec (.copyPiece 0 3) s)
        ((doPiece r s).2.modChan 3 fun y => { y with run := some (doPiece r s).1 }) &&
        nexts (exec (.copyPiece 0 3) s) fun t => memRead t.mem 0x4000 8 == leBytes 8 77) = true := by decide +kernel

/-- A record that is done retires, unless a store of its channel is on its way (R242). -/
theorem witness_Engine_copy_retire : (
    let r := { copyRun with pos := 64, snap := BitVec.ofNat 512 (dws [0, 2 ^ 32 * 64, 0x3000, 0x4000]) }
    let s := mapped.modChan 3 fun y => { y with run := some r }
    let t := { s with hostStores := [sentStore 0 r.chain.unit 0 0x1000 2] }
    r.total ≤ r.pos && !s.engineFar r.chain.unit 2 && gives (exec (.copyRetire 0 3) s) (retire' 0 3 r s) &&
        t.engineFar r.chain.unit 2 && gives (exec (.copyRetire 0 3) t) t &&
        nexts (exec (.copyRetire 0 3) s) (fun t => (t.chan 3).run.isNone && (t.chan 3).cpdone == 5) &&
        same (finishRecord 3 s) (s.modChan 3 fun y => { y with run := none, cpdone := 5 })) = true := by decide +kernel

/-- A chain whose record at 0x2000 is free, and the record of 64 bytes that it claims: own set (R176). -/
theorem witness_Engine_copy_own : (
    let c : Chain := ⟨3, 5, 0x2000, 0, 0, 2, false, 0, 0, 0, 0, 0⟩
    let d := dws [0, 2 ^ 32 * 64, 0x3000, 0x4000]
    let f (s : State) : State := s.modChan 3 fun y => { y with queue := [c] }
    let s := f (puts 0x2000 [0, 2 ^ 32 * 64, 0x3000, 0x4000] mapped)
    mappedB s 0 .r 0x2000 64 0x2000 && mappedB s 0 .w 0x2000 64 0x2000 && s.regions.isEmpty &&
        leValue (memRead s.mem 0x2000 64) == d && nexts (exec (.copyClaim 0 3) s) (fun t => memRead t.mem 0x2008 4 == [0, 0, 0, 0x80] &&
          (match (t.chan 3).run with
            | some q => q.snap.toNat == d && q.pos == 0 && q.recAddr == 0x2000 && q.last == 5 && q.outcome == none
            | none => false)) &&
        (let u := f base; (u.walk 0 0x2000).isNone && nexts (exec (.copyClaim 0 3) u) fun t => (t.chan 3).cpdone == 5)) = true := by
  decide +kernel

/-- A record under way, and what one piece of it does. -/
def copying (r : CopyRun) (s : State) : State := s.modChan 3 fun y => { y with run := some r }
def recordOf (l : List Nat) (pos : Nat) : CopyRun := { copyRun with snap := BitVec.ofNat 512 (dws l), pos := pos }
def moved (r : CopyRun) (s : State) (n : Nat) (p : State → Bool) : Bool :=
  r.pos < r.total && !s.engineFar r.chain.unit r.chain.scope && s.regions.isEmpty &&
  nexts (exec (.copyPiece 0 3) (copying r s)) fun t =>
    (match (t.chan 3).run with
      | some q => q.pos == r.pos + n && q.owed == 0 && q.outcome == none
      | none => false) && p t

/-- The second row of two, of 8 bytes: of a strided record, and of a gather whose index is 3 (R173). -/
theorem witness_Engine_copy_rows : (
    let s := puts 0x3010 [5, 6] (put8 0x4800 (2 ^ 32 * 3 + 1) mapped)
    let a := recordOf [0, 2 ^ 32 * 8 + 1, 0x3000, 0x4000, 0, 2, 2 ^ 32 * 32 + 16] 8
    let b := recordOf [0, 2 ^ 32 * 8 + 2, 0x3000, 0x4000, 0, 2 ^ 32 * 8 + 2, 0x4800] 8
    mappedB s 0 .r 0x3010 8 0x3010 && mappedB s 0 .w 0x4020 8 0x4020 && mappedB s 0 .r 0x4804 4 0x4804 && mappedB s 0 .r 0x3018 8 0x3018 &&
        (a.sources s).all (fun y => 0x4028 ≤ y || y + 8 ≤ 0x4020) && (b.sources s).all (fun y => 0x4010 ≤ y || y + 8 ≤ 0x4008) &&
        moved a s 8 (fun t => memRead t.mem 0x4020 8 == leBytes 8 5) &&
        moved b s 8 (fun t => memRead t.mem 0x4008 8 == leBytes 8 6)) = true := by decide +kernel

/-- Bytes to a bank with a barrier at 0x40 that one thread has arrived at and 8 bytes complete: of a linear record and of a
multicast to core 0 (R128, R130). -/
theorem witness_Engine_copy_banks : (
    let s := putBank 0x40 (leBytes 8 (barWord false false 0 1 8).toNat ++ leBytes 8 1) (put8 0x3000 77 mapped)
    let a := recordOf [0, 2 ^ 32 * 8 + 0x50, 0x3000, 0x1000, 0x40] 0
    let b := recordOf [0, 2 ^ 32 * 8 + 3, 0x3000, 0x1000 + 2 ^ 32 * 0x40, 1] 0
    localOk s a.chain.who 0x1000 8 == some 0x1000 && localOk s a.chain.who 0x40 16 == some 0x40 && mappedB s 0 .r 0x3000 8 0x3000 &&
        [a, b].all fun r => moved r s 8 fun t => memRead t.bank 0x1000 8 == leBytes 8 77 &&
          memRead t.bank 0x40 8 == leBytes 8 (barWord true false 0 0 0).toNat) = true := by decide +kernel

/-- A piece whose stores are not performed yet signals its barrier once they are (R242). -/
theorem witness_Engine_copy_owed : (
    let s := putBank 0x40 (leBytes 8 (barWord false false 0 1 8).toNat ++ leBytes 8 1) mapped
    let r := { recordOf [0, 2 ^ 32 * 8 + 0x40, 0x3000, 0x4000, 0x40] 8 with owed := 8 }
    let t := copying r { s with hostStores := [sentStore 0 r.chain.unit 0 0x1000 2] }
    t.engineFar r.chain.unit 2 && gives (exec (.copyPiece 0 3) t) t && nexts (exec (.copyPiece 0 3) (copying r s)) fun u =>
      memRead u.bank 0x40 8 == leBytes 8 (barWord true false 0 0 0).toNat) = true := by decide +kernel

/-- Retirements: the last record of a chain, one whose successor cannot be claimed, one whose successor can, and one with an
event (R174-R177). -/
theorem witness_Engine_copy_ends : (
    let rec0 (next ctl : Nat) : CopyRun := { recordOf [next, 2 ^ 32 * 64 + ctl, 0x3000, 0x4000] 64 with recAddr := 0x2000 }
    let s := puts 0x2040 [0, 2 ^ 32 * 8, 0x3000, 0x4000] (page 0x40 2 1 mapped)
    let ends (r : CopyRun) (p : State → Bool) : Bool := !s.engineFar r.chain.unit r.chain.scope &&
      nexts (exec (.copyRetire 0 3) (copying r s)) p
    mappedB s 0 .w 0x2000 64 0x2000 && mappedB s 0 .r 0x2040 64 0x2040 && mappedB s 0 .w 0x2040 64 0x2040 && s.posts.isEmpty &&
        evQuota s 0 0 != 0 && evRoom s 0 0 && (s.walk 0 (2 ^ 40)).isNone &&
        ends (rec0 0 0) (fun t => memRead t.mem 0x2038 8 == [64, 0, 0, 0, 0, 0, 0, 1] && (t.chan 3).run.isNone && (t.chan 3).cpdone == 5) &&
        ends (rec0 (2 ^ 40) 0) (fun t => memRead t.mem 0x2038 8 == [64, 0, 0, 0, 0, 0, 0, 10] && (t.chan 3).run.isNone) &&
        ends (rec0 0x2040 0) (fun t => memRead t.mem 0x2048 4 == [0, 0, 0, 0x80] && (t.chan 3).run.any (·.recAddr == 0x2040)) &&
        ends (rec0 0 (2 ^ 30)) (fun t => (t.eventsOf 0).length == (s.eventsOf 0).length + 1 && (t.chan 3).run.isNone)) = true := by
  decide +kernel

theorem witness_Engine_post : (
    let p : PostWait := ⟨0, ⟨0, 9, 8⟩, none⟩
    let s := { page 0x40 2 1 base with posts := [p] }
    evQuota s 0 0 != 0 &&
        gives (exec (.engineEventPost 0) s) (if evRoom s 0 0 then postEvent 0 p.ev { s with posts := [] } else s)) = true := by decide +kernel

theorem witness_Engine_tumbler : (
    let p : Pair := ⟨1, 5, 0, 0, 1⟩
    let s := rgns (fun r => { r with transit := [p] }) rgnState
    nexts (exec (.tumblerPairArrival 0 0) s)
        (fun t => t.regions.map (fun r => (r.held, r.transit, r.waiting)) == [([p], [], [])])) = true := by decide +kernel

/-- An application that a drain waits for adds the held pair to its element, and none happens that nothing waits for. -/
theorem witness_Engine_application : (
    let y : Pair := ⟨1, 5, 0, 0, 1⟩
    let s := core (fun c => { c with commit := .updDrain 0 }) (put 0x6004 (leBytes 4 7) (rgns (fun r => { r with held := [y], waiting := [{ y with val := 6, seq := 1 }] }) rgnState))
    memWf s.mem && applicationWanted 0 s && s.regions.all (fun r => regionOk r && r.waiting.length ≤ r.quota) &&
        !applicationWanted 0 rgnState && gives (exec (.tumblerApplication 0) rgnState) rgnState &&
        nexts (exec (.tumblerApplication 0) s) fun t => memRead t.mem 0x6004 4 == leBytes 4 12 &&
          t.regions.all fun r => r.held.length == 1 && r.waiting.isEmpty && r.runs.isEmpty && fld r.status 16 32 == 1) = true := by decide +kernel

theorem witness_Engine_coarse : (
    let c := cmd (samplerUnit 0) 0 0x2000 0 0 (smpDesc 1) 0
    let s := sampling c (put 0x4000 (leBytes 4 0x3F800000) mapped)
    !waitingPost 4 0 (· == 0) s &&
        (match coarseRow (samplingOf c.snap) c.who 0 s with
          | some (t, _) => !t.engineFar c.unit c.scope && gives (exec (.samplerCoarsePass 0) s) { t with sampler := vmod t.sampler 0 (·.drop 1) }
          | none => false)) = true := by decide +kernel

/-- A row's block is written: the event of the row follows (R368), and the next row. -/
theorem witness_Engine_coarse_event : (
    let c := { cmd (samplerUnit 0) 0 0x2000 1 0 (smpDesc 2) 1 with stage := 1 }
    let s := sampling c mapped
    let t := { s with hostStores := [sentStore 0 c.unit 0 0x1000 2] }
    gives (exec (.samplerCoarsePass 0) t) t && gives (exec (.samplerCoarsePass 0) s)
        (enginePost 0 (type4 0 2 0 0x2000 0) none (sampling { c with stage := 2 } s))) = true := by decide +kernel

theorem witness_Engine_search_invalid : (
    let c := cmd (samplerUnit 0) 1 0x2000 0 24 (smpDesc 1) 0
    let s := sampling c mapped
    let d := samplingOf c.snap
    d.rows == 1 && !((readBlock d c.who 0 s).any (·.1.valid)) && !s.engineFar c.unit c.scope &&
        (readBlock d c.who 0 s).all (fun y => same y.2 s) && (firstInvalid d c.who d.rows 0 s).1 == some 0 &&
        same (firstInvalid d c.who d.rows 0 s).2 s &&
        gives (exec (.samplerThresholdSearch 0) s) (tellCore c true 0 { s with sampler := vmod s.sampler 0 fun _ => [] })) = true := by decide +kernel

theorem witness_Engine_search : (
    let c := cmd (samplerUnit 0) 1 0x2000 0 24 (smpDesc 1) 0
    let s := sampling c (puts 0x5000 [0, 0, 0, 0, 2 ^ 49, 2 ^ 32] mapped)
    let d := samplingOf c.snap
    (readBlock d c.who 0 s).any (fun y => y.1.valid && same y.2 s) && (firstInvalid d c.who d.rows 0 s).1.isNone &&
        (let z := searchRow d 24 c.who s 0; gives (exec (.samplerThresholdSearch 0) s) (tellCore c false (wrapN z.2.toNat) { z.1 with sampler := vmod z.1.sampler 0 fun _ => [] }))) = true := by decide +kernel

/-- A result is told once the search's stores are performed (R242). -/
theorem witness_Engine_search_told : (
    let c := { cmd (samplerUnit 0) 1 0x2000 0 24 (smpDesc 1) 9 with stage := 1 }
    let s := sampling c mapped
    let t := { s with hostStores := [sentStore 0 c.unit 0 0x1000 2] }
    gives (exec (.samplerThresholdSearch 0) t) t && gives (exec (.samplerThresholdSearch 0) s)
        (tellCore c false 9 { s with sampler := vmod s.sampler 0 fun _ => [] })) = true := by decide +kernel

theorem witness_Engine_draw_slow : (
    let c := cmd (samplerUnit 0) 2 0x2000 0 0 (smpDesc 1) 0
    let s := sampling c (puts 0x5000 [0, 0, 0, 0, 2 ^ 49 + 2 ^ 48, 2 ^ 32] mapped)
    let d := samplingOf c.snap
    (readBlock d c.who 0 s).any (fun y => y.1.valid && y.1.slow && same y.2 s) &&
        gives (exec (.samplerDrawExecution 0) s) (tellCore c false (wrapI (-1)) { s with sampler := vmod s.sampler 0 fun _ => [] })) = true := by decide +kernel

theorem witness_Engine_draw : (
    let c := cmd (samplerUnit 0) 2 0x2000 0 0 (smpDesc 1) 0
    let s := sampling c (puts 0x5000 [0, 0, 0, 0, 2 ^ 49, 2 ^ 32, 0, 0, 7] mapped)
    let d := samplingOf c.snap
    (match readBlock d c.who 0 s with
      | some (b, u) => b.valid && !b.slow && (match drawRow d c.who 0 0 false b u with
        | some (tok, t) => tok == 7 && gives (exec (.samplerDrawExecution 0) s) (tellCore c false (wrapN tok) { t with sampler := vmod t.sampler 0 fun _ => [] })
        | none => false)
      | none => false)) = true := by decide +kernel

theorem witness_Engine_check : (
    let k := cmd (acceptUnit 0) 0 0x3000 0 1 (dws [0x2000, 0x6000, 0x7000, 1]) (smpDesc 2)
    let s := { puts 0x5840 [0, 0, 0, 0, 2 ^ 49, 2 ^ 32, 0, 0, 9] (puts 0x5000 [0, 0, 0, 0, 2 ^ 49, 2 ^ 32, 0, 0, 7] (put 0x6000 (leBytes 4 7) mapped)) with accept := vmod mapped.accept 0 fun _ => [k] }
    let at' (l : List Command) (t : State) : State := { t with accept := vmod t.accept 0 fun _ => l }
    (match checkRows k (checkOf k.snap) (samplingOf k.snap2) [7] 2 0 s with
      | (false, n, tok, u) => n == 1 && tok == 9 && (match engWrite k.who 0x7000 (([7] ++ [tok]).flatMap (leBytes 4)) u with
        | some v =>
          let w := at' [{ k with stage := 1, snap2 := BitVec.ofNat 512 2 }] v
          let far (x : State) : State := { x with hostStores := [sentStore 0 k.unit 0 0x1000 2] }
          gives (exec (.specCheckExecution 0) (far s)) (far s) && (match engWrite k.who 0x3020 (leBytes 8 (2 ^ 63 + 2 ^ 32 + 1)) w with
            | some y => gives (exec (.specCheckExecution 0) s) (at' [] y)
            | none => false)
        | none => false)
      | _ => false)) = true := by decide +kernel

/-- The expert loader: expert 1 of two, its slots at 0x2040, its bytes at 0x5008. -/
def expertCmd (stage : Nat) : Command := { cmd (expertUnit 0) 0 0x2000 0 1 (dws [1 + 2 ^ 16 * 2, 0x4000, 2 ^ 32 * 8, 0x5000]) 0 with stage := stage }
def expertState (stage : Nat) (s : State) : State :=
  { puts 0x5008 [77] (puts 0x2000 [1 + 2 ^ 16 * 2, 0x4000, 2 ^ 32 * 8, 0x5000] s) with experts := vmod s.experts 0 fun _ => [expertCmd stage] }

theorem witness_Engine_expert : (
    let k := expertCmd 0
    let s := expertState 0 mapped
    (match ecrState k s with
      | some (sl, cs, u) => victim sl cs == some 0 && (match engWrite k.who 0x2040 (leBytes 8 (slotWord 1 1)) u with
        | some t => gives (exec (.expertLoadClaim 0) s) { t with experts := vmod t.experts 0 fun _ => [expertCmd 1] }
        | none => false)
      | none => false) &&
    (let u := expertState 0 base
     (ecrState k u).isNone && nexts (exec (.expertLoadClaim 0) u) fun t => (vget t.experts 0 []).isEmpty && t.fresh == 1)) = true := by decide +kernel

theorem witness_Engine_expert_loaded : (
    let k := expertCmd 1
    let s := expertState 1 mapped
    fld k.snap 160 32 == 8 && fld k.snap 64 57 == 0x4000 &&
        (match engRead k.who (fld k.snap 192 57 + 8) 8 s with
          | some (bs, t) => (match engWrite k.who 0x4000 bs t with
            | some u => (match engWrite k.who 0x2040 (leBytes 8 (slotWord 2 1)) u with
              | some y => gives (exec (.expertLoadComplete 0) s) { y with experts := vmod y.experts 0 (·.drop 1) }
              | none => false)
            | none => false)
          | none => false)) = true := by decide +kernel

/-- The copy finds no translation: the slot is given up, and the event says so (R352). -/
theorem witness_Engine_expert_failed : (
    let k := { expertCmd 1 with snap := BitVec.ofNat 512 (dws [1 + 2 ^ 16 * 2, 0x4000, 2 ^ 32 * 8, 2 ^ 40]) }
    let s := { expertState 1 mapped with experts := vmod mapped.experts 0 fun _ => [k] }
    (engRead k.who (2 ^ 40 + 8) 8 s).isNone && nexts (exec (.expertLoadComplete 0) s) fun t => memRead t.mem 0x2040 8 == leBytes 8 0 &&
      (vget t.experts 0 []).isEmpty) = true := by decide +kernel

/-- A prefetch acquires the version 6 of the table record at 0x2000, then releases it; the slot of another version is waited for. -/
theorem witness_Engine_prefetch : (
    let k := cmd (prefetchUnit 0) 0 0x2000 0x3000 0 0 0
    let at' (l : List Command) (t : State) : State := { t with prefetch := vmod t.prefetch 0 fun _ => l }
    let s := at' [k] (puts 0x2000 [6, 0, 0x4000, 6] mapped)
    let w := at' [k] (puts 0x2000 [6, 0, 0x4000, 5] mapped)
    gives (exec (.embeddingPrefetch 0) w) w && (engRead k.who 0x2000 4 (at' [k] base)).isNone &&
      (match engWrite k.who 0x2018 (leBytes 8 (6 + 2 ^ 32)) s with
        | some t =>
          let got := { k with x := 0x2018, stage := 0x4001 }
          gives (exec (.embeddingPrefetch 0) s) (at' [got] t) &&
            (match engWrite k.who 0x2018 (leBytes 8 6) (fillRows got 0x4000 (at' [got] t)) with
              | some u => gives (exec (.embeddingPrefetch 0) (at' [got] t)) (at' [] u)
              | none => false)
        | none => false)) = true := by decide +kernel

/-- The status of a submission that is not performed yet is waited for (R242, R380). -/
theorem witness_Engine_text_away : ([false, true].all fun dtk =>
    let k := cmd (textUnit dtk 1) 0 0x2000 0 0 0 0
    let s := { mapped.modText dtk 1 fun _ => ⟨[k], none⟩ with hostStores := [sentStore 0 0 0 (0x2000 + BitVec.ofNat 52 (statusOff dtk)) 2] }
    statusAway dtk k s && gives (exec (if dtk then .detokeniserStart 1 else .tokeniserStart 1) s) s) = true := by decide +kernel

/-- The vocabulary record of `textCmd` stands at 0x3000, its text at 0x6000. -/
def textCmd (dtk : Bool) (stage : Nat) : Command :=
  { cmd (textUnit dtk 1) 0 0x2000 0 0x3018 (dws [0x3000, 0x6000, 1, 0x7000, 4]) 0x8000 with stage := stage }

theorem witness_Engine_text_start : (
    let f (d : Bool) : State := (puts 0x2000 [0x3000, 0x6000, 0, 0x7000, 4] (puts 0x3000 [0, 0, 0x8000] mapped)).modText d
        1 fun _ => ⟨[cmd (textUnit d 1) 0 0x2000 0 0 0 0], none⟩
    [false, true].all fun dtk =>
      let s := f dtk
      let k := cmd (textUnit dtk 1) 0 0x2000 0 0 0 0
      !waitingPost 3 (8 * dtk.toNat + 1) (fun _ => true) s && (physPieces s 0 .w 0x2000 64).isSome &&
      (match engRead k.who 0x2000 64 s with
        | some (bs, y) => (match acquireVersion k.who (leNat bs % 2 ^ 57) y with
          | (.taken a b, t) => !statusAway dtk k s && (match readVocab k.who b t with
            | (.ok _, z) => gives (exec (if dtk then .detokeniserStart 1 else .tokeniserStart 1) s) (z.modText dtk 1 fun _ =>
                ⟨[], some { k with snap := leVec 512 bs, x := wrapN a, snap2 := BitVec.ofNat 512 b, stage := 1 }⟩)
            | _ => false)
          | _ => false)
        | none => false)) = true := by decide +kernel

theorem witness_Engine_text_complete : (
    let f (d : Bool) : State := (puts 0x3000 [0, 0, 0x8000, 2 ^ 32] (puts 0x6000 [65] mapped)).modText d 1 fun _ => ⟨[],
        some (textCmd d 1)⟩
    [false, true].all fun dtk =>
      let k := textCmd dtk 1
      let s := f dtk
      (match readVocab k.who k.snap2.toNat s with
        | (.ok v, s1) =>
          let r := if dtk then detokenise k v s1 else tokenise k v s1
          let w (t : State) (off n : Nat) : State := (engWrite k.who (0x2000 + off) (leBytes 8 n) t).getD t
          let st := statusOf r.1.code r.1.nrep r.1.n
          let told := { textCmd dtk 4 with snap := BitVec.ofNat 512 (st + r.1.hold * 2 ^ 64 + r.1.code * 2 ^ 128) }
          let u := r.2.modText dtk 1 fun y => { y with run := some told }
          let z := releaseVersion k.who k.x.toNat (if dtk then w (w u 48 st) 40 r.1.hold else w u 40 st)
          let o := z.modText dtk 1 fun y => { y with run := none }
          let i := if dtk then Instr.detokeniserComplete 1 else .tokeniserComplete 1
          r.1.n == 1 && gives (exec i s) (if r.1.code = 0 then o else textEvent dtk 1 k r.1.code st o)
        | _ => false)) = true := by decide +kernel

/-! Accesses that are not performed yet. -/

/-- Beside `mapped`, addresses from 2^36 on are in the pool; `far a` is one. -/
def pooled : State := { put8 0x104008 (2 ^ 50 + 0x3D) mapped with pools := [⟨2 ^ 50, 256, 15, false⟩] }
def far (a : Nat) : Nat := 2 ^ 36 + a
def farPut (a : Nat) (l : List Nat) (s : State) : State := puts (2 ^ 50 + a) l s

theorem witness_Far_text : (
    let k := { textCmd false 1 with scope := 5, snap := BitVec.ofNat 512 (dws [0x3000, 0x6000, 1, far 0x7000, 4]) }
    let s := (puts 0x3000 [0, 0, 0x8000, 2 ^ 32] (puts 0x6000 [65] pooled)).modText false 1 fun _ => ⟨[], some k⟩
    (match readVocab k.who 0x8000 s with
      | (.ok v, s1) =>
        let r := tokenise k v s1
        let told := { k with stage := 4, snap := BitVec.ofNat 512 (statusOf r.1.code r.1.nrep r.1.n + r.1.hold * 2 ^ 64 + r.1.code * 2 ^ 128) }
        let u := r.2.modText false 1 fun y => { y with run := some told }
        !s.engineFar k.unit 5 && u.engineFar k.unit 5 && gives (exec (.tokeniserComplete 1) s) u
      | _ => false)) = true := by decide +kernel

theorem witness_Far_check : (
    let k := { cmd (acceptUnit 0) 0 0x3000 0 1 (dws [0x2000, 0x6000, far 0x7000, 1]) (smpDesc 2) with scope := 5 }
    let s := { puts 0x5840 [0, 0, 0, 0, 2 ^ 49, 2 ^ 32, 0, 0, 9] (puts 0x5000 [0, 0, 0, 0, 2 ^ 49, 2 ^ 32, 0, 0, 7] (put 0x6000 (leBytes 4 7) pooled)) with accept := vmod pooled.accept 0 fun _ => [k] }
    nexts (exec (.specCheckExecution 0) s) fun t => t.engineFar k.unit 5 &&
      (vget t.accept 0 []) == [{ k with stage := 1, snap2 := BitVec.ofNat 512 2 }]) = true := by decide +kernel

theorem witness_Far_expert : (
    let k := { expertCmd 1 with scope := 5, snap := BitVec.ofNat 512 (dws [1 + 2 ^ 16 * 2, far 0x4000, 2 ^ 32 * 8, 0x5000]) }
    let s := { expertState 1 pooled with experts := vmod pooled.experts 0 fun _ => [k] }
    nexts (exec (.expertLoadComplete 0) s) fun t => t.engineFar k.unit 5 && (vget t.experts 0 []) == [{ k with stage := 2 }]) = true := by decide +kernel

theorem witness_Far_coarse : (
    let c := { cmd (samplerUnit 0) 0 0x2000 0 0 (dws [0x4000, 2 ^ 8 + 2 ^ 32, 2 ^ 34, far 0x5000, 0x3F800000 + 2 ^ 32]) 0 with scope := 5 }
    let s := sampling c (put 0x4000 (leBytes 4 0x3F800000) pooled)
    nexts (exec (.samplerCoarsePass 0) s) fun t => t.engineFar c.unit 5 && (vget t.sampler 0 []).map (·.stage) == [1]) = true := by decide +kernel

theorem witness_Far_combine : (
    let s := regs [(2, 0x2000)] (put 0x5000 [0x80, 0x3F] (put 0x4000 [0, 0x3F] (puts 0x2000 [0x4000, 0x5000, far 0x6000, 64 * 2
        ^ 32 + 2 * 2 ^ 16, 1 + 2 ^ 8 + 2 ^ 16] pooled)))
    nexts (exec (.moeCmb 2 0 5) s) fun t => t.core.pc == 0 && t.core.cmdDone == some (false, 0) && t.poolStores.length == 1 &&
      gives (exec (.moeCmb 2 0 5) { t with poolStores := [] }) ({ t with poolStores := [] }.performed.did 4 { t with poolStores := [] }.performed.core)) = true := by decide +kernel

theorem witness_Far_submit : (
    let s := regs [(2, far 0x2000), (3, 1)] (farPut 0x2000 [0x4000, 0x5000, 4] (page 0x6C 1 2 pooled))
    nexts (exec (.tokSub 2 3 5) s) fun t => t.core.pc == 4 && t.poolStores.length == 1 &&
      (match (vget t.tok 1 TextEng.reset).subs with
        | [k] => statusAway false k t && gives (exec (.tokeniserStart 1) t) t
        | _ => false)) = true := by decide +kernel

theorem witness_Far_check_word : (
    let s := puts 0x2000 [0x4000, 2 ^ 9 + 2 ^ 32, 2 ^ 34, 0x5000, 0x3F800000 + 2 ^ 32] pooled
    let s := regs [(2, far 0x3000)] (farPut 0x3000 [0x2000, 0x6000, 0x7000, 1] s)
    nexts (exec (.specChk 1 2 0 5) s) fun t => t.core.pc == 0 && t.core.cmdDone == some (false, 0) &&
      nexts (exec (.specChk 1 2 0 5) { t with poolStores := [] }) fun u => u.core.pc == 4 && u.core.rg 1 == 1) = true := by decide +kernel

/-! ### Links -/

theorem witness_Links_frame : (
    let msg : List Byte := [1, 0, 0, 0, 8, 0, 0, 0] ++ List.replicate 24 0 ++ List.replicate 8 7
    let s := { mapped.modRq 0 (fun r => { r with en := true, base := 0x8000, lcap := 1, ports := 1 }) with conns := [⟨0, 5, 0, 0⟩] }
    let u := s.modEth 0 fun y => { y with received := y.received + 1 }
    let r := u.rq 0
    let va := r.base.toNat + 4096 * (r.tail.toNat % 2 ^ 32 % 2 ^ (r.lcap.toNat % 16))
    let unit := arrivalUnit + s.nextNum
    s.connOf 0 5 == some 0 && requestOk msg && (r.tail - r.head).toNat < 2 ^ (r.lcap.toNat % 16) && r.ports.getLsbD 0 &&
        (match unitWrite { Who.unit r.part with agent := unit } { u with nextNum := s.nextNum + 1 } va (putBytes msg 16 (leBytes 8 5)) with
          | some t => !t.engineFar unit 3 &&
              gives (exec (.frameReceive 0 5 msg) s) (wakeRing 0 (t.modRq 0 fun r => { r with tail := r.tail + 1 }))
          | none => false)) = true := by decide +kernel

/-- A ring in the host's memory: the message is counted once its stores are performed (R242, R378). -/
theorem witness_Links_arrival : (
    let msg : List Byte := [1, 0, 0, 0, 8, 0, 0, 0] ++ List.replicate 24 0 ++ List.replicate 8 7
    let s := put8 0x104008 (2 ^ 40 + 0x3D) mapped
    let s := { s.modRq 0 (fun r => { r with en := true, base := 2 ^ 36, lcap := 1, ports := 1 }) with conns := [⟨0, 5, 0, 0⟩] }
    isHost (2 ^ 40) && nexts (exec (.frameReceive 0 5 msg) s) fun t => (t.rq 0).tail == 0 &&
      t.arrivals == [⟨0, arrivalUnit + s.nextNum⟩] && t.engineFar (arrivalUnit + s.nextNum) 3 && same (settleArrivals t) t &&
      (let d := { t with hostStores := [] }
       same (settleArrivals d) (wakeRing 0 ({ d with arrivals := [] }.modRq 0 fun y => { y with tail := y.tail + 1 })))) = true := by
  decide +kernel

theorem witness_Links_frame_bad : (
    let s := { base with conns := [⟨0, 5, 0, 0⟩] }
    let u := s.modEth 0 fun y => { y with received := y.received + 1 }
    !requestOk [] && gives (exec (.frameReceive 0 5 []) s)
        ((u.modRq 0 fun r => { r with bad := r.bad + 1 }).modEth 0 fun y => { y with malformed := y.malformed + 1 })) = true := by decide +kernel

/-- A ring that is not enabled, one that is full, one that takes no frames of the port, and one without a translation. -/
theorem witness_Links_frame_off : (
    let msg : List Byte := [1, 0, 0, 0, 8, 0, 0, 0] ++ List.replicate 24 0 ++ List.replicate 8 7
    let on (f : ReqRing → ReqRing) (s : State) : State :=
      { s.modRq 0 (fun r => f { r with en := true, base := 0x8000, lcap := 1, ports := 1 }) with conns := [⟨0, 5, 0, 0⟩] }
    (base.walk 0 0x8000).isNone && [on (fun r => { r with en := false }) mapped, on (fun r => { r with tail := 2 }) mapped,
      on (fun r => { r with ports := 2 }) mapped, on id base].all fun s =>
        let u := s.modEth 0 fun y => { y with received := y.received + 1 }
        gives (exec (.frameReceive 0 5 msg) s)
          (raiseInt (u.rq 0).part 2 ((u.modRq 0 fun r => { r with full := r.full + 1 }).modEth 0 fun y => { y with refused := y.refused + 1 }))) = true := by
  decide +kernel

theorem witness_Links_wake : (
    let s := base.modRq 3 fun r => { r with wfail := 2 }
    gives (exec (.wakeRetry 3) s) (wakeRing 3 s)) = true := by decide +kernel

theorem witness_Links_accept : (
    let s := base.modRq 3 fun r => { r with en := true, svc := BitVec.ofNat 64 (2 ^ 63 + 9), ports := 1 }
    gives (exec (.connectionAccept 0 7 9) s) { s with conns := [⟨0, 7, 9, 3⟩] } &&
        gives (exec (.connectionAccept 0 7 9) base) base &&
        gives (exec (.connectionClose 0 7) { s with conns := [⟨0, 7, 9, 3⟩] }) s) = true := by decide +kernel

theorem witness_Links_ethernet : (
    gives (exec (.ethernetLinkDown 2) base)
        (raiseDint 2 (base.modEth 2 fun y => { y with up := false, downs := y.downs + 1 })) &&
        (let s := base.modEth 2 fun y => { y with up := false }; gives (exec (.ethernetLinkUp 2) s) base)) = true := by decide +kernel

theorem witness_Links_reply : (
    let r : Reply := ⟨1, 0, 0, 0x2000, 24, 3⟩
    let s := { puts 0x2000 [2, 0, 5] mapped with handed := [r], conns := [⟨0, 5, 0, 0⟩] }
    let u := { s with handed := [] }
    (match engRead r.who 0x2000 24 u with | some (bs, t) => bytesAt bs 16 8 == 5 && gives (exec (.replyTransmit 0) s) { (t.modEth 0 fun y => { y with sent := y.sent + 1 }) with wire := [(0, bs)] } | none => false)
        && (let v := { s with conns := [] }; match engRead r.who 0x2000 24 { v with handed := [] } with | some (_, t) => gives (exec (.replyTransmit 0) v) (t.modEth 0 fun y => { y with discarded := y.discarded + 1 }) | none => false)
        && (let v := s.modEth 0 fun y => { y with up := false }; match engRead r.who 0x2000 24 { v with handed := [] } with | some (_, t) => gives (exec (.replyTransmit 0) v) (t.modEth 0 fun y => { y with discarded := y.discarded + 1 }) | none => false)
        && (let v := puts 0x2000 [2, 0, 2 ^ 35 + 5] s; match engRead r.who 0x2000 24 { v with handed := [] } with | some (_, t) => gives (exec (.replyTransmit 0) v) t | none => false)) = true := by decide +kernel

/-- A store of another device for this one's memory: newer than what was applied from that device, and older; its acknowledgement
goes at once, or waits for a link that is paused (R238). -/
theorem witness_Links_remote : (
    let f (y : State) : State := y.modLink true Link.drain
    let old := { base with applied := kvPut (3 * 2 ^ 52 + 0x40) 9 [] }
    let held := base.modLink false fun m => { m with paused := true }
    let i := Instr.remoteStoreApply ⟨3, 0, true⟩ 0x1000 7 [1, 2]
    let new (y : State) : State := { physWrite 0x1000 [1, 2] none (f y) with applied := kvPut (3 * 2 ^ 52 + 0x40) 7 y.applied }
    base.domain == 0 && (isHbm 0x1000 || isLp6 0x1000) && ((f base).link false).ready && !((f held).link false).ready &&
        gives (exec i base) { (new base).modLink false Link.send with acks := [⟨3, 0x1000, 7, false, true⟩] } &&
        gives (exec i old) { (f old).modLink false Link.send with acks := [⟨3, 0x1000, 7, false, true⟩] } &&
        gives (exec i held) { new held with acks := [⟨3, 0x1000, 7, false, false⟩] }) = true := by decide +kernel

/-- A store for a third device goes on, unapplied, at once or when its link can take it (R238, R399). -/
theorem witness_Links_relayed : (
    let i := Instr.remoteStoreApply ⟨3, 5, true⟩ 0x1000 7 [1, 2]
    let u := base.modLink true Link.drain
    let held := base.modLink false fun m => { m with paused := true }
    (u.link false).ready && gives (exec i base) { u.modLink false Link.send with relayed := [⟨3, 5, 0x1000, 7, [1, 2], false, true⟩] } &&
        gives (exec i held) { held.modLink true Link.drain with relayed := [⟨3, 5, 0x1000, 7, [1, 2], false, false⟩] }) = true := by
  decide +kernel

/-- An acknowledgement performs a store, not before an earlier one to its line; one that fits none changes nothing. -/
theorem witness_Links_acknowledged : (
    let a : RemoteStore := ⟨0, 0, 0, 0, 0, 0x1000, [9, 8], 7, false, none, true⟩
    let b : RemoteStore := ⟨0, 0, 0, 0, 0, 0x1008, [9, 8], 8, false, none, true⟩
    let s := { base with remote := [a] }
    let two := { base with remote := [a, b] }
    !isHost 0x1000 && base.arrivals.isEmpty && gives (exec (.storeAck 0x1000 6) s) s &&
        gives (exec (.storeAck 0x1000 7) s) (placePeer 0x1000 [9, 8] (some 0) base) &&
        gives (exec (.storeAck 0x1008 8) two) two &&
        gives (exec (.storeAck 0x1000 7) two) { placePeer 0x1000 [9, 8] (some 0) base with remote := [b] } &&
        (let key := base.peerKey 0x1000
         let t := placePeer 0x1000 [9, 8] none { base with peerMem := kvPut (key + 2) 5 [] }
         [0, 1, 2].map (fun i => kvGet (key + i) t.peerMem) == [some 9, some 8, some 5])) = true := by
  decide +kernel

/-- The bytes of a store that is lost are free; the others stay (log 89). -/
theorem witness_Links_kept : (
    let a : RemoteStore := ⟨0, 0, 0, 0, 0, 0x1000, [9, 8], 7, false, none, true⟩
    let key := base.peerKey 0x1000
    let s := { base with remote := [a], peerMem := kvPut (key + 1) 8 (kvPut (key + 2) 5 []) }
    kvGet (key + 2) s.peersKept == some 5 && kvGet (key + 1) s.peersKept == none) = true := by decide +kernel

/-- A store is sent again: over the other link, through a third device, and not at all with both links down. -/
theorem witness_Links_resent : (
    let a : RemoteStore := ⟨0, 0, 0, 0, 0, 0x1000, [9, 8], 7, false, none, true⟩
    let s := { base with remote := [a] }
    let down (k : Bool) (s : State) : State := s.modLink k fun m => { m with up := false }
    (s.link true).ready && gives (exec (.remoteStoreReplay ⟨0, none⟩) s) { (s.modLink true Link.send) with remote := [{ a with link := true }] } &&
        gives (exec (.remoteStoreReplay ⟨0, some 9⟩) (down true s)) { ((down true s).modLink false Link.send) with remote := [{ a with relay := some 9 }] } &&
        (let d := down true (down false s)
         gives (exec (.remoteStoreReplay ⟨0, none⟩) d) (endCtx 0x32 0 { d with remote := [], fresh := d.fresh + 1 }))) = true := by decide +kernel

/-- Stores of a copy record that are lost stop it before the first lost byte; a command that waits for one makes no result
(R240, R242). -/
theorem witness_Links_lost : (
    let r := recordOf [0, 2 ^ 32 * 64, 0x3000, 0x4000] 32
    let y := { sentStore 0 r.chain.unit 0 0x4008 2 with ctx := 0 }
    let k := cmd (samplerUnit 0) 1 0x2000 0 24 (smpDesc 1) 0
    let s := copying r (sampling k mapped)
    let t := loseInEngines 6 [y, { y with agent := k.unit }] true s
    let u := loseInEngines 6 [y] false s
    r.lostAt [y] s == some 8 && (t.chan 3).run == some { r with pos := 8, owed := 0, outcome := some 6 } && t.commands.isEmpty &&
        (u.chan 3).run == some r && u.commands == s.commands) = true := by decide +kernel

theorem witness_Links_flit : (
    let asked := base.modLink false fun m => { m with replays := m.replays + 1, asked := m.asked ++ [m.recvSeq], gap := true }
    base.remote.isEmpty && base.relayed.isEmpty && base.acks.isEmpty && [true, false].all (fun copy => nexts (exec (.nalyanFlitReceive false 0 5 (some copy)) base)
        fun t => (t.link false).recvSeq == 1 && (t.link false).occupied == copy.toNat && same t { base with links := t.links }) &&
        gives (exec (.nalyanFlitReceive false 3 5 (some true)) base) asked && gives (exec (.nalyanFlitReceive false 0 5 none) base) asked &&
        gives (exec (.nalyanFlitReceive false 4 5 (some false)) asked) asked) = true := by decide +kernel

theorem witness_Links_replay : (
    let s := base.modLink false fun m => { m with unacked := [(4, 0), (5, 2)] }
    gives (exec (.nalyanReplayRequest false 5) s)
        (base.modLink false fun m => { m with unacked := [(4, 0), (5, 3)], replays := 1 })) = true := by decide +kernel

/-- Pause and resume, and a store that waits for the resumption. -/
theorem witness_Links_pause : (
    let p := base.modLink false fun m => { m with paused := true }
    let a : RemoteStore := ⟨0, 0, 0, 0, 0, 0x1000, [9, 8], 7, false, none, false⟩
    let s := { p with remote := [a] }
    gives (exec (.nalyanPause false) base) p && gives (exec (.nalyanResume false) p) base &&
        gives (exec (.nalyanResume false) s) { (base.modLink false Link.send) with remote := [{ a with sent := true }] } &&
        (let r : Relayed := ⟨3, 5, 0x1000, 7, [1], false, false⟩
         let k : Ack := ⟨3, 0x1000, 7, false, false⟩
         let first := base.modLink false Link.send
         gives (exec (.nalyanResume false) { p with relayed := [r], acks := [k] })
           { (first.modLink false Link.send) with relayed := [{ r with sent := true }], acks := [{ k with sent := true }] })) = true := by decide +kernel

/-- A link goes down; with the other one down too every store on its way is lost. -/
theorem witness_Links_down : (
    let down (k : Bool) (s : State) : State := s.modLink k fun m => { m with up := false, paused := false, unacked := [], gap := false }
    let a : RemoteStore := ⟨0, 0, 0, 0, 0, 0x1000, [9, 8], 7, false, none, true⟩
    let s := { down true base with remote := [a] }
    gives (exec (.nalyanLinkDown false) base) (raiseDint 2 (down false base)) &&
        gives (exec (.nalyanLinkDown false) s) (endAll 0x32 [0] { raiseDint 2 (down false s) with remote := [], fresh := s.fresh + 1 }) &&
        gives (exec (.nalyanLinkUp false) (base.modLink false fun m => { m with up := false })) base) = true := by decide +kernel

theorem witness_Links_pool : (
    let y := sentStore 0 0 0 0x1000 5
    let s := { base with poolStores := [y] }
    gives (exec (.poolStoreAck 0) s) base &&
        (let u := { base with poolStores := [y, { y with pa := 0x1004 }] }; gives (exec (.poolStoreAck 1) u) u) &&
        gives (exec (.poolPortLinkDown 1) base) (raiseDint 2 { base with poolUp := 13 }) &&
        gives (exec (.poolPortLinkUp 1) { base with poolUp := 13 }) base &&
        gives (exec (.leaseEnd 0x1000) base) (fireWatches 0x1000 64 none base)) = true := by decide +kernel

theorem witness_Links_region : (
    let b := 2 ^ 50
    isPool b && b % 0x10000000 == 0 &&
        nexts (exec (.poolRegionMap (BitVec.ofNat 52 b) 2 3) base)
        (fun t => t.poolAt (b + 0x1FFFFFFF) == some ⟨BitVec.ofNat 52 b, 2, 3, false⟩ && same t { base with pools := t.pools, poolStores := t.poolStores })
        && gives (exec (.backInvalidateSnoop (BitVec.ofNat 52 b)) base) (fireWatches b 64 none base)) = true := by decide +kernel

theorem witness_Links_host : (
    let y := sentStore 0 0 0 (2 ^ 40) 2
    let t := { base with hostStores := [y], hostUp := false }.hostLost
    t.hostStores.isEmpty && decide (y.pa.toNat + y.size ≤ 2 ^ 40 + 8) && gives (exec .hostPortLost base) (raiseDint 2 { base with hostUp := false, fresh := base.fresh + 1 }) &&
        gives (exec .hostPortLost { base with hostUp := false }) { base with hostUp := false, fresh := base.fresh + 1 }) = true := by decide +kernel

theorem witness_Links_host_ack : (
    let b := 2 ^ 40
    isHost b && (let y := sentStore 0 0 0 (BitVec.ofNat 52 b) 2; gives (exec (.storeAck (BitVec.ofNat 52 b) 0) { base with hostStores := [y] }) (physWrite b y.bytes (some 0) base) &&
      (let u := { base with hostStores := [{ y with pa := y.pa + 4 }, y] }; gives (exec (.storeAck y.pa 0) u) u) &&
      gives (exec (.storeAck (y.pa + 64) 0) { base with hostStores := [y] }) { base with hostStores := [y] })) = true := by decide +kernel

/-! ### The host -/

theorem witness_Host_tail : (
    let s := base.modCq 3 fun k => { k with en := true, head := 4 }
    (9 - (s.cq 3).head).toNat ≤ 2 ^ ((s.cq 3).size.toNat + 4) &&
        2 ^ ((s.cq 3).size.toNat + 4) < (99 - (s.cq 3).head).toNat && s.cqOwner 3 == none &&
        gives (exec (.cqtailWrite (some 0) 3 9) s) s && (page 0xC0 1 8 s).cqOwner 3 == some 0) = true := by decide +kernel

theorem witness_Host_queue : (
    let v : Dword := 1 + 2 ^ 20 * 5 + 2 ^ 40 * 3 + 2 ^ 16 * 2
    let s := page 0x10 4 100 (page 0xC0 1 8 base)
    let tickets (n : Nat) : Dword := BitVec.ofNat 64 (2 ^ 20 * n + 1)
    !cqctlRefused 3 v s && s.pg 0 0x10 4 == 100 && s.cqOwner 3 == some 0 &&
        gives (exec (.cqctlWrite none 3 3) base) base && gives (exec (.cqctlWrite none 3 (tickets 5 + 13 * 2 ^ 16)) s) s &&
        gives (exec (.cqctlWrite none 3 (tickets 101)) s) s &&
        nexts (exec (.cqctlWrite none 3 (tickets 100)) s) fun t => (t.cq 3).en && (t.cq 3).tickets == 100) = true := by decide +kernel

theorem witness_Host_ring : (
    gives (exec (.rngctlWrite 2 5 (2 ^ 16)) base) base &&
        nexts (exec (.rngctlWrite 2 5 (4 + 2 ^ 16 + 2 ^ 32 * 3)) base)
        (fun t => vget t.rings 133 HwRing.reset == ⟨3, true, 4, 0, 0, 0, 0, 0, 0⟩ && (let w := core (fun c => { c with objWaits := [⟨0, true, 133, false⟩] }) t; nexts (exec (.rngctlWrite 2 5 6) w) fun u => u.core.objWaits == [⟨0, true, 133, true⟩]) && nexts (exec (.rngctlWrite 2 5 (2 ^ 32 + 6)) t) fun u => vget u.rings 133 HwRing.reset == ⟨3, false, 4, 0, 0, 0, 0, 0, 0⟩)) = true := by decide +kernel

theorem witness_Host_request : (
    gives (exec (.rqctlWrite none 5 13) base) base &&
        nexts (exec (.rqctlWrite none 5 (3 + 2 ^ 16 + 2 ^ 24 * 7 + 2 ^ 32 * 2 + 2 ^ 40)) base)
        (fun t => let r := t.rq 5; r.en && r.wq == 7 && r.part == 2 && r.ports == 1 && r.armed && r.lcap == 3 && nexts (exec (.rqctlWrite none 5 3) { t with conns := [⟨0, 1, 2, 5⟩, ⟨0, 2, 2, 6⟩] }) fun u => u.conns == [⟨0, 2, 2, 6⟩] && !(u.rq 5).en)) = true := by decide +kernel

theorem witness_Host_interrupts : (
    gives (exec (.intstatClear none 16) base) { base with dintstat := 0 } &&
        (let s := base.setPart 2 fun p => { p with intstat := 5 }; nexts (exec (.intstatClear (some 2) 4) s) fun t => (t.part 2).intstat == 1 && same t s)) = true := by decide +kernel

theorem witness_Host_page : (
    pageFree 3 base && pageAllowed 3 (pageWith (base.part 3).page 8 [0x40]) base &&
        nexts (exec (.controlPageWrite 3 8 [0x40]) base) fun t => t.pg 3 8 1 == 0x40) = true := by decide +kernel

theorem witness_Host_page_busy : (
    let s := core (fun c => { c with ctx := 7, act := .running, partid := 3 }) base
    !pageFree 3 s && gives (exec (.controlPageWrite 3 8 [0x40]) s) s && hostRead none false 0x40301F 1 s == [0x80] &&
        hostRead none false 0x40301F 1 base == [0]) = true := by decide +kernel

theorem witness_Host_page_refused : (
    let s := page 0xC0 1 1 base
    pageFree 3 s && !pageAllowed 3 (pageWith (s.part 3).page 0xC0 [1]) s) = true := by decide +kernel
/-- A write of partition 3's page is refused: bit 30 of its flags is set. -/
def refusesPage (off : BitVec 12) (bs : List Byte) (s : State) : Bool :=
  gives (exec (.controlPageWrite 3 off bs) s) (setPageBit 3 30 s)
theorem witness_Host_page_shared : refusesPage 0xC0 [1] (page 0xC0 1 1 base) = true := by decide +kernel
theorem witness_Host_page_events : refusesPage 0x40 [25] (page 0x40 2 1000 base) = true := by decide +kernel
theorem witness_Host_page_retention : refusesPage 0x60 [17] base = true := by decide +kernel
theorem witness_Host_page_trackers : refusesPage 0x6A [65] base = true := by decide +kernel
theorem witness_Host_page_budget : refusesPage 0x10 [1, 0, 0x10] base = true := by decide +kernel

theorem witness_Host_mailbox : (
    let s := base.setPart 3 fun p => { p with mail := { p.mail with go := true } }
    gives (exec (.mailboxGo 3 1) base)
        (base.setPart 3 fun p => { p with mail := { p.mail with go := true, result := 0, rtval := 0 } }) &&
        (let r := mailLoad 3 (s.part 3).mail (List.range 16) s; gives (exec (.mailboxLoadComplete 3) s) (raiseInt 3 4 (r.1.setPart 3 fun p => { p with mail := { p.mail with go := false, result := BitVec.ofNat 32 (2 ^ 31 + r.2.1), rtval := wrapN r.2.2 } })))) = true := by decide +kernel

/-- A boot that fails at step 4, and one with links down (R403). -/
theorem witness_Host_boot : (
    let bad := { base with boots := [⟨4, 3, 255, 15, none, []⟩] }
    let down := { base with boots := [⟨0, 1, 254, 15, some 3, []⟩] }
    bad.nextBoot.fail == 4 && nexts (exec .coldReset bad) (fun t => t.bootError == 4 && !t.ready && t.boots.isEmpty) &&
        nexts (exec .coldReset down) (fun t => t.bootError == 0 && t.ready && (t.link false).up && !(t.link true).up &&
          !(vget t.eth 0 EthPort.reset).up && (vget t.eth 1 EthPort.reset).up && t.domain == 3 && t.dintstat == 0x14)) = true := by decide +kernel

theorem witness_Host_reset : (
    let s := core (fun c => { c with seqctr := 9 }) (put8 0x100 5 base)
    let c : Core := { Core.reset 0 with seqctr := 9 }
    s.fw.toList.all (fun f => !f.pending && f.image.isNone) &&
        nexts (exec .coldReset s)
        (fun t => t.mem.isEmpty && t.power && t.ready && t.lastReset == 0 && t.dintstat == 16 && decide (t.core = Core.reset 0)) &&
        nexts (exec .warmReset s) (fun t => t.mem == s.mem && t.lastReset == 1 && decide (t.core = c)) &&
        nexts (exec .powerOff s) fun t => !t.power && !t.ready && t.mem.isEmpty) = true := by decide +kernel

/-- A partition's interrupt mask written in its window and read back (R6, R389, R390). -/
theorem witness_Host_window : (
    nexts (exec (.registerWrite (some 2) ⟨false, 0x4048⟩ (leBytes 8 0xFF)) base) (fun t => (t.part 2).intmask == 0x3F &&
      hostRead (some 2) false 0x4048 8 t == leBytes 8 0x3F) &&
    gives (exec (.registerWrite none ⟨false, 0x1200000⟩ [5]) base) base && hostRead none false 0x1200000 1 base == [0]) = true := by decide +kernel

/-- A vector of PF 0 that is masked, as after reset, and then unmasked (R387). -/
theorem witness_Host_masked : (
    let s := { base with dintmask := 4 }
    let t := raiseDint 2 s
    s.msixMasked 0 2 && t.msixPending == [(0, 2)] && t.msix == s.msix && hostRead none true (2 ^ 15) 1 t == [4] &&
      nexts (exec (.registerWrite none ⟨true, 16 * 2 + 12⟩ (leBytes 4 0)) t) (fun u => u.msix == s.msix ++ [(0, 2)] && u.msixPending.isEmpty &&
        !u.msixMasked 0 2 && (raiseDint 2 { u with dintstat := 0 }).msix == u.msix ++ [(0, 2)])) = true := by decide +kernel

/-- An entry of the MSI-X table of partition 2's VF (R387). -/
theorem witness_Host_vector : (
    nexts (exec (.registerWrite (some 2) ⟨true, 16⟩ (leBytes 8 0x1234)) base) fun t => memWf t.msixTable &&
      hostRead (some 2) true 16 8 t == leBytes 8 0x1234 && hostRead none true 16 8 t == leBytes 8 0) = true := by decide +kernel

theorem witness_Host_queue_read : (
    let s := base.modCq 3 fun k => { k with en := true, base := 0x8000 }
    s.cqOwner 3 == none && hostRead (some 0) false 0x60 8 s == leBytes 8 0 && hostRead none false 0x10060 8 s == leBytes 8 0x8000) = true := by decide +kernel

theorem witness_Host_basoc : (
    let s := base.modEth 1 fun y => { y with sent := 5 }
    gives (exec (.powerCapSet 700) base) { base with powerCap := 700 } && gives (exec (.powerCapSet 500) base) base &&
        nexts (exec (.pldmSensorRead (.thermalOrRail 1)) base) (fun t => t.fresh == base.fresh + 1 && t.basoc.length == 1) &&
        nexts (exec (.pldmSensorRead (.eth 1 3)) s) (fun t => t.basoc == [.sensor (.eth 1 3) (some 5)]) &&
        nexts (exec (.pldmSensorRead (.core 0 1)) base) (fun t => t.basoc == [.sensor (.core 0 1) (some 0)]) &&
        nexts (exec (.pldmSensorRead (.eth 1 3)) { s with power := false }) (fun t => t.basoc == [.sensor (.eth 1 3) none]) &&
        nexts (exec (.pldmSensorRead (.log 0)) (logEvent 0x46 false 2 0 0 base)) fun t => t.basoc == [.logEntry ((logEvent 0x46 false 2 0 0 base).logSlot 0)]) = true := by decide +kernel

theorem witness_Host_firmware : (
    nexts (exec (.firmwareUpdate 1 [1, 2]) base) fun t => t.basoc == [.update 1 false] && (vget t.fw 1 FwTarget.reset).imageB == some [1, 2] &&
      !(vget t.fw 1 FwTarget.reset).pending && !(vget t.fw 1 FwTarget.reset).active) = true := by decide +kernel

theorem witness_Host_attest : (
    nexts (exec (.spdmAttestation 5) base) fun t => t.basoc.length == 1 && t.mem == base.mem) = true := by decide +kernel

/-! ## A context image is written and read -/

/-- The mapping of `mapped`, in a state that has kept it, and whose first-level lines agree with it. -/
def Kept (t : State) : Prop :=
  t.pg 0 0 8 = 0x100000 ∧ t.phys8 0x100000 = 0x104003 ∧ t.phys8 0x104000 = 0x3D ∧ t.pools = [] ∧ t.regions = [] ∧
    t.core.id = 0 ∧ t.core.pins = [] ∧ ∀ x ∈ t.cache.l1, x.leaf.pa = x.va ∧ x.leaf.grants .r = true ∧ x.leaf.grants .w = true

/-- A store fires watches; pins and numbers stay. -/
theorem fireWatches_core (a n : Nat) (b : Option (BitVec 11)) (s : State) :
    (fireWatches a n b s).core.id = s.core.id ∧ (fireWatches a n b s).core.pins = s.core.pins := by
  have h (c : Core) : (c.noteWrite a n).id = c.id ∧ (c.noteWrite a n).pins = c.pins := by
    unfold Core.noteWrite
    cases c.watch with
    | none => exact ⟨rfl, rfl⟩
    | some w => dsimp only; split <;> exact ⟨rfl, rfl⟩
  unfold fireWatches
  dsimp only
  split
  · exact ⟨rfl, rfl⟩
  · exact h s.core

theorem kept_walk {t : State} (h : Kept t) {a : Nat} (ha : a < 2 ^ 36) :
    ∃ l, t.walk 0 a = some l ∧ l.pa = a ∧ l.grants .r = true ∧ l.grants .w = true := by
  obtain ⟨h1, h2, h3, h4, -, -, -, -⟩ := h
  have i0 : vaIndex 0 a = 0 := by simp [vaIndex]; omega
  have i1 : vaIndex 1 a = 0 := by simp [vaIndex]; omega
  have k (x : Nat) (hx : x < 2 ^ 39) : t.physOk x = true := by simp [State.physOk, isHbm]; omega
  have n (x : Nat) : t.poolLost x = false := by simp [State.poolLost, State.poolAt, h4]
  refine ⟨⟨a, true, true, true, false, 1, 0x104000, dw 0x3D⟩, ?_, rfl, rfl, rfl⟩
  simp [State.walk, walkFrom, show t.pg 0#5 0 8 = 0x100000 from h1, i0, i1, h2, h3, k, n, leafBits, Nat.mod_eq_of_lt (show a < 68719476736 by omega), k a (by omega)]

/-- An access of core 0's in a state that has kept the mapping: the physical address is the virtual one. -/
theorem kept_lookup {w : Who} {t : State} (h : Kept t) (hw : w.core = 0) (hp : w.part = 0) {a : Nat} (ha : a < 2 ^ 36) :
    ∃ l, t.lookup w a = some l ∧ l.pa = a ∧ l.grants .r = true ∧ l.grants .w = true ∧ t.poolLost l.pa = false := by
  have hn (x : Nat) : t.poolLost x = false := by simp [State.poolLost, State.poolAt, h.2.2.2.1]
  have hc : (t.findCore w.core).pins = [] := by rw [hw, State.findCore, if_pos h.2.2.2.2.2.1, h.2.2.2.2.2.2.1]
  suffices hs : ∃ l, t.lookup w a = some l ∧ l.pa = a ∧ l.grants .r = true ∧ l.grants .w = true by
    obtain ⟨l, h1, h2, h3, h4⟩ := hs
    exact ⟨l, h1, h2, h3, h4, hn _⟩
  by_cases hk : w.seq = true → t.cache.hit w.core a = none
  · rw [lookup_walk hc hk, hp]
    exact kept_walk h ha
  · simp only [not_forall] at hk
    obtain ⟨hs, hk⟩ := hk
    obtain ⟨m, hm⟩ := Option.ne_none_iff_exists'.mp hk
    have hl : t.lookup w a = some m := by
      unfold State.lookup
      cases w.engine <;> simp [hc, hs, hm]
    unfold Cache.hit at hm
    simp only [Option.map_eq_some_iff] at hm
    obtain ⟨x, hx, rfl⟩ := hm
    obtain ⟨p1, p2, p3⟩ := h.2.2.2.2.2.2.2 x (List.mem_of_find?_eq_some hx)
    exact ⟨_, hl, by simp only [p1]; omega, p2, p3⟩

/-- What an access leaves in the caches keeps the mapping. -/
theorem kept_fills {w : Who} {wr : Bool} {va pa n : Nat} {l : Leaf} {t : State} (h : Kept t) (hl : l.pa = va)
    (hr : l.grants .r = true) (hw : l.grants .w = true) : Kept (t.fills w wr va pa n (some l)) := by
  obtain ⟨h1, h2, h3, h4, h5, h6, h7, h8⟩ := h
  refine ⟨h1, h2, h3, h4, h5, h6, h7, fun x hx => ?_⟩
  rcases cached_l1 hx with hx | ⟨m, hm, rfl⟩
  · exact h8 x hx
  · obtain rfl := Option.some.inj hm
    exact ⟨hl, hr, hw⟩

/-- A write high above the tables keeps it. -/
theorem kept_physWrite {a : Nat} {bs : List Byte} {b : Option (BitVec 11)} {t : State} (h : Kept t) (ha : 0x105000 ≤ a) :
    Kept (physWrite a bs b t) := by
  obtain ⟨h1, h2, h3, h4, h5, h6, h7, h8⟩ := h
  have hm (x : Nat) (hx : x < 0x104008) : (physWrite a bs b t).phys8 x = t.phys8 x := by
    have hp : isPeer x = false := by simp [isPeer]; omega
    simp only [State.phys8, State.physBytes, hp, Bool.false_eq_true, if_false]
    show leNat (memRead (memWrite t.mem a bs) x 8) = leNat (memRead t.mem x 8)
    rw [memRead_memWrite_ne _ _ _ _ _ (by omega)]
  exact ⟨h1, (hm _ (by decide)).trans h2, (hm _ (by decide)).trans h3, h4, h5, (fireWatches_core ..).1.trans h6,
    (fireWatches_core ..).2.trans h7, fun x hx => h8 x (List.mem_of_mem_filter hx)⟩

/-- A write high above the tables. -/
theorem kept_gWrite {w : Who} {s : State} {bs : List Byte} {n : Nat} (hp : w.part = 0) (hc : w.core = 0) (hd : w.det = false)
    (h : Kept s)
    (hb : bs.length = n) (hv : vaOk 0x4000000 n = true) (hg : ∀ x ∈ granules 0x4000000 n, 0x4000000 ≤ x ∧ x < 0x8000000) : ∃ t, runA (gWrite w 0x4000000 bs) s = .ok (.ok (), t) := by
  unfold gWrite
  simp only [hb, hv, Bool.not_true, Bool.false_eq_true, if_false]
  obtain ⟨t, ht, -⟩ := runA_foldlM Kept
    (fun (_ : Unit) a => writeIn w a ((bs.drop (a - 0x4000000)).take (16384 - a % 16384))) (fun _ _ => ())
    (granules 0x4000000 n) () s h (by
      intro a ha _ u hu
      have hr := hg a ha
      obtain ⟨l, hlk, hpa, hgr, hgw, hl⟩ := kept_lookup hu hc hp (a := a) (by omega)
      exact ⟨_, runA_writeIn hd hlk hgw hl hu.2.2.2.2.1 (by rw [hpa]; simp [isHbm]; omega),
        kept_fills (kept_physWrite hu (by rw [hpa]; omega)) hpa hgr hgw⟩)
  exact ⟨t, ht⟩

/-- A read there, with memory as it was. -/
theorem kept_gRead {w : Who} {s : State} {va n : Nat} (hp : w.part = 0) (hc : w.core = 0) (hd : w.det = false) (h : Kept s)
    (ho : s.poison = []) (hv : vaOk va n = true) (hg : ∀ x ∈ granules va n, x < 2 ^ 36) :
    ∃ t, runA (gRead w va n) s = .ok (.ok ((granules va n).foldl
      (fun bs a => bs ++ memRead s.mem a (min (va + n) ((a / 16384 + 1) * 16384) - a)) []), t) ∧ t = { s with cache := t.cache } := by
  unfold gRead
  simp only [hv, Bool.not_true, Bool.false_eq_true, if_false]
  obtain ⟨t, ht, -, he⟩ := runA_foldlM (fun t => Kept t ∧ t = { s with cache := t.cache })
    (fun (bs : List Byte) a => do
      let more ← readIn w .r a (min (va + n) ((a / 16384 + 1) * 16384) - a)
      return bs ++ more) (fun bs a => bs ++ memRead s.mem a (min (va + n) ((a / 16384 + 1) * 16384) - a))
    (granules va n) [] s ⟨h, rfl⟩ (by
      rintro a ha b u ⟨hu, he⟩
      have hr := hg a ha
      obtain ⟨l, hlk, hpa, hgr, hgw, hl⟩ := kept_lookup hu hc hp hr
      have hm : u.mem = s.mem := by rw [he]
      refine ⟨u.fills w false a l.pa (min (va + n) ((a / 16384 + 1) * 16384) - a) (some l), ?_, kept_fills hu hpa hgr hgw, ?_⟩
      · rw [runA_bind, runA_readIn hd hlk hgr hl hu.2.2.2.2.1 (by rw [he]; exact ho) (by rw [hpa]; simp [isPeer]; omega)
          (by rw [hpa]; simp [isHost]; omega), hpa, hm]
        rfl
      · rw [he]
        rfl)
  exact ⟨t, ht, he⟩

/-- The lengths of what an image holds. -/
theorem leBytes_length (n : Nat) : ∀ x, (leBytes n x).length = n := by
  induction n with
  | zero => intro x; rfl
  | succ n ih => intro x; rw [leBytes, List.length_cons, ih]

theorem padTo_length {n : Nat} {bs : List Byte} (h : bs.length ≤ n) : (padTo n bs).length = n := by
  simp [padTo, zeros]; omega

theorem flatMap_length {α : Type} (f : α → List Byte) (k : Nat) (h : ∀ x, (f x).length = k) (l : List α) :
    (l.flatMap f).length = k * l.length := by
  induction l with
  | nil => simp
  | cons x l ih => simp [List.flatMap_cons, h, ih]; ring

/-- The snapshot of empty queues has its length (R335). -/
theorem snapshot_length (c : Core) (a : Dword) (h2 : c.lq = []) (h3 : c.mq = []) (h4 : c.sq = []) :
    (queueHeader c a ++ queueSlots c).length = snapBytes := by
  have hq : (queueHeader c a).length = 256 := padTo_length (by simp [leBytes_length, dwords])
  have hz : (padTo 4096 []).length = 4096 := padTo_length (by simp)
  simp only [queueSlots, h2, h3, h4, List.flatMap_nil, List.length_append, hz, hq, snapBytes]

/-- The core part of an image of a core with no entry and no pin has its length (R326). -/
theorem coreImage_length (c : Core) (r b : Nat) (a : Dword) (h1 : c.pins = []) (h2 : c.lq = []) (h3 : c.mq = [])
    (h4 : c.sq = []) : (coreImage c r b a).length = coreBytes := by
  have hh : (headerBytes c r b).length = 256 := padTo_length (by simp [leBytes_length])
  have hr : (regBlock c).length = 256 := padTo_length (by
    simp [leBytes_length, dwords, flatMap_length _ 8 (fun x => leBytes_length 8 _)])
  have hp : (padTo 256 (c.pins.flatMap Pin.bytes)).length = 256 := padTo_length (by simp [h1])
  have ha (x : Acc) (k : DrainCfg) : (accBlock x k).length = 20480 := padTo_length (by simp [leBytes_length])
  have hq : (queueHeader c a).length = 256 := padTo_length (by
    simp [leBytes_length, dwords])
  have hs : (queueSlots c).length = 12288 := by
    have hz : (padTo 4096 []).length = 4096 := padTo_length (by simp)
    simp only [queueSlots, h2, h3, h4, List.flatMap_nil, List.length_append, hz]
  have hl (x : Loop) : (Loop.bytes x).length = 16 := by simp [Loop.bytes, leBytes_length]
  have ht (x : Tile) : (leBytes 4096 x.data.toNat ++ leBytes 1024 x.side.toNat).length = 5120 := by simp [leBytes_length]
  simp only [coreImage, List.length_append, hh, hr, hp, hq, hs, flatMap_length _ 16 hl, flatMap_length _ 5120 ht,
    flatMap_length _ 8 (fun x => leBytes_length 8 _), flatMap_length _ 16 (fun x => leBytes_length 16 _),
    flatMap_length _ 64 (fun x => leBytes_length 64 _), flatMap_length _ 20480 (fun x => ha _ _), List.length_range,
    Vector.length_toList, zeros, List.length_replicate, coreBytes]

/-- A handler whose g2 holds the address of an image; nothing of an emission is on its way. -/
def saving : State := handler (regs [(2, 0x4000000)] mapped)
theorem saving_kept : Kept { saving with core := saving.core.settleHeads } := by
  refine ⟨?_, ?_, ?_, ?_, ?_, ?_, ?_, ?_⟩ <;> decide +kernel
theorem saving_withdraw : (withdraw saving.core saving).1 = saving.core ∧ (withdraw saving.core saving).2 = saving :=
  ⟨by decide +kernel, rfl⟩
theorem saving_writes {bs : List Byte} {n : Nat} (hb : bs.length = n) (hv : vaOk 0x4000000 n = true)
    (hg : ∀ x ∈ granules 0x4000000 n, 0x4000000 ≤ x ∧ x < 0x8000000)
    (hk : (vaOk 0x4000000 n && (granules 0x4000000 n).all fun va =>
      (State.lookup { saving with core := saving.core.settleHeads } (saving.core.settleHeads.who true 0) va).any fun l =>
        l.grants .w) = true) :
    ∃ t, Does (writeArea (saving.core.rg 2) bs) { saving with core := saving.core.settleHeads } () t := by
  obtain ⟨t, ht⟩ := kept_gWrite (w := (saving.core.settleHeads.who true 0)) (by decide +kernel) (by decide +kernel)
    (by decide +kernel) saving_kept hb hv hg
  refine ⟨t, ?_⟩
  have hr : (saving.core.rg 2).toNat = 0x4000000 := by decide +kernel
  simp only [Does, hr, writeArea, run_bind, run_getC, run_get, run_need, hb]
  rw [if_pos hk]
  exact acc_runA ht

/-- The hypotheses of `ctx.sv` (R334). -/
theorem witness_Context_save : ∃ t, let c := saving.core; let w := withdraw c saving; let d := w.1.settleHeads
    c.hm = true ∧ (∀ k ∈ [1, 2, 3], ∀ e ∈ c.queue k, c.isHeld e = true) ∧ (c.rg 2).toNat % 4096 = 0 ∧
    Does (writeArea (c.rg 2) (coreImage d.giveBack.interrupted 0 0 d.resumeAddr)) { w.2 with core := d } () t := by
  obtain ⟨t, ht⟩ := saving_writes (coreImage_length saving.core.settleHeads.giveBack.interrupted 0 0
    saving.core.settleHeads.resumeAddr (by decide +kernel) (by decide +kernel) (by decide +kernel) (by decide +kernel))
    (by decide) (by decide +kernel) (by decide +kernel)
  refine ⟨t, by decide +kernel, by decide +kernel, by decide +kernel, ?_⟩
  rw [saving_withdraw.1, saving_withdraw.2]
  exact ht

/-- Whether an image of a core with nothing in its queues and no bank of its own can be written (R323). -/
theorem writeImage_isSome (c : Core) (r a : Nat) (s : State) (h1 : c.pins = []) (h2 : c.lq = []) (h3 : c.mq = [])
    (h4 : c.sq = []) : (writeImage c [] r a s).isSome = (physPieces s c.partid .w a coreBytes).isSome := by
  have h : (fwWrite s c.partid a (coreImage c r 0 c.pc)).isSome = (physPieces s c.partid .w a coreBytes).isSome := by
    rw [fwWrite, unitWrite, unitPut, Option.isSome_map, coreImage_length c _ _ _ h1 h2 h3 h4]
    rfl
  rw [← h]
  show ((fwWrite s c.partid a (coreImage c r 0 c.pc)).bind fun t => some t).isSome = _
  cases fwWrite s c.partid a (coreImage c r 0 c.pc) <;> rfl

/-- A running task whose banks are all cluster cache, and whose partition has a save region at 0x4000000 or none. -/
def heated (base : State) : State :=
  core (fun c => { c with ctx := 7, bankmode := 0x555555 }) (page 0x20 8 0x4000000 base)

/-- What a save of a context comes to (R323): its hypotheses are met where the image can be written, and where it cannot. -/
theorem witness_Task_saves (b : Bool) : let s := heated (if b then mapped else base)
    s.core.ctx ≠ 0 ∧ (∀ x ∈ s.others, x.ctx = 0) ∧ savedWith s.core s = [s.core] ∧
    (let m := (withdraw s.core s).1.boundary.settleHeads
     (writeImages 0x49 [⟨m, 0x4000000⟩] (withdraw s.core s).2).isSome = b) := by
  refine ⟨?_, ?_, ?_, ?_⟩
  · cases b <;> decide +kernel
  · cases b <;> decide +kernel
  · cases b <;> decide +kernel
  · intro m
    have hb : m.savedBanks = [] := by cases b <;> decide +kernel
    have hw := writeImage_isSome m 0x49 0x4000000 (withdraw (heated (if b then mapped else base)).core (heated (if b then mapped else base))).2
      (by cases b <;> decide +kernel) (by cases b <;> decide +kernel) (by cases b <;> decide +kernel) (by cases b <;> decide +kernel)
    have hp : (physPieces (withdraw (heated (if b then mapped else base)).core (heated (if b then mapped else base))).2 m.partid .w
      0x4000000 coreBytes).isSome = b := by cases b <;> decide +kernel
    rw [hp] at hw
    show ((writeImage m m.savedBanks 0x49 0x4000000 _).bind _).isSome = b
    rw [hb]
    cases h : writeImage m [] 0x49 0x4000000 (withdraw (heated (if b then mapped else base)).core (heated (if b then mapped else base))).2 with
    | none => rw [h] at hw; exact hw
    | some y => rw [h] at hw; exact hw

/-- The hypotheses of `qsn.sv` (R335). -/
theorem witness_Context_queues : ∃ t, let c := saving.core; let w := withdraw c saving; let d := w.1.settleHeads
    c.hm = true ∧ (c.rg 2).toNat % 256 = 0 ∧
    Does (writeArea (c.rg 2) (queueHeader d d.resumeAddr ++ queueSlots d)) { w.2 with core := d } () t := by
  obtain ⟨t, ht⟩ := saving_writes (snapshot_length saving.core.settleHeads saving.core.settleHeads.resumeAddr
    (by decide +kernel) (by decide +kernel) (by decide +kernel)) (by decide) (by decide +kernel) (by decide +kernel)
  refine ⟨t, by decide +kernel, by decide +kernel, ?_⟩
  rw [saving_withdraw.1, saving_withdraw.2]
  exact ht

/-- Memory with the mapping and one byte, 1, at 0x200000: an image whose other bytes are 0. -/
def imaged : State := handler (regs [(2, 0x200000)] (put 0x200000 [1] mapped))

theorem imaged_kept : Kept imaged := by
  refine ⟨?_, ?_, ?_, ?_, ?_, ?_, ?_, ?_⟩ <;> decide +kernel

theorem imaged_read (a : Nat) (h : a ∈ (granules 0x200000 coreBytes).tail) : memRead imaged.mem a 16384 = List.replicate 16384 0 := by
  apply memRead_zero
  have : ∀ a ∈ (granules 0x200000 coreBytes).tail, ∀ c ∈ imaged.mem, c.1 < a ∨ a + 16384 ≤ c.1 := by decide +kernel
  exact this a h

theorem imaged_first : memRead imaged.mem 0x200000 16384 = 1 :: List.replicate 16383 0 := by
  have hf : imaged.mem.filter (fun c => 0x200000 ≤ c.1 && c.1 < 0x200000 + 16384) = [(0x200000, 1)] := by decide +kernel
  have hz : ∀ n a, fillBytes n a [] = List.replicate n 0 := by
    intro n
    induction n with
    | zero => intro a; rfl
    | succ n ih => intro a; rw [fillBytes, ih, List.replicate_succ]
  unfold memRead
  rw [hf, show (16384 : Nat) = 16383 + 1 from rfl, fillBytes, if_pos rfl, hz]

theorem leNat_zeros (k : Nat) : leNat (List.replicate k 0) = 0 := by
  induction k with
  | zero => rfl
  | succ k ih => rw [List.replicate_succ, leNat, ih]; rfl

/-- A field of an image of zeros but for its first byte. -/
theorem bytesAt_image (k o n : Nat) (h : o ≠ 0) : bytesAt ((1 : Byte) :: List.replicate k 0) o n = 0 := by
  obtain ⟨o, rfl⟩ := Nat.exists_eq_succ_of_ne_zero h
  rw [bytesAt, List.drop_succ_cons, List.drop_replicate, List.take_replicate, leNat_zeros]

theorem imaged_bytes : ∃ l : List Nat, granules 0x200000 coreBytes = 0x200000 :: l ∧ l.length = 10 ∧
    ∀ a ∈ 0x200000 :: l, min (0x200000 + coreBytes) ((a / 16384 + 1) * 16384) - a = 16384 :=
  ⟨(granules 0x200000 coreBytes).tail, by decide +kernel, by decide +kernel, by decide +kernel⟩

theorem imaged_fold (l : List Nat) (h : ∀ a ∈ l, memRead imaged.mem a 16384 = List.replicate 16384 0) :
    ∀ b : List Byte, l.foldl (fun bs a => bs ++ memRead imaged.mem a 16384) b = b ++ List.replicate (16384 * l.length) 0 := by
  induction l with
  | nil => intro b; simp
  | cons a l ih =>
    intro b
    rw [List.foldl_cons, ih (fun x hx => h x (by simp [hx])), h a (by simp), List.append_assoc, List.replicate_append_replicate,
      List.length_cons]
    congr 2; ring

/-- The hypotheses of `ctx.ld` (R334): an image of zeros but for its version loads into partition 0. -/
theorem witness_Context_load : ∃ bs t, let s := imaged
    s.core.hm = true ∧ s.core.det = false ∧ (s.core.rg 2).toNat % 4096 = 0 ∧ s.core.quiet = true ∧ s.core.held = none ∧
    Does (acc (gRead (s.core.who true 0) (s.core.rg 2).toNat coreBytes)) s bs t ∧ bytesAt bs 0 4 = 1 ∧
    imageFault bs s.core.partid = none ∧ entryFault bs 0x28D00 = none := by
  have hv : (imaged.core.rg 2).toNat = 0x200000 := by decide +kernel
  have hpt : imaged.core.partid = 0 := by decide +kernel
  obtain ⟨l, hl, hn, hg⟩ := imaged_bytes
  have hz : ∀ a ∈ l, memRead imaged.mem a 16384 = List.replicate 16384 0 := fun a ha => imaged_read a (by rw [hl]; exact ha)
  obtain ⟨t, hrd, -⟩ := kept_gRead (w := imaged.core.who true 0) (s := imaged) (va := 0x200000) (n := coreBytes) (by decide +kernel)
    (by decide +kernel) (by decide +kernel) imaged_kept (by decide +kernel) (by decide) (by decide +kernel)
  have hf : (granules 0x200000 coreBytes).foldl (fun bs a => bs ++ memRead imaged.mem a
      (min (0x200000 + coreBytes) ((a / 16384 + 1) * 16384) - a)) [] = (1 : Byte) :: List.replicate 180223 0 := by
    rw [hl, List.foldl_ext (g := fun bs a => bs ++ memRead imaged.mem a 16384) (H := fun b a ha => by rw [hg a ha]),
      List.foldl_cons, imaged_first, imaged_fold l hz, hn, List.nil_append, List.cons_append, List.replicate_append_replicate]
  rw [hf] at hrd
  refine ⟨(1 : Byte) :: List.replicate 180223 0, t, by decide +kernel, by decide +kernel, by decide +kernel, by decide +kernel, by decide +kernel, ?_, ?_, ?_, ?_⟩
  · rw [hv]
    exact acc_runA hrd
  · rw [bytesAt, List.drop_zero, show (180223 : Nat) = 3 + 180220 from rfl, ← List.replicate_append_replicate]
    rfl
  · have c (q : Nat) : countOf ((1 : Byte) :: List.replicate 180223 0) 0x28D00 q = 0 := bytesAt_image _ _ _ (by omega)
    have z (o n : Nat) (h : o ≠ 0) : ((((1 : Byte) :: List.replicate 180223 0).drop o).take n).all (· == 0) = true := by
      obtain ⟨o, rfl⟩ := Nat.exists_eq_succ_of_ne_zero h
      rw [List.drop_succ_cons, List.drop_replicate, List.take_replicate]
      simp
    have hr : ∀ x ∈ imageReserved, x.2.1 ≠ 0 := by decide
    unfold imageFault
    rw [hpt, List.findSome?_eq_none_iff]
    intro x hx
    simp only [List.mem_append, List.mem_map, List.mem_cons, List.not_mem_nil, or_false, c, z 0x07 1 (by decide), z 0x28D0C 4 (by decide),
      z 0x28D15 235 (by decide), z 0x2BF00 256 (by decide), bytesAt_image _ 0x28 1 (by decide), if_true, Nat.zero_le] at hx
    rcases hx with ((h | h) | ⟨y, hy, rfl⟩) | h | h | h | h | h | h
    · exact h
    · exact h
    · dsimp only [id]
      rw [z _ _ (hr y hy), if_pos rfl]
    all_goals exact h
  · have c (q : Nat) : countOf ((1 : Byte) :: List.replicate 180223 0) 0x28D00 q = 0 := bytesAt_image _ _ _ (by omega)
    unfold entryFault
    simp only [List.flatMap_cons, List.flatMap_nil, c, List.range_zero, List.map_nil, List.append_nil]
    rfl

/-- The mapping, and the address of a snapshot of zeros in g2. -/
def snapState : State := handler (regs [(2, 0x204000)] (put 0x200000 [1] mapped))

theorem snap_granules : granules 0x204000 snapBytes = [0x204000] := by decide +kernel

/-- The hypotheses of `qsn.ld` (R335): a snapshot of zeros holds no entry. -/
theorem witness_Context_queues_load : ∃ bs t, let s := snapState
    s.core.hm = true ∧ (s.core.rg 2).toNat % 256 = 0 ∧ s.core.quiet = true ∧
    Does (acc (gRead (s.core.who true 0) (s.core.rg 2).toNat snapBytes)) s bs t ∧
    (∀ k ∈ [1, 2, 3], countOf bs 0 k ≤ 32) ∧ entryFault bs 0 = none := by
  have hv : (snapState.core.rg 2).toNat = 0x204000 := by decide +kernel
  have hk : Kept snapState := by refine ⟨?_, ?_, ?_, ?_, ?_, ?_, ?_, ?_⟩ <;> decide +kernel
  have hm : memRead snapState.mem 0x204000 snapBytes =
      List.replicate snapBytes 0 := memRead_zero _ _ _ (by decide +kernel)
  have hz (o n : Nat) : bytesAt (List.replicate snapBytes 0) o n = 0 := by
    rw [bytesAt, List.drop_replicate, List.take_replicate, leNat_zeros]
  obtain ⟨t, ht, -⟩ := kept_gRead (w := snapState.core.who true 0) (s := snapState) (va := 0x204000) (n := snapBytes) (by decide +kernel)
    (by decide +kernel) (by decide +kernel) hk (by decide +kernel) (by decide) (by decide +kernel)
  rw [snap_granules, List.foldl_cons, List.foldl_nil, List.nil_append,
    show min (0x204000 + snapBytes) ((0x204000 / 16384 + 1) * 16384) - 0x204000 = snapBytes by decide, hm] at ht
  refine ⟨List.replicate snapBytes 0, t, by decide +kernel,
    by decide +kernel, by decide +kernel, ?_, ?_, ?_⟩
  · rw [hv]
    exact acc_runA ht
  · intro k _
    rw [countOf, hz]
    omega
  · unfold entryFault
    simp only [List.flatMap_cons, List.flatMap_nil, countOf, hz, List.range_zero, List.map_nil, List.append_nil]
    rfl

/-- The mapping, and the address of a snapshot whose one byte that is not 0 counts the entries of LQ. -/
def snapCount (v : Byte) : State := handler (regs [(2, 0x204000)] (put 0x204010 [v] mapped))

theorem fillBytes_one (v : Byte) : ∀ m k a, fillBytes (m + k + 1) a [(a + m, v)] = List.replicate m 0 ++ v :: List.replicate k 0 := by
  have hz : ∀ n a, fillBytes n a [] = List.replicate n 0 := by
    intro n
    induction n with
    | zero => intro a; rfl
    | succ n ih => intro a; rw [fillBytes, ih, List.replicate_succ]
  intro m
  induction m with
  | zero => intro k a; rw [Nat.zero_add, fillBytes, if_pos (by rfl), hz]; rfl
  | succ m ih =>
    intro k a
    rw [show m + 1 + k + 1 = (m + k + 1) + 1 by omega, fillBytes, if_neg (by simp), show a + (m + 1) = a + 1 + m by omega, ih]
    rfl

/-- What `qsn.ld` reads there. -/
theorem snapCount_read (v : Byte) (h : v = 33 ∨ v = 1) : ∃ bs,
    (snapCount v).core.hm = true ∧ ((snapCount v).core.rg 2).toNat % 256 = 0 ∧ (snapCount v).core.quiet = true ∧
    (∃ t, Does (acc (gRead ((snapCount v).core.who true 0) ((snapCount v).core.rg 2).toNat snapBytes)) (snapCount v) bs t) ∧
    bs = List.replicate 16 0 ++ v :: List.replicate 12527 0 := by
  refine ⟨_, ?_, ?_, ?_, ?_, rfl⟩
  · rcases h with rfl | rfl <;> decide +kernel
  · rcases h with rfl | rfl <;> decide +kernel
  · rcases h with rfl | rfl <;> decide +kernel
  have hv : ((snapCount v).core.rg 2).toNat = 0x204000 := by rcases h with rfl | rfl <;> decide +kernel
  have hk : Kept (snapCount v) := by
    refine ⟨?_, ?_, ?_, ?_, ?_, ?_, ?_, ?_⟩ <;> rcases h with rfl | rfl <;> decide +kernel
  have hf : (snapCount v).mem.filter (fun c => 0x204000 ≤ c.1 && c.1 < 0x204000 + snapBytes) = [(0x204000 + 16, v)] := by
    rcases h with rfl | rfl <;> decide +kernel
  have hm : memRead (snapCount v).mem 0x204000 snapBytes = List.replicate 16 0 ++ v :: List.replicate 12527 0 := by
    unfold memRead
    rw [hf]
    exact fillBytes_one v 16 12527 0x204000
  obtain ⟨t, ht, -⟩ := kept_gRead (w := (snapCount v).core.who true 0) (s := snapCount v) (va := 0x204000) (n := snapBytes)
    (by rcases h with rfl | rfl <;> decide +kernel) (by rcases h with rfl | rfl <;> decide +kernel)
    (by rcases h with rfl | rfl <;> decide +kernel) hk (by rcases h with rfl | rfl <;> decide +kernel) (by decide) (by decide +kernel)
  rw [snap_granules, List.foldl_cons, List.foldl_nil, List.nil_append,
    show min (0x204000 + snapBytes) ((0x204000 / 16384 + 1) * 16384) - 0x204000 = snapBytes by decide, hm] at ht
  rw [hv]
  exact ⟨t, acc_runA ht⟩

/-- A snapshot that counts 33 entries of LQ. -/
theorem witness_Context_queues_count : ∃ bs t, let s := snapCount 33
    s.core.hm = true ∧ (s.core.rg 2).toNat % 256 = 0 ∧ s.core.quiet = true ∧
    Does (acc (gRead (s.core.who true 0) (s.core.rg 2).toNat snapBytes)) s bs t ∧
    32 < countOf bs 0 1 ∧ ∀ j ∈ [1, 2, 3], j < 1 → countOf bs 0 j ≤ 32 := by
  obtain ⟨bs, h1, h2, h3, ⟨t, h4⟩, rfl⟩ := snapCount_read 33 (.inl rfl)
  refine ⟨_, _, h1, h2, h3, h4, by decide +kernel, ?_⟩
  intro j hj h
  simp at hj; omega

/-- A snapshot of one entry of LQ, of zeros: `add g0, g0, g0` is no instruction of LQ. -/
theorem witness_Context_queues_entry : ∃ bs t, let s := snapCount 1
    s.core.hm = true ∧ (s.core.rg 2).toNat % 256 = 0 ∧ s.core.quiet = true ∧
    Does (acc (gRead (s.core.who true 0) (s.core.rg 2).toNat snapBytes)) s bs t ∧
    (∀ k ∈ [1, 2, 3], countOf bs 0 k ≤ 32) ∧ entryFault bs 0 = some 256 := by
  obtain ⟨bs, h1, h2, h3, ⟨t, h4⟩, rfl⟩ := snapCount_read 1 (.inr rfl)
  exact ⟨_, _, h1, h2, h3, h4, by decide +kernel, by decide +kernel⟩

/-- A saved task of kind 0 whose image is that of `imaged`. -/
def savedTask : Saved := ⟨0, 0x40, 0, 0, 0, 7, [⟨{ Core.reset 0 with ctx := 7 }, 0x200000⟩], false, false⟩
def savedState : State := { imaged with saved := [savedTask] }

theorem imaged_fwRead (s : State) (h : s.mem = imaged.mem) (hw : physPieces s 0 .r 0x200000 coreBytes =
    some ((granules 0x200000 coreBytes).map fun a => (a, 16384))) :
    fwRead s 0 0x200000 coreBytes = some ((1 : Byte) :: List.replicate 180223 0) := by
  obtain ⟨l, hl, hn, -⟩ := imaged_bytes
  have hz : ∀ a ∈ l, memRead imaged.mem a 16384 = List.replicate 16384 0 := fun a ha => imaged_read a (by rw [hl]; exact ha)
  have hf : ∀ l : List Nat, (∀ a ∈ l, memRead imaged.mem a 16384 = List.replicate 16384 0) →
      (l.map fun a => (a, 16384)).flatMap (fun r => memRead imaged.mem r.1 r.2) = List.replicate (16384 * l.length) 0 := by
    intro l
    induction l with
    | nil => intro _; simp
    | cons a l ih =>
      intro h
      rw [List.map_cons, List.flatMap_cons, ih (fun x hx => h x (by simp [hx])), h a (by simp),
        List.replicate_append_replicate, List.length_cons]
      congr 1; ring
  have hb : ∀ r ∈ (granules 0x200000 coreBytes).map fun a => (a, 16384), s.unitBytes r.1 r.2 = memRead imaged.mem r.1 r.2 := by
    have : ∀ r ∈ (granules 0x200000 coreBytes).map fun a => (a, 16384), isPeer r.1 = false ∧ isHost r.1 = false := by decide +kernel
    intro r hr
    obtain ⟨h1, h2⟩ := this r hr
    simp [State.unitBytes, State.ownBytes, State.physBytes, h1, h2, h]
  unfold fwRead
  rw [hw, Option.map_some, List.flatMap_congr hb, hl, List.map_cons, List.flatMap_cons, imaged_first, hf l hz, hn, List.cons_append,
    List.replicate_append_replicate]

/-- A member whose image holds no entry and no bank comes back. -/
theorem restoreMember_some (v : Saved) (m : SavedMember) (id : BitVec 11) (s : State) (bs : List Byte)
    (hf : fwRead s v.part m.addr.toNat coreBytes = some bs) (hb : bytesAt bs 4 2 = 0)
    (hq : ∀ q, countOf bs 0x28D00 q = 0) : (restoreMember v m id s).isSome = true := by
  have hl (p : BitVec 5) (a : Nat) (id : BitVec 11) (s : State) : loadBanks p a 0 id s = some (zeroBanks id s) := by
    simp [loadBanks, List.range, List.range.loop]
  have he (num : Nat) (c : Core) (d : Option Core) : ∃ x, queuesFrom bs 0x28D00 num true d c = some x := by
    simp [queuesFrom, hq, entriesFrom]
  unfold restoreMember
  simp only [hf, hb, hl, Option.bind_eq_bind, Option.bind_some]
  obtain ⟨x, hx⟩ := he (zeroBanks id (bindCore id ⟨v.record, v.origin, v.ctx, m.core.teamid.toNat, m.core.teamsz.toNat,
    v.inst.toNat⟩ s)).nextNum (regsFrom bs ((bindCore id ⟨v.record, v.origin, v.ctx, m.core.teamid.toNat,
    m.core.teamsz.toNat, v.inst.toNat⟩ s).findCore id)) (some m.core)
  rw [hx]
  rfl

/-- The hypotheses of CONTEXT_RESUME (R330): the saved task comes back onto core 5. -/
theorem witness_Task_resume : ∃ t, savedState.saved[0]? = some savedTask ∧ savedTask.yielded = false ∧
    resumeCores savedTask 5 savedState = some [5] ∧
    restoreAll savedTask savedTask.members [5]
      { savedState with saved := savedState.saved.filter fun x => !(x.ctx == savedTask.ctx && x.inst == savedTask.inst) } = some t := by
  obtain ⟨t, ht⟩ := Option.isSome_iff_exists.mp <| restoreMember_some savedTask ⟨{ Core.reset 0 with ctx := 7 }, 0x200000⟩ 5
    { savedState with saved := savedState.saved.filter fun x => !(x.ctx == savedTask.ctx && x.inst == savedTask.inst) } _
    (imaged_fwRead _ rfl (by decide +kernel)) (bytesAt_image _ _ _ (by decide)) (fun q => bytesAt_image _ _ _ (by omega))
  refine ⟨t, by decide +kernel, by decide +kernel, by decide +kernel, ?_⟩
  show (restoreMember _ _ _ _).bind _ = _
  rw [ht]
  rfl

/-- A deterministic task about to end, whose join counter stands at 0x2000. -/
def ending : State :=
  { core (fun c => { c with ctx := 7, det := true, record := 0x2000 * 2 ^ 128 + 2 ^ 207 }) (put8 0x2000 5 mapped) with
    ctxs := [⟨7, 0, 1, false, false⟩] }

theorem checkJoin_ok {w : Who} {v : Dword} {s t : State} {bs : List Byte} (ha : v.toNat % 16 = 0)
    (h2 : acc (gProbe w .w v.toNat 16) s = .ok ((), s)) (h1 : acc (gRead w.untagged.exclusive v.toNat 16) s = .ok (bs, t))
    (hn : (fld (dw (bytesAt bs 0 8)) 0 32 != 0) = true) : checkJoin w v s = .ok ((), t) := by
  simp only [checkJoin, joinRead, run_bind, run_need, ha, decide_true, if_true, h1, h2, run_pure, hn]

/-- The hypotheses of a deferred decrement (R148, R195). -/
theorem witness_TaskEnds_deferred : ∃ u, ending.core.quiet = true ∧ ending.core.ctx ≠ 0 ∧ ending.core.det = true ∧
    ending.ctxs.find? (fun y => y.ctx == ending.core.ctx) = some ⟨7, 0, 1, false, false⟩ ∧
    ending.core.record.toNat / 2 ^ 128 % 2 ^ 64 = 0x2000 ∧
    checkJoin (ending.core.who true 3) (wrapN 0x2000) ending = .ok ((), u) ∧ u = { ending with cache := u.cache } := by
  have hk : Kept ending := by refine ⟨?_, ?_, ?_, ?_, ?_, ?_, ?_, ?_⟩ <;> decide +kernel
  have hg : granules 0x2000 16 = [0x2000] := by decide +kernel
  have hm : memRead ending.mem 0x2000 16 = leBytes 8 5 ++ leBytes 8 0 := by decide +kernel
  obtain ⟨u, hu, he⟩ := kept_gRead (w := (ending.core.who true 3).untagged.exclusive) (s := ending) (va := 0x2000) (n := 16)
    (by decide +kernel) (by decide +kernel) (by decide +kernel) hk (by decide +kernel) (by decide) (by decide +kernel)
  rw [hg, List.foldl_cons, List.foldl_nil, List.nil_append,
    show min (0x2000 + 16) ((0x2000 / 16384 + 1) * 16384) - 0x2000 = 16 by decide, hm] at hu
  refine ⟨u, by decide +kernel, by decide +kernel, by decide +kernel, by decide +kernel, by decide +kernel, ?_, he⟩
  obtain ⟨l, hlk, -, -, hgw, hl⟩ := kept_lookup (w := ending.core.who true 3) hk (by decide +kernel) (by decide +kernel)
    (a := 0x2000) (by decide)
  have h2 : acc (gProbe (ending.core.who true 3) .w 0x2000 16) ending = .ok ((), ending) := by
    apply acc_runA
    unfold gProbe
    rw [hg, if_neg (by decide), List.foldlM_cons, runA_bind, runA_bind, runA_transl hlk hgw hl]
    simp only [runA_bind, runA_get, hk.2.2.2.2.1, List.any_nil, Bool.and_false, Bool.false_eq_true, if_false, List.foldlM_nil]
    rfl
  have ha : (wrapN 0x2000).toNat = 0x2000 := by decide
  exact checkJoin_ok (by rw [ha]) (by rw [ha]; exact h2) (by rw [ha]; exact acc_runA hu) (by decide)

end Sys2Proof.Tests
end

section
/-!
PROOFS. Every step keeps the canonical form of the memories (O8).

Each function of the model that answers a state has one lemma here, which says that it keeps the form: `Steady` of an update,
`SteadyO` and `SteadyV` of one that may fail, `Keeps` of a program, `KeepsA` of an access, `LandsOn` of an instruction's
meaning. The rules below say how each way of making a state keeps it: a record update that leaves the three memories or writes
one by `memWrite` or `memZero`, a fold, a branch, the words of the monads. A proof follows the function's own branches by these
rules and closes each call by the callee's lemma; `.auto` is that walk. The rules are tried with reducible transparency, so that a
call is never looked into.
-/
namespace Sys2Proof
open Host (Cell)
open Machine
set_option Elab.async false

/-! ## What keeps the canonical form -/

/-- An update of the state keeps the canonical form of the memories. -/
def Steady (f : State → State) : Prop := ∀ s, MemoryOk s → MemoryOk (f s)
/-- A computation keeps the form where it completes. -/
def Keeps {α : Type} (m : M α) : Prop := ∀ s, MemoryOk s → ∀ a t, m s = .ok (a, t) → MemoryOk t
/-- An access keeps the form where it is answered, and where it is refused. -/
def KeepsA {α : Type} (m : A α) : Prop := ∀ s, MemoryOk s → ∀ r t, runA m s = .ok (r, t) → MemoryOk t
/-- The state of an answer, where there is one, has the form. -/
def Yields {α : Type} (π : α → State) (o : Option α) : Prop := ∀ a, o = some a → MemoryOk (π a)
/-- An update that may fail keeps the form where it answers. -/
def SteadyO (f : State → Option State) : Prop := ∀ s, MemoryOk s → Yields (fun t => t) (f s)
/-- An update that answers a value beside the state, and may fail, keeps the form where it answers. -/
def SteadyV {α : Type} (f : State → Option (α × State)) : Prop := ∀ s, MemoryOk s → Yields (fun p => p.2) (f s)
/-- A push keeps the form, whatever it finds (R141). -/
def SteadyP (f : State → PushRes) : Prop :=
  ∀ s, MemoryOk s → (∀ t n, f s = .done t n → MemoryOk t) ∧ (∀ t, f s = .untranslated t → MemoryOk t)

/-- The form, of the three memories themselves. -/
def Formed (mem bank code : List Cell) : Prop := memWf mem = true ∧ memWf bank = true ∧ memWf code = true

theorem MemoryOk.of_formed {s : State} (h : Formed s.mem s.bank s.code) : MemoryOk s := h
theorem MemoryOk.formed {s : State} (h : MemoryOk s) : Formed s.mem s.bank s.code := h
section
variable {m b c : List Cell} (h : Formed m b c)
include h
theorem Formed.mem_write {a : Nat} {bs : List Byte} : Formed (memWrite m a bs) b c := ⟨memWf_memWrite _ _ _ h.1, h.2⟩
theorem Formed.bank_write {a : Nat} {bs : List Byte} : Formed m (memWrite b a bs) c :=
  ⟨h.1, memWf_memWrite _ _ _ h.2.1, h.2.2⟩
theorem Formed.code_write {a : Nat} {bs : List Byte} : Formed m b (memWrite c a bs) :=
  ⟨h.1, h.2.1, memWf_memWrite _ _ _ h.2.2⟩
theorem Formed.bank_zero {a n : Nat} : Formed m (memZero b a n) c := ⟨h.1, memWf_memZero _ _ _ h.2.1, h.2.2⟩
/-- Bytes written to a bank in pieces (R162). -/
theorem Formed.bank_pieces {α : Type} {f : List Cell × List Byte → α → Nat} {g k : List Cell × List Byte → α → List Byte}
    {l : List α} {bs : List Byte} :
    Formed m (l.foldl (fun p a => (memWrite p.1 (f p a) (g p a), k p a)) (b, bs)).1 c := by
  induction l generalizing b bs with
  | nil => exact h
  | cons a l ih => exact ih h.bank_write
end

theorem Steady.app {f : State → State} {s : State} (h : Steady f) (h' : MemoryOk s) : MemoryOk (f s) := h s h'
theorem MemoryOk.ite {c : Prop} {_ : Decidable c} {s t : State} (h : MemoryOk s) (h' : MemoryOk t) :
    MemoryOk (if c then s else t) := by split <;> assumption
theorem MemoryOk.ite_fst {α : Type} {c : Prop} {_ : Decidable c} {p q : State × α} (h : MemoryOk p.1) (h' : MemoryOk q.1) :
    MemoryOk (if c then p else q).1 := by split <;> assumption
theorem MemoryOk.ite_snd {α : Type} {c : Prop} {_ : Decidable c} {p q : α × State} (h : MemoryOk p.2) (h' : MemoryOk q.2) :
    MemoryOk (if c then p else q).2 := by split <;> assumption
theorem MemoryOk.ite_snd_snd {α β : Type} {c : Prop} {_ : Decidable c} {p q : α × β × State} (h : MemoryOk p.2.2)
    (h' : MemoryOk q.2.2) : MemoryOk (if c then p else q).2.2 := by split <;> assumption
/-- A fold that carries a state beside other values. -/
theorem MemoryOk.foldl_of {α β : Type} (π : β → State) {f : β → α → β} {l : List α} {b : β} (h : MemoryOk (π b))
    (hf : ∀ b a, MemoryOk (π b) → MemoryOk (π (f b a))) : MemoryOk (π (l.foldl f b)) := by
  induction l generalizing b with
  | nil => exact h
  | cons a l ih => exact ih (hf b a h)
theorem MemoryOk.foldl {α : Type} {f : State → α → State} {l : List α} {s : State} (h : MemoryOk s)
    (hf : ∀ s a, MemoryOk s → MemoryOk (f s a)) : MemoryOk (l.foldl f s) := .foldl_of (fun s => s) h hf
theorem Steady.fst {α : Type} {f : State → State × α} {s : State} (h : Steady fun s => (f s).1) (h' : MemoryOk s) :
    MemoryOk (f s).1 := h s h'
theorem Steady.snd {α : Type} {f : State → α × State} {s : State} (h : Steady fun s => (f s).2) (h' : MemoryOk s) :
    MemoryOk (f s).2 := h s h'
theorem MemoryOk.foldl_fst {α β : Type} {f : State × β → α → State × β} {l : List α} {p : State × β} (h : MemoryOk p.1)
    (hf : ∀ p a, MemoryOk p.1 → MemoryOk (f p a).1) : MemoryOk (l.foldl f p).1 :=
  .foldl_of (fun p : State × β => p.1) h hf
theorem MemoryOk.foldl_snd {α β : Type} {f : β × State → α → β × State} {l : List α} {p : β × State} (h : MemoryOk p.2)
    (hf : ∀ p a, MemoryOk p.2 → MemoryOk (f p a).2) : MemoryOk (l.foldl f p).2 :=
  .foldl_of (fun p : β × State => p.2) h hf
theorem MemoryOk.foldl_snd_fst {α β γ : Type} {f : β × State × γ → α → β × State × γ} {l : List α} {p : β × State × γ}
    (h : MemoryOk p.2.1) (hf : ∀ p a, MemoryOk p.2.1 → MemoryOk (f p a).2.1) : MemoryOk (l.foldl f p).2.1 :=
  .foldl_of (fun p : β × State × γ => p.2.1) h hf
theorem MemoryOk.foldl_snd_snd {α β γ : Type} {f : β × γ × State → α → β × γ × State} {l : List α} {p : β × γ × State}
    (h : MemoryOk p.2.2) (hf : ∀ p a, MemoryOk p.2.2 → MemoryOk (f p a).2.2) : MemoryOk (l.foldl f p).2.2 :=
  .foldl_of (fun p : β × γ × State => p.2.2) h hf
theorem Steady.snd_snd {α β : Type} {f : State → α × β × State} {s : State} (h : Steady fun s => (f s).2.2)
    (h' : MemoryOk s) : MemoryOk (f s).2.2 := h s h'
theorem Steady.snd_snd_snd {α β γ : Type} {f : State → α × β × γ × State} {s : State} (h : Steady fun s => (f s).2.2.2)
    (h' : MemoryOk s) : MemoryOk (f s).2.2.2 := h s h'
theorem MemoryOk.onReg {s : State} (h : MemoryOk s) {a n old off : Nat} {bs : List Byte} {f : Nat → State → State}
    (hf : ∀ v t, MemoryOk t → MemoryOk (f v t)) : MemoryOk (onReg a n old off bs f s) := by
  unfold Machine.onReg
  split
  · exact hf _ _ h
  · exact h
theorem MemoryOk.getD {o : Option State} {s : State} (h : MemoryOk s) (ho : Yields (fun t => t) o) : MemoryOk (o.getD s) := by
  cases o with
  | none => exact h
  | some t => exact ho t rfl
theorem Yields.get {α : Type} {π : α → State} {o : Option α} {a : α} (e : o = some a) (h : Yields π o) : MemoryOk (π a) :=
  h a e
theorem Yields.getD {α : Type} {π : α → State} {o : Option α} {a : α} (h : Yields π o) (ha : MemoryOk (π a)) :
    MemoryOk (π (o.getD a)) := by
  cases o with
  | none => exact ha
  | some t => exact h t rfl
theorem Keeps.ok {α : Type} {m : M α} {s t : State} {a : α} (e : m s = .ok (a, t)) (h : Keeps m) (h' : MemoryOk s) :
    MemoryOk t := h s h' a t e
theorem SteadyO.app {f : State → Option State} {s : State} (h : SteadyO f) (h' : MemoryOk s) : Yields (fun t => t) (f s) :=
  h s h'
theorem SteadyO.some {f : State → Option State} {s t : State} (e : f s = .some t) (h : SteadyO f) (h' : MemoryOk s) :
    MemoryOk t := h s h' t e
theorem SteadyV.some {α : Type} {f : State → Option (α × State)} {s t : State} {a : α} (e : f s = .some (a, t))
    (h : SteadyV f) (h' : MemoryOk s) : MemoryOk t := h s h' (a, t) e
theorem SteadyV.some_snd {α : Type} {f : State → Option (α × State)} {s : State} {p : α × State} (e : f s = .some p)
    (h : SteadyV f) (h' : MemoryOk s) : MemoryOk p.2 := h s h' p e
theorem Steady.eq_snd {α : Type} {f : State → α × State} {s t : State} {a : α} (e : f s = (a, t))
    (h : Steady fun s => (f s).2) (h' : MemoryOk s) : MemoryOk t := by
  have ht := h s h'; simp only [e] at ht; exact ht
theorem KeepsA.ok {α : Type} {m : A α} {s t : State} {r : Except AccErr α} (e : ExceptT.run m s = .ok (r, t)) (h : KeepsA m)
    (h' : MemoryOk s) : MemoryOk t := h s h' r t e
theorem SteadyP.done {f : State → PushRes} {s t : State} {n : BitVec 32} (e : f s = .done t n) (h : SteadyP f)
    (h' : MemoryOk s) : MemoryOk t := (h s h').1 t n e
theorem SteadyP.untranslated {f : State → PushRes} {s t : State} (e : f s = .untranslated t) (h : SteadyP f)
    (h' : MemoryOk s) : MemoryOk t := (h s h').2 t e

theorem MemoryOk.setPart {s : State} (h : MemoryOk s) {p : BitVec 5} {f : Part → Part} : MemoryOk (s.setPart p f) := h
theorem MemoryOk.modCq {s : State} (h : MemoryOk s) {q : Nat} {f : Cq → Cq} : MemoryOk (s.modCq q f) := h
theorem MemoryOk.modLink {s : State} (h : MemoryOk s) {k : Bool} {f : Link → Link} : MemoryOk (s.modLink k f) := h
theorem MemoryOk.putCore {s : State} (h : MemoryOk s) {c : Core} : MemoryOk (s.putCore c) := by
  unfold State.putCore; split <;> exact h
theorem MemoryOk.focus {s : State} (h : MemoryOk s) {id : BitVec 11} : MemoryOk (s.focus id) := by
  unfold State.focus; split <;> exact h

theorem MemoryOk.modChan {s : State} (h : MemoryOk s) {k : Nat} {f : Channel → Channel} : MemoryOk (s.modChan k f) := h
theorem MemoryOk.retireStores {s : State} (h : MemoryOk s) {u : Nat} : MemoryOk (s.retireStores u) := h
theorem MemoryOk.modRq {s : State} (h : MemoryOk s) {n : Nat} {f : ReqRing → ReqRing} : MemoryOk (s.modRq n f) := h
theorem MemoryOk.modEth {s : State} (h : MemoryOk s) {p : Nat} {f : EthPort → EthPort} : MemoryOk (s.modEth p f) := h
theorem MemoryOk.modText {s : State} (h : MemoryOk s) {dtk : Bool} {e : Nat} {f : TextEng → TextEng} :
    MemoryOk (s.modText dtk e f) := by unfold State.modText; split <;> exact h

/-! ## Stores (R226, R234) -/

@[simp] theorem steady_fireWatches (a n by') : Steady (fireWatches a n by') := fun _ h => h
@[simp] theorem steady_physWrite (a bs by') : Steady (physWrite a bs by') := fun _ h => h.formed.mem_write
@[simp] theorem steady_sendNow (go k) : Steady (sendNow go k) := by
  intro s h; unfold sendNow; exact .ite h.modLink h
@[simp] theorem steady_noteRemote (w pa bs) : Steady (noteRemote w pa bs) := fun _ h => steady_sendNow _ _ _ h
@[simp] theorem steady_noteFar (w pa bs) : Steady (noteFar w pa bs) := by
  intro s h
  unfold noteFar
  exact .ite h (.ite h (.ite (.foldl h fun _ _ hs => steady_noteRemote _ _ _ _ hs) h))
@[simp] theorem steady_physStore (w pa bs) : Steady (physStore w pa bs) := by
  intro s h; unfold physStore; exact steady_noteFar _ _ _ _ (.ite h (steady_physWrite _ _ _ _ h))
theorem yields_unitPut {put : Nat → List Byte → State → State} (hp : ∀ a bs, Steady (put a bs)) (w) {s : State}
    (h : MemoryOk s) (va bs) : Yields (fun t => t) (unitPut put w s va bs) := by
  intro t e
  obtain ⟨l, -, rfl⟩ := Option.map_eq_some_iff.1 e
  exact .foldl_fst h fun _ _ hs => hp _ _ _ hs
theorem yields_unitWrite {s : State} (h : MemoryOk s) {w va bs} : Yields (fun t => t) (unitWrite w s va bs) :=
  yields_unitPut (steady_physStore w) w h va bs
theorem yields_fwWrite {s : State} (h : MemoryOk s) {p va bs} : Yields (fun t => t) (fwWrite s p va bs) := yields_unitWrite h
theorem MemoryOk.unitWrite {w va bs} {s t : State} (e : unitWrite w s va bs = some t) (h : MemoryOk s) : MemoryOk t :=
  yields_unitWrite h t e
theorem MemoryOk.fwWrite {p va bs} {s t : State} (e : fwWrite s p va bs = some t) (h : MemoryOk s) : MemoryOk t :=
  yields_fwWrite h t e

/-! ## The proofs branch by branch -/

/-- An update keeps the form, branch by branch. -/
theorem MemoryOk.auto {s : State} (h : MemoryOk s := by
  repeat' with_reducible first
    | assumption
    | refine MemoryOk.ite ?_ ?_
    | refine MemoryOk.foldl ?_ fun _ _ _ => ?_
    | refine MemoryOk.foldl_fst ?_ fun _ _ _ => ?_
    | refine MemoryOk.foldl_snd ?_ fun _ _ _ => ?_
    | refine MemoryOk.ite_fst ?_ ?_
    | refine MemoryOk.ite_snd ?_ ?_
    | refine MemoryOk.ite_snd_snd ?_ ?_
    | (refine MemoryOk.getD ?_ (SteadyO.app ?_ ?_); on_goal 2 => (simp; done))
    | refine MemoryOk.foldl_snd_fst ?_ fun _ _ _ => ?_
    | refine MemoryOk.foldl_snd_snd ?_ fun _ _ _ => ?_
    | refine MemoryOk.onReg ?_ fun _ _ _ => ?_
    | refine MemoryOk.setPart ?_
    | refine MemoryOk.modCq ?_
    | refine MemoryOk.modLink ?_
    | refine MemoryOk.modChan ?_
    | refine MemoryOk.modRq ?_
    | refine MemoryOk.modEth ?_
    | refine MemoryOk.modText ?_
    | refine MemoryOk.retireStores ?_
    | refine MemoryOk.putCore ?_
    | refine MemoryOk.focus ?_
    | (refine Steady.app ?_ ?_; focus (simp; done))
    | (refine MemoryOk.of_formed ?_; dsimp only; first
        | refine MemoryOk.formed ?_
        | refine Formed.mem_write (MemoryOk.formed ?_)
        | refine Formed.bank_write (MemoryOk.formed ?_)
        | refine Formed.bank_zero (MemoryOk.formed ?_)
        | refine Formed.code_write (MemoryOk.formed ?_)
        | refine Formed.bank_pieces (MemoryOk.formed ?_))
    | dsimp only
    | split
    | (refine Steady.fst ?_ ?_; focus (simp; done))
    | (refine Steady.snd ?_ ?_; focus (simp; done))
    | (refine Steady.snd_snd ?_ ?_; focus (simp; done))
    | (refine Steady.snd_snd_snd ?_ ?_; focus (simp; done))
    | (refine Keeps.ok (by assumption) ?_ ?_; focus (simp; done))
    | (refine KeepsA.ok (by assumption) ?_ ?_; focus (simp; done))
    | (refine SteadyO.some (by assumption) ?_ ?_; focus (simp; done))
    | (refine SteadyV.some (by assumption) ?_ ?_; focus (simp; done))
    | (refine SteadyV.some_snd (by assumption) ?_ ?_; focus (simp; done))
    | (refine Steady.eq_snd (by assumption) ?_ ?_; focus (simp; done))
    | (refine SteadyP.done (by assumption) ?_ ?_; focus (simp; done))
    | (refine SteadyP.untranslated (by assumption) ?_ ?_; focus (simp; done))
    | refine MemoryOk.unitWrite (by assumption) ?_
    | refine MemoryOk.fwWrite (by assumption) ?_
    | (refine Steady.app ?_ ?_; focus (simp [*]; done))) : MemoryOk s := h
theorem Steady.auto {f : State → State} (h : ∀ s, MemoryOk s → MemoryOk (f s) := by exact fun s h => .auto) : Steady f := h

/-! ## An answer that may be missing -/

theorem Yields.none {α : Type} {π : α → State} : Yields π none := nofun
theorem Yields.some {α : Type} {π : α → State} {a : α} (h : MemoryOk (π a)) : Yields π (some a) := by rintro _ ⟨⟩; exact h
theorem Yields.pure {α : Type} {π : α → State} {a : α} (h : MemoryOk (π a)) : Yields π (Pure.pure a) := .some h
theorem Yields.map {α β : Type} {π : β → State} {f : α → β} {o : Option α} (h : ∀ a, o = .some a → MemoryOk (π (f a))) :
    Yields π (o.map f) := by
  cases o with
  | none => exact .none
  | some a => exact .some (h a rfl)
theorem Yields.bind {α β : Type} {π : β → State} {f : α → Option β} {o : Option α} (h : ∀ a, o = .some a → Yields π (f a)) :
    Yields π (o.bind f) := by
  cases o with
  | none => exact .none
  | some a => exact h a rfl
theorem Yields.seq {α β : Type} {π : β → State} {f : α → Option β} {o : Option α} (h : ∀ a, o = .some a → Yields π (f a)) :
    Yields π (o >>= f) := .bind h
theorem Yields.foldlM {α : Type} {f : State → α → Option State} {l : List α} {s : State} (h : MemoryOk s)
    (hf : ∀ s a, MemoryOk s → Yields (fun t => t) (f s a)) : Yields (fun t => t) (l.foldlM f s) := by
  induction l generalizing s with
  | nil => exact .some h
  | cons a l ih => exact .bind fun t e => ih (hf s a h t e)
theorem Yields.ite {α : Type} {π : α → State} {c : Prop} {_ : Decidable c} {o p : Option α} (h : Yields π o) (h' : Yields π p) :
    Yields π (if c then o else p) := by split <;> assumption

/-- An answer keeps the form, branch by branch. -/
theorem Yields.auto {α : Type} {π : α → State} {o : Option α} (h : Yields π o := by
  repeat' with_reducible first
    | exact Yields.none
    | refine Yields.some .auto
    | refine Yields.ite ?_ ?_
    | refine Yields.map fun _ _ => .auto
    | refine Yields.foldlM .auto fun _ _ _ => ?_
    | refine Yields.pure .auto
    | (refine SteadyO.app ?_ ?_; (focus first | assumption | (simp; done)); exact .auto)
    | refine yields_unitWrite .auto
    | refine yields_fwWrite .auto
    | refine Yields.bind fun _ _ => ?_
    | refine Yields.seq fun _ _ => ?_
    | dsimp only
    | split) : Yields π o := h
theorem SteadyO.auto {f : State → Option State} (h : ∀ s, MemoryOk s → Yields (fun t => t) (f s) := by
    exact fun s h => .auto) : SteadyO f := h

theorem SteadyV.auto {α : Type} {f : State → Option (α × State)} (h : ∀ s, MemoryOk s → Yields (fun p => p.2) (f s) := by
    exact fun s h => .auto) : SteadyV f := h

/-! ## The rules of the monads -/

@[simp] theorem keeps_pure {α : Type} (a : α) : Keeps (pure a : M α) := by rintro s h _ _ ⟨⟩; exact h
@[simp] theorem keeps_getC : Keeps getC := by rintro s h _ _ ⟨⟩; exact h
@[simp] theorem keeps_stopWith {α : Type} (x : Stop) : Keeps (stopWith x : M α) := by rintro s h _ _ ⟨⟩
@[simp] theorem keeps_modC (f : Core → Core) : Keeps (modC f) := by rintro s h _ _ ⟨⟩; exact h
theorem Keeps.set {t : State} (h : MemoryOk t) : Keeps (set t : M PUnit) := by rintro s _ _ _ ⟨⟩; exact h
theorem Keeps.modify {f : State → State} (h : Steady f) : Keeps (modify f : M PUnit) := by rintro s hs _ _ ⟨⟩; exact h s hs
theorem Keeps.modS {f : State → State} (h : Steady f) : Keeps (modS f) := Keeps.modify h
theorem Keeps.bind {α β : Type} {m : M α} {f : α → M β} (hm : Keeps m) (hf : ∀ a, Keeps (f a)) : Keeps (m >>= f) := by
  intro s h b t e
  rw [run_bind] at e
  cases hr : m s with
  | error x => simp [hr] at e
  | ok p => rw [hr] at e; exact hf p.1 p.2 (hm s h _ _ hr) _ _ e
/-- The state that a program reads has the form. -/
theorem Keeps.get_bind {α : Type} {f : State → M α} (h : ∀ s, MemoryOk s → Keeps (f s)) : Keeps (get >>= f) :=
  fun s hs a t e => h s hs s hs a t e
theorem Keeps.map {α β : Type} {f : α → β} {m : M α} (hm : Keeps m) : Keeps (f <$> m) := by
  intro s h b t e
  rw [run_map] at e
  cases hr : m s with
  | error x => simp [hr] at e
  | ok p => simp only [hr, Except.ok.injEq, Prod.mk.injEq] at e; exact e.2 ▸ hm s h _ _ hr
theorem Keeps.ite {α : Type} {c : Prop} {_ : Decidable c} {m n : M α} (hm : Keeps m) (hn : Keeps n) :
    Keeps (if c then m else n) := by split <;> assumption
theorem Keeps.iff' {b : Bool} {m : M Unit} (hm : Keeps m) : Keeps (iff' b m) := .ite hm (keeps_pure ())
theorem Keeps.foldlM {α β : Type} {f : β → α → M β} {l : List α} {b : β} (hf : ∀ b a, Keeps (f b a)) :
    Keeps (l.foldlM f b) := by
  induction l generalizing b with
  | nil => exact keeps_pure b
  | cons a l ih => rw [List.foldlM_cons]; exact .bind (hf b a) fun _ => ih
theorem Keeps.mapM {α β : Type} {f : α → M β} {l : List α} (hf : ∀ a, Keeps (f a)) : Keeps (l.mapM f) := by
  induction l with
  | nil => exact keeps_pure _
  | cons a l ih => rw [List.mapM_cons]; exact .bind (hf a) fun _ => .bind ih fun _ => keeps_pure _
theorem Keeps.flatMapM {α β : Type} {f : α → M (List β)} {l : List α} (hf : ∀ a, Keeps (f a)) : Keeps (l.flatMapM f) := by
  have hl (bs) : Keeps (List.flatMapM.loop f l bs) := by
    induction l generalizing bs with
    | nil => exact keeps_pure _
    | cons a l ih => exact .bind (hf a) fun b => ih (b :: bs)
  exact hl []
theorem Keeps.each {α : Type} {l : List α} {f : α → M Unit} (hf : ∀ a, Keeps (f a)) : Keeps (each l f) :=
  .foldlM fun _ => hf

@[simp] theorem keepsA_pure {α : Type} (a : α) : KeepsA (pure a : A α) := by rintro s h _ _ ⟨⟩; exact h
@[simp] theorem keepsA_throw {α : Type} (e : AccErr) : KeepsA (throw e : A α) := by rintro s h _ _ ⟨⟩; exact h
theorem KeepsA.set {t : State} (h : MemoryOk t) : KeepsA (set t : A PUnit) := by rintro s _ _ _ ⟨⟩; exact h
theorem KeepsA.modify {f : State → State} (h : Steady f) : KeepsA (modify f : A PUnit) := by
  rintro s hs _ _ ⟨⟩; exact h s hs
theorem KeepsA.lift {α : Type} {m : M α} (hm : Keeps m) : KeepsA (liftM m : A α) := by
  intro s h r t e
  rw [runA_lift] at e
  cases hr : m s with
  | error x => simp [hr] at e
  | ok p => simp only [hr, Except.ok.injEq, Prod.mk.injEq] at e; exact e.2 ▸ hm s h _ _ hr
theorem KeepsA.bind {α β : Type} {m : A α} {f : α → A β} (hm : KeepsA m) (hf : ∀ a, KeepsA (f a)) : KeepsA (m >>= f) := by
  intro s h b t e
  rw [runA_bind] at e
  cases hr : runA m s with
  | error x => simp [hr] at e
  | ok p =>
    obtain ⟨r, u⟩ := p
    have hu := hm s h r u hr
    cases r with
    | error x => simp only [hr, Except.ok.injEq, Prod.mk.injEq] at e; exact e.2 ▸ hu
    | ok a => rw [hr] at e; exact hf a u hu _ _ e
theorem KeepsA.get_bind {α : Type} {f : State → A α} (h : ∀ s, MemoryOk s → KeepsA (f s)) : KeepsA (get >>= f) :=
  fun s hs a t e => h s hs s hs a t e
theorem KeepsA.map {α β : Type} {f : α → β} {m : A α} (hm : KeepsA m) : KeepsA (f <$> m) := by
  rw [← bind_pure_comp]; exact .bind hm fun _ => keepsA_pure _
theorem KeepsA.ite {α : Type} {c : Prop} {_ : Decidable c} {m n : A α} (hm : KeepsA m) (hn : KeepsA n) :
    KeepsA (if c then m else n) := by split <;> assumption
theorem KeepsA.foldlM {α β : Type} {f : β → α → A β} {l : List α} {b : β} (hf : ∀ b a, KeepsA (f b a)) :
    KeepsA (l.foldlM f b) := by
  induction l generalizing b with
  | nil => exact keepsA_pure b
  | cons a l ih => rw [List.foldlM_cons]; exact .bind (hf b a) fun _ => ih
theorem KeepsA.tryCatch {α : Type} {m : A α} {f : AccErr → A α} (hm : KeepsA m) (hf : ∀ e, KeepsA (f e)) :
    KeepsA (MonadExcept.tryCatch m f) := by
  intro s h r t e
  have hc : runA (MonadExcept.tryCatch m f) s = match runA m s with
      | .ok (.ok a, u) => .ok (.ok a, u)
      | .ok (.error x, u) => runA (f x) u
      | .error x => .error x := by
    show (ExceptT.tryCatch m f).run s = _
    unfold ExceptT.tryCatch ExceptT.mk ExceptT.run runA ExceptT.run
    rw [run_bind]
    cases m s with
    | error x => rfl
    | ok p =>
      obtain ⟨x, u⟩ := p
      cases x <;> rfl
  rw [hc] at e
  split at e
  · next hr => cases e; exact hm s h _ _ hr
  · next hr => exact hf _ _ (hm s h _ _ hr) _ _ e
  · cases e
/-- An access as an instruction makes it. -/
theorem Keeps.acc {α : Type} {m : A α} (hm : KeepsA m) : Keeps (acc m) := by
  refine .bind (fun s h r t e => hm s h r t e) fun r => ?_
  cases r with
  | ok v => exact keeps_pure v
  | error e => exact keeps_stopWith _

/-- A program keeps the form, word by word and branch by branch. -/
theorem Keeps.auto {α : Type} {m : M α} (h : Keeps m := by
  repeat' with_reducible first
    | refine Keeps.get_bind fun _ _ => ?_
    | refine Keeps.bind ?_ fun _ => ?_
    | refine Keeps.ite ?_ ?_
    | refine Keeps.map ?_
    | refine Keeps.iff' ?_
    | refine Keeps.modS .auto
    | refine Keeps.modify .auto
    | refine Keeps.set .auto
    | refine Keeps.foldlM fun _ _ => ?_
    | refine Keeps.each fun _ => ?_
    | refine Keeps.mapM fun _ => ?_
    | refine Keeps.flatMapM fun _ => ?_
    | refine Keeps.acc .auto
    | assumption
    | split
    | (simp; done)
    | dsimp only) : Keeps m := h
/-- An access keeps the form, step by step and branch by branch. -/
theorem KeepsA.auto {α : Type} {m : A α} (h : KeepsA m := by
  repeat' with_reducible first
    | refine KeepsA.get_bind fun _ _ => ?_
    | refine KeepsA.bind ?_ fun _ => ?_
    | refine KeepsA.ite ?_ ?_
    | refine KeepsA.map ?_
    | refine KeepsA.modify .auto
    | refine KeepsA.set .auto
    | refine KeepsA.foldlM fun _ _ => ?_
    | refine KeepsA.lift .auto
    | refine KeepsA.tryCatch ?_ fun _ => ?_
    | assumption
    | split
    | (simp; done)
    | dsimp only) : KeepsA m := h

/-! ### The functions of `Machine/Ops` -/

@[simp] theorem keeps_trap {α : Type} (cause tval) : Keeps (trap cause tval : M α) := by
  unfold trap; exact .auto
@[simp] theorem keeps_trapX {α : Type} (cause) : Keeps (trapX cause : M α) := by unfold trapX; exact .auto
@[simp] theorem keeps_fatal {α : Type} (cause tval) : Keeps (fatal cause tval : M α) := by
  unfold fatal; exact .auto
@[simp] theorem keeps_need (b cause tval) : Keeps (need b cause tval) := by unfold need; exact .auto
@[simp] theorem keeps_needX (b cause) : Keeps (needX b cause) := by unfold needX; exact .auto
@[simp] theorem keeps_illegal {α : Type} (i) : Keeps (illegal i : M α) := by unfold illegal; exact .auto
@[simp] theorem keeps_noDet : Keeps noDet := by unfold noDet; exact .auto
@[simp] theorem keeps_wG (r v) : Keeps (wG r v) := by unfold wG; exact .auto
@[simp] theorem keeps_orF (f) : Keeps (orF f) := by unfold orF; exact .auto
@[simp] theorem keeps_waitQuiet : Keeps waitQuiet := by unfold waitQuiet; exact .auto
@[simp] theorem keeps_waitUnheld : Keeps waitUnheld := by unfold waitUnheld; exact .auto
@[simp] theorem steady_sendMsix (f v) : Steady (sendMsix f v) := by unfold sendMsix; exact .auto
@[simp] theorem steady_raiseInt (p b) : Steady (raiseInt p b) := by unfold raiseInt; exact .auto
@[simp] theorem steady_raiseDint (b) : Steady (raiseDint b) := by unfold raiseDint; exact .auto
@[simp] theorem steady_logEvent (code dev part detail whereId) : Steady (logEvent code dev part detail whereId) := by
  unfold logEvent; exact .auto
@[simp] theorem steady_logCore (code c) : Steady (logCore code c) := by unfold logCore; exact .auto
@[simp] theorem steady_clapperReplay : Steady clapperReplay := by unfold clapperReplay; exact .auto
@[simp] theorem keeps_engineCommand : Keeps engineCommand := by unfold engineCommand; exact .auto
@[simp] theorem steady_placePeer (pa bs by') : Steady (placePeer pa bs by') := by
  unfold placePeer; exact .auto
@[simp] theorem steady_physNow (w pa bs) : Steady (physNow w pa bs) := by unfold physNow; exact .auto
@[simp] theorem steady_refreshBacklog : Steady refreshBacklog := by unfold refreshBacklog; exact .auto
@[simp] theorem steady_writeFatal (p bs) : Steady (writeFatal p bs) := by unfold writeFatal; exact .auto
@[simp] theorem steady_zeroBank (id b) : Steady (zeroBank id b) := by unfold zeroBank; exact .auto
@[simp] theorem steady_dropModes (c) : Steady fun s => (dropModes c s).1 := by unfold dropModes; exact .auto
@[simp] theorem steady_dropPairs (owners) : Steady (dropPairs owners) := by unfold dropPairs; exact .auto
@[simp] theorem steady_endCore (c) : Steady (endCore c) := by unfold endCore; exact .auto
@[simp] theorem steady_endTask (cause epc tval c) : Steady (endTask cause epc tval c) := by
  unfold endTask; exact .auto
@[simp] theorem steady_endContext (cause epc tval id) : Steady (endContext cause epc tval id) := by
  unfold endContext; exact .auto
@[simp] theorem steady_enterTrap (cause epc tval) : Steady (enterTrap cause epc tval) := by
  unfold enterTrap; exact .auto

/-! ### The functions of `Machine/Operands` -/

@[simp] theorem steady_seqStop (x) : Steady (seqStop x) := by unfold seqStop; exact .auto
@[simp] theorem keeps_waitTile (t) : Keeps (waitTile t) := by unfold waitTile; exact .auto
@[simp] theorem keeps_result (d v) : Keeps (result d v) := by unfold result; exact .auto
@[simp] theorem keeps_resultF (d v) : Keeps (resultF d v) := by unfold resultF; exact .auto
@[simp] theorem keeps_branch (off cond) : Keeps (branch off cond) := by unfold branch; exact .auto

/-! ### The functions of `Machine/Control` -/

@[simp] theorem keeps_jump (link t) : Keeps (jump link t) := by unfold jump; exact .auto
@[simp] theorem keeps_jumpTable (a b) : Keeps (jumpTable a b) := by unfold jumpTable; exact .auto
theorem applyKey_ok (r ps bad) {sf : State × Flags} (h : MemoryOk sf.1) (k) :
    MemoryOk (applyKey r ps bad sf k).1 := by
  unfold applyKey; exact .auto

/-! ### The functions of `Machine/Regions` -/

@[simp] theorem steady_setRegion (r) : Steady (setRegion r) := by unfold setRegion; exact .auto
@[simp] theorem steady_applyHeld (slot) : Steady (applyHeld slot) := by
  intro s h
  have hk (r ps bad) : MemoryOk ((keysOf ps).foldl (applyKey r ps bad) (s, 0)).1 :=
    .foldl_fst h fun _ k hs => applyKey_ok r ps bad hs k
  unfold applyHeld
  split
  · exact h
  · next r _ => exact .ite h (steady_physStore _ _ _ _ (steady_setRegion _ _ (hk r _ _)))
@[simp] theorem steady_spillWrite (r va bs) : Steady (spillWrite r va bs) := by unfold spillWrite; exact .auto
@[simp] theorem steady_arrive (slot p) : Steady fun s => (arrive slot p s).2 := by unfold arrive; exact .auto
@[simp] theorem steady_arriveEach (slot ps) : Steady (arriveEach slot ps) := by unfold arriveEach; exact .auto
@[simp] theorem steady_arriveAll (slot) : Steady (arriveAll slot) := by unfold arriveAll; exact .auto
@[simp] theorem steady_acceptWaiting (slot) : Steady (acceptWaiting slot) := by
  unfold acceptWaiting; exact .auto
@[simp] theorem steady_applyFrom (n slot) : Steady (applyFrom n slot) := by
  induction n with
  | zero => exact fun s h => h
  | succ n ih => intro s h; unfold applyFrom; exact .auto
@[simp] theorem steady_applyRegion (slot) : Steady (applyRegion slot) := by unfold applyRegion; exact .auto

/-! ### The functions of `Machine/Access` -/

@[simp] theorem keepsA_tagLine (w wr addr key) : KeepsA (tagLine w wr addr key) := by
  unfold tagLine; exact .auto
@[simp] theorem keepsA_transl (w p va) : KeepsA (transl w p va) := by unfold transl; exact .auto
@[simp] theorem keepsA_triggered (w va pa n) : KeepsA (triggered w va pa n) := by
  unfold triggered; exact .auto
@[simp] theorem keepsA_trigger (w va pa n) : KeepsA (trigger w va pa n) := by unfold trigger; exact .auto
@[simp] theorem steady_peerGet (w pa n) : Steady fun s => (peerGet w pa n s).2 := by
  unfold peerGet; exact .auto
@[simp] theorem keepsA_physGet (w pa n) : KeepsA (physGet w pa n) := by unfold physGet; exact .auto
@[simp] theorem keeps_physPut (w pa bs) : Keeps (physPut w pa bs) := by unfold physPut; exact .auto
@[simp] theorem steady_fills (w wr va pa n leaf) : Steady (State.fills w wr va pa n leaf) := by
  unfold State.fills; exact .auto
@[simp] theorem keepsA_readIn (w p va n) : KeepsA (readIn w p va n) := by unfold readIn; exact .auto
@[simp] theorem keepsA_gRead (w va n p) : KeepsA (gRead w va n p) := by unfold gRead; exact .auto
@[simp] theorem keepsA_writeIn (w va bs) : KeepsA (writeIn w va bs) := by unfold writeIn; exact .auto
@[simp] theorem keepsA_gWrite (w va bs) : KeepsA (gWrite w va bs) := by unfold gWrite; exact .auto
@[simp] theorem keepsA_gProbe (w p va n) : KeepsA (gProbe w p va n) := by unfold gProbe; exact .auto
@[simp] theorem keepsA_bankIn (w a n) : KeepsA (bankIn w a n) := by unfold bankIn; exact .auto
@[simp] theorem keepsA_lRead (w a n) : KeepsA (lRead w a n) := by unfold lRead; exact .auto
@[simp] theorem keepsA_bankOut (w a bs) : KeepsA (bankOut w a bs) := by unfold bankOut; exact .auto
@[simp] theorem keepsA_lWrite (w a bs) : KeepsA (lWrite w a bs) := by unfold lWrite; exact .auto
@[simp] theorem keepsA_readAt (w loc a n) : KeepsA (readAt w loc a n) := by unfold readAt; exact .auto
@[simp] theorem keepsA_writeAt (w loc a bs) : KeepsA (writeAt w loc a bs) := by unfold writeAt; exact .auto

/-! ### The functions of `Machine/Streams` -/

@[simp] theorem keeps_streamOf (u st e) : Keeps (streamOf u st e) := by unfold streamOf; exact .auto
@[simp] theorem keepsA_sideLoad (w t rows) : KeepsA (sideLoad w t rows) := by unfold sideLoad; exact .auto
@[simp] theorem keepsA_sideStore (w t side rows) : KeepsA (sideStore w t side rows) := by
  unfold sideStore; exact .auto
@[simp] theorem keeps_strRange (w t spans) : Keeps (strRange w t spans) := by unfold strRange; exact .auto
@[simp] theorem keeps_strAddrs (w t b elems side) : Keeps (strAddrs w t b elems side) := by
  unfold strAddrs; exact .auto
@[simp] theorem keeps_noSpill (w t spans) : Keeps (noSpill w t spans) := by unfold noSpill; exact .auto
@[simp] theorem keepsA_loadSegs (w t b segs) : KeepsA (loadSegs w t b segs) := by unfold loadSegs; exact .auto
@[simp] theorem keepsA_storeSegs (w t b data segs) : KeepsA (storeSegs w t b data segs) := by
  unfold storeSegs; exact .auto
@[simp] theorem keeps_shaped (l) : Keeps (shaped l) := by unfold shaped; exact .auto
@[simp] theorem keeps_sparseFmt (t) : Keeps (sparseFmt t) := by unfold sparseFmt; exact .auto
@[simp] theorem keeps_sparseShape (t) : Keeps (sparseShape t) := by unfold sparseShape; exact .auto
@[simp] theorem keeps_loadTile (e t sh old rows) : Keeps (loadTile e t sh old rows) := by
  unfold loadTile; exact .auto
@[simp] theorem keeps_performLdT (st tile e) : Keeps (performLdT st tile e) := by
  unfold performLdT; exact .auto
@[simp] theorem keeps_performLdTi (st tile idx e) : Keeps (performLdTi st tile idx e) := by
  unfold performLdTi; exact .auto
@[simp] theorem keeps_fifoBank (t) : Keeps (fifoBank t) := by unfold fifoBank; exact .auto
@[simp] theorem keeps_performLdFf (st tile e) : Keeps (performLdFf st tile e) := by
  unfold performLdFf; exact .auto
@[simp] theorem keeps_performLdA (st a e) : Keeps (performLdA st a e) := by unfold performLdA; exact .auto
@[simp] theorem keeps_storeFmt (t v) : Keeps (storeFmt t v) := by unfold storeFmt; exact .auto
@[simp] theorem keeps_mixOverlap (w t over') (old) : Keeps (mixOverlap w t over' old) := by
  unfold mixOverlap; exact .auto
@[simp] theorem keeps_storeTile (e t v rows) : Keeps (storeTile e t v rows) := by
  unfold storeTile; exact .auto
@[simp] theorem keeps_performStT (st tile e) : Keeps (performStT st tile e) := by
  unfold performStT; exact .auto
@[simp] theorem keeps_performStTi (st tile idx e) : Keeps (performStTi st tile idx e) := by
  unfold performStTi; exact .auto
@[simp] theorem keeps_performStFf (st tile e) : Keeps (performStFf st tile e) := by
  unfold performStFf; exact .auto
@[simp] theorem keeps_performStZ (st e) : Keeps (performStZ st e) := by unfold performStZ; exact .auto
@[simp] theorem keeps_performStA (st a e) : Keeps (performStA st a e) := by unfold performStA; exact .auto

/-! ### The functions of `Machine/Bitmap` -/

@[simp] theorem keeps_bitmapOf (t) : Keeps (bitmapOf t) := by unfold bitmapOf; exact .auto
@[simp] theorem keeps_performBmpfx (st tile e) : Keeps (performBmpfx st tile e) := by
  unfold performBmpfx; exact .auto
@[simp] theorem keeps_performBmand (st tile rank e) : Keeps (performBmand st tile rank e) := by
  unfold performBmand; exact .auto
@[simp] theorem keeps_performIsxG (st tile idx e) : Keeps (performIsxG st tile idx e) := by
  unfold performIsxG; exact .auto

/-! ### The functions of `Machine/Scalar` -/

@[simp] theorem keeps_aligned (a n) : Keeps (aligned a n) := by unfold aligned; exact .auto
@[simp] theorem keeps_loadBytes (sc loc a n) : Keeps (loadBytes sc loc a n) := by
  unfold loadBytes; exact .auto
@[simp] theorem keeps_load (sc loc d a x n sg) : Keeps (load sc loc d a x n sg) := by unfold load; exact .auto
@[simp] theorem keeps_store (sc loc a b x n) : Keeps (store sc loc a b x n) := by unfold store; exact .auto
@[simp] theorem keeps_loadStream (sc loc d a x) : Keeps (loadStream sc loc d a x) := by
  unfold loadStream; exact .auto
@[simp] theorem keeps_atomic (sc a x n f) : Keeps (atomic sc a x n f) := by unfold atomic; exact .auto
@[simp] theorem keeps_atomicTo (sc d a x n f) : Keeps (atomicTo sc d a x n f) := by
  unfold atomicTo; exact .auto
@[simp] theorem keeps_armWatch (a sc) : Keeps (armWatch a sc) := by unfold armWatch; exact .auto
@[simp] theorem keeps_monReturn (d code) : Keeps (monReturn d code) := by unfold monReturn; exact .auto
@[simp] theorem keeps_monWaitOp (d a) : Keeps (monWaitOp d a) := by unfold monWaitOp; exact .auto
@[simp] theorem keeps_probe (p a b) : Keeps (probe p a b) := by unfold probe; exact .auto
@[simp] theorem keeps_waitFar (sc) : Keeps (waitFar sc) := by unfold waitFar; exact .auto
@[simp] theorem keeps_loopLevel (a l) : Keeps (loopLevel a l) := by unfold loopLevel; exact .auto
@[simp] theorem keeps_loopNamed (a) : Keeps (loopNamed a) := by unfold loopNamed; exact .auto

/-! ### The functions of `Machine/Sync` -/

@[simp] theorem keeps_barrierAt (av) : Keeps (barrierAt av) := by unfold barrierAt; exact .auto
@[simp] theorem keeps_releasedTrap (agent ring place tval) : Keeps (releasedTrap agent ring place tval) := by
  unfold releasedTrap; exact .auto
@[simp] theorem keeps_beginWait (agent ring place) : Keeps (beginWait agent ring place) := by
  unfold beginWait; exact .auto
@[simp] theorem keeps_endWait (agent) : Keeps (endWait agent) := by unfold endWait; exact .auto
@[simp] theorem steady_releaseWaits (ring lo n) : Steady (releaseWaits ring lo n) := by
  unfold releaseWaits; exact .auto
@[simp] theorem keeps_flow (x0) : Keeps (Waits.flow x0) := by unfold Waits.flow; exact .auto
@[simp] theorem steady_putBarrier (k d0 d1) : Steady (putBarrier k d0 d1) := by unfold putBarrier; exact .auto
@[simp] theorem steady_deliver (k n) : Steady (deliver k n) := by unfold deliver; exact .auto
@[simp] theorem keeps_barInitOp (av bv) : Keeps (barInitOp av bv) := by unfold barInitOp; exact .auto
@[simp] theorem keeps_barExpOp (av bv sc) : Keeps (barExpOp av bv sc) := by unfold barExpOp; exact .auto
@[simp] theorem keeps_barArrOp (av sc) : Keeps (barArrOp av sc) := by unfold barArrOp; exact .auto
@[simp] theorem keeps_barWaitOp (agent av bv) : Keeps (barWaitOp agent av bv) := by
  unfold barWaitOp; exact .auto
@[simp] theorem keeps_ringAt (v) : Keeps (ringAt v) := by unfold ringAt; exact .auto
@[simp] theorem keeps_putRing (k r) : Keeps (putRing k r) := by unfold putRing; exact .auto
@[simp] theorem keeps_ringClOp (a b) : Keeps (ringClOp a b) := by unfold ringClOp; exact .auto
@[simp] theorem keeps_ringTakeOp (a b) : Keeps (ringTakeOp a b) := by unfold ringTakeOp; exact .auto
@[simp] theorem keeps_ringFillOp (av bv sc) : Keeps (ringFillOp av bv sc) := by unfold ringFillOp; exact .auto
@[simp] theorem keeps_ringRelOp (av bv sc) : Keeps (ringRelOp av bv sc) := by unfold ringRelOp; exact .auto
@[simp] theorem keeps_ringWait (agent av ok) : Keeps (ringWait agent av ok) := by unfold ringWait; exact .auto
@[simp] theorem keeps_ringWfOp (agent av bv) : Keeps (ringWfOp agent av bv) := by unfold ringWfOp; exact .auto
@[simp] theorem keeps_ringWeOp (agent av bv) : Keeps (ringWeOp agent av bv) := by unfold ringWeOp; exact .auto
@[simp] theorem steady_postEvent (cl ev) : Steady (postEvent cl ev) := by unfold postEvent; exact .auto
@[simp] theorem keeps_evqPostOp (av bv sc) : Keeps (evqPostOp av bv sc) := by unfold evqPostOp; exact .auto
@[simp] theorem keeps_evqPopOp (a) : Keeps (evqPopOp a) := by unfold evqPopOp; exact .auto
@[simp] theorem steady_stopQueue (q err) : Steady (stopQueue q err) := by unfold stopQueue; exact .auto
theorem pushRecord_done {w q r} {s t : State} {n} (h : MemoryOk s) (e : pushRecord w q r s = .done t n) :
    MemoryOk t := by
  unfold pushRecord at e
  dsimp only at e
  split at e
  · cases e
  split at e
  · cases e
  split at e
  · cases e
  · next hs =>
    cases e
    exact steady_refreshBacklog _ (.modCq (yields_unitPut (steady_physNow w) w h _ _ _ hs))
theorem pushRecord_untranslated {w q r} {s t : State} (h : MemoryOk s) (e : pushRecord w q r s = .untranslated t) :
    MemoryOk t := by
  unfold pushRecord at e
  dsimp only at e
  split at e
  · cases e
  split at e
  · cases e
  split at e
  · cases e; exact steady_stopQueue q 8 s h
  · cases e
@[simp] theorem steadyP_pushRecord (w q r) : SteadyP (pushRecord w q r) :=
  fun _ h => ⟨fun _ _ => pushRecord_done h, fun _ => pushRecord_untranslated h⟩
@[simp] theorem keeps_pushOp (a q r x sc) : Keeps (pushOp a q r x sc) := by unfold pushOp; exact .auto
@[simp] theorem keeps_cqPushOp (a b sc) : Keeps (cqPushOp a b sc) := by unfold cqPushOp; exact .auto
@[simp] theorem keeps_spawnOp (a b sc) : Keeps (spawnOp a b sc) := by unfold spawnOp; exact .auto
@[simp] theorem keeps_joinRead (w va) : Keeps (joinRead w va) := by unfold joinRead; exact .auto
@[simp] theorem keeps_joinStep (w av named) : Keeps (joinStep w av named) := by unfold joinStep; exact .auto
@[simp] theorem keeps_joinDecOp (agent av sc) : Keeps (joinDecOp agent av sc) := by
  unfold joinDecOp; exact .auto
@[simp] theorem keeps_joinInitOp (a b sc) : Keeps (joinInitOp a b sc) := by unfold joinInitOp; exact .auto

/-! ### The functions of `Machine/Matrix` -/

@[simp] theorem keeps_shapeTile (d tile b) : Keeps (shapeTile d tile b) := by unfold shapeTile; exact .auto
@[simp] theorem keeps_maskCheck (t rows cols) : Keeps (maskCheck t rows cols) := by
  unfold maskCheck; exact .auto
@[simp] theorem keeps_classCheck (zf cls a) : Keeps (classCheck zf cls a) := by unfold classCheck; exact .auto
@[simp] theorem keeps_performMmaTileTile (ad ta tb zf fmt e) : Keeps (performMmaTileTile ad ta tb zf fmt e) := by
  unfold performMmaTileTile; exact .auto
@[simp] theorem keeps_patShaped (e) : Keeps (patShaped e) := by unfold patShaped; exact .auto
@[simp] theorem keeps_patFormat (c e) : Keeps (patFormat c e) := by unfold patFormat; exact .auto
@[simp] theorem keeps_performMmaPatternA (ad tb zf fmt e) : Keeps (performMmaPatternA ad tb zf fmt e) := by
  unfold performMmaPatternA; exact .auto
@[simp] theorem keeps_performMmaPatternB (ad ta zf fmt e) : Keeps (performMmaPatternB ad ta zf fmt e) := by
  unfold performMmaPatternB; exact .auto
@[simp] theorem keeps_performCmpa (ad ta fmt e) : Keeps (performCmpa ad ta fmt e) := by
  unfold performCmpa; exact .auto
@[simp] theorem keeps_performAcz (ad) : Keeps (performAcz ad) := by unfold performAcz; exact .auto
@[simp] theorem keeps_performTsm : Keeps performTsm := by unfold performTsm; exact .auto

/-! ### The functions of `Machine/Drain` -/

@[simp] theorem keeps_cfgStream (st rows cols e) : Keeps (cfgStream st rows cols e) := by
  unfold cfgStream; exact .auto
@[simp] theorem keeps_cfgRows (t rows) : Keeps (cfgRows t rows) := by unfold cfgRows; exact .auto
@[simp] theorem keeps_cfgData (st cols e) : Keeps (cfgData st cols e) := by unfold cfgData; exact .auto
@[simp] theorem keeps_performDcfgSc (st a col e) : Keeps (performDcfgSc st a col e) := by
  unfold performDcfgSc; exact .auto
@[simp] theorem keeps_performDcfgBi (st a col e) : Keeps (performDcfgBi st a col e) := by
  unfold performDcfgBi; exact .auto
@[simp] theorem keeps_performDcfgFn (st a e) : Keeps (performDcfgFn st a e) := by
  unfold performDcfgFn; exact .auto
@[simp] theorem keeps_performDcfgCl (a e) : Keeps (performDcfgCl a e) := by unfold performDcfgCl; exact .auto
@[simp] theorem keeps_performDcfgRm (a e) : Keeps (performDcfgRm a e) := by unfold performDcfgRm; exact .auto
@[simp] theorem keeps_performSrsSeed (e) : Keeps (performSrsSeed e) := by unfold performSrsSeed; exact .auto
@[simp] theorem keeps_srStart (k e) : Keeps (srStart k e) := by unfold srStart; exact .auto
@[simp] theorem keeps_performDrn (st a fmt e) : Keeps (performDrn st a fmt e) := by
  unfold performDrn; exact .auto
@[simp] theorem keeps_performDrnT (tile a fmt e) : Keeps (performDrnT tile a fmt e) := by
  unfold performDrnT; exact .auto

/-! ### The functions of `Machine/Updates` -/

@[simp] theorem keeps_lookupRegion (base tval) : Keeps (lookupRegion base tval) := by
  unfold lookupRegion; exact .auto
@[simp] theorem keeps_modRegion (slot f) : Keeps (modRegion slot f) := by unfold modRegion; exact .auto
@[simp] theorem keeps_tagEmission (r w tval) : Keeps (tagEmission r w tval) := by
  unfold tagEmission; exact .auto
@[simp] theorem keeps_emitPair (slot owner key val kept) : Keeps (emitPair slot owner key val kept) := by
  unfold emitPair; exact .auto
@[simp] theorem keeps_emitFrom (slot owner l kept) : Keeps (emitFrom slot owner l kept) := by
  induction l generalizing kept with
  | nil => exact keeps_pure _
  | cons kv r ih => have := ih none; unfold emitFrom; exact .auto
@[simp] theorem keeps_updGo (r key tile e) : Keeps (updGo r key tile e) := by unfold updGo; exact .auto
@[simp] theorem keeps_performUpd (key tile sc e) : Keeps (performUpd key tile sc e) := by
  unfold performUpd; exact .auto
@[simp] theorem keeps_updOne (a b sc) : Keeps (updOne a b sc) := by unfold updOne; exact .auto
@[simp] theorem keepsA_pinPages (w va n) : KeepsA (pinPages w va n) := by unfold pinPages; exact .auto
@[simp] theorem steady_fireKeys (r) : Steady (fireKeys r) := by unfold fireKeys; exact .auto
@[simp] theorem keeps_notLost (r) : Keeps (notLost r) := by unfold notLost; exact .auto
@[simp] theorem keeps_declareRegion (a sc) : Keeps (declareRegion a sc) := by
  unfold declareRegion; exact .auto
@[simp] theorem keeps_readFlags (d a) : Keeps (readFlags d a) := by unfold readFlags; exact .auto
@[simp] theorem steady_settlePairs (slot) : Steady (settlePairs slot) := by unfold settlePairs; exact .auto
@[simp] theorem keeps_drainRest (slot) : Keeps (drainRest slot) := by unfold drainRest; exact .auto
@[simp] theorem keeps_drainRegion (a sc) : Keeps (drainRegion a sc) := by unfold drainRegion; exact .auto
@[simp] theorem keeps_pairArrives (rgn ix) : Keeps (pairArrives rgn ix) := by unfold pairArrives; exact .auto

/-! ### The functions of `Machine/Queues` -/

@[simp] theorem keeps_doneM {m : M Unit} (hm : Keeps m) : Keeps (doneM m) := .bind hm fun _ => keeps_pure _
@[simp] theorem keeps_performNow (e) : Keeps (performNow e) := by unfold performNow; exact .auto
@[simp] theorem keeps_perform (e) : Keeps (perform e) := by unfold perform; exact .auto
@[simp] theorem keeps_route (i) : Keeps (route i) := by unfold route; exact .auto
@[simp] theorem steady_abandonWord : Steady abandonWord := by unfold abandonWord; exact .auto
@[simp] theorem steadyO_enterQueueTrap : SteadyO enterQueueTrap := by unfold enterQueueTrap; exact .auto
@[simp] theorem steady_noteQueueTrap (q e cause tval) : Steady (noteQueueTrap q e cause tval) := by
  unfold noteQueueTrap; exact .auto
@[simp] theorem steady_replayFrom (l) : Steady (replayFrom l) := by
  induction l with
  | nil => exact fun s h => h
  | cons x r ih => intro s h; cases x <;> unfold replayFrom <;> exact .auto
@[simp] theorem steady_arrayError (epc) : Steady (arrayError epc) := by unfold arrayError; exact .auto
@[simp] theorem steadyO_runEntry (q e) : SteadyO (runEntry q e) := by unfold runEntry; exact .auto
@[simp] theorem steadyO_runHead (q e) : SteadyO (runHead q e) := by unfold runHead; exact .auto
@[simp] theorem steadyO_startQueue (q) : SteadyO (startQueue q) := by unfold startQueue; exact .auto

/-! ### The functions of `Machine/Context` -/

@[simp] theorem steady_zeroBanks (id) : Steady (zeroBanks id) := by unfold zeroBanks; exact .auto
@[simp] theorem steady_switchCore (c) : Steady fun s => (switchCore c s).2 := by
  unfold switchCore; exact .auto
@[simp] theorem steady_bindCore (id b) : Steady (bindCore id b) := by unfold bindCore; exact .auto
@[simp] theorem steady_withdraw (c) : Steady fun s => (withdraw c s).2 := by unfold withdraw; exact .auto
@[simp] theorem steadyO_writeImage (c banks reason a) : SteadyO (writeImage c banks reason a) := by
  unfold writeImage; exact .auto
@[simp] theorem steadyO_writeImages (reason l) : SteadyO (writeImages reason l) := by
  induction l with
  | nil => exact fun s h => .some h
  | cons m r ih => exact fun s h => .bind fun t e => ih t (steadyO_writeImage _ _ _ _ s h t e)
@[simp] theorem steady_stopHead (q n) : Steady (stopHead q n) := by unfold stopHead; exact .auto
@[simp] theorem steady_stopHeads (ctx units) : Steady (stopHeads ctx units) := by
  unfold stopHeads; exact .auto
@[simp] theorem steady_releaseHeld (p) : Steady (releaseHeld p) := by unfold releaseHeld; exact .auto
@[simp] theorem steady_saveContext (reason yielded debug id) : Steady (saveContext reason yielded debug id) := by
  unfold saveContext; exact .auto
@[simp] theorem steadyO_loadBanks (p a banks id) : SteadyO (loadBanks p a banks id) := by
  unfold loadBanks; exact .auto
@[simp] theorem steady_releaseByModes (c) : Steady (releaseByModes c) := by unfold releaseByModes; exact .auto
@[simp] theorem steadyO_restoreMember (v m id) : SteadyO (restoreMember v m id) := by
  unfold restoreMember; exact .auto
@[simp] theorem steadyO_restoreAll (v ms ids) : SteadyO (restoreAll v ms ids) := by
  induction ms generalizing ids with
  | nil => exact fun s h => .some h
  | cons m r ih =>
    cases ids with
    | nil => exact fun s h => .some h
    | cons id ids => exact fun s h => .bind fun t e => ih ids t (steadyO_restoreMember v m id s h t e)
@[simp] theorem steady_resumeOn (v ids) : Steady (resumeOn v ids) := by unfold resumeOn; exact .auto
@[simp] theorem keeps_inHandler (i) : Keeps (inHandler i) := by unfold inHandler; exact .auto
@[simp] theorem keeps_writeArea (a bs) : Keeps (writeArea a bs) := by unfold writeArea; exact .auto
@[simp] theorem keeps_settleAll : Keeps settleAll := by unfold settleAll; exact .auto
@[simp] theorem steady_giveCore (id p) : Steady (giveCore id p) := by unfold giveCore; exact .auto

/-! ### The functions of `Machine/Tasks` -/

@[simp] theorem steady_selectFrom (q p) : Steady (selectFrom q p) := by unfold selectFrom; exact .auto
@[simp] theorem steady_newCtx (r n) : Steady (newCtx r n) := by unfold newCtx; exact .auto
@[simp] theorem steady_bindAll (r origin ids) : Steady (bindAll r origin ids) := by
  unfold bindAll; exact .auto
@[simp] theorem steady_holdTeam (ix x) : Steady (holdTeam ix x) := by unfold holdTeam; exact .auto
@[simp] theorem steady_startInstance (ix x) : Steady (startInstance ix x) := by
  unfold startInstance; exact .auto
@[simp] theorem keeps_checkJoin (w av) : Keeps (checkJoin w av) := by unfold checkJoin; exact .auto
@[simp] theorem steady_tryJoin (d) : Steady fun s => (tryJoin d s).1 := by unfold tryJoin; exact .auto
@[simp] theorem steady_releaseCore (id) : Steady (releaseCore id) := by unfold releaseCore; exact .auto
@[simp] theorem keeps_finishTask (pe) : Keeps (finishTask pe) := by unfold finishTask; exact .auto
@[simp] theorem steady_commitPhase (p) : Steady (commitPhase p) := by unfold commitPhase; exact .auto

/-! ### The functions of `Machine/Copy` -/

@[simp] theorem keeps_channelAt (v) : Keeps (channelAt v) := by unfold channelAt; exact .auto
@[simp] theorem steadyV_claimRecord (c a) : SteadyV (claimRecord c a) := by unfold claimRecord; exact .auto
@[simp] theorem keepsA_copyRead (w loc a n) : KeepsA (copyRead w loc a n) := by unfold copyRead; exact .auto
@[simp] theorem keepsA_indexOf (r row) : KeepsA (CopyRun.indexOf r row) := by
  unfold CopyRun.indexOf; exact .auto
@[simp] theorem keepsA_indexNow (r row off) : KeepsA (CopyRun.indexNow r row off) := by
  unfold CopyRun.indexNow; exact .auto
@[simp] theorem keepsA_movePiece (r) : KeepsA (movePiece r) := by unfold movePiece; exact .auto
theorem MemoryOk.signalBar {x : Bool × State} (h : MemoryOk x.2) (w n bar) : MemoryOk (signalBar w n x bar).2 := by
  unfold Machine.signalBar; exact .auto
@[simp] theorem steady_setRun (k r) : Steady (setRun k r) := by unfold setRun; exact .auto
@[simp] theorem steady_signalOwed (r) : Steady fun s => (signalOwed r s).2 := by
  intro s h
  unfold signalOwed
  exact .foldl_snd (.ite h h.retireStores) fun _ bar hp => hp.signalBar _ _ bar
@[simp] theorem steady_doPiece (r) : Steady fun s => (doPiece r s).2 := by unfold doPiece; exact .auto
@[simp] theorem keepsA_tornByte (w loc a b) : KeepsA (tornByte w loc a b) := by unfold tornByte; exact .auto
@[simp] theorem steady_tornFrom (n r) : Steady (tornFrom n r) := by
  induction n generalizing r with
  | zero => exact fun s h => h
  | succ n ih =>
    intro s h
    unfold tornFrom
    refine .ite h ?_
    dsimp only
    split
    · next e => exact ih _ _ (KeepsA.ok e .auto h)
    · exact ih _ _ h
    · exact h
@[simp] theorem steady_finishRecord (k) : Steady (finishRecord k) := by unfold finishRecord; exact .auto
@[simp] theorem steady_enginePost (cl ev copy) : Steady (enginePost cl ev copy) := by
  unfold enginePost; exact .auto
@[simp] theorem steady_settleTorn (r) : Steady fun s => (settleTorn r s).2 := by
  unfold settleTorn; exact .auto
@[simp] theorem steady_writeStatus (r) : Steady fun s => (writeStatus r s).2 := by
  unfold writeStatus; exact .auto
@[simp] theorem steady_afterStatus (d ch r) : Steady (afterStatus d ch r) := by
  unfold afterStatus; exact .auto
@[simp] theorem steady_retire' (d ch r) : Steady (retire' d ch r) := by unfold retire'; exact .auto

/-! ### The functions of `Machine/Pages` -/

@[simp] theorem steady_writeCode (cl c bs) : Steady (writeCode cl c bs) := by unfold writeCode; exact .auto
@[simp] theorem steady_dropTranslations (p b n) : Steady (dropTranslations p b n) := by
  unfold dropTranslations; exact .auto
@[simp] theorem steady_dropLines (p b n) : Steady (dropLines p b n) := by unfold dropLines; exact .auto
@[simp] theorem steady_invalidate (p b n) : Steady (invalidate p b n) := by unfold invalidate; exact .auto
@[simp] theorem steady_copyLines (old new m) : Steady (copyLines old new m) := by
  unfold copyLines; exact .auto
@[simp] theorem steady_migStart (p va) : Steady fun s => (migStart p va s).2 := by
  unfold migStart; exact .auto
@[simp] theorem steady_dropTracker (p va) : Steady (dropTracker p va) := by unfold dropTracker; exact .auto
@[simp] theorem steady_migRound (t rounds) : Steady fun s => (migRound t rounds s).2 := by
  unfold migRound; exact .auto
@[simp] theorem steady_migCommit (t leaf) : Steady fun s => (migCommit t leaf s).2 := by
  unfold migCommit; exact .auto
@[simp] theorem steady_migrate (p op d) : Steady fun s => (migrate p op d s).2 := by
  unfold migrate; exact .auto
@[simp] theorem steady_unpin (gone) : Steady (unpin gone) := by unfold unpin; exact .auto

/-! ### The functions of `Machine/System` -/

@[simp] theorem steady_poisonLine (l) : Steady (poisonLine l) := by unfold poisonLine; exact .auto
@[simp] theorem keeps_counterValue (n) : Keeps (counterValue n) := by unfold counterValue; exact .auto
@[simp] theorem steady_coreWhen (id p f) : Steady (coreWhen id p f) := by unfold coreWhen; exact .auto

/-! ### The functions of `Machine/Reliability` -/

@[simp] theorem steady_saveCheckpoint (c) : Steady (saveCheckpoint c) := by unfold saveCheckpoint; exact .auto
@[simp] theorem steady_fenceCore (id) : Steady (fenceCore id) := by unfold fenceCore; exact .auto
@[simp] theorem steady_saveRunning (reason) : Steady (saveRunning reason) := by
  unfold saveRunning; exact .auto
@[simp] theorem steady_endPartition (p) : Steady (endPartition p) := by unfold endPartition; exact .auto
@[simp] theorem steady_resetPartition (p) : Steady (resetPartition p) := by unfold resetPartition; exact .auto

/-! ### The functions of `Machine/Kv` -/

@[simp] theorem keeps_kvWho : Keeps kvWho := by unfold kvWho; exact .auto
@[simp] theorem keeps_kvGet8 (a) : Keeps (kvGet8 a) := by unfold kvGet8; exact .auto
@[simp] theorem keeps_kvPut8 (a v) : Keeps (kvPut8 a v) := by unfold kvPut8; exact .auto
@[simp] theorem keeps_kvPut4 (a v) : Keeps (kvPut4 a v) := by unfold kvPut4; exact .auto
theorem keeps_kvWord {step} (h : Keeps step) : Keeps (kvWord step) := by unfold kvWord; exact .auto
@[simp] theorem keeps_kvAddr (v m) : Keeps (kvAddr v m) := by unfold kvAddr; exact .auto
@[simp] theorem keeps_kvOpen (x) : Keeps (kvOpen x) := by unfold kvOpen; exact .auto
@[simp] theorem keeps_kvEntry (k p) : Keeps (kvEntry k p) := by unfold kvEntry; exact .auto
@[simp] theorem keeps_kvTake (k) : Keeps (kvTake k) := by unfold kvTake; exact .auto
@[simp] theorem keeps_kvDrop (k p) : Keeps (kvDrop k p) := by unfold kvDrop; exact .auto
@[simp] theorem keeps_kvCheckDrops (k ps) : Keeps (kvCheckDrops k ps) := by unfold kvCheckDrops; exact .auto

/-! ### The functions of `Machine/Serving` -/

@[simp] theorem keeps_mkCommand (unit op a b x snap snap2 sc) : Keeps (mkCommand unit op a b x snap snap2 sc) := by
  unfold mkCommand; exact .auto
@[simp] theorem keeps_opAddr (v m) : Keeps (opAddr v m) := by unfold opAddr; exact .auto
@[simp] theorem keeps_readDesc (sc a) : Keeps (readDesc sc a) := by unfold readDesc; exact .auto
@[simp] theorem keeps_checkRange (p a n) : Keeps (checkRange p a n) := by unfold checkRange; exact .auto
@[simp] theorem steadyV_engRead (w a n) : SteadyV (engRead w a n) := by unfold engRead; exact .auto
@[simp] theorem steadyO_engWrite (w a bs) : SteadyO (engWrite w a bs) := by unfold engWrite; exact .auto
@[simp] theorem keeps_farDone (sc) : Keeps (farDone sc) := by unfold farDone; exact .auto
@[simp] theorem keeps_ecrOpen (x sc) : Keeps (ecrOpen x sc) := by unfold ecrOpen; exact .auto
theorem yields_ecrState {s : State} (h : MemoryOk s) (k) : Yields (fun p => p.2.2) (ecrState k s) := by
  unfold ecrState; exact .auto
@[simp] theorem steady_loadPost (d k ok v) : Steady (loadPost d k ok v) := by unfold loadPost; exact .auto
@[simp] theorem steadyO_loadCopy (k v) : SteadyO (loadCopy k v) := by unfold loadCopy; exact .auto
@[simp] theorem steady_loadStep (d) : Steady (loadStep d) := by unfold loadStep; exact .auto
@[simp] theorem steady_acquireVersion (w voc) : Steady fun s => (acquireVersion w voc s).2 := by
  unfold acquireVersion; exact .auto
@[simp] theorem steady_releaseVersion (w a) : Steady (releaseVersion w a) := by
  unfold releaseVersion; exact .auto
@[simp] theorem steady_fillRows (k base) : Steady (fillRows k base) := by
  intro s h
  refine .foldl h fun s i hs => ?_
  split
  · exact hs
  · next e =>
    have ht := SteadyV.some e (steadyV_engRead _ _ _) hs
    exact .ite ht (.getD ht (.map fun p e' => SteadyV.some_snd e' (steadyV_engRead _ _ _) ht))
@[simp] theorem steadyV_rowWeights (k w r) : SteadyV (rowWeights k w r) := by unfold rowWeights; exact .auto
@[simp] theorem keeps_checkSampling (d weights row0 n) : Keeps (checkSampling d weights row0 n) := by
  unfold checkSampling; exact .auto
@[simp] theorem keeps_pushSampler (k) : Keeps (pushSampler k) := by unfold pushSampler; exact .auto
theorem keeps_awaitCommand {push} (h : Keeps push) (d cause) : Keeps (awaitCommand d cause push) := by
  unfold awaitCommand; exact .auto
@[simp] theorem steadyV_readBlock (k w r) : SteadyV (readBlock k w r) := by unfold readBlock; exact .auto
theorem yields_coarseRow {s : State} (h : MemoryOk s) (k w r) : Yields (fun p => p.1) (coarseRow k w r s) := by
  unfold coarseRow; exact .auto
@[simp] theorem steady_coarseWork (c k) : Steady (coarseWork c k) := by
  intro s h
  unfold coarseWork
  have ht := (yields_coarseRow h (samplingOf k.snap) k.who (k.stage / 2)).getD (a := (s, false)) h
  refine .ite h ?_
  generalize (coarseRow (samplingOf k.snap) k.who (k.stage / 2) s).getD (s, false) = p at ht ⊢
  exact ht
@[simp] theorem steady_coarseTell (c) : Steady (coarseTell c) := by unfold coarseTell; exact .auto
theorem MemoryOk.searchRow {s : State} (h : MemoryOk s) (k lim w r) : MemoryOk (searchRow k lim w s r).1 := by
  unfold Machine.searchRow; exact .auto
@[simp] theorem steady_tellCore (k trapped v) : Steady (tellCore k trapped v) := by
  unfold tellCore; exact .auto
@[simp] theorem steady_setResult (c k trapped v) : Steady (setResult c k trapped v) := by
  unfold setResult; exact .auto
@[simp] theorem steady_resultTell (c) : Steady (resultTell c) := by unfold resultTell; exact .auto
/-- The equation of `firstInvalid` for one more row (Lean's own equation lemma would evaluate `readBlock`). -/
theorem firstInvalid_succ (k w n r s) : firstInvalid k w (n + 1) r s =
    match readBlock k w r s with
    | none => (some r, s)
    | some (b, t) => if b.valid then firstInvalid k w n (r + 1) t else (some r, t) := by
  delta firstInvalid firstInvalid._f
  generalize readBlock k w = g
  rfl
@[simp] theorem steady_firstInvalid (k w n r) : Steady fun s => (firstInvalid k w n r s).2 := by
  induction n generalizing r with
  | zero => exact fun s h => h
  | succ n ih =>
    intro s h
    simp only [firstInvalid_succ]
    split
    · exact h
    · next e =>
      have ht := SteadyV.some e (steadyV_readBlock _ _ _) h
      exact .ite_snd (ih _ _ ht) ht
@[simp] theorem steady_searchWork (c k) : Steady (searchWork c k) := by
  intro s h
  unfold searchWork
  refine .ite h ?_
  dsimp only
  split
  · exact .auto
  · next e =>
    have ht := Steady.eq_snd e (steady_firstInvalid _ _ _ _) h
    refine Steady.app (steady_setResult _ _ _ _) (.foldl_fst ht fun p r hp => ?_)
    dsimp only
    exact hp.searchRow _ _ _ _
@[simp] theorem steadyV_drawRow (k w r j full b) : SteadyV (drawRow k w r j full b) := by
  intro s h
  unfold drawRow
  refine .bind fun p e => ?_
  have hp : MemoryOk p.2 := Yields.get (π := fun p => p.2) e .auto
  exact .auto
@[simp] theorem steady_drawWork (c k) : Steady (drawWork c k) := by unfold drawWork; exact .auto
/-- The equation of `checkRows` for one more row (Lean's own equation lemma would evaluate `readBlock`). -/
theorem checkRows_succ (k t sd drafts n m s) : checkRows k t sd drafts (n + 1) m s =
    match readBlock sd k.who (t.row0 + m) s with
    | none => (true, m, 0, s)
    | some (b, s) =>
      if !b.valid || (!t.full && b.slow) then (true, m, 0, s) else
      match drawRow sd k.who (t.row0 + m) t.j t.full b s with
      | none => (true, m, 0, s)
      | some (tok, s) =>
        if m = t.nd || drafts.getD m 0 != tok then (false, m, tok, s) else checkRows k t sd drafts n (m + 1) s := by
  delta checkRows checkRows._f
  generalize readBlock sd k.who = g
  generalize drawRow sd k.who = d
  rfl
@[simp] theorem steady_checkRows (k t sd drafts n m) : Steady fun s => (checkRows k t sd drafts n m s).2.2.2 := by
  induction n generalizing m with
  | zero => exact fun s h => h
  | succ n ih =>
    intro s h
    simp only [checkRows_succ]
    split
    · exact h
    next e =>
    have ht := SteadyV.some e (steadyV_readBlock _ _ _) h
    split
    · exact ht
    split
    · exact ht
    next e' =>
    have hu := SteadyV.some e' (steadyV_drawRow _ _ _ _ _ _) ht
    split
    · exact hu
    · exact ih _ _ hu
@[simp] theorem steady_checkWork (k) : Steady fun s => (checkWork k s).2.2 := by
  intro s h
  unfold checkWork
  exact .auto
@[simp] theorem steady_checkStep (d) : Steady (checkStep d) := by unfold checkStep; exact .auto

/-! ### The functions of `Machine/Text` -/

@[simp] theorem steady_wakePush (r) : Steady fun s => (wakePush r s).2 := by unfold wakePush; exact .auto
@[simp] theorem steady_wakeRing (n) : Steady (wakeRing n) := by unfold wakeRing; exact .auto
@[simp] theorem steady_settleArrivals : Steady settleArrivals := by unfold settleArrivals; exact .auto
@[simp] theorem steadyO_placeFrame (n bs) : SteadyO (placeFrame n bs) := by unfold placeFrame; exact .auto
@[simp] theorem steady_replyLost (r) : Steady (replyLost r) := by unfold replyLost; exact .auto
@[simp] theorem steady_readVocab (w a) : Steady fun s => (readVocab w a s).2 := by
  intro s h
  simp only [readVocab]
  split
  · exact h
  next e =>
  have ht := SteadyV.some e (steadyV_engRead _ _ _) h
  split
  · exact ht
  · split
    · next e' => exact Yields.get (π := fun p => p.2.2) e' .auto
    · exact ht
@[simp] theorem keeps_submitOp (dtk a b sc) : Keeps (submitOp dtk a b sc) := by unfold submitOp; exact .auto
@[simp] theorem keeps_resultOp (dtk d a sc) : Keeps (resultOp dtk d a sc) := by unfold resultOp; exact .auto
@[simp] theorem steady_textEvent (dtk e k code st) : Steady (textEvent dtk e k code st) := by
  unfold textEvent; exact .auto
@[simp] theorem steady_textStart (dtk e) : Steady (textStart dtk e) := by unfold textStart; exact .auto
@[simp] theorem steady_readUpTo (w va n) : Steady fun s => (readUpTo w va n s).2.2 := by
  unfold readUpTo; exact .auto
@[simp] theorem steady_writeUpTo (w va bs) : Steady fun s => (writeUpTo w va bs s).2 := by
  unfold writeUpTo; exact .auto
@[simp] theorem steady_tokenise (k v) : Steady fun s => (tokenise k v s).2 := by unfold tokenise; exact .auto
@[simp] theorem steady_detokenise (k v) : Steady fun s => (detokenise k v s).2 := by
  unfold detokenise; exact .auto
@[simp] theorem steady_textWork (dtk k) : Steady fun s => (textWork dtk k s).2 := by
  unfold textWork; exact .auto
@[simp] theorem steady_textStep (dtk e) : Steady (textStep dtk e) := by unfold textStep; exact .auto
@[simp] theorem steady_textComplete (dtk e) : Steady (textComplete dtk e) := by
  unfold textComplete; exact .auto

/-! ### The functions of `Machine/Host` -/

@[simp] theorem steady_setRing (n f) : Steady (setRing n f) := by unfold setRing; exact .auto
@[simp] theorem steady_setPageBit (p b) : Steady (setPageBit p b) := by unfold setPageBit; exact .auto
@[simp] theorem steady_notePage (p) : Steady (notePage p) := by unfold notePage; exact .auto
theorem MemoryOk.mailCluster {p m k} {s t : State} (e : mailCluster p m k s = .ok t) (h : MemoryOk s) :
    MemoryOk t := by
  unfold Machine.mailCluster at e
  split at e
  · cases e
  · split at e
    · next e' => cases e; exact steady_writeCode _ _ _ _ (KeepsA.ok e' (keepsA_gRead _ _ _ _) h)
    · cases e
@[simp] theorem steady_mailLoad (p m ks) : Steady fun s => (mailLoad p m ks s).1 := by
  induction ks with
  | nil => exact fun s h => h
  | cons k r ih =>
    intro s h
    simp only [mailLoad]
    split
    · next e => exact ih _ (MemoryOk.mailCluster e h)
    · exact h
@[simp] theorem steady_writeCqReg (a q off bs) : Steady (writeCqReg a q off bs) := by
  unfold writeCqReg; exact .auto
@[simp] theorem steady_writeRqReg (window a n off bs) : Steady (writeRqReg window a n off bs) := by
  unfold writeRqReg; exact .auto
@[simp] theorem steady_writeMail (p off bs) : Steady (writeMail p off bs) := by unfold writeMail; exact .auto
@[simp] theorem steady_writeWindow (p off bs) : Steady (writeWindow p off bs) := by
  unfold writeWindow; exact .auto
@[simp] theorem steady_writeBar (off bs) : Steady (writeBar off bs) := by unfold writeBar; exact .auto
@[simp] theorem steady_releaseMsix (f) : Steady (releaseMsix f) := by unfold releaseMsix; exact .auto
@[simp] theorem steady_writeBar2 (via off bs) : Steady (writeBar2 via off bs) := by
  unfold writeBar2; exact .auto

/-! ### The functions of `Machine/Links` -/

@[simp] theorem steady_fireLine (pa) : Steady (fireLine pa) := by unfold fireLine; exact .auto
@[simp] theorem steady_endCtx (cause ctx) : Steady (endCtx cause ctx) := by unfold endCtx; exact .auto
@[simp] theorem steady_endAll (cause l) : Steady (endAll cause l) := by unfold endAll; exact .auto
@[simp] theorem steady_sendOne (k) : Steady (sendOne k) := by unfold sendOne; exact .auto
@[simp] theorem steady_moveUnsent (k) : Steady (moveUnsent k) := by unfold moveUnsent; exact .auto
@[simp] theorem steady_flush (k) : Steady (flush k) := by unfold flush; exact .auto
@[simp] theorem steady_linkEvent (k f) : Steady (linkEvent k f) := by unfold linkEvent; exact .auto
@[simp] theorem steady_relayStore (src dst pa seq bytes) : Steady (relayStore src dst pa seq bytes) := by
  unfold relayStore; exact .auto
@[simp] theorem steady_acknowledge (dst pa seq) : Steady (acknowledge dst pa seq) := by
  unfold acknowledge; exact .auto
@[simp] theorem steady_remotePerform (r) : Steady (RemoteStore.perform r) := by
  unfold RemoteStore.perform; exact .auto
@[simp] theorem steady_poolPerform (p) : Steady (PoolStore.perform p) := by
  unfold PoolStore.perform; exact .auto
@[simp] theorem steady_loseStore (p) : Steady (loseStore p) := by unfold loseStore; exact .auto
@[simp] theorem steady_hostLost : Steady (State.hostLost) := by unfold State.hostLost; exact .auto
@[simp] theorem steady_loseInEngines (code lost far) : Steady (loseInEngines code lost far) := by
  unfold loseInEngines; exact .auto
@[simp] theorem steady_noPath : Steady noPath := by unfold noPath; exact .auto
@[simp] theorem steady_linkDown (k) : Steady (linkDown k) := by unfold linkDown; exact .auto
@[simp] theorem steady_loseRegion (r) : Steady (loseRegion r) := by unfold loseRegion; exact .auto
theorem MemoryOk.kept {s t : State} (h : MemoryOk t) : MemoryOk (s.kept t) := h
theorem MemoryOk.outside {s t : State} (h : MemoryOk s) (h' : MemoryOk t) : MemoryOk (s.outside t) :=
  ⟨memWf_filter _ (MemoryOk.foldl h fun _ p hs => steady_loseStore p _ hs).1, h'.2⟩

/-! ### The functions of `Machine/Basoc` -/

@[simp] theorem steady_bootLinks (b f) : Steady (bootLinks b f) := by unfold bootLinks; exact .auto
@[simp] theorem steady_bootDomain (b) : Steady (bootDomain b) := by unfold bootDomain; exact .auto
@[simp] theorem steady_booted (b f) : Steady (booted b f) := by unfold booted; exact .auto

/-! ### The functions of `Machine/Csr` -/

@[simp] theorem keeps_csrReadGate (csr) : Keeps (csrReadGate csr) := by unfold csrReadGate; exact .auto
@[simp] theorem steady_changeBank (id b old new) : Steady (changeBank id b old new) := by
  unfold changeBank; exact .auto
@[simp] theorem keeps_writeBankmode (v) : Keeps (writeBankmode v) := by unfold writeBankmode; exact .auto
@[simp] theorem keeps_csrWrite (csr v) : Keeps (csrWrite csr v) := by unfold csrWrite; exact .auto
@[simp] theorem keeps_csrOp (i d csr reads writes new) : Keeps (csrOp i d csr reads writes new) := by
  unfold csrOp; exact .auto

/-! ### The functions of `Machine/Turns` -/

@[simp] theorem steady_rotate : Steady rotate := by unfold rotate; exact .auto

/-! ## What an instruction leaves -/

/-- The next state of an outcome has the form. -/
def Lands (o : Host.Outcome State Fault Refusal) : Prop := ∀ t, o = .next t → MemoryOk t
/-- A turn keeps the form where it has a next state. -/
def LandsOn (f : State → Host.Outcome State Fault Refusal) : Prop := ∀ s, MemoryOk s → Lands (f s)

theorem LandsOn.app {f : State → Host.Outcome State Fault Refusal} {s : State} (h : LandsOn f) (h' : MemoryOk s) :
    Lands (f s) := h s h'
theorem Lands.next {s : State} (h : MemoryOk s) : Lands (.next s) := by rintro _ ⟨⟩; exact h
theorem Lands.fault {f : Fault} : Lands (.fault f) := by intro t e; simp at e
theorem Lands.ite {c : Prop} {_ : Decidable c} {o p : Host.Outcome State Fault Refusal} (h : Lands o) (h' : Lands p) :
    Lands (if c then o else p) := by split <;> assumption
theorem steady_settle {len : Nat} {m : M Flow} (hm : Keeps m) : Steady fun s => settle len (m s) s := by
  intro s h
  simp only [settle]
  split
  · next f t e => exact hm s h f t e
  · exact steady_seqStop _ s h
theorem Lands.runSeq {len : Nat} {m : M Flow} {s : State} (hm : Keeps m) (h : MemoryOk s) : Lands (runSeq len m s) :=
  .next (steady_settle hm s h)
theorem Lands.runDev {m : M Unit} {s : State} (hm : Keeps m) (h : MemoryOk s) : Lands (runDev m s) := by
  unfold Machine.runDev
  split
  · next e => exact .next (hm s h _ _ e)
  · exact .next h
@[simp] theorem landsOn_routed (i) : LandsOn (routed i) := by
  intro s h
  unfold routed
  split
  · next e =>
    have ht := Keeps.ok e (keeps_route i) h
    exact .next (.ite (.getD ht (steadyO_startQueue _ _ ht)) ht)
  · exact .next (steady_seqStop _ _ h)

/-- An outcome keeps the form, branch by branch. -/
theorem Lands.auto {o : Host.Outcome State Fault Refusal} (h : Lands o := by
  repeat' with_reducible first
    | exact Lands.fault
    | (refine Lands.next ?_; exact .auto)
    | refine Lands.ite ?_ ?_
    | (refine Lands.runSeq ?_ ?_ <;> exact .auto)
    | (refine Lands.runDev ?_ ?_ <;> exact .auto)
    | (refine LandsOn.app ?_ ?_; (focus (simp; done)); exact .auto)
    | dsimp only
    | split) : Lands o := h
theorem LandsOn.auto {f : State → Host.Outcome State Fault Refusal} (h : ∀ s, MemoryOk s → Lands (f s) := by
  exact fun s h => .auto) : LandsOn f := h

/-! ### The meanings of `Machine/Control` -/

@[simp] theorem landsOn_execUnassignedEncoding (w x) : LandsOn (execUnassignedEncoding w x) := by
  unfold execUnassignedEncoding; exact .auto
@[simp] theorem landsOn_execBeq (a b off) : LandsOn (execBeq a b off) := by unfold execBeq; exact .auto
@[simp] theorem landsOn_execBne (a b off) : LandsOn (execBne a b off) := by unfold execBne; exact .auto
@[simp] theorem landsOn_execBlt (a b off) : LandsOn (execBlt a b off) := by unfold execBlt; exact .auto
@[simp] theorem landsOn_execBge (a b off) : LandsOn (execBge a b off) := by unfold execBge; exact .auto
@[simp] theorem landsOn_execBltu (a b off) : LandsOn (execBltu a b off) := by unfold execBltu; exact .auto
@[simp] theorem landsOn_execBgeu (a b off) : LandsOn (execBgeu a b off) := by unfold execBgeu; exact .auto
@[simp] theorem landsOn_execJ (off) : LandsOn (execJ off) := by unfold execJ; exact .auto
@[simp] theorem landsOn_execJal (off) : LandsOn (execJal off) := by unfold execJal; exact .auto
@[simp] theorem landsOn_execJalr (d a) : LandsOn (execJalr d a) := by unfold execJalr; exact .auto
@[simp] theorem landsOn_execJt (a b) : LandsOn (execJt a b) := by unfold execJt; exact .auto

/-! ### The meanings of `Machine/Scalar` -/

@[simp] theorem landsOn_execLdB (sc loc d a x) : LandsOn (execLdB sc loc d a x) := by
  unfold execLdB; exact .auto
@[simp] theorem landsOn_execLdH (sc loc d a x) : LandsOn (execLdH sc loc d a x) := by
  unfold execLdH; exact .auto
@[simp] theorem landsOn_execLdW (sc loc d a x) : LandsOn (execLdW sc loc d a x) := by
  unfold execLdW; exact .auto
@[simp] theorem landsOn_execLdD (sc loc d a x) : LandsOn (execLdD sc loc d a x) := by
  unfold execLdD; exact .auto
@[simp] theorem landsOn_execLdBu (sc loc d a x) : LandsOn (execLdBu sc loc d a x) := by
  unfold execLdBu; exact .auto
@[simp] theorem landsOn_execLdHu (sc loc d a x) : LandsOn (execLdHu sc loc d a x) := by
  unfold execLdHu; exact .auto
@[simp] theorem landsOn_execLdWu (sc loc d a x) : LandsOn (execLdWu sc loc d a x) := by
  unfold execLdWu; exact .auto
@[simp] theorem landsOn_execSld (sc loc d a x) : LandsOn (execSld sc loc d a x) := by
  unfold execSld; exact .auto
@[simp] theorem landsOn_execStB (sc loc a b x) : LandsOn (execStB sc loc a b x) := by
  unfold execStB; exact .auto
@[simp] theorem landsOn_execStH (sc loc a b x) : LandsOn (execStH sc loc a b x) := by
  unfold execStH; exact .auto
@[simp] theorem landsOn_execStW (sc loc a b x) : LandsOn (execStW sc loc a b x) := by
  unfold execStW; exact .auto
@[simp] theorem landsOn_execStD (sc loc a b x) : LandsOn (execStD sc loc a b x) := by
  unfold execStD; exact .auto
@[simp] theorem landsOn_execAmoAdd (sc d a b x) : LandsOn (execAmoAdd sc d a b x) := by
  unfold execAmoAdd; exact .auto
@[simp] theorem landsOn_execAmoSwap (sc d a b x) : LandsOn (execAmoSwap sc d a b x) := by
  unfold execAmoSwap; exact .auto
@[simp] theorem landsOn_execAmoCas (sc d a b x) : LandsOn (execAmoCas sc d a b x) := by
  unfold execAmoCas; exact .auto
@[simp] theorem landsOn_execAmoFadd (sc d a b x) : LandsOn (execAmoFadd sc d a b x) := by
  unfold execAmoFadd; exact .auto
@[simp] theorem landsOn_execMonArm (a sc) : LandsOn (execMonArm a sc) := by unfold execMonArm; exact .auto
@[simp] theorem landsOn_execMonWait (d a) : LandsOn (execMonWait d a) := by unfold execMonWait; exact .auto
@[simp] theorem landsOn_execPrbR (a b) : LandsOn (execPrbR a b) := by unfold execPrbR; exact .auto
@[simp] theorem landsOn_execPrbW (a b) : LandsOn (execPrbW a b) := by unfold execPrbW; exact .auto
@[simp] theorem landsOn_execPrbRel (a b) : LandsOn (execPrbRel a b) := by unfold execPrbRel; exact .auto
@[simp] theorem landsOn_execFence (sc) : LandsOn (execFence sc) := by unfold execFence; exact .auto
@[simp] theorem landsOn_execLptLd (a) : LandsOn (execLptLd a) := by unfold execLptLd; exact .auto
@[simp] theorem landsOn_execLptNx (d a) : LandsOn (execLptNx d a) := by unfold execLptNx; exact .auto
@[simp] theorem landsOn_execLptIx (d a) : LandsOn (execLptIx d a) := by unfold execLptIx; exact .auto

/-! ### The meanings of `Machine/Matrix` -/

@[simp] theorem landsOn_execTshape (d tile b) : LandsOn (execTshape d tile b) := by
  unfold execTshape; exact .auto
@[simp] theorem landsOn_execPset (pat a) : LandsOn (execPset pat a) := by unfold execPset; exact .auto
@[simp] theorem landsOn_execPget (d pat) : LandsOn (execPget d pat) := by unfold execPget; exact .auto

/-! ### The meanings of `Machine/Updates` -/

@[simp] theorem landsOn_execUpdS (a b sc) : LandsOn (execUpdS a b sc) := by unfold execUpdS; exact .auto
@[simp] theorem landsOn_execUpdRgn (a sc) : LandsOn (execUpdRgn a sc) := by unfold execUpdRgn; exact .auto
@[simp] theorem landsOn_execUpdFlags (d a _sc) : LandsOn (execUpdFlags d a _sc) := by
  unfold execUpdFlags; exact .auto
@[simp] theorem landsOn_execUpdDrain (a sc) : LandsOn (execUpdDrain a sc) := by
  unfold execUpdDrain; exact .auto
@[simp] theorem landsOn_execTumblerPairArrival (rgn ix) : LandsOn (execTumblerPairArrival rgn ix) := by
  unfold execTumblerPairArrival; exact .auto
@[simp] theorem landsOn_execTumblerApplication (rgn) : LandsOn (execTumblerApplication rgn) := by
  unfold execTumblerApplication; exact .auto

/-! ### The meanings of `Machine/Queues` -/

@[simp] theorem landsOn_execQueueTrap (q) : LandsOn (execQueueTrap q) := by unfold execQueueTrap; exact .auto
@[simp] theorem landsOn_execTokenDeadlock (q) : LandsOn (execTokenDeadlock q) := by
  unfold execTokenDeadlock; exact .auto
@[simp] theorem landsOn_execTokenSendRelease (q) : LandsOn (execTokenSendRelease q) := by
  unfold execTokenSendRelease; exact .auto

/-! ### The meanings of `Machine/Context` -/

@[simp] theorem landsOn_execPreemption (core how) : LandsOn (execPreemption core how) := by
  unfold execPreemption; exact .auto
@[simp] theorem landsOn_execContextResume (core ix) : LandsOn (execContextResume core ix) := by
  unfold execContextResume; exact .auto
@[simp] theorem landsOn_execCtxSv (a) : LandsOn (execCtxSv a) := by unfold execCtxSv; exact .auto
@[simp] theorem landsOn_execCtxLd (a) : LandsOn (execCtxLd a) := by unfold execCtxLd; exact .auto
@[simp] theorem landsOn_execQsnSv (a) : LandsOn (execQsnSv a) := by unfold execQsnSv; exact .auto
@[simp] theorem landsOn_execQsnLd (a) : LandsOn (execQsnLd a) := by unfold execQsnLd; exact .auto
@[simp] theorem landsOn_execPartSw (a) : LandsOn (execPartSw a) := by unfold execPartSw; exact .auto
@[simp] theorem landsOn_execYield : LandsOn execYield := by unfold execYield; exact .auto

/-! ### The meanings of `Machine/Tasks` -/

@[simp] theorem landsOn_execSchedulerSelect : LandsOn execSchedulerSelect := by
  unfold execSchedulerSelect; exact .auto
@[simp] theorem landsOn_execTaskStart (ix) : LandsOn (execTaskStart ix) := by
  unfold execTaskStart; exact .auto
@[simp] theorem landsOn_execDone : LandsOn execDone := by unfold execDone; exact .auto
@[simp] theorem landsOn_execPhaseEnd : LandsOn execPhaseEnd := by unfold execPhaseEnd; exact .auto
@[simp] theorem landsOn_execHeldJoinDecrement (ix) : LandsOn (execHeldJoinDecrement ix) := by
  unfold execHeldJoinDecrement; exact .auto
@[simp] theorem landsOn_execPhaseCommit (part) : LandsOn (execPhaseCommit part) := by
  unfold execPhaseCommit; exact .auto
@[simp] theorem landsOn_execPhaseAbandon (part) : LandsOn (execPhaseAbandon part) := by
  unfold execPhaseAbandon; exact .auto

/-! ### The meanings of `Machine/Copy` -/

@[simp] theorem landsOn_execCpGo (a b sc) : LandsOn (execCpGo a b sc) := by unfold execCpGo; exact .auto
@[simp] theorem landsOn_execCpId (d a) : LandsOn (execCpId d a) := by unfold execCpId; exact .auto
@[simp] theorem landsOn_execCpWait (a b sc) : LandsOn (execCpWait a b sc) := by unfold execCpWait; exact .auto
@[simp] theorem landsOn_execCpAbort (a sc) : LandsOn (execCpAbort a sc) := by unfold execCpAbort; exact .auto
@[simp] theorem landsOn_execCopyClaim (die ch) : LandsOn (execCopyClaim die ch) := by
  unfold execCopyClaim; exact .auto
@[simp] theorem landsOn_execCopyPiece (die ch) : LandsOn (execCopyPiece die ch) := by
  unfold execCopyPiece; exact .auto
@[simp] theorem landsOn_execEngineEventPost (ix) : LandsOn (execEngineEventPost ix) := by
  unfold execEngineEventPost; exact .auto
@[simp] theorem landsOn_execCopyRetire (die ch) : LandsOn (execCopyRetire die ch) := by
  unfold execCopyRetire; exact .auto

/-! ### The meanings of `Machine/Pages` -/

@[simp] theorem landsOn_execCodeLd (d a b) : LandsOn (execCodeLd d a b) := by unfold execCodeLd; exact .auto
@[simp] theorem landsOn_execCodeInv (a b) : LandsOn (execCodeInv a b) := by unfold execCodeInv; exact .auto
@[simp] theorem landsOn_execMapInv (a b) : LandsOn (execMapInv a b) := by unfold execMapInv; exact .auto
@[simp] theorem landsOn_execMigFrz (a b) : LandsOn (execMigFrz a b) := by unfold execMigFrz; exact .auto
@[simp] theorem landsOn_execDcKeep (a b) : LandsOn (execDcKeep a b) := by unfold execDcKeep; exact .auto
@[simp] theorem landsOn_execDcUnpin (a) : LandsOn (execDcUnpin a) := by unfold execDcUnpin; exact .auto

/-! ### The meanings of `Machine/System` -/

@[simp] theorem landsOn_execNop : LandsOn execNop := by unfold execNop; exact .auto
@[simp] theorem landsOn_execBrk : LandsOn execBrk := by unfold execBrk; exact .auto
@[simp] theorem landsOn_execTrap (a) : LandsOn (execTrap a) := by unfold execTrap; exact .auto
@[simp] theorem landsOn_execEret : LandsOn execEret := by unfold execEret; exact .auto
@[simp] theorem landsOn_execPmIdle : LandsOn execPmIdle := by unfold execPmIdle; exact .auto
@[simp] theorem landsOn_execEccInj (a b) : LandsOn (execEccInj a b) := by unfold execEccInj; exact .auto
@[simp] theorem landsOn_execCntRd (d a) : LandsOn (execCntRd d a) := by unfold execCntRd; exact .auto
@[simp] theorem landsOn_execFatalContextError (cause tval) : LandsOn (execFatalContextError cause tval) := by
  unfold execFatalContextError; exact .auto
@[simp] theorem landsOn_execMonWaitTimeout (core) : LandsOn (execMonWaitTimeout core) := by
  unfold execMonWaitTimeout; exact .auto
@[simp] theorem landsOn_execPmIdleTimeout (core) : LandsOn (execPmIdleTimeout core) := by
  unfold execPmIdleTimeout; exact .auto

/-! ### The meanings of `Machine/Reliability` -/

@[simp] theorem landsOn_execClapperMismatch (core again) : LandsOn (execClapperMismatch core again) := by
  unfold execClapperMismatch; exact .auto
@[simp] theorem landsOn_execCoreReturnToService (core) : LandsOn (execCoreReturnToService core) := by
  unfold execCoreReturnToService; exact .auto
@[simp] theorem landsOn_execMatrixReplay (core) : LandsOn (execMatrixReplay core) := by
  unfold execMatrixReplay; exact .auto
@[simp] theorem landsOn_execMemoryEccError (space pa poison) : LandsOn (execMemoryEccError space pa poison) := by
  unfold execMemoryEccError; exact .auto
@[simp] theorem landsOn_execCpLockstepMismatch (die) : LandsOn (execCpLockstepMismatch die) := by
  unfold execCpLockstepMismatch; exact .auto
@[simp] theorem landsOn_execCpRestartComplete (die) : LandsOn (execCpRestartComplete die) := by
  unfold execCpRestartComplete; exact .auto
@[simp] theorem landsOn_execWatchdogExpiry (core) : LandsOn (execWatchdogExpiry core) := by
  unfold execWatchdogExpiry; exact .auto
@[simp] theorem landsOn_execHostAbort (core) : LandsOn (execHostAbort core) := by
  unfold execHostAbort; exact .auto
@[simp] theorem landsOn_execRunSliceExpiry (core) : LandsOn (execRunSliceExpiry core) := by
  unfold execRunSliceExpiry; exact .auto
@[simp] theorem landsOn_execThrottleStepDown : LandsOn execThrottleStepDown := by
  unfold execThrottleStepDown; exact .auto
@[simp] theorem landsOn_execThrottleStepUp : LandsOn execThrottleStepUp := by
  unfold execThrottleStepUp; exact .auto
@[simp] theorem landsOn_execThermalStop : LandsOn execThermalStop := by unfold execThermalStop; exact .auto
@[simp] theorem landsOn_execThermalResume : LandsOn execThermalResume := by
  unfold execThermalResume; exact .auto
@[simp] theorem landsOn_execPartitionReset (part) : LandsOn (execPartitionReset part) := by
  unfold execPartitionReset; exact .auto

/-! ### The meanings of `Machine/Kv` -/

@[simp] theorem landsOn_execKvApp (d a b) : LandsOn (execKvApp d a b) := by
  unfold execKvApp; exact fun s h => .runSeq (keeps_kvWord .auto) h
@[simp] theorem landsOn_execKvFork (d a) : LandsOn (execKvFork d a) := by
  unfold execKvFork; exact fun s h => .runSeq (keeps_kvWord .auto) h
@[simp] theorem landsOn_execKvMap (a b) : LandsOn (execKvMap a b) := by
  unfold execKvMap; exact fun s h => .runSeq (keeps_kvWord .auto) h
@[simp] theorem landsOn_execKvRel (a) : LandsOn (execKvRel a) := by
  unfold execKvRel; exact fun s h => .runSeq (keeps_kvWord .auto) h
@[simp] theorem landsOn_execKvRd (d a) : LandsOn (execKvRd d a) := by
  unfold execKvRd; exact fun s h => .runSeq (keeps_kvWord .auto) h

/-! ### The meanings of `Machine/Serving` -/

@[simp] theorem landsOn_execMoeCmb (a b sc) : LandsOn (execMoeCmb a b sc) := by unfold execMoeCmb; exact .auto
@[simp] theorem landsOn_execExsCnt (d a sc) : LandsOn (execExsCnt d a sc) := by unfold execExsCnt; exact .auto
@[simp] theorem landsOn_execExsAge (a sc) : LandsOn (execExsAge a sc) := by unfold execExsAge; exact .auto
@[simp] theorem landsOn_execExsLd (a b sc) : LandsOn (execExsLd a b sc) := by unfold execExsLd; exact .auto
@[simp] theorem landsOn_execExpertLoadClaim (die) : LandsOn (execExpertLoadClaim die) := by
  intro s h
  simp only [execExpertLoadClaim]
  split
  · exact .auto
  refine .ite .auto ?_
  split
  · exact .auto
  next e =>
  have ht := Yields.get (π := fun p => p.2.2) e (yields_ecrState h _)
  exact .auto
@[simp] theorem landsOn_execExpertLoadComplete (die) : LandsOn (execExpertLoadComplete die) := by
  unfold execExpertLoadComplete; exact .auto
@[simp] theorem landsOn_execTblSwap (a b sc) : LandsOn (execTblSwap a b sc) := by
  unfold execTblSwap; exact .auto
@[simp] theorem landsOn_execEmbPf (a b sc) : LandsOn (execEmbPf a b sc) := by unfold execEmbPf; exact .auto
@[simp] theorem landsOn_execEmbeddingPrefetch (die) : LandsOn (execEmbeddingPrefetch die) := by
  unfold execEmbeddingPrefetch; exact .auto
@[simp] theorem landsOn_execSmpCoarse (a b sc) : LandsOn (execSmpCoarse a b sc) := by
  unfold execSmpCoarse; exact .auto
@[simp] theorem landsOn_execSmpThr (d a sc) : LandsOn (execSmpThr d a sc) := by
  unfold execSmpThr; exact fun s h => .runSeq (keeps_awaitCommand .auto _ _) h
@[simp] theorem landsOn_execSmpDraw (d a b sc) : LandsOn (execSmpDraw d a b sc) := by
  unfold execSmpDraw; exact fun s h => .runSeq (keeps_awaitCommand .auto _ _) h
@[simp] theorem landsOn_execSamplerCoarsePass (cl) : LandsOn (execSamplerCoarsePass cl) := by
  unfold execSamplerCoarsePass; exact .auto
@[simp] theorem landsOn_execSamplerThresholdSearch (cl) : LandsOn (execSamplerThresholdSearch cl) := by
  unfold execSamplerThresholdSearch; exact .auto
@[simp] theorem landsOn_execSamplerDrawExecution (cl) : LandsOn (execSamplerDrawExecution cl) := by
  unfold execSamplerDrawExecution; exact .auto
@[simp] theorem landsOn_execSpecChk (d a b sc) : LandsOn (execSpecChk d a b sc) := by
  unfold execSpecChk; exact .auto
@[simp] theorem landsOn_execFragSel (d a sc) : LandsOn (execFragSel d a sc) := by
  unfold execFragSel; exact .auto
@[simp] theorem landsOn_execSpecCheckExecution (die) : LandsOn (execSpecCheckExecution die) := by
  unfold execSpecCheckExecution; exact .auto

/-! ### The meanings of `Machine/Text` -/

@[simp] theorem landsOn_execFrameReceive (port conn msg) : LandsOn (execFrameReceive port conn msg) := by
  intro s h
  simp only [execFrameReceive]
  split
  · exact .auto
  refine .ite .auto (.ite .auto ?_)
  split
  · next e => exact .next (Yields.get (π := fun t => t) e .auto)
  · exact .auto
@[simp] theorem landsOn_execWakeRetry (ring) : LandsOn (execWakeRetry ring) := by
  unfold execWakeRetry; exact .auto
@[simp] theorem landsOn_execConnectionAccept (port conn job) : LandsOn (execConnectionAccept port conn job) := by
  unfold execConnectionAccept; exact .auto
@[simp] theorem landsOn_execConnectionClose (port conn) : LandsOn (execConnectionClose port conn) := by
  unfold execConnectionClose; exact .auto
@[simp] theorem landsOn_execEthernetLinkDown (port) : LandsOn (execEthernetLinkDown port) := by
  unfold execEthernetLinkDown; exact .auto
@[simp] theorem landsOn_execEthernetLinkUp (port) : LandsOn (execEthernetLinkUp port) := by
  unfold execEthernetLinkUp; exact .auto
@[simp] theorem landsOn_execNetRx (d a sc) : LandsOn (execNetRx d a sc) := by unfold execNetRx; exact .auto
@[simp] theorem landsOn_execNetTx (a b sc) : LandsOn (execNetTx a b sc) := by unfold execNetTx; exact .auto
@[simp] theorem landsOn_execReplyTransmit (ix) : LandsOn (execReplyTransmit ix) := by
  unfold execReplyTransmit; exact .auto
@[simp] theorem landsOn_execTokSub (a b sc) : LandsOn (execTokSub a b sc) := by unfold execTokSub; exact .auto
@[simp] theorem landsOn_execDtkSub (a b sc) : LandsOn (execDtkSub a b sc) := by unfold execDtkSub; exact .auto
@[simp] theorem landsOn_execTokRes (d a sc) : LandsOn (execTokRes d a sc) := by unfold execTokRes; exact .auto
@[simp] theorem landsOn_execDtkRes (d a sc) : LandsOn (execDtkRes d a sc) := by unfold execDtkRes; exact .auto
@[simp] theorem landsOn_execTokeniserStart (e) : LandsOn (execTokeniserStart e) := by
  unfold execTokeniserStart; exact .auto
@[simp] theorem landsOn_execTokeniserComplete (e) : LandsOn (execTokeniserComplete e) := by
  unfold execTokeniserComplete; exact .auto
@[simp] theorem landsOn_execDetokeniserStart (e) : LandsOn (execDetokeniserStart e) := by
  unfold execDetokeniserStart; exact .auto
@[simp] theorem landsOn_execDetokeniserComplete (e) : LandsOn (execDetokeniserComplete e) := by
  unfold execDetokeniserComplete; exact .auto
@[simp] theorem landsOn_execVocSwap (a b sc) : LandsOn (execVocSwap a b sc) := by
  unfold execVocSwap; exact .auto

/-! ### The meanings of `Machine/Host` -/

@[simp] theorem landsOn_execCqtailWrite (via q v) : LandsOn (execCqtailWrite via q v) := by
  unfold execCqtailWrite; exact .auto
@[simp] theorem landsOn_execCqctlWrite (via q v) : LandsOn (execCqctlWrite via q v) := by
  unfold execCqctlWrite; exact .auto
@[simp] theorem landsOn_execRngctlWrite (cl ring v) : LandsOn (execRngctlWrite cl ring v) := by
  unfold execRngctlWrite; exact .auto
@[simp] theorem landsOn_execRqctlWrite (via ring v) : LandsOn (execRqctlWrite via ring v) := by
  unfold execRqctlWrite; exact .auto
@[simp] theorem landsOn_execIntstatClear (unit v) : LandsOn (execIntstatClear unit v) := by
  unfold execIntstatClear; exact .auto
@[simp] theorem landsOn_execControlPageWrite (part off bytes) : LandsOn (execControlPageWrite part off bytes) := by
  unfold execControlPageWrite; exact .auto
@[simp] theorem landsOn_execMailboxGo (part v) : LandsOn (execMailboxGo part v) := by
  unfold execMailboxGo; exact .auto
@[simp] theorem landsOn_execMailboxLoadComplete (part) : LandsOn (execMailboxLoadComplete part) := by
  unfold execMailboxLoadComplete; exact .auto
@[simp] theorem landsOn_execRegisterWrite (via place bytes) : LandsOn (execRegisterWrite via place bytes) := by
  unfold execRegisterWrite; exact .auto

/-! ### The meanings of `Machine/Links` -/

@[simp] theorem landsOn_execRemoteStoreApply (hop pa seq bytes) : LandsOn (execRemoteStoreApply hop pa seq bytes) := by
  unfold execRemoteStoreApply; exact .auto
@[simp] theorem landsOn_execStoreAck (pa seq) : LandsOn (execStoreAck pa seq) := by
  unfold execStoreAck; exact .auto
@[simp] theorem landsOn_execRemoteStoreReplay (again) : LandsOn (execRemoteStoreReplay again) := by
  unfold execRemoteStoreReplay; exact .auto
@[simp] theorem landsOn_execNalyanFlitReceive (link seq ack good) : LandsOn (execNalyanFlitReceive link seq ack good) := by
  unfold execNalyanFlitReceive; exact .auto
@[simp] theorem landsOn_execNalyanReplayRequest (link seq) : LandsOn (execNalyanReplayRequest link seq) := by
  unfold execNalyanReplayRequest; exact .auto
@[simp] theorem landsOn_execNalyanPause (link) : LandsOn (execNalyanPause link) := by
  unfold execNalyanPause; exact .auto
@[simp] theorem landsOn_execNalyanResume (link) : LandsOn (execNalyanResume link) := by
  unfold execNalyanResume; exact .auto
@[simp] theorem landsOn_execNalyanLinkDown (link) : LandsOn (execNalyanLinkDown link) := by
  unfold execNalyanLinkDown; exact .auto
@[simp] theorem landsOn_execNalyanLinkUp (link) : LandsOn (execNalyanLinkUp link) := by
  unfold execNalyanLinkUp; exact .auto
@[simp] theorem landsOn_execLeaseEnd (pa) : LandsOn (execLeaseEnd pa) := by unfold execLeaseEnd; exact .auto
@[simp] theorem landsOn_execBackInvalidateSnoop (pa) : LandsOn (execBackInvalidateSnoop pa) := by
  unfold execBackInvalidateSnoop; exact .auto
@[simp] theorem landsOn_execPoolStoreAck (ix) : LandsOn (execPoolStoreAck ix) := by
  unfold execPoolStoreAck; exact .auto
@[simp] theorem landsOn_execPoolPortLinkDown (port) : LandsOn (execPoolPortLinkDown port) := by
  unfold execPoolPortLinkDown; exact .auto
@[simp] theorem landsOn_execPoolPortLinkUp (port) : LandsOn (execPoolPortLinkUp port) := by
  unfold execPoolPortLinkUp; exact .auto
@[simp] theorem landsOn_execPoolRegionMap (base units ports) : LandsOn (execPoolRegionMap base units ports) := by
  unfold execPoolRegionMap; exact .auto
@[simp] theorem landsOn_execHostPortLost : LandsOn execHostPortLost := by unfold execHostPortLost; exact .auto
theorem memoryOk_reset : MemoryOk State.reset := ⟨rfl, rfl, rfl⟩

/-! ### The meanings of `Machine/Basoc` -/

@[simp] theorem landsOn_execColdReset : LandsOn execColdReset := by
  intro s h
  have ht : MemoryOk (s.outside (s.kept State.reset)) := h.outside memoryOk_reset.kept
  unfold execColdReset
  exact .auto
@[simp] theorem landsOn_execWarmReset : LandsOn execWarmReset := by
  intro s h
  have ht : Formed s.hostLost.mem State.reset.bank s.hostLost.code :=
    ⟨(steady_hostLost s h).1, rfl, (steady_hostLost s h).2.2⟩
  unfold execWarmReset
  refine .ite .auto (.next (steady_booted _ _ _ (.of_formed ?_)))
  exact ht
@[simp] theorem landsOn_execPowerOff : LandsOn execPowerOff := by
  intro s h
  have ht : MemoryOk (s.outside (s.kept State.reset)) := h.outside memoryOk_reset.kept
  unfold execPowerOff
  exact .auto
@[simp] theorem landsOn_execPowerCapSet (watts) : LandsOn (execPowerCapSet watts) := by
  unfold execPowerCapSet; exact .auto
@[simp] theorem landsOn_execPldmSensorRead (sensor) : LandsOn (execPldmSensorRead sensor) := by
  unfold execPldmSensorRead; exact .auto
@[simp] theorem landsOn_execFirmwareUpdate (target image) : LandsOn (execFirmwareUpdate target image) := by
  unfold execFirmwareUpdate; exact .auto
@[simp] theorem landsOn_execSpdmAttestation (nonce) : LandsOn (execSpdmAttestation nonce) := by
  unfold execSpdmAttestation; exact .auto

/-! ### The meanings of `Machine/Csr` -/

@[simp] theorem landsOn_execCsrrw (d a csr) : LandsOn (execCsrrw d a csr) := by unfold execCsrrw; exact .auto
@[simp] theorem landsOn_execCsrrs (d a csr) : LandsOn (execCsrrs d a csr) := by unfold execCsrrs; exact .auto
@[simp] theorem landsOn_execCsrrc (d a csr) : LandsOn (execCsrrc d a csr) := by unfold execCsrrc; exact .auto
@[simp] theorem landsOn_execCsrrwi (d u csr) : LandsOn (execCsrrwi d u csr) := by
  unfold execCsrrwi; exact .auto

/-! ### The meanings of `Machine/Fp` -/

@[simp] theorem landsOn_execFadd (d a b) : LandsOn (execFadd d a b) := by unfold execFadd; exact .auto
@[simp] theorem landsOn_execFsub (d a b) : LandsOn (execFsub d a b) := by unfold execFsub; exact .auto
@[simp] theorem landsOn_execFmul (d a b) : LandsOn (execFmul d a b) := by unfold execFmul; exact .auto
@[simp] theorem landsOn_execFdiv (d a b) : LandsOn (execFdiv d a b) := by unfold execFdiv; exact .auto
@[simp] theorem landsOn_execFsqrt (d a) : LandsOn (execFsqrt d a) := by unfold execFsqrt; exact .auto
@[simp] theorem landsOn_execFmin (d a b) : LandsOn (execFmin d a b) := by unfold execFmin; exact .auto
@[simp] theorem landsOn_execFmax (d a b) : LandsOn (execFmax d a b) := by unfold execFmax; exact .auto
@[simp] theorem landsOn_execFcmp (d a b) : LandsOn (execFcmp d a b) := by unfold execFcmp; exact .auto
@[simp] theorem landsOn_execF2i (d a) : LandsOn (execF2i d a) := by unfold execF2i; exact .auto
@[simp] theorem landsOn_execI2f (d a) : LandsOn (execI2f d a) := by unfold execI2f; exact .auto

/-! ### The meanings of `Machine/Integer` -/

@[simp] theorem landsOn_execAdd (d a b) : LandsOn (execAdd d a b) := by unfold execAdd; exact .auto
@[simp] theorem landsOn_execSub (d a b) : LandsOn (execSub d a b) := by unfold execSub; exact .auto
@[simp] theorem landsOn_execAnd (d a b) : LandsOn (execAnd d a b) := by unfold execAnd; exact .auto
@[simp] theorem landsOn_execOr (d a b) : LandsOn (execOr d a b) := by unfold execOr; exact .auto
@[simp] theorem landsOn_execXor (d a b) : LandsOn (execXor d a b) := by unfold execXor; exact .auto
@[simp] theorem landsOn_execSll (d a b) : LandsOn (execSll d a b) := by unfold execSll; exact .auto
@[simp] theorem landsOn_execSrl (d a b) : LandsOn (execSrl d a b) := by unfold execSrl; exact .auto
@[simp] theorem landsOn_execSra (d a b) : LandsOn (execSra d a b) := by unfold execSra; exact .auto
@[simp] theorem landsOn_execSlt (d a b) : LandsOn (execSlt d a b) := by unfold execSlt; exact .auto
@[simp] theorem landsOn_execSltu (d a b) : LandsOn (execSltu d a b) := by unfold execSltu; exact .auto
@[simp] theorem landsOn_execMul (d a b) : LandsOn (execMul d a b) := by unfold execMul; exact .auto
@[simp] theorem landsOn_execMulh (d a b) : LandsOn (execMulh d a b) := by unfold execMulh; exact .auto
@[simp] theorem landsOn_execMulhu (d a b) : LandsOn (execMulhu d a b) := by unfold execMulhu; exact .auto
@[simp] theorem landsOn_execDiv (d a b) : LandsOn (execDiv d a b) := by unfold execDiv; exact .auto
@[simp] theorem landsOn_execDivu (d a b) : LandsOn (execDivu d a b) := by unfold execDivu; exact .auto
@[simp] theorem landsOn_execRem (d a b) : LandsOn (execRem d a b) := by unfold execRem; exact .auto
@[simp] theorem landsOn_execRemu (d a b) : LandsOn (execRemu d a b) := by unfold execRemu; exact .auto
@[simp] theorem landsOn_execMin (d a b) : LandsOn (execMin d a b) := by unfold execMin; exact .auto
@[simp] theorem landsOn_execMax (d a b) : LandsOn (execMax d a b) := by unfold execMax; exact .auto
@[simp] theorem landsOn_execMinu (d a b) : LandsOn (execMinu d a b) := by unfold execMinu; exact .auto
@[simp] theorem landsOn_execMaxu (d a b) : LandsOn (execMaxu d a b) := by unfold execMaxu; exact .auto
@[simp] theorem landsOn_execClz (d a) : LandsOn (execClz d a) := by unfold execClz; exact .auto
@[simp] theorem landsOn_execCtz (d a) : LandsOn (execCtz d a) := by unfold execCtz; exact .auto
@[simp] theorem landsOn_execPopc (d a) : LandsOn (execPopc d a) := by unfold execPopc; exact .auto
@[simp] theorem landsOn_execSxb (d a) : LandsOn (execSxb d a) := by unfold execSxb; exact .auto
@[simp] theorem landsOn_execSxh (d a) : LandsOn (execSxh d a) := by unfold execSxh; exact .auto
@[simp] theorem landsOn_execSxw (d a) : LandsOn (execSxw d a) := by unfold execSxw; exact .auto
@[simp] theorem landsOn_execAddi (d a imm) : LandsOn (execAddi d a imm) := by unfold execAddi; exact .auto
@[simp] theorem landsOn_execAndi (d a imm) : LandsOn (execAndi d a imm) := by unfold execAndi; exact .auto
@[simp] theorem landsOn_execOri (d a imm) : LandsOn (execOri d a imm) := by unfold execOri; exact .auto
@[simp] theorem landsOn_execXori (d a imm) : LandsOn (execXori d a imm) := by unfold execXori; exact .auto
@[simp] theorem landsOn_execSlli (d a sh) : LandsOn (execSlli d a sh) := by unfold execSlli; exact .auto
@[simp] theorem landsOn_execSrli (d a sh) : LandsOn (execSrli d a sh) := by unfold execSrli; exact .auto
@[simp] theorem landsOn_execSrai (d a sh) : LandsOn (execSrai d a sh) := by unfold execSrai; exact .auto
@[simp] theorem landsOn_execSlti (d a imm) : LandsOn (execSlti d a imm) := by unfold execSlti; exact .auto
@[simp] theorem landsOn_execSltiu (d a imm) : LandsOn (execSltiu d a imm) := by unfold execSltiu; exact .auto
@[simp] theorem landsOn_execLi (d x) : LandsOn (execLi d x) := by unfold execLi; exact .auto
@[simp] theorem landsOn_execLih (d x) : LandsOn (execLih d x) := by unfold execLih; exact .auto

/-! ### The meanings of `Machine/Routed` -/

@[simp] theorem landsOn_execLdT (tok st tile) : LandsOn (execLdT tok st tile) := by
  unfold execLdT; exact .auto
@[simp] theorem landsOn_execLdA (tok st acc) : LandsOn (execLdA tok st acc) := by unfold execLdA; exact .auto
@[simp] theorem landsOn_execLdTi (tok st tile idx) : LandsOn (execLdTi tok st tile idx) := by
  unfold execLdTi; exact .auto
@[simp] theorem landsOn_execLdFf (tok st tile) : LandsOn (execLdFf tok st tile) := by
  unfold execLdFf; exact .auto
@[simp] theorem landsOn_execBmand (tok st tile rank) : LandsOn (execBmand tok st tile rank) := by
  unfold execBmand; exact .auto
@[simp] theorem landsOn_execBmpfx (tok st tile) : LandsOn (execBmpfx tok st tile) := by
  unfold execBmpfx; exact .auto
@[simp] theorem landsOn_execIsxG (tok st tile idx) : LandsOn (execIsxG tok st tile idx) := by
  unfold execIsxG; exact .auto
@[simp] theorem landsOn_execMmaTileTile (tok acc ta tb zf fmt) : LandsOn (execMmaTileTile tok acc ta tb zf fmt) := by
  unfold execMmaTileTile; exact .auto
@[simp] theorem landsOn_execMmaPatternA (tok acc tb pat zf fmt) : LandsOn (execMmaPatternA tok acc tb pat zf fmt) := by
  unfold execMmaPatternA; exact .auto
@[simp] theorem landsOn_execMmaPatternB (tok acc ta pat zf fmt) : LandsOn (execMmaPatternB tok acc ta pat zf fmt) := by
  unfold execMmaPatternB; exact .auto
@[simp] theorem landsOn_execCmpa (tok acc ta fmt) : LandsOn (execCmpa tok acc ta fmt) := by
  unfold execCmpa; exact .auto
@[simp] theorem landsOn_execAcz (tok acc) : LandsOn (execAcz tok acc) := by unfold execAcz; exact .auto
@[simp] theorem landsOn_execTsm (tok) : LandsOn (execTsm tok) := by unfold execTsm; exact .auto
@[simp] theorem landsOn_execStT (tok st tile) : LandsOn (execStT tok st tile) := by
  unfold execStT; exact .auto
@[simp] theorem landsOn_execStTi (tok st tile idx) : LandsOn (execStTi tok st tile idx) := by
  unfold execStTi; exact .auto
@[simp] theorem landsOn_execStFf (tok st tile) : LandsOn (execStFf tok st tile) := by
  unfold execStFf; exact .auto
@[simp] theorem landsOn_execStZ (tok st) : LandsOn (execStZ tok st) := by unfold execStZ; exact .auto
@[simp] theorem landsOn_execStA (tok st acc) : LandsOn (execStA tok st acc) := by unfold execStA; exact .auto
@[simp] theorem landsOn_execDrn (tok st acc fmt) : LandsOn (execDrn tok st acc fmt) := by
  unfold execDrn; exact .auto
@[simp] theorem landsOn_execDrnT (tok tile acc fmt) : LandsOn (execDrnT tok tile acc fmt) := by
  unfold execDrnT; exact .auto
@[simp] theorem landsOn_execDcfgSc (tok st acc col) : LandsOn (execDcfgSc tok st acc col) := by
  unfold execDcfgSc; exact .auto
@[simp] theorem landsOn_execDcfgBi (tok st acc col) : LandsOn (execDcfgBi tok st acc col) := by
  unfold execDcfgBi; exact .auto
@[simp] theorem landsOn_execDcfgFn (tok st acc) : LandsOn (execDcfgFn tok st acc) := by
  unfold execDcfgFn; exact .auto
@[simp] theorem landsOn_execDcfgCl (tok acc b) : LandsOn (execDcfgCl tok acc b) := by
  unfold execDcfgCl; exact .auto
@[simp] theorem landsOn_execDcfgRm (tok acc b) : LandsOn (execDcfgRm tok acc b) := by
  unfold execDcfgRm; exact .auto
@[simp] theorem landsOn_execSrsSeed (tok b) : LandsOn (execSrsSeed tok b) := by
  unfold execSrsSeed; exact .auto
@[simp] theorem landsOn_execUpd (tok key tile rg sc) : LandsOn (execUpd tok key tile rg sc) := by
  unfold execUpd; exact .auto
theorem landsOn_yWord (q i) {m : Core → M Unit} (hm : ∀ c, Keeps (m c)) : LandsOn (yWord q i m) := by
  intro s h
  unfold yWord
  exact .ite (.runSeq (.bind keeps_getC fun c => .bind (hm c) fun _ => keeps_pure _) h) (landsOn_routed i s h)
theorem landsOn_yWait (q i) {m : Core → M Waits} (hm : ∀ c, Keeps (m c)) : LandsOn (yWait q i m) := by
  intro s h
  unfold yWait
  exact .ite (.runSeq (.bind keeps_getC fun c => .bind (hm c) fun w => keeps_flow w) h) (landsOn_routed i s h)
@[simp] theorem landsOn_execBarInit (tok q a b sc) : LandsOn (execBarInit tok q a b sc) := by
  unfold execBarInit; exact landsOn_yWord _ _ fun _ => .auto
@[simp] theorem landsOn_execBarExp (tok q a b sc) : LandsOn (execBarExp tok q a b sc) := by
  unfold execBarExp; exact landsOn_yWord _ _ fun _ => .auto
@[simp] theorem landsOn_execBarArr (tok q a sc) : LandsOn (execBarArr tok q a sc) := by
  unfold execBarArr; exact landsOn_yWord _ _ fun _ => .auto
@[simp] theorem landsOn_execBarWait (tok q a b sc) : LandsOn (execBarWait tok q a b sc) := by
  unfold execBarWait; exact landsOn_yWait _ _ fun _ => .auto
@[simp] theorem landsOn_execRingFill (tok q a b sc) : LandsOn (execRingFill tok q a b sc) := by
  unfold execRingFill; exact landsOn_yWord _ _ fun _ => .auto
@[simp] theorem landsOn_execRingRel (tok q a b sc) : LandsOn (execRingRel tok q a b sc) := by
  unfold execRingRel; exact landsOn_yWord _ _ fun _ => .auto
@[simp] theorem landsOn_execRingWf (tok q a b sc) : LandsOn (execRingWf tok q a b sc) := by
  unfold execRingWf; exact landsOn_yWait _ _ fun _ => .auto
@[simp] theorem landsOn_execRingWe (tok q a b sc) : LandsOn (execRingWe tok q a b sc) := by
  unfold execRingWe; exact landsOn_yWait _ _ fun _ => .auto
@[simp] theorem landsOn_execEvqPost (tok q a b sc) : LandsOn (execEvqPost tok q a b sc) := by
  unfold execEvqPost; exact landsOn_yWord _ _ fun _ => .auto
@[simp] theorem landsOn_execJoinDec (tok q a sc) : LandsOn (execJoinDec tok q a sc) := by
  unfold execJoinDec; exact landsOn_yWait _ _ fun _ => .auto
@[simp] theorem landsOn_execRingCl (a b _sc) : LandsOn (execRingCl a b _sc) := by
  unfold execRingCl; exact .auto
@[simp] theorem landsOn_execRingTake (a b _sc) : LandsOn (execRingTake a b _sc) := by
  unfold execRingTake; exact .auto
@[simp] theorem landsOn_execEvqPop (a _sc) : LandsOn (execEvqPop a _sc) := by unfold execEvqPop; exact .auto
@[simp] theorem landsOn_execJoinInit (a b sc) : LandsOn (execJoinInit a b sc) := by
  unfold execJoinInit; exact .auto
@[simp] theorem landsOn_execCqPush (a b sc) : LandsOn (execCqPush a b sc) := by unfold execCqPush; exact .auto
@[simp] theorem landsOn_execSpawn (a b sc) : LandsOn (execSpawn a b sc) := by unfold execSpawn; exact .auto

/-! ## The step -/

/-- Every instruction keeps the form: each by the lemma about its own meaning. -/
@[simp] theorem landsOn_exec (i : Instr) : LandsOn (exec i) := by
  intro s h
  cases i <;> (dsimp only [exec]; exact LandsOn.app (by simp) h)
@[simp] theorem landsOn_stepWord : LandsOn stepWord := by unfold stepWord; exact .auto
@[simp] theorem landsOn_runTurn (t) : LandsOn (runTurn t) := by unfold runTurn; exact .auto
theorem Lands.rotated {o : Host.Outcome State Fault Refusal} (h : Lands o) : Lands (rotated o) := by
  intro t e
  cases o with
  | next u => cases e; exact steady_rotate _ (h u rfl)
  | fault f => simp [Machine.rotated] at e
  | refused r => simp [Machine.rotated] at e
@[simp] theorem landsOn_coreTurn : LandsOn coreTurn := by
  intro s h
  unfold coreTurn
  exact .ite (landsOn_stepWord s h).rotated .auto
@[simp] theorem landsOn_ownTurn : LandsOn ownTurn := by unfold ownTurn; exact .auto
@[simp] theorem landsOn_step : LandsOn step := by unfold step; exact .auto

/-- Settles O8: every store of the model goes through the writes that keep the form, so every function that answers a state
keeps it, and with them every instruction and every turn. -/
theorem memoryFormKept : Obligations.MemoryFormKept := fun s t h e => landsOn_step s h t e

end Sys2Proof
end

section
/-! PROOFS. What reset leaves (O9, O10), g0 (O15), and the word that a step runs (O5, O6). -/
namespace Sys2Proof
open Machine

/-! ## Register zero (O15) -/

/-- Settles O15, from the laws of a g register read back. -/
theorem registerZero : Obligations.RegisterZero := by
  unfold Obligations.RegisterZero
  intro c r v
  refine ⟨rfl, rfl, fun hr => ?_, fun x hx => Core.rg_setG_ne c r x v hx⟩
  rw [Core.rg_setG_self, if_neg hr]

/-! ## The fetch (O6) -/

/-- Settles O6: with the windows and the errors as assumed, the checks of the fetch are all passed. -/
theorem fetchReadsCode : Obligations.FetchReadsCode := by
  unfold Obligations.FetchReadsCode
  intro s w x i pc hok hpoison hw hdec hext hshort
  have hx : (if isExtended w then s.codeWord (pc + 4) else 0) = x := by
    cases h : isExtended w with
    | false => simpa using (hshort h).symm
    | true => simpa using (hext h).2.2
  have hnext (h : isExtended w = true) : s.fetchOk (pc + 4) = true ∧ s.fetchPoison (pc + 4) = false :=
    ⟨(hext h).1, (hext h).2.1⟩
  unfold fetchInstr
  simp only [hok, hpoison, hw, hx, hdec, pc]
  cases h : isExtended w with
  | false => rfl
  | true => simp [hnext h, pc]

/-! ## The word of the current core (O5) -/

/-- The sequencer has no access of its own on its way exactly when every earlier word is done. -/
theorem seqFar_eq_false_iff (s : State) : s.seqFar = false ↔ s.wordDone := by
  simp only [State.seqFar, State.wordDone, Bool.or_eq_false_iff, List.any_eq_false, Bool.and_eq_true, beq_iff_eq,
    decide_eq_true_eq, Bool.not_eq_true', not_and, Bool.not_eq_false, and_assoc, and_imp]

theorem stepWord_of_done {s : State} {i : Instr} (h : s.wordDone) (hi : fetchInstr s = .ok i) : stepWord s = exec i s := by
  simp [stepWord, (seqFar_eq_false_iff s).2 h, hi]

theorem stepWord_of_not_done {s : State} (h : ¬ s.wordDone) : stepWord s = .next s := by
  rw [← seqFar_eq_false_iff, Bool.not_eq_false] at h
  simp [stepWord, h]

theorem step_word {s : State} (hp : s.power = true) (hr : s.ready = true) (hc : s.core.runnable = true)
    (ha : s.agenda = [.word]) : step s = stepWord { s with now := s.now + 1, agenda := [] } := by
  simp [step, ha, runTurn, hp, hr, hc]

/-- With nothing on the agenda the current core has the turn where nothing else has anything to do, or had the last one. -/
theorem step_own {s : State} (hp : s.power = true) (hr : s.ready = true) (hc : s.core.runnable = true)
    (ha : s.agenda = []) (ht : autoTurn { s with now := s.now + 1 } = none ∨ s.now % 2 = 0) :
    step s = rotated (stepWord { s with now := s.now + 1 }) := by
  have hown : step s = ownTurn { s with now := s.now + 1 } := by simp [step, ha, hp, hr]
  have hcore : coreTurn { s with now := s.now + 1 } = rotated (stepWord { s with now := s.now + 1 }) := if_pos hc
  rw [hown, ← hcore]
  unfold ownTurn
  rcases ht with ht | ht
  · simp [ht]
  · have : (s.now + 1) % 2 = 1 := by omega
    simp [this, hc]

/-- Settles O5: the turn falls to `stepWord`, which runs what the fetch answers once the earlier words are done. -/
theorem stepRunsDecoded : Obligations.StepRunsDecoded := by
  unfold Obligations.StepRunsDecoded
  intro s i u hp hr hc
  refine ⟨fun hd hi => ⟨fun ha => ?_, fun ha ht => ?_⟩, fun hd ha => ?_⟩
  · rw [step_word hp hr hc ha]
    exact stepWord_of_done (s := { u with agenda := [] }) hd hi
  · rw [step_own hp hr hc ha ht]
    exact congrArg rotated (stepWord_of_done (s := u) hd hi)
  · rw [step_word hp hr hc ha]
    exact stepWord_of_not_done (s := { u with agenda := [] }) hd

/-! ## Reset (O9, O10) -/

/-- Settles O9: the three memories are empty at reset. -/
theorem resetMemoryForm : Obligations.ResetMemoryForm := memoryOk_reset

theorem vget_replicate {α : Type} (n i : Nat) (x : α) : vget (Vector.replicate n x) i x = x := by
  unfold vget; split <;> simp

/-- The number that `rep32` repeats a word into. -/
def repeated (x n : Nat) : Nat := (List.range n).foldl (fun acc _ => acc * 2 ^ 32 + x) 0

theorem repeated_succ (x n : Nat) : repeated x (n + 1) = repeated x n * 2 ^ 32 + x := by
  simp [repeated, List.range_succ]

theorem repeated_lt {x : Nat} (hx : x < 2 ^ 32) (n : Nat) : repeated x n < 2 ^ (32 * n) := by
  induction n with
  | zero => simp [repeated]
  | succ n ih => rw [repeated_succ, Nat.mul_succ, Nat.pow_add]; omega

theorem repeated_word {x : Nat} (hx : x < 2 ^ 32) {n i : Nat} (hi : i < n) :
    repeated x n / 2 ^ (32 * i) % 2 ^ 32 = x := by
  induction n generalizing i with
  | zero => omega
  | succ n ih =>
    rw [repeated_succ]
    cases i with
    | zero => simp; omega
    | succ i =>
      rw [show 32 * (i + 1) = 32 + 32 * i by omega, Nat.pow_add, ← Nat.div_div_eq_div_mul]
      have hdiv : (repeated x n * 2 ^ 32 + x) / 2 ^ 32 = repeated x n := by omega
      rw [hdiv]
      exact ih (by omega)

/-- Each word of a repeated word is that word. -/
theorem rep32_word {x : Nat} (hx : x < 2 ^ 32) {n w i : Nat} (hw : 32 * n ≤ w) (hi : i < n) :
    (rep32 n w x).extractLsb' (32 * i) 32 = BitVec.ofNat 32 x := by
  apply BitVec.eq_of_toNat_eq
  have hlt : repeated x n < 2 ^ w := (repeated_lt hx n).trans_le (Nat.pow_le_pow_right (by omega) hw)
  simp only [BitVec.extractLsb'_toNat, rep32, BitVec.toNat_ofNat, Nat.shiftRight_eq_div_pow]
  rw [← repeated, Nat.mod_eq_of_lt hlt, repeated_word hx hi, Nat.mod_eq_of_lt hx]

theorem identity_rs_word {i : Nat} (hi : i < 32) : DrainCfg.identity.rs.extractLsb' (32 * i) 32 = 0x3F800000#32 := by
  unfold DrainCfg.identity
  exact rep32_word (by decide) (by decide) hi
theorem identity_cs_word {j : Nat} (hj : j < 64) : DrainCfg.identity.cs.extractLsb' (32 * j) 32 = 0x3F800000#32 := by
  unfold DrainCfg.identity
  exact rep32_word (by decide) (by decide) hj
theorem zero_word (w i : Nat) : (0#w).extractLsb' i 32 = 0#32 := BitVec.extractLsb'_zero

theorem core_reset_rg (r : Reg) : (Core.reset 0).rg r = 0 := by
  simp [Core.rg, Core.reset]

/-- Settles O10: each value is read off the reset state; the drain settings word by word. -/
theorem resetValues : Obligations.ResetValues := by
  unfold Obligations.ResetValues
  refine ⟨rfl, rfl, rfl, rfl, rfl, rfl, rfl, rfl, rfl, core_reset_rg, fun t => ?_, fun a => ?_, ?_, fun p => ?_, fun q => ?_,
    fun n => ?_, fun n => ?_, rfl, rfl, rfl⟩
  · simp [State.reset, Core.tile, Core.reset]
  · simp [State.reset, Core.acc, Core.cfg, Core.reset]
  · exact ⟨fun i hi => ⟨identity_rs_word hi, zero_word _ _⟩, fun j hj => ⟨identity_cs_word hj, zero_word _ _⟩,
      rfl, rfl, rfl, rfl⟩
  · simp [State.reset, State.part, Part.reset]
  · have h : State.reset.cq q = Cq.reset := vget_replicate _ _ _
    simp only [h]
    exact ⟨rfl, rfl, rfl, rfl, rfl, rfl, rfl⟩
  · have h : vget State.reset.rings n HwRing.reset = HwRing.reset := vget_replicate _ _ _
    simp only [h]
    exact ⟨rfl, rfl, rfl, rfl, rfl, rfl, rfl⟩
  · have h : State.reset.rq n = ReqRing.reset := vget_replicate _ _ _
    simp only [h]
    exact ⟨rfl, rfl, rfl, rfl, rfl, rfl, rfl, rfl⟩

end Sys2Proof
end

section
/-! PROOFS. CSR reads, writes and illegal accesses (O22, O23, O24); tile shapes and pattern registers (O31). -/
namespace Sys2Proof
open Machine

/-! ## CSRs (O22, O23, O24) -/

theorem zext_eq_wrapN {n : Nat} (v : BitVec n) : zext v = wrapN v.toNat := by
  apply BitVec.eq_of_toNat_eq
  simp [zext, wrapN]

theorem zero_append_eq_wrapN (w : Word) : (0#32 ++ w : BitVec 64) = wrapN w.toNat := by
  apply BitVec.eq_of_toNat_eq
  simp only [wrapN, BitVec.toNat_append, BitVec.toNat_ofNat, Nat.zero_mod, Nat.zero_shiftLeft, Nat.zero_or]
  exact (Nat.mod_eq_of_lt (w.isLt.trans (by decide))).symm

theorem toNat_append_eq_add {m n : Nat} (x : BitVec m) (y : BitVec n) : (x ++ y).toNat = x.toNat * 2 ^ n + y.toNat := by
  rw [BitVec.toNat_append, ← Nat.shiftLeft_add_eq_or_of_lt y.isLt, Nat.shiftLeft_eq]

theorem status_eq (c : Core) : c.status = wrapN (c.det.toNat * 128 + c.phm.toNat * 2 + c.hm.toNat) := by
  unfold Core.status
  cases c.det <;> cases c.phm <;> cases c.hm <;> rfl

theorem tkcnt_eq (c : Core) :
    c.tkcnt = wrapN (c.msUp.toNat * 2 ^ 24 + c.msDn.toNat * 2 ^ 16 + c.lmUp.toNat * 2 ^ 8 + c.lmDn.toNat) := by
  unfold Core.tkcnt
  rw [zext_eq_wrapN]
  simp only [toNat_append_eq_add]
  congr 1
  simp
  omega

/-- A wait on a tile that no entry names lets the word go on (R26). -/
theorem run_waitTile {t : BitVec 4} {s : State} (h : ∀ q ∈ [1, 2, 3], ∀ e ∈ s.core.queue q, t ∉ e.names) :
    waitTile t s = .ok ((), s) := by
  have hq (q : Nat) (hq : q ∈ [1, 2, 3]) : ((s.core.queue q).any fun e => e.names.contains t) = false := by
    simpa [List.any_eq_false] using h q hq
  simp only [waitTile, run_bind, run_getC, hq 1 (by simp), hq 2 (by simp), hq 3 (by simp)]
  rfl

/-- A word that completes and changes nothing but the core. -/
theorem runSeq_did {n : Nat} {m : M Flow} {s : State} {c : Core} (h : m s = .ok (.next, { s with core := c })) :
    runSeq n m s = .next (s.did n c) := runSeq_ok h

section
variable {i : Instr} {d : Reg} {csr : BitVec 12} {reads writes : Bool} {new : Dword → Core → Dword} {s : State}

/-- An access that R34 forbids is an illegal instruction before anything else. -/
theorem csrOp_illegal (h : csrKnown csr = false ∨ writes = true ∧ csrWritable s.core.hm csr = false) :
    csrOp i d csr reads writes new s = .error (.trap cIllegal ((encode i).2 ++ (encode i).1)) := by
  have hc : (!csrKnown csr || writes && !csrWritable s.core.hm csr) = true := by
    rcases h with h | ⟨hw, h⟩ <;> simp [*]
  simp only [csrOp, run_bind, run_getC, hc]
  rfl

/-- A CSR read. -/
theorem csrOp_read (hk : csrKnown csr = true) (hg : csrReadGate csr s = .ok ((), s)) :
    csrOp i d csr true false new s = .ok (.next, { s with core := s.core.setG d (s.core.csr csr) }) := by
  simp [csrOp, hk, hg]

/-- A CSR write: the old value goes to d, which is g0 where the word makes no read. -/
theorem csrOp_write {c : Core} (hk : csrKnown csr = true) (hw : csrWritable s.core.hm csr = true)
    (hg : csrReadGate csr s = .ok ((), s)) (hr : reads = false → d = 0)
    (hput : csrWrite csr (new (s.core.csr csr) s.core) s = .ok ((), { s with core := c })) :
    csrOp i d csr reads true new s = .ok (.next, { s with core := c.setG d (s.core.csr csr) }) := by
  cases reads with
  | true => simp [csrOp, hk, hw, hg, hput]
  | false => simp [csrOp, hk, hw, hput, hr rfl]
end

/-! ### Reads -/

theorem csr_tc {c : Core} {csr : BitVec 12} (h : 0x20 ≤ csr.toNat) : c.csr csr = (c.tile (csr.extractLsb' 0 4)).tc := by
  unfold Core.csr
  split
  case h_15 => rfl
  all_goals omega

/-- The tile that a tcN names (R33). -/
theorem tile_of_csr {csr : BitVec 12} {t : Nat} (h : 0x20 + t = csr.toNat) :
    csr.extractLsb' 0 4 = BitVec.ofNat 4 t := by
  apply BitVec.eq_of_toNat_eq
  simp only [BitVec.extractLsb'_toNat, BitVec.toNat_ofNat, Nat.shiftRight_zero]
  omega

theorem csrReadGate_eq (csr : BitVec 12) : csrReadGate csr =
    if csr = 0x004 then waitQuiet else if csr = 0x018 then noDet
    else if 0x20 ≤ csr.toNat then waitTile (csr.extractLsb' 0 4) else pure () := by
  unfold csrReadGate
  split
  · next h => rw [if_pos (BitVec.eq_of_toNat_eq h)]
  · next h => rw [BitVec.eq_of_toNat_eq (y := 0x018#12) h]; rfl
  · next h4 h18 =>
    have hne4 : csr ≠ 0x004 := fun e => h4 (e ▸ rfl)
    have hne18 : csr ≠ 0x018 := fun e => h18 (e ▸ rfl)
    rw [if_neg hne4, if_neg hne18]

/-- The reads that nothing holds up (R26, R36, R38). -/
theorem csrReadGate_ok {csr : BitVec 12} {s : State} (hq : csr = 0x004 → s.core.quiet = true)
    (hd : csr = 0x018 → s.core.det = false)
    (ht : 0x020 ≤ csr.toNat → ∀ q ∈ [1, 2, 3], ∀ e ∈ s.core.queue q, csr.extractLsb' 0 4 ∉ e.names) :
    csrReadGate csr s = .ok ((), s) := by
  rw [csrReadGate_eq]
  split
  · next h => rw [run_waitQuiet, if_pos (hq h)]
  split
  · next h => rw [run_noDet, if_neg (by simp [hd h])]
  split
  · next h => exact run_waitTile (ht h)
  · rfl

/-- The value that R33 to R38 give a CSR, one tcN for each tile. -/
def csrValues (c : Core) : List (Nat × Dword) :=
  [(0x000, wrapN (c.det.toNat * 128 + c.phm.toNat * 2 + c.hm.toNat)), (0x001, wrapN c.cause.toNat), (0x002, c.epc),
   (0x003, c.tval), (0x004, wrapN c.fflg.toNat), (0x010, wrapN c.partid.toNat), (0x011, wrapN c.phase.toNat),
   (0x012, wrapN c.teamid.toNat), (0x013, wrapN c.teamsz.toNat), (0x014, c.seed), (0x015, wrapN c.iterlim.toNat),
   (0x016, wrapN c.bankmode.toNat),
   (0x017, wrapN (c.msUp.toNat * 2 ^ 24 + c.msDn.toNat * 2 ^ 16 + c.lmUp.toNat * 2 ^ 8 + c.lmDn.toNat)),
   (0x018, wrapN c.id.toNat)] ++ (List.range 16).map fun t => (0x020 + t, (c.tile (BitVec.ofNat 4 t)).tc)

theorem csr_of_mem_csrValues {c : Core} {csr : BitVec 12} {v : Dword} (hv : (csr.toNat, v) ∈ csrValues c) :
    csrKnown csr = true ∧ c.csr csr = v := by
  rcases List.mem_append.1 hv with hv | hv
  · simp only [List.mem_cons, List.not_mem_nil, or_false, Prod.mk.injEq] at hv
    rcases hv with ⟨h, rfl⟩ | ⟨h, rfl⟩ | ⟨h, rfl⟩ | ⟨h, rfl⟩ | ⟨h, rfl⟩ | ⟨h, rfl⟩ | ⟨h, rfl⟩ | ⟨h, rfl⟩ | ⟨h, rfl⟩ |
      ⟨h, rfl⟩ | ⟨h, rfl⟩ | ⟨h, rfl⟩ | ⟨h, rfl⟩ | ⟨h, rfl⟩ <;>
      simp [csrKnown, Core.csr, h, zext_eq_wrapN, status_eq, tkcnt_eq]
  · simp only [List.mem_map, List.mem_range, Prod.mk.injEq] at hv
    obtain ⟨t, ht, hcsr, rfl⟩ := hv
    constructor
    · simp [csrKnown]; omega
    · rw [csr_tc (by omega), tile_of_csr hcsr]

/-- Settles O22: a read that nothing holds up answers the CSR's value, and a = 0 makes it the whole word. -/
theorem csrReads : Obligations.CsrReads := by
  unfold Obligations.CsrReads
  intro d csr s c values hq hd ht v hv
  obtain ⟨hk, rfl⟩ := csr_of_mem_csrValues hv
  have hg := csrReadGate_ok hq hd ht
  exact ⟨runSeq_ok (csrOp_read hk hg), runSeq_ok (csrOp_read hk hg)⟩

/-! ### Illegal accesses -/

/-- A CSR instruction whose access is refused takes the illegal trap, `tval` its word. -/
theorem runSeq_csrOp_illegal {i : Instr} {d : Reg} {csr : BitVec 12} {reads writes : Bool} {new : Dword → Core → Dword}
    {s : State} (h : csrKnown csr = false ∨ writes = true ∧ csrWritable s.core.hm csr = false) (hx : (encode i).2 = 0#32) :
    runSeq 4 (csrOp i d csr reads writes new) s = .next (enterTrap 0x01 s.core.pc (wrapN (encode i).1.toNat) s) := by
  rw [runSeq_error (csrOp_illegal h), hx, zero_append_eq_wrapN]
  rfl

/-- Settles O24: the check stands before the read, and each word's second word is zero. -/
theorem csrIllegal : Obligations.CsrIllegal := by
  unfold Obligations.CsrIllegal
  intro d a csr s assigned writable traps
  refine ⟨fun h => ?_, fun h => ?_⟩
  · have hk : csrKnown csr = false := by simp [csrKnown]; omega
    exact ⟨runSeq_csrOp_illegal (.inl hk) rfl, runSeq_csrOp_illegal (.inl hk) rfl, runSeq_csrOp_illegal (.inl hk) rfl,
      runSeq_csrOp_illegal (.inl hk) rfl⟩
  · have hw : csrWritable s.core.hm csr = false := by
      cases hm : s.core.hm <;> simp [csrWritable, writable, hm] at h ⊢ <;> omega
    refine ⟨runSeq_csrOp_illegal (.inr ⟨rfl, hw⟩) rfl, runSeq_csrOp_illegal (.inr ⟨rfl, hw⟩) rfl, fun ha => ?_⟩
    have ha : (a != 0) = true := by simpa using ha
    exact ⟨runSeq_csrOp_illegal (.inr ⟨ha, hw⟩) rfl, runSeq_csrOp_illegal (.inr ⟨ha, hw⟩) rfl⟩

/-! ### Writes -/

/-- The CSRs that software may write, with the value read and the core after a write (R33, R76). -/
def csrsWritten (c : Core) : List (Nat × Dword × (Dword → Core)) :=
  [(0x001, wrapN c.cause.toNat, fun v => { c with cause := v.setWidth 7 }), (0x002, c.epc, fun v => { c with epc := v }),
   (0x003, c.tval, fun v => { c with tval := v }), (0x004, wrapN c.fflg.toNat, fun v => { c with fflg := v.setWidth 6 }),
   (0x014, c.seed, fun v => { c with seed := v }),
   (0x015, wrapN c.iterlim.toNat, fun v => { c with iterlim := if v.setWidth 8 = (0 : BitVec 8) then 1 else v.setWidth 8 })]

/-- What a write of each does, whatever is written. -/
theorem csr_of_mem_csrsWritten {s : State} {csr : BitVec 12} {old : Dword} {put : Dword → Core}
    (h : (csr.toNat, old, put) ∈ csrsWritten s.core) (hm : csr.toNat ≤ 3 → s.core.hm = true)
    (hq : csr = 0x004 → s.core.quiet = true) :
    csrKnown csr = true ∧ csrWritable s.core.hm csr = true ∧ s.core.csr csr = old ∧ csrReadGate csr s = .ok ((), s) ∧
      ∀ v, csrWrite csr v s = .ok ((), { s with core := put v }) := by
  have hquiet (h : csr.toNat = 4) : s.core.quiet = true := hq (BitVec.eq_of_toNat_eq h)
  simp only [csrsWritten, List.mem_cons, List.not_mem_nil, or_false, Prod.mk.injEq] at h
  rcases h with ⟨h, rfl, rfl⟩ | ⟨h, rfl, rfl⟩ | ⟨h, rfl, rfl⟩ | ⟨h, rfl, rfl⟩ | ⟨h, rfl, rfl⟩ | ⟨h, rfl, rfl⟩ <;>
    simp_all [csrKnown, csrWritable, Core.csr, csrReadGate, csrWrite, zext_eq_wrapN]

/-- Settles O23: each writable CSR stores what its list entry says, and the four words share one lemma. -/
theorem csrWrites : Obligations.CsrWrites := by
  unfold Obligations.CsrWrites
  intro d a u csr s c x writable hm hq old put hput ends
  obtain ⟨hk, hw, rfl, hg, hput⟩ := csr_of_mem_csrsWritten hput hm hq
  have hd : (d != 0) = false → d = 0 := by simp
  refine ⟨runSeq_ok (csrOp_write hk hw hg hd (hput _)), ?_, fun ha => ?_⟩
  · rw [← zext_eq_wrapN]
    exact runSeq_ok (csrOp_write hk hw hg hd (hput _))
  · have ha : (a != 0) = true := by simpa using ha
    have hs (i : Instr) (new : Dword → Core → Dword) :
        runSeq 4 (csrOp i d csr true (a != 0) new) s = .next (ends (new (s.core.csr csr) s.core)) := by
      rw [ha]
      exact runSeq_ok (csrOp_write hk hw hg (by simp) (hput _))
    exact ⟨hs _ _, hs _ _⟩

/-! ## Tile shapes and pattern registers (O31) -/

/-- The grant of R94 as a number: the three fields of `tshape` lie below bit 19. -/
theorem zext_grantOf (q : Dword) :
    let wc := q.toNat / 2 ^ 16 % 8
    let cols := min (max (q.toNat / 256 % 256) 1) 64
    let rows := min (min (max (q.toNat % 256) 1) 128) (32768 / (cols * (4 * 2 ^ wc)))
    zext (grantOf q) = wrapN (wc * 2 ^ 16 + cols * 2 ^ 8 + rows) := by
  intro wc cols rows
  have hlt : wc * 2 ^ 16 + cols * 2 ^ 8 + rows < 2 ^ 19 := by omega
  have h : grantOf q = BitVec.ofNat 19 (wc * 2 ^ 16 + cols * 2 ^ 8 + rows) := by
    simp [grantOf, fld, Nat.shiftRight_eq_div_pow, wc, cols, rows]
  rw [zext_eq_wrapN, h, BitVec.toNat_ofNat, Nat.mod_eq_of_lt hlt]

/-- A descriptor that `pset` accepts, field by field (R119). -/
theorem patBad_eq_false_iff (x : Dword) :
    let v := x.toNat
    let kind := v % 16
    let n := v / 16 % 1024
    patBad x = false ↔ kind < 10 ∧ 1 ≤ n ∧ n ≤ 256 ∧ v / 2 ^ 14 % 4 = 0 ∧
      (kind ≤ 6 → v / 2 ^ 16 = 0) ∧ (kind = 7 → v / 2 ^ 16 % 2 ^ 16 = 0) ∧ (kind = 8 → v / 2 ^ 32 = 0) ∧
      (kind = 9 → v / 2 ^ 20 = 0) := by
  intro v kind n
  have hv : v < 2 ^ 64 := x.isLt
  have hbad : patBad x = (decide (10 ≤ kind) || n == 0 || decide (256 < n) || v / 2 ^ 14 % 4 != 0 ||
      (if kind ≤ 6 then v / 2 ^ 16 % 2 ^ 48 != 0
       else if kind = 7 then v / 2 ^ 16 % 2 ^ 16 != 0
       else if kind = 8 then v / 2 ^ 32 % 2 ^ 32 != 0
       else v / 2 ^ 32 % 2 ^ 32 != 0 || v / 2 ^ 24 % 2 ^ 8 != 0 || v / 2 ^ 20 % 2 ^ 4 != 0)) := by
    simp [patBad, fld, Nat.shiftRight_eq_div_pow, kind, n, v]
  clear_value kind n
  rw [hbad]
  split_ifs with h6 h7 h8 <;> simp <;> omega

section
variable {d a b : Reg} {tile : BitVec 4} {pat : BitVec 3} {s : State}

theorem exec_tshape (h : ∀ k ∈ [1, 2, 3], ∀ e ∈ s.core.queue k, tile ∉ e.names) (hq : (s.core.rg b).toNat < 2 ^ 18) :
    exec (.tshape d tile b) s = .next (s.did 4 ((s.core.setTile tile
      { s.core.tile tile with tc := zext (grantOf (s.core.rg b)) }).setG d (zext (grantOf (s.core.rg b))))) := by
  refine runSeq_did ?_
  have hq : (s.core.rg b).toNat < 262144 := hq
  simp [shapeTile, run_waitTile h, hq]

theorem exec_tshape_mismatch (h : ∀ k ∈ [1, 2, 3], ∀ e ∈ s.core.queue k, tile ∉ e.names)
    (hq : 2 ^ 18 ≤ (s.core.rg b).toNat) :
    exec (.tshape d tile b) s = .next (enterTrap cShape s.core.pc (s.core.rg b) s) := by
  refine runSeq_error (x := .trap cShape (s.core.rg b)) ?_
  have hq : ¬ (s.core.rg b).toNat < 262144 := by omega
  simp [shapeTile, run_waitTile h, hq]

theorem exec_pset_zero : exec (.pset 0 a) s = .next (s.did 4 s.core) := runSeq_ok (by simp [Core.setP])

theorem exec_pset (hg : patBad (s.core.rg a) = false) :
    exec (.pset pat a) s = .next (s.did 4 (s.core.setP pat (s.core.rg a))) := by
  refine runSeq_did ?_
  simp [hg]

theorem exec_pset_bad (hp : pat ≠ 0) (hg : patBad (s.core.rg a) = true) :
    exec (.pset pat a) s = .next (enterTrap cPattern s.core.pc (s.core.rg a) s) := by
  refine runSeq_error (x := .trap cPattern (s.core.rg a)) ?_
  have hp : pat ≠ 0#3 := hp
  simp [hg, hp]

theorem exec_pget : exec (.pget d pat) s = .next (s.wrote 4 d (s.core.rp pat)) := runSeq_ok (run_result d _ s)
end

/-- Settles O31: each word by its own lemma, the grant and the check of a descriptor read as numbers. -/
theorem shapes : Obligations.Shapes := by
  unfold Obligations.Shapes
  intro d a b tile pat s c q wc cols rows grant v kind n good
  have hgrant : zext (grantOf (c.rg b)) = grant := zext_grantOf (c.rg b)
  have hbad : patBad (c.rg a) = false ↔ good := patBad_eq_false_iff (c.rg a)
  refine ⟨fun h => ⟨fun hq => ?_, fun hq => exec_tshape_mismatch h hq⟩, exec_pset_zero, fun hp hg => ?_, fun hp hg => ?_,
    exec_pget⟩
  · rw [← hgrant]
    exact exec_tshape h hq
  · rw [exec_pset (hbad.2 hg), Core.setP, if_neg hp]
    rfl
  · exact exec_pset_bad hp (by simpa using mt hbad.1 hg)

end Sys2Proof
end

section
/-! PROOFS. The frame of the words that only compute (O16). -/
namespace Sys2Proof
open Machine

/-! ## The words that only compute (O16) -/

section
variable (d : Reg) (s : State)

/-- A register result leaves every register but d. -/
theorem sameBut_wrote (n : Nat) (v : Dword) (fl : Bool) : SameBut [d] fl s.core (s.wrote n d v).core := by
  refine ⟨fun r hr => ?_, fun _ => Core.setG_fflg _ _ _, ?_⟩
  · exact Core.rg_setG_ne s.core d r v (by simpa using hr)
  · simp only [State.wrote, State.did, Core.after, Core.setG]
    split <;> rfl

/-- One with flags leaves every register but d and the flags. -/
theorem sameBut_wroteF (n : Nat) (v : Dword) (f : BitVec 6) : SameBut [d] true s.core (s.wroteF n d v f).core := by
  refine ⟨fun r hr => ?_, nofun, ?_⟩
  · exact Core.rg_setG_ne s.core d r v (by simpa using hr)
  · simp only [State.wroteF, State.did, Core.after, Core.orFlags, Core.setG]
    split <;> rfl
end

theorem sameMemory_did (s : State) (n : Nat) (c : Core) : SameMemory s (s.did n c) := fun _ => ⟨rfl, rfl, rfl⟩

/-- Flags ORed in keep those that were set. -/
theorem or_and_self (x y : BitVec 6) : (x ||| y) &&& x = x := by
  ext i hi
  rw [BitVec.getElem_and, BitVec.getElem_or]
  cases x[i] <;> cases y[i] <;> rfl

/-- Settles O16: each plain word is a register result, each flagged one a register result with flags. -/
theorem computeFrame : Obligations.ComputeFrame := by
  unfold Obligations.ComputeFrame
  intro i d a b imm sh v s t plain flagged hi ht
  have hplain (h : i ∈ plain) : ∃ n x, exec i s = .next (s.wrote n d x) := by
    simp only [plain, List.mem_cons, List.not_mem_nil, or_false] at h
    casesm* _ ∨ _ <;> subst h <;> exact ⟨_, _, runSeq_did (run_result d _ s)⟩
  have hflagged (h : i ∈ flagged) : ∃ x f, exec i s = .next (s.wroteF 4 d x f) := by
    simp only [flagged, List.mem_cons, List.not_mem_nil, or_false] at h
    casesm* _ ∨ _ <;> subst h <;> exact ⟨_, _, runSeq_did (run_resultF d _ s)⟩
  rcases List.mem_append.1 hi with hi | hi
  · obtain ⟨n, x, he⟩ := hplain hi
    obtain rfl : s.wrote n d x = t := by simpa [he] using ht
    refine ⟨sameBut_wrote d s n x _, ?_, sameMemory_did _ _ _, rfl⟩
    rw [(sameBut_wrote d s n x false).2.1 rfl, BitVec.and_self]
  · obtain ⟨x, f, he⟩ := hflagged hi
    obtain rfl : s.wroteF 4 d x f = t := by simpa [he] using ht
    rw [decide_eq_true hi]
    refine ⟨sameBut_wroteF d s 4 x f, ?_, sameMemory_did _ _ _, rfl⟩
    show ((s.core.setG d x).fflg ||| f) &&& s.core.fflg = s.core.fflg
    rw [Core.setG_fflg, or_and_self]

end Sys2Proof
end

section
/-! PROOFS. The fields of an instruction word taken apart and put together again (R46, R47). -/
namespace Sys2Proof
open Machine

/-! ## The parts of a field (R47, R51-R53) -/

@[simp] theorem memFn_scope : ∀ sc loc k, (memFn sc loc k).extractLsb' 4 3 = sc := by decide
@[simp] theorem memFn_loc : ∀ sc loc k, (memFn sc loc k)[3] = loc := by decide
@[simp] theorem memFn_op : ∀ sc loc k, (memFn sc loc k).extractLsb' 0 3 = k := by decide
@[simp] theorem scFn_scope : ∀ sc k, (scFn sc k).extractLsb' 4 3 = sc := by decide
@[simp] theorem scFn_op : ∀ sc k, (scFn sc k).extractLsb' 0 4 = k := by decide
@[simp] theorem fnSc_op : ∀ k sc, (fnSc k sc).extractLsb' 3 4 = k := by decide
@[simp] theorem fnSc_scope : ∀ k sc, (fnSc k sc).extractLsb' 0 3 = sc := by decide
@[simp] theorem tile5_high : ∀ t, (tile5 t)[4] = false := by decide
@[simp] theorem tile5_low : ∀ t, (tile5 t).extractLsb' 0 4 = t := by decide
@[simp] theorem pat5_high : ∀ p, (pat5 p).extractLsb' 3 2 = 0 := by decide
@[simp] theorem pat5_low : ∀ p, (pat5 p).extractLsb' 0 3 = p := by decide
@[simp] theorem acc4_high : ∀ a, (acc4 a).extractLsb' 2 2 = 0 := by decide
@[simp] theorem acc4_low : ∀ a, (acc4 a).extractLsb' 0 2 = a := by decide
@[simp] theorem acc5_high : ∀ a, (acc5 a).extractLsb' 2 3 = 0 := by decide
@[simp] theorem acc5_low : ∀ a, (acc5 a).extractLsb' 0 2 = a := by decide
@[simp] theorem mmaFn_side : ∀ side z f, (mmaFn side z f)[8] = side := by decide
@[simp] theorem mmaFn_zero : ∀ side z f, (mmaFn side z f)[7] = z := by decide
@[simp] theorem mmaFn_reserved : ∀ side z f, (mmaFn side z f).extractLsb' 5 2 = 0 := by decide
@[simp] theorem mmaFn_fmt : ∀ side z f, (mmaFn side z f).extractLsb' 0 5 = f := by decide
@[simp] theorem drnFn_op : ∀ k f, (drnFn k f).extractLsb' 5 3 = k := by decide
@[simp] theorem drnFn_low : ∀ k f, (drnFn k f).extractLsb' 0 5 = f := by decide
@[simp] theorem colFn_high : ∀ c, (colFn c).extractLsb' 1 4 = 0 := by decide
@[simp] theorem colFn_low : ∀ c, (colFn c)[0] = c := by decide
@[simp] theorem shImm_op : ∀ k sh, (shImm k sh).extractLsb' 10 2 = k := by decide
@[simp] theorem shImm_reserved : ∀ k sh, (shImm k sh).extractLsb' 6 4 = 0 := by decide
@[simp] theorem shImm_amount : ∀ k sh, (shImm k sh).extractLsb' 0 6 = sh := by decide
@[simp] theorem cmpaFn_high (f : BitVec 5) : (0#4 ++ f).extractLsb' 5 4 = 0#4 := by revert f; decide
@[simp] theorem cmpaFn_low (f : BitVec 5) : (0#4 ++ f).extractLsb' 0 5 = f := by revert f; decide
@[simp] theorem updFn_scope (sc : BitVec 3) : (sc ++ 0#5).extractLsb' 5 3 = sc := by revert sc; decide
@[simp] theorem updFn_low (sc : BitVec 3) : (sc ++ 0#5).extractLsb' 0 5 = 0 := by revert sc; decide
/-! The single bits once more, as the decoder writes them; the form above is the one that `simp` brings them to. -/

theorem memFn_getLsbD (sc : BitVec 3) (loc : Bool) (k : BitVec 3) : (memFn sc loc k).getLsbD 3 = loc := memFn_loc sc loc k
theorem mmaFn_getLsbD_side (side z : Bool) (f : BitVec 5) : (mmaFn side z f).getLsbD 8 = side := mmaFn_side side z f
theorem mmaFn_getLsbD_zero (side z : Bool) (f : BitVec 5) : (mmaFn side z f).getLsbD 7 = z := mmaFn_zero side z f

@[simp] theorem tokOfBits_bits (t : Tok) : tokOfBits t.bits = t := by
  obtain ⟨wu, wd, su, sd⟩ := t
  revert wu wd su sd; decide

/-! ## A word from its fields (R46) -/

theorem bits_tokOfBits : ∀ t, (tokOfBits t).bits = t := by decide

/-- Two neighbouring fields are one field. -/
theorem join_fields {k : Nat} (w : BitVec k) (lo n m : Nat) :
    w.extractLsb' (lo + n) m ++ w.extractLsb' lo n = w.extractLsb' lo (m + n) :=
  BitVec.extractLsb'_append_extractLsb'_eq_extractLsb' rfl

section
variable (w : Word)

theorem mkM_fields : mkM (fMajor w) (tokOfBits (fTok w)) (f20 w) (f16 w) (fTb w) (fPat w) (fFn9 w) = w := by
  unfold mkM fMajor f20 f16 fTb fPat fFn9
  rw [bits_tokOfBits, fTok, join_fields w 22 4 6, join_fields w 20 2 10, join_fields w 16 4 12, join_fields w 12 4 16,
    join_fields w 9 3 20, join_fields w 0 9 23, extract_whole]
theorem mkE_fields : mkE (fMajor w) (tokOfBits (fTok w)) (f17 w) (f13 w) (f8 w) (fFn8 w) = w := by
  unfold mkE fMajor f17 f13 f8 fFn8
  rw [bits_tokOfBits, fTok, join_fields w 22 4 6, join_fields w 17 5 10, join_fields w 13 4 15, join_fields w 8 5 19,
    join_fields w 0 8 24, extract_whole]
theorem mkY_fields : mkY (fMajor w) (tokOfBits (fTok w)) (f20 w) (f15 w) (f10 w) (fSc7 w) (fFn7 w) = w := by
  unfold mkY fMajor f20 f15 f10 fSc7 fFn7
  rw [bits_tokOfBits, fTok, join_fields w 22 4 6, join_fields w 20 2 10, join_fields w 15 5 12, join_fields w 10 5 17,
    join_fields w 7 3 22, join_fields w 0 7 25, extract_whole]

end

section
variable {w : Word} (ht : fTok w = 0)
include ht

theorem mkS3_fields : mkS3 (fMajor w) (f17 w) (f12 w) (f7 w) (fFn7 w) = w := by
  unfold mkS3 fMajor f17 f12 f7 fFn7
  rw [← ht, fTok, join_fields w 22 4 6, join_fields w 17 5 10, join_fields w 12 5 15, join_fields w 7 5 20,
    join_fields w 0 7 25, extract_whole]
theorem mkSI_fields : mkSI (fMajor w) (f17 w) (f12 w) (fImm w) = w := by
  unfold mkSI fMajor f17 f12 fImm
  rw [← ht, fTok, join_fields w 22 4 6, join_fields w 17 5 10, join_fields w 12 5 15, join_fields w 0 12 20,
    extract_whole]
theorem mkSJ_fields : mkSJ (fMajor w) (fOff22 w) = w := by
  unfold mkSJ fMajor fOff22
  rw [← ht, fTok, join_fields w 22 4 6, join_fields w 0 22 10, extract_whole]

end

/-! ## A field from its parts (R47, R51-R53) -/

theorem exists_memFn (fn : BitVec 7) : ∃ sc loc k, fn = memFn sc loc k := by
  refine ⟨fn.extractLsb' 4 3, fn[3], fn.extractLsb' 0 3, ?_⟩
  revert fn; decide
theorem exists_scFn (fn : BitVec 7) : ∃ sc k, fn = scFn sc k := by
  refine ⟨fn.extractLsb' 4 3, fn.extractLsb' 0 4, ?_⟩
  revert fn; decide
theorem exists_fnSc (fn : BitVec 7) : ∃ k sc, fn = fnSc k sc := by
  refine ⟨fn.extractLsb' 3 4, fn.extractLsb' 0 3, ?_⟩
  revert fn; decide
theorem exists_drnFn (fn : BitVec 8) : ∃ k f, fn = drnFn k f := by
  refine ⟨fn.extractLsb' 5 3, fn.extractLsb' 0 5, ?_⟩
  revert fn; decide
theorem tile5_of_high : ∀ g : BitVec 5, (!g.getLsbD 4) = true → tile5 (g.extractLsb' 0 4) = g := by decide
theorem pat5_of_high : ∀ g : BitVec 5, g.extractLsb' 3 2 = 0#2 → pat5 (g.extractLsb' 0 3) = g := by decide
theorem acc4_of_high : ∀ t : BitVec 4, t.extractLsb' 2 2 = 0#2 → acc4 (t.extractLsb' 0 2) = t := by decide
theorem acc5_of_high : ∀ g : BitVec 5, g.extractLsb' 2 3 = 0#3 → acc5 (g.extractLsb' 0 2) = g := by decide
theorem colFn_of_high : ∀ f : BitVec 5, f.extractLsb' 1 4 = 0#4 → colFn (f.getLsbD 0) = f := by decide
theorem mmaFn_of_reserved : ∀ fn : BitVec 9, fn.extractLsb' 5 2 = 0#2 →
    mmaFn (fn.getLsbD 8) (fn.getLsbD 7) (fn.extractLsb' 0 5) = fn := by decide
theorem cmpaFn_of_high : ∀ fn : BitVec 9, fn.extractLsb' 5 4 = 0#4 → 0#4 ++ fn.extractLsb' 0 5 = fn := by decide
theorem updFn_of_low : ∀ fn : BitVec 8, fn.extractLsb' 0 5 = 0#5 → fn.extractLsb' 5 3 ++ 0#5 = fn := by decide
theorem shImm_of_reserved (imm : BitVec 12) (h : imm.extractLsb' 6 4 = 0#4) :
    shImm (imm.extractLsb' 10 2) (imm.extractLsb' 0 6) = imm := by
  have hi : imm.extractLsb' 6 4 = 0 := h
  unfold shImm
  rw [← hi, join_fields imm 6 4 2, join_fields imm 0 6 6, extract_whole]
theorem eq_ofNat_of_toNat {n k : Nat} {v : BitVec n} (h : v.toNat = k) : v = BitVec.ofNat n k := by
  rw [← h, BitVec.ofNat_toNat, BitVec.setWidth_eq]

end Sys2Proof
end

section
/-! PROOFS. The decoder finds every encoded instruction (O1); the order of its checks (O4). -/
namespace Sys2Proof
open Machine

/-! ## The decoder's checks -/

section
variable {n : Nat} (o : Option Instr)
@[simp] theorem needZ_zero : needZ 0#n o = o := if_pos rfl
theorem needSc_ok {sc : BitVec 3} (h : scopeOk sc = true) : needSc sc o = o := if_neg (by simpa [scopeOk] using h)
@[simp] theorem needIf_true : needIf true o = o := rfl
end

theorem decMmaFmt_eq : ∀ f, decMmaFmt f = mmaFmtOk f := by decide
theorem decTileFmt_eq : ∀ f, decTileFmt f = plainFmtOk f := by decide
theorem decDrnFmt_eq (f : BitVec 5) : decDrnFmt f = drnFmtOk f := by
  unfold decDrnFmt drnFmtOk
  rw [decTileFmt_eq]
  revert f; decide

section
variable {f : BitVec 5} (o : Option Instr)
theorem needIf_mmaFmt (h : mmaFmtOk f = true) : needIf (decMmaFmt f) o = o := by rw [decMmaFmt_eq, h, needIf_true]
theorem needIf_tileFmt (h : plainFmtOk f = true) : needIf (decTileFmt f) o = o := by rw [decTileFmt_eq, h, needIf_true]
theorem needIf_drnFmt (h : drnFmtOk f = true) : needIf (decDrnFmt f) o = o := by rw [decDrnFmt_eq, h, needIf_true]
end

/-- An even register other than g0 (R189). -/
theorem evenReg_eq : ∀ a : Reg, (!a.getLsbD 0 && a != 0) = (a.toNat % 2 == 0 && a != 0) := by decide
theorem needIf_evenReg {a : Reg} (o : Option Instr) (h : (a.toNat % 2 == 0 && a != 0) = true) :
    needIf (!a.getLsbD 0 && a != 0) o = o := by rw [evenReg_eq, h, needIf_true]

/-- The majors of the sequencer's words (R51, R52). -/
def sequencerMajor (m : BitVec 6) : Bool := m.toNat < 0x20 || 0x3C ≤ m.toNat

theorem wordAgent_of_sequencerMajor {w : Word} (h : sequencerMajor (fMajor w) = true) : wordAgent w = 0 := by
  unfold sequencerMajor at h
  unfold wordAgent
  generalize (fMajor w).toNat = n at h ⊢
  split
  case h_13 => rfl
  all_goals exact absurd h (by decide)

/-! ## What the decoder reads of a word, major by major (R51, R52) -/

section
variable (d a b st g : BitVec 5) (fn7 : BitVec 7) (fn8 : BitVec 8) (fn9 : BitVec 9) (imm : BitVec 12) (x : Word)
  (t : Tok) (acc q : BitVec 2) (ta tb tile : BitVec 4) (p sc : BitVec 3)

theorem decodeWord_int : decodeWord (mkS3 0x00 d a b fn7) x = decInt d a b fn7 := by
  rw [decodeWord, fMajor_mkS3, f17_mkS3, f12_mkS3, f7_mkS3, fFn7_mkS3]; rfl
theorem decodeWord_fp : decodeWord (mkS3 0x09 d a b fn7) x = decFp d a b fn7 := by
  rw [decodeWord, fMajor_mkS3, f17_mkS3, f12_mkS3, f7_mkS3, fFn7_mkS3]; rfl
theorem decodeWord_jump : decodeWord (mkS3 0x12 d a b fn7) x = decJump d a b fn7 := by
  rw [decodeWord, fMajor_mkS3, f17_mkS3, f12_mkS3, f7_mkS3, fFn7_mkS3]; rfl
theorem decodeWord_load : decodeWord (mkS3 0x17 d a b fn7) x = decLoad d a b fn7 x := by
  rw [decodeWord, fMajor_mkS3, f17_mkS3, f12_mkS3, f7_mkS3, fFn7_mkS3]; rfl
theorem decodeWord_store : decodeWord (mkS3 0x18 d a b fn7) x = decStore d a b fn7 x := by
  rw [decodeWord, fMajor_mkS3, f17_mkS3, f12_mkS3, f7_mkS3, fFn7_mkS3]; rfl
theorem decodeWord_amo : decodeWord (mkS3 0x19 d a b fn7) x = decAmo d a b fn7 x := by
  rw [decodeWord, fMajor_mkS3, f17_mkS3, f12_mkS3, f7_mkS3, fFn7_mkS3]; rfl
theorem decodeWord_shape : decodeWord (mkS3 0x1A d a b fn7) x = decShape d a b fn7 := by
  rw [decodeWord, fMajor_mkS3, f17_mkS3, f12_mkS3, f7_mkS3, fFn7_mkS3]; rfl
theorem decodeWord_fence : decodeWord (mkS3 0x1B d a b fn7) x = decFence d a b fn7 := by
  rw [decodeWord, fMajor_mkS3, f17_mkS3, f12_mkS3, f7_mkS3, fFn7_mkS3]; rfl
theorem decodeWord_loop : decodeWord (mkS3 0x1C d a b fn7) x = decLoop d a b fn7 := by
  rw [decodeWord, fMajor_mkS3, f17_mkS3, f12_mkS3, f7_mkS3, fFn7_mkS3]; rfl
theorem decodeWord_serve : decodeWord (mkS3 0x1D d a b fn7) x = decServe d a b fn7 := by
  rw [decodeWord, fMajor_mkS3, f17_mkS3, f12_mkS3, f7_mkS3, fFn7_mkS3]; rfl
theorem decodeWord_text : decodeWord (mkS3 0x1E d a b fn7) x = decText d a b fn7 := by
  rw [decodeWord, fMajor_mkS3, f17_mkS3, f12_mkS3, f7_mkS3, fFn7_mkS3]; rfl
theorem decodeWord_upd : decodeWord (mkS3 0x1F d a b fn7) x = decUpd d a b fn7 := by
  rw [decodeWord, fMajor_mkS3, f17_mkS3, f12_mkS3, f7_mkS3, fFn7_mkS3]; rfl
theorem decodeWord_sys : decodeWord (mkS3 0x3C d a b fn7) x = decSys d a b fn7 := by
  rw [decodeWord, fMajor_mkS3, f17_mkS3, f12_mkS3, f7_mkS3, fFn7_mkS3]; rfl
theorem decodeWord_kv : decodeWord (mkS3 0x3D d a b fn7) x = decKv d a b fn7 := by
  rw [decodeWord, fMajor_mkS3, f17_mkS3, f12_mkS3, f7_mkS3, fFn7_mkS3]; rfl
theorem decodeWord_keep : decodeWord (mkS3 0x3E d a b fn7) x = decKeep d a b fn7 := by
  rw [decodeWord, fMajor_mkS3, f17_mkS3, f12_mkS3, f7_mkS3, fFn7_mkS3]; rfl
theorem decodeWord_shift : decodeWord (mkSI 0x05 d a imm) x = decShift d a imm := by
  rw [decodeWord, fMajor_mkSI, f17_mkSI, f12_mkSI, fImm_mkSI]; rfl
theorem decodeWord_long : decodeWord (mkSI 0x08 d a imm) x = decLong d a imm x := by
  rw [decodeWord, fMajor_mkSI, f17_mkSI, f12_mkSI, fImm_mkSI]; rfl
theorem decodeWord_tileLd : decodeWord (mkE 0x20 t st tile g fn8) x = decTileLd t st tile g fn8 := by
  rw [decodeWord, fMajor_mkE, fTok_mkE, tokOfBits_bits, f17_mkE, f13_mkE, f8_mkE, fFn8_mkE]; rfl
theorem decodeWord_bitmap : decodeWord (mkE 0x21 t st tile g fn8) x = decBitmap t st tile g fn8 := by
  rw [decodeWord, fMajor_mkE, fTok_mkE, tokOfBits_bits, f17_mkE, f13_mkE, f8_mkE, fFn8_mkE]; rfl
theorem decodeWord_tileSt : decodeWord (mkE 0x30 t st tile g fn8) x = decTileSt t st tile g fn8 := by
  rw [decodeWord, fMajor_mkE, fTok_mkE, tokOfBits_bits, f17_mkE, f13_mkE, f8_mkE, fFn8_mkE]; rfl
theorem decodeWord_drain : decodeWord (mkE 0x31 t st tile g fn8) x = decDrain t st tile g fn8 := by
  rw [decodeWord, fMajor_mkE, fTok_mkE, tokOfBits_bits, f17_mkE, f13_mkE, f8_mkE, fFn8_mkE]; rfl
theorem decodeWord_updT : decodeWord (mkE 0x32 t st tile g fn8) x = decUpdT t st tile g fn8 := by
  rw [decodeWord, fMajor_mkE, fTok_mkE, tokOfBits_bits, f17_mkE, f13_mkE, f8_mkE, fFn8_mkE]; rfl
theorem decodeWord_mma : decodeWord (mkM 0x28 t acc ta tb p fn9) x = decMma t acc ta tb p fn9 := by
  rw [decodeWord, fMajor_mkM, fTok_mkM, tokOfBits_bits, f20_mkM, f16_mkM, fTb_mkM, fPat_mkM, fFn9_mkM]; rfl
theorem decodeWord_cmpa : decodeWord (mkM 0x29 t acc ta tb p fn9) x = decCmpa t acc ta tb p fn9 := by
  rw [decodeWord, fMajor_mkM, fTok_mkM, tokOfBits_bits, f20_mkM, f16_mkM, fTb_mkM, fPat_mkM, fFn9_mkM]; rfl
theorem decodeWord_acz : decodeWord (mkM 0x2A t acc ta tb p fn9) x = decAcz t acc ta tb p fn9 := by
  rw [decodeWord, fMajor_mkM, fTok_mkM, tokOfBits_bits, f20_mkM, f16_mkM, fTb_mkM, fPat_mkM, fFn9_mkM]; rfl
theorem decodeWord_bar : decodeWord (mkY 0x38 t q a b sc fn7) x = decBar t q a b sc fn7 := by
  rw [decodeWord, fMajor_mkY, fTok_mkY, tokOfBits_bits, f20_mkY, f15_mkY, f10_mkY, fSc7_mkY, fFn7_mkY]; rfl
theorem decodeWord_ring : decodeWord (mkY 0x39 t q a b sc fn7) x = decRing t q a b sc fn7 := by
  rw [decodeWord, fMajor_mkY, fTok_mkY, tokOfBits_bits, f20_mkY, f15_mkY, f10_mkY, fSc7_mkY, fFn7_mkY]; rfl
theorem decodeWord_evq : decodeWord (mkY 0x3A t q a b sc fn7) x = decEvq t q a b sc fn7 := by
  rw [decodeWord, fMajor_mkY, fTok_mkY, tokOfBits_bits, f20_mkY, f15_mkY, f10_mkY, fSc7_mkY, fFn7_mkY]; rfl
theorem decodeWord_task : decodeWord (mkY 0x3B t q a b sc fn7) x = decTask t q a b sc fn7 := by
  rw [decodeWord, fMajor_mkY, fTok_mkY, tokOfBits_bits, f20_mkY, f15_mkY, f10_mkY, fSc7_mkY, fFn7_mkY]; rfl

end

/-! ## What the decoder finds in an encoded word (O1) -/

/-- The words are those of an instruction, with its token flags and for its agent. -/
structure Reads (p : Word × Word) (i : Instr) (t : Tok) (q : BitVec 2) : Prop where
  instr : decodeWord p.1 p.2 = some i
  tok : fTok p.1 = t.bits
  agent : wordAgent p.1 = q.toNat

section
variable {m : BitVec 6} {d a b : Reg} {x : Word} {t : Tok} {i : Instr}

theorem reads_S3 {fn : BitVec 7} (hm : sequencerMajor m = true) (h : decodeWord (mkS3 m d a b fn) x = some i) :
    Reads (mkS3 m d a b fn, x) i noTok 0 :=
  ⟨h, fTok_mkS3 .., wordAgent_of_sequencerMajor (by simpa using hm)⟩

theorem reads_SI {imm : BitVec 12} (hm : sequencerMajor m = true) (h : decodeWord (mkSI m d a imm) x = some i) :
    Reads (mkSI m d a imm, x) i noTok 0 :=
  ⟨h, fTok_mkSI .., wordAgent_of_sequencerMajor (by simpa using hm)⟩

theorem reads_SJ {off : BitVec 22} (hm : sequencerMajor m = true) (h : decodeWord (mkSJ m off) x = some i) :
    Reads (mkSJ m off, x) i noTok 0 :=
  ⟨h, fTok_mkSJ .., wordAgent_of_sequencerMajor (by simpa using hm)⟩

theorem reads_M {acc : BitVec 2} {ta tb : BitVec 4} {p : BitVec 3} {fn : BitVec 9} (hm : m = 0x28 ∨ m = 0x29 ∨ m = 0x2A)
    (h : decodeWord (mkM m t acc ta tb p fn) x = some i) : Reads (mkM m t acc ta tb p fn, x) i t 2 :=
  ⟨h, fTok_mkM .., by rcases hm with rfl | rfl | rfl <;> simp [wordAgent]⟩

theorem reads_load {st g : BitVec 5} {tile : BitVec 4} {fn : BitVec 8} (hm : m = 0x20 ∨ m = 0x21)
    (h : decodeWord (mkE m t st tile g fn) x = some i) : Reads (mkE m t st tile g fn, x) i t 1 :=
  ⟨h, fTok_mkE .., by rcases hm with rfl | rfl <;> simp [wordAgent]⟩

theorem reads_store {st g : BitVec 5} {tile : BitVec 4} {fn : BitVec 8} (hm : m = 0x30 ∨ m = 0x31 ∨ m = 0x32)
    (h : decodeWord (mkE m t st tile g fn) x = some i) : Reads (mkE m t st tile g fn, x) i t 3 :=
  ⟨h, fTok_mkE .., by rcases hm with rfl | rfl | rfl <;> simp [wordAgent]⟩

theorem reads_Y {q : BitVec 2} {sc : BitVec 3} {fn : BitVec 7} (hm : m = 0x38 ∨ m = 0x39 ∨ m = 0x3A ∨ m = 0x3B)
    (h : decodeWord (mkY m t q a b sc fn) x = some i) : Reads (mkY m t q a b sc fn, x) i t q :=
  ⟨h, fTok_mkY .., by rcases hm with rfl | rfl | rfl | rfl <;> simp [wordAgent]⟩

end

/-- The words of every instruction that has words, major by major. -/
theorem reads_encode {i : Instr} (hw : i.isEvent = false) (hf : i.fieldsOk = true) :
    Reads (encode i) i i.tok i.agent := by
  cases i with
  | add | sub | and | or | xor | sll | srl | sra | slt | sltu | mul | mulh | mulhu | div | divu | rem | remu | min | max
  | minu | maxu | clz | ctz | popc | sxb | sxh | sxw => exact reads_S3 (by decide) (decodeWord_int ..)
  | addi | andi | ori | xori | slti | sltiu | beq | bne | blt | bge | bltu | bgeu | csrrw | csrrs | csrrc | csrrwi =>
    exact reads_SI (by decide) (by simp [decodeWord])
  | slli | srli | srai => exact reads_SI (by decide) ((decodeWord_shift ..).trans (by simp [decShift]))
  | li | lih => exact reads_SI (by decide) (decodeWord_long ..)
  | fadd | fsub | fmul | fdiv | fsqrt | fmin | fmax | fcmp | f2i | i2f =>
    exact reads_S3 (by decide) (decodeWord_fp ..)
  | j | jal => exact reads_SJ (by decide) (by simp [decodeWord])
  | jalr | jt => exact reads_S3 (by decide) (decodeWord_jump ..)
  | ldB | ldH | ldW | ldD | ldBu | ldHu | ldWu | sld =>
    exact reads_S3 (by decide) ((decodeWord_load ..).trans (by simp [decLoad, needSc_ok _ hf]))
  | stB | stH | stW | stD =>
    exact reads_S3 (by decide) ((decodeWord_store ..).trans (by simp [decStore, needSc_ok _ hf]))
  | amoAdd | amoSwap | amoCas | amoFadd =>
    exact reads_S3 (by decide) ((decodeWord_amo ..).trans (by simp [decAmo, needSc_ok _ hf]))
  | tshape | pset | pget => exact reads_S3 (by decide) ((decodeWord_shape ..).trans (by simp [decShape]))
  | fence | monArm => exact reads_S3 (by decide) ((decodeWord_fence ..).trans (by simp [decFence, needSc_ok _ hf]))
  | monWait | prbR | prbW | prbRel => exact reads_S3 (by decide) (decodeWord_fence ..)
  | lptLd | lptNx | lptIx => exact reads_S3 (by decide) (decodeWord_loop ..)
  | smpCoarse | smpThr | smpDraw | specChk | fragSel | tblSwap | embPf | moeCmb | exsLd | exsCnt | exsAge =>
    exact reads_S3 (by decide) ((decodeWord_serve ..).trans (by simp [decServe, needSc_ok _ hf]))
  | netRx | netTx | tokSub | tokRes | dtkSub | dtkRes | vocSwap =>
    exact reads_S3 (by decide) ((decodeWord_text ..).trans (by simp [decText, needSc_ok _ hf]))
  | updS | updRgn | updFlags | updDrain | cpGo | cpWait | cpAbort =>
    exact reads_S3 (by decide) ((decodeWord_upd ..).trans (by simp [decUpd, needSc_ok _ hf]))
  | cpId => exact reads_S3 (by decide) ((decodeWord_upd ..).trans (by simp [decUpd, needSc]))
  | ldT | ldA | ldTi | ldFf => exact reads_load (by decide) ((decodeWord_tileLd ..).trans (by simp [decTileLd]))
  | bmand | bmpfx | isxG => exact reads_load (by decide) ((decodeWord_bitmap ..).trans (by simp [decBitmap]))
  | mmaTileTile => exact reads_M (by decide) ((decodeWord_mma ..).trans (by simp [decMma, needIf_mmaFmt _ hf]))
  | mmaPatternA | mmaPatternB =>
    obtain ⟨hfmt, hp⟩ := Bool.and_eq_true_iff.1 hf
    have hp : ¬ _ = 0#3 := bne_iff_ne.1 hp
    exact reads_M (by decide) ((decodeWord_mma ..).trans (by simp [decMma, needIf_mmaFmt _ hfmt, hp]))
  | cmpa => exact reads_M (by decide) ((decodeWord_cmpa ..).trans (by simp [decCmpa, needIf_tileFmt _ hf]))
  | acz | tsm => exact reads_M (by decide) (decodeWord_acz ..)
  | stT | stTi | stFf | stZ | stA => exact reads_store (by decide) ((decodeWord_tileSt ..).trans (by simp [decTileSt]))
  | drn => exact reads_store (by decide) ((decodeWord_drain ..).trans (by simp [decDrain, needIf_drnFmt _ hf]))
  | drnT => exact reads_store (by decide) ((decodeWord_drain ..).trans (by simp [decDrain, needIf_tileFmt _ hf]))
  | dcfgSc | dcfgBi | dcfgFn | dcfgCl | dcfgRm | srsSeed =>
    exact reads_store (by decide) ((decodeWord_drain ..).trans (by simp [decDrain]))
  | upd => exact reads_store (by decide) ((decodeWord_updT ..).trans (by simp [decUpdT, needSc_ok _ hf]))
  | barInit | barExp | barArr | barWait =>
    exact reads_Y (by decide) ((decodeWord_bar ..).trans (by simp [decBar, needSc_ok _ hf]))
  | ringCl | ringFill | ringTake | ringRel | ringWf | ringWe =>
    exact reads_Y (by decide) ((decodeWord_ring ..).trans (by simp [decRing, needSc_ok _ hf]))
  | evqPop a =>
    simp only [Instr.fieldsOk, Bool.and_assoc] at hf
    obtain ⟨hsc, heven⟩ := Bool.and_eq_true_iff.1 hf
    refine reads_Y (by decide) ((decodeWord_evq ..).trans ?_)
    simp only [decEvq]
    rw [needSc_ok _ hsc]
    exact needIf_evenReg _ heven
  | evqPost => exact reads_Y (by decide) ((decodeWord_evq ..).trans (by simp [decEvq, needSc_ok _ hf]))
  | spawn | joinInit | joinDec | cqPush =>
    exact reads_Y (by decide) ((decodeWord_task ..).trans (by simp [decTask, needSc_ok _ hf]))
  | done | yield | phaseEnd => exact reads_Y (by decide) (decodeWord_task ..)
  | nop | brk | trap | eret | ctxSv | ctxLd | qsnSv | qsnLd | partSw | pmIdle | eccInj | cntRd =>
    exact reads_S3 (by decide) (decodeWord_sys ..)
  | codeLd | codeInv | kvApp | kvFork | kvRel | kvRd | kvMap | mapInv | migFrz =>
    exact reads_S3 (by decide) (decodeWord_kv ..)
  | dcUnpin | dcKeep => exact reads_S3 (by decide) (decodeWord_keep ..)
  | _ => cases hw

/-! ## The two checks of `decode` (O4), and the decoder on what the encoder makes (O1) -/

theorem decode_of_none {w x : Word} (h : decodeWord w x = none) : decode w x = .error .unassigned := by
  simp [decode, h]

theorem decode_of_some {w x : Word} {i : Instr} (h : decodeWord w x = some i) :
    decode w x = if fTok w &&& ~~~ tokAllowed (wordAgent w) = 0 then .ok i else .error .illegalToken := by
  simp [decode, h]

/-- Settles O4: the token check comes after the word has named its instruction. -/
theorem decodeRefuses : Obligations.DecodeRefuses := by
  unfold Obligations.DecodeRefuses
  exact fun w x => ⟨decode_of_none, fun i h ht => (decode_of_some h).trans (if_neg ht)⟩

theorem decode_eq_ok_iff {w x : Word} {i : Instr} :
    decode w x = .ok i ↔ decodeWord w x = some i ∧ fTok w &&& ~~~ tokAllowed (wordAgent w) = 0 := by
  cases h : decodeWord w x with
  | none => simp [decode_of_none h]
  | some j => rw [decode_of_some h]; split <;> simp_all

theorem tokAllowed_toNat : ∀ q : BitVec 2, tokAllowed q.toNat = tokMask q := by decide

/-- The token check of a word that reads as an instruction is that instruction's own. -/
theorem Reads.tokOk_iff {p : Word × Word} {i : Instr} {t : Tok} {q : BitVec 2} (h : Reads p i t q) :
    tokOk q t = true ↔ fTok p.1 &&& ~~~ tokAllowed (wordAgent p.1) = 0 := by
  rw [h.tok, h.agent, tokAllowed_toNat]
  exact beq_iff_eq

theorem wellFormed_iff {i : Instr} :
    i.wellFormed = true ↔ i.isEvent = false ∧ i.fieldsOk = true ∧ tokOk i.agent i.tok = true := by
  simp [Instr.wellFormed, and_assoc]

/-- Settles O1: the decoder finds the instruction in its words, and they pass its token check. -/
theorem decodeEncode : Obligations.DecodeEncode := by
  unfold Obligations.DecodeEncode
  intro i h
  obtain ⟨hw, hf, ht⟩ := wellFormed_iff.1 h
  have hr := reads_encode hw hf
  exact decode_eq_ok_iff.2 ⟨hr.instr, hr.tokOk_iff.1 ht⟩

end Sys2Proof
end

section
/-! PROOFS. Whatever decodes is encoded as the words it came from (O2). -/
namespace Sys2Proof
open Machine

/-! ## Whatever a major's function names is encoded as the word (O2) -/

/-- An instruction that has words, and whose words are these. -/
structure Spells (w x : Word) (i : Instr) : Prop where
  word : i.isEvent = false
  fields : i.fieldsOk = true
  encode_eq : encode i = (w, x)

/-- The words spell whatever instruction a function of the decoder answers, if it answers one. -/
def SpellsAny (w x : Word) (o : Option Instr) : Prop := ∀ i, o = some i → Spells w x i

section
variable {w x : Word} {o : Option Instr} {i : Instr} {n : Nat}

theorem needZ_ne {f : BitVec n} (h : ¬ f = 0) : needZ f o = none := if_neg h
@[simp] theorem spellsAny_none : SpellsAny w x none := nofun
@[simp] theorem spellsAny_some : SpellsAny w x (some i) ↔ Spells w x i := by simp [SpellsAny]
@[simp] theorem spellsAny_needZ {f : BitVec n} : SpellsAny w x (needZ f o) ↔ (f = 0#n → SpellsAny w x o) := by
  unfold needZ; split <;> simp_all
@[simp] theorem spellsAny_needSc {sc : BitVec 3} :
    SpellsAny w x (needSc sc o) ↔ (scopeOk sc = true → SpellsAny w x o) := by
  unfold needSc scopeOk; split <;> simp_all
@[simp] theorem spellsAny_needIf {b : Bool} : SpellsAny w x (needIf b o) ↔ (b = true → SpellsAny w x o) := by
  unfold needIf; split <;> simp_all

theorem Spells.of_word {v : Word} (h : Spells v x i) (hv : v = w) : Spells w x i := hv ▸ h

/-- A match on an operation number, row by row: the match fixes the number, the row's checks fix its reserved fields and its
scope code, and with those in place the encoder answers the word. -/
theorem SpellsAny.rows (h : SpellsAny w x o := by
    split
    all_goals simp only [spellsAny_none, spellsAny_some, spellsAny_needZ, spellsAny_needSc, spellsAny_needIf]
    all_goals
      intros
      obtain rfl := eq_ofNat_of_toNat ‹BitVec.toNat _ = _›
      subst_vars
      exact ⟨rfl, by trivial, rfl⟩) : SpellsAny w x o := h

end

section
variable {d a b st g : BitVec 5} {fn7 : BitVec 7} {fn8 : BitVec 8} {fn9 : BitVec 9} {imm : BitVec 12} {x : Word}
  {t : Tok} {acc q : BitVec 2} {ta tb tile : BitVec 4} {p sc : BitVec 3}

theorem spellsAny_decInt : SpellsAny (mkS3 0x00 d a b fn7) 0 (decInt d a b fn7) := by
  unfold decInt
  exact .rows
theorem spellsAny_decFp : SpellsAny (mkS3 0x09 d a b fn7) 0 (decFp d a b fn7) := by
  unfold decFp
  exact .rows
theorem spellsAny_decJump : SpellsAny (mkS3 0x12 d a b fn7) 0 (decJump d a b fn7) := by
  unfold decJump
  exact .rows
theorem spellsAny_decLoop : SpellsAny (mkS3 0x1C d a b fn7) 0 (decLoop d a b fn7) := by
  unfold decLoop
  exact .rows
theorem spellsAny_decSys : SpellsAny (mkS3 0x3C d a b fn7) 0 (decSys d a b fn7) := by
  unfold decSys
  exact .rows
theorem spellsAny_decKv : SpellsAny (mkS3 0x3D d a b fn7) 0 (decKv d a b fn7) := by
  unfold decKv
  exact .rows
theorem spellsAny_decKeep : SpellsAny (mkS3 0x3E d a b fn7) 0 (decKeep d a b fn7) := by
  unfold decKeep
  exact .rows
theorem spellsAny_decServe : SpellsAny (mkS3 0x1D d a b fn7) 0 (decServe d a b fn7) := by
  obtain ⟨sc, k, rfl⟩ := exists_scFn fn7
  simp only [decServe, scFn_scope, scFn_op, spellsAny_needSc]
  intro hsc
  exact .rows
theorem spellsAny_decText : SpellsAny (mkS3 0x1E d a b fn7) 0 (decText d a b fn7) := by
  obtain ⟨sc, k, rfl⟩ := exists_scFn fn7
  simp only [decText, scFn_scope, scFn_op, spellsAny_needSc]
  intro hsc
  exact .rows
theorem spellsAny_decUpd : SpellsAny (mkS3 0x1F d a b fn7) 0 (decUpd d a b fn7) := by
  obtain ⟨sc, k, rfl⟩ := exists_scFn fn7
  simp only [decUpd, scFn_scope, scFn_op, spellsAny_needSc]
  intro hsc
  exact .rows
theorem spellsAny_decLoad : SpellsAny (mkS3 0x17 d a b fn7) x (decLoad d a b fn7 x) := by
  obtain ⟨sc, loc, k, rfl⟩ := exists_memFn fn7
  simp only [decLoad, memFn_scope, memFn_op, memFn_getLsbD, spellsAny_needZ, spellsAny_needSc]
  rintro rfl hsc
  generalize hn : k.toNat = n
  obtain rfl := eq_ofNat_of_toNat hn
  split
  case h_8 =>
    obtain rfl : n = 7 := by simp only [BitVec.toNat_ofNat, imp_false] at *; omega
    exact spellsAny_some.2 ⟨rfl, hsc, rfl⟩
  all_goals exact spellsAny_some.2 ⟨rfl, hsc, rfl⟩
theorem spellsAny_decStore : SpellsAny (mkS3 0x18 d a b fn7) x (decStore d a b fn7 x) := by
  obtain ⟨sc, loc, k, rfl⟩ := exists_memFn fn7
  simp only [decStore, memFn_scope, memFn_op, memFn_getLsbD, spellsAny_needZ, spellsAny_needSc]
  rintro rfl hsc
  exact .rows
theorem spellsAny_decAmo : SpellsAny (mkS3 0x19 d a b fn7) x (decAmo d a b fn7 x) := by
  obtain ⟨sc, loc, k, rfl⟩ := exists_memFn fn7
  simp only [decAmo, memFn_scope, memFn_op, memFn_getLsbD, spellsAny_needIf, spellsAny_needSc, Bool.not_eq_true']
  rintro rfl hsc
  exact .rows
theorem spellsAny_decFence : SpellsAny (mkS3 0x1B d a b fn7) 0 (decFence d a b fn7) := by
  obtain ⟨k, sc, rfl⟩ := exists_fnSc fn7
  simp only [decFence, fnSc_scope, fnSc_op]
  exact .rows
theorem spellsAny_decBar : SpellsAny (mkY 0x38 t q a b sc fn7) 0 (decBar t q a b sc fn7) := by
  simp only [decBar, spellsAny_needSc]
  intro hsc
  exact .rows
theorem spellsAny_decLong : SpellsAny (mkSI 0x08 d a imm) x (decLong d a imm x) := by
  simp only [decLong, spellsAny_needZ]
  rintro rfl
  exact .rows
theorem spellsAny_decAcz : SpellsAny (mkM 0x2A t acc ta tb p fn9) 0 (decAcz t acc ta tb p fn9) := by
  simp only [decAcz, spellsAny_needZ]
  rintro rfl rfl rfl
  exact .rows
theorem spellsAny_decShift : SpellsAny (mkSI 0x05 d a imm) 0 (decShift d a imm) := by
  simp only [decShift, spellsAny_needZ]
  intro h
  rw [← shImm_of_reserved imm h]
  generalize imm.extractLsb' 10 2 = k, imm.extractLsb' 0 6 = sh
  simp only [shImm_op, shImm_amount]
  exact .rows
theorem spellsAny_decShape : SpellsAny (mkS3 0x1A d a b fn7) 0 (decShape d a b fn7) := by
  unfold decShape
  generalize hn : fn7.toNat = n
  obtain rfl := eq_ofNat_of_toNat hn
  split <;> simp only [spellsAny_none, spellsAny_some, spellsAny_needZ, spellsAny_needIf]
  · intro ha
    exact .of_word ⟨rfl, rfl, rfl⟩ (by rw [tile5_of_high a ha]; rfl)
  · rintro hd rfl
    exact .of_word ⟨rfl, rfl, rfl⟩ (by rw [pat5_of_high d hd]; rfl)
  · rintro ha rfl
    exact .of_word ⟨rfl, rfl, rfl⟩ (by rw [pat5_of_high a ha]; rfl)
theorem spellsAny_decTileLd : SpellsAny (mkE 0x20 t st tile g fn8) 0 (decTileLd t st tile g fn8) := by
  unfold decTileLd
  generalize hn : fn8.toNat = n
  obtain rfl := eq_ofNat_of_toNat hn
  split <;> simp only [spellsAny_none, spellsAny_some, spellsAny_needZ, spellsAny_needIf]
  · rintro rfl
    exact ⟨rfl, rfl, rfl⟩
  · rintro rfl ht
    exact .of_word ⟨rfl, rfl, rfl⟩ (by rw [acc4_of_high tile ht]; rfl)
  · intro hg
    exact .of_word ⟨rfl, rfl, rfl⟩ (by rw [tile5_of_high g hg]; rfl)
  · rintro rfl
    exact ⟨rfl, rfl, rfl⟩
theorem spellsAny_decBitmap : SpellsAny (mkE 0x21 t st tile g fn8) 0 (decBitmap t st tile g fn8) := by
  unfold decBitmap
  generalize hn : fn8.toNat = n
  obtain rfl := eq_ofNat_of_toNat hn
  split <;> simp only [spellsAny_none, spellsAny_some, spellsAny_needZ, spellsAny_needIf]
  · intro hg
    exact .of_word ⟨rfl, rfl, rfl⟩ (by rw [tile5_of_high g hg]; rfl)
  · rintro rfl
    exact ⟨rfl, rfl, rfl⟩
  · intro hg
    exact .of_word ⟨rfl, rfl, rfl⟩ (by rw [tile5_of_high g hg]; rfl)
theorem spellsAny_decTileSt : SpellsAny (mkE 0x30 t st tile g fn8) 0 (decTileSt t st tile g fn8) := by
  unfold decTileSt
  generalize hn : fn8.toNat = n
  obtain rfl := eq_ofNat_of_toNat hn
  split <;> simp only [spellsAny_none, spellsAny_some, spellsAny_needZ, spellsAny_needIf]
  · rintro rfl
    exact ⟨rfl, rfl, rfl⟩
  · intro hg
    exact .of_word ⟨rfl, rfl, rfl⟩ (by rw [tile5_of_high g hg]; rfl)
  · rintro rfl
    exact ⟨rfl, rfl, rfl⟩
  · rintro rfl rfl
    exact ⟨rfl, rfl, rfl⟩
  · rintro rfl ht
    exact .of_word ⟨rfl, rfl, rfl⟩ (by rw [acc4_of_high tile ht]; rfl)
theorem spellsAny_decDrain : SpellsAny (mkE 0x31 t st tile g fn8) 0 (decDrain t st tile g fn8) := by
  obtain ⟨k, f, rfl⟩ := exists_drnFn fn8
  simp only [decDrain, drnFn_op, drnFn_low, decDrnFmt_eq, decTileFmt_eq]
  generalize hn : k.toNat = n
  obtain rfl := eq_ofNat_of_toNat hn
  split <;> simp only [spellsAny_some, spellsAny_needZ, spellsAny_needIf]
  · rintro rfl hf ht
    exact .of_word ⟨rfl, hf, rfl⟩ (by rw [acc4_of_high tile ht]; rfl)
  · rintro rfl hg hf
    exact .of_word ⟨rfl, hf, rfl⟩ (by rw [acc5_of_high g hg]; rfl)
  · rintro rfl hf ht
    exact .of_word ⟨rfl, rfl, rfl⟩ (by rw [acc4_of_high tile ht, colFn_of_high f hf]; rfl)
  · rintro rfl hf ht
    exact .of_word ⟨rfl, rfl, rfl⟩ (by rw [acc4_of_high tile ht, colFn_of_high f hf]; rfl)
  · rintro rfl rfl ht
    exact .of_word ⟨rfl, rfl, rfl⟩ (by rw [acc4_of_high tile ht]; rfl)
  · rintro rfl rfl ht
    exact .of_word ⟨rfl, rfl, rfl⟩ (by rw [acc4_of_high tile ht]; rfl)
  · rintro rfl rfl ht
    exact .of_word ⟨rfl, rfl, rfl⟩ (by rw [acc4_of_high tile ht]; rfl)
  · rintro rfl rfl rfl
    obtain rfl : n = 7 := by simp only [BitVec.toNat_ofNat, imp_false] at *; omega
    exact ⟨rfl, rfl, rfl⟩
theorem spellsAny_decUpdT : SpellsAny (mkE 0x32 t st tile g fn8) 0 (decUpdT t st tile g fn8) := by
  simp only [decUpdT, spellsAny_some, spellsAny_needZ, spellsAny_needIf, spellsAny_needSc]
  intro hst hfn hsc
  exact .of_word ⟨rfl, hsc, rfl⟩ (by rw [tile5_of_high st hst]; exact congrArg _ (updFn_of_low fn8 hfn))
theorem spellsAny_decMma : SpellsAny (mkM 0x28 t acc ta tb p fn9) 0 (decMma t acc ta tb p fn9) := by
  simp only [decMma, decMmaFmt_eq, spellsAny_needZ, spellsAny_needIf]
  intro h hf
  rw [← mmaFn_of_reserved fn9 h]
  generalize fn9.getLsbD 8 = side, fn9.getLsbD 7 = z, fn9.extractLsb' 0 5 = f at *
  simp only [mmaFn_getLsbD_side, mmaFn_getLsbD_zero, mmaFn_fmt]
  by_cases hp : p = 0
  · simp only [if_pos hp, spellsAny_needIf, spellsAny_some, Bool.not_eq_true']
    rintro rfl
    obtain rfl := hp
    exact ⟨rfl, hf, rfl⟩
  · have hfp : (mmaFmtOk f && p != 0) = true := Bool.and_eq_true_iff.2 ⟨hf, bne_iff_ne.2 hp⟩
    rw [if_neg hp]
    cases side
    case true => exact spellsAny_needZ.2 fun hz => spellsAny_some.2 (by subst hz; exact ⟨rfl, hfp, rfl⟩)
    case false => exact spellsAny_needZ.2 fun hz => spellsAny_some.2 (by subst hz; exact ⟨rfl, hfp, rfl⟩)
theorem spellsAny_decCmpa : SpellsAny (mkM 0x29 t acc ta tb p fn9) 0 (decCmpa t acc ta tb p fn9) := by
  simp only [decCmpa, decTileFmt_eq, spellsAny_some, spellsAny_needZ, spellsAny_needIf]
  rintro rfl rfl h hf
  exact .of_word ⟨rfl, hf, rfl⟩ (congrArg _ (cmpaFn_of_high fn9 h))
theorem spellsAny_decRing (hq : q = 0 → t = noTok) :
    SpellsAny (mkY 0x39 t q a b sc fn7) 0 (decRing t q a b sc fn7) := by
  simp only [decRing, spellsAny_needSc]
  intro hsc
  by_cases h : q = 0
  · obtain rfl := h
    obtain rfl := hq rfl
    exact .rows
  · simp only [needZ_ne h]
    exact .rows
theorem spellsAny_decTask (hq : q = 0 → t = noTok) :
    SpellsAny (mkY 0x3B t q a b sc fn7) 0 (decTask t q a b sc fn7) := by
  unfold decTask
  by_cases h : q = 0
  · obtain rfl := h
    obtain rfl := hq rfl
    exact .rows
  · simp only [needZ_ne h]
    exact .rows
theorem spellsAny_decEvq (hq : q = 0 → t = noTok) : SpellsAny (mkY 0x3A t q a b sc fn7) 0 (decEvq t q a b sc fn7) := by
  simp only [decEvq, spellsAny_needSc, evenReg_eq]
  intro hsc
  generalize hn : fn7.toNat = n
  obtain rfl := eq_ofNat_of_toNat hn
  split <;> simp only [spellsAny_none, spellsAny_some, spellsAny_needZ, spellsAny_needIf]
  · rintro rfl rfl ha
    obtain rfl := hq rfl
    refine ⟨rfl, ?_, rfl⟩
    simp only [Instr.fieldsOk, Bool.and_assoc, hsc, ha, Bool.and_self]
  · exact ⟨rfl, hsc, rfl⟩

end

/-! ## Whatever decodes is encoded as its words (O2) -/

section
variable {w y z : Word} {n : Nat} {o : Option Instr}

/-- The sequencer carries no token flag (R49). -/
theorem fTok_eq_zero (ha : wordAgent w = 0) (ht : fTok w &&& ~~~ tokAllowed (wordAgent w) = 0) : fTok w = 0 := by
  rw [ha] at ht
  exact (BitVec.and_allOnes).symm.trans ht

theorem tokOfBits_of_sequencer (ha : wordAgent w = 0) (ht : fTok w &&& ~~~ tokAllowed (wordAgent w) = 0) :
    tokOfBits (fTok w) = noTok := by
  rw [fTok_eq_zero ha ht]; rfl

section
variable (hm : (fMajor w).toNat = n) (ht : fTok w &&& ~~~ tokAllowed (wordAgent w) = 0)
  (hs : sequencerMajor (BitVec.ofNat 6 n) = true)
include hm ht hs

theorem fTok_eq_zero_of_major : fTok w = 0 :=
  fTok_eq_zero (wordAgent_of_sequencerMajor (eq_ofNat_of_toNat hm ▸ hs)) ht

theorem spellsAny_of_S3 (h : SpellsAny (mkS3 (BitVec.ofNat 6 n) (f17 w) (f12 w) (f7 w) (fFn7 w)) z o)
    (hz : z = y) : SpellsAny w y o := by
  rwa [← eq_ofNat_of_toNat hm, mkS3_fields (fTok_eq_zero_of_major hm ht hs), hz] at h
theorem spellsAny_of_SI (h : SpellsAny (mkSI (BitVec.ofNat 6 n) (f17 w) (f12 w) (fImm w)) z o)
    (hz : z = y) : SpellsAny w y o := by
  rwa [← eq_ofNat_of_toNat hm, mkSI_fields (fTok_eq_zero_of_major hm ht hs), hz] at h
theorem spellsAny_of_SJ (h : SpellsAny (mkSJ (BitVec.ofNat 6 n) (fOff22 w)) z o)
    (hz : z = y) : SpellsAny w y o := by
  rwa [← eq_ofNat_of_toNat hm, mkSJ_fields (fTok_eq_zero_of_major hm ht hs), hz] at h

end

theorem spellsAny_of_M (hm : (fMajor w).toNat = n)
    (h : SpellsAny (mkM (BitVec.ofNat 6 n) (tokOfBits (fTok w)) (f20 w) (f16 w) (fTb w) (fPat w) (fFn9 w)) z o)
    (hz : z = y) : SpellsAny w y o := by
  rwa [← eq_ofNat_of_toNat hm, mkM_fields, hz] at h
theorem spellsAny_of_E (hm : (fMajor w).toNat = n)
    (h : SpellsAny (mkE (BitVec.ofNat 6 n) (tokOfBits (fTok w)) (f17 w) (f13 w) (f8 w) (fFn8 w)) z o)
    (hz : z = y) : SpellsAny w y o := by
  rwa [← eq_ofNat_of_toNat hm, mkE_fields, hz] at h
theorem spellsAny_of_Y (hm : (fMajor w).toNat = n)
    (h : SpellsAny (mkY (BitVec.ofNat 6 n) (tokOfBits (fTok w)) (f20 w) (f15 w) (f10 w) (fSc7 w) (fFn7 w)) z o)
    (hz : z = y) : SpellsAny w y o := by
  rwa [← eq_ofNat_of_toNat hm, mkY_fields, hz] at h

end

/-- Major by major, the words of the instruction are the words that it was decoded from. -/
theorem spellsAny_decodeWord {w x : Word} (ht : fTok w &&& ~~~ tokAllowed (wordAgent w) = 0) :
    SpellsAny w (if isExtended w then x else 0) (decodeWord w x) := by
  have hY (ha : wordAgent w = (f20 w).toNat) (hq : f20 w = 0) : tokOfBits (fTok w) = noTok :=
    tokOfBits_of_sequencer (by rw [ha, hq]; rfl) ht
  generalize hy : (if isExtended w then x else 0) = y
  unfold wordAgent at hY
  unfold isExtended at hy
  unfold decodeWord
  generalize hm : (fMajor w).toNat = n at hY hy ⊢
  split
  · exact spellsAny_of_S3 hm ht rfl spellsAny_decInt hy
  · exact spellsAny_of_SI hm ht rfl (spellsAny_some.2 ⟨rfl, rfl, rfl⟩) hy
  · exact spellsAny_of_SI hm ht rfl (spellsAny_some.2 ⟨rfl, rfl, rfl⟩) hy
  · exact spellsAny_of_SI hm ht rfl (spellsAny_some.2 ⟨rfl, rfl, rfl⟩) hy
  · exact spellsAny_of_SI hm ht rfl (spellsAny_some.2 ⟨rfl, rfl, rfl⟩) hy
  · exact spellsAny_of_SI hm ht rfl spellsAny_decShift hy
  · exact spellsAny_of_SI hm ht rfl (spellsAny_some.2 ⟨rfl, rfl, rfl⟩) hy
  · exact spellsAny_of_SI hm ht rfl (spellsAny_some.2 ⟨rfl, rfl, rfl⟩) hy
  · exact spellsAny_of_SI hm ht rfl spellsAny_decLong hy
  · exact spellsAny_of_S3 hm ht rfl spellsAny_decFp hy
  · exact spellsAny_of_SI hm ht rfl (spellsAny_some.2 ⟨rfl, rfl, rfl⟩) hy
  · exact spellsAny_of_SI hm ht rfl (spellsAny_some.2 ⟨rfl, rfl, rfl⟩) hy
  · exact spellsAny_of_SI hm ht rfl (spellsAny_some.2 ⟨rfl, rfl, rfl⟩) hy
  · exact spellsAny_of_SI hm ht rfl (spellsAny_some.2 ⟨rfl, rfl, rfl⟩) hy
  · exact spellsAny_of_SI hm ht rfl (spellsAny_some.2 ⟨rfl, rfl, rfl⟩) hy
  · exact spellsAny_of_SI hm ht rfl (spellsAny_some.2 ⟨rfl, rfl, rfl⟩) hy
  · exact spellsAny_of_SJ hm ht rfl (spellsAny_some.2 ⟨rfl, rfl, rfl⟩) hy
  · exact spellsAny_of_SJ hm ht rfl (spellsAny_some.2 ⟨rfl, rfl, rfl⟩) hy
  · exact spellsAny_of_S3 hm ht rfl spellsAny_decJump hy
  · exact spellsAny_of_SI hm ht rfl (spellsAny_some.2 ⟨rfl, rfl, rfl⟩) hy
  · exact spellsAny_of_SI hm ht rfl (spellsAny_some.2 ⟨rfl, rfl, rfl⟩) hy
  · exact spellsAny_of_SI hm ht rfl (spellsAny_some.2 ⟨rfl, rfl, rfl⟩) hy
  · exact spellsAny_of_SI hm ht rfl (spellsAny_some.2 ⟨rfl, rfl, rfl⟩) hy
  · exact spellsAny_of_S3 hm ht rfl spellsAny_decLoad hy
  · exact spellsAny_of_S3 hm ht rfl spellsAny_decStore hy
  · exact spellsAny_of_S3 hm ht rfl spellsAny_decAmo hy
  · exact spellsAny_of_S3 hm ht rfl spellsAny_decShape hy
  · exact spellsAny_of_S3 hm ht rfl spellsAny_decFence hy
  · exact spellsAny_of_S3 hm ht rfl spellsAny_decLoop hy
  · exact spellsAny_of_S3 hm ht rfl spellsAny_decServe hy
  · exact spellsAny_of_S3 hm ht rfl spellsAny_decText hy
  · exact spellsAny_of_S3 hm ht rfl spellsAny_decUpd hy
  · exact spellsAny_of_E hm spellsAny_decTileLd hy
  · exact spellsAny_of_E hm spellsAny_decBitmap hy
  · exact spellsAny_of_M hm spellsAny_decMma hy
  · exact spellsAny_of_M hm spellsAny_decCmpa hy
  · exact spellsAny_of_M hm spellsAny_decAcz hy
  · exact spellsAny_of_E hm spellsAny_decTileSt hy
  · exact spellsAny_of_E hm spellsAny_decDrain hy
  · exact spellsAny_of_E hm spellsAny_decUpdT hy
  · exact spellsAny_of_Y hm spellsAny_decBar hy
  · exact spellsAny_of_Y hm (spellsAny_decRing (hY rfl)) hy
  · exact spellsAny_of_Y hm (spellsAny_decEvq (hY rfl)) hy
  · exact spellsAny_of_Y hm (spellsAny_decTask (hY rfl)) hy
  · exact spellsAny_of_S3 hm ht rfl spellsAny_decSys hy
  · exact spellsAny_of_S3 hm ht rfl spellsAny_decKv hy
  · exact spellsAny_of_S3 hm ht rfl spellsAny_decKeep hy
  · exact spellsAny_none

/-- Settles O2: the words are those of the instruction, and with them its token check is theirs. -/
theorem encodeDecode : Obligations.EncodeDecode := by
  unfold Obligations.EncodeDecode
  intro w x i h
  obtain ⟨hi, ht⟩ := decode_eq_ok_iff.1 h
  obtain ⟨hw, hf, he⟩ := spellsAny_decodeWord ht i hi
  have htok : tokOk i.agent i.tok = true := (reads_encode hw hf).tokOk_iff.2 (by rw [he]; exact ht)
  exact ⟨wellFormed_iff.2 ⟨hw, hf, htok⟩, he⟩

end Sys2Proof
end

section
/-! PROOFS. Every instruction and every powered step answers a next state (O7). -/
namespace Sys2Proof
open Machine

/-! ## Every instruction answers a next state (O7) -/

theorem routed_next (i : Instr) (s : State) : ∃ t, routed i s = .next t := by
  unfold routed
  split <;> exact ⟨_, rfl⟩
theorem yWord_next (q : BitVec 2) (i : Instr) (m : Core → M Unit) (s : State) : ∃ t, yWord q i m s = .next t := by
  unfold yWord
  split
  · exact runSeq_next ..
  · exact routed_next i s
theorem yWait_next (q : BitVec 2) (i : Instr) (m : Core → M Waits) (s : State) : ∃ t, yWait q i m s = .next t := by
  unfold yWait
  split
  · exact runSeq_next ..
  · exact routed_next i s
theorem runDev_next (m : M Unit) (s : State) : ∃ t, runDev m s = .next t := by
  unfold runDev
  split <;> exact ⟨_, rfl⟩

/-- Every instruction answers a next state: a queue word through its routing, an event in each branch of its meaning, and
the rest, a word that the sequencer executes or a plain change of the state, by the form of its meaning. -/
theorem exec_next (i : Instr) (s : State) : ∃ t, exec i s = .next t := by
  cases i with
  | ldT | ldA | ldTi | ldFf | bmand | bmpfx | isxG | mmaTileTile | mmaPatternA | mmaPatternB | cmpa | acz | tsm | stT
  | stTi | stFf | stZ | stA | drn | drnT | dcfgSc | dcfgBi | dcfgFn | dcfgCl | dcfgRm | srsSeed | upd =>
    exact routed_next ..
  | barInit | barExp | barArr | ringFill | ringRel | evqPost => exact yWord_next ..
  | barWait | ringWf | ringWe | joinDec => exact yWait_next ..
  | tumblerPairArrival => exact runDev_next ..
  | unassignedEncoding | queueTrap | tokenDeadlock | tokenSendRelease | preemption | contextResume
  | schedulerSelect | taskStart | heldJoinDecrement | copyClaim | copyPiece | engineEventPost | copyRetire
  | clapperMismatch | matrixReplay | cpRestartComplete | expertLoadClaim | embeddingPrefetch | samplerCoarsePass
  | samplerThresholdSearch | samplerDrawExecution | frameReceive | connectionAccept | replyTransmit
  | mailboxLoadComplete | remoteStoreReplay | poolStoreAck | poolPortLinkDown | poolRegionMap | warmReset
  | firmwareUpdate =>
    dsimp only [exec, execUnassignedEncoding, execQueueTrap, execTokenDeadlock, execTokenSendRelease, execPreemption,
      execContextResume, execSchedulerSelect, execTaskStart, execHeldJoinDecrement, execCopyClaim, execCopyPiece,
      execEngineEventPost, execCopyRetire, execClapperMismatch, execMatrixReplay, execCpRestartComplete,
      execExpertLoadClaim, execEmbeddingPrefetch, execSamplerCoarsePass, execSamplerThresholdSearch,
      execSamplerDrawExecution, execFrameReceive, execConnectionAccept, execReplyTransmit, execMailboxLoadComplete,
      execRemoteStoreReplay, execPoolStoreAck, execPoolPortLinkDown, execPoolRegionMap, execWarmReset,
      execFirmwareUpdate]
    repeat' split
    all_goals exact ⟨_, rfl⟩
  | _ => exact ⟨_, rfl⟩

/-! ## Every step answers a next state while the power is on (O7) -/

theorem stepWord_next (s : State) : ∃ t, stepWord s = .next t := by
  unfold stepWord
  split
  · exact ⟨_, rfl⟩
  · split
    · exact exec_next _ s
    · exact ⟨_, rfl⟩

theorem runTurn_next (t : Turn) (s : State) : ∃ u, runTurn t s = .next u := by
  cases t with
  | event i =>
    show ∃ u, (if s.served i then exec i s else .next s) = .next u
    split
    · exact exec_next i s
    · exact ⟨_, rfl⟩
  | word =>
    show ∃ u, (if s.power && s.ready && s.core.runnable then stepWord s else .next s) = .next u
    split
    · exact stepWord_next s
    · exact ⟨_, rfl⟩
  | start | focus => exact ⟨_, rfl⟩

theorem coreTurn_next (s : State) : ∃ t, coreTurn s = .next t := by
  unfold coreTurn
  split
  · obtain ⟨t, ht⟩ := stepWord_next s
    exact ⟨rotate t, by rw [ht]; rfl⟩
  · exact ⟨_, rfl⟩

theorem ownTurn_next (s : State) : ∃ t, ownTurn s = .next t := by
  unfold ownTurn
  split
  · exact coreTurn_next s
  · split
    · exact runTurn_next _ s
    · exact coreTurn_next s

theorem step_next {s : State} (h : s.power = true ∨ s.agenda ≠ []) : ∃ t, step s = .next t := by
  unfold step
  dsimp only
  split
  · exact runTurn_next _ _
  next ha =>
    have hp : s.power = true := h.resolve_right (not_not_intro ha)
    rw [hp]
    split
    · next h' => cases h'
    · split
      · exact ownTurn_next _
      · exact ⟨_, rfl⟩

/-- Settles O7: of the device's steps only one with the power off and nothing on the agenda has no next state. -/
theorem nothingRefused : Obligations.NothingRefused := ⟨exec_next, fun _ => step_next⟩

end Sys2Proof
end

section
/-!
PROOFS. The integer results (O11 to O14): each word is a register result, and each operation on words is read as one on
integers and numbers.
-/
namespace Sys2Proof
open Machine

/-! ## Register results -/

/-- A word that writes a register result: the value may be named by any expression that equals it. -/
theorem runSeq_result {n : Nat} {d : Reg} {v : Core → Dword} {s : State} {x : Dword} (h : v s.core = x) :
    runSeq n (result d v) s = .next (s.wrote n d x) := h ▸ runSeq_did (run_result d v s)

/-- A word that writes a register result and ORs flags. -/
theorem runSeq_resultF {d : Reg} {v : Core → Dword × BitVec 6} {s : State} {x : Dword} {f : BitVec 6}
    (h : v s.core = (x, f)) : runSeq 4 (resultF d v) s = .next (s.wroteF 4 d x f) := by
  rw [show x = (v s.core).1 by rw [h], show f = (v s.core).2 by rw [h]]
  exact runSeq_did (run_resultF d v s)

/-! ## Operations on words, as integers -/

section
variable (x y : Dword)

theorem wrapN_uNat : wrapN (uNat x) = x := by simp [wrapN, uNat]
theorem wrapI_sInt : wrapI (sInt x) = x := BitVec.ofInt_toInt
theorem wrapI_natCast (n : Nat) : wrapI n = wrapN n := BitVec.ofInt_natCast 64 n
theorem wrapI_add (a b : Int) : wrapI (a + b) = wrapI a + wrapI b := BitVec.ofInt_add a b

theorem add_eq_wrapN : x + y = wrapN (uNat x + uNat y) := by
  apply BitVec.eq_of_toNat_eq
  simp [wrapN, uNat]

theorem add_eq_wrapI : x + y = wrapI (sInt x + sInt y) := by rw [wrapI_add, wrapI_sInt, wrapI_sInt]

theorem sub_eq_wrapI : x - y = wrapI (sInt x - sInt y) := by
  apply BitVec.eq_of_toInt_eq
  simp [wrapI, sInt]

theorem mul_eq_wrapN : x * y = wrapN (uNat x * uNat y) := by
  apply BitVec.eq_of_toNat_eq
  simp [wrapN, uNat]

theorem shiftLeft_eq_wrapN (n : Nat) : x <<< n = wrapN (uNat x * 2 ^ n) := by
  apply BitVec.eq_of_toNat_eq
  simp [wrapN, uNat, Nat.shiftLeft_eq]

theorem ushiftRight_eq_wrapN (n : Nat) : x >>> n = wrapN (uNat x / 2 ^ n) := by
  apply BitVec.eq_of_toNat_eq
  simp only [BitVec.toNat_ushiftRight, wrapN, uNat, Nat.shiftRight_eq_div_pow, BitVec.toNat_ofNat]
  exact (Nat.mod_eq_of_lt ((Nat.div_le_self _ _).trans_lt x.isLt)).symm

theorem sshiftRight_eq_wrapI (n : Nat) : x.sshiftRight n = wrapI (sInt x / 2 ^ n) := by
  simp [BitVec.sshiftRight, wrapI, sInt, Int.shiftRight_eq_div_pow]

theorem fld_low (n : Nat) : fld x 0 n = uNat x % 2 ^ n := by simp [fld, uNat]

theorem ltS_iff : ltS x y = true ↔ sInt x < sInt y := by simp [ltS, BitVec.slt, sInt]
theorem ltU_iff : ltU x y = true ↔ uNat x < uNat y := by simp [ltU, BitVec.ult, uNat]

theorem ofBool_eq_ite {b : Bool} {p : Prop} [Decidable p] (h : b = true ↔ p) : ofBool b = if p then 1 else 0 := by
  simp only [ofBool, h]

/-! `min` and `max` write one of their operands, the first where the two are equal. -/

theorem minS_eq_wrapI : (if ltS y x then y else x) = wrapI (min (sInt x) (sInt y)) := by
  simp only [ltS_iff]
  split
  · next h => rw [min_eq_right h.le, wrapI_sInt]
  · next h => rw [min_eq_left (not_lt.1 h), wrapI_sInt]
theorem maxS_eq_wrapI : (if ltS x y then y else x) = wrapI (max (sInt x) (sInt y)) := by
  simp only [ltS_iff]
  split
  · next h => rw [max_eq_right h.le, wrapI_sInt]
  · next h => rw [max_eq_left (not_lt.1 h), wrapI_sInt]
theorem minU_eq_wrapN : (if ltU y x then y else x) = wrapN (min (uNat x) (uNat y)) := by
  simp only [ltU_iff]
  split
  · next h => rw [min_eq_right h.le, wrapN_uNat]
  · next h => rw [min_eq_left (not_lt.1 h), wrapN_uNat]
theorem maxU_eq_wrapN : (if ltU x y then y else x) = wrapN (max (uNat x) (uNat y)) := by
  simp only [ltU_iff]
  split
  · next h => rw [max_eq_right h.le, wrapN_uNat]
  · next h => rw [max_eq_left (not_lt.1 h), wrapN_uNat]
end

/-- Settles O11: each word writes its operation's value, which is read as the integer that R66 names. -/
theorem integerResults : Obligations.IntegerResults := by
  unfold Obligations.IntegerResults
  intro d a b s x y
  have hsh : fld y 0 6 = uNat y % 64 := fld_low y 6
  refine ⟨runSeq_result (add_eq_wrapN x y), runSeq_result (sub_eq_wrapI x y), runSeq_result (mul_eq_wrapN x y),
    runSeq_result rfl, runSeq_result rfl, runSeq_result ?_, runSeq_result ?_, runSeq_result ?_,
    runSeq_result (ofBool_eq_ite (ltS_iff x y)), runSeq_result (ofBool_eq_ite (ltU_iff x y)),
    runSeq_result (minS_eq_wrapI x y), runSeq_result (maxS_eq_wrapI x y), runSeq_result (minU_eq_wrapN x y),
    runSeq_result (maxU_eq_wrapN x y)⟩
  · rw [← hsh]; exact shiftLeft_eq_wrapN x _
  · rw [← hsh]; exact ushiftRight_eq_wrapN x _
  · rw [← hsh]; exact sshiftRight_eq_wrapI x _

/-! ## Bits (O12) -/

theorem clz64_spec (x : Dword) : clz64 x ≤ 64 ∧ uNat x < 2 ^ (64 - clz64 x) ∧
    (clz64 x < 64 → 2 ^ (63 - clz64 x) ≤ uNat x) := by
  unfold clz64
  split
  · next h => subst h; simp [uNat]
  · next h =>
    have hne : uNat x ≠ 0 := fun e => h (BitVec.eq_of_toNat_eq e)
    have hlog : Nat.log2 (uNat x) < 64 := (Nat.log2_lt hne).2 x.isLt
    refine ⟨by omega, ?_, fun _ => ?_⟩
    · rw [show 64 - (63 - Nat.log2 x.toNat) = Nat.log2 (uNat x) + 1 by unfold uNat at *; omega]
      exact Nat.lt_log2_self
    · rw [show 63 - (63 - Nat.log2 x.toNat) = Nat.log2 (uNat x) by unfold uNat at *; omega]
      exact Nat.log2_self_le hne

/-- The search for the lowest one bit, from a place `i` of a number: it stops at the first one, or at the end. -/
theorem ctzFrom_spec (n : Nat) : ∀ i v,
    ∃ k ≤ n, ctzFrom n i v = i + k ∧ v % 2 ^ k = 0 ∧ (k < n → v.testBit k = true) := by
  induction n with
  | zero => exact fun i v => ⟨0, le_refl 0, rfl, Nat.mod_one v, fun h => absurd h (lt_irrefl 0)⟩
  | succ n ih =>
    intro i v
    unfold ctzFrom
    split
    · next h => exact ⟨0, by omega, rfl, Nat.mod_one v, fun _ => by simp [h]⟩
    · next h =>
      obtain ⟨k, hk, he, hz, hb⟩ := ih (i + 1) (v / 2)
      refine ⟨k + 1, by omega, by omega, ?_, fun hlt => ?_⟩
      · rw [Nat.pow_succ', Nat.mod_mul, hz]; omega
      · rw [Nat.testBit_succ]; exact hb (by omega)

/-- The count of one bits of a number, place by place. -/
theorem popNat_eq_countP (n : Nat) : ∀ v, popNat n v = (List.range n).countP fun i => v.testBit i := by
  induction n with
  | zero => intro v; rfl
  | succ n ih =>
    intro v
    rw [popNat, ih, List.range_succ_eq_map, List.countP_cons, List.countP_map]
    simp only [Function.comp_def, Nat.testBit_succ, Nat.testBit_zero, decide_eq_true_eq]
    split <;> omega

theorem sext_eq_wrapI {n : Nat} (v : BitVec n) : sext v = wrapI v.toInt := rfl

/-- Settles O12: the bitwise results are read off the library's bits, and each count by its own lemma. -/
theorem bitResults : Obligations.BitResults := by
  unfold Obligations.BitResults
  intro d a b imm s x y e
  refine ⟨⟨![x &&& y, x ||| y, x ^^^ y, x &&& e, x ||| e, x ^^^ e], runSeq_result rfl, runSeq_result rfl, runSeq_result rfl,
    runSeq_result rfl, runSeq_result rfl, runSeq_result rfl, fun i _ => ?_⟩, ⟨clz64 x, runSeq_result rfl, clz64_spec x⟩, ?_,
    runSeq_result (congrArg wrapN (popNat_eq_countP 64 x.toNat)), runSeq_result (sext_eq_wrapI _),
    runSeq_result (sext_eq_wrapI _), runSeq_result (sext_eq_wrapI _)⟩
  · exact ⟨BitVec.getLsbD_and, BitVec.getLsbD_or, BitVec.getLsbD_xor, BitVec.getLsbD_and, BitVec.getLsbD_or,
      BitVec.getLsbD_xor⟩
  · obtain ⟨n, hn, he, hz, hb⟩ := ctzFrom_spec 64 0 x.toNat
    exact ⟨n, runSeq_result (congrArg wrapN (he.trans (Nat.zero_add n))), hn, hz, hb⟩

/-! ## Immediates (O13) -/

theorem sInt_sext {n : Nat} (h : n ≤ 64) (v : BitVec n) : sInt (sext v) = v.toInt := BitVec.toInt_signExtend_of_le h

/-- A word over the low half of another. -/
theorem append_low_eq_wrapN (v : BitVec 32) (x : Dword) :
    v ++ x.setWidth 32 = wrapN (v.toNat * 2 ^ 32 + uNat x % 2 ^ 32) := by
  apply BitVec.eq_of_toNat_eq
  have hlt : v.toNat * 2 ^ 32 + uNat x % 2 ^ 32 < 2 ^ 64 := by have := v.isLt; omega
  rw [toNat_append_eq_add, wrapN, BitVec.toNat_ofNat, Nat.mod_eq_of_lt hlt, BitVec.toNat_setWidth]
  rfl

/-- Settles O13: an immediate is a word of its own value, so the lemmas of O11 serve. -/
theorem immediateResults : Obligations.ImmediateResults := by
  unfold Obligations.ImmediateResults
  intro d a imm sh v s x e
  have himm : sInt (sext imm) = e := sInt_sext (by decide) imm
  refine ⟨runSeq_result ?_, runSeq_result (ofBool_eq_ite ?_), runSeq_result (ofBool_eq_ite (ltU_iff x _)),
    runSeq_result (shiftLeft_eq_wrapN x _), runSeq_result (ushiftRight_eq_wrapN x _),
    runSeq_result (sshiftRight_eq_wrapI x _), runSeq_result (sext_eq_wrapI v), runSeq_result (append_low_eq_wrapN v _)⟩
  · rw [← himm]; exact add_eq_wrapI x _
  · rw [← himm]; exact ltS_iff x _

/-! ## Division (O14) -/

theorem sInt_eq_min_iff (x : Dword) : sInt x = -2 ^ 63 ↔ x = dw (2 ^ 63) := by
  rw [show (-2 ^ 63 : Int) = sInt (dw (2 ^ 63)) by decide]
  exact BitVec.toInt_inj
theorem sInt_eq_neg_one_iff (x : Dword) : sInt x = -1 ↔ x = BitVec.allOnes 64 := by
  rw [show (-1 : Int) = sInt (BitVec.allOnes 64) by decide]
  exact BitVec.toInt_inj

/-- The remainder of a truncated division takes the sign of the dividend. -/
theorem tmod_nonneg_iff {a b : Int} (h : a.tmod b ≠ 0) : 0 ≤ a.tmod b ↔ 0 ≤ a := by
  refine ⟨fun hr => ?_, fun ha => Int.tmod_nonneg b ha⟩
  by_contra ha
  have hneg : 0 ≤ (-a).tmod b := Int.tmod_nonneg b (by omega)
  rw [Int.neg_tmod] at hneg
  omega

/-- `div` reads as R67 says: the quotient of the integers, but for the two cases that it names. -/
theorem divS_eq (x y : Dword) : divS x y = if y = 0 then (wrapI (-1), flDz)
    else if sInt x = -2 ^ 63 ∧ sInt y = -1 then (wrapI (-2 ^ 63), flIovf) else (wrapI ((sInt x).tdiv (sInt y)), 0) := by
  simp only [sInt_eq_min_iff, sInt_eq_neg_one_iff, divS]
  split_ifs with h0 hb
  · rfl
  · rw [hb.1]; rfl
  · rfl

/-- `divu` reads as R67 says. -/
theorem divU_eq (x y : Dword) :
    divU x y = if y = 0 then (wrapN (2 ^ 64 - 1), flDz) else (wrapN (uNat x / uNat y), 0) := by
  rw [divU]
  split_ifs
  · rfl
  · exact congrArg (·, 0) (BitVec.udiv_def)

/-- `remu` reads as R67 says. -/
theorem remU_eq (x y : Dword) : remU x y = if y = 0 then (x, flDz) else (wrapN (uNat x % uNat y), 0) := by
  rw [remU]
  split_ifs
  · rfl
  · exact congrArg (·, 0) (BitVec.umod_def)

/-- Settles O14: the branches of the four operations, and the library's facts of truncated division. -/
theorem division : Obligations.Division := by
  unfold Obligations.Division
  intro d a b s x y q r big
  refine ⟨?_, ?_, ?_, ?_, fun hy => ⟨?_, tmod_nonneg_iff, ?_⟩⟩
  · have h : divS x y = _ := divS_eq x y
    split_ifs at h ⊢ <;> exact runSeq_resultF h
  · have h : remS x y = if y = 0 then (x, flDz) else (wrapI r, 0) := rfl
    split_ifs at h ⊢ <;> exact runSeq_resultF h
  · have h : divU x y = _ := divU_eq x y
    split_ifs at h ⊢ <;> exact runSeq_resultF h
  · have h : remU x y = _ := remU_eq x y
    split_ifs at h ⊢ <;> exact runSeq_resultF h
  · rw [mul_comm]; exact (Int.mul_tdiv_add_tmod _ _).symm
  · have hy : sInt y ≠ 0 := fun h => hy (BitVec.eq_of_toInt_eq h)
    rw [Int.abs_eq_natAbs, Int.abs_eq_natAbs, Int.natAbs_tmod]
    exact_mod_cast Nat.mod_lt _ (Int.natAbs_pos.2 hy)

end Sys2Proof
end

section
/-! PROOFS. Branches, jumps and the jump table (O21). -/
namespace Sys2Proof
open Machine

/-- A branch or jump target is an integer distance from the pc (R73). -/
theorem target_eq_wrapI {n : Nat} (hn : n ≤ 64) (c : Core) (off : BitVec n) :
    c.target off = wrapI (sInt c.pc + 4 * off.toInt) := by
  rw [Core.target, add_eq_wrapI]
  apply BitVec.eq_of_toInt_eq
  simp [wrapI, sInt, sext, BitVec.toInt_signExtend_of_le hn]

/-- A conditional branch goes to its target, or to the next word. -/
theorem runSeq_branch {off : BitVec 12} {cond : Core → Bool} {s : State} {p : Prop} [Decidable p]
    (h : cond s.core = true ↔ p) : runSeq 4 (branch off cond) s =
      .next (s.wentTo s.core (if p then wrapI (sInt s.core.pc + 4 * off.toInt) else s.core.pc + 4)) := by
  rw [runSeq_ok (run_branch off cond s), target_eq_wrapI (by decide)]
  by_cases hp : p
  · rw [if_pos hp, if_pos (h.2 hp)]; rfl
  · rw [if_neg hp, if_neg (mt h.1 hp)]; rfl

/-- The two fields of the count word of a jump table (R75). -/
theorem tableCount (w : Word) : fld w 0 22 = w.toNat % 2 ^ 22 ∧ (fld w 22 10 = 0x3F0 ↔ w.toNat / 2 ^ 22 = 0x3F0) := by
  have := w.isLt
  simp only [fld, Nat.shiftRight_eq_div_pow]
  omega

section
variable {a b : Reg} {s : State}

/-- `jt` whose count word is read and passes its checks, or fails at one of them (R75). -/
theorem exec_jt (hp : s.fetchPoison (s.core.rg a).toNat = false) :
    let c := s.core
    let w := s.codeWord (c.rg a).toNat
    let n := w.toNat % 2 ^ 22
    exec (.jt a b) s = .next (
      if s.fetchOk (c.rg a).toNat = false then enterTrap cFetch c.pc (c.rg a) s
      else if w.toNat / 2 ^ 22 ≠ 0x3F0 then enterTrap cJumpTable c.pc (c.rg a) s
      else if n = 0 ∨ n ≤ (c.rg b).toNat then enterTrap cJumpTable c.pc (c.rg b) s
      else s.wentTo c (c.rg a + 4 + 4 * c.rg b)) := by
  intro c w n
  obtain ⟨hn, hw⟩ := tableCount w
  have hgood : (¬ fld w 0 22 = 0 ∧ (c.rg b).toNat < fld w 0 22) ↔ ¬ (n = 0 ∨ n ≤ (c.rg b).toNat) := by
    rw [hn, not_or, not_le]
  split_ifs with hf hk ht
  · refine runSeq_error (x := .trap cFetch (c.rg a)) ?_
    simp [jumpTable, c, hf]
  · refine runSeq_error (x := .trap cJumpTable (c.rg a)) ?_
    simp [jumpTable, c, hp, hf, w, mt hw.1 hk]
  · refine runSeq_error (x := .trap cJumpTable (c.rg b)) ?_
    have hk := hw.2 (not_not.1 hk)
    have hg := mt hgood.1 (not_not_intro ht)
    simp only [w, c] at hk hg
    simp [jumpTable, c, hp, hf, hk, hg]
  · refine runSeq_ok (t := s) ?_
    have hk := hw.2 (not_not.1 hk)
    have hg := hgood.2 ht
    simp only [w, c] at hk hg
    simp [jumpTable, c, hp, hf, hk, hg]
end

/-- Settles O21: branches and jumps by their laws, with the target as an integer. -/
theorem jumps : Obligations.Jumps := by
  unfold Obligations.Jumps
  intro d a b off far s c x y goes go
  have hgo : c.target far = go := target_eq_wrapI (by decide) c far
  have hge : (!ltS x y) = true ↔ sInt y ≤ sInt x := by rw [Bool.not_eq_true', ← Bool.not_eq_true, ltS_iff, not_lt]
  have hgeu : (!ltU x y) = true ↔ uNat y ≤ uNat x := by rw [Bool.not_eq_true', ← Bool.not_eq_true, ltU_iff, not_lt]
  refine ⟨runSeq_branch beq_iff_eq, runSeq_branch bne_iff_ne, runSeq_branch (ltS_iff x y), runSeq_branch hge,
    runSeq_branch (ltU_iff x y), runSeq_branch hgeu, ?_, ?_, runSeq_ok (run_jump_some d _ s), exec_jt⟩
  · rw [← hgo]; exact runSeq_ok (run_jump_none _ s)
  · rw [← hgo]; exact runSeq_ok (run_jump_some 31 _ s)

end Sys2Proof
end

section
/-!
PROOFS. Accesses of the current core: what a plain access answers and leaves (O28), what refuses one (O30), and the loads
and stores that make them (O26, O27).
-/
namespace Sys2Proof
open Host (Cell)
open Machine

/-! ## The current core as an agent -/

/-- An agent of the current core: its sequencer or a queue. -/
structure Own (s : State) (w : Who) : Prop where
  core : w.core = s.core.id
  part : w.part = s.core.partid
  engine : w.engine = false
  det : w.det = s.core.det

theorem own_who (s : State) (q : Bool) (sc : BitVec 3) : Own s (s.core.who q sc) :=
  ⟨rfl, rfl, by cases q <;> rfl, rfl⟩

@[simp] theorem who_seq (c : Core) (q : Bool) (sc : BitVec 3) : (c.who q sc).seq = q := by cases q <;> rfl

@[simp] theorem findCore_self (s : State) : s.findCore s.core.id = s.core := if_pos rfl

/-- The translation of the statements: a pin's, else a first-level line's, else the table's. -/
theorem translation_eq (s : State) (va : Nat) (seq : Bool) : s.translation va seq =
    (s.core.pins.findSome? (·.leaf va)).or
      ((if seq then s.cache.hit s.core.id va else none).or (s.walk s.core.partid va)) := by
  have hb : (fun x : L1Line => x.core == s.core.id && x.va / 64 == va / 64) =
      fun x => decide (x.core = s.core.id ∧ x.va / 64 = va / 64) := by
    funext x; rw [Bool.eq_iff_iff]; simp
  rw [State.translation, Cache.hit, hb]

/-- An agent of the current core uses it. -/
theorem lookup_own {s : State} {w : Who} (h : Own s w) (va : Nat) : s.lookup w va = s.translation va w.seq := by
  rw [State.lookup, translation_eq, h.core, h.part, h.engine, findCore_self]
  cases s.core.pins.findSome? (·.leaf va) with
  | some l => rfl
  | none => cases (if w.seq then s.cache.hit s.core.id va else none) <;> rfl

/-! ## One granule, one bank -/

theorem granules_one {va n : Nat} (hn : 0 < n) (h : (va + n - 1) / 16384 = va / 16384) : granules va n = [va] := by
  have hle : va / 16384 * 16384 ≤ va := Nat.div_mul_le_self va 16384
  simp [granules, h, hn.ne', hle]

theorem localCuts_one {a n : Nat} (hn : 0 < n) (h : (a + n - 1) / 0x20000 = a / 0x20000) : localCuts a n = [(a, n)] := by
  have hle : a / 0x20000 * 0x20000 ≤ a := Nat.div_mul_le_self a 0x20000
  simp [localCuts, h, hn.ne']
  omega

/-- The last byte of a range that ends in the granule it starts in. -/
theorem range_le_granule {va n : Nat} (h : (va + n - 1) / 16384 = va / 16384) :
    va + n ≤ (va / 16384 + 1) * 16384 := by omega

/-! ## Reads and writes of the device's own memory -/

section
variable {w : Who} {p : Perm} {va n : Nat} {s : State} {l : Leaf}

theorem poolLost_of_no_pools (h : s.pools = []) (pa : Nat) : s.poolLost pa = false := by
  simp [State.poolLost, State.poolAt, h]

/-- The device's own memory is neither a peer's, nor the host's, nor the pool's. -/
theorem own_memory {pa : Nat} (h : isHbm pa = true ∨ isLp6 pa = true) :
    isPeer pa = false ∧ isHost pa = false ∧ isPool pa = false := by
  simp only [isHbm, isLp6, isPeer, isHost, isPool, Bool.and_eq_true, decide_eq_true_eq, Bool.and_eq_false_iff,
    decide_eq_false_iff_not] at *
  omega

/-- A read of one granule, of lines that no region, poison or tag concerns. -/
theorem runA_readIn_own (hd : w.det = false) (h : s.lookup w va = some l) (hp : l.grants p = true)
    (hpa : isHbm l.pa = true ∨ isLp6 l.pa = true) (hl : s.pools = []) (hr : s.regions = [])
    (ho : ∀ x ∈ linesOf l.pa n, x ∉ s.poison) :
    runA (readIn w p va n) s = .ok (.ok (memRead s.mem l.pa n), s.fills w false va l.pa n (some l)) := by
  obtain ⟨he, hh, -⟩ := own_memory hpa
  have hn : (linesOf l.pa n).any s.poison.contains = false := by simpa using ho
  have hb : s.lineBusy w l.pa n = false := by simp [State.lineBusy, he, hh]
  have ht : runA (trigger w va l.pa n) s = .ok (.ok (), s) := by simp [trigger, triggered, hr]
  have hg : runA (physGet w l.pa n) s = .ok (.ok (memRead s.mem l.pa n), s) := by
    simp [physGet, State.ownBytes, hb, he, hh]
  unfold readIn
  rw [runA_bind, runA_transl h hp (poolLost_of_no_pools hl _)]
  simp only [runA_bind, runA_get, h, ht, hn, Bool.false_eq_true, if_false, runA_tagLines w hd, hg, runA_pure, runA_modify]

/-- A store of the device's own memory is performed at once, by either way of a store. -/
theorem physPut_own {pa : Nat} (bs : List Byte) (hpa : isHbm pa = true ∨ isLp6 pa = true) :
    physPut w pa bs s = .ok ((), physWrite pa bs (if w.seq then some w.core else none) s) := by
  obtain ⟨he, hh, hp⟩ := own_memory hpa
  cases hx : w.excl <;> simp [physPut, physNow, physStore, noteFar, he, hh, hp, hx]

/-- A write of one granule, of lines that no region or tag concerns. -/
theorem runA_writeIn_own {bs : List Byte} (hd : w.det = false) (h : s.lookup w va = some l) (hp : l.grants .w = true)
    (hpa : isHbm l.pa = true ∨ isLp6 l.pa = true) (hl : s.pools = []) (hr : s.regions = []) :
    runA (writeIn w va bs) s = .ok (.ok (),
      (physWrite l.pa bs (if w.seq then some w.core else none) s).fills w true va l.pa bs.length (some l)) := by
  have ht : runA (trigger w va l.pa bs.length) s = .ok (.ok (), s) := by simp [trigger, triggered, hr]
  unfold writeIn
  rw [runA_bind, runA_transl h hp (poolLost_of_no_pools hl _)]
  simp only [runA_bind, runA_get, h, hr, List.any_nil, ht, Bool.false_eq_true, if_false, runA_tagLines w hd, runA_lift,
    physPut_own bs hpa, runA_modify]

/-- A plain read of the current core answers what the memory holds, and fills the caches. -/
theorem runA_gRead_plain {pa : Nat} (hw : Own s w) (h : s.plain p va n pa w.seq) :
    ∃ l, s.lookup w va = some l ∧ l.grants p = true ∧ l.pa = pa ∧
      runA (gRead w va n p) s = .ok (.ok (memRead s.mem pa n), s.fills w false va pa n (some l)) := by
  obtain ⟨hn, hva, hgr, ⟨l, hl, hg, rfl⟩, hpa, hpool, hpois, hreg, hdet⟩ := h
  have hlook : s.lookup w va = some l := (lookup_own hw va).trans hl
  have hok : vaOk va n = true := decide_eq_true hva
  have hlen : min (va + n) ((va / 16384 + 1) * 16384) - va = n := by
    rw [min_eq_left (range_le_granule hgr), Nat.add_sub_cancel_left]
  refine ⟨l, hlook, hg, rfl, ?_⟩
  simp only [gRead, hok, granules_one hn hgr, List.foldlM_cons, List.foldlM_nil, hlen, runA_bind, runA_pure,
    Bool.not_true, Bool.false_eq_true, if_false, List.nil_append,
    runA_readIn_own (hw.det.trans hdet) hlook hg hpa hpool hreg hpois]

/-- A plain write of the current core makes the store, and fills the caches. -/
theorem runA_gWrite_plain {pa : Nat} {bs : List Byte} (hw : Own s w) (h : s.plain .w va bs.length pa w.seq) :
    ∃ l, s.lookup w va = some l ∧ l.grants .w = true ∧ l.pa = pa ∧
      runA (gWrite w va bs) s = .ok (.ok (),
        (physWrite pa bs (if w.seq then some s.core.id else none) s).fills w true va pa bs.length (some l)) := by
  obtain ⟨hn, hva, hgr, ⟨l, hl, hg, rfl⟩, hpa, hpool, -, hreg, hdet⟩ := h
  have hlook : s.lookup w va = some l := (lookup_own hw va).trans hl
  have hok : vaOk va bs.length = true := decide_eq_true hva
  have hbs : (bs.drop (va - va)).take (16384 - va % 16384) = bs := by
    rw [Nat.sub_self, List.drop_zero, List.take_of_length_le]
    have := range_le_granule hgr
    omega
  refine ⟨l, hlook, hg, rfl, ?_⟩
  simp only [gWrite, hok, granules_one hn hgr, List.foldlM_cons, List.foldlM_nil, hbs, runA_bind, runA_pure,
    Bool.not_true, Bool.false_eq_true, if_false, runA_writeIn_own (hw.det.trans hdet) hlook hg hpa hpool hreg, hw.core]
end

/-! ## Banks -/

section
variable {w : Who} {a n k : Nat} {s : State}

/-- A read inside one bank that the agent may access. -/
theorem runA_lRead_plain (hn : 0 < n) (hb : (a + n - 1) / 0x20000 = a / 0x20000) (hd : w.det = false)
    (hk : localOk s w a n = some k) (hp : ∀ l ∈ linesOf k n, l ∉ s.bankPoison) :
    runA (lRead w a n) s = .ok (.ok (memRead s.bank k n), s) := by
  have hp : (linesOf k n).any s.bankPoison.contains = false := by simpa using hp
  simp only [lRead, localCuts_one hn hb, List.foldlM_cons, List.foldlM_nil, bankIn, runA_bind, runA_get, hk, hp,
    Bool.false_eq_true, if_false, runA_tagLines w hd, runA_pure, List.nil_append]

/-- The lines that a range covers whole are lines of it, so a range with no poisoned line clears no poison. -/
theorem clearPoison_of_clean {p : List Nat} (hn : 0 < n) (hp : ∀ l ∈ linesOf a n, l ∉ p) : clearPoison p a n = p := by
  refine List.filter_eq_self.2 fun l hl => ?_
  by_contra hc
  refine hp l ?_ hl
  simp only [Bool.not_eq_true', Bool.not_eq_false, Bool.and_eq_true, decide_eq_true_eq] at hc
  simp only [linesOf, hn.ne', if_false, List.mem_map, List.mem_range]
  exact ⟨l - a / 64, by omega, by omega⟩

/-- A write inside one bank that the agent may access. -/
theorem runA_lWrite_plain {bs : List Byte} (hn : 0 < bs.length) (hb : (a + bs.length - 1) / 0x20000 = a / 0x20000)
    (hd : w.det = false) (hk : localOk s w a bs.length = some k) (hp : ∀ l ∈ linesOf k bs.length, l ∉ s.bankPoison) :
    runA (lWrite w a bs) s = .ok (.ok (), { s with bank := memWrite s.bank k bs }) := by
  simp only [lWrite, localCuts_one hn hb, List.foldlM_cons, List.foldlM_nil, Nat.sub_self, List.drop_zero, List.take_length,
    bankOut, runA_bind, runA_get, hk, runA_tagLines w hd, runA_modify, clearPoison_of_clean hn hp, runA_pure]

/-- The banks that the sequencer may access do not depend on the scope of its access. -/
theorem localOk_scope (sc sc' : BitVec 3) :
    localOk s (s.core.who true sc) a n = localOk s (s.core.who true sc') a n := rfl
end

/-! ## What a store of the sequencer's changes (R84, R306) -/

/-- The watch of a core after a write of some bytes by its own sequencer or by another agent (R84). -/
def watchAfter (id : BitVec 11) (a n : Nat) (c : Core) : Core := if c.id = id then c else
  { c with watch := c.watch.map fun w => if w.pline ∈ linesOf a n then { w with fired := true } else w }

theorem noteWrite_eq (c : Core) (a n : Nat) : c.noteWrite a n =
    { c with watch := c.watch.map fun w => if w.pline ∈ linesOf a n then { w with fired := true } else w } := by
  unfold Core.noteWrite
  split
  · next w hw =>
    simp only [hw, Option.map_some, List.contains_iff_mem]
    split
    · rfl
    · rw [← hw]
  · next hw => rw [hw, Option.map_none, ← hw]

/-- A store of the current core's sequencer to lines that are not poisoned: the bytes, the watches of the other cores, the
trackers, and the copies in other caches. -/
theorem physWrite_sequencer (a : Nat) (bs : List Byte) (s : State) (hn : 0 < bs.length)
    (hp : ∀ l ∈ linesOf a bs.length, l ∉ s.poison) : physWrite a bs (some s.core.id) s = { s with
      mem := memWrite s.mem a bs, others := s.others.map (watchAfter s.core.id a bs.length),
      trackers := s.trackers.map (·.note a bs.length), cache := s.cache.written a bs.length (some s.core.id) } := by
  have hf : (fun c : Core => if some s.core.id = some c.id then c else c.noteWrite a bs.length) =
      watchAfter s.core.id a bs.length := by
    funext c
    simp only [watchAfter, noteWrite_eq, Option.some.injEq, eq_comm]
  simp only [physWrite, fireWatches, clearPoison_of_clean hn hp, if_true, hf]

/-! ## First-level lines (R213) -/

/-- A write leaves the first-level lines of its own sequencer. -/
theorem hit_written (k : Cache) (id : BitVec 11) (a n va : Nat) : (k.written a n (some id)).hit id va = k.hit id va := by
  unfold Cache.written Cache.hit
  rw [List.find?_filter]
  congr 2
  funext x
  by_cases hx : x.core = id
  · simp [hx, Bool.beq_eq_decide_eq]
  · simp [hx]

/-- A fill answers for its own line, where no line did before. -/
theorem hit_fillL1 {k : Cache} {id : BitVec 11} {va : Nat} (l : Leaf) (h : k.hit id va = none) :
    (k.fillL1 id va l).hit id va = some l := by
  have hold : ∀ x ∈ k.l1, ¬ (x.core == id && x.va / 64 == va / 64) = true := by
    simpa only [Cache.hit, Option.map_eq_none_iff, List.find?_eq_none] using h
  have hkept : (if (k.l1.filter (·.core == id)).length < 1024 then k.l1 else k.l1.eraseP (·.core == id)).find?
      (fun x => x.core == id && x.va / 64 == va / 64) = none := by
    rw [List.find?_eq_none]
    intro x hx
    refine hold x ?_
    split at hx
    · exact hx
    · exact List.mem_of_mem_eraseP hx
  simp [Cache.fillL1, Cache.hit, List.find?_append, hkept]

theorem length_linesOf_one {a n : Nat} (hn : 0 < n) (h : a % 64 + n ≤ 64) : (linesOf a n).length = 1 := by
  simp only [linesOf, hn.ne', if_false, List.length_map, List.length_range]
  omega

/-- Lines below the first level do not change the first level. -/
theorem foldl_cacheLine_l1 (s : State) (w : Who) (wr : Bool) (va : Nat) (ls : List Nat) :
    ∀ k : Cache, (ls.foldl (s.cacheLine w wr va) k).l1 = k.l1 := by
  induction ls with
  | nil => exact fun _ => rfl
  | cons a ls ih => exact fun k => (ih _).trans (cacheLine_l1 ..)

/-- The first-level lines after an access of one line with a translation: the line's own entry answers as before, or as the
access has found it. -/
theorem hit_cached {s : State} {w : Who} {wr : Bool} {va pa n : Nat} {l : Leaf} (hw : w.seq = true)
    (hone : (linesOf pa n).length = 1) :
    (s.cached w wr va pa n (some l)).hit w.core va = some ((s.cache.hit w.core va).getD l) := by
  have hl1 {k k' : Cache} (h : k.l1 = k'.l1) : k.hit w.core va = k'.hit w.core va := by rw [Cache.hit, h, Cache.hit]
  unfold State.cached
  simp only [hw, hone, beq_self_eq_true, Bool.true_and]
  cases hh : s.cache.hit w.core va with
  | some m =>
    simp only [Option.isSome_some, Bool.not_true, Bool.false_eq_true, if_false, Option.getD_some]
    split
    · exact hh
    · exact (hl1 (foldl_cacheLine_l1 ..)).trans hh
  | none =>
    simp only [Option.isSome_none, Bool.not_false, if_true, Bool.false_and, Bool.false_eq_true, if_false,
      Option.getD_none]
    exact (hl1 (foldl_cacheLine_l1 ..)).trans (hit_fillL1 l hh)

/-- After an access of one line by the sequencer, its first-level cache holds the line with a translation, which is the
access's own where no pin stands before the line (R213). -/
theorem exists_hit_cached {s t : State} {sc : BitVec 3} {wr : Bool} {va n : Nat} {l : Leaf}
    (hl : s.lookup (s.core.who true sc) va = some l) (hn : 0 < n) (hone : l.pa % 64 + n ≤ 64)
    (hk : t.cache.hit s.core.id va = s.cache.hit s.core.id va) :
    ∃ m, (t.cached (s.core.who true sc) wr va l.pa n (some l)).hit s.core.id va = some m ∧
      (s.core.pins = [] → m.pa = l.pa) := by
  refine ⟨_, hit_cached (who_seq ..) (length_linesOf_one hn hone), fun hp => ?_⟩
  rw [lookup_own (own_who s true sc), translation_eq, hp, who_seq, if_pos rfl] at hl
  show ((t.cache.hit s.core.id va).getD l).pa = l.pa
  rw [hk]
  cases hh : s.cache.hit s.core.id va with
  | none => rfl
  | some m =>
    rw [hh] at hl
    exact congrArg Leaf.pa (Option.some.inj hl)

/-! ## Plain accesses (O28) -/

/-- Settles O28: a plain access is one granule or one bank of the device's own memory, so the access is made whole. -/
theorem plainAccesses : Obligations.PlainAccesses := by
  unfold Obligations.PlainAccesses
  intro sc a n k bs s hs stored holds
  have hown : Own s (s.core.who true sc) := own_who s true sc
  have hread (m : List Cell) (hm : memWf m = true) (i : Nat) (hi : i < n) :
      (memRead m k n)[i]? = some (memByte m (k + i)) := by
    rw [List.getElem?_eq_getElem (by rwa [memRead_length]), memRead_get m hm k n i hi]
  have hstored (m : List Cell) : stored m (memWrite m k bs) :=
    ⟨fun i h => memByte_memWrite_eq m k bs i h, fun x hx => memByte_memWrite_ne m k bs x hx⟩
  refine ⟨fun h => ?_, fun h => ?_, fun h => ?_, fun h => ?_⟩
  · obtain ⟨l, hl, -, rfl, hrun⟩ := runA_gRead_plain hown h
    exact ⟨_, _, hrun, memRead_length .., hread s.mem hs.1, rfl, fun hone => exists_hit_cached hl h.1 hone rfl⟩
  · obtain ⟨hn, hb, hk, hp, hdet⟩ := h
    exact ⟨_, runA_lRead_plain hn hb hdet hk hp, memRead_length .., hread s.bank hs.2.1⟩
  · obtain ⟨l, hl, -, rfl, hrun⟩ := runA_gWrite_plain hown h
    obtain ⟨hn, -, -, -, -, -, hpois, -, -⟩ := h
    rw [who_seq, if_pos rfl, physWrite_sequencer _ _ _ hn hpois] at hrun
    exact ⟨_, hrun, hstored s.mem, rfl, fun hone => exists_hit_cached hl hn hone (hit_written ..)⟩
  · obtain ⟨hn, hb, hk, hp, hdet⟩ := h
    exact ⟨_, runA_lWrite_plain hn hb hdet hk hp, hstored s.bank, rfl⟩

end Sys2Proof
end

section
/-! PROOFS. Scalar loads and stores (O26, O27), atomics (O29) and what refuses an access (O30). -/
namespace Sys2Proof
open Host (Cell)
open Machine

/-! ## Bytes as numbers -/

/-- The value of bytes is the number that the model reads. -/
theorem leValue_eq_leNat (bs : List Byte) : leValue bs = leNat bs := by
  have h (bs : List Byte) : ∀ k, ((bs.zipIdx k).map fun p => p.1.toNat * 256 ^ p.2).sum = leNat bs * 256 ^ k := by
    induction bs with
    | nil => intro k; simp [leNat]
    | cons b bs ih =>
      intro k
      rw [List.zipIdx_cons, List.map_cons, List.sum_cons, ih, leNat]
      ring
  simpa [leValue] using h bs 0

theorem length_leBytes (n : Nat) : ∀ v, (leBytes n v).length = n := by
  induction n with
  | zero => exact fun _ => rfl
  | succ n ih => exact fun v => congrArg Nat.succ (ih _)

/-- The low bytes of a number are the number, cut. -/
theorem leNat_leBytes (n : Nat) : ∀ v, leNat (leBytes n v) = v % 256 ^ n := by
  induction n with
  | zero => intro v; simp [leBytes, leNat, Nat.mod_one]
  | succ n ih => intro v; simp [leBytes, leNat, ih, Nat.pow_succ', Nat.mod_mul]

/-- The low bytes of a word, one by one. -/
theorem leBytes_eq_map (x : Dword) (n : Nat) :
    leBytes n x.toNat = (List.range n).map fun i => x.extractLsb' (8 * i) 8 := by
  have h (n : Nat) : ∀ v, leBytes n v = (List.range n).map fun i => BitVec.ofNat 8 (v / 256 ^ i) := by
    induction n with
    | zero => intro v; rfl
    | succ n ih =>
      intro v
      rw [leBytes, ih, List.range_succ_eq_map, List.map_cons, List.map_map, pow_zero, Nat.div_one]
      refine congrArg _ (List.map_congr_left fun i _ => ?_)
      rw [Function.comp_apply, Nat.succ_eq_add_one, pow_succ', Nat.div_div_eq_div_mul]
  rw [h]
  refine List.map_congr_left fun i _ => BitVec.eq_of_toNat_eq ?_
  rw [BitVec.extractLsb'_toNat, BitVec.toNat_ofNat, Nat.shiftRight_eq_div_pow, pow_mul]
  norm_num

/-- The sign extension of a loaded number (R79). -/
theorem dw_ofSigned_toSigned {n : Nat} (hn : 0 < n) (v : Nat) :
    dw (ofSigned 64 (toSigned n v)) = wrapI (BitVec.ofNat n v).toInt := by
  have hs : toSigned n v = (BitVec.ofNat n v).toInt := by
    rw [BitVec.toInt_eq_toNat_cond, BitVec.toNat_ofNat, toSigned]
    have h2 : 2 ^ n = 2 * 2 ^ (n - 1) := by rw [← pow_succ']; congr; omega
    push_cast
    split_ifs <;> omega
  rw [hs]
  have hlt : (BitVec.ofNat n v).toInt % 2 ^ 64 < 2 ^ 64 := Int.emod_lt_of_pos _ (by decide)
  apply BitVec.eq_of_toNat_eq
  rw [wrapI, ofSigned, BitVec.toNat_ofNat, BitVec.toNat_ofInt]
  omega

/-! ## Loads (O26) -/

section
variable {sc : BitVec 3} {loc : Bool} {d a : Reg} {x : BitVec 32} {n : Nat} {s t : State} {bs : List Byte}

/-- An aligned load that reads no FIFO state word is its access. -/
theorem run_loadBytes {e : Dword} (he : e.toNat % n = 0) (hf : loc = true → n = 8 → fifoWord s.core e.toNat = none)
    (h : Machine.Reads sc loc e.toNat n s bs t) : loadBytes sc loc e n s = .ok (bs, t) := by
  have ha : aligned e n s = .ok ((), s) := by simp [aligned, he]
  unfold loadBytes
  simp only [run_bind, run_getC, ha]
  cases hl : (loc && n == 8) with
  | false => exact run_acc_ok h
  | true =>
    simp only [Bool.and_eq_true, beq_iff_eq] at hl
    rw [hf hl.1 hl.2]
    exact run_acc_ok h

/-- A load writes its bytes, extended. -/
theorem exec_load (he : (s.core.ea a x).toNat % n = 0)
    (hf : loc = true → n = 8 → fifoWord s.core (s.core.ea a x).toNat = none)
    (h : Machine.Reads sc loc (s.core.ea a x).toNat n s bs t) (sg : Bool) :
    runSeq 8 (load sc loc d a x n sg) s = .next (t.wrote 8 d
      (if sg then dw (ofSigned 64 (toSigned (8 * n) (leValue bs))) else wrapN (leValue bs))) := by
  rw [leValue_eq_leNat]
  exact runSeq_ok (run_load (run_loadBytes he hf h))

/-- A load of a FIFO state word (R212). -/
theorem exec_load_fifo {w : Dword} (he : (s.core.ea a x).toNat % 8 = 0)
    (hf : fifoWord s.core (s.core.ea a x).toNat = some w) (hd : s.core.det = false) :
    runSeq 8 (load sc true d a x 8 false) s = .next (s.wrote 8 d w) := by
  have hl : loadBytes sc true (s.core.ea a x) 8 s = .ok (leBytes 8 w.toNat, s) := by
    simp [loadBytes, aligned, he, hf, hd]
  have hw : dw (leNat (leBytes 8 w.toNat)) = w := by
    rw [leNat_leBytes, Nat.mod_eq_of_lt (by exact w.isLt)]
    exact wrapN_uNat w
  rw [runSeq_ok (run_load hl), if_neg Bool.false_ne_true, hw]
  rfl

/-- A load of a stream register. -/
theorem exec_sld (he : (s.core.ea a x).toNat % 64 = 0) (h : Machine.Reads sc loc (s.core.ea a x).toNat 64 s bs t) :
    exec (.sld sc loc d a x) s = .next (t.did 8 (t.core.setS d (BitVec.ofNat 512 (leValue bs)))) := by
  have hm : loadStream sc loc d a x s =
      .ok (.next, { t with core := t.core.setS d (BitVec.ofNat 512 (leValue bs)) }) := by
    rw [leValue_eq_leNat]
    simp [loadStream, run_loadBytes he (by simp) h, leVec]
  exact runSeq_ok hm

/-- Settles O26: each load is its access, its bytes extended by its form. -/
theorem loads : Obligations.Loads := by
  unfold Obligations.Loads
  intro sc loc d a x s t bs ea at_ u sx
  have hsx {n : Nat} (hn : 0 < n) : dw (ofSigned 64 (toSigned n u)) = sx n := dw_ofSigned_toSigned hn u
  have hne {n : Nat} (hn : n ≠ 8) : loc = true → n = 8 → fifoWord s.core ea.toNat = none := fun _ h => absurd h hn
  have hld {n : Nat} (hn : n ≠ 8) (h : at_ n) (sg : Bool) := exec_load (d := d) h.1 (hne hn) h.2 sg
  refine ⟨fun h => ⟨?_, hld (by decide) h false⟩, fun h => ⟨?_, hld (by decide) h false⟩,
    fun h => ⟨?_, hld (by decide) h false⟩, fun h hf => exec_load h.1 (fun hl _ => hf hl) h.2 false, fun h => ?_,
    fun he w hl hw hd => ?_⟩
  · rw [← hsx (by decide)]; exact hld (by decide) h true
  · rw [← hsx (by decide)]; exact hld (by decide) h true
  · rw [← hsx (by decide)]; exact hld (by decide) h true
  · exact exec_sld h.1 h.2
  · subst hl; exact exec_load_fifo he hw hd
end

/-! ## Stores (O27) -/

/-- Settles O27: each store is its access, which writes the low bytes of g[b]. -/
theorem stores : Obligations.Stores := by
  unfold Obligations.Stores
  intro sc loc a b x s t ea at_
  have hst {n : Nat} (h : at_ n) : runSeq 8 (store sc loc a b x n) s = .next (t.did 8 t.core) := by
    obtain ⟨ha, hw⟩ := h
    rw [← leBytes_eq_map] at hw
    exact runSeq_ok (run_store ha hw)
  exact ⟨hst, hst, hst, hst⟩

/-! ## What refuses an access (O30) -/

section
variable {w : Who} {p : Perm} {va n : Nat} {s : State} {l : Leaf}

theorem runA_transl_missing (h : s.lookup w va = none) : runA (transl w p va) s = .ok (.error (.missing va), s) := by
  simp [transl, h]

theorem runA_transl_perm (h : s.lookup w va = some l) (hg : l.grants p = false) :
    runA (transl w p va) s = .ok (.error (.perm va), s) := by
  simp [transl, h, hg]

/-- A read of one granule whose translation is refused. -/
theorem runA_gRead_refused {e : AccErr} (hn : 0 < n) (hg : (va + n - 1) / 16384 = va / 16384) (hva : va + n ≤ 2 ^ 57)
    (h : runA (transl w p va) s = .ok (.error e, s)) : runA (gRead w va n p) s = .ok (.error e, s) := by
  have hok : vaOk va n = true := decide_eq_true hva
  simp only [gRead, readIn, hok, granules_one hn hg, List.foldlM_cons, runA_bind, h, Bool.not_true, Bool.false_eq_true,
    if_false]

/-- A write of one granule whose translation is refused. -/
theorem runA_gWrite_refused {e : AccErr} {bs : List Byte} (hn : 0 < bs.length)
    (hg : (va + bs.length - 1) / 16384 = va / 16384) (hva : va + bs.length ≤ 2 ^ 57)
    (h : runA (transl w .w va) s = .ok (.error e, s)) : runA (gWrite w va bs) s = .ok (.error e, s) := by
  have hok : vaOk va bs.length = true := decide_eq_true hva
  simp only [gWrite, writeIn, hok, granules_one hn hg, List.foldlM_cons, runA_bind, h, Bool.not_true, Bool.false_eq_true,
    if_false]

theorem runA_gRead_beyond (h : 2 ^ 57 < va + n) : runA (gRead w va n p) s = .ok (.error (.fault va), s) := by
  have hok : vaOk va n = false := decide_eq_false (not_le.2 h)
  simp [gRead, hok]

theorem runA_gWrite_beyond {bs : List Byte} (h : 2 ^ 57 < va + bs.length) :
    runA (gWrite w va bs) s = .ok (.error (.fault va), s) := by
  have hok : vaOk va bs.length = false := decide_eq_false (not_le.2 h)
  simp [gWrite, hok]

theorem runA_lRead_refused (hn : 0 < n) (hb : (va + n - 1) / 0x20000 = va / 0x20000) (h : localOk s w va n = none) :
    runA (lRead w va n) s = .ok (.error (.fault va), s) := by
  simp only [lRead, bankIn, localCuts_one hn hb, List.foldlM_cons, runA_bind, runA_get, h, runA_throw]

theorem runA_lWrite_refused {bs : List Byte} (hn : 0 < bs.length) (hb : (va + bs.length - 1) / 0x20000 = va / 0x20000)
    (h : localOk s w va bs.length = none) : runA (lWrite w va bs) s = .ok (.error (.fault va), s) := by
  simp only [lWrite, bankOut, localCuts_one hn hb, List.foldlM_cons, Nat.sub_self, List.drop_zero, List.take_length,
    runA_bind, runA_get, h, runA_throw]
end

/-- An aligned access of a size of R79 lies in one granule and, if it is cluster-local, in one bank. -/
theorem aligned_within {e n : Nat} (hn : n ∈ [1, 2, 4, 8, 64]) (h : e % n = 0) :
    0 < n ∧ (e + n - 1) / 16384 = e / 16384 ∧ (e + n - 1) / 0x20000 = e / 0x20000 := by
  simp only [List.mem_cons, List.not_mem_nil, or_false] at hn
  rcases hn with rfl | rfl | rfl | rfl | rfl <;> omega

/-- An access of the sequencer's of `n` bytes at an address is refused: a read, or a write of any bytes. -/
def RefusedAt (sc : BitVec 3) (loc : Bool) (e : Dword) (n : Nat) (s : State) (err : AccErr) : Perm → Prop
  | .w => ∀ bs : List Byte, bs.length = n → runA (writeAt (s.core.who true sc) loc e.toNat bs) s = .ok (.error err, s)
  | _ => runA (readAt (s.core.who true sc) loc e.toNat n) s = .ok (.error err, s)

section
variable {sc : BitVec 3} {loc : Bool} {d a b : Reg} {x : BitVec 32} {n : Nat} {s : State} {p : Perm}

theorem refusedAt_transl {e : Dword} {err : AccErr} (hp : p = .r ∨ p = .w) (hn : n ∈ [1, 2, 4, 8, 64])
    (ha : e.toNat % n = 0) (hva : e.toNat + n ≤ 2 ^ 57)
    (h : runA (transl (s.core.who true sc) p e.toNat) s = .ok (.error err, s)) : RefusedAt sc false e n s err p := by
  obtain ⟨hpos, hg, -⟩ := aligned_within hn ha
  rcases hp with rfl | rfl
  · exact runA_gRead_refused hpos hg hva h
  · rintro bs rfl
    exact runA_gWrite_refused hpos hg hva h

theorem refusedAt_beyond {e : Dword} (hp : p = .r ∨ p = .w) (hva : 2 ^ 57 < e.toNat + n) :
    RefusedAt sc false e n s (.fault e.toNat) p := by
  rcases hp with rfl | rfl
  · exact runA_gRead_beyond hva
  · rintro bs rfl
    exact runA_gWrite_beyond hva

theorem refusedAt_local {e : Dword} (hp : p = .r ∨ p = .w) (hn : n ∈ [1, 2, 4, 8, 64]) (ha : e.toNat % n = 0)
    (h : localOk s (s.core.who true sc) e.toNat n = none) : RefusedAt sc true e n s (.fault e.toNat) p := by
  obtain ⟨hpos, -, hb⟩ := aligned_within hn ha
  rcases hp with rfl | rfl
  · exact runA_lRead_refused hpos hb h
  · rintro bs rfl
    exact runA_lWrite_refused hpos hb h

/-- A word that makes one access, of a size and with a permission: the alignment is checked first, and a refusal stops the
word. A load of a FIFO state word makes no access (R212). -/
structure AccessWord (sc : BitVec 3) (loc : Bool) (d a : Reg) (x : BitVec 32) (s : State) (q : Instr × Nat × Perm) : Prop where
  size : q.2.1 ∈ [1, 2, 4, 8, 64]
  perm : q.2.2 = .r ∨ q.2.2 = .w
  misaligned : (s.core.ea a x).toNat % q.2.1 ≠ 0 → exec q.1 s = .next (enterTrap cAlign s.core.pc (s.core.ea a x) s)
  refused : ∀ err, (s.core.ea a x).toNat % q.2.1 = 0 →
    (loc = true → q.1 = .ldD sc loc d a x → fifoWord s.core (s.core.ea a x).toNat = none) →
    RefusedAt sc loc (s.core.ea a x) q.2.1 s err q.2.2 → exec q.1 s = .next (seqStop (accStop err) s)

/-- An access that is refused, as an instruction sees it. -/
theorem acc_runA_error {α : Type} {m : A α} {t : State} {e : AccErr} (h : runA m s = .ok (.error e, t)) :
    acc m s = .error (accStop e) := run_acc_error h

/-- A load that stops: it is misaligned, or its access is refused. -/
theorem loadBytes_misaligned {e : Dword} (h : e.toNat % n ≠ 0) : loadBytes sc loc e n s = .error (.trap cAlign e) := by
  simp [loadBytes, aligned, h]

theorem loadBytes_refused {e : Dword} {err : AccErr} (ha : e.toNat % n = 0)
    (hf : loc = true → n = 8 → fifoWord s.core e.toNat = none)
    (h : runA (readAt (s.core.who true sc) loc e.toNat n) s = .ok (.error err, s)) :
    loadBytes sc loc e n s = .error (accStop err) := by
  have ha : aligned e n s = .ok ((), s) := by simp [aligned, ha]
  unfold loadBytes
  simp only [run_bind, run_getC, ha]
  cases hl : (loc && n == 8) with
  | false => exact run_acc_error h
  | true =>
    simp only [Bool.and_eq_true, beq_iff_eq] at hl
    rw [hf hl.1 hl.2]
    exact run_acc_error h

/-- A load into any register file, whose bytes come from `loadBytes`. -/
theorem accessWord_load {i : Instr} {m : M Flow} (hn : n ∈ [1, 2, 4, 8, 64]) (hi : exec i s = runSeq 8 m s)
    (hm : ∀ y, loadBytes sc loc (s.core.ea a x) n s = .error y → m s = .error y) (hf : n = 8 → i = .ldD sc loc d a x) :
    AccessWord sc loc d a x s (i, n, .r) where
  size := hn
  perm := .inl rfl
  misaligned h := hi.trans (runSeq_error (hm _ (loadBytes_misaligned h)))
  refused _ ha hw h := hi.trans (runSeq_error (hm _ (loadBytes_refused ha (fun hl h8 => hw hl (hf h8)) h)))

theorem load_stops (sg : Bool) (y : Stop) (h : loadBytes sc loc (s.core.ea a x) n s = .error y) :
    load sc loc d a x n sg s = .error y := by
  simp [load, h]

theorem loadStream_stops (y : Stop) (h : loadBytes sc loc (s.core.ea a x) 64 s = .error y) :
    loadStream sc loc d a x s = .error y := by
  simp [loadStream, h]

theorem accessWord_store {i : Instr} (hn : n ∈ [1, 2, 4, 8, 64]) (hi : exec i s = runSeq 8 (store sc loc a b x n) s) :
    AccessWord sc loc d a x s (i, n, .w) where
  size := hn
  perm := .inr rfl
  misaligned h := hi.trans (runSeq_error (x := .trap cAlign _) (by simp [store, aligned, h]))
  refused _ ha _ h := by
    refine hi.trans (runSeq_error ?_)
    have hacc := acc_runA_error (h (leBytes n (s.core.rg b).toNat) (length_leBytes n _))
    simp [store, aligned, ha, hacc]
end

/-- Settles O30: every load and store is an access word, and each check of R78 refuses its access. -/
theorem accessChecks : Obligations.AccessChecks := by
  unfold Obligations.AccessChecks
  intro sc loc d a b x s ea pc sized q hq
  have hword : AccessWord sc loc d a x s q := by
    simp only [sized, List.mem_cons, List.not_mem_nil, or_false] at hq
    rcases hq with rfl | rfl | rfl | rfl | rfl | rfl | rfl | rfl | rfl | rfl | rfl | rfl
    · exact accessWord_load (by decide) rfl (load_stops true) (by simp)
    · exact accessWord_load (by decide) rfl (load_stops true) (by simp)
    · exact accessWord_load (by decide) rfl (load_stops true) (by simp)
    · exact accessWord_load (by decide) rfl (load_stops false) (fun _ => rfl)
    · exact accessWord_load (by decide) rfl (load_stops false) (by simp)
    · exact accessWord_load (by decide) rfl (load_stops false) (by simp)
    · exact accessWord_load (by decide) rfl (load_stops false) (by simp)
    · exact accessWord_load (by decide) rfl loadStream_stops (by simp)
    · exact accessWord_store (by decide) rfl
    · exact accessWord_store (by decide) rfl
    · exact accessWord_store (by decide) rfl
    · exact accessWord_store (by decide) rfl
  obtain ⟨hn, hp, hmis, href⟩ := hword
  have hea : dw ea.toNat = ea := wrapN_uNat ea
  have hlook : s.lookup (s.core.who true sc) ea.toNat = s.translation ea.toNat := lookup_own (own_who s true sc) _
  have hgl : loc = false → loc = true → q.1 = .ldD sc loc d a x → fifoWord s.core ea.toNat = none :=
    fun h h' => absurd (h.symm.trans h') Bool.false_ne_true
  refine ⟨hmis, fun ha hl hva => ⟨fun ht => ?_, fun l ht hg => ?_⟩, fun ha hl hva => ?_, fun ha hl hf hk => ?_⟩
  · have h := href (.missing ea.toNat) ha (hgl hl)
      (hl ▸ refusedAt_transl hp hn ha hva (runA_transl_missing (hlook.trans ht)))
    rw [h, accStop, hea]; rfl
  · have h := href (.perm ea.toNat) ha (hgl hl)
      (hl ▸ refusedAt_transl hp hn ha hva (runA_transl_perm (hlook.trans ht) hg))
    rw [h, accStop, hea]; rfl
  · have h := href (.fault ea.toNat) ha (hgl hl) (hl ▸ refusedAt_beyond hp hva)
    rw [h, accStop, hea]; rfl
  · have h := href (.fault ea.toNat) ha (fun _ => hf) (hl ▸ refusedAt_local hp hn ha hk)
    rw [h, accStop, hea]; rfl

/-! ## Atomics (O29) -/

/-- A walk of the table does not depend on the caches. -/
theorem walk_fills {s : State} {w : Who} {wr : Bool} {va pa n : Nat} {l : Option Leaf} (p : BitVec 5) (x : Nat) :
    (s.fills w wr va pa n l).walk p x = s.walk p x := (rfl)

/-- An access of more than one line leaves the first-level lines. -/
theorem hit_cached_wide {s : State} {w : Who} {wr : Bool} {va pa n : Nat} {l : Option Leaf}
    (hn : (linesOf pa n).length ≠ 1) (id : BitVec 11) (x : Nat) :
    (s.cached w wr va pa n l).hit id x = s.cache.hit id x := by
  have hone : ((linesOf pa n).length == 1) = false := by simpa using hn
  have hl1 : (s.cached w wr va pa n l).l1 = s.cache.l1 := by
    unfold State.cached
    simp only [hone, Bool.and_false, Bool.false_and, Bool.false_eq_true, if_false]
    rw [foldl_cacheLine_l1]
    cases l <;> rfl
  rw [Cache.hit, hl1, Cache.hit]

/-- The translation of an address after an access of it: the same. -/
theorem translation_fills {s : State} {w : Who} {wr : Bool} {va pa n : Nat} {l : Leaf} (hw : Own s w) (hq : w.seq = true)
    (h : s.translation va = some l) : (s.fills w wr va pa n (some l)).translation va = some l := by
  rw [translation_eq, if_pos rfl] at h ⊢
  rw [walk_fills]
  show (s.core.pins.findSome? (·.leaf va)).or
    (((s.cached w wr va pa n (some l)).hit s.core.id va).or (s.walk s.core.partid va)) = some l
  by_cases hone : (linesOf pa n).length = 1
  · have hc := hit_cached (wr := wr) (l := l) (va := va) (s := s) hq hone
    rw [hw.core] at hc
    rw [hc]
    cases hp : s.core.pins.findSome? (·.leaf va) with
    | some m => rwa [hp] at h
    | none =>
      rw [hp] at h
      cases hh : s.cache.hit s.core.id va with
      | some m => rwa [hh] at h
      | none => rfl
  · rwa [hit_cached_wide hone]

section
variable {w : Who} {va n pa : Nat} {s : State}

/-- A plain range passes a probe for a write. -/
theorem runA_gProbe_plain (hw : Own s w) (h : s.plain .w va n pa w.seq) : runA (gProbe w .w va n) s = .ok (.ok (), s) := by
  obtain ⟨hn, hva, hgr, ⟨l, hl, hg, rfl⟩, -, hpool, -, hreg, -⟩ := h
  have hok : vaOk va n = true := decide_eq_true hva
  have ht := runA_transl ((lookup_own hw va).trans hl) hg (poolLost_of_no_pools hpool _)
  simp [gProbe, hok, granules_one hn hgr, ht, hreg]

/-- A range that is plain for a write is so after it has been read. -/
theorem plain_fills {l : Leaf} {p : Perm} (hw : Own s w) (hq : w.seq = true) (hl : s.translation va = some l)
    (h : s.plain p va n pa) : (s.fills w false va pa n (some l)).plain p va n pa := by
  obtain ⟨hn, hva, hgr, ⟨m, hm, hg, hpa⟩, hrest⟩ := h
  obtain rfl : l = m := Option.some.inj (hl.symm.trans hm)
  exact ⟨hn, hva, hgr, ⟨l, translation_fills hw hq hl, hg, hpa⟩, hrest⟩
end

section
variable {sc : BitVec 3} {d a b : Reg} {x : BitVec 32} {n pa : Nat} {s : State}

/-- The sequencer as the agent of an atomic (R225). -/
def amoWho (s : State) (sc : BitVec 3) : Who := { s.core.who true sc with excl := true }

theorem own_amoWho (s : State) (sc : BitVec 3) : Own s (amoWho s sc) := ⟨rfl, rfl, rfl, rfl⟩

/-- A store of the sequencer's at a plain address, made in one step with a read of it: the memory changes, and no register. -/
theorem acc_gWrite_atomic {bs : List Byte} {va : Nat} {l : Leaf} (hl : s.translation va = some l)
    (h : s.plain .w va bs.length pa) :
    let u := s.fills (amoWho s sc) false va pa bs.length (some l)
    ∃ t, acc (gWrite (amoWho s sc) va bs) u = .ok ((), t) ∧ t.core = s.core ∧ t.mem = memWrite s.mem pa bs ∧
      t.bank = s.bank ∧ t.code = s.code := by
  intro u
  have hpl : u.plain .w va bs.length pa := plain_fills (own_amoWho s sc) rfl hl h
  obtain ⟨_, -, -, -, hrun⟩ := runA_gWrite_plain (w := amoWho s sc) (s := u) ⟨rfl, rfl, rfl, rfl⟩ hpl
  obtain ⟨hn, -, -, -, -, -, hpois, -, -⟩ := hpl
  refine ⟨_, acc_runA hrun, ?_⟩
  rw [show (amoWho s sc).seq = true from rfl, if_pos rfl, physWrite_sequencer pa bs u hn hpois]
  exact ⟨rfl, rfl, rfl, rfl⟩

/-- An atomic at a plain address: the old value, and the memory with the new one where it writes (R81, R83). -/
theorem run_atomic {f : Nat → Core → Option Nat × BitVec 6} {v : Option Nat} {fl : BitVec 6}
    (ha : (s.core.ea a x).toNat % n = 0) (hr : s.plain .r (s.core.ea a x).toNat n pa)
    (hw : s.plain .w (s.core.ea a x).toNat n pa) (hf : f (leNat (memRead s.mem pa n)) s.core = (v, fl)) :
    ∃ t, atomic sc a x n f s = .ok (leNat (memRead s.mem pa n), t) ∧ t.core = s.core.orFlags fl ∧
      t.mem = (v.elim s.mem fun v => memWrite s.mem pa (leBytes n v)) ∧ t.bank = s.bank ∧ t.code = s.code := by
  have hdet : s.core.det = false := hr.2.2.2.2.2.2.2.2
  have hprobe := acc_runA (runA_gProbe_plain (w := amoWho s sc) (own_amoWho s sc) hw)
  obtain ⟨l, hl, -, -, hread⟩ := runA_gRead_plain (w := amoWho s sc) (own_amoWho s sc) hr
  rw [lookup_own (own_amoWho s sc)] at hl
  have hread := acc_runA hread
  unfold amoWho at hprobe hread
  cases v with
  | none =>
    refine ⟨{ s.fills (amoWho s sc) false (s.core.ea a x).toNat pa n (some l) with core := s.core.orFlags fl }, ?_,
      rfl, rfl, rfl, rfl⟩
    simp [atomic, hdet, aligned, ha, hprobe, hread, hf]
    rfl
  | some v =>
    obtain ⟨t, ht, hc, hmem, hbank, hcode⟩ := acc_gWrite_atomic (sc := sc) (bs := leBytes n v) hl
      (by rw [length_leBytes]; exact hw)
    rw [length_leBytes] at ht
    unfold amoWho at ht
    refine ⟨{ t with core := t.core.orFlags fl }, ?_, by rw [← hc], hmem, hbank, hcode⟩
    simp [atomic, hdet, aligned, ha, hprobe, hread, hf, ht]
/-- What an atomic leaves (R81, R82): the old value in d, its flags, the memory, and every other register. -/
theorem exec_atomicTo {f : Nat → Core → Option Nat × BitVec 6} {v : Option Nat} {fl : BitVec 6}
    (ha : (s.core.ea a x).toNat % n = 0) (hr : s.plain .r (s.core.ea a x).toNat n pa)
    (hw : s.plain .w (s.core.ea a x).toNat n pa) (hf : f (leValue (memRead s.mem pa n)) s.core = (v, fl)) :
    ∃ t, runSeq 8 (atomicTo sc d a x n f) s = .next t ∧
      t.mem = (v.elim s.mem fun v => memWrite s.mem pa (leBytes n v)) ∧
      t.core.rg d = (if d = 0 then 0 else wrapN (leValue (memRead s.mem pa n))) ∧
      t.core.fflg = s.core.fflg ||| fl ∧ t.core.pc = s.core.pc + 8 ∧ (∀ r, r ≠ d → t.core.rg r = s.core.rg r) ∧
      t.bank = s.bank ∧ t.code = s.code := by
  rw [leValue_eq_leNat] at hf ⊢
  obtain ⟨t, ht, hc, hmem, hbank, hcode⟩ := run_atomic (sc := sc) ha hr hw hf
  have hrun : atomicTo sc d a x n f s =
      .ok (.next, { t with core := t.core.setG d (dw (leNat (memRead s.mem pa n))) }) := by
    simp [atomicTo, ht]
  refine ⟨_, runSeq_ok hrun, hmem, Core.rg_setG_self .., ?_, ?_, fun r h => ?_, hbank, hcode⟩
  · exact (Core.setG_fflg ..).trans (by rw [hc]; rfl)
  · show (t.core.setG d _).pc + 8 = _
    rw [Core.setG_pc, hc]; rfl
  · exact (Core.rg_setG_ne _ _ _ _ h).trans (by rw [hc]; rfl)
end

/-- Settles O29: each atomic at a plain address, by the value that its function of R81 gives. -/
theorem atomics : Obligations.Atomics := by
  unfold Obligations.Atomics
  intro sc d a b x s pa ea y old new ends
  refine ⟨fun ha hr hw => ⟨exec_atomicTo (v := some _) ha hr hw rfl, exec_atomicTo (v := some _) ha hr hw rfl, ?_⟩,
    fun ha hr hw => exec_atomicTo (v := some _) ha hr hw rfl⟩
  by_cases h : old 8 = (s.core.rg d).toNat
  · rw [if_pos h]
    exact exec_atomicTo ha hr hw (v := some y.toNat) (by rw [if_pos h])
  · rw [if_neg h]
    exact exec_atomicTo ha hr hw (v := none) (by rw [if_neg h])

end Sys2Proof
end

section
/-!
PROOFS. Binary32 encodings and their order (O19, R70 to R72): what an encoding decodes to, and that the order of the
encodings is the order of the values.
-/
namespace Sys2Proof
open Machine

/-! ## What an encoding decodes to (R262, R263) -/

theorem f32Exp_eq (v : BitVec 32) : f32Exp v = v.toNat / 2 ^ 23 % 2 ^ 8 := by
  simp [f32Exp, Nat.shiftRight_eq_div_pow]
theorem f32Frac_eq (v : BitVec 32) : f32Frac v = v.toNat % 2 ^ 23 := by simp [f32Frac]
theorem f32Neg_eq (v : BitVec 32) : f32Neg v = (v.toNat / 2 ^ 31 % 2 == 1) := by
  rw [f32Neg, BitVec.getLsbD, Nat.testBit_eq_decide_div_mod_eq, Bool.beq_eq_decide_eq]

/-- The three fields make up the encoding. -/
theorem toNat_eq_fields (v : BitVec 32) : v.toNat = (f32Neg v).toNat * 2 ^ 31 + f32Exp v * 2 ^ 23 + f32Frac v := by
  have hv := v.isLt
  rw [f32Exp_eq, f32Frac_eq, f32Neg_eq]
  have hs : v.toNat / 2 ^ 31 % 2 = 0 ∨ v.toNat / 2 ^ 31 % 2 = 1 := by omega
  rcases hs with h | h
  · rw [h]
    show v.toNat = 0 * 2 ^ 31 + _ + _
    omega
  · rw [h]
    show v.toNat = 1 * 2 ^ 31 + _ + _
    omega

theorem f32Exp_lt (v : BitVec 32) : f32Exp v < 256 := by rw [f32Exp_eq]; omega
theorem f32Frac_lt (v : BitVec 32) : f32Frac v < 2 ^ 23 := by rw [f32Frac_eq]; omega

theorem fp32_fb : fp32.fb = 23 := rfl
theorem fp32_eb : fp32.eb = 8 := rfl
theorem fp32_e4m3 : fp32.e4m3 = false := rfl
theorem fp32_bias : fp32.bias = 127 := rfl
theorem fp32_emax : fp32.emax = 255 := rfl
theorem fp32_qmin : fp32.qmin = -149 := rfl

/-- The significand of a finite encoding, an integer, and its exponent. -/
def f32Sig (v : BitVec 32) : Nat := if f32Exp v = 0 then f32Frac v else 2 ^ 23 + f32Frac v
def f32Scale (v : BitVec 32) : Int := if f32Exp v = 0 then -149 else (f32Exp v : Int) - 150

/-- What an encoding decodes to, by its fields. -/
theorem fp32Val_eq (v : BitVec 32) : fp32Val v =
    if f32Exp v = 255 then (if f32Frac v = 0 then .inf (f32Neg v) else .nan)
    else .fin (f32Neg v) (f32Sig v) (f32Scale v) := by
  simp only [fp32Val, FFmt.dec, fp32_fb, fp32_eb, fp32_e4m3, fp32_bias, fp32_emax, fp32_qmin, f32Sig, f32Scale,
    ← f32Exp_eq, ← f32Frac_eq, Nat.reduceAdd, ← f32Neg_eq]
  by_cases h : f32Exp v = 255
  · by_cases hf : f32Frac v = 0 <;> simp [h, hf]
  · by_cases h0 : f32Exp v = 0
    · simp [h0]
    · simp only [h, h0, if_false, Bool.not_false, Bool.and_true, decide_false, Bool.false_eq_true, Bool.false_and]
      congr 1
      omega

theorem fp32Val_nan {v : BitVec 32} (h : f32Nan v) : fp32Val v = .nan := by
  rw [fp32Val_eq, if_pos h.1, if_neg h.2]
theorem fp32Val_inf {v : BitVec 32} (h : f32Inf v) : fp32Val v = .inf (f32Neg v) := by
  rw [fp32Val_eq, if_pos h.1, if_pos h.2]
theorem fp32Val_fin {v : BitVec 32} (h : f32Finite v) : fp32Val v = .fin (f32Neg v) (f32Sig v) (f32Scale v) := by
  rw [fp32Val_eq, if_neg h]

/-- An encoding is a NaN, an infinity or finite. -/
theorem f32_cases (v : BitVec 32) : f32Nan v ∨ f32Inf v ∨ f32Finite v := by
  unfold f32Nan f32Inf f32Finite
  tauto

theorem not_f32Nan_of_finite {v : BitVec 32} (h : f32Finite v) : ¬ f32Nan v := fun hn => h hn.1
theorem not_f32Nan_of_inf {v : BitVec 32} (h : f32Inf v) : ¬ f32Nan v := fun hn => hn.2 h.2

/-- The two tests of the model are the predicates of the statements (R263). -/
theorem fp32Nan_iff (v : BitVec 32) : fp32Nan v = true ↔ f32Nan v := by
  show (fp32Val v).isNan = true ↔ _
  rcases f32_cases v with h | h | h
  · simp [fp32Val_nan h, Val.isNan, h]
  · simp [fp32Val_inf h, Val.isNan, not_f32Nan_of_inf h]
  · simp [fp32Val_fin h, Val.isNan, not_f32Nan_of_finite h]
theorem fp32Snan_iff (v : BitVec 32) : fp32Snan v = true ↔ f32Snan v := by
  have hbit : (v.toNat / 2 ^ 22 % 2 == 0) = true ↔ v.getLsbD 22 = false := by
    rw [BitVec.getLsbD, Nat.testBit_eq_decide_div_mod_eq, beq_iff_eq, decide_eq_false_iff_not]
    omega
  show (fp32Nan v && v.toNat / 2 ^ 22 % 2 == 0) = true ↔ _
  rw [Bool.and_eq_true, fp32Nan_iff, hbit, f32Snan]

/-- The flags of R71 of an operation on NaN operands. -/
theorem nanFlags_eq (x y : BitVec 32) [Decidable (f32Snan x ∨ f32Snan y)] :
    flIf (fp32Snan x || fp32Snan y) flNv = if f32Snan x ∨ f32Snan y then flNv else 0 := by
  simp only [flIf, Bool.or_eq_true, fp32Snan_iff]

/-! ## Values and their order -/

/-- A sign as a factor. -/
def signOf (neg : Bool) : ℚ := if neg then -1 else 1

/-- The value of a finite encoding is its significand, scaled. -/
theorem f32Value_eq (v : BitVec 32) : f32Value v = signOf (f32Neg v) * (f32Sig v * 2 ^ f32Scale v) := by
  unfold f32Value f32Sig f32Scale signOf
  split_ifs <;> simp

theorem f32Scale_ge (v : BitVec 32) : -149 ≤ f32Scale v := by unfold f32Scale; split_ifs <;> omega

/-- The magnitude of a finite encoding in units of 2^−149, which every finite value is a multiple of. -/
def f32Units (v : BitVec 32) : Nat := f32Sig v * 2 ^ (f32Scale v + 149).toNat

/-- The place of an encoding among those of its sign. -/
def f32Mag (v : BitVec 32) : Nat := f32Exp v * 2 ^ 23 + f32Frac v

theorem f32Mag_eq (v : BitVec 32) : f32Mag v = v.toNat % 2 ^ 31 := by
  have h := toNat_eq_fields v
  have he := f32Exp_lt v
  have hf := f32Frac_lt v
  unfold f32Mag
  cases hs : f32Neg v <;> simp [hs] at h <;> omega

theorem f32Key_eq (v : BitVec 32) : f32Key v = if f32Neg v then -(f32Mag v : Int) else f32Mag v := by
  rw [f32Key, f32Mag_eq]

/-- The units of a subnormal, and of a normal number: its exponent places them between two powers of two. -/
theorem f32Units_zero {v : BitVec 32} (h : f32Exp v = 0) : f32Units v = f32Frac v := by simp [f32Units, f32Sig, f32Scale, h]
theorem f32Units_succ {v : BitVec 32} {n : Nat} (h : f32Exp v = n + 1) : f32Units v = (2 ^ 23 + f32Frac v) * 2 ^ n := by
  have hn : ((n + 1 : Nat) - 150 + 149 : Int).toNat = n := by omega
  simp only [f32Units, f32Sig, f32Scale, h, Nat.succ_ne_zero, if_false, hn]

theorem f32Units_lt_pow (v : BitVec 32) : f32Units v < 2 ^ 23 * 2 ^ f32Exp v := by
  have hf := f32Frac_lt v
  cases h : f32Exp v with
  | zero => rw [f32Units_zero h]; omega
  | succ n =>
    calc f32Units v = (2 ^ 23 + f32Frac v) * 2 ^ n := f32Units_succ h
      _ < 2 ^ 24 * 2 ^ n := Nat.mul_lt_mul_of_pos_right (by omega) (by positivity)
      _ = 2 ^ 23 * 2 ^ (n + 1) := by ring

theorem pow_le_f32Units {v : BitVec 32} {n : Nat} (h : f32Exp v = n + 1) : 2 ^ 23 * 2 ^ n ≤ f32Units v := by
  rw [f32Units_succ h]
  exact Nat.mul_le_mul_right _ (Nat.le_add_right ..)

/-- The units rise with the place. -/
theorem f32Units_lt {x y : BitVec 32} (h : f32Mag x < f32Mag y) : f32Units x < f32Units y := by
  have hx := f32Frac_lt x
  have hy := f32Frac_lt y
  have hexp : f32Exp x < f32Exp y ∨ f32Exp x = f32Exp y ∧ f32Frac x < f32Frac y := by unfold f32Mag at h; omega
  cases hn : f32Exp y with
  | zero =>
    rw [f32Units_zero hn, f32Units_zero (v := x) (by omega)]
    omega
  | succ n =>
    rcases hexp with hlt | ⟨heq, hfr⟩
    · calc f32Units x < 2 ^ 23 * 2 ^ f32Exp x := f32Units_lt_pow x
        _ ≤ 2 ^ 23 * 2 ^ n := Nat.mul_le_mul_left _ (Nat.pow_le_pow_right (by decide) (by omega))
        _ ≤ f32Units y := pow_le_f32Units hn
    · rw [f32Units_succ hn, f32Units_succ (heq.trans hn)]
      exact Nat.mul_lt_mul_of_pos_right (by omega) (by positivity)

theorem f32Units_eq {x y : BitVec 32} (h : f32Mag x = f32Mag y) : f32Units x = f32Units y := by
  have hx := f32Frac_lt x
  have hy := f32Frac_lt y
  have hexp : f32Exp x = f32Exp y ∧ f32Frac x = f32Frac y := by unfold f32Mag at h; omega
  simp only [f32Units, f32Sig, f32Scale, hexp.1, hexp.2]

/-- A number of units with a sign. -/
def signed (neg : Bool) (n : Nat) : Int := if neg then -(n : Int) else n

/-- The order of the keys is the order of the signed units. -/
theorem signed_units_lt {x y : BitVec 32} (h : f32Key x < f32Key y) :
    signed (f32Neg x) (f32Units x) < signed (f32Neg y) (f32Units y) := by
  have hpos (v : BitVec 32) (hv : 0 < f32Mag v) : 0 < f32Units v := f32Units_lt (x := 0) hv
  have hlt (a b : BitVec 32) : f32Mag a < f32Mag b → f32Units a < f32Units b := f32Units_lt
  rw [f32Key_eq, f32Key_eq] at h
  unfold signed
  have := hpos x; have := hpos y; have := hlt x y; have := hlt y x
  cases hx : f32Neg x <;> cases hy : f32Neg y <;>
    simp only [hx, hy, if_true, if_false, Bool.false_eq_true] at h ⊢ <;> omega

theorem signed_units_eq {x y : BitVec 32} (h : f32Key x = f32Key y) :
    signed (f32Neg x) (f32Units x) = signed (f32Neg y) (f32Units y) := by
  have hzero (v : BitVec 32) (hv : f32Mag v = 0) : f32Units v = 0 := f32Units_eq (y := 0) hv
  have heq : f32Mag x = f32Mag y → f32Units x = f32Units y := f32Units_eq
  rw [f32Key_eq, f32Key_eq] at h
  unfold signed
  have := hzero x; have := hzero y
  cases hx : f32Neg x <;> cases hy : f32Neg y <;>
    simp only [hx, hy, if_true, if_false, Bool.false_eq_true] at h ⊢ <;> omega

/-- The order of R72 as a comparison answers it. -/
def order (i j : Int) : Int := if i < j then -1 else if i = j then 0 else 1

theorem order_of_lt {i j : Int} (h : i < j) : order i j = -1 := if_pos h
theorem order_self (i : Int) : order i i = 0 := by simp [order]
theorem order_of_gt {i j : Int} (h : j < i) : order i j = 1 := by
  rw [order, if_neg (by omega), if_neg (by omega)]

/-- A common positive factor does not change the order. -/
theorem order_mul {i j k : Int} (hk : 0 < k) : order (i * k) (j * k) = order i j := by
  simp only [order, mul_lt_mul_iff_left₀ hk, mul_left_inj' hk.ne']

/-- The order of the keys is the order of the signed units. -/
theorem order_units (x y : BitVec 32) :
    order (signed (f32Neg x) (f32Units x)) (signed (f32Neg y) (f32Units y)) = order (f32Key x) (f32Key y) := by
  rcases lt_trichotomy (f32Key x) (f32Key y) with h | h | h
  · rw [order_of_lt h, order_of_lt (signed_units_lt h)]
  · rw [h, order_self, signed_units_eq h, order_self]
  · rw [order_of_gt h, order_of_gt (signed_units_lt h)]

/-- A signed multiple on a grid is the signed units, divided by the grid. -/
theorem scaled_mul (v : BitVec 32) {q : Int} (hq : q ≤ f32Scale v) (h : -149 ≤ q) :
    scaled (f32Neg v) (f32Sig v) (f32Scale v) q * 2 ^ (q + 149).toNat = signed (f32Neg v) (f32Units v) := by
  have hexp : (f32Scale v + 149).toNat = (f32Scale v - q).toNat + (q + 149).toNat := by omega
  unfold scaled signed f32Units
  rw [hexp, pow_add, Nat.shiftLeft_eq]
  split_ifs <;> push_cast <;> ring

/-- Finite values compare as their keys do. -/
theorem cmp_fin (x y : BitVec 32) :
    (Val.fin (f32Neg x) (f32Sig x) (f32Scale x)).cmp (.fin (f32Neg y) (f32Sig y) (f32Scale y)) =
      some (order (f32Key x) (f32Key y)) := by
  have hx := f32Scale_ge x
  have hy := f32Scale_ge y
  show some (order (scaled _ _ _ (min (f32Scale x) (f32Scale y))) (scaled _ _ _ (min (f32Scale x) (f32Scale y)))) = _
  rw [← order_mul (k := 2 ^ (min (f32Scale x) (f32Scale y) + 149).toNat) (by positivity), scaled_mul x (by omega) (by omega),
    scaled_mul y (by omega) (by omega), order_units]

theorem f32Mag_inf {v : BitVec 32} (h : f32Inf v) : f32Mag v = 255 * 2 ^ 23 := by rw [f32Mag, h.1, h.2, Nat.add_zero]
theorem f32Mag_fin {v : BitVec 32} (h : f32Finite v) : f32Mag v < 255 * 2 ^ 23 := by
  have he := f32Exp_lt v
  have hf := f32Frac_lt v
  unfold f32Finite at h
  unfold f32Mag
  omega

/-- Two numbers compare as their keys do (R72). -/
theorem cmp_eq {x y : BitVec 32} (hx : ¬ f32Nan x) (hy : ¬ f32Nan y) :
    (fp32Val x).cmp (fp32Val y) = some (order (f32Key x) (f32Key y)) := by
  rw [f32Key_eq, f32Key_eq]
  rcases (f32_cases x).resolve_left hx with hx | hx <;> rcases (f32_cases y).resolve_left hy with hy | hy
  · rw [fp32Val_inf hx, fp32Val_inf hy, f32Mag_inf hx, f32Mag_inf hy]
    cases f32Neg x <;> cases f32Neg y <;> rfl
  · have := f32Mag_fin hy
    rw [fp32Val_inf hx, fp32Val_fin hy, f32Mag_inf hx]
    cases f32Neg x <;> cases f32Neg y <;> simp [Val.cmp, order] <;> omega
  · have := f32Mag_fin hx
    rw [fp32Val_fin hx, fp32Val_inf hy, f32Mag_inf hy]
    cases f32Neg x <;> cases f32Neg y <;> simp [Val.cmp, order] <;> omega
  · rw [fp32Val_fin hx, fp32Val_fin hy, cmp_fin, f32Key_eq, f32Key_eq]

/-! ## `fcmp`, `fmin`, `fmax` (O19) -/

theorem fp32Cmp_nan {x y : BitVec 32} (h : f32Nan x ∨ f32Nan y) : (fp32Cmp x y).1 = 8 := by
  have hc : (fp32Val x).cmp (fp32Val y) = none := by
    rcases h with h | h
    · rw [fp32Val_nan h]; rfl
    · rw [fp32Val_nan h]; cases fp32Val x <;> rfl
  simp [fp32Cmp, hc]

/-- The minimum and the maximum, by which of the operands are numbers. -/
theorem fp32MinMax_eq (mx : Bool) (x y : BitVec 32) [Decidable (f32Nan x)] [Decidable (f32Nan y)] :
    (fp32MinMax mx x y).1 = if f32Nan x ∧ f32Nan y then f32Qnan else if f32Nan x then y else if f32Nan y then x
      else if fp32.below y.toNat x.toNat != mx then y else x := by
  have hx : fp32.isNan x.toNat = true ↔ f32Nan x := fp32Nan_iff x
  have hy : fp32.isNan y.toNat = true ↔ f32Nan y := fp32Nan_iff y
  have hq : BitVec.ofNat 32 fp32.qnan = f32Qnan := rfl
  simp only [fp32MinMax, FFmt.minMax, Bool.and_eq_true, hx, hy]
  split_ifs <;> simp [hq]

/-- The order in which −0 is below +0. -/
theorem below_eq {x y : BitVec 32} (hx : ¬ f32Nan x) (hy : ¬ f32Nan y) : fp32.below x.toNat y.toNat =
    if f32Key x < f32Key y then true else if f32Key x = f32Key y then f32Neg x && !f32Neg y else false := by
  have hc := cmp_eq hx hy
  unfold fp32Val at hc
  rw [FFmt.below, hc, f32Neg_eq, f32Neg_eq, order]
  split_ifs <;> rfl

theorem fp32MinMax_flags (mx : Bool) (x y : BitVec 32) :
    (fp32MinMax mx x y).2 = flIf (fp32Snan x || fp32Snan y) flNv := by
  simp only [fp32MinMax, FFmt.minMax]
  split_ifs <;> rfl

/-- The selections on two numbers: the one below the other, and of two equal ones the negative as the lesser. -/
theorem fp32MinMax_numbers {x y : BitVec 32} (hx : ¬ f32Nan x) (hy : ¬ f32Nan y) :
    (f32Key x < f32Key y → (fp32MinMax false x y).1 = x ∧ (fp32MinMax true x y).1 = y) ∧
    (f32Key y < f32Key x → (fp32MinMax false x y).1 = y ∧ (fp32MinMax true x y).1 = x) ∧
    (f32Key x = f32Key y → (fp32MinMax false x y).1 = (if f32Neg x then x else y) ∧
      (fp32MinMax true x y).1 = if f32Neg x then y else x) := by
  classical
  have hsame (h : f32Key x = f32Key y) (hnx : f32Neg x = false) (hny : f32Neg y = false) : x = y := by
    rw [f32Key_eq, f32Key_eq, hnx, hny] at h
    have h : f32Mag x = f32Mag y := by simpa using h
    apply BitVec.eq_of_toNat_eq
    rw [toNat_eq_fields x, toNat_eq_fields y, hnx, hny, Nat.add_assoc, Nat.add_assoc]
    exact congrArg _ h
  simp only [fp32MinMax_eq, hx, hy, false_and, if_false, below_eq hy hx]
  refine ⟨fun h => ?_, fun h => ?_, fun h => ?_⟩
  · simp [not_lt.2 h.le, h.ne']
  · simp [h]
  · cases hnx : f32Neg x with
    | true => simp [h]
    | false =>
      cases hny : f32Neg y with
      | true => simp [h]
      | false => simp [hsame h hnx hny]

/-- Settles O19: the comparison and the two selections, by the order of the keys. -/
theorem floatOrder : Obligations.FloatOrder := by
  unfold Obligations.FloatOrder
  intro d a b s x y
  classical
  have hflags := nanFlags_eq x y
  have hcmp (hx : ¬ f32Nan x) (hy : ¬ f32Nan y) : (fp32Cmp x y).1 =
      if order (f32Key x) (f32Key y) < 0 then 1 else if order (f32Key x) (f32Key y) = 0 then 2 else 4 := by
    simp only [fp32Cmp, cmp_eq hx hy]
  refine ⟨dw (fp32Cmp x y).1, (fp32MinMax false x y).1, (fp32MinMax true x y).1, flIf (fp32Snan x || fp32Snan y) flNv,
    runSeq_resultF rfl, runSeq_resultF (Prod.ext rfl (fp32MinMax_flags false x y)),
    runSeq_resultF (Prod.ext rfl (fp32MinMax_flags true x y)), fun h => ?_, fun hx hy => ?_, fun h => ?_, fun hx hy => ?_,
    fun hx hy => ?_, fun hx hy => ?_, fun hx hy => ?_⟩
  · rw [hflags, if_pos h]
  · rw [hflags, if_neg (by tauto)]
  · rw [fp32Cmp_nan h]; rfl
  · obtain ⟨hlt, hgt, heq⟩ := fp32MinMax_numbers hx hy
    refine ⟨fun h => ⟨?_, hlt h⟩, fun h => ⟨?_, hgt h⟩, fun h => ⟨?_, heq h⟩⟩
    · rw [hcmp hx hy, order_of_lt h]; rfl
    · rw [hcmp hx hy, order_of_gt h]; rfl
    · rw [hcmp hx hy, h, order_self]; rfl
  · simp [fp32MinMax_eq, hx, hy]
  · simp [fp32MinMax_eq, hx, hy]
  · simp [fp32MinMax_eq, hx, hy]

end Sys2Proof
end

section
/-!
PROOFS. Rounding to nearest, ties to even (R70, R265): what the model's rounding of a significand answers, of an exact value
or of one that a sticky bit stands for.
-/
namespace Sys2Proof
open Machine

/-! ## The nearest integer -/

/-- An integer is nearest to a real number, and of two equally near ones the even one. -/
def Nearest (r : Nat) (z : ℝ) : Prop := |(r : ℝ) - z| ≤ 1 / 2 ∧ (|(r : ℝ) - z| = 1 / 2 → r % 2 = 0)

section
variable {r : Nat} {z : ℝ} (h : Nearest r z)
include h

/-- An even integer is at or below the nearest one exactly from half a unit below it on. -/
theorem Nearest.le_iff {n : Nat} (hn : n % 2 = 0) : n ≤ r ↔ (n : ℝ) - 1 / 2 ≤ z := by
  obtain ⟨hle, htie⟩ := h
  rw [abs_le] at hle
  constructor
  · intro hnr
    have : (n : ℝ) ≤ r := by exact_mod_cast hnr
    linarith
  · intro hz
    by_contra hlt
    have hr : (r : ℝ) + 1 ≤ n := by exact_mod_cast (not_le.1 hlt)
    have heq : (r : ℝ) = z - 1 / 2 := by linarith
    have hnr : (n : ℝ) = (r + 1 : Nat) := by push_cast; linarith
    have heven := htie (by rw [heq, sub_sub_cancel_left, abs_neg, abs_of_pos (by norm_num)])
    have hnr : n = r + 1 := by exact_mod_cast hnr
    omega

/-- No integer is nearer, and one equally near leaves the nearest one even. -/
theorem Nearest.abs_le (k : ℤ) :
    |(r : ℝ) - z| ≤ |(k : ℝ) - z| ∧ (|(r : ℝ) - z| = |(k : ℝ) - z| → (k : ℝ) ≠ r → r % 2 = 0) := by
  obtain ⟨hle, htie⟩ := h
  by_cases hk : k = r
  · subst hk
    exact ⟨le_rfl, fun _ hne => absurd (Int.cast_natCast r) hne⟩
  · have hone : (1 : ℝ) ≤ |(k : ℝ) - r| := by
      have : (1 : ℤ) ≤ |k - r| := Int.one_le_abs (sub_ne_zero.2 hk)
      exact_mod_cast this
    have htri : |(k : ℝ) - r| ≤ |(k : ℝ) - z| + |(r : ℝ) - z| := by
      rw [abs_sub_comm (r : ℝ) z]
      exact abs_sub_le _ _ _
    exact ⟨by linarith, fun heq _ => htie (by linarith)⟩
end

/-! ## Significands that stand for a value -/

/-- A significand and an exponent stand for a value: they are it, or an odd significand lies less than a unit from it. -/
def StandsFor (m : Nat) (e : Int) (x : ℝ) : Prop :=
  x = m * 2 ^ e ∨ (2 ^ 25 ≤ m ∧ m % 2 = 1 ∧ |x - m * 2 ^ e| < 2 ^ e)

/-- A number down to its integer part, or up: nearest by what lies above the integer part. -/
theorem nearest_down {t P : Nat} {z : ℝ} (hP : 0 < P) (h0 : 0 ≤ z * P - t * P) (h : 2 * (z * P - t * P) ≤ P)
    (htie : 2 * (z * P - t * P) = P → t % 2 = 0) : Nearest t z := by
  have hP : (0 : ℝ) < P := by exact_mod_cast hP
  have hz : 0 ≤ z - t := by nlinarith
  have habs : |(t : ℝ) - z| = z - t := by rw [abs_sub_comm, abs_of_nonneg hz]
  refine ⟨?_, fun heq => htie ?_⟩
  · rw [habs]; nlinarith
  · rw [habs] at heq; rw [← sub_mul, heq]; ring
theorem nearest_up {t P : Nat} {z : ℝ} (hP : 0 < P) (h1 : z * P - t * P ≤ P) (h : P ≤ 2 * (z * P - t * P))
    (htie : 2 * (z * P - t * P) = P → t % 2 = 1) : Nearest (t + 1) z := by
  have hP : (0 : ℝ) < P := by exact_mod_cast hP
  have hz : 0 ≤ (t : ℝ) + 1 - z := by nlinarith
  have habs : |((t + 1 : Nat) : ℝ) - z| = t + 1 - z := by push_cast; exact abs_of_nonneg hz
  refine ⟨?_, fun heq => ?_⟩
  · rw [habs]; nlinarith
  · rw [habs] at heq
    have := htie (by rw [← sub_mul, show z - t = 1 / 2 by linarith]; ring)
    omega

/-- The rounding of a quotient by a power of two, exact or with a sticky bit. -/
theorem roundShift_nearest {m k : Nat} {z : ℝ}
    (h : z * (2 ^ k : Nat) = m ∨ (2 ≤ k ∧ m % 2 = 1 ∧ |z * (2 ^ k : Nat) - m| < 1)) :
    Nearest (roundShift .rne m k).1 z ∧ ((roundShift .rne m k).2 = false ↔ ((roundShift .rne m k).1 : ℝ) = z) := by
  set P := 2 ^ k with hPdef
  have hP : 0 < P := Nat.two_pow_pos k
  have hm : P * (m / P) + m % P = m := Nat.div_add_mod m P
  have hlt : m % P < P := Nat.mod_lt m hP
  set t := m / P with ht
  set r := m % P with hr
  -- what lies above the integer part, and how far it is from the remainder
  set w : ℝ := z * P - t * P with hw
  have hmR : (P : ℝ) * t + r = m := by exact_mod_cast hm
  have hdist : w = r ∨ (r % 2 = 1 ∧ 4 ∣ P ∧ |w - r| < 1) := by
    rcases h with h | ⟨hk, hodd, h⟩
    · left; rw [hw, h]; linarith
    · have h4 : 4 ∣ P := ⟨2 ^ (k - 2), by rw [hPdef, ← Nat.pow_add (m := 2) (n := k - 2) (a := 2)]; congr; omega⟩
      refine .inr ⟨?_, h4, ?_⟩
      · rw [hr, Nat.mod_mod_of_dvd _ ((by decide : 2 ∣ 4).trans h4), hodd]
      · rwa [hw, show z * P - t * P - r = z * P - m by linarith]
  have hz (n : Nat) : (n : ℝ) = z ↔ w = (n * P - t * P : ℝ) := by
    have hP' : (P : ℝ) ≠ 0 := by exact_mod_cast hP.ne'
    rw [hw, sub_left_inj, mul_left_inj' hP', eq_comm]
  have hround : roundShift .rne m k =
      (if 2 * r > P ∨ 2 * r = P ∧ t % 2 = 1 then t + 1 else t, decide (r ≠ 0)) := by
    simp [roundShift, Nat.shiftRight_eq_div_pow, ht, hr, hPdef, bne, Bool.beq_eq_decide_eq]
  rw [hround]
  simp only [decide_eq_false_iff_not, not_not]
  have hrP : (r : ℝ) < P := by exact_mod_cast hlt
  have hr0 : (0 : ℝ) ≤ r := Nat.cast_nonneg r
  by_cases hup : 2 * r > P ∨ 2 * r = P ∧ t % 2 = 1
  · rw [if_pos hup]
    have hzt : ((t + 1 : Nat) : ℝ) = z ↔ w = P := by rw [hz]; push_cast; ring_nf
    rw [hzt]
    rcases hdist with hd | ⟨hodd, h4, hd⟩
    · have hle : (P : ℝ) ≤ 2 * r := by exact_mod_cast (by omega : P ≤ 2 * r)
      refine ⟨nearest_up hP (by linarith) (by linarith) fun h2 => ?_, fun h0 => ?_, fun hwP => ?_⟩
      · have : 2 * r = P := by rw [← hw, hd] at h2; exact_mod_cast h2
        omega
      · omega
      · linarith
    · rw [abs_lt] at hd
      have hle : (P : ℝ) + 2 ≤ 2 * r := by exact_mod_cast (by omega : P + 2 ≤ 2 * r)
      have hr1 : (r : ℝ) + 1 ≤ P := by exact_mod_cast hlt
      exact ⟨nearest_up hP (by linarith) (by linarith) fun h2 => by linarith, fun h0 => by omega, fun hwP => by linarith⟩
  · rw [if_neg hup]
    have hzt : (t : ℝ) = z ↔ w = 0 := by rw [hz, sub_self]
    rw [hzt]
    rcases hdist with hd | ⟨hodd, h4, hd⟩
    · have hle : (2 : ℝ) * r ≤ P := by exact_mod_cast (by omega : 2 * r ≤ P)
      refine ⟨nearest_down hP (by linarith) (by linarith) fun h2 => ?_, fun h0 => ?_, fun h0 => ?_⟩
      · have : 2 * r = P := by rw [← hw, hd] at h2; exact_mod_cast h2
        omega
      · rw [hd, h0, Nat.cast_zero]
      · rw [hd] at h0; exact_mod_cast h0
    · rw [abs_lt] at hd
      have hle : (2 : ℝ) * r + 2 ≤ P := by exact_mod_cast (by omega : 2 * r + 2 ≤ P)
      have hr1 : (1 : ℝ) ≤ r := by exact_mod_cast (by omega : 1 ≤ r)
      exact ⟨nearest_down hP (by linarith) (by linarith) fun h2 => by linarith, fun h0 => by omega, fun hw0 => by linarith⟩

/-- Rounding to a grid: the nearest multiple, and whether it is the value itself. A sticky bit lies two places below the
grid. -/
theorem roundAt_nearest {m : Nat} {e q : Int} {x : ℝ} (h : StandsFor m e x) (hq : x = m * 2 ^ e ∨ e + 2 ≤ q) :
    Nearest (roundAt .rne m e q).1 (x / 2 ^ q) ∧
      ((roundAt .rne m e q).2 = false ↔ ((roundAt .rne m e q).1 : ℝ) = x / 2 ^ q) := by
  unfold roundAt
  split
  · next hle =>
    have hx : x = m * 2 ^ e := hq.resolve_right (by omega)
    have hr : ((m <<< (e - q).toNat : Nat) : ℝ) = x / 2 ^ q := by
      rw [hx, Nat.shiftLeft_eq, Nat.cast_mul, Nat.cast_pow, mul_div_assoc, ← zpow_sub₀ two_ne_zero, ← zpow_natCast,
        Int.toNat_of_nonneg (by omega)]
      rfl
    refine ⟨⟨?_, fun h => ?_⟩, iff_of_true rfl hr⟩
    · rw [hr, sub_self, abs_zero]; norm_num
    · rw [hr, sub_self, abs_zero] at h; norm_num at h
  · next hlt =>
    have hscale : x / 2 ^ q * (2 ^ (q - e).toNat : Nat) = x / 2 ^ e := by
      rw [Nat.cast_pow, ← zpow_natCast, Int.toNat_of_nonneg (by omega), Nat.cast_ofNat, zpow_sub₀ two_ne_zero]
      field_simp
    refine roundShift_nearest ?_
    rw [hscale]
    have hpos : (0 : ℝ) < 2 ^ e := by positivity
    rcases h with h | ⟨-, hodd, h⟩
    · left; rw [h]; field_simp
    · rcases hq with hq | hq
      · left; rw [hq]; field_simp
      · right
        refine ⟨by omega, hodd, ?_⟩
        rwa [div_sub' hpos.ne', abs_div, abs_of_pos hpos, div_lt_one hpos, mul_comm]

end Sys2Proof
end

section
/-! PROOFS. Conversion of binary32 to an integer (O20). -/
namespace Sys2Proof
open Machine

/-- The magnitude of a finite value. -/
def f32Abs (v : BitVec 32) : ℚ := f32Sig v * 2 ^ f32Scale v

theorem f32Value_eq_abs (v : BitVec 32) : f32Value v = signOf (f32Neg v) * f32Abs v := f32Value_eq v
theorem f32Abs_nonneg (v : BitVec 32) : 0 ≤ f32Abs v := by unfold f32Abs; positivity
theorem f32Sig_lt (v : BitVec 32) : f32Sig v < 2 ^ 24 := by
  have := f32Frac_lt v
  unfold f32Sig
  split_ifs <;> omega

theorem cast_f32Abs (v : BitVec 32) : ((f32Abs v : ℚ) : ℝ) = f32Sig v * 2 ^ f32Scale v := by
  unfold f32Abs; push_cast; rfl

/-- The magnitude of a value rounded to an integer (R72). -/
def f32Int (v : BitVec 32) : Nat := (roundAt .rne (f32Sig v) (f32Scale v) 0).1

/-- It is nearest to the magnitude; the magnitude is an integer itself where it does not lie below 2^24. -/
theorem f32Int_spec (v : BitVec 32) : Nearest (f32Int v) (f32Abs v) ∧
    ((roundAt .rne (f32Sig v) (f32Scale v) 0).2 = false ↔ (f32Int v : ℚ) = f32Abs v) ∧
    ((f32Int v : ℚ) = f32Abs v ∨ (f32Abs v < 2 ^ 24 ∧ f32Int v < 2 ^ 25)) := by
  obtain ⟨hnear, hlost⟩ := roundAt_nearest (m := f32Sig v) (e := f32Scale v) (q := 0) (.inl rfl) (.inl rfl)
  rw [zpow_zero, div_one, ← cast_f32Abs] at hnear hlost
  have hlost : (roundAt .rne (f32Sig v) (f32Scale v) 0).2 = false ↔ (f32Int v : ℚ) = f32Abs v := by
    rw [hlost, f32Int]; exact_mod_cast Iff.rfl
  refine ⟨hnear, hlost, ?_⟩
  rcases le_or_gt 0 (f32Scale v) with he | he
  · left
    rw [← hlost, roundAt, if_pos he]
  · right
    have habs : f32Abs v < 2 ^ 24 := by
      calc f32Abs v ≤ f32Sig v * 1 := by
            unfold f32Abs
            gcongr
            exact zpow_le_one_of_nonpos₀ one_le_two he.le
        _ < 2 ^ 24 := by rw [mul_one]; exact_mod_cast f32Sig_lt v
    refine ⟨habs, ?_⟩
    by_contra hge
    have h25 : (((2 ^ 25 : Nat) : ℝ)) - 1 / 2 ≤ f32Abs v := (hnear.le_iff (by decide)).1 (not_lt.1 hge)
    have habs : (f32Abs v : ℝ) < 2 ^ 24 := by exact_mod_cast habs
    norm_num at h25 habs
    linarith

/-- The conversion of a finite value: its rounded magnitude with its sign, saturated. -/
theorem fp32ToI64_fin {v : BitVec 32} (h : f32Finite v) :
    let j := saturate (-2 ^ 63) (2 ^ 63 - 1) (signed (f32Neg v) (f32Int v))
    fp32ToI64 v =
      (wrapI j.1, if j.2 then flNv else flIf (roundAt .rne (f32Sig v) (f32Scale v) 0).2 flNx) := by
  rw [fp32ToI64, fp32Val_fin h]
  rfl

/-- A sign on both sides leaves the distance. -/
theorem abs_signOf_sub (neg : Bool) (a : ℚ) (r : Nat) : |signOf neg * a - (signed neg r : ℚ)| = |(r : ℚ) - a| := by
  cases neg
  · simp [signOf, signed, abs_sub_comm]
  · simp [signOf, signed]; rw [← sub_eq_neg_add]

theorem signOf_eq_iff (neg : Bool) (a : ℚ) (r : Nat) : signOf neg * a = (signed neg r : ℚ) ↔ (r : ℚ) = a := by
  rw [← sub_eq_zero, ← abs_eq_zero, abs_signOf_sub, abs_eq_zero, sub_eq_zero]

/-- A value within the range rounds to an integer within it, so that nothing is saturated. -/
theorem signed_f32Int_within {v : BitVec 32} (hlo : -2 ^ 63 ≤ f32Value v) (hhi : f32Value v < 2 ^ 63) :
    -2 ^ 63 ≤ signed (f32Neg v) (f32Int v) ∧ signed (f32Neg v) (f32Int v) < 2 ^ 63 := by
  obtain ⟨-, -, hint⟩ := f32Int_spec v
  rw [f32Value_eq_abs] at hlo hhi
  unfold signed
  cases hn : f32Neg v with
  | false =>
    simp only [hn, signOf, Bool.false_eq_true, if_false, one_mul] at hhi ⊢
    have hlt : f32Int v < 2 ^ 63 := by
      rcases hint with h | h
      · rw [← h] at hhi; exact_mod_cast hhi
      · omega
    omega
  | true =>
    simp only [hn, signOf, if_true, neg_one_mul, neg_le_neg_iff] at hlo ⊢
    have hle : f32Int v ≤ 2 ^ 63 := by
      rcases hint with h | h
      · rw [← h] at hlo; exact_mod_cast hlo
      · omega
    omega

/-- A value beyond the range is an integer itself. -/
theorem signed_f32Int_beyond {v : BitVec 32} (h : f32Value v < -2 ^ 63 ∨ 2 ^ 63 ≤ f32Value v) :
    (signed (f32Neg v) (f32Int v) : ℚ) = f32Value v := by
  obtain ⟨-, -, hint⟩ := f32Int_spec v
  have hnn := f32Abs_nonneg v
  rw [f32Value_eq_abs] at h ⊢
  refine ((signOf_eq_iff ..).2 (hint.resolve_right fun hlt => ?_)).symm
  cases hn : f32Neg v <;> simp only [hn, signOf, Bool.false_eq_true, if_true, if_false, one_mul, neg_one_mul] at h <;>
    rcases h with h | h <;> linarith

/-- Nearness of a rational number, among the rationals. -/
theorem Nearest.rat {r : Nat} {a : ℚ} (h : Nearest r a) :
    |(r : ℚ) - a| ≤ 1 / 2 ∧ (|(r : ℚ) - a| = 1 / 2 → r % 2 = 0) := by
  have hcast : |(r : ℝ) - a| = ((|(r : ℚ) - a| : ℚ) : ℝ) := by push_cast; rfl
  obtain ⟨hle, htie⟩ := h
  rw [hcast] at hle htie
  have hhalf : ((1 / 2 : ℚ) : ℝ) = 1 / 2 := by norm_num
  rw [← hhalf] at hle htie
  exact ⟨by exact_mod_cast hle, fun heq => htie (by rw [heq])⟩

/-- Settles O20: NaN and the infinities by their cases, a finite value by the integer nearest to its magnitude. -/
theorem floatToInteger : Obligations.FloatToInteger := by
  unfold Obligations.FloatToInteger
  intro d a s x
  have hnv : f32Nan x → ¬ f32Finite x := fun h => not_not_intro h.1
  rcases f32_cases x with h | h | h
  · refine ⟨0, flNv, runSeq_resultF ?_, by norm_num, by norm_num, fun _ => ⟨rfl, rfl⟩, fun hi => absurd h (not_f32Nan_of_inf hi),
      fun hf => absurd hf (hnv h), fun hf => absurd hf (hnv h), fun hf => absurd hf (hnv h)⟩
    show fp32ToI64 x = _
    rw [fp32ToI64, fp32Val_nan h]
    rfl
  · have hinf : ¬ f32Finite x := not_not_intro h.1
    refine ⟨if f32Neg x then -2 ^ 63 else 2 ^ 63 - 1, flNv, runSeq_resultF ?_, ?_, ?_, fun hn => absurd hn (not_f32Nan_of_inf h),
      fun _ => ⟨rfl, rfl⟩, fun hf => absurd hf hinf, fun hf => absurd hf hinf, fun hf => absurd hf hinf⟩
    · show fp32ToI64 x = _
      rw [fp32ToI64, fp32Val_inf h]
      cases f32Neg x <;> rfl
    · split_ifs <;> norm_num
    · split_ifs <;> norm_num
  · have hx := fp32ToI64_fin h
    have hnan : ¬ f32Nan x := not_f32Nan_of_finite h
    have hinf : ¬ f32Inf x := fun hi => h hi.1
    rcases lt_or_ge (f32Value x) (-2 ^ 63) with hlo | hlo
    · have hv : signed (f32Neg x) (f32Int x) < -2 ^ 63 := by
        rw [← signed_f32Int_beyond (.inl hlo)] at hlo; exact_mod_cast hlo
      refine ⟨-2 ^ 63, flNv, runSeq_resultF (hx.trans ?_), by norm_num, by norm_num, fun hn => absurd hn hnan,
        fun hi => absurd hi hinf, fun _ _ => ⟨rfl, rfl⟩, fun _ hhi => by linarith, fun _ hlo' => by linarith⟩
      rw [saturate, if_pos hv]
      rfl
    · rcases lt_or_ge (f32Value x) (2 ^ 63) with hhi | hhi
      · obtain ⟨h1, h2⟩ := signed_f32Int_within hlo hhi
        obtain ⟨hnear, hlost, -⟩ := f32Int_spec x
        obtain ⟨hle, htie⟩ := hnear.rat
        refine ⟨signed (f32Neg x) (f32Int x), flIf (roundAt .rne (f32Sig x) (f32Scale x) 0).2 flNx,
          runSeq_resultF (hx.trans ?_), h1, h2, fun hn => absurd hn hnan, fun hi => absurd hi hinf,
          fun _ hlo' => by linarith, fun _ hhi' => by linarith, fun _ _ _ => ?_⟩
        · rw [saturate, if_neg (by omega), if_neg (by omega)]
          rfl
        · rw [f32Value_eq_abs, abs_signOf_sub, Ne, signOf_eq_iff, ← hlost]
          refine ⟨by linarith, fun heq => ?_, ?_⟩
          · have heven := htie (by linarith)
            unfold signed
            split_ifs <;> omega
          · cases (roundAt .rne (f32Sig x) (f32Scale x) 0).2 <;> simp [flIf]
      · have hv : 2 ^ 63 ≤ signed (f32Neg x) (f32Int x) := by
          rw [← signed_f32Int_beyond (.inr hhi)] at hhi; exact_mod_cast hhi
        refine ⟨2 ^ 63 - 1, flNv, runSeq_resultF (hx.trans ?_), by norm_num, by norm_num, fun hn => absurd hn hnan,
          fun hi => absurd hi hinf, fun _ hlo' => by linarith, fun _ _ => ⟨rfl, rfl⟩, fun _ _ hhi' => by linarith⟩
        rw [saturate, if_neg (by omega), if_pos (by omega)]
        rfl

end Sys2Proof
end

section
/-!
PROOFS. Rounding into binary32 (O17, O18, R70, R71): the encoding that `fp32Round` packs, and that it is the exact value
rounded to nearest even with its flags.
-/
namespace Sys2Proof
open Machine

/-! ## The encoding of a multiple -/

/-- A sign as a real factor. -/
def signR (neg : Bool) : ℝ := if neg then -1 else 1

theorem cast_f32Value (v : BitVec 32) : (f32Value v : ℝ) = signR (f32Neg v) * (f32Sig v * 2 ^ f32Scale v) := by
  rw [f32Value_eq]
  unfold signOf signR
  push_cast
  split_ifs <;> norm_num

/-- A multiple of a power of two that binary32 has an encoding for: the power is at least the least one, a multiple that a
lesser power could give stands on the least one, and the value is below 2^128. -/
structure Fits (r : Nat) (q : Int) : Prop where
  least : -149 ≤ q
  normal : q ≠ -149 → 2 ^ 23 ≤ r
  le : r ≤ 2 ^ 24
  most : q ≤ 104
  finite : q = 104 → r < 2 ^ 24

/-- An encoding with given fields. -/
theorem fields_of {s : Bool} {e f : Nat} (he : e < 256) (hf : f < 2 ^ 23) :
    let v := BitVec.ofNat 32 (fp32.signed s (e * 2 ^ 23 + f))
    f32Neg v = s ∧ f32Exp v = e ∧ f32Frac v = f ∧ v.getLsbD 0 = (f % 2 == 1) := by
  intro v
  have hv : v.toNat = s.toNat * 2 ^ 31 + e * 2 ^ 23 + f := by
    have hsig : fp32.signed s (e * 2 ^ 23 + f) = s.toNat * 2 ^ 31 + e * 2 ^ 23 + f := by
      cases s
      · simp [FFmt.signed]
      · simp only [FFmt.signed, if_true, fp32_eb, fp32_fb, Bool.toNat_true]; omega
    rw [BitVec.toNat_ofNat, hsig, Nat.mod_eq_of_lt]
    have := s.toNat_le
    omega
  have hs := s.toNat_le
  refine ⟨?_, ?_, ?_, ?_⟩
  · rw [f32Neg_eq, hv, show (s.toNat * 2 ^ 31 + e * 2 ^ 23 + f) / 2 ^ 31 % 2 = s.toNat by omega]
    cases s <;> rfl
  · rw [f32Exp_eq, hv]; omega
  · rw [f32Frac_eq, hv]; omega
  · rw [BitVec.getLsbD, Nat.testBit_zero, hv, Bool.beq_eq_decide_eq]
    congr 1
    rw [eq_iff_iff]
    omega

/-- The fields of the encoding that `pack` gives a multiple, and what they say. -/
theorem pack_fields {r : Nat} {q : Int} (h : Fits r q) : ∃ e f, e < 255 ∧ f < 2 ^ 23 ∧ fp32.pack r q = e * 2 ^ 23 + f ∧
    f % 2 = r % 2 ∧ ((if e = 0 then f else 2 ^ 23 + f : Nat) : ℝ) * 2 ^ (if e = 0 then -149 else (e : Int) - 150) = r * 2 ^ q := by
  obtain ⟨hleast, hnorm, hle, hmost, hfin⟩ := h
  by_cases hsub : r < 2 ^ 23
  · have hq : q = -149 := by_contra fun hq => absurd (hnorm hq) (by omega)
    exact ⟨0, r, by omega, hsub, by rw [FFmt.pack, fp32_fb, if_pos hsub, Nat.zero_mul, Nat.zero_add], rfl, by simp [hq]⟩
  by_cases htop : r = 2 ^ 24
  · refine ⟨(q + 151).toNat, 0, by omega, by omega, ?_, by omega, ?_⟩
    · rw [FFmt.pack, fp32_fb, fp32_qmin, if_neg hsub, if_pos htop, Nat.shiftLeft_eq]
      congr 2
      omega
    · have hexp : (((q + 151).toNat : Nat) : Int) - 150 = q + 1 := by omega
      rw [if_neg (by omega), if_neg (by omega), hexp, htop, zpow_add_one₀ two_ne_zero]
      push_cast
      ring
  · refine ⟨(q + 150).toNat, r - 2 ^ 23, by omega, by omega, ?_, by omega, ?_⟩
    · rw [FFmt.pack, fp32_fb, fp32_qmin, if_neg hsub, if_neg htop, Nat.shiftLeft_eq]
      congr 2
      omega
    · have hexp : (((q + 150).toNat : Nat) : Int) - 150 = q := by omega
      rw [if_neg (by omega), if_neg (by omega), hexp, Nat.add_sub_cancel' (by omega)]

/-- The encoding that `pack` gives a multiple: its value, its sign and its last bit. -/
theorem pack_value {r : Nat} {q : Int} (h : Fits r q) (s : Bool) :
    let v := BitVec.ofNat 32 (fp32.signed s (fp32.pack r q))
    f32Finite v ∧ f32Neg v = s ∧ (f32Value v : ℝ) = signR s * (r * 2 ^ q) ∧ v.getLsbD 0 = (r % 2 == 1) := by
  obtain ⟨e, f, he, hf, hpack, hmod, hval⟩ := pack_fields h
  intro v
  obtain ⟨hneg, hexp, hfrac, hbit⟩ := fields_of (s := s) (by omega : e < 256) hf
  rw [← hpack] at hneg hexp hfrac hbit
  refine ⟨hexp.trans_ne (by omega), hneg, ?_, by rw [← hmod]; exact hbit⟩
  rw [cast_f32Value, f32Sig, f32Scale, hneg, hexp, hfrac, hval]

/-! ## The grid of a value -/

theorem two_zpow_le {a b : Int} (h : a ≤ b) : (2 : ℝ) ^ a ≤ 2 ^ b := zpow_le_zpow_right₀ one_le_two h

/-- A significand stands for a value between the powers of two that hold it. -/
theorem StandsFor.bounds {m : Nat} {e : Int} {x : ℝ} (h : StandsFor m e x) (hm : m ≠ 0) :
    (2 : ℝ) ^ (e + Nat.log2 m) ≤ x ∧ x < 2 ^ (e + Nat.log2 m + 1) := by
  have hlo : 2 ^ Nat.log2 m ≤ m := Nat.log2_self_le hm
  have hhi : m < 2 ^ (Nat.log2 m + 1) := Nat.lt_log2_self
  have he : (0 : ℝ) < 2 ^ e := by positivity
  rw [zpow_add₀ two_ne_zero (e + _) 1, zpow_add₀ two_ne_zero, zpow_natCast, zpow_one]
  have hloR : (2 : ℝ) ^ Nat.log2 m ≤ m := by exact_mod_cast hlo
  have hhiR : (m : ℝ) + 1 ≤ 2 ^ Nat.log2 m * 2 := by rw [← pow_succ]; exact_mod_cast hhi
  rcases h with rfl | ⟨hbig, hodd, habs⟩
  · exact ⟨by nlinarith, by nlinarith⟩
  · have hne : 2 ^ Nat.log2 m ≠ m := by
      intro heq
      have hl : Nat.log2 m ≠ 0 := fun h0 => by rw [h0] at heq; omega
      obtain ⟨k, hk⟩ := Nat.exists_eq_succ_of_ne_zero hl
      rw [hk, Nat.pow_succ] at heq
      omega
    have hloR : (2 : ℝ) ^ Nat.log2 m + 1 ≤ m := by exact_mod_cast lt_of_le_of_ne hlo hne
    rw [abs_lt] at habs
    exact ⟨by nlinarith, by nlinarith⟩

/-- The comparison of two magnitudes is theirs. -/
theorem magLt_iff (m : Nat) (e : Int) (n : Nat) (g : Int) : magLt m e n g = true ↔ (m * 2 ^ e : ℝ) < n * 2 ^ g := by
  have key (a b : Nat) {p q : Int} (h : p ≤ q) : (b * 2 ^ q : ℝ) = ((b <<< (q - p).toNat : Nat) : ℝ) * 2 ^ p := by
    rw [Nat.shiftLeft_eq, Nat.cast_mul, Nat.cast_pow, Nat.cast_ofNat, ← zpow_natCast, Int.toNat_of_nonneg (by omega), mul_assoc,
      ← zpow_add₀ two_ne_zero, sub_add_cancel]
  unfold magLt
  split
  · next h =>
    rw [key m n h, mul_lt_mul_iff_left₀ (by positivity), Nat.cast_lt, decide_eq_true_iff]
  · next h =>
    rw [key n m (by omega : g ≤ e), mul_lt_mul_iff_left₀ (by positivity), Nat.cast_lt, decide_eq_true_iff]

/-- A multiple of a grid nearest to a value below 2^24 spacings, the value not below 2^23 of them unless the grid is the
least one. -/
structure OnGrid (r : Nat) (q : Int) (x : ℝ) : Prop where
  least : -149 ≤ q
  nearest : Nearest r (x / 2 ^ q)
  lo : q = -149 ∨ 2 ^ 23 ≤ x / 2 ^ q
  hi : x / 2 ^ q < 2 ^ 24

/-- The multiple nearest to a number lies between the integers that hold it. -/
theorem Nearest.le_of_le {r n : Nat} {z : ℝ} (h : Nearest r z) (hz : n ≤ z) : n ≤ r := by
  obtain ⟨hle, -⟩ := h
  obtain ⟨hle1, hle2⟩ := abs_sub_le_iff.1 hle
  by_contra hlt
  have : (r : ℝ) + 1 ≤ n := by exact_mod_cast not_le.1 hlt
  linarith
theorem Nearest.le_of_ge {r n : Nat} {z : ℝ} (h : Nearest r z) (hz : z ≤ n) : r ≤ n := by
  obtain ⟨hle, -⟩ := h
  obtain ⟨hle1, hle2⟩ := abs_sub_le_iff.1 hle
  by_contra hlt
  have : (n : ℝ) + 1 ≤ r := by exact_mod_cast not_le.1 hlt
  linarith

/-- The bound from which a value is rounded to an infinity (R70). -/
noncomputable def f32Bound : ℝ := (2 - 2 ^ (-24 : ℤ)) * 2 ^ 127

section
variable {r : Nat} {q : Int} {x : ℝ} (h : OnGrid r q x)
include h

theorem OnGrid.le : r ≤ 2 ^ 24 := h.nearest.le_of_ge (by have := h.hi; push_cast; linarith)
theorem OnGrid.ge (hq : q ≠ -149) : 2 ^ 23 ≤ r := h.nearest.le_of_le (by have := h.lo.resolve_left hq; push_cast; linarith)

/-- The result is beyond the largest finite encoding just where the value reaches the bound. -/
theorem OnGrid.overflow_iff : magLt (2 ^ 24 - 1) 104 r q = true ↔ f32Bound ≤ x := by
  have hr := h.le
  have hpos : (0 : ℝ) < 2 ^ q := by positivity
  have hbound : f32Bound = (2 ^ 24 - 1 / 2) * 2 ^ (104 : ℤ) := by unfold f32Bound; norm_num
  have hhi : x < 2 ^ 24 * 2 ^ q := (div_lt_iff₀ hpos).1 h.hi
  rw [magLt_iff, hbound]
  rcases lt_trichotomy q 104 with hq | rfl | hq
  · have h103 : (2 : ℝ) ^ q ≤ 2 ^ (103 : ℤ) := two_zpow_le (by omega)
    have hrR : (r : ℝ) ≤ 2 ^ 24 := by exact_mod_cast hr
    refine iff_of_false (not_lt.2 ?_) (not_le.2 ?_)
    · calc (r : ℝ) * 2 ^ q ≤ 2 ^ 24 * 2 ^ (103 : ℤ) := by gcongr
        _ ≤ _ := by norm_num
    · calc x < 2 ^ 24 * 2 ^ q := hhi
        _ ≤ 2 ^ 24 * 2 ^ (103 : ℤ) := by gcongr
        _ ≤ _ := by norm_num
  · rw [mul_lt_mul_iff_left₀ hpos, ← le_div_iff₀ hpos, Nat.cast_lt]
    have hiff := h.nearest.le_iff (n := 2 ^ 24) (by decide)
    rw [Nat.cast_pow, Nat.cast_ofNat] at hiff
    rw [← hiff]
    omega
  · have h105 : (2 : ℝ) ^ (105 : ℤ) ≤ 2 ^ q := two_zpow_le (by omega)
    have hge : 2 ^ 23 * 2 ^ q ≤ x := (le_div_iff₀ hpos).1 (h.lo.resolve_left (by omega))
    have hrR : (2 : ℝ) ^ 23 ≤ r := by exact_mod_cast h.ge (by omega)
    refine iff_of_true ?_ ?_
    · calc _ < (2 : ℝ) ^ 23 * 2 ^ (105 : ℤ) := by norm_num
        _ ≤ r * 2 ^ q := by gcongr
    · calc _ ≤ (2 : ℝ) ^ 23 * 2 ^ (105 : ℤ) := by norm_num
        _ ≤ 2 ^ 23 * 2 ^ q := by gcongr
        _ ≤ x := hge

/-- Below the bound binary32 has an encoding for the multiple. -/
theorem OnGrid.fits (hx : x < f32Bound) : Fits r q := by
  have hover : ¬ ((2 ^ 24 - 1 : Nat) : ℝ) * 2 ^ (104 : ℤ) < r * 2 ^ q := by
    rw [← magLt_iff, h.overflow_iff]
    exact not_le.2 hx
  have hsmall {p : Int} (hp : p ≤ q) : (r : ℝ) * 2 ^ p ≤ (2 ^ 24 - 1 : Nat) * 2 ^ (104 : ℤ) := by
    refine le_trans ?_ (not_lt.1 hover)
    gcongr
    exact one_le_two
  refine ⟨h.least, h.ge, h.le, ?_, fun hq => ?_⟩
  · by_contra hq
    have hrR : (2 : ℝ) ^ 23 ≤ r := by exact_mod_cast h.ge (by omega)
    have h105 := hsmall (p := 105) (by omega)
    norm_num at h105
    linarith
  · have h104 := hsmall (p := 104) hq.ge
    rw [mul_le_mul_iff_left₀ (by positivity), Nat.cast_le] at h104
    omega

/-- No finite value is nearer, and one equally near leaves the multiple even. -/
theorem OnGrid.abs_le (s : Bool) (n : Nat) (g : Int) (hn : n < 2 ^ 24) (hg : -149 ≤ g) :
    let y := signR s * (n * 2 ^ g)
    |r * 2 ^ q - x| ≤ |y - x| ∧ (|r * 2 ^ q - x| = |y - x| → y ≠ r * 2 ^ q → r % 2 = 0) := by
  intro y
  have hpos : (0 : ℝ) < 2 ^ q := by positivity
  have hscale (k : ℝ) : |k * 2 ^ q - x| = |k - x / 2 ^ q| * 2 ^ q := by
    rw [← abs_of_pos hpos, ← abs_mul, sub_mul, abs_of_pos hpos, div_mul_cancel₀ _ hpos.ne']
  rcases le_or_gt q g with hqg | hqg
  · obtain ⟨k, hk⟩ : ∃ k : ℤ, y = k * 2 ^ q := by
      refine ⟨signed s (n * 2 ^ (g - q).toNat), ?_⟩
      have hpow : (2 : ℝ) ^ g = 2 ^ (g - q).toNat * 2 ^ q := by
        rw [← zpow_natCast, Int.toNat_of_nonneg (by omega), ← zpow_add₀ two_ne_zero, sub_add_cancel]
      show signR s * (n * 2 ^ g) = _
      rw [hpow]
      cases s <;> (simp [signR, signed]; ring)
    obtain ⟨hle, htie⟩ := h.nearest.abs_le k
    rw [hk, hscale, hscale]
    refine ⟨by gcongr, fun heq hne => htie (mul_right_cancel₀ hpos.ne' heq) fun hk => hne (by rw [hk])⟩
  · have hge : 2 ^ 23 * 2 ^ q ≤ x := (le_div_iff₀ hpos).1 (h.lo.resolve_left (by omega))
    have hy : y < 2 ^ 23 * 2 ^ q := by
      have hnR : (n : ℝ) < 2 ^ 24 := by exact_mod_cast hn
      have hgq : (2 : ℝ) ^ g ≤ 2 ^ (q - 1) := two_zpow_le (by omega)
      calc y ≤ n * 2 ^ g := by
            have hnn : (0 : ℝ) ≤ n * 2 ^ g := by positivity
            cases s
            · exact (one_mul _).le
            · exact (neg_one_mul _).trans_le (by linarith)
        _ ≤ n * 2 ^ (q - 1) := by gcongr
        _ < 2 ^ 24 * 2 ^ (q - 1) := by gcongr
        _ = 2 ^ 23 * 2 ^ q := by rw [zpow_sub_one₀ two_ne_zero]; ring
    have hle := (h.nearest.abs_le (2 ^ 23)).1
    have hlt : |r * 2 ^ q - x| < |y - x| := by
      calc |r * 2 ^ q - x| ≤ |2 ^ 23 * 2 ^ q - x| := by
            rw [hscale, hscale]
            exact mul_le_mul_of_nonneg_right (by exact_mod_cast hle) hpos.le
        _ < |y - x| := by rw [abs_of_nonpos (by linarith), abs_of_neg (by linarith)]; linarith
    exact ⟨hlt.le, fun heq => absurd heq hlt.ne⟩
end

/-! ## The rounding of a value -/

/-- The grid that `fp32Round` rounds a magnitude on, and the one it would take were there no least one. -/
def freeGrid (m : Nat) (e : Int) : Int := e + (Nat.log2 m + 1 : Nat) - 24

/-- The steps of `fp32Round` on a magnitude that is not 0. -/
theorem fp32Round_fin (s : Bool) {m : Nat} (e : Int) (hm : m ≠ 0) :
    let q := max (freeGrid m e) (-149)
    let a := roundAt .rne m e q
    let tiny := magLt (roundAt .rne m e (freeGrid m e)).1 (freeGrid m e) (2 ^ 23) (-149)
    fp32Round (.fin s m e) = if magLt (2 ^ 24 - 1) 104 a.1 q then (f32InfOf s, flOf ||| flNx)
      else (BitVec.ofNat 32 (fp32.signed s (fp32.pack a.1 q)), flIf a.2 flNx ||| flIf (a.2 && tiny) flUf) := by
  intro q a tiny
  have hfree : e + (Nat.log2 m + 1 : Nat) - (23 + 1 : Nat) = freeGrid m e := rfl
  have hbig : ((255 : Nat) : Int) - 1 - (127 : Nat) - (23 : Nat) = 104 := by norm_num
  simp only [fp32Round, FFmt.round, if_neg hm, fp32_fb, fp32_e4m3, fp32_qmin, fp32_emax, fp32_bias, Bool.false_eq_true, if_false,
    hfree, hbig]
  by_cases hover : magLt (2 ^ 24 - 1) 104 a.1 q = true
  · rw [if_pos hover, if_pos hover]
    cases s <;> rfl
  · rw [if_neg hover, if_neg hover]

section
variable {m : Nat} {e : Int} {x : ℝ} (hm : m ≠ 0) (h : StandsFor m e x)
include hm h

theorem standsFor_pos : 0 < x := lt_of_lt_of_le (by positivity) (h.bounds hm).1

theorem div_freeGrid : 2 ^ 23 ≤ x / 2 ^ freeGrid m e ∧ x / 2 ^ freeGrid m e < 2 ^ 24 := by
  obtain ⟨hlo, hhi⟩ := h.bounds hm
  have hpos : (0 : ℝ) < 2 ^ freeGrid m e := by positivity
  rw [le_div_iff₀ hpos, div_lt_iff₀ hpos, ← zpow_natCast, ← zpow_natCast, ← zpow_add₀ two_ne_zero, ← zpow_add₀ two_ne_zero,
    freeGrid]
  push_cast
  ring_nf at hlo hhi ⊢
  exact ⟨hlo, hhi⟩

/-- A sticky bit lies two places below either grid. -/
theorem sticky_below {q : Int} (hq : freeGrid m e ≤ q) : x = m * 2 ^ e ∨ e + 2 ≤ q := by
  rcases h with h | ⟨hbig, -, -⟩
  · exact .inl h
  · right
    have : 25 ≤ Nat.log2 m := (Nat.le_log2 hm).2 hbig
    unfold freeGrid at hq
    omega

theorem onGrid : OnGrid (roundAt .rne m e (max (freeGrid m e) (-149))).1 (max (freeGrid m e) (-149)) x := by
  obtain ⟨hlo, hhi⟩ := div_freeGrid hm h
  refine ⟨le_max_right .., (roundAt_nearest h (sticky_below hm h (le_max_left ..))).1, ?_, lt_of_le_of_lt ?_ hhi⟩
  · rcases max_cases (freeGrid m e) (-149) with ⟨hq, -⟩ | ⟨hq, -⟩
    · rw [hq]; exact .inr hlo
    · exact .inl hq
  · gcongr
    · exact (standsFor_pos hm h).le
    · exact one_le_two
    · exact le_max_left ..

/-- The value rounded to 24 bits lies below 2^−126 (R70). -/
theorem tiny_iff : magLt (roundAt .rne m e (freeGrid m e)).1 (freeGrid m e) (2 ^ 23) (-149) = true ↔
    x < 2 ^ (-126 : ℤ) - 2 ^ (-151 : ℤ) := by
  obtain ⟨hlo, hhi⟩ := div_freeGrid hm h
  have hnear := (roundAt_nearest h (sticky_below hm h le_rfl)).1
  generalize (roundAt .rne m e (freeGrid m e)).1 = r at hnear ⊢
  generalize freeGrid m e = q at hnear hlo hhi ⊢
  have hpos : (0 : ℝ) < 2 ^ q := by positivity
  have hge : 2 ^ 23 * 2 ^ q ≤ x := (le_div_iff₀ hpos).1 hlo
  have hlt : x < 2 ^ 24 * 2 ^ q := (div_lt_iff₀ hpos).1 hhi
  have hr0 : (2 : ℝ) ^ 23 ≤ r := by exact_mod_cast hnear.le_of_le (n := 2 ^ 23) (by exact_mod_cast hlo)
  have hr1 : (r : ℝ) ≤ 2 ^ 24 := by exact_mod_cast hnear.le_of_ge (n := 2 ^ 24) (by exact_mod_cast hhi.le)
  have hbound : (2 : ℝ) ^ (-126 : ℤ) - 2 ^ (-151 : ℤ) = (2 ^ 24 - 1 / 2) * 2 ^ (-150 : ℤ) := by norm_num
  rw [magLt_iff, hbound, Nat.cast_pow, Nat.cast_ofNat]
  rcases lt_trichotomy q (-150) with hq | rfl | hq
  · have hle : (2 : ℝ) ^ q ≤ 2 ^ (-151 : ℤ) := two_zpow_le (by omega)
    refine iff_of_true ?_ ?_
    · calc (r : ℝ) * 2 ^ q ≤ 2 ^ 24 * 2 ^ (-151 : ℤ) := by gcongr
        _ < _ := by norm_num
    · calc x < 2 ^ 24 * 2 ^ q := hlt
        _ ≤ 2 ^ 24 * 2 ^ (-151 : ℤ) := by gcongr
        _ ≤ _ := by norm_num
  · have hiff := hnear.le_iff (n := 2 ^ 24) (by decide)
    rw [Nat.cast_pow, Nat.cast_ofNat, le_div_iff₀ hpos] at hiff
    have hpow : (2 : ℝ) ^ 23 * 2 ^ (-149 : ℤ) = 2 ^ 24 * 2 ^ (-150 : ℤ) := by norm_num
    rw [hpow, mul_lt_mul_iff_left₀ hpos, ← not_le, ← not_le, ← hiff, not_iff_not]
    exact_mod_cast Iff.rfl
  · have hle : (2 : ℝ) ^ (-149 : ℤ) ≤ 2 ^ q := two_zpow_le (by omega)
    refine iff_of_false (not_lt.2 ?_) (not_lt.2 ?_)
    · gcongr
    · calc _ ≤ (2 : ℝ) ^ 23 * 2 ^ (-149 : ℤ) := by norm_num
        _ ≤ 2 ^ 23 * 2 ^ q := by gcongr
        _ ≤ x := hge

/-- `fp32Round` rounds to nearest even, with the flags of the rounding. -/
theorem fp32Round_rounds (s : Bool) : RoundsTo (signR s * x) (fp32Round (.fin s m e)).1 (fp32Round (.fin s m e)).2 := by
  have hx := standsFor_pos hm h
  have habs : |signR s * x| = x := by cases s <;> simp [signR, abs_of_pos hx]
  have hneg : signR s * x < 0 ↔ s = true := by cases s <;> simp [signR, hx, hx.le]
  have hgrid := onGrid hm h
  have hlost := (roundAt_nearest h (sticky_below hm h (le_max_left _ (-149)))).2
  have htiny := tiny_iff hm h
  rw [fp32Round_fin s e hm, RoundsTo, habs, hneg]
  generalize max (freeGrid m e) (-149) = q at hgrid hlost ⊢
  generalize roundAt .rne m e q = a at hgrid hlost ⊢
  generalize magLt (roundAt .rne m e (freeGrid m e)).1 (freeGrid m e) (2 ^ 23) (-149) = tiny at htiny ⊢
  have hpos : (0 : ℝ) < 2 ^ q := by positivity
  by_cases hover : f32Bound ≤ x
  · rw [if_pos (hgrid.overflow_iff.2 hover)]
    refine ⟨fun _ => ?_, fun hlt => absurd hlt (not_lt.2 hover), fun _ => ⟨?_, rfl⟩⟩
    · cases s <;> decide
    · cases s <;> (unfold f32Inf; decide)
  · rw [if_neg (hgrid.overflow_iff.not.2 hover)]
    obtain ⟨hfin, hsign, hval, hbit⟩ := pack_value (hgrid.fits (not_le.1 hover)) s
    have hdist (y : ℝ) : |y - signR s * x| = |signR s * y - x| := by
      cases s
      · simp [signR]
      · rw [← abs_neg]; simp [signR]; ring_nf
    have hexact : (f32Value (BitVec.ofNat 32 (fp32.signed s (fp32.pack a.1 q))) : ℝ) = signR s * x ↔ a.2 = false := by
      rw [hval, hlost, eq_div_iff hpos.ne']
      cases s <;> simp [signR]
    refine ⟨fun _ => by rw [hsign], fun _ => ⟨hfin, fun z hz => ?_, fun heq => ?_, fun hne hlt => ?_, fun hne hge => ?_⟩,
      fun hge => absurd hge hover⟩
    · obtain ⟨hle, htie⟩ := hgrid.abs_le (f32Neg z != s) (f32Sig z) (f32Scale z) (f32Sig_lt z) (f32Scale_ge z)
      have hy : (f32Value z : ℝ) = signR s * (signR (f32Neg z != s) * (f32Sig z * 2 ^ f32Scale z)) := by
        rw [cast_f32Value]
        cases s <;> cases f32Neg z <;> simp [signR]
      have hself (y : ℝ) : signR s * (signR s * y) = y := by cases s <;> simp [signR]
      rw [hdist, hdist, hval, hy, hself, hself]
      refine ⟨hle, fun heq hne => ?_⟩
      have heven := htie heq fun hsame => hne (Rat.cast_injective (α := ℝ) (by rw [hy, hval, hsame]))
      rw [hbit, heven]
      rfl
    · simp [hexact.1 heq, flIf]
    · rw [htiny.2 hlt, eq_true_of_ne_false (hexact.not.1 hne)]; rfl
    · rw [eq_false_of_ne_true (htiny.not.2 (not_lt.2 hge)), eq_true_of_ne_false (hexact.not.1 hne)]; rfl
end

end Sys2Proof
end

section
/-!
PROOFS. The arithmetic of binary32 (O17, O18): the value that each operation hands to the rounding, and its special results.
-/
namespace Sys2Proof
open Machine

/-! ## Exact values -/

/-- A value is a number: a significand, scaled, with its sign. -/
def Denotes (v : Val) (x : ℝ) : Prop := ∃ s m e, v = .fin s m e ∧ x = signR s * (m * 2 ^ e)

theorem signR_ne_zero (s : Bool) : signR s ≠ 0 := by cases s <;> norm_num [signR]
theorem signR_xor (s t : Bool) : signR (s != t) = signR s * signR t := by cases s <;> cases t <;> norm_num [signR]
theorem signR_not (s : Bool) : signR (!s) = -signR s := by cases s <;> norm_num [signR]

theorem fp32Round_zero (s : Bool) (e : Int) : fp32Round (.fin s 0 e) = (f32ZeroOf s, 0) := by cases s <;> rfl
theorem fp32Round_inf (s : Bool) : fp32Round (.inf s) = (f32InfOf s, 0) := by cases s <;> rfl

theorem roundsTo_zero (s : Bool) : RoundsTo 0 (f32ZeroOf s) 0 := by
  have hval : f32Value (f32ZeroOf s) = 0 := by cases s <;> simp [f32Value, f32ZeroOf, f32Exp, f32Frac]
  refine ⟨fun h => absurd rfl h, fun _ => ⟨?_, fun z _ => ?_, fun _ => rfl, fun h => ?_, fun h => ?_⟩, fun h => ?_⟩
  · cases s <;> (unfold f32Finite; decide)
  · rw [hval, Rat.cast_zero, sub_zero, abs_zero]
    exact ⟨abs_nonneg _, fun _ _ => by cases s <;> rfl⟩
  · exact absurd (by rw [hval, Rat.cast_zero]) h
  · exact absurd (by rw [hval, Rat.cast_zero]) h
  · norm_num at h

/-- What stands for a value is rounded to it. -/
theorem roundsTo_of_standsFor {m : Nat} {e : Int} {x : ℝ} (h : StandsFor m e x) (s : Bool) :
    RoundsTo (signR s * x) (fp32Round (.fin s m e)).1 (fp32Round (.fin s m e)).2 := by
  rcases Nat.eq_zero_or_pos m with rfl | hm
  · have h0 : x = 0 := by simpa [StandsFor] using h
    rw [fp32Round_zero, h0, mul_zero]
    exact roundsTo_zero s
  · exact fp32Round_rounds hm.ne' h s

theorem Denotes.roundsTo {v : Val} {x : ℝ} (h : Denotes v x) : RoundsTo x (fp32Round v).1 (fp32Round v).2 := by
  obtain ⟨s, m, e, rfl, rfl⟩ := h
  exact roundsTo_of_standsFor (.inl rfl) s

theorem denotes_fp32Val {v : BitVec 32} (h : f32Finite v) : Denotes (fp32Val v) (f32Value v) :=
  ⟨f32Neg v, f32Sig v, f32Scale v, fp32Val_fin h, cast_f32Value v⟩

theorem denotes_valOfInt (i : Int) : Denotes (valOfInt i) i := by
  refine ⟨decide (i < 0), i.natAbs, 0, rfl, ?_⟩
  rw [zpow_zero, mul_one, Nat.cast_natAbs, Int.cast_abs]
  rcases lt_or_ge i 0 with hi | hi
  · have hR : (i : ℝ) < 0 := by exact_mod_cast hi
    simp [signR, hi, abs_of_neg hR]
  · have hR : (0 : ℝ) ≤ i := by exact_mod_cast hi
    simp [signR, not_lt.2 hi, abs_of_nonneg hR]

/-- A signed multiple on a finer grid is the same number. -/
theorem cast_scaled (s : Bool) (m : Nat) {e q : Int} (hq : q ≤ e) :
    (scaled s m e q : ℝ) * 2 ^ q = signR s * (m * 2 ^ e) := by
  have hpow : (2 : ℝ) ^ e = 2 ^ (e - q).toNat * 2 ^ q := by
    rw [← zpow_natCast, Int.toNat_of_nonneg (by omega), ← zpow_add₀ two_ne_zero, sub_add_cancel]
  rw [hpow, scaled, Nat.shiftLeft_eq]
  cases s <;> (simp [signR]; ring)

theorem Denotes.add {v w : Val} {x y : ℝ} (hv : Denotes v x) (hw : Denotes w y) : Denotes (v.add w) (x + y) := by
  obtain ⟨s, m, e, rfl, rfl⟩ := hv
  obtain ⟨t, n, g, rfl, rfl⟩ := hw
  by_cases hm : m = 0
  · by_cases hn : n = 0
    · exact ⟨s && t, 0, e, by simp [Val.add, hm, hn], by simp [hm, hn]⟩
    · exact ⟨t, n, g, by simp [Val.add, hm, hn], by simp [hm]⟩
  · by_cases hn : n = 0
    · exact ⟨s, m, e, by simp [Val.add, hm, hn], by simp [hn]⟩
    · obtain ⟨S, M, E, hval, heq⟩ := denotes_valOfInt (scaled s m e (min e g) + scaled t n g (min e g))
      cases hval
      refine ⟨_, _, min e g, by simp only [Val.add, hm, hn]; rfl, ?_⟩
      rw [← cast_scaled s m (min_le_left e g), ← cast_scaled t n (min_le_right e g), ← add_mul]
      rw [zpow_zero, mul_one] at heq
      rw [← mul_assoc, ← heq, Int.cast_add]

theorem Denotes.mul {v w : Val} {x y : ℝ} (hv : Denotes v x) (hw : Denotes w y) : Denotes (v.mul w) (x * y) := by
  obtain ⟨s, m, e, rfl, rfl⟩ := hv
  obtain ⟨t, n, g, rfl, rfl⟩ := hw
  refine ⟨s != t, m * n, e + g, rfl, ?_⟩
  rw [signR_xor, zpow_add₀ two_ne_zero, Nat.cast_mul]
  ring

/-! ## Quotients and square roots -/

/-- A finite quotient with its sticky bit stands for the quotient. -/
theorem divSticky_standsFor {m n : Nat} (e g : Int) (hn : n ≠ 0) (s : Bool) :
    ∃ M E, divSticky s m e n g 26 = .fin s M E ∧ StandsFor M E (m * 2 ^ e / (n * 2 ^ g)) := by
  refine ⟨_, _, rfl, ?_⟩
  set k := 26 + Nat.log2 n + 2 with hk
  have hnpos : 0 < n := Nat.pos_of_ne_zero hn
  have hnR : (0 : ℝ) < n := by exact_mod_cast hnpos
  have hdiv : n * ((m <<< k) / n) + (m <<< k) % n = m <<< k := Nat.div_add_mod ..
  have hlt : (m <<< k) % n < n := Nat.mod_lt _ hnpos
  have hbig (hm : m ≠ 0) : 2 ^ 27 ≤ (m <<< k) / n := by
    rw [Nat.le_div_iff_mul_le hnpos, Nat.shiftLeft_eq, hk]
    have hlog : n < 2 ^ (Nat.log2 n + 1) := Nat.lt_log2_self
    calc 2 ^ 27 * n ≤ 1 * (2 ^ 27 * 2 ^ (Nat.log2 n + 1)) := by omega
      _ ≤ m * 2 ^ (26 + Nat.log2 n + 2) := by
        refine Nat.mul_le_mul (by omega) (le_of_eq ?_)
        rw [← Nat.pow_add]
        congr 1
        omega
  generalize (m <<< k) / n = Q at hdiv hbig ⊢
  generalize (m <<< k) % n = R at hdiv hlt ⊢
  have hdivR : (n : ℝ) * Q + R = m * 2 ^ k := by rw [Nat.shiftLeft_eq] at hdiv; exact_mod_cast hdiv
  have hpos : (0 : ℝ) < 2 ^ (e - g - k - 1) := by positivity
  have hx : (m * 2 ^ e / (n * 2 ^ g) : ℝ) = (2 * Q + 2 * (R / n)) * 2 ^ (e - g - k - 1) := by
    have hpow : (2 : ℝ) ^ e = 2 ^ (e - g - k - 1) * 2 ^ g * 2 ^ k * 2 := by
      rw [← zpow_natCast, ← zpow_add₀ two_ne_zero, ← zpow_add₀ two_ne_zero, ← zpow_add_one₀ two_ne_zero]
      congr 1
      ring
    rw [hpow]
    field_simp
    linear_combination -hdivR
  rw [hx]
  by_cases hR : R = 0
  · left
    simp [hR]
  · right
    have hR0 : (0 : ℝ) < R / n := by have : (0 : ℝ) < R := by exact_mod_cast Nat.pos_of_ne_zero hR
                                     positivity
    have hR1 : (R : ℝ) / n < 1 := (div_lt_one hnR).2 (by exact_mod_cast hlt)
    have hQ := hbig fun hm => hR (by rw [hm, Nat.zero_shiftLeft] at hdiv; omega)
    rw [if_neg hR]
    refine ⟨by omega, by omega, ?_⟩
    rw [← sub_mul, abs_mul, abs_of_pos hpos]
    refine mul_lt_of_lt_one_left hpos ?_
    push_cast
    rw [abs_lt]
    constructor <;> linarith

theorem isqrtFrom_spec (k : Nat) : ∀ {r n : Nat}, r * r ≤ n → n < (r + 2 ^ k) * (r + 2 ^ k) →
    isqrtFrom k r n * isqrtFrom k r n ≤ n ∧ n < (isqrtFrom k r n + 1) * (isqrtFrom k r n + 1) := by
  induction k with
  | zero => exact fun hlo hhi => ⟨hlo, hhi⟩
  | succ k ih =>
    intro r n hlo hhi
    unfold isqrtFrom
    by_cases h : (r + 2 ^ k) * (r + 2 ^ k) ≤ n
    · rw [if_pos h]
      refine ih h ?_
      rwa [Nat.add_assoc, ← Nat.two_mul, ← Nat.pow_succ']
    · rw [if_neg h]
      exact ih hlo (not_le.1 h)

theorem isqrt_spec (n : Nat) : isqrt n * isqrt n ≤ n ∧ n < (isqrt n + 1) * (isqrt n + 1) := by
  refine isqrtFrom_spec _ (Nat.zero_le n) ?_
  have hlog : n < 2 ^ (Nat.log2 n + 1) := Nat.lt_log2_self
  calc n < 2 ^ (Nat.log2 n + 1) := hlog
    _ ≤ 2 ^ ((Nat.log2 n / 2 + 1) + (Nat.log2 n / 2 + 1)) := Nat.pow_le_pow_right (by decide) (by omega)
    _ = _ := by rw [Nat.pow_add, Nat.zero_add]

/-- A significand and its exponent, with an even exponent: as `fp32Sqrt` takes them. -/
def evenSig (m : Nat) (e : Int) : Nat := if e % 2 != 0 then 2 * m else m
def evenExp (e : Int) : Int := if e % 2 != 0 then e - 1 else e

theorem evenForm {m : Nat} {e : Int} (hm : m ≠ 0) :
    evenSig m e ≠ 0 ∧ (m * 2 ^ e : ℝ) = evenSig m e * (2 ^ (evenExp e / 2)) ^ 2 := by
  have hsq : ((2 : ℝ) ^ (evenExp e / 2)) ^ 2 = 2 ^ evenExp e := by
    rw [sq, ← zpow_add₀ two_ne_zero]
    congr 1
    unfold evenExp
    split <;> simp_all <;> omega
  rw [hsq]
  unfold evenSig evenExp
  split
  · refine ⟨by omega, ?_⟩
    rw [zpow_sub_one₀ two_ne_zero]
    push_cast
    ring
  · exact ⟨hm, rfl⟩

/-- An integer square root with its sticky bit stands for the square root. -/
theorem isqrt_standsFor {n : Nat} (hn : 2 ^ 60 ≤ n) (e : Int) :
    StandsFor (2 * isqrt n + (if isqrt n * isqrt n = n then 0 else 1)) (e - 1) (Real.sqrt n * 2 ^ e) := by
  obtain ⟨hlo, hhi⟩ := isqrt_spec n
  generalize isqrt n = r at hlo hhi ⊢
  have hpow : (2 : ℝ) ^ e = 2 * 2 ^ (e - 1) := by rw [zpow_sub_one₀ two_ne_zero]; ring
  rw [hpow]
  by_cases heq : r * r = n
  · left
    rw [if_pos heq, ← heq, Nat.cast_mul, Real.sqrt_mul_self (Nat.cast_nonneg r)]
    push_cast
    ring
  · right
    rw [if_neg heq]
    have hbig : 2 ^ 30 ≤ r := by
      by_contra hlt
      have : (r + 1) * (r + 1) ≤ 2 ^ 30 * 2 ^ 30 := Nat.mul_le_mul (by omega) (by omega)
      omega
    refine ⟨by omega, by omega, ?_⟩
    have hltR : (r : ℝ) < Real.sqrt n := Real.lt_sqrt_of_sq_lt (by rw [sq]; exact_mod_cast lt_of_le_of_ne hlo heq)
    have hgtR : Real.sqrt n < r + 1 := by
      rw [Real.sqrt_lt' (by positivity), sq]
      exact_mod_cast hhi
    have hpos : (0 : ℝ) < 2 ^ (e - 1) := by positivity
    rw [← mul_assoc, ← sub_mul, abs_mul, abs_of_pos hpos]
    refine mul_lt_of_lt_one_left hpos ?_
    push_cast
    rw [abs_lt]
    constructor <;> linarith

/-! ## Encodings -/

theorem f32Zero_iff {v : BitVec 32} : f32Zero v ↔ f32Finite v ∧ f32Sig v = 0 := by
  unfold f32Zero f32Finite f32Sig
  split_ifs with h
  · simp [h]
  · simp [h]

/-- The value of a finite encoding is 0 just where its significand is. -/
theorem f32Value_eq_zero_iff (v : BitVec 32) : f32Value v = 0 ↔ f32Sig v = 0 := by
  rw [f32Value_eq]
  cases f32Neg v <;> simp [signOf, zpow_ne_zero]

theorem eq_f32InfOf {v : BitVec 32} (h : f32Inf v) : f32InfOf (f32Neg v) = v := by
  obtain ⟨he, hf⟩ := h
  apply BitVec.eq_of_toNat_eq
  rw [toNat_eq_fields v, he, hf]
  cases f32Neg v <;> rfl
theorem eq_f32ZeroOf {v : BitVec 32} (h : f32Zero v) : f32ZeroOf (f32Neg v) = v := by
  obtain ⟨he, hf⟩ := h
  apply BitVec.eq_of_toNat_eq
  rw [toNat_eq_fields v, he, hf]
  cases f32Neg v <;> rfl

theorem fp32Neg_nan {v : BitVec 32} (h : f32Nan v) : fp32Neg v = v := if_pos ((fp32Nan_iff v).2 h)

/-- Negation turns the sign bit alone. -/
theorem fp32Neg_fields {v : BitVec 32} (h : ¬ f32Nan v) :
    f32Exp (fp32Neg v) = f32Exp v ∧ f32Frac (fp32Neg v) = f32Frac v ∧ f32Neg (fp32Neg v) = !f32Neg v := by
  rw [fp32Neg, if_neg (mt (fp32Nan_iff v).1 h), f32Exp, f32Frac, f32Neg, BitVec.extractLsb'_xor, BitVec.extractLsb'_xor,
    BitVec.getLsbD_xor]
  exact ⟨by rw [show BitVec.extractLsb' 23 8 (0x80000000 : BitVec 32) = 0#8 from rfl, BitVec.xor_zero]; rfl,
    by rw [show BitVec.extractLsb' 0 23 (0x80000000 : BitVec 32) = 0#23 from rfl, BitVec.xor_zero]; rfl, Bool.xor_true _⟩

theorem f32Nan_fp32Neg {v : BitVec 32} : f32Nan (fp32Neg v) ↔ f32Nan v := by
  by_cases h : f32Nan v
  · rw [fp32Neg_nan h]
  · obtain ⟨he, hf, -⟩ := fp32Neg_fields h
    rw [f32Nan, he, hf]
    exact Iff.rfl
theorem fp32Snan_fp32Neg (v : BitVec 32) : fp32Snan (fp32Neg v) = fp32Snan v := by
  by_cases h : f32Nan v
  · rw [fp32Neg_nan h]
  · have hquiet {w : BitVec 32} (hw : ¬ f32Nan w) : fp32Snan w = false :=
      eq_false_of_ne_true fun hs => hw ((fp32Snan_iff w).1 hs).1
    rw [hquiet h, hquiet (mt f32Nan_fp32Neg.1 h)]
theorem f32Inf_fp32Neg {v : BitVec 32} (h : f32Inf v) : f32Inf (fp32Neg v) := by
  obtain ⟨he, hf, -⟩ := fp32Neg_fields (not_f32Nan_of_inf h)
  rwa [f32Inf, he, hf]
theorem f32Finite_fp32Neg {v : BitVec 32} (h : f32Finite v) : f32Finite (fp32Neg v) := by
  rwa [f32Finite, (fp32Neg_fields (not_f32Nan_of_finite h)).1]
theorem f32Neg_fp32Neg {v : BitVec 32} (h : ¬ f32Nan v) : f32Neg (fp32Neg v) = !f32Neg v := (fp32Neg_fields h).2.2
theorem f32Value_fp32Neg {v : BitVec 32} (h : f32Finite v) : f32Value (fp32Neg v) = -f32Value v := by
  obtain ⟨he, hf, hs⟩ := fp32Neg_fields (not_f32Nan_of_finite h)
  have hsig : f32Sig (fp32Neg v) = f32Sig v := by rw [f32Sig, he, hf, f32Sig]
  have hscale : f32Scale (fp32Neg v) = f32Scale v := by rw [f32Scale, he, f32Scale]
  rw [f32Value_eq, f32Value_eq, hsig, hscale, hs]
  cases f32Neg v <;> simp [signOf]

/-! ## The operations, by what their operands are -/

/-- The result of an operation on numbers: the rounded value, or the canonical NaN for an invalid operation (R71). -/
def numResult : Val → BitVec 32 × Flags
  | .nan => (f32Qnan, flNv)
  | v => fp32Round v

/-- The result of an operation with a NaN operand (R71). -/
def nanResult (x y : BitVec 32) : BitVec 32 × Flags := (f32Qnan, flIf (fp32Snan x || fp32Snan y) flNv)

theorem numResult_of_denotes {v : Val} {x : ℝ} (h : Denotes v x) : numResult v = fp32Round v := by
  obtain ⟨s, m, e, rfl, -⟩ := h
  rfl

section
variable {x y : BitVec 32}

theorem isNan_or {x y : BitVec 32} : ((fp32Val x).isNan || (fp32Val y).isNan) = true ↔ f32Nan x ∨ f32Nan y := by
  rw [Bool.or_eq_true]
  exact or_congr (fp32Nan_iff x) (fp32Nan_iff y)

theorem fp32Add_nan (h : f32Nan x ∨ f32Nan y) : fp32Add x y = nanResult x y := by
  have hnan : (fp32.isNan x.toNat || fp32.isNan y.toNat) = true := isNan_or.2 h
  rw [fp32Add, FFmt.add, if_pos hnan]
  rfl
theorem fp32Add_num (hx : ¬ f32Nan x) (hy : ¬ f32Nan y) : fp32Add x y = numResult ((fp32Val x).add (fp32Val y)) := by
  have hnan : ¬ (fp32.isNan x.toNat || fp32.isNan y.toNat) = true := fun h => (isNan_or.1 h).elim hx hy
  rw [fp32Add, FFmt.add, if_neg hnan]
  show (let p := match (fp32Val x).add (fp32Val y) with
    | .nan => (fp32.qnan, flNv)
    | v => fp32.round .rne v
    (BitVec.ofNat 32 p.1, p.2)) = _
  cases (fp32Val x).add (fp32Val y) <;> rfl
theorem fp32Sub_nan (h : f32Nan x ∨ f32Nan y) : fp32Sub x y = nanResult x y := by
  rw [fp32Sub, fp32Add_nan (h.imp_right f32Nan_fp32Neg.2), nanResult, fp32Snan_fp32Neg]
  rfl
theorem fp32Mul_nan (h : f32Nan x ∨ f32Nan y) : fp32Mul x y = nanResult x y := if_pos (isNan_or.2 h)
theorem fp32Mul_num (hx : ¬ f32Nan x) (hy : ¬ f32Nan y) : fp32Mul x y = numResult ((fp32Val x).mul (fp32Val y)) := by
  have hnan : ¬ ((fp32Val x).isNan || (fp32Val y).isNan) = true := fun h => (isNan_or.1 h).elim hx hy
  simp only [fp32Mul, if_neg hnan]
  cases (fp32Val x).mul (fp32Val y) <;> rfl
theorem fp32Div_nan (h : f32Nan x ∨ f32Nan y) : fp32Div x y = nanResult x y := if_pos (isNan_or.2 h)

/-- The sum with an infinity. -/
theorem fp32Add_inf_left (hx : f32Inf x) (hy : f32Finite y ∨ (f32Inf y ∧ f32Neg x = f32Neg y)) : fp32Add x y = (x, 0) := by
  have hsum : (fp32Val x).add (fp32Val y) = .inf (f32Neg x) := by
    rw [fp32Val_inf hx]
    rcases hy with hy | ⟨hy, hs⟩
    · rw [fp32Val_fin hy]; rfl
    · rw [fp32Val_inf hy]; exact if_pos hs
  have hny : ¬ f32Nan y := hy.elim not_f32Nan_of_finite fun h => not_f32Nan_of_inf h.1
  rw [fp32Add_num (not_f32Nan_of_inf hx) hny, hsum, numResult, fp32Round_inf, eq_f32InfOf hx]
  rintro ⟨⟩
theorem fp32Add_inf_right (hx : f32Finite x) (hy : f32Inf y) : fp32Add x y = (y, 0) := by
  rw [fp32Add_num (not_f32Nan_of_finite hx) (not_f32Nan_of_inf hy), fp32Val_fin hx, fp32Val_inf hy]
  exact (fp32Round_inf _).trans (by rw [eq_f32InfOf hy])
theorem fp32Add_infs (hx : f32Inf x) (hy : f32Inf y) (h : f32Neg x ≠ f32Neg y) : fp32Add x y = (f32Qnan, flNv) := by
  rw [fp32Add_num (not_f32Nan_of_inf hx) (not_f32Nan_of_inf hy), fp32Val_inf hx, fp32Val_inf hy, Val.add, if_neg h]
  rfl

/-- The sum of finite values, rounded; an exact zero is +0 but for two negative operands. -/
theorem fp32Add_rounds (hx : f32Finite x) (hy : f32Finite y) :
    RoundsTo (f32Value x + f32Value y) (fp32Add x y).1 (fp32Add x y).2 := by
  have hsum := (denotes_fp32Val hx).add (denotes_fp32Val hy)
  rw [fp32Add_num (not_f32Nan_of_finite hx) (not_f32Nan_of_finite hy), numResult_of_denotes hsum]
  exact hsum.roundsTo
theorem add_eq_zero_sum {s t : Bool} {m n : Nat} {e g : Int} (h : signR s * (m * 2 ^ e) + signR t * (n * 2 ^ g) = 0) :
    ∃ E, (Val.fin s m e).add (.fin t n g) = .fin (s && t) 0 E := by
  by_cases hm : m = 0
  · have hn : n = 0 := by simpa [hm, signR_ne_zero, zpow_ne_zero] using h
    exact ⟨e, by simp [Val.add, hm, hn]⟩
  · have hn : n ≠ 0 := fun hn => hm (by simpa [hn, signR_ne_zero, zpow_ne_zero] using h)
    refine ⟨min e g, ?_⟩
    have hzero : scaled s m e (min e g) + scaled t n g (min e g) = 0 := by
      rw [← cast_scaled s m (min_le_left e g), ← cast_scaled t n (min_le_right e g), ← add_mul, mul_eq_zero] at h
      exact_mod_cast h.resolve_right (by positivity)
    have hsign : (s && t) = false := by
      by_contra hboth
      obtain ⟨rfl, rfl⟩ : s = true ∧ t = true := by simpa using hboth
      have hmpos : (0 : ℝ) < m * 2 ^ e := by have : (0 : ℝ) < m := by exact_mod_cast Nat.pos_of_ne_zero hm
                                             positivity
      have hnpos : (0 : ℝ) ≤ n * 2 ^ g := by positivity
      simp only [signR, if_true] at h
      linarith
    simp [Val.add, hm, hn, hzero, hsign]
theorem fp32Add_zero (hx : f32Finite x) (hy : f32Finite y) (h : f32Value x + f32Value y = 0) :
    fp32Add x y = (f32ZeroOf (f32Neg x && f32Neg y), 0) := by
  have hR : (f32Value x : ℝ) + f32Value y = 0 := by exact_mod_cast h
  rw [cast_f32Value, cast_f32Value] at hR
  obtain ⟨E, hE⟩ := add_eq_zero_sum hR
  rw [fp32Add_num (not_f32Nan_of_finite hx) (not_f32Nan_of_finite hy), fp32Val_fin hx, fp32Val_fin hy, hE]
  exact fp32Round_zero _ E

/-- The product with an infinity. -/
theorem fp32Mul_inf (h : (f32Inf x ∧ ((f32Finite y ∧ ¬ f32Zero y) ∨ f32Inf y)) ∨ (f32Finite x ∧ ¬ f32Zero x ∧ f32Inf y)) :
    fp32Mul x y = (f32InfOf (f32Neg x != f32Neg y), 0) := by
  have hprod : (fp32Val x).mul (fp32Val y) = .inf (f32Neg x != f32Neg y) := by
    rcases h with ⟨hx, ⟨hy, h0⟩ | hy⟩ | ⟨hx, h0, hy⟩
    · rw [fp32Val_inf hx, fp32Val_fin hy]; exact if_neg fun h => h0 (f32Zero_iff.2 ⟨hy, h⟩)
    · rw [fp32Val_inf hx, fp32Val_inf hy]; rfl
    · rw [fp32Val_fin hx, fp32Val_inf hy]; exact if_neg fun h => h0 (f32Zero_iff.2 ⟨hx, h⟩)
  have hnum : ¬ f32Nan x ∧ ¬ f32Nan y := by unfold f32Nan f32Inf f32Finite at *; tauto
  rw [fp32Mul_num hnum.1 hnum.2, hprod]
  exact fp32Round_inf _
theorem fp32Mul_invalid (h : (f32Zero x ∧ f32Inf y) ∨ (f32Inf x ∧ f32Zero y)) : fp32Mul x y = (f32Qnan, flNv) := by
  rcases h with ⟨hx, hy⟩ | ⟨hx, hy⟩
  · obtain ⟨hfin, h0⟩ := f32Zero_iff.1 hx
    rw [fp32Mul_num (not_f32Nan_of_finite hfin) (not_f32Nan_of_inf hy), fp32Val_fin hfin, fp32Val_inf hy, Val.mul, if_pos h0]
    rfl
  · obtain ⟨hfin, h0⟩ := f32Zero_iff.1 hy
    rw [fp32Mul_num (not_f32Nan_of_inf hx) (not_f32Nan_of_finite hfin), fp32Val_fin hfin, fp32Val_inf hx, Val.mul, if_pos h0]
    rfl
theorem fp32Mul_rounds (hx : f32Finite x) (hy : f32Finite y) :
    RoundsTo (f32Value x * f32Value y) (fp32Mul x y).1 (fp32Mul x y).2 := by
  have hprod := (denotes_fp32Val hx).mul (denotes_fp32Val hy)
  rw [fp32Mul_num (not_f32Nan_of_finite hx) (not_f32Nan_of_finite hy), numResult_of_denotes hprod]
  exact hprod.roundsTo
theorem fp32Mul_zero (hx : f32Finite x) (hy : f32Finite y) (h : f32Zero x ∨ f32Zero y) :
    fp32Mul x y = (f32ZeroOf (f32Neg x != f32Neg y), 0) := by
  have h0 : f32Sig x * f32Sig y = 0 := by
    rcases h with h | h
    · rw [(f32Zero_iff.1 h).2, Nat.zero_mul]
    · rw [(f32Zero_iff.1 h).2, Nat.mul_zero]
  rw [fp32Mul_num (not_f32Nan_of_finite hx) (not_f32Nan_of_finite hy), fp32Val_fin hx, fp32Val_fin hy, Val.mul, h0]
  exact fp32Round_zero _ (f32Scale x + f32Scale y)

/-- The quotients. -/
theorem fp32Div_inf_left (hx : f32Inf x) (hy : f32Finite y) : fp32Div x y = (f32InfOf (f32Neg x != f32Neg y), 0) := by
  simp only [fp32Div, fp32Val_inf hx, fp32Val_fin hy]
  exact fp32Round_inf _
theorem fp32Div_inf_right (hx : f32Finite x) (hy : f32Inf y) : fp32Div x y = (f32ZeroOf (f32Neg x != f32Neg y), 0) := by
  simp only [fp32Div, fp32Val_fin hx, fp32Val_inf hy]
  exact fp32Round_zero _ 0
theorem fp32Div_invalid (h : (f32Zero x ∧ f32Zero y) ∨ (f32Inf x ∧ f32Inf y)) : fp32Div x y = (f32Qnan, flNv) := by
  rcases h with ⟨hx, hy⟩ | ⟨hx, hy⟩
  · obtain ⟨hfx, hx0⟩ := f32Zero_iff.1 hx
    obtain ⟨hfy, hy0⟩ := f32Zero_iff.1 hy
    simp only [fp32Div, fp32Val_fin hfx, fp32Val_fin hfy, hx0, hy0]
    rfl
  · simp only [fp32Div, fp32Val_inf hx, fp32Val_inf hy]
    rfl
theorem fp32Div_by_zero (hx : f32Finite x) (h0 : ¬ f32Zero x) (hy : f32Zero y) :
    fp32Div x y = (f32InfOf (f32Neg x != f32Neg y), flDz) := by
  obtain ⟨hfy, hy0⟩ := f32Zero_iff.1 hy
  have hx0 : f32Sig x ≠ 0 := fun h => h0 (f32Zero_iff.2 ⟨hx, h⟩)
  simp only [fp32Div, fp32Val_fin hx, fp32Val_fin hfy, hy0, hx0, if_true, if_false, fp32Round_inf]
  rfl
theorem fp32Div_fin (hx : f32Finite x) (hy : f32Finite y) (h0 : ¬ f32Zero y) : fp32Div x y =
    fp32Round (divSticky (f32Neg x != f32Neg y) (f32Sig x) (f32Scale x) (f32Sig y) (f32Scale y) 26) := by
  have hy0 : f32Sig y ≠ 0 := fun h => h0 (f32Zero_iff.2 ⟨hy, h⟩)
  simp only [fp32Div, fp32Val_fin hx, fp32Val_fin hy, hy0, if_false]
  rfl
theorem fp32Div_zero (hx : f32Zero x) (hy : f32Finite y) (h0 : ¬ f32Zero y) :
    fp32Div x y = (f32ZeroOf (f32Neg x != f32Neg y), 0) := by
  obtain ⟨hfx, hx0⟩ := f32Zero_iff.1 hx
  rw [fp32Div_fin hfx hy h0, hx0, divSticky]
  simp [fp32Round_zero]
theorem fp32Div_rounds (hx : f32Finite x) (hy : f32Finite y) (h0 : ¬ f32Zero y) :
    RoundsTo (f32Value x / f32Value y) (fp32Div x y).1 (fp32Div x y).2 := by
  have hval : (f32Value x / f32Value y : ℝ) =
      signR (f32Neg x != f32Neg y) * (f32Sig x * 2 ^ f32Scale x / (f32Sig y * 2 ^ f32Scale y)) := by
    rw [cast_f32Value, cast_f32Value]
    cases f32Neg x <;> cases f32Neg y <;> simp [signR, neg_div, div_neg]
  obtain ⟨M, E, hdiv, hst⟩ := divSticky_standsFor (m := f32Sig x) (f32Scale x) (f32Scale y)
    (fun h => h0 (f32Zero_iff.2 ⟨hy, h⟩)) (f32Neg x != f32Neg y)
  rw [fp32Div_fin hx hy h0, hdiv, hval]
  exact roundsTo_of_standsFor hst _

/-- The square roots. -/
theorem fp32Sqrt_nan (hx : f32Nan x) : fp32Sqrt x = nanResult x x := by
  simp only [fp32Sqrt, fp32Val_nan hx, nanResult, Bool.or_self]
  rfl
theorem fp32Sqrt_inf : fp32Sqrt (f32InfOf false) = (f32InfOf false, 0) := by rfl
theorem fp32Sqrt_zero (hx : f32Zero x) : fp32Sqrt x = (x, 0) := by
  obtain ⟨hfx, hx0⟩ := f32Zero_iff.1 hx
  simp only [fp32Sqrt, fp32Val_fin hfx, hx0, if_true]
theorem fp32Sqrt_invalid (hnan : ¬ f32Nan x) (h0 : ¬ f32Zero x) (hneg : f32Neg x = true) : fp32Sqrt x = (f32Qnan, flNv) := by
  rcases (f32_cases x).resolve_left hnan with hx | hx
  · simp only [fp32Sqrt, fp32Val_inf hx, hneg, if_true]
    rfl
  · have hx0 : f32Sig x ≠ 0 := fun h => h0 (f32Zero_iff.2 ⟨hx, h⟩)
    simp only [fp32Sqrt, fp32Val_fin hx, hneg, hx0, if_true, if_false]
    rfl
theorem fp32Sqrt_rounds (hx : f32Finite x) (hpos : 0 < f32Value x) :
    RoundsTo (Real.sqrt (f32Value x)) (fp32Sqrt x).1 (fp32Sqrt x).2 := by
  have hneg : f32Neg x = false := by
    by_contra hn
    have hnn := f32Abs_nonneg x
    rw [f32Value_eq_abs, eq_true_of_ne_false hn, signOf, if_pos rfl] at hpos
    linarith
  have hx0 : f32Sig x ≠ 0 := fun h => hpos.ne' ((f32Value_eq_zero_iff x).2 h)
  obtain ⟨hm0, heven⟩ := evenForm (e := f32Scale x) hx0
  have hres : fp32Sqrt x = fp32Round (.fin false (2 * isqrt ((evenSig (f32Sig x) (f32Scale x)) <<< 60) +
      (if isqrt ((evenSig (f32Sig x) (f32Scale x)) <<< 60) * isqrt ((evenSig (f32Sig x) (f32Scale x)) <<< 60) =
        (evenSig (f32Sig x) (f32Scale x)) <<< 60 then 0 else 1)) (evenExp (f32Scale x) / 2 - 31)) := by
    simp only [fp32Sqrt, fp32Val_fin hx, hx0, if_false, hneg, Bool.false_eq_true]
    rfl
  rw [hres, cast_f32Value, hneg, heven]
  generalize evenSig (f32Sig x) (f32Scale x) = m at hm0
  have hst := isqrt_standsFor (n := m <<< 60) (by rw [Nat.shiftLeft_eq]; omega) (evenExp (f32Scale x) / 2 - 30)
  have hsqrt : Real.sqrt (signR false * (m * (2 ^ (evenExp (f32Scale x) / 2)) ^ 2)) =
      signR false * (Real.sqrt (m <<< 60 : Nat) * 2 ^ (evenExp (f32Scale x) / 2 - 30)) := by
    have h30 : ((m <<< 60 : Nat) : ℝ) = m * (2 ^ 30) ^ 2 := by rw [Nat.shiftLeft_eq]; push_cast; ring
    simp only [signR, Bool.false_eq_true, if_false, one_mul]
    rw [h30, Real.sqrt_mul (Nat.cast_nonneg m), Real.sqrt_mul (Nat.cast_nonneg m), Real.sqrt_sq (by positivity),
      Real.sqrt_sq (by positivity), mul_assoc, ← zpow_natCast, ← zpow_add₀ two_ne_zero]
    congr 2
    push_cast
    ring
  rw [hsqrt]
  rw [show evenExp (f32Scale x) / 2 - 30 - 1 = evenExp (f32Scale x) / 2 - 31 by omega] at hst
  exact roundsTo_of_standsFor hst false
end

/-! ## O17 and O18 -/

/-- The six results, in the order of the statements. -/
def fpResults (x y : BitVec 32) (a : Dword) : Fin 6 → BitVec 32 × Flags :=
  ![fp32Add x y, fp32Sub x y, fp32Mul x y, fp32Div x y, fp32Sqrt x, i64ToFp32 a]

/-- The six instructions write them, with their flags. -/
theorem exec_fpResults (d a b : Reg) (s : State) :
    let r := fpResults ((s.core.rg a).setWidth 32) ((s.core.rg b).setWidth 32) (s.core.rg a)
    exec (.fadd d a b) s = .next (s.wroteF 4 d ((r 0).1.setWidth 64) (r 0).2) ∧
    exec (.fsub d a b) s = .next (s.wroteF 4 d ((r 1).1.setWidth 64) (r 1).2) ∧
    exec (.fmul d a b) s = .next (s.wroteF 4 d ((r 2).1.setWidth 64) (r 2).2) ∧
    exec (.fdiv d a b) s = .next (s.wroteF 4 d ((r 3).1.setWidth 64) (r 3).2) ∧
    exec (.fsqrt d a) s = .next (s.wroteF 4 d ((r 4).1.setWidth 64) (r 4).2) ∧
    exec (.i2f d a) s = .next (s.wroteF 4 d ((r 5).1.setWidth 64) (r 5).2) :=
  ⟨runSeq_resultF rfl, runSeq_resultF rfl, runSeq_resultF rfl, runSeq_resultF rfl, runSeq_resultF rfl, runSeq_resultF rfl⟩

/-- The four operations of two operands answer a NaN operand alike. -/
theorem fpResults_nan {x y : BitVec 32} (a : Dword) (h : f32Nan x ∨ f32Nan y) :
    ∀ k : Fin 6, k.val < 4 → fpResults x y a k = nanResult x y
  | 0, _ => fp32Add_nan h
  | 1, _ => fp32Sub_nan h
  | 2, _ => fp32Mul_nan h
  | 3, _ => fp32Div_nan h

theorem nanResult_flags (x y : BitVec 32) : (nanResult x y).1 = f32Qnan ∧
    (f32Snan x ∨ f32Snan y → (nanResult x y).2 = flNv) ∧ (¬ f32Snan x → ¬ f32Snan y → (nanResult x y).2 = 0) := by
  classical
  rw [nanResult, nanFlags_eq]
  exact ⟨rfl, fun h => if_pos h, fun hx hy => if_neg (not_or.2 ⟨hx, hy⟩)⟩

/-- Settles O18: each operation hands its exact value, or one with a sticky bit, to the rounding. -/
theorem floatRounds : Obligations.FloatRounds := by
  unfold Obligations.FloatRounds
  intro d a b s x y
  obtain ⟨hadd, hsub, hmul, hdiv, hsqrt, hi2f⟩ := exec_fpResults d a b s
  refine ⟨fun k => (fpResults x y (s.core.rg a) k).1, fun k => (fpResults x y (s.core.rg a) k).2, hadd, hsub, hmul, hdiv, hsqrt,
    hi2f, fun hx hy => ⟨fp32Add_rounds hx hy, ?_, fp32Mul_rounds hx hy, fun h0 => fp32Div_rounds hx hy h0⟩,
    fun hx hpos => fp32Sqrt_rounds hx hpos, (denotes_valOfInt _).roundsTo⟩
  have hrounds := fp32Add_rounds hx (f32Finite_fp32Neg hy)
  rw [f32Value_fp32Neg hy, Rat.cast_neg, ← sub_eq_add_neg] at hrounds
  exact hrounds

/-- Settles O17: each result by what its operands are, the difference as the sum with the negated operand. -/
theorem floatSpecials : Obligations.FloatSpecials := by
  unfold Obligations.FloatSpecials
  intro d a b s x y sx sy exact
  obtain ⟨hadd, hsub, hmul, hdiv, hsqrt, hi2f⟩ := exec_fpResults d a b s
  refine ⟨fun k => (fpResults x y (s.core.rg a) k).1, fun k => (fpResults x y (s.core.rg a) k).2, hadd, hsub, hmul, hdiv, hsqrt,
    hi2f, ?_⟩
  clear hadd hsub hmul hdiv hsqrt hi2f
  have hexact {p : BitVec 32 × Flags} {v : BitVec 32} (h : p = (v, 0)) : exact p.1 p.2 v := ⟨by rw [h], by rw [h]⟩
  have hboth {p : BitVec 32 × Flags} {v : BitVec 32} {f : Flags} (h : p = (v, f)) : p.1 = v ∧ p.2 = f := ⟨by rw [h], by rw [h]⟩
  have hnegInf {v : BitVec 32} (h : f32Inf v) : fp32Neg v = f32InfOf (!f32Neg v) := by
    rw [← f32Neg_fp32Neg (not_f32Nan_of_inf h), eq_f32InfOf (f32Inf_fp32Neg h)]
  have hsign {v : BitVec 32} (h : f32Inf v) : f32Neg (fp32Neg v) = !f32Neg v := f32Neg_fp32Neg (not_f32Nan_of_inf h)
  refine ⟨fun k hk h => ?_, fun hx hy => hexact (fp32Add_inf_left hx hy),
    fun hx hy => ⟨hexact (fp32Add_inf_right hx hy), hexact ?_⟩, fun hx hy => hexact (fp32Add_inf_left hx ?_),
    fun hx hy => hexact (fp32Mul_inf (.inl ⟨hx, hy⟩)), fun hx h0 hy => hexact (fp32Mul_inf (.inr ⟨hx, h0, hy⟩)),
    fun hx hy => hexact (fp32Div_inf_left hx hy), fun hx hy => hexact (fp32Div_inf_right hx hy), fun hx => hexact ?_,
    fun hx hy => ⟨fun h => hexact (fp32Add_zero hx hy h), fun h => hexact ?_, fun h => hexact (fp32Mul_zero hx hy h),
      fun h h0 => hexact (fp32Div_zero h hy h0)⟩, fun ha => hexact ?_, fun hx hy h => hboth (fp32Add_infs hx hy h),
    fun hx hy h => hboth (fp32Add_infs hx (f32Inf_fp32Neg hy) ?_), fun h => hboth (fp32Mul_invalid h),
    fun h => hboth (fp32Div_invalid h), fun hx h0 hy => ?_, fun hx => ?_, fun hx => hboth (fp32Sqrt_zero hx),
    fun hnan h0 hneg => hboth (fp32Sqrt_invalid hnan h0 hneg)⟩
  · obtain ⟨hq, hnv, hno⟩ := nanResult_flags x y
    simp only [fpResults_nan _ h k hk]
    exact ⟨hq, hnv, hno⟩
  · rw [← hnegInf hy]
    exact fp32Add_inf_right hx (f32Inf_fp32Neg hy)
  · refine hy.imp f32Finite_fp32Neg fun ⟨hy, hne⟩ => ⟨f32Inf_fp32Neg hy, ?_⟩
    rw [hsign hy]
    exact Bool.eq_not_of_ne hne
  · show fp32Sqrt x = (x, 0)
    rw [hx]
    exact fp32Sqrt_inf
  · have hzero := fp32Add_zero hx (f32Finite_fp32Neg hy) (by rw [f32Value_fp32Neg hy, ← sub_eq_add_neg, h])
    rw [f32Neg_fp32Neg (not_f32Nan_of_finite hy)] at hzero
    exact hzero
  · show i64ToFp32 (s.core.rg a) = (0, 0)
    rw [ha]
    rfl
  · rw [hsign hy, h]
    exact (Bool.not_ne_self _).symm
  · obtain ⟨hr, hf⟩ := hboth (fp32Div_by_zero hx h0 hy)
    show f32Inf (fp32Div x y).1 ∧ f32Neg (fp32Div x y).1 = _ ∧ (fp32Div x y).2 = flDz
    rw [hr, hf]
    cases f32Neg x != f32Neg y <;> exact ⟨⟨rfl, rfl⟩, rfl, rfl⟩
  · obtain ⟨hq, hnv, hno⟩ := nanResult_flags x x
    show (fp32Sqrt x).1 = _ ∧ (_ → (fp32Sqrt x).2 = _) ∧ (_ → (fp32Sqrt x).2 = _)
    rw [fp32Sqrt_nan hx]
    exact ⟨hq, fun h => hnv (.inl h), fun h => hno h h⟩

end Sys2Proof
end

section
/-!
PROOFS. The loop table (O34): the first-level cache of a core holds 1,024 lines (R213; log 141), so the read of one loop word
can replace the line that alone translates the next one.
-/
namespace Sys2Proof
open Machine

/-! ## A full first-level cache -/

/-- A readable translation of an address to itself. -/
def sameLeaf (va : Nat) : Leaf := ⟨va, true, false, false, false, 3, 0, 0⟩

/-- A pin that holds the translation of the eight bytes from an address. -/
def samePin (va : Nat) : Pin := ⟨dw va, 8, false, false, [(va, sameLeaf va)]⟩

/-- No table maps an address. A pin holds the translation of bytes 56 to 63; the core's 1,024 first-level lines hold those of
the line at 64, the oldest, and of the line at 128. g2 is 56. -/
def fullCache : State :=
  let c := State.reset.core
  { State.reset with
    core := { c.setG 2 56 with pins := [samePin 56] }
    cache := { State.reset.cache with l1 := ⟨c.id, 64, sameLeaf 64⟩ :: List.replicate 1023 ⟨c.id, 128, sameLeaf 128⟩ } }

theorem fullCache_pins : fullCache.core.pins = [samePin 56] := rfl
theorem fullCache_l1 : fullCache.cache.l1 =
    ⟨fullCache.core.id, 64, sameLeaf 64⟩ :: List.replicate 1023 ⟨fullCache.core.id, 128, sameLeaf 128⟩ := (rfl)

/-- The first read fills the line of the pinned bytes and replaces the line at 64, so the second read finds no translation and
the context ends. -/
theorem fullCache_lptLd : Tests.nexts (exec (.lptLd 2) fullCache) (fun t => t.core.pc != fullCache.core.pc + 4) = true := by
  decide +kernel

theorem of_nexts {o : Host.Outcome State Fault Refusal} {p : State → Bool} {t : State} (h : Tests.nexts o p = true)
    (ho : o = .next t) : p t = true := by
  subst ho
  exact h

/-- The root table lies in memory that holds zeros, so that every walk ends at its first entry. -/
theorem fullCache_walk (va : Nat) : fullCache.walk fullCache.core.partid va = none := by
  have hroot : fullCache.pg fullCache.core.partid 0 8 = 0 := by decide +kernel
  have hzero (a : Nat) (ha : isPeer a = false) : fullCache.phys8 a = 0 := by
    have hmem : memRead fullCache.mem a 8 = List.replicate 8 0 := memRead_zero [] a 8 (by simp)
    rw [State.phys8, State.physBytes, ha, if_neg Bool.false_ne_true, hmem]
    rfl
  have hroot0 : isPeer (0 + 8 * vaIndex 0 va) = false := by
    simp only [isPeer, Bool.and_eq_false_iff, decide_eq_false_iff_not, vaIndex, if_true]
    omega
  rw [State.walk, hroot, walkFrom]
  simp only [hzero _ hroot0]
  split <;> rfl

/-- Every translation is to the address itself. -/
theorem fullCache_translation {va : Nat} {l : Leaf} (h : fullCache.translation va = some l) : l.pa = va := by
  rw [State.translation, fullCache_pins, fullCache_l1, fullCache_walk, Option.or_none, if_pos rfl, Option.or_eq_some_iff] at h
  rcases h with h | ⟨-, h⟩
  · rw [List.findSome?_singleton, Pin.leaf] at h
    split at h
    · exact absurd h (by simp)
    · next hin =>
      obtain ⟨x, hx, rfl⟩ := Option.map_eq_some_iff.1 h
      obtain rfl : x = (56, sameLeaf 56) := List.mem_singleton.1 (List.mem_of_find?_eq_some hx)
      have h56 : ¬ va < 56 := fun hlt => hin (by simp [samePin, hlt])
      show 56 + (va - 56) = va
      omega
  · obtain ⟨x, hx, rfl⟩ := Option.map_eq_some_iff.1 h
    have hmem := List.mem_of_find?_eq_some hx
    have hline := List.find?_some hx
    have hsame : x.leaf.pa = x.va ∧ x.va % 64 = 0 := by
      rcases List.mem_cons.1 hmem with rfl | hmem
      · exact ⟨rfl, rfl⟩
      · rw [List.eq_of_mem_replicate hmem]; exact ⟨rfl, rfl⟩
    have hline : x.va / 64 = va / 64 := (of_decide_eq_true hline).2
    show x.leaf.pa + va - x.va = va
    omega

theorem fullCache_linesWhole : fullCache.linesWhole := by
  intro x y l m _ hx hy
  rw [fullCache_translation hx, fullCache_translation hy, Nat.add_comm]

/-- The four loop words lie at plain addresses and are 0. -/
theorem fullCache_plain (k : Fin 4) : (fullCache.core.rg 2 + wrapN (8 * k)).toNat % 8 = 0 ∧
    fullCache.plain .r (fullCache.core.rg 2 + wrapN (8 * k)).toNat 8 (56 + 8 * k) ∧
    memRead fullCache.mem (56 + 8 * k) 8 = leBytes 8 (0 : Dword).toNat := by
  have hplain : ∀ k : Fin 4, Tests.plainB fullCache .r (56 + 8 * k) 8 (56 + 8 * k) = true := by decide +kernel
  have hva : ∀ k : Fin 4, (fullCache.core.rg 2 + wrapN (8 * k)).toNat = 56 + 8 * k := by decide +kernel
  rw [hva k]
  exact ⟨by omega, Tests.plain_of_plainB (hplain k), memRead_zero [] _ 8 (by simp)⟩

/-- Settles O34, by its negation: `fullCache` meets the premises of `lpt.ld` with four unused levels, and the word does not
complete. -/
theorem not_loopTable : ¬ Obligations.LoopTable := by
  unfold Obligations.LoopTable
  intro h
  obtain ⟨-, -, hld⟩ := h 0 2 fullCache
  have hfull := hld (fun _ => 0) (fun _ => 0) (fun k => 56 + 8 * k) (fun _ => 0) fullCache_plain
    (fun _ => ⟨rfl, fun _ => ⟨rfl, rfl⟩⟩) (fun _ hk => absurd rfl hk) (fun _ hk => absurd rfl hk)
    (fun _ (hk : (0 : BitVec 2) = 2) => absurd hk (by decide)) fullCache_linesWhole
  clear h hld
  obtain ⟨t, hrun, hpc, -⟩ := hfull
  have hstays := of_nexts fullCache_lptLd hrun
  exact bne_iff_ne.1 hstays hpc

end Sys2Proof
end

section
/-! PROOFS. The watch (O33), the pin table and the fences (O32). -/
namespace Sys2Proof
open Machine

/-! ## The watch (O33, R84, R85) -/

section
variable {d a : Reg} {s : State}

/-- `mon.arm` at an address that the sequencer may read. -/
theorem exec_monArm {sc : BitVec 3} {pa : Nat} (h : s.plain .r (s.core.rg a).toNat 1 pa) :
    exec (.monArm a sc) s =
      .next (s.did 4 { s.core with watch := some ⟨(s.core.rg a).toNat / 64, pa / 64, sc, false⟩ }) := by
  obtain ⟨-, hva, -, ⟨l, hl, hg, rfl⟩, -, hpool, -, -, hdet⟩ := h
  have hlook : s.lookup (s.core.who true sc) (s.core.rg a).toNat = some l := by
    rw [lookup_own (own_who s true sc), who_seq, hl]
  have hok : vaOk (s.core.rg a).toNat 1 = true := decide_eq_true hva
  have htr : acc (transl (s.core.who true sc) .r (s.core.rg a).toNat) s = .ok (l.pa, s) :=
    run_acc_ok (runA_transl hlook hg (poolLost_of_no_pools hpool _))
  refine runSeq_did ?_
  simp only [armWatch, run_bind, run_noDet, hdet, Bool.false_eq_true, if_false, run_getC, run_need, hok, if_true, htr, run_modC,
    run_pure]

/-- The core after a return of `mon.wait`, which disarms the watch (R85). -/
def monReturned (d : Reg) (k : Dword) (c : Core) : Core :=
  { c.setG d k with commit := .none, watch := none, asleep := false, timedOut := false, woken := false, deadline := 0 }

theorem run_monReturn (code : Nat) : monReturn d code s = .ok (.next, { s with core := monReturned d (dw code) s.core }) := rfl

/-- A return of `mon.wait` for one of its reasons. -/
theorem exec_monWait_returns {code : Nat} (h : monWaitOp d a s = monReturn d code s) :
    exec (.monWait d a) s = .next (s.did 4 (monReturned d (dw code) s.core)) := runSeq_did (h.trans (run_monReturn code))

section
variable (hdet : s.core.det = false)
include hdet

theorem monWaitOp_done (hc : s.core.commit = .monDone) : monWaitOp d a s = monReturn d 0 s := by
  simp [monWaitOp, hdet, hc, run_monReturn]

variable (hc : s.core.commit ≠ .monDone)
include hc

theorem monWaitOp_unarmed (hw : s.core.watch = none) : monWaitOp d a s = monReturn d 2 s := by
  simp [monWaitOp, hdet, hc, hw]

variable {w : Watch} (hw : s.core.watch = some w)
include hw

theorem monWaitOp_fired (hf : w.fired = true) : monWaitOp d a s = monReturn d 0 s := by
  simp [monWaitOp, hdet, hc, hw, hf]

theorem monWaitOp_timedOut (hf : w.fired = false) (ht : s.core.rg a = 0 ∨ s.core.timedOut = true) :
    monWaitOp d a s = monReturn d 1 s := by
  have ht : (decide (s.core.rg a = 0) || s.core.timedOut) = true := by rwa [Bool.or_eq_true, decide_eq_true_iff]
  simp only [monWaitOp, run_bind, run_noDet, hdet, Bool.false_eq_true, if_false, run_get, hc, hw, hf, ht, if_true]

theorem monWaitOp_sleeps (hf : w.fired = false) (hv : s.core.rg a ≠ 0) (ht : s.core.timedOut = false)
    (hs : s.core.asleep = false) : monWaitOp d a s = .ok (.stay, { s with core :=
      { s.core with asleep := true, deadline := s.now + min (s.core.rg a).toNat (2 ^ 40), stall := 0 } }) := by
  have ht : (decide (s.core.rg a = 0) || s.core.timedOut) = false := by rw [ht, decide_eq_false hv]; rfl
  simp only [monWaitOp, run_bind, run_noDet, hdet, Bool.false_eq_true, if_false, run_get, hc, hw, hf, ht, hs, run_modC, run_pure]
end
end

/-- Settles O33: each return by the branch of `monWaitOp` that it is. -/
theorem monitor : Obligations.Monitor := by
  unfold Obligations.Monitor
  intro sc d a s hdet c v returns
  have hzero : c.rg a = 0 ↔ v = 0 := BitVec.toNat_eq.trans Iff.rfl
  refine ⟨fun pa h => exec_monArm h, fun hc => exec_monWait_returns (monWaitOp_done hdet hc), fun hc =>
    ⟨fun hw => exec_monWait_returns (monWaitOp_unarmed hdet hc hw),
    fun w hw hf => exec_monWait_returns (monWaitOp_fired hdet hc hw hf),
    fun w hw hf hv => exec_monWait_returns (monWaitOp_timedOut hdet hc hw hf (hv.imp_left hzero.2)),
    fun w hw hf hv ht hs => ?_⟩⟩
  exact ⟨_, runSeq_ok (monWaitOp_sleeps hdet hc hw hf (mt hzero.1 hv) ht hs), rfl, rfl, rfl, rfl⟩

end Sys2Proof
end

section
/-!
PROOFS. The probes (O32). A probe passes a range by the first address of each of its granules, and its pin keeps the
translation of every byte of it (R86); but a region of the pool may end inside a granule, and the table translates no byte
beyond its end.
-/
namespace Sys2Proof
open Machine

/-- Partition 0 maps its first 64 GiB to the pool's, of which a region maps the first byte alone. g1 is 0 and g2 is 2. -/
def poolEdge : State :=
  { Tests.regs [(1, 0), (2, 2)] (Tests.put8 0x104000 0x10000000003D Tests.mapped) with
    pools := [⟨0x100000000000 - 0x10000000 + 1, 1, 0, false⟩] }

/-- Byte 0 is translated, and byte 1 is not. -/
theorem poolEdge_walk : (poolEdge.walk poolEdge.core.partid 0).any (fun l => l.grants .r && !poolEdge.poolLost l.pa) = true ∧
    poolEdge.walk poolEdge.core.partid 1 = none := by decide +kernel

/-- The pin of a probe of both bytes translates byte 1. -/
theorem poolEdge_prbR : Tests.nexts (exec (.prbR 1 2) poolEdge)
    (fun t => t.core.pins.any fun p => (p.leaf 1).isSome) = true := by decide +kernel

theorem poolEdge_range : (poolEdge.core.rg 1).toNat = 0 ∧ (poolEdge.core.rg 2).toNat = 2 ∧ poolEdge.core.quiet = true ∧
    poolEdge.core.pins = [] := by decide +kernel

/-- Settles O32, by its negation: on `poolEdge` the range of two bytes passes a read probe, and the pin translates byte 1, which
the table does not. -/
theorem not_fencesAndProbes : ¬ Obligations.FencesAndProbes := by
  unfold Obligations.FencesAndProbes
  intro h
  obtain ⟨-, -, -, -, hprobe, -⟩ := h 0 1 2 poolEdge
  obtain ⟨hva, hn, hquiet, hpins⟩ := poolEdge_range
  obtain ⟨hfirst, hsecond⟩ := poolEdge_walk
  rw [hva, hn, hpins] at hprobe
  obtain ⟨hread, -⟩ := hprobe hquiet (.inr (by decide))
  obtain ⟨l, hrun, hkeeps⟩ := hread ⟨by decide, by decide, fun g hg => by
    obtain rfl : g = 0 := List.mem_singleton.1 hg
    rw [Option.any_eq_true] at hfirst
    simpa using hfirst⟩
  have hpin : [(⟨poolEdge.core.rg 1, poolEdge.core.rg 2, false, false, l⟩ : Pin)].any (fun p => (p.leaf 1).isSome) = true :=
    of_nexts poolEdge_prbR hrun
  have hkept := hkeeps 1 (by decide) (by decide)
  rw [hsecond] at hkept
  simp only [List.any_cons, hkept, Option.isSome_none, List.any_nil, Bool.or_false, Bool.false_eq_true] at hpin

end Sys2Proof
end

section
/-!
PROOFS. The link events (O59). A message is placed when the first address of each granule of its slot is translated (R378); a
region of the pool may end inside a granule, and then a slot takes a message although the table translates no byte beyond the
region's end.
-/
namespace Sys2Proof
open Machine

/-- A request message without text (R369). -/
def emptyRequest : List Byte := 1 :: List.replicate 31 0

/-- Partition 0 maps its first 64 GiB to the pool's, of which a region maps the first byte alone, as in `poolEdge`; ring 0 of that
partition lies there, with one slot, and takes the messages of connection 0 of port 0. -/
def slotEdge : State :=
  { poolEdge with
    conns := [⟨0, 0, 0, 0⟩]
    eth := poolEdge.eth.set 0 { EthPort.reset with up := true }
    reqRings := poolEdge.reqRings.set 0 { ReqRing.reset with ports := 1, part := 0, en := true, lcap := 0, base := 0 } }

/-- The message is placed, so that the ring counts none as refused. -/
theorem slotEdge_frameReceive :
    Tests.nexts (exec (.frameReceive 0 0 emptyRequest) slotEdge) (fun t => (t.rq 0).full == 0) = true := by
  decide +kernel

theorem slotEdge_ring : slotEdge.connOf 0 0 = some 0 ∧ (vget slotEdge.eth 0 EthPort.reset).up = true ∧
    requestOk emptyRequest = true ∧ slotEdge.walk (slotEdge.rq 0).part 1 = none := by decide +kernel

/-- Settles O59, by its negation: `slotEdge` places a message of which the table translates the first byte alone. -/
theorem not_linkEvents : ¬ Obligations.LinkEvents := by
  unfold Obligations.LinkEvents
  intro h
  obtain ⟨hframe, -⟩ := h 0 0 0 0 emptyRequest 0 0 0 0 none 0 false false 0 0 0 0 0 0 slotEdge
  obtain ⟨hconn, hup, hok, hwalk⟩ := slotEdge_ring
  obtain ⟨-, hrequest⟩ := hframe 0 slotEdge hconn hup
  obtain ⟨hrefused, -⟩ := hrequest hok
  have hrun := hrefused (.inr (.inr ⟨1, by decide +kernel, by decide +kernel, fun l hl =>
    absurd (hwalk.symm.trans hl) (by simp)⟩))
  have hplaced := of_nexts slotEdge_frameReceive hrun
  exact absurd hplaced (by decide +kernel)

end Sys2Proof
end

section
/-! PROOFS. The code store, invalidation and retention (O50, R217 to R219, R303, R308 to R310). -/
namespace Sys2Proof
open Machine

/-! ## Waits of the sequencer -/

section
variable {s : State}

/-- No store of the core's is on its way at the scope, so a release at it does not wait (R88). -/
theorem run_waitFar {sc : BitVec 3} (h : s.noneFar sc) : waitFar sc s = .ok ((), s) := by
  obtain ⟨hpool, hhost, hpeer⟩ := h
  have hpeer : s.remote.any (fun r => s.core.made r.core r.agent r.task r.member) = false := by
    rw [List.any_eq_false]; simpa using hpeer
  have hhost : s.hostStores.any (fun p => s.core.made p.core p.agent p.task p.member) = false := by
    rw [List.any_eq_false]; simpa using hhost
  have hpool (f : PoolStore → Bool) : (decide (5 ≤ sc.toNat) &&
      s.poolStores.any (fun p => s.core.made p.core p.agent p.task p.member && f p)) = false := by
    by_cases hsc : 5 ≤ sc.toNat
    · rw [decide_eq_true hsc, Bool.true_and, List.any_eq_false]
      intro p hp
      rw [hpool hsc p hp, Bool.false_and]
      exact Bool.false_ne_true
    · rw [decide_eq_false hsc, Bool.false_and]
  simp only [waitFar, run_bind, run_get, run_ite, Bool.and_assoc, hpool, hhost, hpeer, Bool.false_eq_true, if_false, run_pure]

theorem run_inHandler {i : Instr} (h : s.core.hm = true) : inHandler i s = .ok ((), s) := by
  simp [inHandler, h]

/-! ## The code store -/

/-- `code.ld` of a range that the sequencer may execute (R308). -/
theorem run_codeLd {d a b : Reg} {t : State} {bs : List Byte} (hdet : s.core.det = false) (hq : s.core.quiet = true)
    (hf : s.noneFar 3) (hd : (s.core.rg d).toNat % 4 = 0) (ha : (s.core.rg a).toNat % 4 = 0) (hb : (s.core.rg b).toNat % 4 = 0)
    (h0 : s.core.rg b ≠ 0) (hw : s.inWindow s.core.partid (s.core.rg d).toNat (s.core.rg b).toNat = true)
    (hva : (s.core.rg a).toNat + (s.core.rg b).toNat ≤ 2 ^ 57)
    (hl : ∀ g ∈ granules (s.core.rg a).toNat (s.core.rg b).toNat, ∃ l, s.translation g = some l ∧ l.grants .rx = true)
    (hr : Does (acc (gRead (s.core.who true 3) (s.core.rg a).toNat (s.core.rg b).toNat .rx)) s bs t) :
    exec (.codeLd d a b) s = .next ((writeCode (clusterOf s.core.id) (s.core.rg d).toNat bs t).did 4 t.core) := by
  have hfault : codeFault s (s.core.who true 3) (s.core.rg a).toNat (s.core.rg b).toNat = none := by
    refine List.find?_eq_none.2 fun g hg => ?_
    obtain ⟨l, hl, hx⟩ := hl g hg
    rw [lookup_own (own_who s true 3), who_seq, hl]
    simp [hx]
  have hok : vaOk (s.core.rg a).toNat (s.core.rg b).toNat = true := decide_eq_true hva
  have hr : acc (gRead (s.core.who true 3) (s.core.rg a).toNat (s.core.rg b).toNat .rx) s = .ok (bs, t) := hr
  refine runSeq_ok (t := writeCode (clusterOf s.core.id) (s.core.rg d).toNat bs t) ?_
  have h0 : (s.core.rg b != 0) = true := bne_iff_ne.2 h0
  simp only [run_bind, run_noDet, hdet, Bool.false_eq_true, if_false, run_get, run_need, hd, ha, hb, decide_true, if_true, h0, hw,
    Bool.true_and, hok, run_waitQuiet, hq, run_waitFar hf, hfault, hr, run_modS, run_pure]

/-- `code.inv` (R309). -/
theorem run_codeInv {a b : Reg} (hdet : s.core.det = false) (ha : (s.core.rg a).toNat % 4 = 0) (hb : (s.core.rg b).toNat % 4 = 0)
    (h0 : s.core.rg b ≠ 0) (hw : s.inWindow s.core.partid (s.core.rg a).toNat (s.core.rg b).toNat = true) :
    exec (.codeInv a b) s = .next ((writeCode (clusterOf s.core.id) (s.core.rg a).toNat
      (List.replicate (s.core.rg b).toNat 0xFF) s).did 4 s.core) := by
  have h0 : (s.core.rg b != 0) = true := bne_iff_ne.2 h0
  refine runSeq_ok (t := writeCode _ _ _ s) ?_
  simp only [run_bind, run_noDet, hdet, Bool.false_eq_true, if_false, run_get, run_need, ha, hb, decide_true, if_true, h0, hw,
    Bool.true_and, run_modS, run_pure]

/-! ## Invalidation -/

/-- What an invalidation changes (R84, R213, R303). -/
theorem invalidate_eq (b n : Nat) : let u := invalidate s.core.partid b n s
    u = { s with core := u.core, others := u.others, saved := u.saved, channels := u.channels, cache := u.cache } ∧
    u.cache.l1 = s.cache.l1.filter (fun x =>
      !((s.findCore x.core).partid == s.core.partid && overlaps (64 * (x.va / 64)) 64 b n)) ∧
    u.core = { s.core with pins := u.core.pins, watch := u.core.watch } ∧
    u.core.pins = s.core.pins.map (fun p => { p with revoked := p.revoked || overlaps p.base.toNat p.len.toNat b n }) ∧
    u.core.watch = s.core.watch.map fun w => { w with fired := w.fired || overlaps (64 * w.line) 64 b n } := by
  have hpin : Pin.revoke b n = fun p => { p with revoked := p.revoked || overlaps p.base.toNat p.len.toNat b n } := by
    funext p
    cases h : overlaps p.base.toNat p.len.toNat b n <;> simp [Pin.revoke, h]
  have hcore : (invalidate s.core.partid b n s).core = { s.core with
      pins := s.core.pins.map (fun p => { p with revoked := p.revoked || overlaps p.base.toNat p.len.toNat b n })
      watch := s.core.watch.map fun w => { w with fired := w.fired || overlaps (64 * w.line) 64 b n } } := by
    show (s.core.revoke s.core.partid b n).lineGone s.core.partid b n = _
    rw [Core.revoke, if_pos rfl, hpin, Core.lineGone]
    cases hw : s.core.watch with
    | none => simp
    | some w => cases h : overlaps (64 * w.line) 64 b n <;> simp [h]
  intro u
  rw [show u.core = _ from hcore]
  exact ⟨by rw [← hcore]; rfl, rfl, rfl, rfl, rfl⟩

@[simp] theorem remote_invalidate (p : BitVec 5) (b n : Nat) : (invalidate p b n s).remote = s.remote := (rfl)
@[simp] theorem hostStores_invalidate (p : BitVec 5) (b n : Nat) : (invalidate p b n s).hostStores = s.hostStores := (rfl)

/-- `map.inv` at its start and, with stores of the device on their way, at each later try (R303). -/
theorem exec_mapInv {a b : Reg} (hm : s.core.hm = true) (hq : s.core.quiet = true) (hf : s.noneFar 3)
    (ha : (s.core.rg a).toNat % 16384 = 0) (hb : (s.core.rg b).toNat % 16384 = 0) (h0 : s.core.rg b ≠ 0)
    (hva : (s.core.rg a).toNat + (s.core.rg b).toNat ≤ 2 ^ 57) :
    let u := invalidate s.core.partid (s.core.rg a).toNat (s.core.rg b).toNat s
    let away : Prop := s.remote ≠ [] ∨ s.hostStores ≠ []
    (s.core.commit ≠ .mapInv →
      (¬ away → exec (.mapInv a b) s = .next (u.did 4 { u.core with commit := .none })) ∧
      (away → exec (.mapInv a b) s = .next { u with core := { u.core with commit := .mapInv, stall := 0 } })) ∧
    (s.core.commit = .mapInv →
      (¬ away → exec (.mapInv a b) s = .next (s.did 4 { s.core with commit := .none })) ∧
      (away → exec (.mapInv a b) s = .next s.waits)) := by
  intro u away
  have hok : vaOk (s.core.rg a).toNat (s.core.rg b).toNat = true := decide_eq_true hva
  have h0 : (s.core.rg b != 0) = true := bne_iff_ne.2 h0
  have hdone : (s.remote.isEmpty && s.hostStores.isEmpty) = true ↔ ¬ away := by simp [away]
  have hsteps (r : Except Stop (Flow × State)) (h : (do
      iff' (s.core.commit != .mapInv) (modS (invalidate s.core.partid (s.core.rg a).toNat (s.core.rg b).toNat))
      let t ← get
      let done := t.remote.isEmpty && t.hostStores.isEmpty
      if s.core.commit = .mapInv && !done then stopWith .wait
      modC fun c => { c with commit := if done then .none else .mapInv }
      return if done then .next else .stay : M Flow) s = r) : exec (.mapInv a b) s = .next (settle 4 r s) := by
    subst h
    show Host.Outcome.next (settle 4 _ s) = _
    simp only [run_bind, run_inHandler hm, run_getC, run_need, ha, hb, decide_true, h0, hok, Bool.and_self, if_true, run_waitQuiet,
      hq, run_waitFar hf]
  have hfirst (hc : s.core.commit ≠ .mapInv) : (s.core.commit != .mapInv) = true := bne_iff_ne.2 hc
  have hlater (hc : s.core.commit = .mapInv) : (s.core.commit != .mapInv) = false := by rw [hc]; rfl
  have hopen (haway : away) : (s.remote.isEmpty && s.hostStores.isEmpty) = false :=
    eq_false_of_ne_true fun h => hdone.1 h haway
  refine ⟨fun hc => ⟨fun haway => hsteps (.ok (.next, { u with core := { u.core with commit := .none } })) ?_,
      fun haway => hsteps (.ok (.stay, { u with core := { u.core with commit := .mapInv } })) ?_⟩,
    fun hc => ⟨fun haway => hsteps (.ok (.next, { s with core := { s.core with commit := .none } })) ?_,
      fun haway => hsteps (.error .wait) ?_⟩⟩
  · simp only [run_bind, run_iff', hfirst hc, if_true, run_modS, run_get, remote_invalidate, hostStores_invalidate, hdone.2 haway,
      hc, decide_false, Bool.false_and, Bool.false_eq_true, if_false, run_pure, run_modC]
    rfl
  · simp only [run_bind, run_iff', hfirst hc, if_true, run_modS, run_get, remote_invalidate, hostStores_invalidate, hopen haway,
      hc, decide_false, Bool.false_and, Bool.false_eq_true, if_false, run_pure, run_modC]
    rfl
  · simp only [run_bind, run_iff', hlater hc, run_get, hdone.2 haway, Bool.not_true, Bool.and_false, Bool.false_eq_true, if_false,
      run_pure, run_modC, if_true]
  · simp only [run_bind, run_iff', hlater hc, run_get, hopen haway, Bool.not_false, Bool.and_true, decide_eq_true hc,
      Bool.false_eq_true, if_false, if_true, run_stopWith]

/-! ## Retention -/

/-- A retention register set. -/
def withRetain (k : Nat) (r : Retain) (s : State) : State := { s with retain := vmod s.retain k fun _ => r }

/-- `dc.keep` takes the first free register of the die (R218). -/
theorem exec_dcKeep {a b : Reg} (ha : (s.core.rg a).toNat % 16384 = 0) (hb : (s.core.rg b).toNat % 16384 = 0)
    (h0 : s.core.rg b ≠ 0) (hlen : (s.core.rg b).toNat ≤ 2 ^ 40) (hva : (s.core.rg a).toNat + (s.core.rg b).toNat ≤ 2 ^ 57)
    {keep : Nat → Retain} (hkeep : keep = fun k => vget s.retain (16 * dieOf s.core.id + k) Retain.reset)
    (hover : ∀ k, k < 16 → ((keep k).en = true ∧ (keep k).part = s.core.partid) →
      overlaps (keep k).base.toNat ((keep k).gran.toNat * 16384) (s.core.rg a).toNat (s.core.rg b).toNat = false)
    (hquota : (List.range 16).countP (fun k => (keep k).en && (keep k).part == s.core.partid) <
      s.pg s.core.partid (0x60 + dieOf s.core.id) 1)
    {k : Nat} (hk : k < 16) (hfree : (keep k).en = false) (hfirst : ∀ j, j < k → (keep j).en = true) :
    exec (.dcKeep a b) s = .next ((withRetain (16 * dieOf s.core.id + k)
      ⟨true, s.core.rg a, s.core.partid, BitVec.ofNat 32 ((s.core.rg b).toNat / 16384)⟩ s).did 4 s.core) := by
  subst hkeep
  have hok : vaOk (s.core.rg a).toNat (s.core.rg b).toNat = true := decide_eq_true hva
  have h0 : (s.core.rg b != 0) = true := bne_iff_ne.2 h0
  have hfind : (List.range 16).find? (fun i => !(vget s.retain (16 * dieOf s.core.id + i) Retain.reset).en) = some k := by
    rw [List.find?_range_eq_some]
    exact ⟨by simp [hfree], List.mem_range.2 hk, fun j hj => by simp [hfirst j hj]⟩
  have hnone : ((List.range 16).filter fun i => (vget s.retain (16 * dieOf s.core.id + i) Retain.reset).en &&
      (vget s.retain (16 * dieOf s.core.id + i) Retain.reset).part == s.core.partid).any (fun i =>
        overlaps (vget s.retain (16 * dieOf s.core.id + i) Retain.reset).base.toNat
          ((vget s.retain (16 * dieOf s.core.id + i) Retain.reset).gran.toNat * 16384)
          (s.core.rg a).toNat (s.core.rg b).toNat) = false := by
    refine List.any_eq_false.2 fun i hi => ?_
    rw [List.mem_filter, List.mem_range, Bool.and_eq_true, beq_iff_eq] at hi
    rw [hover i hi.1 hi.2]
    exact Bool.false_ne_true
  rw [List.countP_eq_length_filter] at hquota
  refine runSeq_ok (t := withRetain (16 * dieOf s.core.id + k)
    ⟨true, s.core.rg a, s.core.partid, BitVec.ofNat 32 ((s.core.rg b).toNat / 16384)⟩ s) ?_
  simp only [run_bind, run_get, run_need, ha, hb, decide_true, h0, hlen, hok, Bool.and_self, if_true, hnone, Bool.not_false,
    hquota, hfind, run_modS, run_pure]
  rfl

/-- The registers that `dc.unpin` clears (R219). -/
def unpins (a : Reg) (c : Core) (k : Nat) (r : Retain) : Bool :=
  k / 16 == dieOf c.id && r.en && r.part == c.partid && r.base == c.rg a

theorem exec_dcUnpin (a : Reg) : exec (.dcUnpin a) s = .next ((unpin (unpins a s.core) s).did 4 s.core) := by
  have hrun : (do
      let c ← getC
      modS (unpin fun i r => i / 16 == dieOf c.id && r.en && r.part == c.partid && r.base == c.rg a)
      return .next : M Flow) s = .ok (.next, unpin (unpins a s.core) s) := rfl
  have hcore : (unpin (unpins a s.core) s).core = s.core := by unfold unpin; rfl
  have hdid := runSeq_ok (len := 4) hrun
  rw [hcore] at hdid
  exact hdid

theorem vget_unpin (gone : Nat → Retain → Bool) {k : Nat} (hk : k < 128) : vget (unpin gone s).retain k Retain.reset =
    if gone k (vget s.retain k Retain.reset) then Retain.reset else vget s.retain k Retain.reset := by
  simp [vget, unpin, hk]
end

end Sys2Proof
end

section
/-! PROOFS. Page migration (O50, R305 to R307): the copy of the flagged lines, and the operations of `mig.frz`. -/
namespace Sys2Proof
open Machine

/-! ## Fields and bytes -/

/-- A field inside the width of a vector is that of the number. -/
theorem fld_ofNat {w lo n : Nat} (v : Nat) (h : lo + n ≤ w) : fld (BitVec.ofNat w v) lo n = v / 2 ^ lo % 2 ^ n := by
  rw [fld, BitVec.toNat_ofNat, ← Nat.shiftRight_eq_div_pow]
  apply Nat.eq_of_testBit_eq
  intro i
  simp only [Nat.testBit_mod_two_pow, Nat.testBit_shiftRight]
  by_cases hi : i < n
  · simp [hi, show lo + i < w by omega]
  · simp [hi]

theorem leBytes_getElem (n : Nat) : ∀ v i (h : i < n),
    (leBytes n v)[i]'(by rwa [length_leBytes]) = BitVec.ofNat 8 (v / 256 ^ i) := by
  induction n with
  | zero => exact fun v i h => absurd h (Nat.not_lt_zero i)
  | succ n ih =>
    intro v i h
    cases i with
    | zero => rw [pow_zero, Nat.div_one]; rfl
    | succ i =>
      rw [pow_succ', ← Nat.div_div_eq_div_mul]
      exact ih (v / 256) i (by omega)

/-! ## Stores into the device's own memory and the pool -/

section
variable {w : Who} {pa : Nat} {bs : List Byte} {s : State}

/-- A store that is neither to a peer nor to the host: the bytes, and nothing of the banks and the code store. -/
theorem physStore_memories (he : isPeer pa = false) (hh : isHost pa = false) :
    (physStore w pa bs s).mem = memWrite s.mem pa bs ∧
    (physStore w pa bs s).bank = s.bank ∧ (physStore w pa bs s).code = s.code ∧
    (physStore w pa bs s).trackers = s.trackers.map (·.note pa bs.length) := by
  unfold physStore noteFar
  simp only [he, hh, Bool.or_self, Bool.false_eq_true, if_false]
  split <;> exact ⟨rfl, rfl, rfl, rfl⟩

/-- A read of a unit that is neither of a peer nor of the host. -/
theorem unitBytes_own {n : Nat} (he : isPeer pa = false) (hh : isHost pa = false) : s.unitBytes pa n = memRead s.mem pa n := by
  simp [State.unitBytes, State.ownBytes, State.physBytes, he, hh]

/-- Peers and the host have whole granules. -/
theorem isPeer_granule {x d : Nat} (hx : x % 16384 = 0) (hd : d < 16384) : isPeer (x + d) = isPeer x := by
  simp only [isPeer]
  congr 1 <;> simp only [decide_eq_decide] <;> omega
theorem isHost_granule {x d : Nat} (hx : x % 16384 = 0) (hd : d < 16384) : isHost (x + d) = isHost x := by
  simp only [isHost]
  congr 1 <;> simp only [decide_eq_decide] <;> omega
end

/-! ## The copy of the flagged lines (R306) -/

/-- One line copied. -/
def copyLine (old new : Nat) (s : State) (i : Nat) : State :=
  let bad := s.poison.contains ((old + 64 * i) / 64)
  let s := physStore (Who.unit 0) (new + 64 * i) (s.unitBytes (old + 64 * i) 64) s
  if bad then { s with poison := s.poison ++ [(new + 64 * i) / 64] } else s

theorem copyLines_eq (old new : Nat) (m : BitVec 256) (s : State) :
    copyLines old new m s = (mapLines m).foldl (copyLine old new) s := rfl

/-- Two pages for a copy: whole granules, neither of a peer nor of the host. -/
structure CopyPages (old new : Nat) : Prop where
  old_granule : old % 16384 = 0
  new_granule : new % 16384 = 0
  old_peer : isPeer old = false
  new_peer : isPeer new = false
  old_host : isHost old = false
  new_host : isHost new = false

/-- A memory after the copy of some lines of a page. -/
structure Copied (old new : Nat) (ls : List Nat) (s t : State) : Prop where
  wf : memWf t.mem = true
  bank : t.bank = s.bank
  code : t.code = s.code
  trackers : ∀ y ∈ t.trackers, ∃ z ∈ s.trackers, y.part = z.part ∧ y.va = z.va
  mem : ∀ y, memByte t.mem y =
    if new ≤ y ∧ y < new + 16384 ∧ (y - new) / 64 ∈ ls then memByte s.mem (old + (y - new)) else memByte s.mem y

theorem copyLine_memories {old new i : Nat} (h : CopyPages old new) (hi : i < 256) (s : State) :
    (copyLine old new s i).mem = memWrite s.mem (new + 64 * i) (memRead s.mem (old + 64 * i) 64) ∧
    (copyLine old new s i).bank = s.bank ∧ (copyLine old new s i).code = s.code ∧
    (copyLine old new s i).trackers = s.trackers.map (·.note (new + 64 * i) 64) := by
  have hd : 64 * i < 16384 := by omega
  have hold : s.unitBytes (old + 64 * i) 64 = memRead s.mem (old + 64 * i) 64 :=
    unitBytes_own ((isPeer_granule h.old_granule hd).trans h.old_peer) ((isHost_granule h.old_granule hd).trans h.old_host)
  have hstore := physStore_memories (w := Who.unit 0) (bs := memRead s.mem (old + 64 * i) 64) (s := s)
    ((isPeer_granule h.new_granule hd).trans h.new_peer) ((isHost_granule h.new_granule hd).trans h.new_host)
  rw [memRead_length] at hstore
  unfold copyLine
  rw [hold]
  dsimp only
  split <;> exact hstore

/-- One more line copied: the line of the old page still holds what it held, for the pages are one or do not meet. -/
theorem Copied.step {old new i : Nat} {ls : List Nat} {s t : State} (h : CopyPages old new) (hi : i < 256)
    (hc : Copied old new ls s t) : Copied old new (ls ++ [i]) s (copyLine old new t i) := by
  obtain ⟨hm, hb, hcd, htr⟩ := copyLine_memories h hi t
  obtain ⟨hwf, hbank, hcode, htrack, hmem⟩ := hc
  refine ⟨by rw [hm]; exact memWf_memWrite _ _ _ hwf, hb.trans hbank, hcd.trans hcode, fun y hy => ?_, fun y => ?_⟩
  · rw [htr] at hy
    obtain ⟨z, hz, rfl⟩ := List.mem_map.1 hy
    exact htrack z hz
  · have hls' (j : Nat) : j ∈ ls ++ [i] ↔ j ∈ ls ∨ j = i := by simp
    rw [hm]
    by_cases hin : new + 64 * i ≤ y ∧ y < new + 64 * i + 64
    · have hlen : y - (new + 64 * i) < (memRead t.mem (old + 64 * i) 64).length := by rw [memRead_length]; omega
      have hyeq : y = new + 64 * i + (y - (new + 64 * i)) := by omega
      have hline : (y - new) / 64 = i := by omega
      have hsrc : old + 64 * i + (y - (new + 64 * i)) = old + (y - new) := by omega
      rw [if_pos ⟨by omega, by omega, (hls' _).2 (.inr hline)⟩]
      conv_lhs => rw [hyeq]
      rw [memByte_memWrite_eq _ _ _ _ hlen, memRead_get _ hwf _ _ _ (by omega), hsrc, hmem]
      split
      · next hover =>
        obtain ⟨hg, hg'⟩ : old % 16384 = 0 ∧ new % 16384 = 0 := ⟨h.old_granule, h.new_granule⟩
        have hsame : old = new := by omega
        rw [hsame, show new + (new + (y - new) - new) = new + (y - new) by omega]
      · rfl
    · rw [memByte_memWrite_ne _ _ _ _ (by rw [memRead_length]; omega), hmem]
      have hline : new ≤ y ∧ y < new + 16384 → (y - new) / 64 ≠ i := fun hy heq => hin (by omega)
      by_cases hls : new ≤ y ∧ y < new + 16384 ∧ (y - new) / 64 ∈ ls
      · rw [if_pos hls, if_pos ⟨hls.1, hls.2.1, (hls' _).2 (.inl hls.2.2)⟩]
      · rw [if_neg hls, if_neg fun hc => hls ⟨hc.1, hc.2.1, ((hls' _).1 hc.2.2).resolve_right (hline ⟨hc.1, hc.2.1⟩)⟩]

/-- The flagged lines copied. -/
theorem copied_copyLines {old new : Nat} (h : CopyPages old new) (m : BitVec 256) {s : State} (hs : memWf s.mem = true) :
    Copied old new (mapLines m) s (copyLines old new m s) := by
  rw [copyLines_eq]
  have hall : ∀ i ∈ mapLines m, i < 256 := fun i hi => List.mem_range.1 (List.mem_filter.1 hi).1
  generalize mapLines m = ls at hall ⊢
  induction ls using List.reverseRecOn with
  | nil => exact ⟨hs, rfl, rfl, fun y hy => ⟨y, hy, rfl, rfl⟩, fun y => by simp⟩
  | append_singleton ls i ih =>
    rw [List.foldl_append, List.foldl_cons, List.foldl_nil]
    exact (ih fun j hj => hall j (List.mem_append_left _ hj)).step h (hall i (by simp))

theorem mem_mapLines {m : BitVec 256} {i : Nat} : i ∈ mapLines m ↔ m.getLsbD i = true := by
  unfold mapLines bit
  rw [List.mem_filter, List.mem_range]
  exact ⟨fun h => h.2, fun h => ⟨BitVec.lt_of_getLsbD h, h⟩⟩

/-! ## Trackers (R306) -/

/-- A tracker of a partition's granule. -/
def Tracks (p : BitVec 5) (g : Nat) (x : Tracker) : Prop := x.part = p ∧ x.va.toNat = g

theorem tracks_test {p : BitVec 5} {g : Nat} {x : Tracker} : (x.part == p && x.va.toNat == g) = true ↔ Tracks p g x := by
  simp [Tracks]

section
variable {p : BitVec 5} {g : Nat} {s : State}

theorem trackerOf_none (h : ∀ x ∈ s.trackers, ¬ Tracks p g x) : trackerOf s p g = none :=
  List.find?_eq_none.2 fun x hx => mt tracks_test.1 (h x hx)
theorem trackerOf_isSome (h : ∃ x ∈ s.trackers, Tracks p g x) : (trackerOf s p g).isSome = true := by
  obtain ⟨x, hx, ht⟩ := h
  exact List.find?_isSome.2 ⟨x, hx, tracks_test.2 ht⟩

variable {before after : List Tracker} {x : Tracker} (hs : s.trackers = before ++ x :: after) (hx : Tracks p g x)
  (hone : ∀ y ∈ before ++ after, ¬ Tracks p g y)
include hs hx hone

/-- The one tracker of a granule is found, and leaves the others when it is given up. -/
theorem trackerOf_only : trackerOf s p g = some x := by
  have hbefore : before.find? (fun t => t.part == p && t.va.toNat == g) = none :=
    List.find?_eq_none.2 fun y hy => mt tracks_test.1 (hone y (List.mem_append_left _ hy))
  rw [trackerOf, hs, List.find?_append, hbefore, Option.none_or, List.find?_cons, tracks_test.2 hx]

theorem dropTracker_only : dropTracker p g s = { s with trackers := before ++ after } := by
  have hkeep (l : List Tracker) (hl : ∀ y ∈ l, ¬ Tracks p g y) : l.filter (fun t => !(t.part == p && t.va.toNat == g)) = l :=
    List.filter_eq_self.2 fun y hy => by rw [eq_false_of_ne_true (mt tracks_test.1 (hl y hy))]; rfl
  rw [dropTracker, hs, List.filter_append, List.filter_cons, hkeep before fun y hy => hone y (List.mem_append_left _ hy),
    hkeep after fun y hy => hone y (List.mem_append_right _ hy), tracks_test.2 hx, if_neg (by decide)]

/-- A round clears the bits of the granule's tracker alone. -/
theorem migRound_only (n : Nat) : migRound x n s =
    (⟨some x.map, some ((n + 1) % 2 ^ 32), none⟩, { s with trackers := before ++ { x with map := 0 } :: after }) := by
  have hkeep (l : List Tracker) (hl : ∀ y ∈ l, ¬ Tracks p g y) :
      l.map (fun y => if y.part = x.part && y.va = x.va then { y with map := 0 } else y) = l := by
    refine (List.map_congr_left fun y hy => if_neg fun h => ?_).trans (List.map_id l)
    rw [Bool.and_eq_true, decide_eq_true_eq, decide_eq_true_eq] at h
    exact hl y hy ⟨h.1.trans hx.1, (congrArg BitVec.toNat h.2).trans hx.2⟩
  rw [migRound, hs, List.map_append, List.map_cons, hkeep before fun y hy => hone y (List.mem_append_left _ hy),
    hkeep after fun y hy => hone y (List.mem_append_right _ hy), if_pos (by simp)]
end

theorem not_tracks_dropTracker {p : BitVec 5} {g : Nat} {s : State} : ∀ y ∈ (dropTracker p g s).trackers, ¬ Tracks p g y := by
  intro y hy ht
  have hkept := (List.mem_filter.1 hy).2
  rw [tracks_test.2 ht] at hkept
  exact Bool.false_ne_true hkept

/-! ## The start -/

/-- A leaf that a migration takes: of level 3, in HBM4 or LPDDR6 (R306). -/
def Suits (l : Leaf) : Prop := l.level = 3 ∧ (isHbm l.pa = true ∨ isLp6 l.pa = true)
/-- No tracker is left for the partition (R306). -/
def TrackersFull (p : BitVec 5) (s : State) : Prop :=
  64 ≤ s.trackers.length ∨ s.pg p 0x6A 1 ≤ s.trackers.countP fun x => x.part == p

theorem suits_test {l : Leaf} : (l.level != 3 || !(isHbm l.pa || isLp6 l.pa)) = false ↔ Suits l := by
  cases hh : isHbm l.pa <;> cases hl : isLp6 l.pa <;> simp [Suits, hh, hl]
theorem trackersFull_test {p : BitVec 5} {s : State} :
    (64 ≤ s.trackers.length || s.pg p 0x6A 1 ≤ (s.trackers.filter (·.part == p)).length) = true ↔ TrackersFull p s := by
  simp [TrackersFull, List.countP_eq_length_filter]

section
variable {p : BitVec 5} {g : Nat} {s : State}

theorem migStart_unfit (h : ∀ l, s.walk p g = some l → ¬ Suits l) : migStart p g s = (⟨none, none, some 4⟩, s) := by
  unfold migStart
  split
  · rfl
  · next l hl => rw [if_pos (eq_true_of_ne_false (mt suits_test.1 (h l hl)))]

variable {l : Leaf} (hl : s.walk p g = some l) (hfit : Suits l)
include hl hfit

theorem migStart_tracked (h : ∃ x ∈ s.trackers, Tracks p g x) : migStart p g s = (⟨none, none, some 8⟩, s) := by
  simp only [migStart, hl, suits_test.2 hfit, trackerOf_isSome h]
  rfl
theorem migStart_full (h : ∀ x ∈ s.trackers, ¬ Tracks p g x) (hfull : TrackersFull p s) :
    migStart p g s = (⟨none, none, some 5⟩, s) := by
  simp only [migStart, hl, suits_test.2 hfit, trackerOf_none h, trackersFull_test.2 hfull]
  rfl
theorem migStart_made (h : ∀ x ∈ s.trackers, ¬ Tracks p g x) (hfull : ¬ TrackersFull p s) :
    migStart p g s = (⟨none, some 0, some 1⟩, { s with trackers := s.trackers ++
      [⟨p, dw g, BitVec.ofNat 52 l.entryAddr, l.entry, BitVec.ofNat 52 l.pa, 0⟩] }) := by
  simp only [migStart, hl, suits_test.2 hfit, trackerOf_none h, eq_false_of_ne_true (mt trackersFull_test.1 hfull)]
  rfl
end

/-! ## The commit -/

/-- The state of a commit: the flagged lines copied, the entry changed, the tracker given up (R306). -/
def committed (x : Tracker) (leaf : Nat) (s : State) : State :=
  dropTracker x.part x.va.toNat (dropLines x.part x.va.toNat 16384 (fireWatches x.page.toNat 16384 none
    (physStore (Who.unit x.part) x.leafAddr.toNat (leBytes 8 leaf)
      (copyLines x.page.toNat (leaf / 2 ^ 14 % 2 ^ 38 * 2 ^ 14) x.map s))))

section
variable {x : Tracker} {leaf : Nat} {s : State}

theorem migCommit_refused (h : leafValid s leaf = false ∨ s.phys8 x.leafAddr.toNat ≠ x.leaf.toNat) :
    migCommit x leaf s = (⟨none, none, some 4⟩, s) := by
  have htest : (!leafValid s leaf || s.phys8 x.leafAddr.toNat != x.leaf.toNat) = true := by
    rcases h with h | h
    · rw [h]; rfl
    · rw [bne_iff_ne.2 h, Bool.or_true]
  rw [migCommit, if_pos htest]

variable (hv : leafValid s leaf = true) (he : s.phys8 x.leafAddr.toNat = x.leaf.toNat)
include hv he

theorem migCommit_pinned (hp : pinnedAt s x.part x.va.toNat = true) : migCommit x leaf s = (⟨none, none, some 3⟩, s) := by
  simp [migCommit, hv, he, hp]
theorem migCommit_made (hp : pinnedAt s x.part x.va.toNat = false) :
    migCommit x leaf s = (⟨some x.map, none, some 2⟩, committed x leaf s) := by
  simp [migCommit, hv, he, hp, committed]
end

/-- The memories after a commit. -/
theorem committed_memories {x : Tracker} {leaf : Nat} {s : State} (h : CopyPages x.page.toNat (leaf / 2 ^ 14 % 2 ^ 38 * 2 ^ 14))
    (hs : memWf s.mem = true) (he : isPeer x.leafAddr.toNat = false) (hh : isHost x.leafAddr.toNat = false) :
    (committed x leaf s).bank = s.bank ∧ (committed x leaf s).code = s.code ∧ ∀ y, memByte (committed x leaf s).mem y =
      if x.leafAddr.toNat ≤ y ∧ y < x.leafAddr.toNat + 8 then BitVec.ofNat 8 (leaf / 256 ^ (y - x.leafAddr.toNat))
      else if leaf / 2 ^ 14 % 2 ^ 38 * 2 ^ 14 ≤ y ∧ y < leaf / 2 ^ 14 % 2 ^ 38 * 2 ^ 14 + 16384 ∧
        x.map.getLsbD ((y - leaf / 2 ^ 14 % 2 ^ 38 * 2 ^ 14) / 64) = true
      then memByte s.mem (x.page.toNat + (y - leaf / 2 ^ 14 % 2 ^ 38 * 2 ^ 14)) else memByte s.mem y := by
  obtain ⟨-, hbank, hcode, -, hmem⟩ := copied_copyLines h x.map hs
  obtain ⟨hsm, hsb, hsc, -⟩ := physStore_memories (w := Who.unit x.part) (bs := leBytes 8 leaf)
    (s := copyLines x.page.toNat (leaf / 2 ^ 14 % 2 ^ 38 * 2 ^ 14) x.map s) he hh
  refine ⟨hsb.trans hbank, hsc.trans hcode, fun y => ?_⟩
  show memByte (physStore _ _ _ _).mem y = _
  rw [hsm]
  split
  · next hin =>
    have hlen : y - x.leafAddr.toNat < 8 := by omega
    have hyeq : y = x.leafAddr.toNat + (y - x.leafAddr.toNat) := by omega
    conv_lhs => rw [hyeq]
    rw [memByte_memWrite_eq _ _ _ _ (by rwa [length_leBytes])]
    exact leBytes_getElem 8 leaf _ hlen
  · next hout =>
    rw [memByte_memWrite_ne _ _ _ _ (by rw [length_leBytes]; omega), hmem]
    simp only [mem_mapLines]

/-! ## The operations of `mig.frz` -/

section
variable {p : BitVec 5} {d : BitVec 512} {s : State} {x : Tracker} (h : trackerOf s p (migVa d) = some x)
include h

theorem migrate_round : migrate p 1 d s = migRound x (fld d 416 32) s := by simp [migrate, h]
theorem migrate_commit : migrate p 2 d s = migCommit x (fld d 64 64) s := by simp [migrate, h]
theorem migrate_abandon : migrate p 3 d s = (⟨none, none, some 6⟩, dropTracker p (migVa d) s) := by simp [migrate, h]
end

/-- A field of a record written, if the operation gives it. -/
def writeSome (w : Who) (x : Nat) : Option (List Byte) → M Unit
  | some bs => acc (gWrite w x bs)
  | none => pure ()

/-- What an operation writes into the record at `x` (R305). -/
def writeOut (w : Who) (x : Nat) (o : MigOut) : M Unit := do
  writeSome w (x + 16) (o.map.map fun m => leBytes 32 m.toNat)
  writeSome w (x + 52) (o.rounds.map (leBytes 4))
  writeSome w (x + 48) (o.state.map (leBytes 1))

theorem writeOut_ok {w : Who} {a : Nat} {o : MigOut} {u x : State} (h : Does (writeOut w a o) u () x) : ∃ y z,
    writeSome w (a + 16) (o.map.map fun m => leBytes 32 m.toNat) u = .ok ((), y) ∧
    writeSome w (a + 52) (o.rounds.map (leBytes 4)) y = .ok ((), z) ∧
    writeSome w (a + 48) (o.state.map (leBytes 1)) z = .ok ((), x) := by
  simp only [Does, writeOut, run_bind] at h
  split at h
  · next y hy =>
    split at h
    · next z hz => exact ⟨y, z, hy, hz, h⟩
    · cases h
  · cases h

/-- `mig.frz` reads its record, carries the operation out and writes its fields (R306). -/
theorem exec_migFrz {a b : Reg} {s t u x : State} {bs : List Byte} {o : MigOut} (hm : s.core.hm = true) (hq : s.core.quiet = true)
    (hf : s.noneFar 3) (ha : (s.core.rg a).toNat % 64 = 0) (hb : (s.core.rg b).toNat ≤ 3)
    (hr : Does (acc (gRead (s.core.who true 3) (s.core.rg a).toNat 64)) s bs t)
    (hp : Does (acc (gProbe (s.core.who true 3) .w (s.core.rg a).toNat 64)) t () t)
    (ho : migrate s.core.partid (s.core.rg b).toNat (leVec 512 bs) t = (o, u))
    (hw : Does (writeOut (s.core.who true 3) (s.core.rg a).toNat o) u () x) :
    exec (.migFrz a b) s = .next (x.did 4 x.core) := by
  have hr : acc (gRead (s.core.who true 3) (s.core.rg a).toNat 64) s = .ok (bs, t) := hr
  have hp : acc (gProbe (s.core.who true 3) .w (s.core.rg a).toNat 64) t = .ok ((), t) := hp
  obtain ⟨y, z, hmap, hrounds, hstate⟩ := writeOut_ok hw
  refine runSeq_ok (t := x) ?_
  simp only [run_bind, run_inHandler hm, run_getC, run_need, ha, hb, decide_true, if_true, run_waitQuiet, hq, run_waitFar hf,
    hr, hp, run_get, ho, run_set]
  obtain ⟨map, rounds, state⟩ := o
  cases map <;> cases rounds <;> cases state <;> simp_all [writeSome]

/-- Settles O50: each word by its rule above; the copy of a commit reads every line as it was, for two pages of whole granules
are one or do not meet. -/
theorem pageWords : Obligations.PageWords := by
  unfold Obligations.PageWords
  intro d a b s t bs c cv av bv die keep mine w
  refine ⟨fun hdet hq hf hd ha hb h0 hw hva hl hr => ?_, fun hdet ha hb h0 hw => ?_, fun hm hq hf ha hb h0 hva => ?_,
    fun hm hq hf ha hr hp => ?_, fun ha hb h0 hlen hva hover hquota k hk hfree hfirst => ?_, ?_⟩
  · exact run_codeLd hdet hq hf hd ha hb h0 hw hva hl hr
  · have h := run_codeInv hdet ha hb h0 hw
    rw [writeCode, List.length_replicate] at h
    exact h
  · obtain ⟨hfirst, hlater⟩ := exec_mapInv hm hq hf ha hb h0 hva
    exact ⟨hfirst, hlater, invalidate_eq av.toNat bv.toNat⟩
  · intro p rec_ g leaf new tracks ends suits full
    have hends {op : Nat} {u : State} {map rounds state} (hop : op ≤ 3)
        (ho : migrate c.partid op (leVec 512 bs) t = (⟨map, rounds, state⟩, u)) : ends op u map rounds state := by
      rintro rfl x hx
      refine exec_migFrz hm hq hf ha hop hr hp ho ?_
      cases map <;> cases rounds <;> cases state <;> exact hx
    have hva : migVa (leVec 512 bs) = g := by rw [migVa, leVec, fld_ofNat _ (by decide)]; rfl
    have hleaf : fld (leVec 512 bs) 64 64 = leaf := fld_ofNat _ (by decide)
    have hcount : fld (leVec 512 bs) 416 32 = rec_ / 2 ^ 416 % 2 ^ 32 := fld_ofNat _ (by decide)
    have hstart : migrate p 0 (leVec 512 bs) t = migStart p g t := by rw [migrate, if_pos rfl, hva]
    have hnone (hno : ∀ x ∈ t.trackers, ¬ tracks x) :
        ∀ op ∈ [1, 2, 3], migrate p op (leVec 512 bs) t = (⟨none, none, some 7⟩, t) := by
      intro op hop
      have h0 : op ≠ 0 := by rintro rfl; simp at hop
      rw [migrate, if_neg h0, hva, trackerOf_none hno]
    refine ⟨fun hun => hends (by decide) (hstart.trans (migStart_unfit hun)),
      fun l hl hfit => ⟨fun hx => ?_, fun hno => ⟨fun hfull => ?_, fun hfull => ?_⟩⟩, fun hno op hop => hends ?_ (hnone hno op hop),
      fun before after x hs hx hone => ?_⟩
    · exact hends (by decide) (hstart.trans (migStart_tracked hl hfit hx))
    · exact hends (by decide) (hstart.trans (migStart_full hl hfit hno hfull))
    · exact hends (by decide) (hstart.trans (migStart_made hl hfit hno hfull))
    · simp only [List.mem_cons, List.not_mem_nil, or_false] at hop
      omega
    · have hfound : trackerOf t p (migVa (leVec 512 bs)) = some x := by rw [hva]; exact trackerOf_only hs hx hone
      have hround := migrate_round hfound
      have hcommit := migrate_commit hfound
      have hdrop := migrate_abandon hfound
      rw [hcount] at hround
      rw [hleaf] at hcommit
      rw [hva, dropTracker_only hs hx hone] at hdrop
      refine ⟨hends (by decide) (hround.trans (migRound_only hs hx hone _)), hends (by decide) hdrop,
        fun hbad => hends (by decide) (hcommit.trans (migCommit_refused hbad)), fun hv he => ⟨fun hpin => ?_,
        fun hpin hok hpage hp hp' hp'' hh hh' hh'' => ?_⟩⟩
      all_goals rw [← hx.1, ← hx.2] at hpin
      · exact hends (by decide) (hcommit.trans (migCommit_pinned hv he hpin))
      · refine ⟨committed x leaf t, hends (by decide) (hcommit.trans (migCommit_made hv he hpin)), fun y hy ht => ?_,
          committed_memories ⟨hpage, Nat.mul_mod_left _ _, hp, hp', hh, hh'⟩ hok.1 hp'' hh''⟩
        exact not_tracks_dropTracker y hy ⟨ht.1.trans hx.1.symm, ht.2.trans hx.2.symm⟩
  · exact exec_dcKeep ha hb h0 hlen hva rfl hover hquota hk hfree hfirst
  · intro gone
    have hgone (k : Nat) : gone k = unpins a s.core k (vget s.retain k Retain.reset) := by
      rw [Bool.eq_iff_iff]
      simp [gone, unpins, and_assoc, die, c, av]
    refine ⟨_, _, exec_dcUnpin a, fun k hk => ?_, rfl, rfl, ?_⟩
    · rw [hgone]; exact vget_unpin _ hk
    · simp only [hgone]; rfl

end Sys2Proof
end

section
/-! PROOFS. A queue word that is routed and performed in one step (R14, R15, R104; the order of turns is log 7). -/
namespace Sys2Proof
open Machine

/-! ## Queues and tokens of a core -/

section
variable (c : Core) (q q' : Nat) (e : Entry)

@[simp] theorem queue_setQueue (l : List Entry) : (c.setQueue q l).queue q = l := by
  unfold Core.setQueue Core.queue
  split
  · rfl
  · split <;> rfl

/-- Every queue of a core with one of them set: the new list, or the old one. -/
theorem queue_setQueue_or (l : List Entry) : (c.setQueue q l).queue q' = l ∨ (c.setQueue q l).queue q' = c.queue q' := by
  unfold Core.setQueue Core.queue
  split_ifs <;> simp

/-- A queue set changes nothing but the queues. -/
theorem setQueue_frame (l : List Entry) : ∃ x y z, c.setQueue q l = { c with lq := x, mq := y, sq := z } := by
  unfold Core.setQueue
  split
  · exact ⟨_, _, _, rfl⟩
  · split <;> exact ⟨_, _, _, rfl⟩

/-- An entry that enters its queue: the queue, the counters and the replay window (R105, R338, R341). -/
theorem enqueue_frame : ∃ n m r d b x p w k, c.enqueue q e =
    { c.setQueue q (c.queue q ++ [e]) with
      counters := n, marker := m, retained := r, dirtyAcc := d, builtAcc := b, restored := x, performed := p, replayBase := w,
      check := k } := by
  unfold Core.enqueue
  dsimp only
  split <;> exact ⟨_, _, _, _, _, _, _, _, _, rfl⟩

theorem consume_frame (t : Tok) : ∃ a b d f, consume c q t = { c with lmUp := a, lmDn := b, msUp := d, msDn := f } := by
  unfold consume
  split
  · exact ⟨_, _, _, _, rfl⟩
  · split <;> exact ⟨_, _, _, _, rfl⟩

/-- What has performed is noted, and nothing else (R105). -/
theorem noteDone_frame (f read : Eff) (srS srN : Dword) : ∃ p, c.noteDone e f read srS srN = { c with performed := p } := by
  unfold Core.noteDone
  split
  · exact ⟨_, rfl⟩
  · split <;> exact ⟨_, rfl⟩
end

/-! ## Routing -/

section
variable {i : Instr} {s : State}

/-- The core and the state once the word is routed and the pc has passed it. -/
def routedCore (i : Instr) (s : State) : Core := (s.core.enqueue (queueOf i) (entryOf i s.core s.nextNum)).after 4 .next

def routedState (i : Instr) (s : State) : State := { s with core := routedCore i s, nextNum := s.nextNum + 1 }

theorem core_routedState (i : Instr) (s : State) : (routedState i s).core = routedCore i s := (rfl)

theorem routedCore_frame (i : Instr) (s : State) : ∃ x y z n m r d b o p w k a, routedCore i s =
    { s.core with
      lq := x, mq := y, sq := z, counters := n, marker := m, retained := r, dirtyAcc := d, builtAcc := b, restored := o,
      performed := p, replayBase := w, check := k, pc := a, stall := 0 } := by
  obtain ⟨n, m, r, d, b, o, p, w, k, he⟩ := enqueue_frame s.core (queueOf i) (entryOf i s.core s.nextNum)
  obtain ⟨x, y, z, hq⟩ := setQueue_frame s.core (queueOf i) (s.core.queue (queueOf i) ++ [entryOf i s.core s.nextNum])
  rw [hq] at he
  unfold routedCore
  rw [he]
  exact ⟨_, _, _, _, _, _, _, _, _, _, _, _, _, rfl⟩

theorem queue_routedCore (q : Nat) : (routedCore i s).queue q =
    (s.core.setQueue (queueOf i) (s.core.queue (queueOf i) ++ [entryOf i s.core s.nextNum])).queue q := by
  obtain ⟨n, m, r, d, b, o, p, w, k, he⟩ := enqueue_frame s.core (queueOf i) (entryOf i s.core s.nextNum)
  unfold routedCore
  rw [he]
  rfl

/-- The state in which the entry starts differs from the one before in the queues, the tokens, the counters, the replay window and
the pc. -/
theorem begun_frame (i : Instr) (s : State) : ∃ x y z n m r d b o p w k a u v f g, s.begun i = { s with
    nextNum := s.nextNum + 1, core := { s.core with
      lq := x, mq := y, sq := z, counters := n, marker := m, retained := r, dirtyAcc := d, builtAcc := b, restored := o,
      performed := p, replayBase := w, check := k, pc := a, stall := 0, lmUp := u, lmDn := v, msUp := f, msDn := g } } := by
  obtain ⟨x, y, z, n, m, r, d, b, o, p, w, k, a, hc⟩ := routedCore_frame i s
  obtain ⟨u, v, f, g, ht⟩ := consume_frame (routedCore i s) (queueOf i) i.tok
  obtain ⟨x', y', z', hq⟩ := setQueue_frame (consume (routedCore i s) (queueOf i) i.tok) (queueOf i)
    (s.entry i :: ((consume (routedCore i s) (queueOf i) i.tok).queue (queueOf i)).drop 1)
  refine ⟨x', y', z', n, m, r, d, b, o, p, w, k, a, u, v, f, g, ?_⟩
  show { s with core := (consume (routedCore i s) (queueOf i) i.tok).setHead (queueOf i) (s.entry i), nextNum := s.nextNum + 1 } = _
  unfold Core.setHead
  rw [hq, ht, hc]

variable (h : s.canRun i)
include h

theorem run_route : route i s = .ok (.next, { s with
    core := s.core.enqueue (queueOf i) (entryOf i s.core s.nextNum), nextNum := s.nextNum + 1 }) := by
  obtain ⟨-, -, hheld, htrap, hqueue, -⟩ := h
  have hroom : ¬ 32 ≤ (s.core.queue (queueOf i)).length := by rw [hqueue]; decide
  simp only [route, run_bind, run_get, hheld, htrap, Option.isSome_none, Bool.and_false, Bool.false_eq_true, if_false, hroom,
    run_modS, run_pure]

/-- The queue of the word holds its entry alone. -/
theorem queue_routed : (routedCore i s).queue (queueOf i) = [entryOf i s.core s.nextNum] := by
  obtain ⟨-, -, -, -, hqueue, -⟩ := h
  rw [queue_routedCore, queue_setQueue, hqueue]
  rfl

/-- Another head is not one that a pre-emption stopped. -/
theorem head_not_resumed {q : Nat} (hq : q ∈ [1, 2, 3]) {x : Entry} (hx : ((routedCore i s).queue q).head? = some x) :
    x.resumed = false := by
  obtain ⟨-, -, -, -, hqueue, -, -, -, -, hheads⟩ := h
  rw [queue_routedCore] at hx
  rcases queue_setQueue_or s.core (queueOf i) q (s.core.queue (queueOf i) ++ [entryOf i s.core s.nextNum]) with hnew | hold
  · rw [hnew, hqueue] at hx
    cases hx
    rfl
  · rw [hold] at hx
    exact hheads q hq x hx

theorem not_besideResumed {t : State} (ht : t.core = routedCore i s) (e : Entry) : besideResumed t (queueOf i) e = false := by
  refine List.any_eq_false.2 fun q hq => ?_
  rw [ht]
  cases hx : ((routedCore i s).queue q).head? with
  | none => simp
  | some x => simp [head_not_resumed h hq hx]

/-- No earlier entry is there to wait for in deterministic mode. -/
theorem not_interlocked {t : State} (ht : t.core = routedCore i s) :
    interlocked t (queueOf i) (entryOf i s.core s.nextNum) = false := by
  obtain ⟨-, -, -, -, hqueue, -, hdet, -⟩ := h
  obtain ⟨x, y, z, n, m, r, d, b, o, p, w, k, a, hc⟩ := routedCore_frame i s
  unfold interlocked
  rw [ht]
  refine Bool.and_eq_false_iff.2 (hdet.imp (fun hdet => ?_) fun hquiet => List.any_eq_false.2 fun q _ => ?_)
  · rw [hc]
    exact hdet
  · obtain ⟨hlq, hmq, hsq⟩ : s.core.lq = [] ∧ s.core.mq = [] ∧ s.core.sq = [] := by
      simpa [Core.quiet, and_assoc] using hquiet
    have hempty : s.core.queue q = [] := by
      unfold Core.queue
      split_ifs <;> assumption
    rw [queue_routedCore]
    rcases queue_setQueue_or s.core (queueOf i) q (s.core.queue (queueOf i) ++ [entryOf i s.core s.nextNum]) with hnew | hold
    · rw [hnew, hqueue]
      simp
    · rw [hold, hempty]
      simp

theorem startable_routed {t : State} (ht : t.core = routedCore i s) :
    t.startable (queueOf i) = some (entryOf i s.core s.nextNum) := by
  obtain ⟨-, -, hheld, htrap, -⟩ := id h
  obtain ⟨x, y, z, n, m, r, d, b, o, p, w, k, a, hc⟩ := routedCore_frame i s
  have hheld : t.core.held = none := by rw [ht, hc]; exact hheld
  have htrap : t.core.qtrap = none := by rw [ht, hc]; exact htrap
  have hqueue : t.core.queue (queueOf i) = [entryOf i s.core s.nextNum] := by rw [ht]; exact queue_routed h
  have hflight : (entryOf i s.core s.nextNum).flight = none := rfl
  simp [State.startable, hqueue, Core.isHeld, hheld, htrap, hflight, not_interlocked h ht, not_besideResumed h ht]

theorem waitOk_routed : waitOk (routedCore i s) (queueOf i) i.tok = true := by
  obtain ⟨-, -, -, -, -, hwait, -⟩ := h
  obtain ⟨x, y, z, n, m, r, d, b, o, p, w, k, a, hc⟩ := routedCore_frame i s
  rw [hc]
  exact hwait

theorem runHead_begun : runHead (queueOf i) (s.entry i) (s.begun i) = runEntry (queueOf i) (s.entry i) (s.begun i) := by
  obtain ⟨-, -, -, -, -, -, -, hinj, -⟩ := id h
  obtain ⟨x, y, z, n, m, r, d, b, o, p, w, k, a, u, v, f, g, hb⟩ := begun_frame i s
  have hinj : (s.begun i).core.injArray = false := by rw [hb]; exact hinj
  unfold runHead
  rw [hinj]
  rfl

/-- The entry performs as soon as the word is routed. -/
theorem startQueue_routed {u : State} (hu : runEntry (queueOf i) (s.entry i) (s.begun i) = some u) :
    startQueue (queueOf i) (routedState i s) = some u := by
  have hrun := (runHead_begun h).trans hu
  unfold startQueue
  rw [startable_routed h rfl]
  dsimp only
  rw [show (entryOf i s.core s.nextNum).waited = false from rfl, show (entryOf i s.core s.nextNum).tok = i.tok from rfl,
    core_routedState, waitOk_routed h, if_neg Bool.false_ne_true, if_neg (by decide)]
  change (match runHead (queueOf i) (s.entry i) (s.begun i) with | some u => some u | none => _) = some u
  rw [hrun]

theorem routed_eq : routed i s =
    .next (if s.eager then (startQueue (queueOf i) (routedState i s)).getD (routedState i s) else routedState i s) := by
  unfold routed
  rw [run_route h]
  rfl

/-- The word is routed and its entry performed, all in one step. -/
theorem exec_routed (hi : exec i s = routed i s) {u : State} (hu : runEntry (queueOf i) (s.entry i) (s.begun i) = some u) :
    exec i s = .next u := by
  have heager : s.eager = true := h.1
  rw [hi, routed_eq h, startQueue_routed h hu, heager, if_pos rfl, Option.getD_some]

/-- An entry that is done completes, if its sends and its stores let it. -/
theorem completes_of_done (hi : exec i s = routed i s) {f : Eff} {t : State}
    (hp : perform (s.entry i) (s.begun i) = .ok (.done f, t)) : s.completes i t f := by
  intro hsend hfar
  obtain ⟨x, y, z, n, m, r, d, b, o, p, w, k, a, u, v, e, g, hb⟩ := begun_frame i s
  obtain ⟨done, hdone⟩ := noteDone_frame t.core (s.entry i) f ((s.entry i).reads (s.begun i).core) s.core.srS s.core.srN
  have hsr : (s.begun i).core.srS = s.core.srS ∧ (s.begun i).core.srN = s.core.srN := by rw [hb]; exact ⟨rfl, rfl⟩
  refine exec_routed h hi ?_
  have hread : (if (s.entry i).started then (s.entry i).read else (s.entry i).reads (s.begun i).core) =
    (s.entry i).reads (s.begun i).core := if_neg Bool.false_ne_true
  unfold runEntry
  rw [hp]
  dsimp only
  rw [hread, hsr.1, hsr.2]
  have hcan : State.canComplete { t with core := { t.core with performed := done } } (queueOf i) (s.entry i) = true :=
    Bool.and_eq_true_iff.2 ⟨hsend, congrArg (!·) hfar⟩
  unfold State.ran
  rw [hdone, if_pos hcan]

/-- An entry that has done some of its units stays at the head. -/
theorem exec_routed_part (hi : exec i s = routed i s) {p : Nat} {t : State} (h0 : p ≠ 0)
    (hp : perform (s.entry i) (s.begun i) = .ok (.part p, t)) : 
    let left : Entry := { s.entry i with started := true, progress := p, read := (s.entry i).reads (s.begun i).core }
    exec i s = .next { t with core := t.core.setHead (queueOf i) left } := by
  refine exec_routed h hi ?_
  unfold runEntry
  rw [hp]
  have hstarted : ((s.entry i).started && p = (s.entry i).progress) = false := rfl
  have hprogress : ¬ p = (s.entry i).progress := h0
  dsimp only
  rw [hstarted, if_neg Bool.false_ne_true, if_neg hprogress]
  rfl

end

end Sys2Proof
end

section
/-! PROOFS. Update streams in the sequencer and in the store queue (O55, R200 to R207, R246 to R252). -/
namespace Sys2Proof
open Machine

/-! ## What the Tumbler leaves (R204 to R206) -/

/-- A step that fires watches at most, of all that the core holds, and leaves the pool regions. -/
structure Calm (s t : State) : Prop where
  core : ∃ w, t.core = { s.core with watch := w }
  pools : t.pools = s.pools

namespace Calm
variable {s t u : State}

theorem refl (s : State) : Calm s s := ⟨⟨_, rfl⟩, rfl⟩
theorem trans (h : Calm s t) (h' : Calm t u) : Calm s u := by
  obtain ⟨⟨w, hw⟩, hp⟩ := h
  obtain ⟨⟨v, hv⟩, hq⟩ := h'
  exact ⟨⟨v, by rw [hv, hw]⟩, hq.trans hp⟩
/-- Steps one after the other. -/
theorem foldl {α : Type} {f : State → α → State} (hf : ∀ x a, Calm x (f x a)) (l : List α) (s : State) : Calm s (l.foldl f s) := by
  induction l generalizing s with
  | nil => exact refl s
  | cons a l ih => exact (hf s a).trans (ih _)
end Calm

theorem calm_fireWatches (a n : Nat) (by' : Option (BitVec 11)) (s : State) : Calm s (fireWatches a n by' s) := by
  refine ⟨?_, rfl⟩
  show ∃ w, (if by' = some s.core.id then s.core else s.core.noteWrite a n) = _
  unfold Core.noteWrite
  repeat' split
  all_goals exact ⟨_, rfl⟩

theorem calm_noteRemote (w : Who) (pa : Nat) (bs : List Byte) (s : State) : Calm s (noteRemote w pa bs s) := by
  unfold noteRemote sendNow
  dsimp only
  split
  · exact ⟨⟨_, rfl⟩, rfl⟩
  · exact ⟨⟨_, rfl⟩, rfl⟩

theorem calm_noteFar (w : Who) (pa : Nat) (bs : List Byte) (s : State) : Calm s (noteFar w pa bs s) := by
  unfold noteFar
  dsimp only
  split
  · exact ⟨⟨_, rfl⟩, rfl⟩
  · split
    · exact ⟨⟨_, rfl⟩, rfl⟩
    · split
      · exact .foldl (fun x c => calm_noteRemote w _ _ x) _ s
      · exact .refl s

theorem calm_physStore (w : Who) (pa : Nat) (bs : List Byte) (s : State) : Calm s (physStore w pa bs s) := by
  unfold physStore
  split
  · exact calm_noteFar w pa bs s
  · refine .trans ?_ (calm_noteFar w pa bs _)
    obtain ⟨hcore, hpools⟩ := calm_fireWatches pa bs.length (if w.seq then some w.core else none) s
    exact ⟨hcore, hpools⟩

theorem calm_setRegion (r : Region) (s : State) : Calm s (setRegion r s) := ⟨⟨_, rfl⟩, rfl⟩

theorem calm_spillWrite (r : Region) (va : Nat) (bs : List Byte) (s : State) : Calm s (spillWrite r va bs s) :=
  .foldl (fun x _ => calm_physStore _ _ _ x) _ s

theorem calm_applyKey (r : Region) (ps : List Pair) (bad : List Nat) (x : State × Flags) (k : Nat) :
    Calm x.1 (applyKey r ps bad x k).1 := by
  obtain ⟨s, fl⟩ := x
  have hstore (pa : Nat) (bs : List Byte) := calm_physStore (Who.unit r.part) pa bs s
  unfold applyKey
  dsimp only
  split
  · exact ⟨(hstore _ _).core, (hstore _ _).pools⟩
  · exact hstore _ _

theorem calm_applyHeld (slot : Nat) (s : State) : Calm s (applyHeld slot s) := by
  have hkeys (r : Region) (ps : List Pair) (bad : List Nat) (ks : List Nat) (x : State × Flags) :
      Calm x.1 (ks.foldl (applyKey r ps bad) x).1 := by
    induction ks generalizing x with
    | nil => exact .refl _
    | cons k ks ih => exact (calm_applyKey r ps bad x k).trans (ih _)
  unfold applyHeld
  split
  · exact .refl s
  · next r _ =>
    dsimp only
    split
    · exact .refl s
    · exact (hkeys r _ _ _ (s, 0)).trans ((calm_setRegion _ _).trans (calm_physStore _ _ _ _))

theorem calm_arrive (slot : Nat) (p : Pair) (s : State) : Calm s (arrive slot p s).2 := by
  unfold arrive
  split
  · exact .refl s
  · next r _ =>
    split
    · exact .refl s
    · dsimp only
      split
      · exact calm_setRegion _ s
      · split
        · exact (calm_spillWrite r _ _ s).trans ((calm_spillWrite r _ _ _).trans (calm_setRegion _ _))
        · split
          · obtain ⟨hcore, hpools⟩ := calm_applyHeld slot s
            exact ⟨hcore, hpools⟩
          · exact calm_setRegion _ s

theorem calm_arriveEach (slot : Nat) (ps : List Pair) (s : State) : Calm s (arriveEach slot ps s) := by
  refine .foldl (fun x p => ?_) ps s
  obtain ⟨hcore, hpools⟩ := calm_arrive slot p x
  dsimp only
  split <;> exact ⟨hcore, hpools⟩

theorem calm_arriveAll (slot : Nat) (s : State) : Calm s (arriveAll slot s) := by
  unfold arriveAll
  split
  · exact .refl s
  · exact (calm_setRegion _ s).trans (calm_arriveEach _ _ _)

theorem calm_applyFrom (n slot : Nat) (s : State) : Calm s (applyFrom n slot s) := by
  induction n generalizing s with
  | zero => exact .refl s
  | succ n ih =>
    unfold applyFrom
    split
    · exact .refl s
    · split
      · exact calm_applyHeld slot s
      · exact (calm_applyHeld slot s).trans ((calm_arriveAll slot _).trans (ih _))

theorem calm_applyRegion (slot : Nat) (s : State) : Calm s (applyRegion slot s) :=
  (calm_arriveAll slot s).trans (calm_applyFrom _ slot _)

theorem calm_settlePairs (slot : Nat) (s : State) : Calm s (settlePairs slot s) := by
  unfold settlePairs
  dsimp only
  split
  · exact (calm_arriveAll slot s).trans (calm_applyRegion slot _)
  · exact calm_arriveAll slot s

/-- Whether a region is lost depends on the pool regions alone (R240). -/
theorem lost_of_pools {s t : State} (h : t.pools = s.pools) (r : Region) : r.lost t = r.lost s := by
  unfold Region.lost State.poolLost State.poolAt
  rw [h]

/-! ## The hand-over to the Tumbler (R241, R342) -/

theorem core_sendMsix (f v : Nat) (s : State) : (sendMsix f v s).core = s.core := by
  unfold sendMsix
  split
  · rfl
  · split <;> rfl

theorem core_raiseDint (b : Nat) (s : State) : (raiseDint b s).core = s.core := by
  unfold raiseDint
  dsimp only
  split
  · rfl
  · split
    · exact core_sendMsix _ _ _
    · rfl

theorem core_logEvent (code : Nat) (dev : Bool) (part : BitVec 5) (detail whereId : Nat) (s : State) :
    (logEvent code dev part detail whereId s).core = s.core := by
  unfold logEvent
  dsimp only
  split
  · rfl
  · split
    · exact core_raiseDint _ _
    · exact core_raiseDint _ _

/-- A command handed over leaves of the core all but the injected mismatch and its counter. -/
theorem core_handedOver (s : State) : ∃ n b, s.handedOver.core = { s.core with counters := n, injClap := b } := by
  unfold State.handedOver
  split
  · exact ⟨_, _, core_logEvent ..⟩
  · exact ⟨_, _, rfl⟩
theorem handedOver_eq {s : State} (h : s.core.injClap = false) : s.handedOver = s := by
  rw [State.handedOver, if_neg (by rw [h]; exact Bool.false_ne_true)]
@[simp] theorem run_engineCommand (s : State) : engineCommand s = .ok ((), s.handedOver) := (rfl)

/-! ## Regions of the table (R247, R248) -/

/-- A lookup finds the region, one that is open and not being replaced (R248). -/
def Finds (s : State) (base : Nat) (r : Region) : Prop :=
  regionAt s base = some r ∧ r.inside s.core.id = true ∧ r.closed = false ∧ r.replacing = 0

/-- A region of the table changed. -/
def changedIn (s : State) (slot : Nat) (f : Region → Region) : State :=
  { s with regions := s.regions.map fun q => if q.slot = slot then f q else q }

@[simp] theorem run_modRegion (slot : Nat) (f : Region → Region) (s : State) :
    modRegion slot f s = .ok ((), changedIn s slot f) := (rfl)

theorem run_lookupRegion {s : State} {base : Nat} {r : Region} (h : Finds s base r) (tval : Dword) :
    lookupRegion base tval s = .ok (r, s) := by
  obtain ⟨hat, hin, hclosed, hreplacing⟩ := h
  simp [lookupRegion, hat, hin, hclosed, hreplacing]

theorem run_notLost {s : State} {r : Region} (h : r.lost s = false) : notLost r s = .ok ((), s) := by
  simp [notLost, h]
theorem run_notLost_lost {s : State} {r : Region} (h : r.lost s = true) :
    notLost r s = .error (.fatal 0x33 (wrapN r.base)) := by
  rw [notLost, run_bind, run_get]
  dsimp only
  rw [h, if_pos rfl]
  rfl

/-! ## Emission (R202, R249) -/

/-- An emitter's name in its pairs (R202). -/
def emitterOf (c : Core) : BitVec 16 := if c.det then c.teamid.setWidth 16 else c.id.setWidth 16

/-- One pair sent, with the emitter's next number (R202, R249); the model may let it arrive at once (log 7). -/
def sentTo (slot : Nat) (em : BitVec 16) (who key val : Nat) (y : State) : State :=
  let z := changedIn { y with core := { y.core with seqctr := y.core.seqctr + 1 } } slot fun q => { q with
    transit := q.transit ++ [⟨BitVec.ofNat 32 key, BitVec.ofNat 32 val, em, y.core.seqctr, who⟩] }
  if y.eager then arriveAll slot z else z

theorem run_emitPair (slot owner key val : Nat) (s : State) : emitPair slot owner key val none s =
    .ok (!outstanding slot owner (sentTo slot (emitterOf s.core) owner key val s),
      sentTo slot (emitterOf s.core) owner key val s) := by
  unfold emitPair sentTo
  cases h : s.eager
  · simp [h, changedIn, emitterOf]
  · simp [h, changedIn, emitterOf]

theorem emitterOf_sentTo (slot : Nat) (em : BitVec 16) (who key val : Nat) (y : State) :
    emitterOf (sentTo slot em who key val y).core = emitterOf y.core := by
  unfold sentTo
  dsimp only
  split
  · obtain ⟨⟨w, hw⟩, -⟩ := calm_arriveAll slot _
    rw [hw]
    rfl
  · rfl

end Sys2Proof
end

section
/-! PROOFS. The words of update streams (O55, R200 to R207, R246 to R252). -/
namespace Sys2Proof
open Machine

theorem fld_eq {w lo n : Nat} (x : BitVec w) (h : lo + n ≤ w) : fld x lo n = x.toNat / 2 ^ lo % 2 ^ n := by
  rw [← fld_ofNat _ h, BitVec.ofNat_toNat, BitVec.setWidth_eq]

/-- A word that completes with a core of its own. -/
theorem runSeq_newCore {m : M Flow} {s y : State} {c : Core} (h : m s = .ok (.next, { y with core := c })) :
    runSeq 4 m s = .next (y.did 4 c) := runSeq_ok h

/-! ## `upd.s` (R248, R249) -/

theorem core_tagEmission {r : Region} {w : Who} {v : Dword} {s t : State} (h : Does (tagEmission r w v) s () t) :
    t.core = s.core := by
  unfold Does tagEmission at h
  split at h
  · cases h
    rfl
  · simp only [run_bind, run_need] at h
    split at h
    · next hok =>
      split at hok
      · cases hok
        cases h
        rfl
      · cases hok
    · cases h

section
variable {a b : Reg} {sc : BitVec 3} {s t : State} {r : Region}

/-- The sequencer's number among the emitters' pairs. -/
def seqOwner (c : Core) : Nat := 2 * c.id.toNat + 1

/-- `upd.s` holds its region, sends its pair, and gives the region free once the pair is accepted. -/
theorem exec_updS (hc : ∀ n, s.core.commit ≠ .updS n) (hf : Finds s (s.core.rg a).toNat r)
    (hk : (s.core.rg b).toNat / 2 ^ 32 < r.size) (hfar : s.noneFar (maxScope sc r.scope))
    (ht : Does (tagEmission r (s.core.who true sc) (s.core.rg a)) s () t) :
    let y := sentTo r.slot (emitterOf s.core) (seqOwner s.core) ((s.core.rg b).toNat / 2 ^ 32) ((s.core.rg b).toNat % 2 ^ 32)
      (changedIn t r.slot (·.hold s.core true (seqOwner s.core) 0)).handedOver
    exec (.updS a b sc) s = .next (if outstanding r.slot (seqOwner s.core) y then
      { y with core := { y.core with commit := .updS r.slot, stall := 0 } }
      else (changedIn y r.slot (·.unhold s.core true)).did 4 { y.core with commit := .none }) := by
  intro y
  have hkey : fld (s.core.rg b) 32 32 = (s.core.rg b).toNat / 2 ^ 32 := by
    rw [fld_eq _ (by decide)]
    have := (s.core.rg b).isLt
    omega
  have hval : fld (s.core.rg b) 0 32 = (s.core.rg b).toNat % 2 ^ 32 := by rw [fld_eq _ (by decide), pow_zero, Nat.div_one]
  have hem : emitterOf (changedIn t r.slot (·.hold s.core true (2 * s.core.id.toNat + 1) 0)).handedOver.core =
      emitterOf s.core := by
    obtain ⟨n, i, hh⟩ := core_handedOver (changedIn t r.slot (·.hold s.core true (2 * s.core.id.toNat + 1) 0))
    rw [hh, ← core_tagEmission ht]
    rfl
  have ht : tagEmission r (s.core.who true sc) (s.core.rg a) s = .ok ((), t) := ht
  have hrun (x : Except Stop (Flow × State)) (hx : (if !outstanding r.slot (seqOwner s.core) y then
      (.ok (.next, { changedIn y r.slot (·.unhold s.core true) with core := { y.core with commit := .none } }))
      else .ok (.stay, { y with core := { y.core with commit := .updS r.slot } })) = x) : updOne a b sc s = x := by
    unfold updOne
    rw [run_bind, run_get]
    dsimp only
    cases hn : s.core.commit with
    | updS n => exact absurd hn (hc n)
    | _ =>
      simp only [run_bind, run_lookupRegion hf, hkey, hval, run_need, hk, decide_true, if_true, run_waitFar hfar, ht,
        run_modRegion, run_engineCommand, run_emitPair, hem, run_ite, run_modC, run_pure]
      exact hx
  show Host.Outcome.next (settle 4 (updOne a b sc s) s) = _
  split
  · next h => rw [hrun _ (if_neg (by rw [h]; decide))]; rfl
  · next h => rw [hrun _ (if_pos (by rw [eq_false_of_ne_true h]; rfl))]; rfl

/-- `upd.s` whose pair was not accepted waits for that. -/
theorem exec_updS_later {n : Nat} (hc : s.core.commit = .updS n) : exec (.updS a b sc) s =
    .next (if outstanding n (seqOwner s.core) s then s.waits
      else (changedIn s n (·.unhold s.core true)).did 4 { s.core with commit := .none }) := by
  show Host.Outcome.next (settle 4 (updOne a b sc s) s) = _
  have hrun : updOne a b sc s = if outstanding n (seqOwner s.core) s then .error .wait
      else .ok (.next, { changedIn s n (·.unhold s.core true) with core := { s.core with commit := .none } }) := by
    unfold updOne
    simp only [run_bind, run_get, hc, run_ite, run_stopWith, run_modRegion, run_modC, run_pure]
    rfl
  rw [hrun]
  split <;> rfl
end

/-! ## `upd.flags` and `upd.drain` (R207, R252) -/

section
variable {d a : Reg} {sc : BitVec 3} {s t : State} {r : Region}

theorem exec_updFlags_lost (hf : Finds s (s.core.rg a).toNat r) (hl : r.lost s = true) :
    exec (.updFlags d a sc) s = .next (endContext 0x33 s.core.pc (wrapN r.base) s.core.id s) :=
  runSeq_error (x := .fatal 0x33 (wrapN r.base)) (by
    simp only [readFlags, run_bind, run_getC, run_lookupRegion hf, run_notLost_lost hl])

/-- A read of the flags applies the region and gives its status. -/
theorem exec_updFlags (hf : Finds s (s.core.rg a).toNat r) (hl : r.lost s = false)
    (ht : Does (acc (trigger (s.core.who true 0) (s.core.rg a).toNat (r.phys r.base) 1)) s () t) :
    let y := applyRegion r.slot t
    exec (.updFlags d a sc) s = .next (y.wrote 4 d (((y.regions.find? (·.slot == r.slot)).map (·.status)).getD 0)) := by
  have ht : acc (trigger (s.core.who true 0) (s.core.rg a).toNat (r.phys r.base) 1) s = .ok ((), t) := ht
  intro y
  exact runSeq_ok (t := { y with core := y.core.setG d _ }) (by
    simp only [readFlags, run_bind, run_getC, run_lookupRegion hf, run_notLost hl, ht, run_modS, run_get, run_wG, run_pure]
    rfl)

/-- An emission still holds the declaration: a pair of it is not sent, or not accepted (R248). -/
def Holding (r : Region) : Prop := ∃ h ∈ r.holds, h.left ≠ 0 ∨ ∃ p ∈ r.transit ++ r.waiting, p.owner = h.owner

theorem held'_iff : r.held' = true ↔ Holding r := by
  simp [Region.held', Holding, or_assoc, or_and_right, exists_or]

/-- The rest of a drain, once the pairs on their way are settled (R252). -/
theorem run_drainRest {slot : Nat} {x : State} {z : Region} (hx : settlePairs slot s = x)
    (hz : x.regions.find? (·.slot == slot) = some z) :
    (¬ (z.closed = true ∧ Holding z) → z.lost x = true → drainRest slot s = .error (.fatal 0x33 (wrapN z.base))) ∧
    (z.closed = false → z.lost x = false → drainRest slot s = .ok (.next,
      { applyRegion slot x with core := { (applyRegion slot x).core with commit := .none } })) ∧
    (z.closed = true → ¬ Holding z → z.lost x = false → drainRest slot s = .ok (.next,
      let w := { applyRegion slot x with regions := (applyRegion slot x).regions.filter (·.slot != slot) }
      { w with core := { (applyRegion slot x).core with commit := .none } })) ∧
    (z.closed = true → Holding z → drainRest slot s = .ok (.hold x.core.busyMask, x)) := by
  have hheld (hh : ¬ Holding z) : z.held' = false := eq_false_of_ne_true (mt held'_iff.1 hh)
  have hwait : (z.closed && z.held') = true ↔ z.closed = true ∧ Holding z := by rw [Bool.and_eq_true, held'_iff]
  refine ⟨fun hgo hl => ?_, fun hc hl => ?_, fun hc hh hl => ?_, fun hc hh => ?_⟩
  · simp only [drainRest, run_bind, run_modS, hx, run_get, hz, run_ite, eq_false_of_ne_true (mt hwait.1 hgo), Bool.false_eq_true,
      if_false, run_notLost_lost hl]
  · simp only [drainRest, run_bind, run_modS, hx, run_get, hz, run_ite, hc, Bool.false_and, Bool.false_eq_true, if_false,
      run_notLost hl, run_iff', run_modC, run_pure]
  · simp only [drainRest, run_bind, run_modS, hx, run_get, hz, run_ite, hc, hheld hh, Bool.and_false, Bool.false_eq_true, if_false,
      run_notLost hl, run_iff', if_true, run_modC, run_pure]
  · simp only [drainRest, run_bind, run_modS, hx, run_get, hz, run_ite, hwait.2 ⟨hc, hh⟩, if_true, run_pure]

/-- A drain that goes on does what is left of it. -/
theorem run_drainRegion_later {slot : Nat} (hc : s.core.commit = .updDrain slot) : drainRegion a sc s = drainRest slot s := by
  simp only [drainRegion, run_bind, run_getC, hc]

section
variable (hc : ∀ n, s.core.commit ≠ .updDrain n) (hva : (s.core.rg a).toNat < 2 ^ 57)
  (hlow : (s.core.rg a).toNat / 2 % 32 = 0)
  (hf : Finds s ((s.core.rg a).toNat / 64 * 64) r)
include hc hva hlow hf

omit hc hf in
/-- The fields of the address: its upper bits, the bits of its line, the base (R252). -/
theorem drain_fields : fld (s.core.rg a) 57 7 = 0 ∧ fld (s.core.rg a) 1 5 = 0 ∧
    fld (s.core.rg a) 6 51 * 64 = (s.core.rg a).toNat / 64 * 64 := by
  rw [fld_eq _ (by decide), fld_eq _ (by decide), fld_eq _ (by decide)]
  omega

/-- A drain judges its region and starts (R252). -/
theorem run_drainRegion (hl : r.lost s = false) {hits : List Region}
    (hh : Does (acc (triggered (s.core.who true sc) r.base (r.phys r.base) 1)) s hits s) (hfar : s.noneFar (maxScope sc r.scope)) :
    let v := if (s.core.rg a).getLsbD 0 then changedIn s r.slot fun q => { q with closed := true } else s
    drainRegion a sc s = drainRest r.slot { v with core := { v.core with commit := .updDrain r.slot } } := by
  have hh : acc (triggered (s.core.who true sc) r.base (r.phys r.base) 1) s = .ok (hits, s) := hh
  obtain ⟨hup, hline, hbase⟩ := drain_fields hva hlow
  intro v
  unfold drainRegion
  rw [run_bind, run_getC]
  dsimp only
  cases hn : s.core.commit with
  | updDrain n => exact absurd hn (hc n)
  | _ =>
    simp only [run_bind, run_need, hup, hline, hbase, decide_true, if_true, run_lookupRegion hf, run_notLost hl, hh,
      run_waitFar hfar, run_iff', run_modRegion, bit, run_modC]
    by_cases hb : (s.core.rg a).getLsbD 0 = true
    · simp only [v, hb, if_true]
    · simp only [v, hb, Bool.false_eq_true, if_false]

theorem run_drainRegion_lost (hl : r.lost s = true) : drainRegion a sc s = .error (.fatal 0x33 (wrapN r.base)) := by
  obtain ⟨hup, hline, hbase⟩ := drain_fields hva hlow
  unfold drainRegion
  rw [run_bind, run_getC]
  dsimp only
  cases hn : s.core.commit with
  | updDrain n => exact absurd hn (hc n)
  | _ =>
    simp only [run_bind, run_need, hup, hline, hbase, decide_true, if_true, run_lookupRegion hf, run_notLost_lost hl]
end

/-- A drain that starts: its region is judged and applied, or held open by an emission (R252). -/
theorem exec_updDrain (hc : ∀ n, s.core.commit ≠ .updDrain n) (hva : (s.core.rg a).toNat < 2 ^ 57)
    (hlow : (s.core.rg a).toNat / 2 % 32 = 0) (hf : Finds s ((s.core.rg a).toNat / 64 * 64) r) (hl : r.lost s = false)
    {hits : List Region} (hh : Does (acc (triggered (s.core.who true sc) r.base (r.phys r.base) 1)) s hits s)
    (hfar : s.noneFar (maxScope sc r.scope)) :
    let v := if (s.core.rg a).getLsbD 0 then changedIn s r.slot fun q => { q with closed := true } else s
    let x := settlePairs r.slot { v with core := { v.core with commit := .updDrain r.slot } }
    let y := applyRegion r.slot x
    ∀ z, x.regions.find? (·.slot == r.slot) = some z →
      (z.closed = false → z.lost x = false → exec (.updDrain a sc) s = .next (y.did 4 { y.core with commit := .none })) ∧
      (z.closed = true → ¬ Holding z → z.lost x = false → exec (.updDrain a sc) s =
        .next ({ y with regions := y.regions.filter (·.slot != r.slot) }.did 4 { y.core with commit := .none })) ∧
      (z.closed = true → Holding z → exec (.updDrain a sc) s =
        .next { x with core := { x.core with stall := x.core.busyMask } }) := by
  intro v x y z hz
  have hrun := run_drainRegion hc hva hlow hf hl hh hfar
  have hx : settlePairs r.slot { v with core := { v.core with commit := .updDrain r.slot } } = x := rfl
  clear_value x
  obtain ⟨-, hopen, hclosed, hheld⟩ := run_drainRest hx hz
  exact ⟨fun hc hl => runSeq_newCore (hrun.trans (hopen hc hl)), fun hc hh hl => runSeq_newCore (hrun.trans (hclosed hc hh hl)),
    fun hc hh => runSeq_ok (hrun.trans (hheld hc hh))⟩

/-- The wait of a drain for emissions ends its context once the pool region is lost (R240). -/
theorem exec_updDrain_lost (hc : s.core.commit = .updDrain r.slot)
    (hz : (settlePairs r.slot s).regions.find? (·.slot == r.slot) = some r)
    (hgo : r.closed = true → ∀ h ∈ r.holds, h.left = 0 ∧ ∀ p ∈ r.transit ++ r.waiting, p.owner ≠ h.owner)
    (hl : r.lost s = true) :
    exec (.updDrain a sc) s = .next (endContext 0x33 s.core.pc (wrapN r.base) s.core.id s) := by
  have hpools := lost_of_pools (calm_settlePairs r.slot s).pools r
  have hwaits : ¬ (r.closed = true ∧ Holding r) := by
    rintro ⟨hcl, h, hh, hleft | ⟨p, hp, howner⟩⟩
    · exact hleft (hgo hcl h hh).1
    · exact (hgo hcl h hh).2 p hp howner
  exact runSeq_error ((run_drainRegion_later hc).trans ((run_drainRest rfl hz).1 hwaits (hpools.trans hl)))
end

/-! ## `upd.rgn` (R201, R246) -/

theorem runA_of_acc {α : Type} {m : A α} {s t : State} {v : α} (h : Does (acc m) s v t) : runA m s = .ok (.ok v, t) := by
  unfold Does acc at h
  rw [run_bind] at h
  split at h
  · next a u hr =>
    cases a with
    | ok x =>
      cases h
      exact hr
    | error e => cases h
  · cases h

/-- A tag changes no region. -/
theorem regions_tagLine {w : Who} {wr : Bool} {addr key : Nat} {s t : State} (h : Does (acc (tagLine w wr addr key)) s () t) :
    t.regions = s.regions := by
  have h := runA_of_acc h
  unfold tagLine at h
  split at h
  · cases h
    rfl
  · simp only [runA_bind, runA_get, runA_ite, runA_throw, runA_set] at h
    split at h
    · cases h
    · split at h
      · cases h
      · cases h
        rfl

/-- A free entry is the slot of no region. -/
theorem slot_ne_of_freeSlot {s : State} {k : Nat} (h : freeSlot s = some k) {z : Region} (hz : z ∈ s.regions) : z.slot ≠ k := by
  have hfree := List.find?_some h
  rw [Bool.not_eq_true', List.any_eq_false] at hfree
  exact fun he => hfree z hz (beq_iff_eq.2 he)

/-- The watches of a core on lines that hold keys of a region, fired. -/
def firedKeys (m : Region) (d : Core) : Core :=
  { d with watch := d.watch.map fun w => if m.touchesKeys (64 * w.pline) 64 = true then { w with fired := true } else w }

theorem firedKeys_eq (m : Region) (c : Core) : firedKeys m c = match c.watch with
    | some w => if m.touchesKeys (64 * w.pline) 64 then { c with watch := some { w with fired := true } } else c
    | none => c := by
  have hsame {v : Option Watch} (hv : c.watch = v) : { c with watch := v } = c := by
    subst hv
    rfl
  unfold firedKeys
  split
  · next w hw =>
    rw [hw, Option.map_some]
    split
    · rfl
    · exact hsame hw
  · next hw => rw [hw, Option.map_none]; exact hsame hw

theorem fireKeys_eq (m : Region) (s : State) : fireKeys m s = { s with
    core := firedKeys m s.core, others := s.others.map (firedKeys m), cache := { s.cache with
      l1 := s.cache.l1.filter fun e => !m.touchesKeys (64 * (e.leaf.pa / 64)) 64
      cluster := s.cache.cluster.filter fun e => !m.touchesKeys (64 * e.line) 64 } } := by
  exact congrArg (fun f : Core → Core => { s with
    core := f s.core, others := s.others.map f, cache := s.cache.dropCopies fun l => m.touchesKeys (64 * l) 64 })
    (funext fun c => (firedKeys_eq m c).symm)

section
variable {a : Reg} {sc : BitVec 3} {s t x : State} {bs : List Byte} {n : Region} {p q : List (Nat × Nat)} {k : Nat}

/-- A declaration of a base that no region has, in a free entry (R201, R246). -/
theorem exec_updRgn (ha : (s.core.rg a).toNat % 64 = 0)
    (hr : Does (acc (gRead (s.core.who true sc) (s.core.rg a).toNat 64)) s bs t)
    (hn : newRegion 1024 (leVec 512 bs) s.core [] = n) (hok : regionOk n = true)
    (hapart : ∀ z ∈ t.regions, z.base ≠ n.base ∧ n.meets z = false) (hk : freeSlot t = some k)
    (hquota : (t.regions.filter (·.part == s.core.partid)).length < t.pg s.core.partid 0x68 2)
    (hp : Does (acc (pinPages (s.core.who true sc) n.base n.bytes)) t p t)
    (hq : Does (acc (pinPages (s.core.who true sc) n.sbase n.ssize)) t q t) {m : Region} (hm : { n with pages := p ++ q } = m)
    (hroom : ((t.regions.filter fun z => z.home == m.home).map Region.slots).sum + m.slots ≤ 16384) (hfar : t.noneFar sc)
    (ht : Does (acc (tagLine (s.core.who true sc) true m.sbase (physTag (m.phys m.sbase / 64)))) t () x) :
    let z := physStore (s.core.who true sc) (m.phys m.sbase) (leBytes 64 0)
      { x with regions := t.regions ++ [{ m with slot := k }] }
    exec (.updRgn a sc) s = .next ((fireKeys m z).did 4 (fireKeys m z).core) := by
  intro z
  have hregions := regions_tagLine ht
  have hr : acc (gRead (s.core.who true sc) (s.core.rg a).toNat 64) s = .ok (bs, t) := hr
  have hp : acc (pinPages (s.core.who true sc) n.base n.bytes) t = .ok (p, t) := hp
  have hq : acc (pinPages (s.core.who true sc) n.sbase n.ssize) t = .ok (q, t) := hq
  have ht : acc (tagLine (s.core.who true sc) true m.sbase (physTag (m.phys m.sbase / 64))) t = .ok ((), x) := ht
  have hbase (y : Region) (hy : y ∈ t.regions) : (y.base == n.base) = false := beq_eq_false_iff_ne.2 (hapart y hy).1
  have hold : regionAt t n.base = none :=
    List.find?_eq_none.2 fun y hy => by rw [hbase y hy, Bool.and_false]; exact Bool.false_ne_true
  have hother : t.regions.any (fun y => y.base == n.base && y.part != n.part) = false :=
    List.any_eq_false.2 fun y hy => by rw [hbase y hy]; exact Bool.false_ne_true
  have hmeets : t.regions.any (fun y => y.base != n.base && n.meets y) = false :=
    List.any_eq_false.2 fun y hy => by rw [(hapart y hy).2, Bool.and_false]; exact Bool.false_ne_true
  have hhome : t.regions.filter (fun y => !(y.part == n.part && y.base == m.base) && y.home == m.home) =
      t.regions.filter fun y => y.home == m.home :=
    List.filter_congr fun y hy => by rw [show m.base = n.base from hm ▸ rfl, hbase y hy, Bool.and_false]; rfl
  have hkeep : x.regions.filter (·.slot != k) = t.regions := by
    rw [hregions]
    exact List.filter_eq_self.2 fun y hy => bne_iff_ne.2 (slot_ne_of_freeSlot hk hy)
  refine runSeq_ok (t := fireKeys m z) ?_
  simp only [declareRegion, run_bind, run_get, run_need, ha, decide_true, if_true, hr, hn, hok, hother, hmeets, Bool.not_false,
    hk, hold, hquota, hp, hq, hm, hhome, hroom, run_waitFar hfar, ht, run_modS, Option.getD_some, hkeep, run_pure]
  subst hm
  rfl
end

end Sys2Proof
end

section
/-! PROOFS. `upd` in its queue (O55, R202, R248, R249). -/
namespace Sys2Proof
open Machine

/-! ## Pairs sent one after the other -/

/-- Pairs sent in their order. -/
def sentAll (slot : Nat) (em : BitVec 16) (who : Nat) (ps : List (Nat × Nat)) (y : State) : State :=
  ps.foldl (fun y p => sentTo slot em who p.1 p.2 y) y

theorem emitterOf_sentAll (slot : Nat) (em : BitVec 16) (who : Nat) (ps : List (Nat × Nat)) (y : State) :
    emitterOf (sentAll slot em who ps y).core = emitterOf y.core := by
  induction ps generalizing y with
  | nil => rfl
  | cons p ps ih => exact (ih _).trans (emitterOf_sentTo ..)

section
variable {slot who : Nat} {em : BitVec 16}

/-- Each pair is accepted at once: all are sent. -/
theorem run_emitFrom (ps : List (Nat × Nat)) (y : State) (hem : emitterOf y.core = em)
    (h : ∀ m, m ≤ ps.length → outstanding slot who (sentAll slot em who (ps.take m) y) = false) :
    emitFrom slot who ps none y = .ok (ps.length, sentAll slot em who ps y) := by
  induction ps generalizing y with
  | nil => rfl
  | cons p ps ih =>
    have hfirst : outstanding slot who (sentTo slot em who p.1 p.2 y) = false := h 1 (by simp)
    have hrest := ih (sentTo slot em who p.1 p.2 y) ((emitterOf_sentTo ..).trans hem) fun m hm => h (m + 1) (by simpa using hm)
    simp only [emitFrom, run_bind, run_emitPair, hem, hfirst, Bool.not_false, run_ite, if_true, hrest, run_pure]
    rfl

/-- A pair is not accepted at once: it is the last one sent. -/
theorem run_emitFrom_stop (ps : List (Nat × Nat)) (y : State) (hem : emitterOf y.core = em) {m : Nat} (hm : m < ps.length)
    (hlast : outstanding slot who (sentAll slot em who (ps.take (m + 1)) y) = true)
    (h : ∀ j, j ≤ m → outstanding slot who (sentAll slot em who (ps.take j) y) = false) :
    emitFrom slot who ps none y = .ok (m + 1, sentAll slot em who (ps.take (m + 1)) y) := by
  induction ps generalizing y m with
  | nil => exact absurd hm (Nat.not_lt_zero m)
  | cons p ps ih =>
    cases m with
    | zero =>
      have hfirst : outstanding slot who (sentTo slot em who p.1 p.2 y) = true := hlast
      simp only [emitFrom, run_bind, run_emitPair, hem, hfirst, Bool.not_true, run_ite, Bool.false_eq_true, if_false, run_pure]
      rfl
    | succ m =>
      have hfirst : outstanding slot who (sentTo slot em who p.1 p.2 y) = false := h 1 (by omega)
      have hrest := ih (sentTo slot em who p.1 p.2 y) ((emitterOf_sentTo ..).trans hem) (m := m) (by simpa using hm) hlast
        fun j hj => h (j + 1) (by omega)
      simp only [emitFrom, run_bind, run_emitPair, hem, hfirst, Bool.not_false, run_ite, if_true, hrest, run_pure]
      rfl
end

/-! ## The entry (R202, R248) -/

/-- The pairs of an `upd`, as the keys and the values of its tiles. -/
def pairsOf (k v : Tile) (n : Nat) : List (Nat × Nat) :=
  (List.range n).map fun j => (((k.ints n).getD j 0).toNat, v.el (fmtBits v.fmt) j)

theorem length_pairsOf (k v : Tile) (n : Nat) : (pairsOf k v n).length = n := by simp [pairsOf]

theorem length_ints (k : Tile) (n : Nat) : (k.ints n).length = n := by simp [Tile.ints]

theorem updPairs_eq (k v : Tile) (n : Nat) : (updPairs k v n).map (fun p => (p.1.toNat, p.2)) = pairsOf k v n := by
  refine List.ext_getElem (by simp [updPairs, length_pairsOf, length_ints]) fun j h _ => ?_
  have hj : j < (k.ints n).length := by simpa [updPairs] using h
  simp [updPairs, pairsOf, List.getElem?_eq_getElem hj]

section
variable {r : Region} {key tile : BitVec 4} {e : Entry} {u : State} {n : Nat} {ps : List (Nat × Nat)}
  (h0 : e.progress = 0) (hkept : e.seqKept = none) (hn : shRows e.shA * shCols e.shA = n)
  (hps : pairsOf (u.core.tile key) (u.core.tile tile) n = ps)
include h0 hkept hn hps

/-- An entry whose pairs are all accepted at once is done. -/
theorem run_updGo (h : ∀ m, m ≤ n → outstanding r.slot (2 * e.num)
      (sentAll r.slot (emitterOf u.core) (2 * e.num) (ps.take m) u) = false) :
    updGo r key tile e u = .ok (.done Eff.none,
      changedIn (sentAll r.slot (emitterOf u.core) (2 * e.num) ps u) r.slot (·.unhold u.core false)) := by
  have hlen : ps.length = n := hps ▸ length_pairsOf _ _ _
  have hfirst : outstanding r.slot (2 * e.num) u = false := h 0 (Nat.zero_le n)
  have hall := h n le_rfl
  rw [← hlen, List.take_length] at hall
  have hsent := run_emitFrom (slot := r.slot) (who := 2 * e.num) ps u rfl fun m hm => h m (hlen ▸ hm)
  simp only [updGo, run_bind, run_getC, run_get, hfirst, run_ite, Bool.false_eq_true, if_false, run_pure, hn, updPairs_eq, hps, h0,
    List.drop_zero, hkept, hsent, hlen, Nat.zero_add, hall, Bool.not_false, decide_true, Bool.and_self, if_true, run_modRegion]

/-- An entry stays with the pair that is not accepted at once. -/
theorem run_updGo_stop {m : Nat} (hm : m < n)
    (hlast : outstanding r.slot (2 * e.num) (sentAll r.slot (emitterOf u.core) (2 * e.num) (ps.take (m + 1)) u) = true)
    (h : ∀ j, j ≤ m → outstanding r.slot (2 * e.num) (sentAll r.slot (emitterOf u.core) (2 * e.num) (ps.take j) u) = false) :
    updGo r key tile e u = .ok (.part (m + 1),
      changedIn (sentAll r.slot (emitterOf u.core) (2 * e.num) (ps.take (m + 1)) u) r.slot
        (·.holdLeft u.core false (2 * e.num) (n - (m + 1)))) := by
  have hlen : ps.length = n := hps ▸ length_pairsOf _ _ _
  have hfirst : outstanding r.slot (2 * e.num) u = false := h 0 (Nat.zero_le m)
  have hsent := run_emitFrom_stop (slot := r.slot) (who := 2 * e.num) ps u rfl (hlen ▸ hm) hlast h
  simp only [updGo, run_bind, run_getC, run_get, hfirst, run_ite, Bool.false_eq_true, if_false, run_pure, hn, updPairs_eq, hps, h0,
    List.drop_zero, hkept, hsent, Nat.zero_add, hlast, Bool.not_true, Bool.and_false, run_modRegion]
end

/-- An entry that starts is judged, and holds its region (R202, R248). -/
theorem run_performUpd {key tile : BitVec 4} {sc : BitVec 3} {e : Entry} {u : State} {r : Region}
    (hstarted : e.started = false) (hdet : u.core.det = false) (hclap : u.core.injClap = false) (hf : Finds u e.g0.toNat r)
    (hA : shRows e.shA ≠ 0) (hT : shRows e.shT ≠ 0) (hk : (u.core.tile key).indexOk = true)
    (hfmt : (u.core.tile tile).fmt = r.fmt)
    (hsp : (u.core.tile tile).sp = false) (hrows : shRows e.shA = shRows e.shT) (hcols : shCols e.shA = shCols e.shT)
    (hkeys : ∀ z ∈ (u.core.tile key).ints (shRows e.shA * shCols e.shA), 0 ≤ z ∧ z < r.size)
    (hfar : u.noneFar (maxScope sc r.scope)) :
    performUpd key tile sc e u =
      updGo r key tile e (changedIn u r.slot (·.hold u.core false (2 * e.num) (shRows e.shA * shCols e.shA))) := by
  have hinside : ((u.core.tile key).ints (shRows e.shA * shCols e.shA)).findIdx?
      (fun x => decide (x < 0) || decide ((r.size : Int) ≤ x)) = none := by
    rw [List.findIdx?_eq_none_iff]
    intro z hz
    have := hkeys z hz
    simp
    omega
  have htag : tagEmission r (u.core.whoIn 3 sc) e.g0 u = .ok ((), u) := by
    rw [tagEmission, if_pos (by rw [show (u.core.whoIn 3 sc).det = u.core.det from rfl, hdet]; rfl)]
    rfl
  have hshaped : shaped [e.shA, e.shT] u = .ok ((), u) := by simp [shaped, hA, hT]
  simp only [performUpd, run_bind, hshaped, run_get, hstarted, run_lookupRegion hf, run_needX, hk, hfmt, hsp, hrows, hcols,
    beq_self_eq_true, Bool.not_false, Bool.and_self, if_true]
  rw [← hrows, ← hcols, hinside]
  simp only [htag, run_bind, run_waitFar hfar, run_engineCommand, handedOver_eq hclap, run_modRegion]

theorem perform_entry (i : Instr) (s u : State) : perform (s.entry i) u = performNow (s.entry i) u := by
  unfold perform
  rw [show (s.entry i).started = false from rfl, Bool.not_false, if_pos rfl]

/-- The start of an entry changes nothing that an `upd` looks at. -/
theorem begun_same (i : Instr) (s : State) : (s.begun i).regions = s.regions ∧ (s.begun i).core.tiles = s.core.tiles ∧
    (s.begun i).core.det = s.core.det ∧ (s.begun i).core.id = s.core.id ∧ (s.begun i).core.teamid = s.core.teamid ∧
    (s.begun i).core.partid = s.core.partid ∧ (s.begun i).core.inst = s.core.inst ∧ (s.begun i).core.ctx = s.core.ctx ∧
    (s.begun i).core.injClap = s.core.injClap := by
  obtain ⟨x, y, z, n, m, r, d, b, o, p, w, k, a, u, v, f, g, hb⟩ := begun_frame i s
  rw [hb]
  exact ⟨rfl, rfl, rfl, rfl, rfl, rfl, rfl, rfl, rfl⟩

/-- What a core holds of a region goes by its context, its task and its member. -/
theorem holds_congr {c d : Core} (hctx : d.ctx = c.ctx) (hinst : d.inst = c.inst) (hteam : d.teamid = c.teamid) (r : Region)
    (seq : Bool) (owner left : Nat) : r.hold d seq owner left = r.hold c seq owner left ∧
    r.holdLeft d seq owner left = r.holdLeft c seq owner left ∧ r.unhold d seq = r.unhold c seq := by
  have hholder : d.holder seq = c.holder seq := by rw [Core.holder, hinst, hteam, Core.holder]
  have hby : (fun h : Hold => h.by d seq) = fun h => h.by c seq := funext fun h => by rw [Hold.by, hctx, hholder, Hold.by]
  refine ⟨by rw [Region.hold, hctx, hholder, Region.hold], ?_, ?_⟩
  · exact congrArg (fun f : Hold → Bool => { r with
      holds := r.holds.map fun h => if f h then { h with owner, left } else h }) hby
  · exact congrArg (fun f : Hold → Bool => { r with holds := r.holds.filter fun h => !f h }) hby

section
variable {tok : Tok} {key tile : BitVec 4} {a : Reg} {sc : BitVec 3} {s : State} {r : Region} {i : Instr}
  (hi : i = .upd tok key tile a sc) (hcan : s.canRun i) (hdet : s.core.det = false) (hf : Finds s (s.core.rg a).toNat r)
  (hA : shRows (s.entry i).shA ≠ 0) (hT : shRows (s.entry i).shT ≠ 0) (hk : (s.core.tile key).indexOk = true)
  (hfmt : (s.core.tile tile).fmt = r.fmt) (hsp : (s.core.tile tile).sp = false)
  (hrows : shRows (s.entry i).shA = shRows (s.entry i).shT) (hcols : shCols (s.entry i).shA = shCols (s.entry i).shT)
  (hfar : (s.begun i).noneFar (maxScope sc r.scope)) {n : Nat} (hn : shRows (s.entry i).shA * shCols (s.entry i).shA = n)
  (hkeys : ∀ z ∈ (s.core.tile key).ints n, 0 ≤ z ∧ z < r.size)

/-- The state in which the pairs of an `upd` begin to go out. -/
def updHeld (i : Instr) (r : Region) (n : Nat) (s : State) : State :=
  changedIn (s.begun i) r.slot (·.hold s.core false (2 * (s.entry i).num) n)

theorem tile_updHeld (i : Instr) (r : Region) (n : Nat) (s : State) (t : BitVec 4) :
    (updHeld i r n s).core.tile t = s.core.tile t := by
  obtain ⟨-, htiles, -⟩ := begun_same i s
  show (s.begun i).core.tile t = _
  unfold Core.tile
  rw [htiles]

theorem emitterOf_updHeld (i : Instr) (r : Region) (n : Nat) (s : State) :
    emitterOf (updHeld i r n s).core = emitterOf s.core := by
  obtain ⟨-, -, hd, hid, hteam, -⟩ := begun_same i s
  show emitterOf (s.begun i).core = _
  rw [emitterOf, hd, hid, hteam, emitterOf]

theorem holds_updHeld (i : Instr) (r : Region) (n : Nat) (s : State) (seq : Bool) (owner left : Nat) :
    (fun q : Region => q.hold (updHeld i r n s).core seq owner left) = (fun q => q.hold s.core seq owner left) ∧
    (fun q : Region => q.holdLeft (updHeld i r n s).core seq owner left) = (fun q => q.holdLeft s.core seq owner left) ∧
    (fun q : Region => q.unhold (updHeld i r n s).core seq) = fun q => q.unhold s.core seq := by
  obtain ⟨-, -, -, -, hteam, -, hinst, hctx, -⟩ := begun_same i s
  refine ⟨funext fun q => ?_, funext fun q => ?_, funext fun q => ?_⟩
  all_goals obtain ⟨hhold, hleft, hunhold⟩ := holds_congr (d := (updHeld i r n s).core) hctx hinst hteam q seq owner left
  · exact hhold
  · exact hleft
  · exact hunhold

include hi hcan hdet hf hA hT hk hfmt hsp hrows hcols hfar hn hkeys in
theorem perform_upd : perform (s.entry i) (s.begun i) = updGo r key tile (s.entry i) (updHeld i r n s) := by
  subst hi hn
  obtain ⟨-, -, -, -, -, -, -, -, hclap, -⟩ := hcan
  obtain ⟨hat, hin, hclosed, hreplacing⟩ := hf
  obtain ⟨hreg, htiles, hd, hid, hteam, hpart, hinst, hctx, hcl⟩ := begun_same (.upd tok key tile a sc) s
  have htile (t : BitVec 4) : (s.begun (.upd tok key tile a sc)).core.tile t = s.core.tile t := by rw [Core.tile, htiles, Core.tile]
  have hat : regionAt (s.begun (.upd tok key tile a sc)) (s.core.rg a).toNat = some r := by
    rw [regionAt, hreg, hpart]
    exact hat
  rw [perform_entry]
  refine (run_performUpd (e := s.entry (.upd tok key tile a sc)) (u := s.begun (.upd tok key tile a sc)) rfl
    (hd.trans hdet) (hcl.trans hclap) ⟨hat, by rw [hid]; exact hin, hclosed, hreplacing⟩ hA hT (by rw [htile]; exact hk) (by rw [htile]; exact hfmt)
    (by rw [htile]; exact hsp) hrows hcols (by rw [htile]; exact hkeys) hfar).trans ?_
  exact congrArg (fun f => updGo r key tile _ (changedIn _ r.slot f))
    (funext fun q => (holds_congr hctx hinst hteam q false _ _).1)

/-- The state once the first pairs of an `upd` are sent. -/
def updAfter (i : Instr) (r : Region) (n : Nat) (ps : List (Nat × Nat)) (s : State) : State :=
  sentAll r.slot (emitterOf s.core) (2 * (s.entry i).num) ps (updHeld i r n s)

include hi hcan hdet hf hA hT hk hfmt hsp hrows hcols hfar hn hkeys

variable {ps : List (Nat × Nat)} (hps : pairsOf (s.core.tile key) (s.core.tile tile) n = ps)
include hps

/-- An `upd` whose pairs are all accepted at once completes. -/
theorem completes_upd
    (h : ∀ m, m ≤ n → outstanding r.slot (2 * (s.entry i).num) (updAfter i r n (ps.take m) s) = false) :
    s.completes i (changedIn (updAfter i r n (ps.take n) s) r.slot (·.unhold s.core false)) ⟨[], [], [], 0⟩ := by
  have hexec : exec i s = routed i s := by subst hi; rfl
  have hem := emitterOf_updHeld i r n s
  have hlen : ps.take n = ps := by rw [← hps, List.take_of_length_le (length_pairsOf _ _ _).le]
  refine completes_of_done hcan hexec ?_
  rw [perform_upd hi hcan hdet hf hA hT hk hfmt hsp hrows hcols hfar hn hkeys]
  refine (run_updGo (ps := ps) rfl rfl hn (by rw [tile_updHeld, tile_updHeld]; exact hps) (by rw [hem]; exact h)).trans ?_
  obtain ⟨-, -, hunhold⟩ := holds_updHeld i r n s false 0 0
  rw [hem, hlen, hunhold]
  rfl

/-- An `upd` with a pair that is not accepted at once stays there. -/
theorem exec_upd_stop {m : Nat} (h0 : 0 < m) (hm : m ≤ n)
    (hlast : outstanding r.slot (2 * (s.entry i).num) (updAfter i r n (ps.take m) s) = true)
    (h : ∀ j, j < m → outstanding r.slot (2 * (s.entry i).num) (updAfter i r n (ps.take j) s) = false) :
    let left : Entry := { s.entry i with started := true, progress := m, read := (s.entry i).reads (s.begun i).core }
    let rest := changedIn (updAfter i r n (ps.take m) s) r.slot (·.holdLeft s.core false (2 * (s.entry i).num) (n - m))
    exec i s = .next { rest with core := rest.core.setHead (queueOf i) left } := by
  obtain ⟨m, rfl⟩ : ∃ j, m = j + 1 := ⟨m - 1, by omega⟩
  have hexec : exec i s = routed i s := by subst hi; rfl
  have hem := emitterOf_updHeld i r n s
  obtain ⟨-, hleft, -⟩ := holds_updHeld i r n s false (2 * (s.entry i).num) (n - (m + 1))
  refine exec_routed_part hcan hexec (Nat.succ_ne_zero m) ?_
  rw [perform_upd hi hcan hdet hf hA hT hk hfmt hsp hrows hcols hfar hn hkeys]
  refine (run_updGo_stop (ps := ps) rfl rfl hn (by rw [tile_updHeld, tile_updHeld]; exact hps) hm (by rw [hem]; exact hlast)
    fun j hj => by rw [hem]; exact h j (by omega)).trans ?_
  rw [hem, hleft]
  rfl
end

/-- Settles O55: each word by its rule above; an `upd` sends its pairs in turn until one is not accepted at once, and a step of the
Tumbler leaves the emitter and the pool regions as they are. -/
theorem updateWords : Obligations.UpdateWords := by
  unfold Obligations.UpdateWords
  intro tok key tile d a b sc s t r c av bv own changed em sent found
  refine ⟨fun hc hf hk hfar ht => exec_updS hc hf hk hfar ht, fun n hc => exec_updS_later hc, ?_,
    fun hf hl => exec_updFlags_lost hf hl, fun hf hl ht => exec_updFlags hf hl ht, fun hc hva hlow hf hl => ?_,
    fun hc hva hlow hf hl hh hfar => ?_, fun hc hz hgo hl => ?_, ?_⟩
  · intro bs p q k ha hr n hok hapart hk hquota hp hq m hroom hfar x ht z fired copied y
    refine (exec_updRgn ha hr rfl hok hapart hk hquota hp hq rfl hroom hfar ht).trans ?_
    show Host.Outcome.next ((fireKeys m z).did 4 (fireKeys m z).core) = _
    rw [fireKeys_eq]
    rfl
  · exact runSeq_error (run_drainRegion_lost hc hva hlow hf hl)
  · obtain ⟨hits, hh⟩ := hh
    exact exec_updDrain hc hva hlow hf hl hh hfar
  · exact exec_updDrain_lost hc hz hgo hl
  · intro i e k v n ps after hcan hdet hf hA hT hk hfmt hsp hrows hcols hkeys hfar
    exact ⟨fun h => completes_upd rfl hcan hdet hf hA hT hk hfmt hsp hrows hcols hfar rfl hkeys rfl h,
      fun m h0 hm hlast h => exec_upd_stop rfl hcan hdet hf hA hT hk hfmt hsp hrows hcols hfar rfl hkeys rfl h0 hm hlast h⟩

end Sys2Proof
end
